-- ==== Sys2Proof/Word.lean ====
section
/-! DEFINITION. The word types and their plainest arithmetic: 64-bit registers, bytes, 28-bit fabric addresses. -/

namespace Sys2Proof

/-- A 64-bit register or memory word (R122, R85). -/
abbrev Word := BitVec 64

/-- A byte of memory or of a host buffer. -/
abbrev Byte := BitVec 8

/-- A fabric address, laid out as Table 1.3 (R20). -/
abbrev FAddr := BitVec 28

/-- A 384-bit hash or measurement value (SHA-384). -/
abbrev Hash := BitVec 384

end Sys2Proof
end

