-- ==== Sys2Proof/Config.lean ====
section
/-! DEFINITION. What an implementation or the outside fixes and the spec leaves open: free values and the cryptographic functions, none with a body. -/

namespace Sys2Proof.Config

/-- A fresh word for the n-th free value drawn (log 9). -/
opaque freeWord : Nat → Word

/-- A detail word of a fault record whose content, or whose layout, the spec does not give: kind, word 0 or 1, how many records came before, and what the spec says it carries (Table 11.1, log 11). -/
opaque openDetail (kind word n : Nat) (carried : List Nat) : Word

/-- The supply voltage at a unit at a time, the VOLT of a controller fault record (Table 11.1; log 9). -/
opaque supplyMv (unit time : Nat) : BitVec 16

/-- The blocks of the dies that carry the factory bad-block marker (R411; log 200). -/
opaque factoryBad : List Nat

/-- SHA-384 of a byte string (log 10). -/
opaque sha384 : List Byte → Hash

/-- A key held in ROM: kind 0 controller firmware, 1 licences, 2 agent firmware, 3 pattern sets; by index (R75, R258; log 10). -/
opaque romKey (kind index : Nat) : List Byte

/-- ECDSA P-384 verification of a signature over a SHA-384 hash (R75, R178; log 10). -/
opaque ecdsaVerify (key : List Byte) (hash : Hash) (signature : List Byte) : Bool

/-- The ECDSA P-384 signature by the device key over a SHA-384 hash (R327; log 10). -/
opaque ecdsaSign (hash : Hash) : List Byte

/-- The IV base that goes with a session key, by its generation (R114, R326; log 10). -/
opaque ivBase (key : Nat) : BitVec 96

/-- AES-256-GCM decryption: key generation, nonce, additional data, ciphertext with tag; none where the tag fails (R115; log 10). -/
opaque gcmOpen (key : Nat) (nonce : BitVec 96) (aad cipher : List Byte) : Option (List Byte)

/-- AES-256-GCM encryption: key generation, nonce, additional data, plaintext (R116; log 10). -/
opaque gcmSeal (key : Nat) (nonce : BitVec 96) (aad plain : List Byte) : List Byte

/-- Whether a binary64 result counts as tiny before rounding, which R144 leaves to IEEE 754's two choices (log 9). -/
opaque tinyBefore : Bool

/-- Whether a fused multiply-add of zero, infinity and a quiet NaN is invalid, which IEEE 754 leaves open (log 9). -/
opaque fmaNanInvalid : Bool

/-- Bytes of the table space in HBM, which the spec does not give (R168; log 9). -/
opaque tableSpace : Nat

/-- ES of a fabric-model table, modulo 7, and its elements, which the spec does not give (R168; log 150). -/
opaque modelTable : Nat → Nat × Nat

/-- The key that an agent unwraps from a KEY_DELIVER body with its identity key; none where the tag fails (R331; log 10). -/
opaque unwrapKey (agent : Nat) (body : List Byte) : Option (BitVec 256)

/-- Wraps a key for an agent as bytes 0x40 to 0xD7 of KEY_DELIVER: ephemeral key, encrypted key and tag (R331; log 10). -/
opaque wrapKey (agent nonce : Nat) (head : List Byte) (key : BitVec 256) : List Byte

/-- Public halves of a broker key pair: P-384 key of 104 bytes, then the ML-KEM-1024 encapsulation key of 1,568 bytes (R327; log 10). -/
opaque brokerPub (gen : Nat) : List Byte

/-- Opens the secret of a KEY_SHARE with a broker key pair: ciphertext and party key, derivation info, additional data, encrypted secret with its tag (R329; log 10). -/
opaque shareOpen (gen : Nat) (ct info aad secret : List Byte) : Option (BitVec 256)

/-- 104 bytes hold a valid P-384 point (R328; log 10). -/
opaque validPoint (key : List Byte) : Bool

/-- Whether a network, 0 the ordinary and 1 the tensor network, joins an agent and the controller at a fabric time as far as nothing in the model decides it (R15, R17; log 188). -/
opaque netReaches (net agent time : Nat) : Bool

/-- MAC address of a controller unit, 1 or 2, which the spec does not give (Table 7.4; log 9). -/
opaque ctrlMac (unit : Nat) : Nat

/-- The bytes in which TELEMETRY_READ returns an export or power shares, whose layout the spec does not give (R337; log 9). -/
opaque exportForm (kind : Nat) (fields : List Nat) : List Byte

/-- The hash of source, destination and VC that spreads flows over the links of a port, whose function the spec does not give (R32; log 9). -/
opaque linkHash (src dst vc : Nat) : Nat

/-- Certificate chain of slot 0: Castik root, device CA, device identity certificate (R324; log 10). -/
opaque certChain : List Byte

/-- The responder's public key and ML-KEM ciphertext for a requester's share (R325; log 10). -/
opaque keyExchangeShare (nonce : Nat) (share : List Byte) : List Byte

/-- The application data key of a session: session draw, direction, key updates so far, as a generation number (R326; log 10). -/
opaque sessionKey (nonce dir updates : Nat) : Nat

/-- The requester's FINISH verifies: session draw, leaf key, signature and HMAC (R324; log 10). -/
opaque finishVerifies (nonce : Nat) (leafKey auth : List Byte) : Bool

/-- The pair key of two device identities, as a generation number (R439; log 10). -/
opaque pairKey (a b : Hash) : Nat

/-- The GCM tag of a shipping frame: pair key, TYPE, FRAME_SEQ, JSN, payload (R446; log 10). -/
opaque shipTag (key ftype seq jsn : Nat) (payload : List Word) : BitVec 128

/-- HBM that the fabric model of a plan needs, GiB, which the spec does not give (R255; log 9). -/
opaque modelGib (plan : List Byte) : Nat

/-- The UTC time stamp of a CPER record, 8 bytes as a number, from fabric time; the spec gives no leap seconds (Table 12.9; log 9). -/
opaque utcStamp (tai : Nat) : Nat

end Sys2Proof.Config
end

