-- ==== Sys2Proof/Machine/Map.lean ====
section
/-! DEFINITION. Sparse tables keyed by a number: lists of pairs with strictly rising keys, so that equal tables are equal data. -/

namespace Sys2Proof.Machine

/-- A sparse table: pairs in strictly rising key order (`FMap.wf`). -/
abbrev FMap (α : Type) := List (Nat × α)

/-- The entry of a key, if the table lists it. -/
def FMap.get {α : Type} : FMap α → Nat → Option α
  | [], _ => none
  | (j, a) :: m, k => if k = j then some a else FMap.get m k

/-- The entry of a key, or the given value of an unlisted key. -/
def FMap.getD {α : Type} (m : FMap α) (k : Nat) (d : α) : α := (FMap.get m k).getD d

/-- Lists the entry, in its place. -/
def FMap.set {α : Type} : FMap α → Nat → α → FMap α
  | [], k, a => [(k, a)]
  | (j, b) :: m, k, a =>
    if k < j then (k, a) :: (j, b) :: m
    else if k = j then (k, a) :: m
    else (j, b) :: FMap.set m k a

/-- Takes the entry of a key out of the table. -/
def FMap.del {α : Type} : FMap α → Nat → FMap α
  | [], _ => []
  | (j, b) :: m, k => if k = j then FMap.del m k else (j, b) :: FMap.del m k

/-- Writes an entry of a table whose unlisted keys read as `d`: writing `d` unlists the key. -/
def FMap.put {α : Type} [DecidableEq α] (m : FMap α) (k : Nat) (a d : α) : FMap α :=
  if a = d then FMap.del m k else FMap.set m k a

/-- Changes the entry of a key that is listed; an unlisted key is left unlisted. -/
def FMap.upd {α : Type} (m : FMap α) (k : Nat) (f : α → α) : FMap α :=
  match FMap.get m k with
  | none => m
  | some a => FMap.set m k (f a)

/-- The canonical form: keys strictly rising. -/
def FMap.wf {α : Type} : FMap α → Bool
  | [] => true
  | [_] => true
  | (i, _) :: (j, b) :: m => decide (i < j) && FMap.wf ((j, b) :: m)

/-- The keys that the table lists, ascending. -/
def FMap.keys {α : Type} (m : FMap α) : List Nat := m.map (·.1)

/-- The entries that the table lists, by ascending key. -/
def FMap.vals {α : Type} (m : FMap α) : List α := m.map (·.2)

/-- Changes every listed entry. -/
def FMap.mapVals {α : Type} (m : FMap α) (f : Nat → α → α) : FMap α := m.map fun p => (p.1, f p.1 p.2)

/-- Keeps the entries that satisfy the test. -/
def FMap.keep {α : Type} (m : FMap α) (f : Nat → α → Bool) : FMap α := m.filter fun p => f p.1 p.2

end Sys2Proof.Machine
end

