-- ==== Sys2Proof/Machine/Types.lean ====
section
/-! DEFINITION. The codes, records and packets that commands carry and that the state holds: fault records, ring entries, packets, instruction fields, and everything the block sends out. -/

namespace Sys2Proof.Machine

/-- The part fitted (Table 0.1). -/
inductive Part where
  | xnu3124 | xnu3148 | xnu3188
  deriving DecidableEq, Repr

/-- The two package feeds, VIN_A and VIN_B (R452), and the two time references A and B (R273). -/
inductive Side where
  | a | b
  deriving DecidableEq, Repr

/-- The classes of a fault record (Table 11.1), in rising order. -/
inductive Cls where
  | note | corrected | degraded | uncorrected | fatal
  deriving DecidableEq, Repr

/-- Portal roles, Table 3.1. -/
inductive Role where
  | none | steward | party | auditor
  deriving DecidableEq, Repr

/-- PT_STATUS.STATE, Table 3.5. -/
inductive PtState where
  | down | resetting | ready | fenced
  deriving DecidableEq, Repr

/-- Power domain states, Table 2.4. -/
inductive DomState where
  | off | waking | on | draining | fenced
  deriving DecidableEq, Repr

/-- Ring kinds, Table 3.12 KIND. -/
inductive RingKind where
  | submit | complete | fault | event
  deriving DecidableEq, Repr

/-- What the host bus answers the channel engine at a ring: the 64 bytes of an entry, or an error of the access to BASE or to SHADOW (Table 3.13; log 167). -/
inductive EntryRead where
  | entry (raw : List Byte)
  | baseError
  | shadowError
  deriving DecidableEq, Repr

/-- Ring states, Table 3.13. -/
inductive RingState where
  | idle | active | fenced | error
  deriving DecidableEq, Repr

/-- Context states, Table 5.2. -/
inductive CtxState where
  | pending | running | halted | blocked | stopping | faulted | ended
  deriving DecidableEq, Repr

/-- Island states, Table 10.1. -/
inductive IslState where
  | free | carving | opn | keyed | boundary | aborted | releasing
  deriving DecidableEq, Repr

/-- Endpoint tenancy states, Table 10.3. -/
inductive Tenancy where
  | unscrubbed | clean | member | scrubbing | quarantined
  deriving DecidableEq, Repr

/-- Agent life states, Table 7.6. -/
inductive Life where
  | rom | loading | verifying | running | fwFault | rejected
  deriving DecidableEq, Repr

/-- Agent installation states, Table 9.5. -/
inductive TsState where
  | opn | prepared | held | committed
  deriving DecidableEq, Repr

/-- Controller phases of an installation, FY_INSTALL.PHASE (Table 9.8). -/
inductive Phase where
  | idle | staging | prepare | quiesce | switches | commit | release | abandon
  deriving DecidableEq, Repr

/-- Fabric states, LH_FAB_STATUS.STATE (Table 8.10). -/
inductive FabState where
  | booting | discovering | ready | readyDegraded | held
  deriving DecidableEq, Repr

/-- Time reference states, Table 8.12. -/
inductive TimeState where
  | unlocked | locked | hold | slew | holdover
  deriving DecidableEq, Repr

/-- Pair roles, Table 14.2. -/
inductive PairRole where
  | unpaired | active | standby | takingOver | relinquished
  deriving DecidableEq, Repr

/-- Suspect states of a unit, Table 12.7. -/
inductive Suspect where
  | healthy | suspect | stepped | stepped2 | condemned
  deriving DecidableEq, Repr

/-- Checker states, AG_CHK_STATE (Table 12.3). -/
inductive ChkState where
  | primary | compare | shadow | dead
  deriving DecidableEq, Repr

/-- Reset causes, LH_RESET_STATUS.CAUSE (Table 11.11). -/
inductive Cause where
  | none | software | fault | hang | watchdog | escalation | pin | tray
  deriving DecidableEq, Repr

/-- The two networks that join agents to the controller (Table 1.1). -/
inductive Net where
  | ordinary | tensor
  deriving DecidableEq, Repr

/-- What executes an Aglek instruction: a context on a hewer, or the micro-sequencer of an agent (R120). -/
inductive Who where
  | ctx (n : Nat)
  | agent (id : Nat)
  deriving DecidableEq, Repr

/-- The fields of an Aglek instruction word beside its opcode (Table 4.2). -/
structure Ins where
  /-- DST [55:51] -/
  dst : BitVec 5 := 0
  /-- SRCA [50:46] -/
  srca : BitVec 5 := 0
  /-- SRCB [45:41] -/
  srcb : BitVec 5 := 0
  /-- PRED [40:38] -/
  pred : BitVec 3 := 0
  /-- NEG [37] -/
  neg : Bool := false
  /-- MOD [36:32] -/
  mod : BitVec 5 := 0
  /-- IMM [31:0] -/
  imm : BitVec 32 := 0
  deriving DecidableEq, Repr

/-- A fault record, Table 11.1, with what the collector knows of its origin (R351). -/
structure Rec where
  /-- SOURCE [27:0] -/
  source : FAddr := 0
  /-- UNIT [11:0] -/
  unit : BitVec 12 := 0
  /-- KIND [11:0], Tables 11.3, 12.10, 13.11, 14.10 -/
  kind : BitVec 12 := 0
  /-- CLASS -/
  cls : Cls := .note
  /-- OP, Table 11.2 -/
  op : BitVec 8 := 0
  /-- TEMP, 0.125 °C -/
  temp : BitVec 16 := 0
  /-- VOLT, mV -/
  volt : BitVec 16 := 0
  /-- FLAGS bit 0 -/
  coalesced : Bool := false
  /-- FLAGS bit 1 -/
  raised : Bool := false
  /-- FLAGS bit 2 (R351) -/
  hidden : Bool := false
  /-- ADDRESS [55:0] -/
  address : BitVec 56 := 0
  /-- ADDRESS [59:56] SPACE -/
  space : BitVec 4 := 0
  /-- FIRST_TIME, ns TAI -/
  firstTime : Nat := 0
  /-- LAST_TIME, ns TAI -/
  lastTime : Nat := 0
  /-- COUNT, saturating -/
  count : Nat := 1
  /-- ISLAND handle -/
  island : Nat := 0
  /-- DETAIL0 -/
  detail0 : Word := 0
  /-- DETAIL1 -/
  detail1 : Word := 0
  /-- The portal whose ring, context, mailbox or access the record arises from (Table 11.6 row 1) -/
  portal : Option Nat := none
  /-- The context that the record counts against (R347) -/
  ctx : Option Nat := none
  /-- The model's own acceptance number, 0 before acceptance -/
  serial : Nat := 0
  /-- The model's own note of what the record is about, where its detail words are open: the feed, activity, pattern set or step -/
  own : Nat := 0
  deriving DecidableEq, Repr

/-- A submission entry, Table 3.18. -/
structure SubEntry where
  /-- OPCODE, Table 3.11 -/
  opcode : BitVec 8 := 0
  /-- FLAGS: bit 0 SEALED, bit 1 FENCE, bit 2 NO_COMPLETION -/
  flags : BitVec 8 := 0
  /-- TAG -/
  tag : BitVec 16 := 0
  /-- LENGTH -/
  length : BitVec 32 := 0
  /-- BUFFER -/
  buffer : Word := 0
  /-- RESULT_BUF -/
  resultBuf : Word := 0
  /-- ARGS, the 40 bytes from 0x18 on -/
  args : List Byte := []
  deriving DecidableEq, Repr

/-- A completion entry, Table 3.20. -/
structure Completion where
  /-- OPCODE, echo -/
  opcode : BitVec 8 := 0
  /-- FLAGS bit 0 SEALED -/
  sealedResult : Bool := false
  /-- FLAGS bit 7 PHASE (R101) -/
  phase : Bool := false
  /-- TAG, echo -/
  tag : BitVec 16 := 0
  /-- STATUS, Table 3.19 -/
  status : BitVec 16 := 0
  /-- SUB_INDEX -/
  subIndex : BitVec 32 := 0
  /-- SUB_RING -/
  subRing : Nat := 0
  /-- TIME -/
  time : Nat := 0
  /-- RESULT bytes -/
  result : List Byte := []
  deriving DecidableEq, Repr

/-- An event notice, Table 3.25. -/
structure Notice where
  /-- EVENT, Table 3.26 -/
  event : BitVec 8 := 0
  /-- PHASE -/
  phase : Bool := false
  /-- ISLAND -/
  island : Nat := 0
  /-- LOST -/
  lost : Nat := 0
  /-- TIME -/
  time : Nat := 0
  /-- DATA0 -/
  data0 : Word := 0
  /-- DATA1 -/
  data1 : Word := 0
  deriving DecidableEq, Repr

/-- The 32-byte packet header by its words, Table 6.1. -/
structure Hdr where
  /-- 0x00: [27:0] DST, [31:28] TYPE -/
  w0 : BitVec 32 := 0
  /-- 0x04: [27:0] SRC, [31:28] FMT -/
  w1 : BitVec 32 := 0
  /-- 0x08: EPOCH -/
  epoch : BitVec 32 := 0
  /-- 0x0C: PKEY -/
  pkey : BitVec 16 := 0
  /-- 0x0E: SEQ -/
  seq : BitVec 16 := 0
  /-- 0x10: ROUTE -/
  route : BitVec 16 := 0
  /-- 0x12: MCAST, MDIM, POISON, LEN, STREAM or OPCODE -/
  h12 : BitVec 16 := 0
  /-- 0x14: BCV, or CONTEXT, SUB and ARG -/
  bcv : Word := 0
  /-- 0x1C: PCHK -/
  pchk : BitVec 32 := 0
  deriving DecidableEq, Repr

/-- A packet: header and payload. -/
structure Pkt where
  /-- Header -/
  hdr : Hdr := {}
  /-- Payload bytes, empty for a control packet -/
  payload : List Byte := []
  deriving DecidableEq, Repr

/-- A management control packet or MGMT packet at an agent: who asked, under which unit and network (R16, R218). -/
structure Req where
  /-- CONTEXT of the request, copied into the answer (R218) -/
  context : BitVec 24 := 0
  /-- Controller unit index that sent it, 1 or 2 (R23, R451) -/
  ctrl : Nat := 1
  /-- Network that carried it (R16) -/
  net : Net := .ordinary
  /-- TAG (R221) -/
  tag : BitVec 32 := 0
  deriving DecidableEq, Repr

/-- A control packet's header with the network that carried it, on which its answer goes (R16). -/
structure Carried where
  /-- Header -/
  hdr : Hdr := {}
  /-- Network -/
  net : Net := .tensor
  deriving DecidableEq, Repr

/-- The static signals of the agent port and what the package wires beside them (R223, R249, Table 7.11). -/
structure Straps where
  /-- HC_CLASS -/
  hcClass : Nat := 0
  /-- HC_PART -/
  hcPart : Nat := 0
  /-- HC_MEM_GIB -/
  memGib : Nat := 0
  /-- HC_FW_FLOOR -/
  floor : Nat := 0
  /-- PM_LIMIT -/
  pmLimit : BitVec 16 := 0
  /-- AG_REV -/
  rev : Nat := 0
  /-- MAC address of the management Ethernet -/
  mac : Nat := 0
  /-- SHA-384 of the identity public key -/
  idKey : Hash := 0
  /-- The agent of a sound switch -/
  isSwitch : Bool := false
  /-- Receive buffer depth of a link by virtual channel 0 to 5 (R212) -/
  depths : List Nat := []
  deriving DecidableEq, Repr

/-- A register item of REG_REQ and REG_RSP, Table 7.7. -/
structure RegItem where
  /-- OP: 1 READ, 2 WRITE -/
  op : BitVec 8 := 0
  /-- STATUS -/
  status : BitVec 8 := 0
  /-- OFFSET -/
  offset : BitVec 32 := 0
  /-- VALUE -/
  value : Word := 0
  deriving DecidableEq, Repr

/-- The answers that an agent gives (R221, R234, R285). -/
inductive Answer where
  | mgAck (status : BitVec 8)
  | regRsp (items : List RegItem)
  deriving DecidableEq, Repr

/-- Decisions of a port on a header, RT_DEC (Table 7.11). -/
inductive PortDec where
  /-- Forward by a logical port, or the quay link (port 8), under the header's new ROUTE -/
  | forward (port : Nat) (route : BitVec 16)
  | deliver
  | drop (counterWord : Nat)
  /-- Discarded or stopped without a counter -/
  | discard
  deriving DecidableEq, Repr

/-- Flow reports on NI_EVT (Table 7.11). -/
inductive FlowEvt where
  | moved | flowFailed | mcastLoss
  deriving DecidableEq, Repr

/-- Answers to an injection request (Table 7.11). -/
inductive InjAns where
  | go | hold | reject | reread
  deriving DecidableEq, Repr

/-- Key port operations, KP_OP (R246). -/
inductive KeyOp where
  | load | erase | eraseAll
  deriving DecidableEq, Repr

/-- What a read of one NAND copy finds, its other copy considered (R410, R427, R428). -/
inductive NvFound where
  /-- Decoded by hard decision, checks good -/
  | good
  /-- Decoded after shifted reads or soft decoding, checks good -/
  | retried
  /-- Decoded, CHECK wrong, payload equal to the good other copy -/
  | checkBad
  /-- Not decoded, or payload different from the good other copy -/
  | copyBad
  /-- No copy decodes with good checks -/
  | lost
  /-- Both copies valid under one sequence with different payloads -/
  | conflicted
  deriving DecidableEq, Repr

/-- The item that a read concerns (Table 13.8). -/
inductive NvItem where
  | snapshot
  /-- Page of the face, counted from the oldest kept -/
  | face (page : Nat)
  /-- Object by class and identifier -/
  | object (cls id : Nat)
  deriving DecidableEq, Repr

/-- What the block sends out: to hosts, to the fabric, to host chips, to the arbiter and to the tap. -/
inductive Out where
  /-- An MSI-X message of a portal (R84) -/
  | msix (portal vector : Nat)
  /-- An answer to a configuration request: retry status or success (R7) -/
  | cfg (portal : Nat) (retry : Bool)
  /-- The value of a register read (R85) -/
  | readValue (portal : Nat) (value : Word)
  /-- A register write ended normally, performed or dropped (R85) -/
  | writeDone (portal : Nat)
  /-- Unsupported Request (R83, R85) -/
  | unsupported (portal : Nat)
  /-- A portal starts link training (R468) -/
  | linkTraining (portal : Nat)
  /-- A completion entry written into a COMPLETE ring (R101) -/
  | completion (ring : Nat) (index : BitVec 32) (c : Completion)
  /-- A record copy written into a FAULT ring (R106) -/
  | faultEntry (ring : Nat) (index : BitVec 32) (phase lost : Bool) (r : Rec)
  /-- A notice written into an EVENT ring (R107) -/
  | eventEntry (ring : Nat) (index : BitVec 32) (n : Notice)
  /-- An entry written by a context into a SUBMIT ring (R173) -/
  | submitEntry (ring : Nat) (index : BitVec 32) (bytes : List Byte)
  /-- An index written to SHADOW (R96) -/
  | shadow (ring : Nat) (value : BitVec 32)
  /-- Data written to a host buffer or a sealed result (R327, R337) -/
  | hostData (portal : Nat) (addr : Word) (bytes : List Byte)
  /-- A packet sent by the controller over the tensor network: by MSEND or by its own management (R15, Table 5.10) -/
  | ctrlPkt (p : Pkt)
  /-- A frame sent by the controller over the ordinary network to an agent (R15, R222) -/
  | ctrlFrame (bytes : List Byte)
  /-- The chunks of a class's image, broadcast by the ferry to a group MAC (R267) -/
  | fwGroup (mac : Nat) (image : Nat)
  /-- FW_END to a group MAC: chunks of the image (R267) -/
  | fwEnd (mac chunks : Nat)
  /-- A time symbol of the controller over a quay link: quay and fabric time (R278) -/
  | quaySymbol (quay time : Nat)
  /-- A packet of an agent's own or of its host chip takes an output, again under another ROUTE when that output dies first (R195, R207) -/
  | agPkt (agent : Nat) (p : Pkt)
  /-- A frame of an agent to the management Ethernet, ME_TX (R222, Table 7.11) -/
  | agFrame (agent : Nat) (bytes : List Byte)
  /-- RT_DEC of an agent for one input (R250) -/
  | dec (agent input : Nat) (d : PortDec)
  /-- RT_BAD of an agent (R189) -/
  | markBad (agent port : Nat)
  /-- A block or message delivered to the host chip, with its EPOCH (R317) -/
  | deliver (agent : Nat) (p : Pkt)
  /-- NI_EVT: kind, flow address, stream and block check value -/
  | niEvt (agent : Nat) (e : FlowEvt) (addr : FAddr) (stream : BitVec 6) (bcv : Word)
  /-- Injection answer -/
  | inj (agent : Nat) (a : InjAns)
  /-- LK_DEAD: LINK_DOWN is sent over a link (R205, Table 7.11) -/
  | linkDown (agent link : Nat)
  /-- LN_DROP: a lane of a link goes out of use (R26, Table 7.11) -/
  | laneDrop (agent link lane : Nat)
  /-- MRD_REQ: a host memory read for the check and digest engine, with its address and length (R389, Table 7.11) -/
  | hostRead (agent : Nat) (addr : Word) (len : Nat)
  /-- FT_NS and FT_VALID: the agent's fabric time copy and its validity (Table 7.11) -/
  | fabricTime (agent ns : Nat) (valid : Bool)
  /-- A keepalive codeword of a lane (R205) -/
  | keepalive (agent link lane : Nat)
  /-- A link-layer hello: AGENT_ID and link number (R224), with the receiver's buffer depths by virtual channel (R210) -/
  | hello (agent link : Nat) (depths : List Nat)
  /-- A time symbol sent over a link with its fabric time (R278) -/
  | timeSymbol (agent link time : Nat)
  /-- XOFF or XON of a virtual channel (R211) -/
  | xoff (agent link vc : Nat) (off : Bool)
  /-- A credit returned, and the freed-flit count of a virtual channel (R210) -/
  | credit (agent link vc : Nat)
  | freed (agent link vc : Nat) (count : BitVec 16)
  /-- A flit started on a virtual channel (R193) -/
  | flit (agent link vc : Nat)
  /-- KP_REQ with operation and slot (R246) -/
  | keyReq (agent : Nat) (op : KeyOp) (slot : Nat) (key : BitVec 256)
  /-- PM_REQ (R248) -/
  | pmReq (agent : Nat) (unit : BitVec 12) (vstep fstep : BitVec 8)
  /-- RST_REQ (R241) -/
  | rstReq (agent level : Nat)
  /-- SCRUB_REQ (R244) -/
  | scrubReq (agent region : Nat)
  /-- HC_EVT_ACK (R239) -/
  | hcEvtAck (agent : Nat)
  /-- A switch agent applies its connection map (R283) -/
  | switchMap (agent : Nat)
  /-- Castik OEM PLDM message to the arbiter: command code and two content words (Table 14.1) -/
  | pldm (code : BitVec 8) (d0 d1 : Word)
  /-- Shipping frame to the peer: TYPE, FRAME_SEQ, JSN and payload words (Table 14.3) -/
  | ship (dst : Nat) (ftype : BitVec 8) (seq jsn : Nat) (payload : List Word) (tag : BitVec 128)
  /-- SPDM response of a portal: request code and data (R324) -/
  | spdm (portal : Nat) (code : BitVec 8) (data : List Byte)
  /-- TDO register selected, with its value (R475) -/
  | tdo (code : BitVec 8) (value : BitVec 32)
  deriving DecidableEq, Repr

end Sys2Proof.Machine
end

