-- ==== Sys2Proof/Machine/CtrlState.lean ====
section
/-! DEFINITION. The state of the controller by chapter: pins, domains, licences, portals, rings, contexts, collector, fabric model, islands, time, store, pair. -/

namespace Sys2Proof.Machine

/-- One package feed (Tables 14.5, 15.5). -/
structure Feed where
  /-- VALID (R452, R463) -/
  valid : Bool := false
  /-- VOLT, mV (Table 14.5); Live, log 3 -/
  mv : BitVec 16 := 0
  /-- ORING_FAULT (R452); Live, log 3 -/
  oring : Bool := false
  deriving DecidableEq, Repr

/-- Pins, fuses, thermal state and test access port (chapter 15). -/
structure Pins where
  /-- The part fitted (Table 0.1); log 4 -/
  part : Part := .xnu3188
  /-- STEP_MAJOR (Table 0.2); Die, log 4 -/
  stepMajor : BitVec 4 := 1
  /-- STEP_MINOR (Table 0.2); Die, log 4 -/
  stepMinor : BitVec 4 := 0
  /-- D0 has left its power-on reset (R464) -/
  d0Up : Bool := false
  /-- Feed A (R452) -/
  feedA : Feed := {}
  /-- Feed B (R452) -/
  feedB : Feed := {}
  /-- SHARE_A percent (Table 14.5); Live, log 3 -/
  shareA : BitVec 8 := 0
  /-- CHIP_RST_L is high (R464) -/
  chipRstHigh : Bool := false
  /-- CHIP_RST_L has risen since power-on (R464) -/
  firstRise : Bool := false
  /-- FAULT_L is driven low (R355) -/
  faultLow : Bool := false
  /-- PORTAL_RDY is driven high (R256) -/
  portalRdy : Bool := false
  /-- Bit n set: PERST_L[n] is low (Table 15.13); log 3 -/
  perstLow : BitVec 8 := 0xFF
  /-- LEASE_L is low after its filter (R467) -/
  leaseLow : Bool := false
  /-- ACTIVE_L is driven low (R450) -/
  activeLow : Bool := false
  /-- THERMTRIP_L is driven low (R474) -/
  thermtripLow : Bool := false
  /-- Every NVn_WP_L is low (R461, R465) -/
  wpLow : Bool := true
  /-- HOLD_OSC toggles (Table 15.13); Live, log 3 -/
  holdOsc : Bool := true
  /-- Edge on PPS_A within 1.5 s (Table 15.13); Live -/
  ppsA : Bool := false
  /-- Edge on PPS_B within 1.5 s (Table 15.13); Live -/
  ppsB : Bool := false
  /-- AON_BACKUP (R469), RS -/
  aonBackup : Bool := false
  /-- The debug unlock fuse is blown (R476); log 3 -/
  debugFuse : Bool := false
  /-- DEBUG_UNLOCKED, the fuse as of the last power cycle (R476) -/
  debugUnlocked : Bool := false
  /-- TJ_MAX (R471); Live, log 3 -/
  tjMax : BitVec 16 := 0
  /-- HBM_MAX (R471); Live, log 3 -/
  hbmMax : BitVec 16 := 0
  /-- TJ_PEAK (Table 15.12), RS -/
  tjPeak : BitVec 16 := 0
  /-- THROTTLES (R472), RS -/
  throttles : Nat := 0
  /-- THROTTLE: junction throttle on (R472) -/
  throttleTj : Bool := false
  /-- HBM_THROTTLE (R472) -/
  throttleHbm : Bool := false
  /-- JTAG instruction register (R475) -/
  tapIr : BitVec 8 := 0x02
  /-- Register that the tap selects: 0 boundary scan, 1 identification, 2 bypass (R475) -/
  tapReg : Nat := 1
  /-- What the tap does to the pins: 0 functional, 1 driven, 2 held, 3 floated (R475) -/
  tapPins : Nat := 0
  /-- Boundary scan register (R475); log 3 -/
  tapBsr : List Bool := []
  deriving DecidableEq, Repr

/-- One power domain (Table 2.4). -/
structure Dom where
  /-- State of Table 2.4 (R63); log 3 -/
  st : DomState := .off
  /-- FENCED with its power off (R63) -/
  powerOff : Bool := true
  /-- A wake event is pending (R63, R66, R72) -/
  wakePend : Bool := false
  /-- Heartbeats missed in a row (R367) -/
  missed : Nat := 0
  /-- An engine reset of the domain runs (R362) -/
  engineReset : Bool := false
  /-- Fabric time of its start (LAST_US) -/
  resetAt : Nat := 0
  deriving DecidableEq, Repr

/-- Domains, clocks and the boot sequencer (chapters 2 and 8). -/
structure Power where
  /-- Domains D1 to D23 by number (R61) -/
  doms : FMap Dom := []
  /-- LH_PD_HOLD.HOLD (Table 2.7) -/
  hold : BitVec 24 := 0
  /-- FY_IDLE_MS (Table 2.8) -/
  fyIdleMs : BitVec 16 := 10
  /-- CH_IDLE_US (Table 2.8) -/
  chIdleUs : BitVec 16 := 100
  /-- BENCH_IDLE_US (Table 2.8) -/
  benchIdleUs : BitVec 16 := 100
  /-- LH_CLK_STATUS.LOCK_LOSS (R71), RS -/
  lockLoss : Nat := 0
  /-- BENCH_USABLE: benches present and not fenced (Table 0.3) -/
  benchUsable : BitVec 16 := 0xFFFF
  /-- LH_FENCED_HW bits, one per hewer (R358) -/
  fencedHw : BitVec 512 := 0
  /-- HBM stacks fenced (R255) -/
  hbmFenced : BitVec 8 := 0
  /-- HBM stacks to be fenced at the next chip reset (Table 11.7) -/
  hbmDue : BitVec 8 := 0
  /-- HBM 2 MiB pages retired (Table 11.7) -/
  hbmRetired : List Nat := []
  /-- The table cache is bypassed (Table 11.7) -/
  cacheBypass : Bool := false
  /-- NV channels, Ethernet ports and tensor links out of use: unit numbers (Table 11.7, R433) -/
  unitsOut : List Nat := []
  /-- HBM is in self-refresh with training values in D0 (R364, R272) -/
  hbmSelfRefresh : Bool := false
  /-- LH_BOOT_STATUS.STEP (R257) -/
  step : Nat := 1
  /-- Boot step 4 has ended in this boot (Table 8.1) -/
  licDone : Bool := false
  /-- Boot stopped at step 3 (R257) -/
  stopped : Bool := false
  /-- SVN of the running image (Table 8.3); Boot, log 3 -/
  svn : Nat := 0
  /-- Blown anti-rollback fuses, FLOOR (Table 8.3); Fuses, log 3 -/
  floor : Nat := 0
  /-- RAISE_PENDING (Table 8.3); Boot -/
  raisePending : Bool := false
  /-- The floor that a raise in progress goes to, one fuse at a time; 0 for none (R260) -/
  raiseTo : Nat := 0
  /-- FAST_PATH (Table 8.3); Boot -/
  fastPath : Bool := false
  /-- SLOT (Table 8.3); Boot -/
  slot : Nat := 0
  /-- COLD (Table 8.3); Boot -/
  cold : Bool := true
  /-- IMAGE_HASH of the running image (R258); log 3 -/
  imageHash : Hash := 0
  /-- Key revocation fuses of controller firmware keys 0 to 3 (R258); log 3 -/
  fwKeyRevoked : BitVec 4 := 0
  /-- Key revocation fuses of licence keys 0 to 3 (R75); log 3 -/
  licKeyRevoked : BitVec 4 := 0
  /-- Fused SHA-384 of the device identity key (R75); log 3 -/
  deviceId : Hash := 0
  /-- The keeper has read the fuses, step 1 (Table 8.1) -/
  fusesRead : Bool := false
  /-- The cause of a chip reset that waits for the running resets of level 2 and 3 to end (R360) -/
  chipWait : Option Cause := none
  /-- A chip reset runs, between its start and its drain end (R364) -/
  draining : Bool := false
  /-- A power cycle or a chip reset runs: from its start to its outcome, or to the rest of a standby (Table 11.9) -/
  resetting : Bool := true
  /-- Fabric time of its start (LAST_US) -/
  chipAt : Nat := 0
  /-- LAST_US (Table 11.11), RS -/
  lastUs : Nat := 0
  /-- CAUSE (Table 11.11), RS -/
  cause : BitVec 8 := 0
  /-- CHIP_RESETS (Table 11.11), RS -/
  chipResets : Nat := 0
  /-- ESCALATIONS (Table 11.11), RS -/
  escalations : Nat := 0
  /-- LAST_LEVEL (Table 11.11), RS -/
  lastLevel : Nat := 0
  /-- Fabric time of the last keeper watchdog expiry (R365) -/
  lastWatchdog : Option Nat := none
  /-- Fabric time at which a source of a chip-reset fence last entered the fault state (R365) -/
  chipFault : FMap Nat := []
  /-- A power cycle has been requested (R366) -/
  cycleReq : Bool := false
  deriving DecidableEq, Repr

/-- Licences and capability registers (chapters 0 and 2). -/
structure Lic where
  /-- Stored licences, 256 bytes each, at most 64 (R78); log 3 -/
  stored : List (List Byte) := []
  /-- The first evaluation since power-on has ended (R7) -/
  evaluated : Bool := false
  /-- LH_CAP3.LIC_GEN (R8) -/
  gen : BitVec 8 := 0
  /-- LH_CAP3.LIC_VALID (Table 0.5) -/
  valid : BitVec 16 := 0
  /-- LH_CAP3.LIC_REFUSED (Table 0.5) -/
  refused : BitVec 16 := 0
  /-- LH_CAP3.MAX_ISLANDS (Table 0.5); before the first evaluation log 3 -/
  maxIslands : Nat := 16
  /-- LH_LIC_REASON.LIC_GEN (R79) -/
  reasonGen : BitVec 8 := 0
  /-- LH_LIC_REASON.REASON (R79) -/
  reason : BitVec 20 := 0
  /-- Serial numbers of the licences that passed at the latest evaluation (R77) -/
  passing : List Nat := []
  deriving DecidableEq, Repr

/-- A mailbox channel of a portal (Table 3.21). -/
structure Mbox where
  /-- WORD -/
  word : Word := 0
  /-- Full flag -/
  full : Bool := false
  /-- MB_OVF -/
  ovf : Bool := false
  /-- Bound context, 0 for none (R109) -/
  ctx : Nat := 0
  deriving DecidableEq, Repr

/-- A register access held for a waking domain (R67). -/
structure HeldAccess where
  /-- BAR0 offset -/
  offset : Nat := 0
  /-- Value of a write; none for a read -/
  write : Option Word := none
  /-- Bytes of the access -/
  size : Nat := 8
  /-- Domain awaited -/
  dom : Nat := 0
  deriving DecidableEq, Repr

/-- An SPDM session of a portal (R324). -/
structure Session where
  /-- Negotiation reached: 0 none, 1 version, 2 capabilities, 3 algorithms, 4 key exchanged, 5 live -/
  phase : Nat := 0
  /-- The session is live (PT_STATUS.SESSION) -/
  live : Bool := false
  /-- Session identifier -/
  id : BitVec 32 := 0
  /-- Key generation of the host-to-controller direction (R326) -/
  rxKeyGen : Nat := 0
  /-- Key generation of the controller-to-host direction (R326) -/
  txKeyGen : Nat := 0
  /-- PT_TX_SEQ, last sequence number sent (Table 3.9) -/
  txSeq : Nat := 0
  /-- PT_RX_SEQ, lowest sequence number not yet accepted (Table 3.9) -/
  rxSeq : Nat := 0
  /-- Accepted sequence numbers at or above PT_RX_SEQ (R115) -/
  rxSeen : List Nat := []
  /-- Draw from which the session's secrets come (R325) -/
  draw : Nat := 0
  /-- Key updates of the host-to-controller direction -/
  rxUpdates : Nat := 0
  /-- Key updates of the controller-to-host direction -/
  txUpdates : Nat := 0
  /-- Hybrid DHE group selected (R325) -/
  dheGroup : BitVec 16 := 0
  deriving DecidableEq, Repr

/-- One portal (chapter 3). -/
structure Portal where
  /-- PT_STATUS.STATE (Table 3.5) -/
  st : PtState := .down
  /-- PT_ID.ROLE of the policy in force (R81); Policy, log 3 -/
  role : Role := .none
  /-- HEWER_LIMIT of the policy in force (R158); Policy, log 3 -/
  hewerLimit : Nat := 0
  /-- PEER_HASH of the policy in force (R324); Policy, log 3 -/
  peerHash : Hash := 0
  /-- PT_CTRL.FAULT_IRQ_EN -/
  faultIrqEn : Bool := false
  /-- PT_CTRL.MB_IRQ_EN -/
  mbIrqEn : Bool := false
  /-- PT_CTRL.RINGS_EN -/
  ringsEn : Bool := false
  /-- PT_ACCESS_LOG.COUNT -/
  logCount : Nat := 0
  /-- PT_ACCESS_LOG.EVENT -/
  logEvent : BitVec 2 := 0
  /-- PT_ACCESS_LOG.BAR2 -/
  logBar2 : Bool := false
  /-- PT_ACCESS_LOG.WRITE -/
  logWrite : Bool := false
  /-- PT_ACCESS_LOG.SIZE -/
  logSize : BitVec 4 := 0
  /-- PT_ACCESS_LOG.OFFSET -/
  logOffset : BitVec 24 := 0
  /-- CH_CMD_ARG0 (Table 3.14) -/
  arg0 : Word := 0
  /-- CH_CMD_ARG1 -/
  arg1 : Word := 0
  /-- CH_CMD_ARG2 -/
  arg2 : Word := 0
  /-- CH_CMD_ARG3 -/
  arg3 : Word := 0
  /-- CH_CMD_STATUS.STATUS (Table 3.16) -/
  cmdStatus : BitVec 16 := 0
  /-- CH_CMD_STATUS.TAG -/
  cmdTag : BitVec 16 := 0
  /-- CH_CMD_STATUS.BUSY -/
  cmdBusy : Bool := false
  /-- Command code waiting for D17 while BUSY is 1 (R92) -/
  cmdOp : BitVec 8 := 0
  /-- Outgoing mailboxes by channel (R108) -/
  mbo : FMap Mbox := []
  /-- Incoming mailboxes by channel (R108) -/
  mbi : FMap Mbox := []
  /-- MSI-X table and other plain BAR0 words by offset; log 3 -/
  words : FMap Word := []
  /-- PT_FAULT_FIRST, while FIRST_VALID is 1 (R350) -/
  first : Option Rec := none
  /-- PT_FAULT_NEXT, while NEXT_VALID is 1 -/
  next : Option Rec := none
  /-- Queue behind PT_FAULT_NEXT, oldest first (R352) -/
  queue : List Rec := []
  /-- PT_FAULT_STATUS.SPOIL -/
  spoil : Nat := 0
  /-- IU_SEL.HANDLE (Table 12.8) -/
  iuSel : BitVec 16 := 0
  /-- SPDM session (R324) -/
  session : Session := {}
  /-- Accesses held for a waking domain, oldest first (R67) -/
  held : List HeldAccess := []
  /-- Fenced after its partition reset (Table 11.7) -/
  fenceAfter : Bool := false
  /-- Fabric time at which its partition reset started (LAST_US) -/
  resetAt : Nat := 0
  deriving DecidableEq, Repr

/-- An entry fetched from a SUBMIT ring and not yet answered (R99, R173). -/
structure Fetched where
  /-- Index of the entry -/
  index : BitVec 32 := 0
  /-- The entry -/
  entry : SubEntry := {}
  /-- Context that took it by RPOP, 0 for none -/
  ctx : Nat := 0
  deriving DecidableEq, Repr

/-- A channel descriptor, Table 3.12. -/
structure Ring where
  /-- BASE -/
  base : Word := 0
  /-- PROD -/
  prod : BitVec 32 := 0
  /-- CONS -/
  cons : BitVec 32 := 0
  /-- LOG2, 6 to 16 -/
  log2 : Nat := 6
  /-- KIND -/
  kind : RingKind := .submit
  /-- STATE -/
  st : RingState := .idle
  /-- OWNER portal -/
  owner : Nat := 0
  /-- ISLAND handle -/
  island : Nat := 0
  /-- FLAGS bit 0 CONFIDENTIAL -/
  confidential : Bool := false
  /-- FLAGS bit 1 SHADOW_EN -/
  shadowEn : Bool := false
  /-- WAITS_ON -/
  waitsOn : Option Nat := none
  /-- Context that set the WAITS_ON edge (R371) -/
  waitCtx : Nat := 0
  /-- WAKE_TARGET -/
  wakeTarget : BitVec 32 := 0
  /-- PAIRED completion ring -/
  paired : Nat := 0
  /-- CONTEXT bound, 0 for none -/
  ctx : Nat := 0
  /-- SHADOW -/
  shadow : Word := 0
  /-- ERROR_INFO [47:32] -/
  errStatus : BitVec 16 := 0
  /-- ERROR_INFO [31:0] -/
  errIndex : BitVec 32 := 0
  /-- CHANGED -/
  changed : Nat := 0
  /-- DONE -/
  done : Word := 0
  /-- Entries fetched and unanswered, oldest first (R173, R362) -/
  fetched : List Fetched := []
  /-- Consumption stopped on a full COMPLETE ring (R100) -/
  stalled : Bool := false
  /-- Copies or notices dropped since the last entry written (R106, R107) -/
  lost : Nat := 0
  /-- Completions that wait for a slot of this full COMPLETE ring, oldest first (R100) -/
  waiting : List Completion := []
  deriving DecidableEq, Repr

/-- The registers and memory of what runs Aglek instructions (Table 4.1). -/
structure Core where
  /-- g0 to g31, by number; unlisted 0 -/
  g : FMap Word := []
  /-- v0 to v15, lane l of vn at key 16n + l; unlisted 0 -/
  v : FMap Word := []
  /-- k0 to k7, by number; unlisted 0 -/
  k : FMap (BitVec 16) := []
  /-- pc -/
  pc : Word := 0
  /-- Scratch, or agent SRAM, by byte address; unlisted 0 (R127) -/
  mem : List Host.Cell := []
  /-- Word addresses that hold an uncorrectable ECC error (R133); log 6 -/
  eccBad : List Nat := []
  /-- Word addresses that hold a correctable ECC error (R133); log 6 -/
  eccSoft : List Nat := []
  /-- fpflags [3:0] (Table 4.20) -/
  fpflags : BitVec 4 := 0
  /-- cycle (Table 4.19) -/
  cycle : Word := 0
  /-- instret (Table 4.19) -/
  instret : Word := 0
  /-- Pending wake causes (Table 5.3) -/
  causes : BitVec 6 := 0
  /-- Causes awaited by the instruction that waits, while it waits (R157) -/
  awaits : Option (BitVec 6) := none
  /-- Fabric time that HALT.UNTIL awaits (R161) -/
  untilT : Option Nat := none
  /-- Queued control packets, oldest first: words 0 to 3 of 32 bytes (R172) -/
  msgs : List (List Byte) := []
  deriving DecidableEq, Repr

/-- A ticket of a context (R163). -/
structure Ticket where
  /-- Completed with this status, or still open -/
  status : Option (BitVec 16) := none
  /-- Operation code of the instruction that started it -/
  op : BitVec 8 := 0
  /-- Domain whose engine reset discards the result (R362) -/
  dom : Nat := 0
  /-- Scratch address of the result, and its bytes written at completion (R178) -/
  out : Nat := 0
  /-- Words of the parameter block, read at issue (R162) -/
  args : List Word := []
  /-- Bytes read at issue (R162, R170) -/
  data : List Byte := []
  /-- Agents still to answer (R170) -/
  waiting : List Nat := []
  deriving DecidableEq, Repr

/-- A context (R120, R152, Table 5.2). -/
structure Ctx where
  /-- State of Table 5.2 -/
  st : CtxState := .pending
  /-- Registers, scratch and wake causes (Table 4.1) -/
  core : Core := {}
  /-- Owner portal (R152) -/
  portal : Nat := 0
  /-- Bound ring (R153); none without RING -/
  ring : Option Nat := none
  /-- Island of the bound ring (R153) -/
  island : Nat := 0
  /-- On a confidential ring (R118, R320) -/
  confidential : Bool := false
  /-- ENTRY of CTX_START -/
  entry : Word := 0
  /-- Copy of the image in HBM (R361) -/
  image : List Byte := []
  /-- G1 of CTX_START -/
  g1 : Word := 0
  /-- G2 of CTX_START -/
  g2 : Word := 0
  /-- BWIN granules asked (R153) -/
  bwin : Nat := 0
  /-- HINT: preferred bench (R153) -/
  hint : Option Nat := none
  /-- SHARE context, 0 for none (R153) -/
  share : Nat := 0
  /-- Bench and hewer held (R159) -/
  hewer : Option (Nat × Nat) := none
  /-- bwin_base granule on the bench (R128) -/
  granule : Nat := 0
  /-- Creation order (R158) -/
  order : Nat := 0
  /-- Open tickets by number (R163) -/
  tickets : FMap Ticket := []
  /-- Exception taken last: code and information (Table 4.5) -/
  exc : BitVec 8 := 0
  /-- Entry of CTX_STOP to answer: ring and index (R154) -/
  stopEntry : Option (Nat × BitVec 32) := none
  /-- GRACE_US of CTX_STOP (R154) -/
  graceUs : Nat := 0
  /-- Ring whose slot or entry a BLOCKED context awaits (R155) -/
  blockedOn : Nat := 0
  /-- Suspect of a running guilt finding, not yet judged (R369) -/
  suspect : Bool := false
  /-- Judged innocent and held until every suspect is judged (R369) -/
  judged : Bool := false
  deriving DecidableEq, Repr

/-- A bench: its shared memory (R130). -/
structure Bench where
  /-- Shared memory by byte offset; unlisted 0; log 6 -/
  mem : List Host.Cell := []
  /-- Word offsets with an uncorrectable error (R133); log 6 -/
  eccBad : List Nat := []
  /-- Word offsets with a correctable error (R133); log 6 -/
  eccSoft : List Nat := []
  deriving DecidableEq, Repr

/-- A table of the table space (R168). -/
structure Table where
  /-- Portal of the creating context -/
  portal : Nat := 0
  /-- ES: an element is 8 × 2^ES bytes -/
  es : Nat := 0
  /-- Elements -/
  count : Nat := 0
  /-- Words by element × 2^ES + word; unlisted 0 -/
  words : FMap Word := []
  /-- Island under whose key the table is encrypted, 0 for none (R168, R335) -/
  island : Nat := 0
  deriving DecidableEq, Repr

/-- Guilt finding of a hang (R368 to R370). -/
structure Hang where
  /-- Rings of the cycle -/
  rings : List Nat := []
  /-- Suspects still to replay, ascending -/
  queue : List Nat := []
  /-- Suspect replaying now, 0 for none -/
  running : Nat := 0
  /-- Fabric time at which the innocent suspects resumed (R370) -/
  resumed : Option Nat := none
  /-- A suspect was guilty -/
  guilty : Bool := false
  deriving DecidableEq, Repr

/-- Channel engine, benches and the program model (chapters 3 to 5). -/
structure Engine where
  /-- Channel table by ring identifier (R88) -/
  rings : FMap Ring := []
  /-- Contexts by number (R152) -/
  ctxs : FMap Ctx := []
  /-- Benches by number (R130) -/
  benches : FMap Bench := []
  /-- Tables by id (R168) -/
  tables : FMap Table := []
  /-- Next creation order (R158) -/
  nextOrder : Nat := 0
  /-- Portal served last by the placement rotation (R158); log 3 -/
  lastPortal : Nat := 7
  /-- LH_HANG_CFG.ISLET_PORTALS (Table 11.12) -/
  isletPortals : BitVec 8 := 0
  /-- LH_HANG_CFG.REPLAY_MS -/
  replayMs : BitVec 16 := 10
  /-- LH_HANG_CFG.HANGS, RS -/
  hangs : Nat := 0
  /-- Guilt finding in progress (R369) -/
  hang : Option Hang := none
  /-- Earliest HALT.UNTIL time held by the Lighthouse for each bench (R161) -/
  wakeAt : FMap Nat := []
  /-- Contexts that HALT.END has ended, with the fabric time of the end, for stops of the same cycle (R156); log 172 -/
  haltEnds : List (Nat × Nat) := []
  deriving DecidableEq, Repr

/-- An open pair of the counting table (R345, R348). -/
structure Pair where
  /-- Source number, or context number for kinds 0x040 to 0x07F (R347) -/
  src : Nat := 0
  /-- Context pair (R347) -/
  isCtx : Bool := false
  /-- KIND -/
  kind : BitVec 12 := 0
  /-- Total counted in the window -/
  total : Nat := 0
  /-- N reached: the pair is raised -/
  raised : Bool := false
  /-- The raised class is DEGRADED or above -/
  raisedHigh : Bool := false
  /-- N that governs the window -/
  n : Nat := 0
  /-- Class of the record that opened the window under LH_SEV_CFG; none under an override and for a context (R346, R347) -/
  basis : Option Cls := none
  deriving DecidableEq, Repr

/-- An override of severity counting, Table 11.5. -/
structure SevOvr where
  /-- VALID -/
  valid : Bool := false
  /-- KIND -/
  kind : BitVec 12 := 0
  /-- N -/
  n : BitVec 8 := 0
  /-- T_MS -/
  tMs : BitVec 16 := 0
  deriving DecidableEq, Repr

/-- The fault collector (chapter 11). -/
structure Coll where
  /-- Records posted and not yet accepted, in posting order (R56, R349) -/
  posted : List Rec := []
  /-- D0 record store: accepted records that a portal still has to show, in acceptance order (R352) -/
  store : List Rec := []
  /-- The model's own number of the next record accepted, by which queues name records of the store -/
  serial : Nat := 1
  /-- Uncleared records of class DEGRADED or above (R343) -/
  uncleared : List Rec := []
  /-- LH_FAULT_FIRST, while FIRST_VALID is 1 (R350), RS -/
  first : Option Rec := none
  /-- LH_FAULT_STATUS.SPOIL, RS -/
  spoil : Nat := 0
  /-- LH_FAULT_STATUS.RECOVERIES, RS -/
  recoveries : Nat := 0
  /-- LH_FAULT_STATUS.COUNT_OVF -/
  countOvf : Nat := 0
  /-- QUIET_S (Table 11.4) -/
  quietS : BitVec 16 := 30
  /-- NOTE_T_MS -/
  noteTMs : BitVec 16 := 10000
  /-- NOTE_N -/
  noteN : BitVec 8 := 0
  /-- CORR_T_MS -/
  corrTMs : BitVec 16 := 10000
  /-- CORR_N -/
  corrN : BitVec 8 := 16
  /-- LH_SEV_OVR_i by i -/
  ovr : FMap SevOvr := []
  /-- Counting table: the pairs with an open window, at most 65,536 (R348) -/
  pairs : List Pair := []
  deriving DecidableEq, Repr

/-- A difference of topology agreement, Table 8.9. -/
structure Diff where
  /-- KIND, Table 8.8 -/
  kind : Nat := 0
  /-- LINK, 0xFF for none -/
  link : Nat := 0xFF
  /-- OUTCOME: 0 none, 1 covered, 2 holds -/
  outcome : Nat := 0
  /-- ADDR -/
  addr : FAddr := 0x0FFFFFF
  /-- DETAIL -/
  detail : BitVec 56 := 0
  deriving DecidableEq, Repr

/-- One bank of agent tables: word w of element e of table t at key 2^20 × t + words per element × e + w; unlisted words 0 (Table 6.5). -/
abbrev Bank := FMap Word

/-- The reset words of PARAMS (Table 6.11), table 0x0006: words 0, 1, 3 and 5; XOFF_FREE and XON_FREE 0 (log 3). -/
def Bank.reset : Bank :=
  [(0x600000, 0x07D0088000140800), (0x600003, 0x00000032000003E8), (0x600005, 0x000000000000FF03)]

/-- What the fabric model knows of an agent (R264, R265). -/
structure Roster where
  /-- Fabric address, 0x0FF_FFFF for a spare -/
  addr : FAddr := 0x0FFFFFF
  /-- Plan entry number in the position table, or none -/
  entry : Option Nat := none
  /-- Pod and slot of a spare (R42) -/
  spare : Option (Nat × Nat) := none
  /-- Announced, or answered the warm query (R265) -/
  found : Bool := false
  /-- MAC addresses that announced the identity (R265) -/
  macs : List Nat := []
  /-- LIFE as last reported -/
  life : Life := .rom
  /-- Host chip class (AG_INFO) -/
  hcClass : Nat := 0
  /-- AG_FW_MEAS as last read -/
  fwMeas : Hash := 0
  /-- AG_FW_MEAS has been read since the agent announced or discovery began (R266) -/
  measKnown : Bool := false
  /-- AG_HC_MEAS as last read -/
  hcMeas : Hash := 0
  /-- AG_DEBUG as last read: DBG_SEEN and DBG_STATE -/
  dbgWord : BitVec 9 := 0
  /-- SHA-384 of the identity key, as announced -/
  idKey : Hash := 0
  /-- Sent a firmware manifest in this boot (R266) -/
  manifest : Bool := false
  /-- Retired from its pod (R44) -/
  retired : Bool := false
  /-- Tenancy state (R315) -/
  tenancy : Tenancy := .unscrubbed
  /-- Excluded from new carves (Table 11.7) -/
  excluded : Bool := false
  /-- Slots that hold a key delivered with DEBUG_OK (R340) -/
  debugSlots : BitVec 32 := 0
  /-- Slots loaded (R321) -/
  slots : BitVec 32 := 0
  /-- A key was refused at this epoch (R330) -/
  refusedEpoch : Nat := 0
  /-- Last telemetry sample: fabric time and 432 counter words (R381) -/
  sample : Option (Nat × List Word) := none
  /-- Last sample taken at or after a 100 ms multiple of fabric time (R338) -/
  coarse : Option (Nat × List Word) := none
  /-- Power share, 0.1 % (R337) -/
  power : Nat := 0
  /-- Fabric time of the power sample -/
  powerAt : Nat := 0
  /-- First power sample at or after a 100 ms multiple of fabric time: time and share (R338) -/
  powerCoarse : Option (Nat × Nat) := none
  /-- Replaced at its position: the commit that takes its address from it is still to be asked of it (R44, R225) -/
  leaving : Bool := false
  /-- Address staged by ASSIGN for the next commit (R225) -/
  staged : Option FAddr := none
  /-- The controller's copy of the installed tables (R284) -/
  bank : Bank := Bank.reset
  /-- The controller's copy of the staging tables (R287) -/
  stage : Bank := Bank.reset
  /-- Calibration records for the next table set: words of table 0x0009 by element and word (R308) -/
  calib : FMap Word := []
  /-- Next TAG of requests to the agent (R221); log 8 -/
  nextTag : Nat := 1
  /-- SVN of the running image, as announced -/
  svn : Nat := 0
  /-- HC_MEM_GIB, as announced -/
  memGib : Nat := 0
  /-- MAC address that ASSIGN answers (R265) -/
  mac : Nat := 0
  /-- Not RUNNING with the staged measurement at the end of step 11 (R268) -/
  fwFailed : Bool := false
  /-- LINK_REPORT received in this boot -/
  reported : Bool := false
  deriving DecidableEq, Repr

/-- A link as the fabric model holds it (Table 5.6). -/
structure MLink where
  /-- NBR -/
  nbr : FAddr := 0
  /-- NBR_LINK -/
  nbrLink : Nat := 0
  /-- LANES in use -/
  lanes : Nat := 0
  /-- Lowest lane margin reported -/
  margin : Nat := 0
  /-- Logical port, none for a link that belongs to no port (R29) -/
  port : Option Nat := none
  /-- Sound switch of the link, none when cabled directly -/
  via : Option Nat := none
  /-- Neighbour reported last: AGENT_ID and link (R224) -/
  seen : Option (Nat × Nat) := none
  deriving DecidableEq, Repr

/-- A controller request that awaits its answer (R221). -/
structure MgReq where
  /-- Agent asked -/
  agent : Nat := 0
  /-- A control packet, else a MGMT packet -/
  ctl : Bool := false
  /-- MTYPE, or control opcode -/
  kind : BitVec 16 := 0
  /-- SUB of a control packet -/
  sub : BitVec 8 := 0
  /-- TAG (R221) -/
  tag : Nat := 0
  /-- Sends so far -/
  sends : Nat := 1
  /-- Asking context -/
  context : Nat := 0
  /-- ARG word of the request -/
  arg : Word := 0
  /-- Body of a MGMT packet -/
  body : List Byte := []
  /-- Island whose installation or key release sent it, 0 for none -/
  island : Nat := 0
  /-- Push ticket that it serves: context and ticket (R170) -/
  ticket : Option (Nat × Nat) := none
  deriving DecidableEq, Repr

/-- The fabric plan, the fabric model and the ferry's bookkeeping (chapters 1, 7 and 8). -/
structure Fabric where
  /-- Plan in force, its bytes (R262); none when none is accepted -/
  plan : Option (List Byte) := none
  /-- Accepted plan that takes effect at the next chip reset (R264) -/
  nextPlan : Option (List Byte) := none
  /-- Enrolled operator key hash (R263) -/
  operatorKey : Option Hash := none
  /-- LH_FAB_STATUS.STATE -/
  st : FabState := .booting
  /-- LH_FAB_STATUS.DIFF_GEN -/
  diffGen : BitVec 8 := 0
  /-- The full difference list (R270) -/
  diffs : List Diff := []
  /-- A first outcome has been set since power-on: slot and hash recorded (R272) -/
  lastOutcome : Option (Nat × Hash) := none
  /-- Agent image hash of each class at that outcome (R272) -/
  outcomeFw : FMap Hash := []
  /-- A FATAL fault has been journalled since that outcome (R272) -/
  fatalSince : Bool := false
  /-- Agents by AGENT_ID (R265) -/
  roster : FMap Roster := []
  /-- Links by link id {address, link} (R165) -/
  links : FMap MLink := []
  /-- Positions that are lost (R42) -/
  lost : List FAddr := []
  /-- Positions filled by a spliced spare: address to AGENT_ID (R44) -/
  spliced : FMap Nat := []
  /-- Identities announced that the plan does not name (R265) -/
  unexpected : List Nat := []
  /-- Agent image hash staged for each host chip class (R266) -/
  stagedFw : FMap Hash := []
  /-- SVN of the staged image of each class (R259) -/
  stagedSvn : FMap Nat := []
  /-- HC_FW_FLOOR of each class, as reported (R259) -/
  classFloor : FMap Nat := []
  /-- Step 11 manifests were sent (R268) -/
  fwLoading : Bool := false
  /-- Chunks that agents of the broadcast lack, by AGENT_ID, gathered for the repair pass (R267) -/
  fwGaps : FMap (List Nat) := []
  /-- The repair pass of the broadcast has been made (R267) -/
  fwRepaired : Bool := false
  /-- Requests that await an answer, by 2^32 × AGENT_ID + TAG (R221) -/
  reqs : FMap MgReq := []
  /-- Agent mailbox channels at the controller, by AGENT_ID (R236) -/
  mboxes : FMap Mbox := []
  /-- Highest ESEQ received in order, by AGENT_ID (R238) -/
  eseq : FMap Nat := []
  /-- Telemetry is deferred for fault intake (R381) -/
  deferTelemetry : Bool := false
  /-- Connection map of each switch as the model holds it, by 256 × index + port: PEER + 1 (R41) -/
  circuits : FMap Nat := []
  /-- Sound switches whose connection map was reported to differ from the model's: reloaded whole at the next installation that names them (R41) -/
  wrongMaps : List Nat := []
  /-- Switch port to which the controller link of each quay is cabled, 256 × switch + port, by quay number (R34) -/
  cable : FMap Nat := []
  deriving DecidableEq, Repr

/-- The key broker's state of one island, held in D19 (R328 to R334). -/
structure Broker where
  /-- Broker key pair generation (R327); 0 when discarded -/
  keyGen : Nat := 0
  /-- Data keys by party (R329) -/
  dataKeys : FMap (BitVec 256) := []
  /-- Weight shares by party (R329) -/
  shares : FMap (BitVec 256) := []
  /-- The weight key, rebuilt at its first release and kept until the release or until too few shares are left (R330) -/
  weight : Option (BitVec 256) := none
  /-- Parties that accepted the current measurement (R329) -/
  accepted : BitVec 16 := 0
  /-- Slots released at the current epoch (R330) -/
  released : BitVec 32 := 0
  deriving DecidableEq, Repr

/-- A consent token, Table 10.12. -/
structure Token where
  /-- PARTY -/
  party : Nat := 0
  /-- SCOPE -/
  scope : BitVec 3 := 0
  /-- PORTALS -/
  portals : BitVec 8 := 0
  /-- FROM_EPOCH -/
  fromEpoch : Nat := 0
  /-- TO_EPOCH, 0 for no end -/
  toEpoch : Nat := 0
  /-- NOT_AFTER -/
  notAfter : Nat := 0
  /-- MEMBER, 0x0FF_FFFF for all -/
  member : FAddr := 0x0FFFFFF
  /-- Lapsed (R340) -/
  lapsed : Bool := false
  deriving DecidableEq, Repr

/-- Integrity configuration of an island (Table 12.8). -/
structure IuCfg where
  /-- IU_CFG; REPEAT_EP resets to 0x0FF_FFFF -/
  cfg : Word := 0x00000FFFFFF00000
  /-- IU_PLAUS -/
  plaus : Word := 0
  /-- IU_LIMITS: 100, 1,000, 2, 30, 2, 2 -/
  limits : Word := 0x006403E8021E0202
  /-- IU_DESC_BASE_i at 2i and IU_DESC_LEN_i at 2i + 1 -/
  desc : FMap Word := []
  deriving DecidableEq, Repr

/-- An island (chapter 10). -/
structure Island where
  /-- State of Table 10.1 -/
  st : IslState := .free
  /-- Partition key (R48) -/
  pkey : Nat := 0
  /-- Epoch (R50) -/
  epoch : Nat := 0
  /-- CONFIDENTIAL -/
  confidential : Bool := false
  /-- PARTIES mask -/
  parties : BitVec 8 := 0
  /-- LOW corner: W, X, Y, Z -/
  low : List Nat := []
  /-- SHAPE extents: W, X, Y, Z -/
  shape : List Nat := []
  /-- Members, ascending fabric addresses -/
  members : List FAddr := []
  /-- Broker policy bytes (R328), empty for none -/
  policy : List Byte := []
  /-- Carve order (R12) -/
  order : Nat := 0
  /-- State before BOUNDARY (Table 10.1) -/
  prev : IslState := .opn
  /-- Broker state (R334) -/
  broker : Broker := {}
  /-- Island measurement at the current epoch (R323) -/
  meas : Hash := 0
  /-- Consent tokens waiting for a boundary (R339) -/
  tokens : List Token := []
  /-- Consent tokens in force (R340) -/
  consent : List Token := []
  /-- Schedule in force: SCHED_ID, 0 for none (R301) -/
  sched : Nat := 0
  /-- Pending schedule, 0 for none (R301) -/
  pendSched : Nat := 0
  /-- AUTO_VARIANT set by SCHED_LOAD (R302) -/
  autoVariant : Bool := false
  /-- The schedule is stale (R309) -/
  stale : Bool := false
  /-- Licence of the schedule lapsed: SCHED_EN 0 at the next boundary (R301) -/
  schedLapsed : Bool := false
  /-- Consecutive periods with a slip, up to the last one (R309) -/
  slipPeriods : Nat := 0
  /-- The last period with a slip (R309) -/
  slipLast : Option Nat := none
  /-- Slips of the last second: time and count (R309) -/
  slips : List (Nat × Nat) := []
  /-- Recomputed detours wait for the boundary (R297) -/
  detoursDue : Bool := false
  /-- Release waits for ECOMMIT: ring and index of the entry (R314) -/
  release : Option (Nat × BitVec 32) := none
  /-- Entry that runs the carve or boundary: ring and index -/
  entry : Option (Nat × BitVec 32) := none
  /-- Agents whose scrub is awaited (R314) -/
  scrubs : List Nat := []
  /-- The controller's own state is being scrubbed (R320) -/
  ownScrub : Bool := false
  /-- Members that have not answered an abort (R376) -/
  abortWait : List FAddr := []
  /-- Abort sends so far (R376) -/
  abortSends : Nat := 0
  /-- Abort reason (R372) -/
  abortReason : Nat := 0
  /-- Entry of the abort: ring and index -/
  abortEntry : Option (Nat × BitVec 32) := none
  /-- Integrity configuration in force -/
  iu : IuCfg := {}
  /-- Integrity configuration written, for the next boundary (R404) -/
  iuNext : IuCfg := {}
  /-- XTS key generation of the island (R335) -/
  xts : Nat := 0
  deriving DecidableEq, Repr

/-- An installation of a table set (R287). -/
structure Install where
  /-- Phase of FY_INSTALL -/
  phase : Phase := .staging
  /-- New epoch -/
  epoch : Nat := 0
  /-- New partition key -/
  pkey : Nat := 0
  /-- Members taking part, by AGENT_ID, in ascending fabric address -/
  members : List Nat := []
  /-- Switch agents whose circuits change, by AGENT_ID -/
  switches : List Nat := []
  /-- Agents that have not answered in this phase -/
  waiting : List Nat := []
  /-- Circuits of the new map, by 256 × switch + port (R52) -/
  circuits : FMap Nat := []
  /-- Sends of the phase's packet so far (R291) -/
  sends : Nat := 1
  /-- ECOMMIT ticket: context and ticket; none for the controller's own -/
  ticket : Option (Nat × Nat) := none
  /-- Push tickets that the commit waits for (R176) -/
  pushes : List (Nat × Nat) := []
  /-- TS_COMMIT was sent to a member (R292) -/
  committed : Bool := false
  /-- RESTART of the abandon (R291) -/
  restart : Bool := false
  /-- Completed from the journal after a chip reset or a takeover: a member already released answers TS_COMMIT with INVALID (R292) -/
  resolving : Bool := false
  /-- Members that have answered TS_QUIESCE with flows still undrained (R287, R289) -/
  draining : List Nat := []
  /-- Fabric time at which the running phase began -/
  phaseAt : Nat := 0
  /-- Status with which the commit ends -/
  status : BitVec 16 := 0
  /-- What step 2 still waits for: 4 × activity for a retrain (R456), 4 × AGENT_ID + 1 for a test (R397), + 2 for a firmware load (R233) -/
  waits : List Nat := []
  /-- Members under the new epoch, corner and extents -/
  newMembers : List FAddr := []
  /-- New low corner -/
  low : List Nat := []
  /-- New extents -/
  shape : List Nat := []
  /-- Splices: position, identity that leaves (0 for none), spare that enters (R316) -/
  moves : List (Nat × Nat × Nat) := []
  /-- Schedule of the new epoch, 0 for none (R301) -/
  sched : Nat := 0
  /-- Pending schedule that the new epoch takes up, 0 for none; a later one stays pending (R294) -/
  pend : Nat := 0
  /-- Fabric time of step 1 (R299) and of step 2 -/
  t1 : Nat := 0
  /-- Fabric time of step 2 -/
  t2 : Nat := 0
  deriving DecidableEq, Repr

/-- A cached schedule image (R302). -/
structure Sched where
  /-- Image bytes -/
  image : List Byte := []
  /-- Pinned -/
  pin : Bool := false
  /-- In the cache (else held only for its island) -/
  cached : Bool := true
  /-- Order of last installation (R302) -/
  used : Nat := 0
  deriving DecidableEq, Repr

/-- Islands, installations and schedules (chapters 9 and 10). -/
structure Isles where
  /-- Islands by handle -/
  islands : FMap Island := []
  /-- Last handle assigned (R310); log 8 -/
  lastHandle : Nat := 0
  /-- Next carve order (R12) -/
  nextOrder : Nat := 0
  /-- Installations by handle (R294) -/
  installs : FMap Install := []
  /-- The installation started most recently (R294) -/
  fyKey : Nat := 0
  /-- FY_INSTALL.ISLAND -/
  fyIsland : Nat := 0
  /-- FY_INSTALL.EPOCH -/
  fyEpoch : Nat := 0
  /-- FY_INSTALL.PHASE -/
  fyPhase : Phase := .idle
  /-- FY_INSTALL.RESULT -/
  fyResult : BitVec 8 := 0
  /-- FY_INSTALL_PROGRESS.AGENTS -/
  fyAgents : Nat := 0
  /-- FY_INSTALL_PROGRESS.ANSWERED -/
  fyAnswered : Nat := 0
  /-- FY_INSTALL_TIME.BOUNDARY_US -/
  fyBoundaryUs : Nat := 0
  /-- FY_INSTALL_TIME.TOTAL_US -/
  fyTotalUs : Nat := 0
  /-- Schedules by SCHED_ID -/
  scheds : FMap Sched := []
  /-- Next SCHED_ID (R302); log 8 -/
  nextSched : Nat := 1
  /-- Use order of schedules (R302) -/
  useOrder : Nat := 0
  /-- Keys released that no former member has yet replaced: key to AGENT_IDs (R48) -/
  retiring : FMap (List Nat) := []
  /-- XTS keys drawn (R335) -/
  xtsGen : Nat := 0
  deriving DecidableEq, Repr

/-- One time reference (R273). -/
structure TRef where
  /-- VALID -/
  valid : Bool := false
  /-- QUAL_S: seconds of continuous validity -/
  qualS : Nat := 0
  /-- Reference minus fabric time, ns -/
  offset : Int := 0
  /-- PPS condition holds -/
  ppsOk : Bool := false
  /-- Sync condition holds -/
  syncOk : Bool := false
  /-- Grade condition holds -/
  gradeOk : Bool := false
  deriving DecidableEq, Repr

/-- Fabric time (R273 to R278). -/
structure Time where
  /-- LH_TIME_NOW: fabric time, ns TAI, RS -/
  now : Nat := 0
  /-- LH_TIME_STATUS.STATE -/
  st : TimeState := .unlocked
  /-- TARGET: the active or target reference -/
  target : Side := .a
  /-- Reference A -/
  a : TRef := {}
  /-- Reference B -/
  b : TRef := {}
  /-- Fabric time at which the present HOLDOVER began; HOLDOVER_S counts its seconds -/
  holdoverAt : Nat := 0
  /-- FIRST_LOCK -/
  firstLock : Bool := false
  /-- The counter has been loaded by a takeover, so that the first lock loads it no more (R275) -/
  taken : Bool := false
  /-- LH_TIME_FLOOR, the latest fabric time that the journal records (R277) -/
  floor : Nat := 0
  /-- Rate of fabric time against the oscillator, ppb (R275) -/
  ratePpb : Int := 0
  /-- Fabric time of the last change of the rate (R275) -/
  rateAt : Nat := 0
  deriving DecidableEq, Repr

/-- A journal record (Table 13.3). -/
structure JRec where
  /-- TYPE, Table 13.4 -/
  typ : Nat := 0
  /-- JSN -/
  jsn : Nat := 0
  /-- TIME -/
  time : Nat := 0
  /-- Body -/
  body : List Word := []
  deriving DecidableEq, Repr

/-- A face page (Table 13.5). -/
structure FPage where
  /-- Number of the page, in the order in which face pages are written (R417) -/
  num : Nat := 0
  /-- Records of the page -/
  recs : List JRec := []
  /-- Copy 0 and copy 1 programmed and passed -/
  ok0 : Bool := false
  /-- Copy 1 -/
  ok1 : Bool := false
  /-- The copies disagree under one sequence (R428) -/
  conflicted : Bool := false
  deriving DecidableEq, Repr

/-- An anchor copy (Table 13.6). -/
structure Anchor where
  /-- The page decodes with good MAGIC, FORMAT and CHECK (R421) -/
  valid : Bool := true
  /-- GEN -/
  gen : Nat := 0
  /-- SNAP_JSN -/
  snapJsn : Nat := 0
  /-- PREV_JSN -/
  prevJsn : Nat := 0
  /-- TIME_FLOOR -/
  timeFloor : Nat := 0
  /-- OPERATOR_KEY -/
  operatorKey : Option Hash := none
  deriving DecidableEq, Repr

/-- A NAND block (R411 to R414). -/
structure Block where
  /-- Bad by factory marker or grown bad -/
  bad : Bool := false
  /-- Retired at its erase limit -/
  retired : Bool := false
  /-- Erase count -/
  erases : Nat := 0
  /-- Read count -/
  reads : Nat := 0
  /-- Program time -/
  programmed : Nat := 0
  /-- A spare of its region -/
  spare : Bool := false
  /-- Moved to SLC mode from bulk (R414) -/
  slcMoved : Bool := false
  /-- Erased and blank -/
  blank : Bool := false
  deriving DecidableEq, Repr

/-- A persistent object (R430). -/
structure Obj where
  /-- Version, counted by OBJECT_DIR -/
  version : Nat := 0
  /-- JSN of its OBJECT_DIR -/
  jsn : Nat := 0
  /-- SHA-384 -/
  hash : Hash := 0
  /-- Contents -/
  data : List Byte := []
  /-- Contents of the previous version, while it is kept -/
  prev : Option (List Byte) := none
  deriving DecidableEq, Repr

/-- The persistent store (chapter 13). -/
structure Nv where
  /-- JSN counter: next to issue (R415) -/
  nextJsn : Nat := 1
  /-- NV_JSN: highest durable JSN -/
  durable : Nat := 0
  /-- Records not yet in a closed page (R417) -/
  opn : List JRec := []
  /-- Closed pages of the face, oldest first (R417) -/
  face : List FPage := []
  /-- Number of the next face page (R417) -/
  faceNext : Nat := 0
  /-- The newest snapshot fails its hash or is CONFLICTED (R425, R428) -/
  snapBad : Bool := false
  /-- FACE_FULL (R419) -/
  faceFull : Bool := false
  /-- Writes held by a full face: ring and index (R419) -/
  heldWrites : List (Nat × BitVec 32) := []
  /-- Anchor copies on dies 0, 3 and 6 (R420); log 3 -/
  anchors : FMap Anchor := []
  /-- NV_ANCHOR.GEN: winning generation -/
  gen : Nat := 0
  /-- SNAP_JSN of the winning anchor -/
  snapJsn : Nat := 0
  /-- PREV_JSN of the winning anchor -/
  prevJsn : Nat := 0
  /-- Dies whose copy holds the winning generation, ANCHOR_VALID bits 0, 1, 2 for dies 0, 3, 6 -/
  anchorOk : BitVec 3 := 0
  /-- Dies still to write in a new generation (R420) -/
  anchorTodo : List Nat := []
  /-- DRESSING: step 0 when idle, else 1 to 6 (R423) -/
  dressStep : Nat := 0
  /-- SNAP_JSN of the dressing (R423) -/
  dressJsn : Nat := 0
  /-- LEDGE records written and not yet merged (R429) -/
  ledge : List JRec := []
  /-- Records drawn for the ledge and not yet in a page of it -/
  ledgeOpn : List JRec := []
  /-- Pages of each ledge block in use -/
  ledgePages : Nat := 0
  /-- Journal writes that wait for the flash layer or for room in the face: type and body (R419, R429, R433) -/
  waits : List (Nat × List Word) := []
  /-- Blocks by 2048 × die + block -/
  blocks : FMap Block := []
  /-- Objects by 2^64 × class + identifier (R430) -/
  objects : FMap Obj := []
  /-- NV_CFG.DRESS_MIB -/
  dressMib : BitVec 16 := 512
  /-- NV_CFG.RET_SLC_D -/
  retSlcD : BitVec 8 := 180
  /-- NV_CFG.RET_QLC_D -/
  retQlcD : BitVec 8 := 30
  /-- NV_CFG.FLUSH_US -/
  flushUs : BitVec 16 := 50
  /-- NV_COUNTS.REPAIRS -/
  repairs : Nat := 0
  /-- NV_COUNTS.CONFLICTS -/
  conflicts : Nat := 0
  /-- NV_COUNTS.DRESSINGS -/
  dressings : Nat := 0
  /-- The flash layer or the LDPC engine restarts or is fenced (R429, R433) -/
  restarting : Bool := false
  /-- Fabric time at which the flash layer last entered the fault state (R433) -/
  lastFlashFault : Option Nat := none
  /-- Fewer than two channels live: records are durable in one copy (R418) -/
  singleCopy : Bool := false
  /-- Slots marked unusable by a floor raise (R260) -/
  slotBad : BitVec 2 := 0
  /-- The pairing as a unit-local object: unit, pair key, peer MAC, arbiter (R439) -/
  pairing : Option (Nat × Nat × Nat × Nat) := none
  /-- Pages asked to be refreshed or moved, waiting on their claims: block keys (R413) -/
  refresh : List Nat := []
  deriving DecidableEq, Repr

/-- A maintenance activity (R453). -/
structure Activity where
  /-- Identifier -/
  id : Nat := 0
  /-- KIND of Table 14.7; 8 NV move, 9 anchor (internal) -/
  kind : Nat := 0
  /-- TARGET -/
  target : Word := 0
  /-- Claims as redundancy group numbers -/
  groups : List Nat := []
  /-- MAX_S -/
  maxS : Nat := 0
  /-- Ran beyond MAX_S (R457) -/
  overrun : Bool := false
  deriving DecidableEq, Repr

/-- Standby pairing, the lease, shipping and maintenance (chapter 14). -/
structure PairSt where
  /-- LH_PAIR_STATUS.ROLE -/
  role : PairRole := .unpaired
  /-- PAIRED, RS -/
  paired : Bool := false
  /-- UNIT: 0 unit A, 1 unit B, RS -/
  unit : Nat := 0
  /-- TAKEOVERS, RS -/
  takeovers : Nat := 0
  /-- PEER_ELIGIBLE -/
  peerEligible : Bool := false
  /-- ARBITER_OK -/
  arbiterOk : Bool := false
  /-- LH_PAIR_ACKED.ACKED_JSN -/
  acked : Nat := 0
  /-- Pair key generation in D0 retention (R439); 0 for none -/
  pairKey : Nat := 0
  /-- Peer MAC of port 3 (R439) -/
  peerMac : Nat := 0
  /-- Arbiter's I3C address named at pairing (R437) -/
  arbiter : Nat := 0
  /-- FRAME_SEQ sent last (Table 14.3) -/
  txSeq : Nat := 0
  /-- FRAME_SEQ accepted last (R446) -/
  rxSeq : Nat := 0
  /-- Frames that the landing port dropped and counted (R54, R446) -/
  rejected : Nat := 0
  /-- Acts without waiting for the standby (R448) -/
  peerLost : Bool := false
  /-- Highest pair-durable JSN of the last renewal (R442) -/
  renewedJsn : Nat := 0
  /-- FORCE_TAKEOVER has been taken (R444) -/
  forced : Bool := false
  /-- A takeover has yet to load fabric time: quays whose copy lay below the floor (R275) -/
  timeLoad : Option (List Nat) := none
  /-- A planned switchover ships up to this JSN (R445) -/
  switchJsn : Option Nat := none
  /-- A planned switchover runs: the unit acts on no new record (R445) -/
  switching : Bool := false
  /-- Base JSN: last JSN replayed at the own takeover (R449) -/
  baseJsn : Nat := 0
  /-- Rejoin done (R440) -/
  rejoined : Bool := false
  /-- Own unit-local records waiting for a shipped JSN (R447) -/
  localRecs : List JRec := []
  /-- Snapshot frames received of the running shipment (R447) -/
  snapRecv : Nat := 0
  /-- Object data received before its OBJECT_DIR (R447) -/
  objRecv : List Byte := []
  /-- Tray channel, word from the tray controller (R438) -/
  trayIn : Mbox := {}
  /-- Tray channel, word to the tray controller (R438) -/
  trayOut : Mbox := {}
  /-- Peer channel, word from the peer (R438) -/
  peerIn : Mbox := {}
  /-- Peer channel, word to the peer (R438) -/
  peerOut : Mbox := {}
  /-- Maintenance activities running (R453) -/
  running : List Activity := []
  /-- Maintenance activities queued, in order (R455) -/
  queued : List Activity := []
  /-- DEFERRALS (Table 14.9) -/
  deferrals : Nat := 0
  /-- LAST_ID (Table 14.9) -/
  lastId : Nat := 0
  /-- Link retrains that their island's boundary has started: activity identifiers (R456) -/
  retrains : List Nat := []
  deriving DecidableEq, Repr

/-- A digest report (Table 12.5) as the integrity unit holds it. -/
structure DReport where
  /-- Member agent address -/
  src : FAddr := 0
  /-- POISONED -/
  poisoned : Bool := false
  /-- DIGEST -/
  digest : Word := 0
  /-- Violating blocks -/
  violations : Nat := 0
  deriving DecidableEq, Repr

/-- The reports of one key (R393). -/
structure DKey where
  /-- Island handle -/
  island : Nat := 0
  /-- Epoch -/
  epoch : Nat := 0
  /-- Step -/
  step : Nat := 0
  /-- Descriptor -/
  desc : Nat := 0
  /-- Group: lowest member address of the replica group -/
  group : FAddr := 0
  /-- Reports held -/
  reports : List DReport := []
  /-- A tie waits for the repeat digest (R394) -/
  tie : Bool := false
  /-- The key has had its verdict; a report of it that comes later is discarded (log 91) -/
  done : Bool := false
  deriving DecidableEq, Repr

/-- A history record (Table 13.10). -/
structure Hist where
  /-- UNIT -/
  unit : BitVec 12 := 0
  /-- VERDICT -/
  verdict : Nat := 0
  /-- PATTERN -/
  pattern : BitVec 16 := 0
  /-- ISLAND -/
  island : Nat := 0
  /-- TIME -/
  time : Nat := 0
  /-- STEP -/
  step : Nat := 0
  deriving DecidableEq, Repr

/-- A suspect unit (Table 12.7), keyed by AGENT_ID and unit. -/
structure SusUnit where
  /-- AGENT_ID -/
  agent : Nat := 0
  /-- Unit -/
  unit : BitVec 12 := 0
  /-- State -/
  st : Suspect := .healthy
  /-- The verdict that made it suspect was PERMANENT -/
  permanent : Bool := false
  /-- VSTEP applied -/
  vstep : Int := 0
  /-- FSTEP applied -/
  fstep : Int := 0
  /-- A targeted test is queued or runs -/
  testing : Bool := false
  /-- A failed test made it suspect (Table 12.7) -/
  failed : Bool := false
  deriving DecidableEq, Repr

/-- A CPER record (Table 12.9). -/
structure Cper where
  /-- RecordID, export sequence number -/
  id : Nat := 0
  /-- ErrorSeverity -/
  severity : Nat := 0
  /-- Embedded fault record -/
  fault : Rec := {}
  /-- Timestamp: fabric time -/
  time : Nat := 0
  /-- AGENT_ID -/
  agent : Nat := 0
  /-- HC_CLASS -/
  hcClass : Nat := 0
  /-- Verdict -/
  verdict : Nat := 0
  /-- Unit -/
  unit : BitVec 12 := 0
  /-- Pattern set, 0 for none -/
  pattern : Nat := 0
  /-- VSTEP applied -/
  vstep : Int := 0
  /-- FSTEP applied -/
  fstep : Int := 0
  /-- Step -/
  step : Nat := 0
  /-- Majority digest -/
  majority : Word := 0
  /-- Member digest -/
  digest : Word := 0
  deriving DecidableEq, Repr

/-- A pattern set in the library (R399). -/
structure PatSet where
  /-- SET_ID -/
  id : Nat := 0
  /-- HC_CLASS -/
  hcClass : Nat := 0
  /-- TRIGGER -/
  trigger : BitVec 8 := 0
  /-- SVN -/
  svn : Nat := 0
  /-- Image bytes -/
  image : List Byte := []
  deriving DecidableEq, Repr

/-- A repeat that MODE REPEAT waits for (R396). -/
structure Repeat where
  /-- Island handle -/
  island : Nat := 0
  /-- Epoch -/
  epoch : Nat := 0
  /-- Step -/
  step : Nat := 0
  /-- Descriptor -/
  desc : Nat := 0
  /-- DIVERGENT member -/
  member : FAddr := 0
  /-- Majority digest -/
  majority : Word := 0
  /-- The member's digest -/
  digest : Word := 0
  /-- The member's repeat digest -/
  mine : Option Word := none
  /-- The repeat endpoint's digest -/
  other : Option Word := none
  deriving DecidableEq, Repr

/-- The integrity unit (chapter 12). -/
structure Integ where
  /-- Reports by key (R393) -/
  keys : List DKey := []
  /-- History by AGENT_ID, newest first (R432) -/
  history : FMap (List Hist) := []
  /-- Suspect units (R401) -/
  units : List SusUnit := []
  /-- Pattern library (R400) -/
  library : List PatSet := []
  /-- CPER records, oldest first (R405) -/
  cper : List Cper := []
  /-- Next RecordID (R405); log 8 -/
  nextCper : Nat := 1
  /-- Tests running: agent, set, unit, context, ticket; context 0 is the integrity unit's own (R397, R398) -/
  tests : List (Nat × Nat × Nat × Nat × Nat) := []
  /-- Tests queued for a boundary: agent, unit and pattern set (R397) -/
  waiting : List (Nat × Nat × Nat) := []
  /-- Reports that the I/O domain holds until D20 is ON: agent, TAG, body (R392) -/
  held : List (Nat × BitVec 32 × List Byte) := []
  /-- Repeats of MODE REPEAT (R396) -/
  repeats : List Repeat := []
  /-- Digests that controller contexts have reported by IREPORT, newest first: context, descriptor, step, digest (R179, R392); log 97 -/
  ctxReports : List (Nat × Nat × Nat × Word) := []
  deriving DecidableEq, Repr

end Sys2Proof.Machine
end

