-- ==== Sys2Proof/Machine/AgentState.lean ====
section
/-! DEFINITION. The state of one agent: its port, life, registers, tables, links, flows, event buffer, resets, scrub, keys and integrity engine. -/

namespace Sys2Proof.Machine

/-- One lane of a link (R205). -/
structure Lane where
  /-- In use -/
  inUse : Bool := false
  /-- Most symbols corrected in one codeword of the running window -/
  most : Nat := 0
  /-- An uncorrectable codeword was seen in the running window -/
  unc : Bool := false
  /-- An uncorrectable codeword was seen in the window before -/
  uncPrev : Bool := false
  /-- Windows in a row with the margin below DROP_MARGIN -/
  low : Nat := 0
  /-- Margin of the last window -/
  margin : Nat := 15
  deriving DecidableEq, Repr

/-- What a link holds for one virtual channel (R210, R211). -/
structure LinkVc where
  /-- Credits held toward the neighbour -/
  credits : Nat := 0
  /-- Buffer depth that the neighbour advertised -/
  depth : Nat := 0
  /-- Flits sent, modulo 2^16 -/
  sent : BitVec 16 := 0
  /-- Free flits of the own receive buffer -/
  free : Nat := 0
  /-- Flits freed from the own receive buffer, modulo 2^16 -/
  freed : BitVec 16 := 0
  /-- XOFF has arrived -/
  stopped : Bool := false
  /-- XOFF has been sent -/
  xoffSent : Bool := false
  deriving DecidableEq, Repr

/-- One of the 16 links of an agent (R205, R210, R224, R306). -/
structure Link where
  /-- Trained and not dead -/
  live : Bool := false
  /-- The lanes 0 to 3 -/
  lanes : FMap Lane := []
  /-- The virtual channels 0 to 5 -/
  vcs : FMap LinkVc := []
  /-- AG_NBR_n.VALID -/
  nbrValid : Bool := false
  /-- AG_NBR_n.AGENT_ID -/
  nbr : Nat := 0
  /-- AG_NBR_n.LINK -/
  nbrLink : Nat := 0
  /-- Flits sent in all, and the readings of the last ten CALIB_SELECT, newest first (R306) -/
  total : Nat := 0
  /-- Readings of `total` -/
  readings : List Nat := []
  /-- CALIB element in use, none when no record qualifies (R307) -/
  calib : Option Nat := none
  /-- CALIB_STALE is recorded until a record qualifies again (R307) -/
  calibStale : Bool := false
  /-- Asymmetry correction applied, ps (R307) -/
  asym : Int := 0
  deriving DecidableEq, Repr

/-- A packet that has passed the route stage and has flits left to send, or that waits for a dead port (R193, R207). -/
structure Queued where
  /-- Link by which it entered, 16 for the local port -/
  link : Nat := 16
  /-- Input port: 0 to 7, 8 the local port, 9 the quay link -/
  input : Nat := 8
  /-- The packet as the route stage took it; the payload only of one from the local port -/
  p : Pkt := {}
  /-- Flits of the packet -/
  flits : Nat := 1
  /-- Flits left to send -/
  left : Nat := 1
  /-- Its tail has failed a check or came with BAD (R189) -/
  bad : Bool := false
  deriving DecidableEq, Repr

/-- The packets that wait at a link (R32, R193). -/
structure OutQ where
  /-- Waiting packets by virtual channel, oldest first -/
  q : FMap (List Queued) := []
  /-- Pair served last of VC0/VC1 (0) and VC4/VC5 (2) -/
  last : Nat := 2
  /-- Virtual channel whose packet is partly sent -/
  mid : Option Nat := none
  deriving DecidableEq, Repr

/-- A packet whose header has passed and whose tail has not (R189). -/
structure Passing where
  /-- Header as it arrived -/
  hdr : Hdr := {}
  /-- A copy goes to the host chip or the agent itself -/
  deliver : Bool := false
  /-- Output port, 8 for the quay link, none when it is not forwarded -/
  fwd : Option Nat := none
  deriving DecidableEq, Repr

/-- A sending flow of one destination and class (R199, R201). -/
structure TxFlow where
  /-- Next SEQ -/
  next : BitVec 16 := 0
  /-- Outstanding packets, oldest first, each with the times that it has been re-sent -/
  out : List (Pkt × Nat) := []
  /-- The flow has ended (R198, R201) -/
  ended : Bool := false
  deriving DecidableEq, Repr

/-- A receiving flow of one source and class (R200). -/
structure RxFlow where
  /-- Next expected SEQ -/
  expected : BitVec 16 := 0
  /-- Packets delivered since the last ACK -/
  unacked : Nat := 0
  deriving DecidableEq, Repr

/-- An injection that the agent has not yet granted (R190, R214, R289). -/
structure Inj where
  /-- Header as the host chip gave it -/
  hdr : Hdr := {}
  /-- Payload read -/
  payload : List Byte := []
  deriving DecidableEq, Repr

/-- A record in the event buffer (R237, R238). -/
structure EvtRec where
  /-- The record -/
  r : Rec := {}
  /-- ESEQ, given when it is first sent -/
  eseq : Option Nat := none
  /-- The first-fault record -/
  first : Bool := false
  deriving DecidableEq, Repr

/-- The event buffer (R237 to R239, R378 to R380). -/
structure EvtBuf where
  /-- Held records, in the order in which they were taken -/
  recs : List EvtRec := []
  /-- AG_EVT_NEXT -/
  next : Nat := 1
  /-- AG_EVT_ACKED -/
  acked : Nat := 0
  /-- AG_EVT_STATUS.SPOIL -/
  spoil : Nat := 0
  /-- AG_EVT_STATUS.FIRST_HELD -/
  firstHeld : Bool := false
  /-- EVENTS packets not yet acknowledged: the last ESEQ of each, oldest first -/
  packets : List Nat := []
  /-- SPOIL as last posted by EVT_SPOIL -/
  spoilPosted : Nat := 0
  /-- Fabric time of the last EVT_SPOIL -/
  spoilTime : Option Nat := none
  deriving DecidableEq, Repr

/-- Endpoint resets (R240 to R242). -/
structure AgReset where
  /-- Level asked for by the running reset's request, 0 when none runs -/
  asked : Nat := 0
  /-- AG_STATE.RESET_LEVEL: the level running -/
  level : Nat := 0
  /-- Fabric time of its start -/
  started : Nat := 0
  /-- Requests that the running reset serves -/
  asks : List Req := []
  /-- RST_REQ has timed out and its handshake is still open: no new one rises until its late answer (R251) -/
  late : Bool := false
  /-- A higher level that runs next, 0 for none -/
  next : Nat := 0
  /-- Requests of that level -/
  nextAsks : List Req := []
  /-- AG_RESET_STATUS.LAST_US -/
  lastUs : Nat := 0
  /-- AG_RESET_STATUS.RESULT -/
  result : Nat := 0
  /-- AG_RESET_STATUS.LAST_LEVEL -/
  lastLevel : Nat := 0
  /-- AG_RESET_LIMIT -/
  limit : Word := 0x01F4271003E80064
  deriving DecidableEq, Repr

/-- The scrub sequencer (R244, R245). -/
structure AgScrub where
  /-- AG_STATE.SCRUB_STEP, 0 when idle -/
  step : Nat := 0
  /-- Fabric time of its start -/
  started : Nat := 0
  /-- Fabric time at which the running region started -/
  regionStart : Nat := 0
  /-- Requests that the running scrub serves -/
  asks : List Req := []
  /-- SCRUB_REQ has timed out and its handshake is still open (R251) -/
  late : Bool := false
  /-- A scrub waits for the running reset to end (R242) -/
  due : Bool := false
  /-- AG_SCRUB_STATUS.RESULT -/
  result : Nat := 0
  /-- RESET_FAILED -/
  resetFailed : Bool := false
  /-- FAILED_REGION -/
  failedRegion : Nat := 0
  /-- TOTAL_US -/
  totalUs : Nat := 0
  /-- AGENT_NS -/
  agentNs : Nat := 0
  /-- AG_SCRUB_TIME -/
  regionUs : Word := 0
  deriving DecidableEq, Repr

/-- A key port operation (R246, R247). -/
structure KOp where
  /-- KP_OP -/
  op : KeyOp := .erase
  /-- KP_SLOT -/
  slot : Nat := 0
  /-- KP_KEY of a LOAD -/
  key : BitVec 256 := 0
  /-- Delivered with DEBUG_OK -/
  debugOk : Bool := false
  /-- KEY_DELIVER that it answers -/
  ask : Option Req := none
  /-- The scrub waits for it -/
  scrub : Bool := false
  deriving DecidableEq, Repr

/-- The key port (R246, R247). -/
structure AgKeys where
  /-- AG_KEY_STATUS.LOADED -/
  loaded : BitVec 32 := 0
  /-- Slots that hold a key delivered without DEBUG_OK (R332) -/
  noDebug : BitVec 32 := 0
  /-- AG_KEY_STATUS.GEN -/
  gen : BitVec 32 := 0
  /-- Operation in its handshake -/
  running : Option KOp := none
  /-- The running operation has been treated as KP_ERR and awaits its late answer -/
  late : Bool := false
  /-- Queued operations, oldest first -/
  queue : List KOp := []
  deriving DecidableEq, Repr

/-- AG_STEP_n (R248). -/
structure AgStep where
  /-- UNIT -/
  unit : BitVec 12 := 0
  /-- VSTEP -/
  vstep : BitVec 8 := 0
  /-- FSTEP -/
  fstep : BitVec 8 := 0
  /-- APPLIED -/
  applied : Bool := false
  /-- CLAMPED -/
  clamped : Bool := false
  /-- REFUSED -/
  refused : Bool := false
  deriving DecidableEq, Repr

/-- A firmware manifest in hand (Table 7.5). -/
structure FwMan where
  /-- SVN -/
  svn : Nat := 0
  /-- IMAGE_BYTES -/
  bytes : Nat := 0
  /-- CHUNKS -/
  chunks : Nat := 0
  /-- ENTRY -/
  entry : Nat := 0
  /-- RECOVER -/
  recover : Nat := 0
  /-- IMAGE_HASH -/
  hash : Hash := 0
  deriving DecidableEq, Repr

/-- The agent's part in an installation (Table 9.5). -/
structure AgTs where
  /-- State of Table 9.5 -/
  st : TsState := .opn
  /-- Prepared epoch of a switch agent (R285) -/
  prep : Nat := 0
  /-- The old bank, kept from the swap to TS_RELEASE (R290) -/
  old : Option Bank := none
  /-- Address, ASSIGNED, SPARE and staged address before the swap -/
  back : Option (FAddr × Bool × Bool × Option FAddr) := none
  /-- The refill of staging runs (R290) -/
  refill : Bool := false
  /-- TS_DATA held for the refill: request, table id, first element, COUNT and element bytes -/
  held : List (Req × Nat × Nat × Nat × List Byte) := []
  /-- TS_QUIESCE waits for the drain -/
  quiesce : Option Req := none
  deriving DecidableEq, Repr

/-- Plausibility figures of the running step (R388). -/
structure Plaus where
  /-- Blocks checked -/
  blocks : Nat := 0
  /-- Violating blocks -/
  violations : Nat := 0
  /-- NaN elements -/
  nans : Nat := 0
  /-- Inf elements -/
  infs : Nat := 0
  /-- Histogram bins 0 to 15 -/
  hist : FMap Nat := []
  /-- First violating FMT -/
  firstFmt : Option Nat := none
  /-- A POISON block was delivered or injected (Table 12.5) -/
  poisoned : Bool := false
  deriving DecidableEq, Repr

/-- A DIGEST_STEP request (R391). -/
structure DStep where
  /-- Descriptors still to digest, ascending -/
  descs : List Nat := []
  /-- REPEAT -/
  rep : Bool := false
  /-- Step reported -/
  step : Nat := 0
  /-- Figures of the step, for the report of its lowest descriptor -/
  fig : Plaus := {}
  deriving DecidableEq, Repr

/-- A DIGEST_REPORT that awaits its MG_ACK (R392). -/
structure AgReport where
  /-- TAG -/
  tag : BitVec 32 := 0
  /-- Sends so far -/
  sends : Nat := 1
  /-- Body -/
  body : List Byte := []
  deriving DecidableEq, Repr

/-- A running ITEST of an agent (R398). -/
structure AgTest where
  /-- Store slot -/
  slot : Nat := 0
  /-- Pattern set -/
  set : Nat := 0
  /-- Unit -/
  unit : Nat := 0
  /-- Entry that runs -/
  entry : Nat := 0
  /-- g register of an ITEST instruction; none when TEST_REQ asked -/
  dst : Option (BitVec 5) := none
  /-- The TEST_REQ: its CONTEXT, network and unit (R16) -/
  ask : Req := {}
  deriving DecidableEq, Repr

/-- The check and digest engine (chapter 12). -/
structure AgInteg where
  /-- AG_PLAUS -/
  plaus : Word := 0
  /-- AG_DIGEST_BASE_i at 2i and AG_DIGEST_LEN_i at 2i + 1 -/
  desc : FMap Word := []
  /-- Checker state by port; unlisted PRIMARY (Table 12.3) -/
  chk : FMap ChkState := []
  /-- Fabric times of BCV-only failures by port (Table 12.2) -/
  bcvOnly : FMap (List Nat) := []
  /-- Ports whose self-test is due (R384, R385): port, and whether a COMPARE disagreement was reported by the primary -/
  selfTest : FMap (Option Bool) := []
  /-- AG_INTEG_STEP.STEP -/
  step : Nat := 0
  /-- DIGEST_STEP requests queued or running, oldest first -/
  queue : List DStep := []
  /-- The buffer of the next descriptor is being read (MRD_REQ) -/
  reading : Bool := false
  /-- Figures of the running step -/
  fig : Plaus := {}
  /-- Reports that await MG_ACK -/
  reports : List AgReport := []
  /-- Next TAG of the agent's own requests; log 8 -/
  nextTag : Nat := 1
  /-- Running test -/
  test : Option AgTest := none
  /-- PAT_DATA held for a slot that a running test uses: request, slot, set, offset, bytes (R400) -/
  patHeld : List (Req × Nat × Nat × Nat × List Byte) := []
  deriving DecidableEq, Repr

/-- An agent (chapters 6, 7, 9, 12). -/
structure Agent where
  /-- Static signals of the agent port (Table 7.11) -/
  hc : Straps := {}
  /-- AG_RST_L is low -/
  inReset : Bool := true
  /-- AG_ADDR.ADDR -/
  addr : FAddr := 0x0FFFFFF
  /-- AG_ADDR.ASSIGNED -/
  assigned : Bool := false
  /-- AG_ADDR.SPARE -/
  spare : Bool := false
  /-- Staged address (R225) -/
  staged : Option FAddr := none
  /-- AG_NET -/
  net : Word := 0x000088B500000000
  /-- Group MAC of the firmware broadcast (Table 7.4) -/
  fwGroup : Nat := 0
  /-- MAC of controller unit 1 (Table 7.4) -/
  ctrlMac1 : Nat := 0
  /-- MAC of controller unit 2 -/
  ctrlMac2 : Nat := 0
  /-- Controller unit, 1 or 2, that sent the last management request received: index 0 resolves to it (R451) -/
  lastCtrl : Nat := 1
  /-- Life state, AG_STATE.LIFE (Table 7.6) -/
  life : Life := .rom
  /-- AG_FW_STATUS.REASON -/
  reason : Nat := 0
  /-- AG_FW_STATUS.SVN -/
  svn : Nat := 0
  /-- AG_FW_STATUS.RESTARTS -/
  restarts : Nat := 0
  /-- Fabric times of the exceptions of the last second (R231) -/
  excTimes : List Nat := []
  /-- Manifest accepted last -/
  manifest : FwMan := {}
  /-- Chunk indexes received (R228) -/
  chunks : List Nat := []
  /-- AG_FW_MEAS -/
  fwMeas : Hash := 0
  /-- AG_HC_MEAS -/
  hcMeas : Hash := 0
  /-- HC_MEAS_VALID has risen since AG_RST_L -/
  hcLatched : Bool := false
  /-- AG_DEBUG.DBG_STATE -/
  dbg : BitVec 8 := 0
  /-- AG_DEBUG.DBG_SEEN -/
  dbgSeen : Bool := false
  /-- Registers and SRAM of the micro-sequencer (Table 4.1) -/
  core : Core := {}
  /-- Links 0 to 15 -/
  links : FMap Link := []
  /-- LINK_REPORT is due after the 10 ms limit (R224) -/
  reportDue : Bool := false
  /-- Fabric time of the last LINK_REPORT -/
  reportAt : Option Nat := none
  /-- AG_MB_IN.WORD -/
  mbIn : Word := 0
  /-- IN_FULL -/
  inFull : Bool := false
  /-- IN_OVF -/
  inOvf : Bool := false
  /-- AG_MB_OUT.WORD -/
  mbOut : Word := 0
  /-- OUT_FULL -/
  outFull : Bool := false
  /-- OUT_OVF -/
  outOvf : Bool := false
  /-- TAG under which AG_MB_OUT is sent (R236) -/
  outTag : BitVec 32 := 0
  /-- Event buffer -/
  evt : EvtBuf := {}
  /-- Resets -/
  rst : AgReset := {}
  /-- Scrub -/
  scrub : AgScrub := {}
  /-- Local port fenced by a reset or a scrub (R241, R244) -/
  fenced : Bool := false
  /-- Local port fenced by an abort (R375) -/
  abortFence : Bool := false
  /-- Key port -/
  keys : AgKeys := {}
  /-- AG_STEP_n -/
  steps : FMap AgStep := []
  /-- Steps that wait for the power manager: n ascending -/
  stepQueue : List Nat := []
  /-- Step in its handshake -/
  stepRun : Option Nat := none
  /-- AG_FORMER -/
  former : Word := 0
  /-- Installed bank -/
  bank : Bank := Bank.reset
  /-- Staging bank -/
  stage : Bank := Bank.reset
  /-- Installation state -/
  ts : AgTs := {}
  /-- Sending flows by 2 × destination + class -/
  tx : FMap TxFlow := []
  /-- Receiving flows by 2 × source + class -/
  rx : FMap RxFlow := []
  /-- Packets between header and tail, by 8 × link of entry + VC, link 16 the local port -/
  passing : FMap Passing := []
  /-- Packets waiting at each link (R32) -/
  outq : FMap OutQ := []
  /-- A mismatched block waits for its second read (R190) -/
  reread : Option Inj := none
  /-- Injections held by slot, window or drain, oldest first (R210, R214, R289) -/
  heldInj : List Inj := []
  /-- Slot since SCHED_T0 in which packets have started, and how many (R214) -/
  slotAt : Nat := 0
  /-- Packets started in it -/
  slotN : Nat := 0
  /-- Scheduled packets that have started and not left the local port, oldest first: the slot of each, counted from SCHED_T0, and whether it has slipped (R215) -/
  slots : List (Nat × Bool) := []
  /-- Ports declared dead -/
  deadPorts : BitVec 8 := 0
  /-- Dead ports whose armed detour is applied (R207) -/
  detoured : BitVec 8 := 0
  /-- Dead ports whose NO_DETOUR is recorded (R206) -/
  noDetour : BitVec 8 := 0
  /-- Packets whose headers wait for a dead port until its detour is applied, with that port (R207) -/
  waiting : List (Nat × Queued) := []
  /-- Counters by 64 × port + word (Table 6.13) -/
  cnt : FMap Word := []
  /-- Ports whose MARGIN_MIN has started with the training of a first link -/
  marginOn : BitVec 8 := 0
  /-- Fabric time at which MOVED was last sent, by 2 × source + class (R198) -/
  movedAt : FMap Nat := []
  /-- FT_NS minus controller fabric time -/
  ftOff : Int := 0
  /-- FT_VALID -/
  ftValid : Bool := false
  /-- The time parent is silent (R278) -/
  parentSilent : Bool := false
  /-- Temperature of the agent's sensor (R306) -/
  temp : BitVec 16 := 0
  /-- Answers to the last 16 TAGs of controller units 1 and 2, newest first (R221) -/
  answers : FMap (List (BitVec 32 × Answer)) := []
  /-- Check and digest engine -/
  integ : AgInteg := {}
  deriving DecidableEq, Repr

end Sys2Proof.Machine
end

