-- ==== Sys2Proof/Syntax.lean ====
section
/-! DEFINITION. The commands of the block: one constructor per row of spec/opcode_table.json, with what the command brings from outside as its operands. -/

namespace Sys2Proof

open Sys2Proof.Machine

/-- A command: an operation, an event, a packet or an Aglek instruction that the block takes whole (the rows of the opcode table). -/
inductive Instr where
  /-- POWER_ON (R464). The first feed becomes VALID: the D0 rails ramp, FAULT_L is driven low and D0 leaves power-on reset. -/
  | powerOn (feed : Side) (mv : BitVec 16)
  /-- FEED_RANGE_CHANGE (R452). A feed leaves or re-enters its valid range after the range filter. -/
  | feedRangeChange (feed : Side) (mv : BitVec 16) (shareA : BitVec 8)
  /-- ORING_FAULT (R452). An ORing element conducts in reverse or fails to conduct, or reports good again, and FEED_ORING is raised or cleared. -/
  | oringFault (feed : Side) (bad : Bool)
  /-- BOTH_FEEDS_FAIL (R465). Both feeds fall below 9.6 V: WP_L is driven low, the open-drain outputs are released and every domain is reset. -/
  | bothFeedsFail
  /-- CHIP_RST_L_FIRST_RISE (R464). The first rise of CHIP_RST_L after power-on starts boot step 1. -/
  | chipRstLFirstRise
  /-- CHIP_RESET (R364). A chip reset starts on a later assertion of CHIP_RST_L: the cause is journalled, portals fence and domains D1 to D23 drain. -/
  | chipReset
  /-- CHIP_RESET_DRAIN_END (R364). The drain of a chip reset ends, or reaches its 10 ms limit; HBM enters self-refresh and the keeper boots from step 2. -/
  | chipResetDrainEnd
  /-- KEEPER_BOOT_ROM (R254). Boot step 1: the keeper runs the boot ROM and reads the fuses. -/
  | keeperBootRom
  /-- NV_OPEN (R421). Boot step 2: D21 wakes through the NV path and the anchor is selected from its three copies. -/
  | nvOpen
  /-- CONTROLLER_FW_VERIFY (R258). Boot step 3: both firmware slots are checked and the passing slot with the higher SVN is booted. -/
  | controllerFwVerify
  /-- LICENCE_EVALUATION (R8). Every stored licence is evaluated, and LH_CAP3, LIC_GEN and LH_LIC_REASON are updated in one step. -/
  | licenceEvaluation
  /-- LICENCE_EXPIRY_CHECK (R77). The 1 ms comparison of every NOT_AFTER with the evaluation time runs, and an expiry found starts an evaluation. -/
  | licenceExpiryCheck
  /-- HBM_MEMORY_TEST (R255). Boot step 6: HBM is tested, and a failing stack is fenced with a SELF_TEST fault. -/
  | hbmMemoryTest (failed : List Nat)
  /-- BRINGUP_SELF_TEST (R255). Boot step 7: benches, channel engine, ferry, trust unit and integrity unit are self-tested and failing units are fenced. -/
  | bringupSelfTest (failed : List (Nat × Nat))
  /-- MODEL_REBUILD (R425). The fabric model is rebuilt from snapshot and face replay, at boot step 8 or at a takeover. -/
  | modelRebuild (snapOk : Bool) (model : Option (Fabric × Isles))
  /-- PLAN_CHECK (R264). Boot step 9: the stored plan is verified, its limits and entries are tested, and LIMIT or PLAN_ENTRY differences are listed. -/
  | planCheck (cables : List (Nat × Nat))
  /-- DISCOVERY (R265). Boot step 10: announced agents are matched to plan entries and assigned, or assigned agents are queried on the warm path. -/
  | discovery
  /-- DISCOVERY_WINDOW_END (R265). DISCOVERY_MS expires before every entry is matched, and step 10 ends. -/
  | discoveryWindowEnd
  /-- AGENT_FW_LOAD (R267). Boot step 11: manifests are sent and images are broadcast by row and class, and missing chunks are repaired. -/
  | agentFwLoad
  /-- FW_LOAD_TIMEOUT (R268). 2 s pass after the first manifest, step 11 ends and agents that are not RUNNING are listed FW_FAILED. -/
  | fwLoadTimeout
  /-- BASE_TABLE_SET (R254). Boot step 12: link reports are gathered and a base table set is installed. -/
  | baseTableSet
  /-- TOPOLOGY_AGREEMENT (R269). Boot step 13: the difference list is built and the outcome READY, READY_DEGRADED or HELD is set. -/
  | topologyAgreement
  /-- WAKE_EVENT (R64). A wake event reaches the sequencer for a domain, and starts a wake, merges into one, or returns a draining domain to ON. -/
  | wakeEvent (domain : Nat)
  /-- DOMAIN_READY (R63). A waking domain's manager reports ready and the domain goes ON. -/
  | domainReady (domain : Nat)
  /-- DOMAIN_WAKE_TIMEOUT (R66). A domain does not reach ON within twice its wake latency, and is fenced with a DOMAIN_WAKE fault. -/
  | domainWakeTimeout (domain : Nat)
  /-- DOMAIN_IDLE_EXPIRY (R57). A domain's idle time expires and the domain goes to DRAINING. -/
  | domainIdleExpiry (domain : Nat)
  /-- DOMAIN_DRAINED (R65). A draining domain's crossings are idle and its records are acknowledged, so it goes OFF, or to FENCED when posting fails. -/
  | domainDrained (domain : Nat) (posted : Bool)
  /-- PLL_LOCK_LOSS (R71). A running PLL loses lock: the domains it serves are fenced and PLL_LOCK faults are recorded. -/
  | pllLockLoss (pll : Nat)
  /-- AON_CLOCK_LOSS (R469). REFCLK_AON stops for 1 µs: D0 moves to its backup oscillator and a power cycle is requested. -/
  | aonClockLoss (holdOsc : Bool)
  /-- PCIE_CONFIG_REQUEST (R7). A PCIe configuration request reaches a portal and is answered with retry status until licences are evaluated or while a partition reset runs. -/
  | pcieConfigRequest (portal : Nat)
  /-- PERST_RISE (R468). PERST_L of a portal rises, and link training starts at the later of that rise and PORTAL_RDY. -/
  | perstRise (portal : Nat)
  /-- PERST_FALL (R468). PERST_L of a portal falls while PORTAL_RDY is high, and a partition reset of the portal starts. -/
  | perstFall (portal : Nat)
  /-- PCIE_RESET_EVENT (R118). A Function Level Reset, a hot reset or a loss of link at a portal starts a partition reset. -/
  | pcieResetEvent (portal : Nat)
  /-- PT_RESET_GO (R118). A write of PT_RESET.GO starts a partition reset of the portal. -/
  | ptResetGo (portal : Nat)
  /-- PARTITION_RESET_DONE (R119). A partition reset ends and PT_STATUS.STATE reads 2. -/
  | partitionResetDone (portal : Nat)
  /-- REGISTER_WRITE (R85). A register write without behaviour of its own is performed, or dropped under the access-size, role or reserved-value rules. -/
  | registerWrite (portal : Nat) (bar2 contiguous : Bool) (offset : Nat) (data : List Byte)
  /-- RC_REGISTER_READ (R85). A read covering all 8 bytes of an RC register returns its value and clears it. -/
  | rcRegisterRead (portal : Nat) (bar2 contiguous : Bool) (offset size : Nat)
  /-- PORTAL_ACCESS_RESUME (R67). A portal access held for a waking domain completes once the domain is ON. -/
  | portalAccessResume (portal : Nat)
  /-- PORTAL_ACCESS_TIMEOUT (R67). A held portal access reaches 100 µs or meets a FENCED domain: a read returns zero, a write is dropped and DOMAIN_ACCESS is recorded. -/
  | portalAccessTimeout (portal : Nat)
  /-- PT_CTRL_WRITE (R112). PT_CTRL is written, and enabling MB_IRQ_EN raises the vector of each full incoming mailbox once. -/
  | ptCtrlWrite (portal offset size : Nat) (data : Word)
  /-- PT_FAULT_FIRST_CLEAR (R350). Software clears PT_FAULT_STATUS.FIRST_VALID, freeing the portal's first-fault slot. -/
  | ptFaultFirstClear (portal : Nat)
  /-- PT_FAULT_NEXT_CLEAR (R352). Software clears PT_FAULT_STATUS.NEXT_VALID and the next queued record is shown. -/
  | ptFaultNextClear (portal : Nat)
  /-- LH_FAULT_FIRST_CLEAR (R350). Software clears LH_FAULT_STATUS.FIRST_VALID, freeing LH_FAULT_FIRST. -/
  | lhFaultFirstClear (portal : Nat) (data : Word)
  /-- LH_PD_HOLD_WRITE (R61). The steward writes LH_PD_HOLD, waking the named domains and exempting them from idle power-down. -/
  | lhPdHoldWrite (portal size : Nat) (data : Word)
  /-- LH_RESET_ENGINE (R359). LH_RESET with LEVEL 2 starts an engine reset of the named domain. -/
  | lhResetEngine (portal domain : Nat)
  /-- LH_RESET_CHIP (R359). LH_RESET with LEVEL 4 starts a chip reset with cause SOFTWARE. -/
  | lhResetChip (portal : Nat)
  /-- IU_REGISTER_WRITE (R404). A portal writes IU_CFG, IU_PLAUS, IU_LIMITS or IU_DESC for the selected island, or is refused with REG_DENIED. -/
  | iuRegisterWrite (portal offset size : Nat) (data : Word)
  /-- IU_CLEAR (R401). The steward writes IU_CLEAR, returning every unit of an agent to HEALTHY and its steps to nominal. -/
  | iuClear (portal : Nat) (data : Word)
  /-- DOORBELL_WRITE (R98). A ring doorbell is written and checked against the ring's indexes: accepted, stale, overrun or dropped. -/
  | doorbellWrite (portal offset size : Nat) (data : Word)
  /-- PT_MBO_DATA_WRITE (R110). The host writes an outgoing mailbox: the word is stored, the full flag set and a wake raised, or the write is dropped as an overflow. -/
  | ptMboDataWrite (portal channel : Nat) (word : Word)
  /-- PT_MBI_DATA_READ (R110). The host reads an incoming mailbox in full, taking the word and clearing the full flag. -/
  | ptMbiDataRead (portal channel : Nat)
  /-- RING_CREATE (R93). The command creates a ring descriptor with the lowest free local number, or refuses it. -/
  | ringCreate (portal : Nat) (tag : BitVec 16)
  /-- RING_DESTROY (R94). The command frees a ring that is not ACTIVE and not named as PAIRED. -/
  | ringDestroy (portal : Nat) (tag : BitVec 16)
  /-- RING_FENCE (R90). The command moves a ring to FENCED. -/
  | ringFence (portal : Nat) (tag : BitVec 16)
  /-- RING_RESUME (R90). The command returns a fenced ring to IDLE, or to ACTIVE when entries are available. -/
  | ringResume (portal : Nat) (tag : BitVec 16)
  /-- RING_RESET (R94). The command returns an errored or fenced ring to IDLE with both indexes 0. -/
  | ringReset (portal : Nat) (tag : BitVec 16)
  /-- RING_QUERY (R92). The command returns a ring's indexes, state, WAITS_ON, ERROR_INFO and DONE. -/
  | ringQuery (portal : Nat) (tag : BitVec 16)
  /-- RING_RETARGET (R92). The command replaces a ring's WAKE_TARGET. -/
  | ringRetarget (portal : Nat) (tag : BitVec 16)
  /-- ENTRY_FETCH (R99). The channel engine fetches the next submission entry of a ring and checks it for malformation, role and sealing. -/
  | entryFetch (ring : Nat) (read : EntryRead)
  /-- SUBMIT_RESUME (R100). A slot frees in a full COMPLETE ring and consumption of its SUBMIT ring resumes. -/
  | submitResume (ring : Nat)
  /-- NOP (R104). The NOP entry completes with no effect. -/
  | nop (ring : Nat) (index : BitVec 32) (buf : List Byte)
  /-- CTX_START (R153). The entry creates a PENDING context with its image, ring binding and bench window request. -/
  | ctxStart (ring : Nat) (index : BitVec 32) (buf : List Byte)
  /-- CTX_STOP (R154). The entry ends a PENDING or FAULTED context, or moves a running one to STOPPING with cause STOP. -/
  | ctxStop (ring : Nat) (index : BitVec 32) (buf : List Byte)
  /-- CTX_RESET (R361). The entry resets a FAULTED context back to PENDING. -/
  | ctxReset (ring : Nat) (index : BitVec 32) (buf : List Byte)
  /-- MB_BIND (R109). The entry binds or unbinds a portal mailbox channel to a context. -/
  | mbBind (ring : Nat) (index : BitVec 32) (buf : List Byte) (incoming : Bool) (channel ctx : Nat)
  /-- PLAN_LOAD (R263). The entry checks a signed fabric plan and stores it, applying it at once when the fabric is HELD and PORTALS are unchanged. -/
  | planLoad (ring : Nat) (index : BitVec 32) (buf : List Byte)
  /-- LICENCE_STORE (R78). The entry stores or replaces a licence and starts an evaluation. -/
  | licenceStore (ring : Nat) (index : BitVec 32) (buf : List Byte)
  /-- LICENCE_REMOVE (R477). The entry removes the licence with the given SERIAL and starts an evaluation. -/
  | licenceRemove (ring : Nat) (index : BitVec 32)
  /-- FW_STAGE (R259). The entry checks and stages a controller image, an agent image or a pattern set. -/
  | fwStage (ring : Nat) (index : BitVec 32) (buf : List Byte)
  /-- ISLAND_CARVE (R311). The entry with HANDLE 0 carves a new island and installs its first table set. -/
  | islandCarve (ring : Nat) (index : BitVec 32) (buf : List Byte)
  /-- JOB_BOUNDARY (R312). The ISLAND_CARVE entry that names an island starts its job boundary and applies everything that waits for it. -/
  | jobBoundary (ring : Nat) (index : BitVec 32) (buf : List Byte)
  /-- ISLAND_RELEASE (R314). The entry releases an island, or waits for an ECOMMIT that is running. -/
  | islandRelease (ring : Nat) (index : BitVec 32)
  /-- ISLAND_RELEASE_RESUME (R314). A waiting release proceeds: members are fenced, broker state is discarded, scrubs start and the key is freed. -/
  | islandReleaseResume (island : Nat)
  /-- ISLAND_STATE_SCRUB_DONE (R320). The controller's scrub of its own state of an island ends. -/
  | islandStateScrubDone (island : Nat)
  /-- ISLAND_MEASURE (R327). The entry returns a signed island attestation report. -/
  | islandMeasure (ring : Nat) (index : BitVec 32) (buf : List Byte)
  /-- ISLAND_ABORT (R372). The entry aborts an island: it records ISLAND_ABORTED, fences rings, abandons the installation and sends the abort to the root member. -/
  | islandAbort (ring : Nat) (index : BitVec 32) (buf : List Byte)
  /-- ABORT_RESEND (R376). Members that have not answered an abort within 50 µs, and then every 100 µs, receive it by unicast. -/
  | abortResend (island : Nat)
  /-- SCHED_LOAD (R301). The entry checks a schedule image, or names a cached one, and makes it pending for the island. -/
  | schedLoad (ring : Nat) (index : BitVec 32) (buf : List Byte)
  /-- DATA_KEY (R329). A KEY_SHARE of kind DATA_KEY stores a party's data key in the broker. -/
  | dataKey (ring : Nat) (index : BitVec 32) (buf : List Byte)
  /-- WEIGHT_SHARE (R329). A KEY_SHARE of kind WEIGHT_SHARE stores a party's share of the weight key. -/
  | weightShare (ring : Nat) (index : BitVec 32) (buf : List Byte)
  /-- ACCEPT (R329). A KEY_SHARE of kind ACCEPT records a party's acceptance of the current measurement. -/
  | accept (ring : Nat) (index : BitVec 32) (buf : List Byte)
  /-- WITHDRAW (R333). A KEY_SHARE of kind WITHDRAW erases the named key, share or acceptance from the broker and from members. -/
  | withdraw (ring : Nat) (index : BitVec 32) (buf : List Byte)
  /-- CONSENT (R339). The entry stores a party's signed consent token for the island's next boundary. -/
  | consent (ring : Nat) (index : BitVec 32) (buf : List Byte)
  /-- CONSENT_LAPSE (R340). A consent token's NOT_AFTER passes: it stops granting and slots delivered with DEBUG_OK are erased. -/
  | consentLapse (island party : Nat)
  /-- TELEMETRY_READ (R337). The entry returns counters, export, power, image bytes or CPER records, coarsened as the role requires. -/
  | telemetryRead (ring : Nat) (index : BitVec 32) (buf : List Byte)
  /-- MAINT_REQUEST (R454). The entry admits, queues or refuses a maintenance activity against its claims. -/
  | maintRequest (ring : Nat) (index : BitVec 32) (buf : List Byte)
  /-- MAINT_CANCEL (R454). A MAINT_REQUEST with CANCEL set ends the named activity. -/
  | maintCancel (ring : Nat) (index : BitVec 32)
  /-- MAINT_ACTIVITY_END (R455). An activity ends: its claims are released, MAINT_DONE is recorded and the queue is scanned. -/
  | maintActivityEnd (activity status : Nat)
  /-- MAINT_OVERRUN (R457). An activity runs beyond MAX_S and MAINT_OVERRUN is recorded. -/
  | maintOverrun (activity : Nat)
  /-- LINK_RETRAIN (R456). An admitted retrain runs at its island's boundary with generated traffic and writes calibration records. -/
  | linkRetrain (activity : Nat) (recs : List (Nat × Nat × List Word))
  /-- RETRAIN_LIMIT (R456). A retrain that is not done 100 ms into the boundary is stopped and waits for the next boundary. -/
  | retrainLimit (activity : Nat)
  /-- SWITCHOVER (R445). A planned switchover ships up to the last JSN and sends LEASE_RELEASE. -/
  | switchover
  /-- PLACEMENT (R158). The bench dispatcher places a PENDING context on a hewer and a bench window. -/
  | placement
  /-- STOP_GRACE_EXPIRY (R154). A stopping context's grace expires and it is ended by force. -/
  | stopGraceExpiry (c : Nat)
  /-- FAULTED_TIMEOUT (R155). A context stays FAULTED for 1 s with neither reset nor stop and goes to ENDED. -/
  | faultedTimeout (c : Nat)
  /-- WAKE_CAUSE (R157). A wake cause is latched for a context, and a HALTED or BLOCKED context that awaits it resumes. -/
  | wakeCause (c : Nat) (cause : Nat)
  /-- TIME_WAKE (R161). Fabric time reaches a HALT.UNTIL time and the TIME cause is set. -/
  | timeWake (who : Who)
  /-- BENCH_PREWAKE (R161). 30 µs before a bench's earliest HALT.UNTIL time, the Lighthouse raises the bench's wake event. -/
  | benchPrewake (b : Nat)
  /-- TICKET_COMPLETE (R163). A long operation completes its ticket with a status and sets the TICKET cause. -/
  | ticketComplete (ctx ticket : Nat)
  /-- ADD (R136). Adds two registers. -/
  | add (who : Who) (i : Ins)
  /-- SUB (R136). Subtracts two registers. -/
  | sub (who : Who) (i : Ins)
  /-- MUL (R136). Multiplies two registers, keeping the low 64 bits. -/
  | mul (who : Who) (i : Ins)
  /-- MULH (R136). Multiplies two registers, keeping the high 64 bits. -/
  | mulh (who : Who) (i : Ins)
  /-- DIV (R137). Divides, with defined results for zero and overflow. -/
  | div (who : Who) (i : Ins)
  /-- REM (R137). Takes the remainder, with defined results for zero and overflow. -/
  | rem (who : Who) (i : Ins)
  /-- AND (R136). Bitwise AND of two registers. -/
  | and (who : Who) (i : Ins)
  /-- OR (R136). Bitwise OR of two registers. -/
  | or (who : Who) (i : Ins)
  /-- XOR (R136). Bitwise XOR of two registers. -/
  | xor (who : Who) (i : Ins)
  /-- SHL (R136). Shifts left by a register amount. -/
  | shl (who : Who) (i : Ins)
  /-- SHR (R136). Shifts right, logical or arithmetic, by a register amount. -/
  | shr (who : Who) (i : Ins)
  /-- ROT (R136). Rotates right by a register amount. -/
  | rot (who : Who) (i : Ins)
  /-- CMP (R138). Compares two registers into a predicate register. -/
  | cmp (who : Who) (i : Ins)
  /-- SEL (R136). Selects one of two registers by a predicate bit. -/
  | sel (who : Who) (i : Ins)
  /-- BIT (R136). Counts or reorders the bits of a register. -/
  | bit (who : Who) (i : Ins)
  /-- MINMAX (R136). Takes the minimum or maximum of two registers. -/
  | minmax (who : Who) (i : Ins)
  /-- ADDI (R136). Adds the sign-extended immediate. -/
  | addi (who : Who) (i : Ins)
  /-- MULI (R136). Multiplies by the immediate. -/
  | muli (who : Who) (i : Ins)
  /-- ANDI (R136). Bitwise AND with the immediate. -/
  | andi (who : Who) (i : Ins)
  /-- ORI (R136). Bitwise OR with the immediate. -/
  | ori (who : Who) (i : Ins)
  /-- XORI (R136). Bitwise XOR with the immediate. -/
  | xori (who : Who) (i : Ins)
  /-- SHLI (R136). Shifts left by an immediate amount. -/
  | shli (who : Who) (i : Ins)
  /-- SHRI (R136). Shifts right by an immediate amount. -/
  | shri (who : Who) (i : Ins)
  /-- ROTI (R136). Rotates right by an immediate amount. -/
  | roti (who : Who) (i : Ins)
  /-- CMPI (R138). Compares a register with the immediate into a predicate register. -/
  | cmpi (who : Who) (i : Ins)
  /-- KMOV (R136). Moves a value between a predicate register and a general register. -/
  | kmov (who : Who) (i : Ins)
  /-- MOVI (R136). Loads the immediate into a register, whole or into its high half. -/
  | movi (who : Who) (i : Ins)
  /-- KOP (R139). Combines predicate registers. -/
  | kop (who : Who) (i : Ins)
  /-- BR (R140). Branches relative to pc. -/
  | br (who : Who) (i : Ins)
  /-- JAL (R140). Branches relative to pc and writes the link register. -/
  | jal (who : Who) (i : Ins)
  /-- JR (R140). Jumps to a register plus the immediate. -/
  | jr (who : Who) (i : Ins)
  /-- JRL (R140). Jumps to a register plus the immediate and writes the link register. -/
  | jrl (who : Who) (i : Ins)
  /-- LOOP (R140). Decrements the counter and branches while it is nonzero. -/
  | loop (who : Who) (i : Ins)
  /-- LD (R141). Loads from scratch or the bench window. -/
  | ld (who : Who) (i : Ins)
  /-- ST (R141). Stores to scratch or the bench window. -/
  | st (who : Who) (i : Ins)
  /-- LDX (R141). Loads with a scaled index. -/
  | ldx (who : Who) (i : Ins)
  /-- STX (R141). Stores with a scaled index. -/
  | stx (who : Who) (i : Ins)
  /-- AMO (R142). Performs an indivisible read-modify-write on 8 bytes. -/
  | amo (who : Who) (i : Ins)
  /-- CAS (R142). Performs an indivisible compare and swap on 8 bytes. -/
  | cas (who : Who) (i : Ins)
  /-- VADD (R143). Adds vectors lane by lane. -/
  | vadd (who : Who) (i : Ins)
  /-- VSUB (R143). Subtracts vectors lane by lane. -/
  | vsub (who : Who) (i : Ins)
  /-- VMUL (R143). Multiplies vectors lane by lane. -/
  | vmul (who : Who) (i : Ins)
  /-- VFMA (R143). Fused multiply-add lane by lane. -/
  | vfma (who : Who) (i : Ins)
  /-- VAND (R143). Bitwise AND of vectors lane by lane. -/
  | vand (who : Who) (i : Ins)
  /-- VOR (R143). Bitwise OR of vectors lane by lane. -/
  | vor (who : Who) (i : Ins)
  /-- VXOR (R143). Bitwise XOR of vectors lane by lane. -/
  | vxor (who : Who) (i : Ins)
  /-- VSHL (R143). Shifts vector lanes left. -/
  | vshl (who : Who) (i : Ins)
  /-- VSHR (R143). Shifts vector lanes right. -/
  | vshr (who : Who) (i : Ins)
  /-- VMINMAX (R144). Takes the minimum or maximum lane by lane. -/
  | vminmax (who : Who) (i : Ins)
  /-- VCMP (R145). Compares vectors into a predicate mask. -/
  | vcmp (who : Who) (i : Ins)
  /-- VSEL (R143). Selects vector lanes by a predicate. -/
  | vsel (who : Who) (i : Ins)
  /-- VBCAST (R143). Broadcasts a register into the vector lanes. -/
  | vbcast (who : Who) (i : Ins)
  /-- VEXT (R143). Extracts one lane into a register. -/
  | vext (who : Who) (i : Ins)
  /-- VINS (R143). Inserts a register into one lane. -/
  | vins (who : Who) (i : Ins)
  /-- VCVT (R144). Converts lanes between integer and binary64. -/
  | vcvt (who : Who) (i : Ins)
  /-- VLD (R147). Loads consecutive words into the vector lanes. -/
  | vld (who : Who) (i : Ins)
  /-- VST (R147). Stores the vector lanes to consecutive words. -/
  | vst (who : Who) (i : Ins)
  /-- VGATHER (R147). Gathers words into the lanes by per-lane offsets. -/
  | vgather (who : Who) (i : Ins)
  /-- VSCATTER (R147). Scatters the lanes to words by per-lane offsets. -/
  | vscatter (who : Who) (i : Ins)
  /-- VRED (R146). Reduces the active lanes into a register. -/
  | vred (who : Who) (i : Ins)
  /-- VPERM (R143). Permutes lanes by per-lane indexes. -/
  | vperm (who : Who) (i : Ins)
  /-- VIOTA (R143). Writes an arithmetic sequence into the lanes. -/
  | viota (who : Who) (i : Ins)
  /-- VCOMPRESS (R143). Packs the active lanes to the low lanes. -/
  | vcompress (who : Who) (i : Ins)
  /-- SRD (R148). Reads a special register. -/
  | srd (who : Who) (i : Ins)
  /-- SWR (R149). Writes a writable special register. -/
  | swr (who : Who) (i : Ins)
  /-- TRAP (R148). Raises the TRAP exception. -/
  | trap (who : Who) (i : Ins)
  /-- GLINK (R165). Reads a link record or a port record of the fabric model. -/
  | glink (who : Who) (i : Ins)
  /-- GNBR (R165). Reads the link records or port records of a vertex into a vector. -/
  | gnbr (who : Who) (i : Ins)
  /-- GCOORD (R165). Computes a neighbour address, or per-dimension distances. -/
  | gcoord (who : Who) (i : Ins)
  /-- GPATH (R167). Searches the shortest usable path and writes its port sequence. -/
  | gpath (who : Who) (i : Ins)
  /-- TLD (R168). Loads a word of a table element. -/
  | tld (who : Who) (i : Ins)
  /-- TST (R169). Stores a word of a table element. -/
  | tst (who : Who) (i : Ins)
  /-- TVLD (R168). Loads table words into vector lanes. -/
  | tvld (who : Who) (i : Ins)
  /-- TVST (R168). Stores vector lanes into table words. -/
  | tvst (who : Who) (i : Ins)
  /-- TAMO (R168). Performs an indivisible read-modify-write on a table word. -/
  | tamo (who : Who) (i : Ins)
  /-- TNEW (R168). Creates a new zeroed table and returns its handle. -/
  | tnew (who : Who) (i : Ins)
  /-- TFREE (R168). Frees a table. -/
  | tfree (who : Who) (i : Ins)
  /-- TPUSH (R170). Pushes table elements to agents' staging copies through the ferry and returns a ticket. -/
  | tpush (who : Who) (i : Ins)
  /-- MSEND (R171). Sends a control packet, unicast or along a dimension ring. -/
  | msend (who : Who) (i : Ins)
  /-- MRECV (R172). Takes a queued control packet, or waits for MESSAGE. -/
  | mrecv (who : Who) (i : Ins)
  /-- MBWR (R171). Writes an incoming mailbox, or the agent's mailbox to the controller. -/
  | mbwr (who : Who) (i : Ins)
  /-- MBRD (R171). Reads a bound outgoing mailbox, or waits for MAILBOX. -/
  | mbrd (who : Who) (i : Ins)
  /-- RPOP (R173). Copies the next entry from the bound SUBMIT ring or a COMPLETE ring, opening sealed records. -/
  | rpop (who : Who) (i : Ins) (host : List Byte)
  /-- RPUSH (R173). Writes a completion to the paired ring, or an entry into a SUBMIT ring and rings its doorbell. -/
  | rpush (who : Who) (i : Ins)
  /-- TNOW (R175). Reads fabric time or the time reference state. -/
  | tnow (who : Who) (i : Ins)
  /-- HALT_UNTIL (R161). Waits for a fabric time or an awaited cause. -/
  | haltUntil (who : Who) (i : Ins)
  /-- HALT_EVENT (R157). Waits for an awaited wake cause. -/
  | haltEvent (who : Who) (i : Ins)
  /-- HALT_END (R175). Ends the context, or the agent's firmware routine. -/
  | haltEnd (who : Who) (i : Ins)
  /-- TKWAIT (R163). Waits for a ticket, returns its status and frees it. -/
  | tkwait (who : Who) (i : Ins)
  /-- TKPOLL (R163). Returns a ticket's status and frees it, or reports it pending. -/
  | tkpoll (who : Who) (i : Ins)
  /-- ECOMMIT (R177). Starts the installation and commit of an island's new epoch and returns a ticket. -/
  | ecommit (who : Who) (i : Ins)
  /-- EQUERY (R176). Returns an island's current epoch and partition key. -/
  | equery (who : Who) (i : Ins)
  /-- THASH (R178). Starts a SHA-384 and returns a ticket. -/
  | thash (who : Who) (i : Ins)
  /-- TVERIFY (R178). Starts an ECDSA P-384 verification and returns a ticket. -/
  | tverify (who : Who) (i : Ins)
  /-- TRAND (R178). Returns 64 random bits from the DRBG. -/
  | trand (who : Who) (i : Ins)
  /-- TMEASURE (R178). Starts an island measurement and returns a ticket. -/
  | tmeasure (who : Who) (i : Ins)
  /-- TKEYREL (R178). Starts a key broker release and returns a ticket. -/
  | tkeyrel (who : Who) (i : Ins)
  /-- ICRC (R179). Computes the block check value of a buffer. -/
  | icrc (who : Who) (i : Ins)
  /-- IDIGEST (R389). Computes the replica digest of a buffer. -/
  | idigest (who : Who) (i : Ins) (host : List Byte)
  /-- IREPORT (R392). Sends a digest report for a step to the integrity unit. -/
  | ireport (who : Who) (i : Ins)
  /-- IADJ (R395). Adjudicates a key at once with the reports held and returns a ticket. -/
  | iadj (who : Who) (i : Ins)
  /-- ITEST (R398). Runs a pattern set on a unit: on the controller it sends TEST_REQ and returns a ticket, and on the agent it runs the entries. -/
  | itest (who : Who) (i : Ins)
  /-- IHIST (R432). Writes the fault history of an agent's unit and returns a ticket. -/
  | ihist (who : Who) (i : Ins)
  /-- PACKET_HEADER (R195). A header arrives at an agent port and is checked, partition-tested and routed to an output port and VC. -/
  | packetHeader (agent input link : Nat) (hdr : Hdr)
  /-- PACKET_TAIL (R189). A packet's tail passes a port: PCHK and BCV are checked, BAD is set or the packet is delivered in sequence. -/
  | packetTail (agent input link vc : Nat) (payload : List Byte) (bad : Bool) (flips : BitVec 4)
  /-- ACK_DELAY (R200). ACK_DELAY_NS passes after the first unacknowledged delivery of a flow and an ACK is sent. -/
  | ackDelay (agent : Nat) (src : FAddr) (cls : Nat)
  /-- ACK (R201). An ACK reaches the source, which discards the packets it covers. -/
  | ack (agent : Nat) (peer : FAddr) (cls : Nat) (seq : BitVec 16)
  /-- E2E_TIMEOUT (R201). A flow's timeout fires and its outstanding packets are re-sent, or the flow ends at RESEND_LIMIT. -/
  | e2eTimeout (agent : Nat) (dst : FAddr) (cls : Nat)
  /-- MOVED (R198). A MOVED packet reaches the source, which stops the flow and reports MOVED to its host chip. -/
  | moved (agent : Nat) (src : FAddr) (cls : Nat)
  /-- MESSAGE (R172). A MESSAGE control packet is queued for its context, or dropped with MSG_DROP when the queue is full. -/
  | message (hdr : Hdr)
  /-- INJECTION_REQUEST (R184). The host chip requests injection: the agent verifies BCV, stamps the header and applies the window and slot checks. -/
  | injectionRequest (agent : Nat) (hdr : Hdr) (payload : List Byte)
  /-- BLOCK_REREAD (R190). The second read of a block that mismatched arrives; it is sent, or sent with POISON and a BLOCK_CHECK fault. -/
  | blockReread (agent : Nat) (payload : List Byte)
  /-- HELD_INJECTION_START (R214). A packet held by its slot checks starts once a slot permits it. -/
  | heldInjectionStart (agent cycles : Nat)
  /-- SLOT_END (R215). A slot ends with a scheduled packet not yet sent, and a slip is counted and recorded. -/
  | slotEnd (agent overrun : Nat)
  /-- FLIT_SEND (R210). A flit starts on a VC when it holds a credit or XON. -/
  | flitSend (agent link vc : Nat)
  /-- FLIT_RECEIVE (R211). A flit enters a receive buffer, and XOFF is sent when the free buffer falls to XOFF_FREE. -/
  | flitReceive (agent link vc : Nat)
  /-- CREDIT_RETURN (R210). A credit returns to the sender when a flit leaves the receiver's buffer. -/
  | creditReturn (agent link vc : Nat) (arrives : Bool)
  /-- CREDIT_RESYNC (R210). Every 10 µs the freed-flit count of each VC is sent, restoring lost credits. -/
  | creditResync (agent link : Nat) (arrives : Bool) (counts : List (BitVec 16))
  /-- XOFF (R211). XOFF arrives for a VC and the sender stops starting flits on it. -/
  | xoff (agent link vc : Nat)
  /-- XON (R211). XON arrives for a VC and the sender resumes. -/
  | xon (agent link vc : Nat)
  /-- CODEWORD_END (R205). A lane's codeword ends with its count of corrected symbols, which updates the lane margin. -/
  | codewordEnd (agent link lane symbols : Nat)
  /-- MARGIN_WINDOW (R205). A 1 ms margin window ends and lanes that meet the drop conditions are dropped. -/
  | marginWindow (agent : Nat)
  /-- CODEWORD_TIMEOUT (R205). No valid codeword arrives on a lane for 2 µs and the lane is dropped. -/
  | codewordTimeout (agent link : Nat) (lanes : BitVec 4)
  /-- LINK_DOWN (R205). LINK_DOWN arrives from the far end and the link is declared dead. -/
  | linkDown (agent link : Nat)
  /-- DETOUR_APPLY (R207). 4 ns after a port is declared dead, its armed detour is applied to the waiting headers. -/
  | detourApply (agent port : Nat)
  /-- KEEPALIVE (R205). A lane with no flit for 500 ns sends a keepalive codeword. -/
  | keepalive (agent link lane : Nat)
  /-- LINK_HELLO (R224). A link-layer hello arrives on a trained link and is recorded in AG_NBR_n. -/
  | linkHello (agent link nbr nbrLink : Nat) (depths : List Nat)
  /-- TIME_SYMBOL (R278). A time symbol arrives from the time parent and steers the agent's fabric time copy. -/
  | timeSymbol (agent link time delay : Nat)
  /-- TIME_SYMBOL_SEND (R278). Every 10 µs time symbols are sent in each direction of a link. -/
  | timeSymbolSend (agent link : Nat)
  /-- TIME_PARENT_SILENT (R278). The time parent sends no symbol for 100 µs and the agent runs on at its last frequency. -/
  | timeParentSilent (agent : Nat)
  /-- CALIB_SELECT (R307). Every 10 ms the agent reads its temperature and selects each link's calibration record, or records CALIB_STALE. -/
  | calibSelect (agent : Nat) (temp : BitVec 16)
  /-- AGENT_RESET_RELEASE (R224). AG_RST_L is released: the agent erases key slots, trains its links, exchanges hellos and enters ROM. -/
  | agentResetRelease (agent : Nat) (hc : Straps) (cabled : BitVec 16)
  /-- ANNOUNCE_TIMER (R224). Every 100 ms an unassigned agent broadcasts ANNOUNCE. -/
  | announceTimer (agent : Nat)
  /-- ANNOUNCE (R265). The controller receives an ANNOUNCE and matches the identity, assigning it, listing it or re-running step 13. -/
  | announce (agent life : Nat) (info fwStatus : Word) (mac : Nat) (idKey : Hash)
  /-- ASSIGN (R225). The agent accepts or refuses an ASSIGN and sets, stages or clears its address. -/
  | assign (agent : Nat) (req : Req) (body : List Byte)
  /-- LINK_REPORT (R224). The controller receives an agent's LINK_REPORT of neighbours and lanes. -/
  | linkReport (agent : Nat) (items : List (Word × Word))
  /-- LINK_REPORT_HOLDOFF (R224). After a change of AG_NBR_n or a lane count, the 10 ms limit ends and the agent sends LINK_REPORT again. -/
  | linkReportHoldoff (agent : Nat)
  /-- ETHERNET_FRAME (R222). An ordinary-network frame reaches the agent and is unwrapped, or dropped for a wrong EtherType, VERSION or LENGTH. -/
  | ethernetFrame (agent : Nat) (frame : List Byte)
  /-- REG_REQ (R234). The agent performs the register items of a REG_REQ in order and answers with REG_RSP. -/
  | regReq (agent : Nat) (req : Req) (count : Nat) (items : List RegItem)
  /-- REG_RSP (R221). The controller receives the REG_RSP of its request. -/
  | regRsp (agent : Nat) (tag : BitVec 32) (items : List RegItem)
  /-- MG_ACK (R221). The controller receives an MG_ACK answering a management request or an abort. -/
  | mgAck (agent : Nat) (status : BitVec 8) (arg : BitVec 32)
  /-- MGMT_RESEND (R221). A management request unanswered for 100 µs is re-sent with the same TAG, at most 8 times. -/
  | mgmtResend (agent tag : Nat)
  /-- MB_WORD (R235). The agent stores an MB_WORD in AG_MB_IN, or drops it with IN_OVF and answers BUSY. -/
  | mbWord (agent : Nat) (req : Req) (word : Word)
  /-- MB_WORD_TO_CONTROLLER (R236). The controller receives an agent's mailbox word into its channel and answers OK or BUSY. -/
  | mbWordToController (agent : Nat) (tag : BitVec 32) (word : Word)
  /-- AG_MB_OUT_RESEND (R236). An unanswered agent mailbox word is re-sent every 100 µs. -/
  | agMbOutResend (agent : Nat)
  /-- HC_EVT (R239). The host chip posts a fault record, which the agent takes or spoils and acknowledges. -/
  | hcEvt (agent : Nat) (rec : Rec)
  /-- EVENTS_FLUSH (R378). 100 µs after its oldest unsent record was taken, the agent sends an EVENTS packet. -/
  | eventsFlush (agent : Nat)
  /-- EVENTS (R238). The controller receives an EVENTS packet, passes its records to the collector and sends EVT_ACK. -/
  | events (agent eseq : Nat) (recs : List Rec)
  /-- EVT_ACK (R238). The agent receives EVT_ACK and releases the records it covers. -/
  | evtAck (agent : Nat) (arg : BitVec 32)
  /-- EVENTS_RESEND (R238). No acknowledgement advances for 1 ms and the agent re-sends from the oldest held record. -/
  | eventsResend (agent : Nat)
  /-- EVT_SPOIL (R380). An agent whose SPOIL has risen posts EVT_SPOIL, at most once per 10 ms. -/
  | evtSpoil (agent : Nat)
  /-- CNT_SAMPLE (R220). The agent answers CNT_SAMPLE with its counters and restarts its H counters. -/
  | cntSample (agent : Nat) (req : Req)
  /-- COUNTERS (R220). The ferry receives a COUNTERS sample from an agent. -/
  | counters (agent time : Nat) (words : List Word)
  /-- TELEMETRY_SAMPLE (R381). The ferry's telemetry period timer requests counter samples, unless fault intake defers it. -/
  | telemetrySample (deferred : Bool)
  /-- PING (R220). The agent answers PING with the same ARG. -/
  | ping (agent : Nat) (req : Req) (arg : BitVec 32)
  /-- RESET (R240). A RESET control packet requests an endpoint reset of a level, or is refused. -/
  | reset (agent : Nat) (req : Req) (level : Nat)
  /-- AG_RESET_GO (R240). A write of AG_RESET.GO requests an endpoint reset of LEVEL. -/
  | agResetGo (agent level : Nat)
  /-- RST_ACK (R241). The host chip acknowledges a reset: the fence lifts, RESULT is set and merged requests are answered. -/
  | rstAck (agent : Nat)
  /-- RST_FAIL (R241). The host chip fails a reset and the agent escalates, or ends FAILED at level 4. -/
  | rstFail (agent : Nat)
  /-- ENDPOINT_RESET_TIMEOUT (R241). A level's limit in AG_RESET_LIMIT passes without RST_ACK and the reset escalates. -/
  | endpointResetTimeout (agent : Nat)
  /-- SCRUB (R244). A SCRUB control packet starts a scrub, or merges into the scrub running. -/
  | scrub (agent : Nat) (req : Req)
  /-- AG_SCRUB_GO (R244). A write of AG_SCRUB.GO starts a scrub. -/
  | agScrubGo (agent : Nat)
  /-- SCRUB_DONE (R244). The host chip ends a scrub region, and the next step runs or the scrub ends with SCRUB_REPORT. -/
  | scrubDone (agent : Nat)
  /-- SCRUB_FAIL (R245). The host chip fails a scrub region, which ends the scrub FAILED with the fence kept. -/
  | scrubFail (agent : Nat)
  /-- SCRUB_REGION_TIMEOUT (R245). A scrub region has no answer within 1 s and the scrub ends FAILED. -/
  | scrubRegionTimeout (agent : Nat)
  /-- SCRUB_REPORT (R318). The controller receives SCRUB_REPORT and moves the endpoint to CLEAN or QUARANTINED. -/
  | scrubReport (agent : Nat) (status : Word)
  /-- SCRUB_UNREACHABLE (R315). An agent being scrubbed is unreachable for 1 s and the endpoint goes QUARANTINED. -/
  | scrubUnreachable (agent : Nat)
  /-- QUARANTINE_RESCRUB (R321). Every 10 s a reachable QUARANTINED endpoint is scrubbed again. -/
  | quarantineRescrub (agent : Nat)
  /-- FW_MANIFEST (R227). The agent checks a firmware manifest and enters LOADING, or refuses it with a reason. -/
  | fwManifest (agent : Nat) (req : Req) (body : List Byte)
  /-- FW_CHUNK (R228). The agent writes an image chunk into SRAM, or drops it. -/
  | fwChunk (agent k : Nat) (bytes : List Byte)
  /-- FW_END (R228). The agent receives FW_END and sends FW_MISSING, or enters VERIFYING. -/
  | fwEnd (agent : Nat)
  /-- FW_MISSING_TIMER (R228). 50 ms after the last chunk received, the agent sends FW_MISSING. -/
  | fwMissingTimer (agent : Nat)
  /-- FW_MISSING (R228). The controller receives FW_MISSING and sends the missing chunks by unicast, then FW_END. -/
  | fwMissing (agent : Nat) (chunks : List Nat) (missing : Nat)
  /-- LOADING_TIMEOUT (R230). 10 s pass in LOADING with no chunk and the agent returns to ROM with reason TIMEOUT. -/
  | loadingTimeout (agent : Nat)
  /-- FW_VERIFY_DONE (R229). The image hash ends: the agent starts the image in RUNNING, or enters REJECTED with an AGENT_FW fault. -/
  | fwVerifyDone (agent : Nat)
  /-- KEY_DELIVER (R331). The agent checks a KEY_DELIVER and loads or erases a key slot through the key port. -/
  | keyDeliver (agent : Nat) (req : Req) (arg : Word) (body : List Byte)
  /-- KP_ACK (R246). The key port answers KP_ACK, the handshake completes and a late load is erased. -/
  | kpAck (agent : Nat)
  /-- KP_ERR (R246). The key port answers KP_ERR: the slot stays unloaded and KEY_PORT is recorded. -/
  | kpErr (agent : Nat)
  /-- KEY_PORT_TIMEOUT (R246). No key port answer arrives within 10 µs, and the operation is treated as KP_ERR. -/
  | keyPortTimeout (agent : Nat)
  /-- DBG_STATE_CHANGE (R332). DBG_STATE changes, and a nonzero value erases keys delivered without DEBUG_OK. -/
  | dbgStateChange (agent : Nat) (value : BitVec 8)
  /-- HC_MEAS_VALID (R249). The first rise of HC_MEAS_VALID after reset latches the host chip measurement. -/
  | hcMeasValid (agent : Nat) (meas : Hash)
  /-- AG_STEP_WRITE (R248). A write of AG_STEP_n clamps the step and passes it to the power manager. -/
  | agStepWrite (agent n : Nat) (value : Word)
  /-- PM_ACK (R248). The power manager applies a step and APPLIED is set. -/
  | pmAck (agent : Nat)
  /-- PM_FAIL (R248). The power manager refuses a step: REFUSED is set and STEP_REFUSED is recorded. -/
  | pmFail (agent : Nat)
  /-- TS_DATA (R286). The agent writes staging elements and answers TS_ACK. -/
  | tsData (agent : Nat) (req : Req) (table first count : Nat) (bytes : List Byte)
  /-- TS_PREPARE (R288). The agent checks its staging and answers TS_READY with the image CRC, or INVALID. -/
  | tsPrepare (agent : Nat) (req : Req) (epoch : Nat)
  /-- TS_READY (R287). The controller receives TS_READY and compares its CRC with its own copy. -/
  | tsReady (agent context : Nat) (status : BitVec 8) (crc : BitVec 32)
  /-- TS_QUIESCE (R289). The agent holds island injection and starts the drain. -/
  | tsQuiesce (agent : Nat) (req : Req) (epoch : Nat)
  /-- FLOWS_DRAINED (R289). Every local flow has no outstanding packet and the agent answers TS_QUIESCE with undrained 0. -/
  | flowsDrained (agent : Nat)
  /-- DRAIN_LIMIT (R289). 20 ms after TS_QUIESCE the agent answers with the flows still outstanding. -/
  | drainLimit (agent : Nat)
  /-- TS_COMMIT (R290). The agent swaps its table banks in one cycle, cuts outstanding flows and restarts sequences. -/
  | tsCommit (agent : Nat) (req : Req) (epoch : Nat)
  /-- TS_RELEASE (R288). The agent lifts its hold, discards the old bank and starts refilling staging. -/
  | tsRelease (agent : Nat) (req : Req) (epoch : Nat)
  /-- TS_ABANDON (R290). The agent swaps back if it swapped, lifts its hold and refills staging, restarting flows when RESTART is set. -/
  | tsAbandon (agent : Nat) (req : Req) (epoch : Nat) (restart : Bool)
  /-- TS_ACK (R287). The controller receives TS_ACK for staging or a phase and advances push tickets and the installation. -/
  | tsAck (agent context : Nat) (status : BitVec 8) (arg : BitVec 32)
  /-- STAGING_REFILL_DONE (R290). The refill of staging from installed ends and held TS_DATA is answered. -/
  | stagingRefillDone (agent : Nat)
  /-- INSTALL_RESEND (R291). An unanswered installation packet is re-sent after 200 µs, and failure is declared after 16 attempts. -/
  | installResend (key : Nat)
  /-- SWITCH_SETTLE (R39). 80 ms after switch agents commit, changed circuits are settled and trained and members commit. -/
  | switchSettle (key : Nat)
  /-- DETOUR_RECOMPUTE (R297). A change of the fabric model touching members' ports starts recomputation of their islands' detours. -/
  | detourRecompute (island : Nat)
  /-- ISLAND_ABORT_PACKET (R375). An agent receives ISLAND_ABORT for its island, fences, cuts flows, relays and answers FENCED. -/
  | islandAbortPacket (agent : Nat) (copy : Carried)
  /-- AGENT_SILENCE (R343). An assigned agent answers and sends nothing for 1 s, and AGENT_LOST is recorded. -/
  | agentSilence (agent : Nat)
  /-- RECORD_ACCEPT (R349). The collector counts and accepts the records of one cycle, fills first-fault slots and delivers them. -/
  | recordAccept
  /-- SEVERITY_WINDOW_END (R345). A counting window, or a sub-DEGRADED raising, ends and the pair closes. -/
  | severityWindowEnd (src : Nat) (isCtx : Bool) (kind : BitVec 12)
  /-- QUIET_PERIOD_END (R356). A source's quiet period ends: its records clear, its fence ends and RECOVERIES rises. -/
  | quietPeriodEnd (source : FAddr) (unit : BitVec 12)
  /-- ENGINE_RESET_COMPLETE (R362). An engine reset ends: the domain returns to ON, contexts are replayed and pending wakes are applied. -/
  | engineResetComplete (domain : Nat)
  /-- RESET_TIMEOUT (R365). A reset passes its limit, records RESET_TIMEOUT and escalates one level. -/
  | resetTimeout (level target : Nat)
  /-- DOMAIN_HEARTBEAT_MISS (R367). A domain manager misses three heartbeats, DOMAIN_HANG is recorded and the domain is fenced. -/
  | domainHeartbeatMiss (domain : Nat)
  /-- KEEPER_WATCHDOG (R367). The keeper's watchdog expires and a chip reset from boot ROM starts, or a power cycle at a repeat. -/
  | keeperWatchdog
  /-- HANG_DETECT (R368). A cycle of WAITS_ON rings is found and HANG is recorded, with native guilt finding or the Islet verdict. -/
  | hangDetect (ring : Nat)
  /-- SUSPECT_REPLAY (R369). The next hang suspect is placed alone to replay its unanswered entries. -/
  | suspectReplay
  /-- REPLAY_WATCHDOG (R369). A suspect still running at REPLAY_MS raises WATCHDOG and is guilty. -/
  | replayWatchdog
  /-- CHECKER_SELF_TEST (R384). A checker self-test runs on a port after a BCV-only failure and sets the checker verdict. -/
  | checkerSelfTest (agent port : Nat) (primaryPass shadowPass : Bool)
  /-- COMPARE_QUIET (R385). A port in COMPARE sees no disagreement for the quiet period and returns to PRIMARY. -/
  | compareQuiet (agent port : Nat)
  /-- DIGEST_STEP (R391). The agent takes a host chip DIGEST_STEP, advancing STEP and queueing the digests, or drops a fifth request. -/
  | digestStep (agent : Nat) (arg : BitVec 32)
  /-- DIGEST_COMPLETE (R391). The digests of a step end: each is reported with IREPORT and DIGEST_DONE is sent. -/
  | digestComplete (agent : Nat) (data : List Byte)
  /-- DIGEST_REPORT (R393). The integrity unit receives a digest report and adjudicates its key at the r-th report. -/
  | digestReport (agent : Nat) (tag : BitVec 32) (body : List Byte)
  /-- ADJ_TIMEOUT (R393). ADJ_TIMEOUT_MS after a key's first report, it is adjudicated with the reports held. -/
  | adjTimeout (island epoch step desc : Nat) (group : FAddr)
  /-- REPEAT_TIMEOUT (R394). A tie's repeat digest does not arrive within REPEAT_TIMEOUT_MS and the key is UNRESOLVED. -/
  | repeatTimeout (island epoch step desc : Nat) (group : FAddr)
  /-- TEST_REQ (R398). The agent receives TEST_REQ and runs the named pattern set, or answers BUSY. -/
  | testReq (agent : Nat) (req : Req) (arg : BitVec 32)
  /-- TEST_DONE (R398). The host chip returns a kernel's output, which the agent digests and compares. -/
  | testDone (agent : Nat) (arg : BitVec 32) (data : List Byte)
  /-- TEST_RUN_TIMEOUT (R398). No TEST_DONE arrives within 100 ms and the test ends with TIMEOUT. -/
  | testRunTimeout (agent : Nat)
  /-- TEST_RESULT (R398). The controller receives TEST_RESULT, completes the ITEST ticket and advances the suspect state. -/
  | testResult (agent context : Nat) (arg : BitVec 32)
  /-- TEST_BOUNDARY_LIMIT (R397). A test that is not done 2 s into a boundary is stopped and queued for the following boundary. -/
  | testBoundaryLimit (agent : Nat)
  /-- PAT_DATA (R400). The agent writes pattern-set bytes into a store slot and answers MG_ACK. -/
  | patData (agent : Nat) (req : Req) (slot set offset : Nat) (bytes : List Byte)
  /-- JOURNAL_WRITE (R416). A unit appends a record to the face under the next JSN. -/
  | journalWrite (typ : Nat) (body : List Word) (entry : Option (Nat × BitVec 32))
  /-- FACE_FLUSH (R417). FLUSH_US after the first unclosed record, the face page is closed and both copies are programmed. -/
  | faceFlush
  /-- PAGE_PROGRAMMED (R418). The program of a page copy ends, and its records become durable or the block becomes grown bad. -/
  | pageProgrammed (page : Nat) (second : Bool) (block : Nat) (pass : Bool)
  /-- FACE_FULL_TIMEOUT (R419). A write held by a full face completes BUSY after 10 ms. -/
  | faceFullTimeout (ring : Nat) (index : BitVec 32)
  /-- NV_READ (R410). A copy is read and decoded, with retries or soft decoding, and repaired from the other copy when needed. -/
  | nvRead (block page : Nat) (item : NvItem) (found : NvFound)
  /-- RETENTION_AGE (R412). A block's data reaches its retention age and a refresh is requested. -/
  | retentionAge (block : Nat)
  /-- RELOCATION (R413). An admitted relocation, refresh or levelling move writes, verifies, journals and frees one copy. -/
  | relocation (block target : Nat) (verified : Bool)
  /-- DRESSING (R423). Dressing starts once its anchor claim is admitted: DRESS_BEGIN is appended and the model is copied. -/
  | dressing
  /-- SNAPSHOT_VERIFIED (R423). Both snapshot copies are read back and match, and the new anchor generation is written. -/
  | snapshotVerified (pass : Bool)
  /-- ANCHOR_GENERATION (R420). A new anchor generation is written and verified on dies 0, 3 and 6 in turn. -/
  | anchorGeneration (die : Nat) (verified : Bool)
  /-- SPARES_LOW_DAILY (R414). Once a day NV_SPARES_LOW is recorded while a die lacks spares. -/
  | sparesLowDaily
  /-- LEDGE_WRITE (R429). The Lighthouse NV path writes a batch of records to both ledge blocks. -/
  | ledgeWrite (pass : Bool)
  /-- LEDGE_MERGE (R429). The flash layer appends unmerged ledge records to the face and erases the ledge. -/
  | ledgeMerge
  /-- OBJECT_COMMIT (R430). A new object version is written in two copies, verified and committed by OBJECT_DIR. -/
  | objectCommit (cls id : Nat) (data : List Byte) (verified : Bool)
  /-- TIME_FLOOR_RECORD (R277). At least every 60 s fabric time is journalled as the time floor. -/
  | timeFloorRecord
  /-- PPS_EDGE (R273). A PPS rising edge is timestamped and tested against the PTP second. -/
  | ppsEdge (side : Side) (err offset : Int)
  /-- PPS_MISSING (R273). Two consecutive seconds lack a valid PPS edge and the reference goes invalid. -/
  | ppsMissing (side : Side)
  /-- PTP_SYNC (R273). A Sync message from the selected grandmaster is taken. -/
  | ptpSync (side : Side) (offset : Int)
  /-- SYNC_TIMEOUT (R273). No Sync arrives for 3 s and the reference goes invalid. -/
  | syncTimeout (side : Side)
  /-- PTP_ANNOUNCE (R273). An Announce message is taken and its clock grade checked. -/
  | ptpAnnounce (side : Side) (clockClass : Nat) (traceable ptpScale : Bool)
  /-- REFERENCE_QUALIFIED (R273). A reference is valid for 10 s and qualifies, which may start a slew, a hold or the first lock. -/
  | referenceQualified (side : Side) (copies : List Nat)
  /-- HOLD_END (R274). 1 s in HOLD passes with the target valid and the slew starts. -/
  | holdEnd
  /-- SLEW_LOCK (R274). Fabric time has stayed within 10 ns of the target for 1 s and is LOCKED. -/
  | slewLock (ratePpb : Int)
  /-- HOLDOVER_LIMIT (R274). HOLDOVER lasts HOLDOVER_H and TIME_HOLDOVER is recorded. -/
  | holdoverLimit
  /-- PAIR (R439). The unit accepts PAIR, derives the pair key and takes the ACTIVE or STANDBY role. -/
  | pair (src unit : Nat) (hashA hashB : Hash) (macA macB : Nat)
  /-- UNPAIR (R440). The unit accepts UNPAIR and becomes UNPAIRED. -/
  | unpair (src : Nat)
  /-- LEASE_RENEW_TIMER (R442). Every 10 ms the active unit sends LEASE_RENEW. -/
  | leaseRenewTimer
  /-- LEASE_ANSWER (R443). The unit receives LEASE_ANSWER and ARBITER_OK is set. -/
  | leaseAnswer (src remaining : Nat)
  /-- ARBITER_SILENCE (R443). Renewals go unanswered for 30 ms and ARBITER_LOST is recorded. -/
  | arbiterSilence
  /-- FORCE_TAKEOVER (R444). The arbiter orders an ineligible standby to take over, which loses the records it lacks. -/
  | forceTakeover (src : Nat)
  /-- PLAN_ENROL (R263). The first plan arrives over the arbiter channel and enrols its operator key. -/
  | planEnrol (fromArbiter : Bool) (plan : List Byte)
  /-- TRAY_MB_WORD (R438). A tray mailbox word arrives over I3C into its channel. -/
  | trayMbWord (src : Nat) (word : Word)
  /-- PLDM_FW_UPDATE (R257). A controller image arrives over the arbiter channel and boot restarts step 3. -/
  | pldmFwUpdate (image : List Byte)
  /-- LEASE_L_FALL (R450). LEASE_L falls at a standby after filtering and a takeover starts. -/
  | leaseLFall
  /-- LEASE_L_RISE (R441). LEASE_L rises at an active unit, which stops, fences portals, releases ACTIVE_L and resets into standby. -/
  | leaseLRise
  /-- SHIP_RECORDS (R447). The landing port accepts a RECORDS frame and the standby writes its records under their JSNs. -/
  | shipRecords (src etype seq jsn : Nat) (recs : List JRec) (tag : BitVec 128)
  /-- SHIP_ACK (R448). The active unit receives an ACK frame and the records it covers become pair-durable. -/
  | shipAck (src etype seq jsn : Nat) (tag : BitVec 128)
  /-- PEER_ACK_TIMEOUT (R448). No covering ACK arrives in 20 ms: PEER_LOST is recorded and the standby is declared ineligible. -/
  | peerAckTimeout
  /-- SHIP_SNAPSHOT (R447). The standby takes snapshot frames and writes its own snapshot and anchor. -/
  | shipSnapshot (src etype seq jsn : Nat) (payload : List Word) (final : Bool) (tag : BitVec 128)
  /-- SHIP_OBJECT (R447). The standby takes object frames and writes its own extents. -/
  | shipObject (src etype seq jsn : Nat) (payload : List Word) (tag : BitVec 128)
  /-- SHIP_HELLO (R449). A HELLO frame is exchanged, and the joining unit discards records above the base JSN and rejoins. -/
  | shipHello (src etype seq jsn : Nat) (tag : BitVec 128)
  /-- SHIP_MAILBOX (R438). A peer mailbox word arrives in a MAILBOX frame. -/
  | shipMailbox (src etype seq jsn : Nat) (word : Word) (tag : BitVec 128)
  /-- HEARTBEAT_LOSS (R326). An SPDM heartbeat period lapses, the session ends and confidential rings go to ERROR. -/
  | heartbeatLoss (portal : Nat)
  /-- GET_VERSION (R324). The SPDM responder answers GET_VERSION. -/
  | getVersion (portal : Nat)
  /-- GET_CAPABILITIES (R324). The SPDM responder answers GET_CAPABILITIES. -/
  | getCapabilities (portal : Nat)
  /-- NEGOTIATE_ALGORITHMS (R325). The SPDM responder selects the algorithms and the hybrid DHE group. -/
  | negotiateAlgorithms (portal : Nat) (common : Bool) (group : BitVec 16)
  /-- GET_DIGESTS (R324). The SPDM responder returns its certificate digests. -/
  | getDigests (portal : Nat)
  /-- GET_CERTIFICATE (R324). The SPDM responder returns the slot 0 chain. -/
  | getCertificate (portal slot offset length : Nat)
  /-- CHALLENGE (R324). The SPDM responder answers a challenge. -/
  | challenge (portal slot : Nat) (nonce : List Byte)
  /-- GET_MEASUREMENTS (R324). The SPDM responder returns measurement blocks 1 to 4. -/
  | getMeasurements (portal block : Nat) (signed : Bool) (nonce : List Byte)
  /-- KEY_EXCHANGE (R325). The SPDM responder runs the hybrid key exchange, or refuses it when PEER_HASH is zero. -/
  | keyExchange (portal : Nat) (half : BitVec 16) (share : List Byte)
  /-- FINISH (R324). The SPDM responder completes a session with mutual authentication. -/
  | finish (portal : Nat) (leafKey auth : List Byte)
  /-- HEARTBEAT (R324). The SPDM responder takes a heartbeat and keeps the session. -/
  | heartbeat (portal : Nat)
  /-- KEY_UPDATE (R326). The session key of one direction or both is renewed and SEQ restarts. -/
  | keyUpdate (portal op : Nat)
  /-- END_SESSION (R326). The session ends and the portal's confidential rings go to ERROR. -/
  | endSession (portal : Nat)
  /-- THROTTLE_CHANGE (R472). A junction or HBM sensor crosses a throttle threshold, and throttle goes on or off. -/
  | throttleChange (tj hbm : BitVec 16)
  /-- THERMAL_TRIP (R474). A trip temperature is reached: THERMTRIP_L is driven low, D1 to D23 go off and a power cycle is requested. -/
  | thermalTrip (tj hbm : BitVec 16)
  /-- TAP_RESET (R475). TRST_L falls and the TAP resets, with IDCODE selected. -/
  | tapReset
  /-- EXTEST (R475). The JTAG instruction drives pins from the boundary scan while CHIP_RST_L is low. -/
  | extest
  /-- SAMPLE_PRELOAD (R475). The JTAG instruction samples or preloads the boundary scan register. -/
  | samplePreload (cells : List Bool)
  /-- IDCODE (R475). The JTAG instruction selects the 32-bit identification register. -/
  | idcode
  /-- CLAMP (R475). The JTAG instruction holds the pins and selects bypass while CHIP_RST_L is low. -/
  | clamp
  /-- HIGHZ (R475). The JTAG instruction floats the outputs while CHIP_RST_L is low. -/
  | highz
  /-- BYPASS (R475). The JTAG instruction selects the 1-bit bypass register. -/
  | bypass
  /-- CASTIK_PRIVATE (R476). A private JTAG instruction works only when debug is unlocked, and otherwise selects bypass. -/
  | castikPrivate (code : BitVec 8)
  /-- BLOCK_ERASE (R411). A NAND block erase ends with its status; a failure makes the block grown bad with NV_ERASE_FAIL, and an erase count is updated. -/
  | blockErase (block : Nat) (pass : Bool)
  /-- MG_ACK_AT_AGENT (R236). An agent receives the MG_ACK answering its mailbox word or digest report: OK clears OUT_FULL, BUSY clears OUT_FULL and sets OUT_OVF, and re-sending stops. -/
  | mgAckAtAgent (agent : Nat) (tag : BitVec 32) (status : BitVec 8)
  /-- DIGEST_REPORT_RESEND (R392). An agent re-sends a DIGEST_REPORT unanswered after 100 µs, at most 8 times. -/
  | digestReportResend (agent : Nat) (tag : BitVec 32)
  /-- AG_RST_L_ASSERT (R230). AG_RST_L is asserted at host chip power-on: the agent returns to ROM from any state, every agent register takes its Reset value and the host chip side of each crossing is held in reset. -/
  | agRstLAssert (agent : Nat)
  /-- TRAY_CHIP_RESET (R359). The tray controller starts a chip reset, recorded with LH_RESET_STATUS.CAUSE TRAY. -/
  | trayChipReset
  /-- STANDBY_STATE (R443). A standby unit sends STANDBY_STATE with its highest written JSN and its eligibility to the arbiter. -/
  | standbyState
  deriving DecidableEq, Repr

end Sys2Proof
end

