-- ==== Sys2Proof/Machine/State.lean ====
section
/-! DEFINITION. The whole state of the block, the reasons it can stop, and the state of an unpowered package at reset. -/

namespace Sys2Proof.Machine

/-- Why a step can stop with a fault. -/
inductive Fault where
  /-- Raised by NV_READ, PAGE_PROGRAMMED, BLOCK_ERASE and their like for a die, block or page that Tables 13.1 and 13.2 do not have. Safe: no such place exists. -/
  | noSuchFlashPlace
  deriving DecidableEq, Repr

/-- Why a command can be refused. -/
inductive Refusal where
  /-- Raised by exec for a command that has no meaning yet. Safe: the run ends. -/
  | notModelled (mnemonic : String)
  /-- Raised by CASTIK_PRIVATE with debug unlocked, whose effect the spec does not give (R476). Safe: the run ends. -/
  | castikPrivate
  deriving DecidableEq, Repr

/-- The state of the block: controller by chapter, agents by AGENT_ID, what it sent, and the commands that wait. -/
structure State where
  /-- Pins, fuses, temperatures, tap (chapter 15) -/
  pins : Pins := {}
  /-- Domains, clocks, boot (chapters 2, 8, 11) -/
  power : Power := {}
  /-- Licences (chapters 0, 2) -/
  lic : Lic := {}
  /-- Portals 0 to 7 by number; an unlisted portal is at its reset values -/
  portals : FMap Portal := []
  /-- Rings, contexts, benches, tables (chapters 3 to 5) -/
  eng : Engine := {}
  /-- Fault collector (chapter 11) -/
  coll : Coll := {}
  /-- Plan, roster, links (chapters 1, 7, 8) -/
  fab : Fabric := {}
  /-- Islands, installations, schedules (chapters 9, 10) -/
  isles : Isles := {}
  /-- Fabric time (chapter 8) -/
  time : Time := {}
  /-- Persistent store (chapter 13) -/
  nv : Nv := {}
  /-- Pair, shipping, maintenance (chapter 14) -/
  pair : PairSt := {}
  /-- Integrity unit (chapter 12) -/
  integ : Integ := {}
  /-- Agents by AGENT_ID -/
  agents : FMap Agent := []
  /-- The model's own record of what the block sent out, newest first -/
  out : List Out := []
  /-- The model's own counter of free values drawn -/
  nonce : Nat := 0
  /-- The model's own queue of commands that wait, first in, first out -/
  pending : List Instr := []
  deriving DecidableEq, Repr

/-- The unpowered package: every register at its power-on value, no command waiting. -/
def State.reset : State := {}

/-- What exec and step answer. -/
abbrev Ans := Host.Outcome State Fault Refusal

end Sys2Proof.Machine
end

