-- ==== Sys2Proof/Machine/Ops.lean ====
section
/-! DEFINITION. Shared operations: fields of words and bytes, memory, portals, fault posting, what is sent out, and the tick of fabric time. -/

namespace Sys2Proof.Machine

/-- Bits [hi:lo] of a number. -/
def bits (w hi lo : Nat) : Nat := w / 2 ^ lo % 2 ^ (hi - lo + 1)

/-- Bits [hi:lo] of a register. -/
def fld (w : Word) (hi lo : Nat) : Nat := bits w.toNat hi lo

/-- A word whose bits [hi:lo] hold a value. -/
def at_ (v lo : Nat) : Word := BitVec.ofNat 64 (v * 2 ^ lo)

/-- One bit of a register. -/
def b1 (b : Bool) (lo : Nat) : Word := if b then at_ 1 lo else 0

/-- A value between limits: below the minimum it is the minimum, above the maximum the maximum (R69, R348). -/
def clamp (lo hi v : Nat) : Nat := if v < lo then lo else if hi < v then hi else v

/-- Addition that saturates at a maximum. -/
def satAdd (mx a b : Nat) : Nat := if a + b < mx then a + b else mx

/-- The bytes [off, off + len) of a byte string, zero past its end. -/
def slice (bs : List Byte) (off len : Nat) : List Byte :=
  let t := (bs.drop off).take len
  t ++ List.replicate (len - t.length) 0

/-- A little-endian number from bytes. -/
def leVal : List Byte → Nat
  | [] => 0
  | b :: bs => b.toNat + 256 * leVal bs

/-- The little-endian field of a record at an offset (R75). -/
def leAt (bs : List Byte) (off len : Nat) : Nat := leVal ((bs.drop off).take len)

/-- The little-endian bytes of a number. -/
def leBytes : Nat → Nat → List Byte
  | 0, _ => []
  | n + 1, v => BitVec.ofNat 8 v :: leBytes n (v / 256)

/-- A big-endian hash of 48 bytes as the value that SHA-384 gives. -/
def hashBytes (h : Hash) : List Byte := (leBytes 48 h.toNat).reverse

/-- The hash that 48 bytes spell, first byte most significant. -/
def hashAt (bs : List Byte) (off : Nat) : Hash := BitVec.ofNat 384 (leVal ((slice bs off 48).reverse))

/-- Every byte of a range is zero. -/
def zeroAt (bs : List Byte) (off len : Nat) : Bool := ((bs.drop off).take len).all (· == 0)

/-- Bytes of a word, lowest first. -/
def wordBytes (w : Word) : List Byte := leBytes 8 w.toNat

/-- CLASS as its code. -/
def Cls.code : Cls → Nat
  | .note => 0
  | .corrected => 1
  | .degraded => 2
  | .uncorrected => 3
  | .fatal => 4

/-- The 64 bytes of a fault record (Table 11.1). -/
def Rec.bytes (r : Rec) (high : Nat := 0) : List Byte :=
  leBytes 4 r.source.toNat ++ leBytes 2 r.unit.toNat ++ leBytes 2 r.kind.toNat ++ [BitVec.ofNat 8 r.cls.code, r.op] ++
    leBytes 2 r.temp.toNat ++ leBytes 2 r.volt.toNat ++
    leBytes 2 ((if r.coalesced then 1 else 0) + (if r.raised then 2 else 0) + (if r.hidden then 4 else 0)) ++
    leBytes 8 (r.address.toNat + r.space.toNat * 2 ^ 56) ++ leBytes 8 r.firstTime ++ leBytes 8 r.lastTime ++
    leBytes 4 r.count ++ leBytes 2 r.island ++ leBytes 2 high ++ wordBytes r.detail0 ++ wordBytes r.detail1

/-- A word from eight bytes of a byte string. -/
def wordAt (bs : List Byte) (off : Nat) : Word := BitVec.ofNat 64 (leAt bs off 8)

/-- The least number from `n` on that passes a test, among the next `fuel` numbers. -/
def findFrom (test : Nat → Bool) : Nat → Nat → Option Nat
  | 0, _ => none
  | fuel + 1, n => if test n then some n else findFrom test fuel (n + 1)

/-! Memory: scratch, shared memory and SRAM as bytes by address, an unlisted byte reading 0 (log 6). -/

/-- The byte at an address. -/
def memRead : List Host.Cell → Nat → Byte
  | [], _ => 0
  | (j, b) :: m, k => if k = j then b else memRead m k

/-- Writes one byte, keeping the canonical form: rising addresses, no zero listed. -/
def memWrite : List Host.Cell → Nat → Byte → List Host.Cell
  | [], k, v => if v = 0 then [] else [(k, v)]
  | (j, b) :: m, k, v =>
    if k < j then (if v = 0 then (j, b) :: m else (k, v) :: (j, b) :: m)
    else if k = j then (if v = 0 then m else (k, v) :: m)
    else (j, b) :: memWrite m k v

/-- The canonical form of a memory: addresses strictly rising, no zero byte listed. -/
def memWf : List Host.Cell → Bool
  | [] => true
  | [(_, b)] => b != 0
  | (i, b) :: (j, c) :: m => decide (i < j) && b != 0 && memWf ((j, c) :: m)

/-- The bytes of a range. -/
def memBytes (m : List Host.Cell) (a n : Nat) : List Byte := (List.range n).map fun i => memRead m (a + i)

/-- Writes consecutive bytes. -/
def memStore (m : List Host.Cell) (a : Nat) : List Byte → List Host.Cell
  | [] => m
  | b :: bs => memStore (memWrite m a b) (a + 1) bs

/-- A little-endian number read from memory (R127). -/
def memLoad (m : List Host.Cell) (a n : Nat) : Nat := leVal (memBytes m a n)

/-! Portals, sending and faults. -/

/-- A portal's registers. -/
def State.portal (s : State) (p : Nat) : Portal := s.portals.getD p {}

/-- Changes one portal. -/
def State.onPortal (s : State) (p : Nat) (f : Portal → Portal) : State :=
  { s with portals := s.portals.set p (f (s.portal p)) }

/-- Changes the channel engine and program model. -/
def State.onEng (s : State) (f : Engine → Engine) : State := { s with eng := f s.eng }

/-- Changes the domains and boot state. -/
def State.onPower (s : State) (f : Power → Power) : State := { s with power := f s.power }

/-- Changes the pins. -/
def State.onPins (s : State) (f : Pins → Pins) : State := { s with pins := f s.pins }

/-- Changes the collector. -/
def State.onColl (s : State) (f : Coll → Coll) : State := { s with coll := f s.coll }

/-- Changes the fabric model. -/
def State.onFab (s : State) (f : Fabric → Fabric) : State := { s with fab := f s.fab }

/-- Changes the islands. -/
def State.onIsles (s : State) (f : Isles → Isles) : State := { s with isles := f s.isles }

/-- Changes the store. -/
def State.onNv (s : State) (f : Nv → Nv) : State := { s with nv := f s.nv }

/-- Changes fabric time. -/
def State.onTime (s : State) (f : Time → Time) : State := { s with time := f s.time }

/-- Changes the pair. -/
def State.onPair (s : State) (f : PairSt → PairSt) : State := { s with pair := f s.pair }

/-- Changes the integrity unit. -/
def State.onInteg (s : State) (f : Integ → Integ) : State := { s with integ := f s.integ }

/-- Changes one agent that exists. -/
def State.onAgent (s : State) (id : Nat) (f : Agent → Agent) : State := { s with agents := s.agents.upd id f }

/-- Changes one context that exists. -/
def State.onCtx (s : State) (c : Nat) (f : Ctx → Ctx) : State :=
  s.onEng fun e => { e with ctxs := e.ctxs.upd c f }

/-- Changes one ring that exists. -/
def State.onRing (s : State) (r : Nat) (f : Ring → Ring) : State :=
  s.onEng fun e => { e with rings := e.rings.upd r f }

/-- Changes one island that exists. -/
def State.onIsland (s : State) (h : Nat) (f : Island → Island) : State :=
  s.onIsles fun e => { e with islands := e.islands.upd h f }

/-- Sends something out. -/
def State.emit (s : State) (o : Out) : State := { s with out := o :: s.out }

/-- Sends several things out, in order. -/
def State.emits (s : State) (os : List Out) : State := { s with out := os.reverse ++ s.out }

/-- Codes of LH_RESET_STATUS.CAUSE (Table 11.11). -/
def Cause.num : Cause → Nat
  | .none => 0
  | .software => 1
  | .fault => 2
  | .hang => 3
  | .watchdog => 4
  | .escalation => 5
  | .pin => 6
  | .tray => 7

/-- The next free value, and the state that has drawn it (log 9). -/
def State.draw (s : State) : Word × State := (Config.freeWord s.nonce, { s with nonce := s.nonce + 1 })

/-- Fabric time (R273). -/
def State.now (s : State) : Nat := s.time.now

/-- The unit number {domain, unit} (R55). -/
def unitNo (dom unit : Nat) : BitVec 12 := BitVec.ofNat 12 (dom * 64 + unit)

/-- The controller index of this unit: 1 unpaired or unit A, 2 unit B (R23). -/
def State.unitIndex (s : State) : Nat := if s.pair.role = .unpaired then 1 else s.pair.unit + 1

/-- The controller's own fabric address (R342). -/
def State.ctrlAddr (s : State) : FAddr := BitVec.ofNat 28 (0x2000000 + s.unitIndex)

/-- The hottest reading, for TEMP of the controller's records (R471). -/
def State.hottest (s : State) : BitVec 16 :=
  if s.pins.tjMax.toInt < s.pins.hbmMax.toInt then s.pins.hbmMax else s.pins.tjMax

/-- A detail word of which the spec gives only bit 0: the rest is free (log 11). -/
def withBit0 (w : Word) (b : Bool) : Word := (w &&& ~~~1) ||| b1 b 0

/-- A fault record of a controller unit, raised now; detail words that the spec does not give are free (Table 11.1, log 11). -/
def State.mkRec (s : State) (dom unit kind : Nat) (cls : Cls) (d0 : Word := Config.openDetail kind 0 s.nonce [])
    (d1 : Word := Config.openDetail kind 1 s.nonce []) (own : Nat := 0) : Rec :=
  { source := s.ctrlAddr, unit := unitNo dom unit, kind := BitVec.ofNat 12 kind, cls := cls
    temp := s.hottest, volt := Config.supplyMv (dom * 64 + unit) s.now
    firstTime := s.now, lastTime := s.now, detail0 := d0, detail1 := d1, own := own }

/-- Posts a record to the collector, which accepts it with RECORD_ACCEPT (R56, R349). -/
def State.post (s : State) (r : Rec) : State := { s.onColl fun c => { c with posted := c.posted ++ [r] } with nonce := s.nonce + 1 }

/-- Posts a record of a controller unit with its detail words. -/
def State.fault (s : State) (dom unit kind : Nat) (cls : Cls) (d0 : Word := Config.openDetail kind 0 s.nonce [])
    (d1 : Word := Config.openDetail kind 1 s.nonce []) (own : Nat := 0) : State :=
  s.post (s.mkRec dom unit kind cls d0 d1 own)

/-- Posts a record that arises from an access, ring or mailbox of a portal, unit the portal itself (Table 11.6 row 1). -/
def State.portalFault (s : State) (p kind : Nat) (cls : Cls) (op : Nat) (space addr : Nat) : State :=
  s.post { s.mkRec 23 p kind cls with
    op := BitVec.ofNat 8 op, space := BitVec.ofNat 4 space, address := BitVec.ofNat 56 addr, portal := some p }

/-- Fabric time counts on by one nanosecond while D0 is up (log 2). -/
def tick (s : State) : State :=
  if s.pins.d0Up then s.onTime fun t => { t with now := t.now + 1 } else s

end Sys2Proof.Machine
end

