-- ==== Sys2Proof/Machine/Domains.lean ====
section
/-! DEFINITION. Power domains: presence, wakes, fences, draining (R61 to R67, R71). -/

namespace Sys2Proof.Machine

/-- Hewer benches of the part (Table 0.1). -/
def Part.benches : Part → Nat
  | .xnu3124 => 8
  | .xnu3148 => 16
  | .xnu3188 => 16

/-- Host portals of the part (Table 0.1). -/
def Part.portals : Part → Nat
  | .xnu3124 => 4
  | .xnu3148 => 8
  | .xnu3188 => 8

/-- HBM stacks of the part (Table 0.1). -/
def Part.stacks : Part → Nat
  | .xnu3124 => 2
  | .xnu3148 => 4
  | .xnu3188 => 8

/-- I/O dies of the part (Table 0.1). -/
def Part.ioDies : Part → Nat
  | .xnu3124 => 1
  | .xnu3148 => 2
  | .xnu3188 => 2

/-- The integrity unit is present (Table 0.1). -/
def Part.hasIu : Part → Bool
  | .xnu3124 => false
  | .xnu3148 => true
  | .xnu3188 => true

/-- Maximum endpoints in units of 1,024 (Table 0.3). -/
def Part.endpointsK : Part → Nat
  | .xnu3124 => 16
  | .xnu3148 => 64
  | .xnu3188 => 128

/-- Maximum sound switches in units of 1,024 (Table 0.4). -/
def Part.switchesK : Part → Nat
  | .xnu3124 => 2
  | .xnu3148 => 8
  | .xnu3188 => 16

/-- PART_ID (Table 0.2). -/
def Part.id : Part → Nat
  | .xnu3124 => 0x3124
  | .xnu3148 => 0x3148
  | .xnu3188 => 0x3188

/-- The domain exists on this part (Table 2.1, Table 0.3). -/
def State.domPresent (s : State) (d : Nat) : Bool :=
  if d = 0 then true
  else if d ≤ 16 then decide (d ≤ s.pins.part.benches)
  else if d = 20 then s.pins.part.hasIu
  else decide (d ≤ 23)

/-- One domain D1 to D23. -/
def State.dom (s : State) (d : Nat) : Dom := s.power.doms.getD d {}

/-- Changes one domain. -/
def State.onDom (s : State) (d : Nat) (f : Dom → Dom) : State :=
  s.onPower fun p => { p with doms := p.doms.set d (f (s.dom d)) }

/-- The state of a domain; D0 is always ON (R63). -/
def State.domSt (s : State) (d : Nat) : DomState := if d = 0 then .on else (s.dom d).st

/-- The domain is ON. -/
def State.domOn (s : State) (d : Nat) : Bool := s.domSt d == .on

/-- The domains that a domain requires (Table 2.3). -/
def requires (d : Nat) : List Nat :=
  if d = 0 then []
  else if d ≤ 16 then [17, 22]
  else if d = 17 then [22]
  else if d = 18 then [22]
  else if d = 19 then [21, 22]
  else if d = 20 then [21, 22]
  else if d = 23 then [19, 22]
  else []

/-- Everything that a domain needs before it, in the order in which it is brought up (R62). -/
def bringUp (d : Nat) : List Nat :=
  if d = 0 then []
  else if d ≤ 16 then [22, 17]
  else if d = 17 then [22]
  else if d = 18 then [22]
  else if d = 19 then [21, 22]
  else if d = 20 then [21, 22]
  else if d = 23 then [21, 22, 19]
  else []

/-- Every domain that the wake needs is ON (R62). -/
def State.requiredOn (s : State) (d : Nat) : Bool := (requires d).all s.domOn

/-- The sequencer takes wake events of the domain: D21 from boot step 2, the others once controller firmware is verified; none in a chip reset's drain or after a trip, and only D21 in cold standby (R257, R364, R440, R441, R474). -/
def State.mayWake (s : State) (d : Nat) : Bool :=
  s.pins.d0Up && !s.pins.thermtripLow && !s.power.draining &&
    (if d = 21 then decide (2 ≤ s.power.step)
     else decide (4 ≤ s.power.step) && !s.power.stopped && s.pair.role != .standby && s.pair.role != .relinquished)

/-- A wake event at one domain, its required domains apart: one that the sequencer cannot take yet stays pending, and none is lost (Table 2.4, R63, R64, R66, R72; log 109). -/
def wakeOne (s : State) (d : Nat) : State :=
  if !s.domPresent d ∨ !s.pins.d0Up then s
  else if !s.mayWake d then (if s.domOn d then s else s.onDom d fun x => { x with wakePend := true })
  else match s.domSt d with
    | .on => s
    | .waking => s
    | .draining => s.onDom d fun x => { x with st := .on }
    | .fenced => s.onDom d fun x => { x with wakePend := true }
    | .off =>
      if s.requiredOn d then s.onDom d fun x => { x with st := .waking, wakePend := false, powerOff := false }
      else s.onDom d fun x => { x with wakePend := true }

/-- A wake event: the domains required first, then the domain (R62, R64). -/
def wake (s : State) (d : Nat) : State := ((bringUp d) ++ [d]).foldl wakeOne s

/-- Starts the pending wakes whose required domains are now ON (R66). -/
def startPending (s : State) : State :=
  (List.range 24).foldl (fun t d => if (t.dom d).wakePend && t.domSt d == .off then wake t d else t) s

/-- A domain manager applies its fence; the wake event of a ramp that it stops stays pending (R63, R64, Table 2.4). -/
def fenceDom (s : State) (d : Nat) : State :=
  match s.domSt d with
  | .off => s.onDom d fun x => { x with st := .fenced, powerOff := true }
  | .waking => s.onDom d fun x => { x with st := .fenced, powerOff := true, wakePend := true }
  | .on => if d = 0 then s else s.onDom d fun x => { x with st := .fenced, powerOff := false }
  | .draining => s.onDom d fun x => { x with st := .fenced, powerOff := false }
  | .fenced => s

/-- A FENCED domain returns to ON; what it requires is woken first, so that none of it powers down under it (R62, Table 2.4). -/
def returnOn (s : State) (d : Nat) : State :=
  startPending ((bringUp d).foldl wakeOne (s.onDom d fun x => { x with st := .on, wakePend := false, engineReset := false, powerOff := false }))

/-- A domain leaves FENCED at the end of its fault state: ON, or OFF when it was fenced while OFF or WAKING; a pending wake then starts (R63, Table 2.4). -/
def unfenceDom (s : State) (d : Nat) : State :=
  match s.domSt d with
  | .fenced => if (s.dom d).powerOff then startPending (s.onDom d fun x => { x with st := .off }) else returnOn s d
  | .off | .waking | .on | .draining => s

/-- LH_CAP1 (Table 0.3). -/
def cap1 (s : State) : Word :=
  let p := s.pins.part
  at_ p.endpointsK 32 ||| at_ (s.power.benchUsable.toNat % 2 ^ p.benches) 16 |||
    at_ (if p.hasIu then 0x1FF else 0x1EF) 0

/-- The 4-bit code of a domain state (Table 2.4). -/
def DomState.code : DomState → Nat
  | .off => 0
  | .waking => 1
  | .on => 2
  | .draining => 3
  | .fenced => 4

/-- The domains that a PLL serves: 0 to 15 PLL_HWn, 16 CH, 17 FY, 18 SYS, 19 NV, 20 MM (Table 2.10). -/
def pllDomains (pll : Nat) : List Nat :=
  if pll < 16 then [pll + 1]
  else if pll = 16 then [17]
  else if pll = 17 then [18]
  else if pll = 18 then [19, 20]
  else if pll = 19 then [21]
  else if pll = 20 then [22]
  else []

/-- A PLL runs for a domain that is WAKING, ON or DRAINING (R70). -/
def State.running (s : State) (d : Nat) : Bool :=
  match s.domSt d with
  | .waking => true
  | .on => true
  | .draining => true
  | .off => false
  | .fenced => false

/-- PLL lock bits of LH_CLK_STATUS: the PLL of a domain that is ON or DRAINING is locked (Table 2.11, log 34). -/
def State.pllLocked (s : State) (pll : Nat) : Bool :=
  (pllDomains pll).any fun d => s.domSt d == .on || s.domSt d == .draining

/-- The board has fewer running reasons to keep a domain: no domain that requires it is ON, WAKING or DRAINING (R62). -/
def State.unneeded (s : State) (d : Nat) : Bool :=
  (List.range 24).all fun e => !((requires e).contains d && s.running e)

end Sys2Proof.Machine
end

