-- ==== Sys2Proof/Machine/Rings.lean ====
section
/-! DEFINITION. Rings, completions, wake causes and sealed records (R88 to R107, R114 to R117, R157). -/

namespace Sys2Proof.Machine

/-! Status codes, Table 3.19. -/

/-- OK -/
abbrev stOk : Nat := 0
/-- UNSUPPORTED -/
abbrev stUnsupported : Nat := 1
/-- DENIED -/
abbrev stDenied : Nat := 2
/-- INVALID -/
abbrev stInvalid : Nat := 3
/-- DEFERRED_CONFLICT -/
abbrev stDeferred : Nat := 4
/-- MOVED -/
abbrev stMoved : Nat := 5
/-- FLOOR_EXHAUSTED -/
abbrev stFloor : Nat := 6
/-- CONFLICTED -/
abbrev stConflicted : Nat := 7
/-- SCHEDULE_SLIP -/
abbrev stSlip : Nat := 8
/-- SEAL_FAILED -/
abbrev stSeal : Nat := 9
/-- FENCED -/
abbrev stFenced : Nat := 10
/-- NO_SPACE -/
abbrev stNoSpace : Nat := 11
/-- BUSY -/
abbrev stBusy : Nat := 12

/-! Wake causes, Table 5.3. -/

/-- Cause bit TIME. -/
abbrev causeTime : Nat := 0
/-- Cause bit MAILBOX. -/
abbrev causeMailbox : Nat := 1
/-- Cause bit RING. -/
abbrev causeRing : Nat := 2
/-- Cause bit MESSAGE. -/
abbrev causeMessage : Nat := 3
/-- Cause bit TICKET. -/
abbrev causeTicket : Nat := 4
/-- Cause bit STOP. -/
abbrev causeStop : Nat := 5

/-- A context has an instruction that waits for a cause: it is HALTED or BLOCKED, or STOPPING, which a wait does not leave (Table 5.2, R157). -/
def Ctx.waits (x : Ctx) : Bool := x.core.awaits.isSome

/-- The waiting context returns to RUNNING, or to STOPPING once it has been stopped, and its WAITS_ON edge clears (Table 5.2, R173). -/
def resumeCtx (s : State) (c : Nat) (x : Ctx) : State :=
  let s := s.onCtx c fun y =>
    { y with st := if x.stopEntry.isSome then .stopping else .running,
             core := { y.core with awaits := none, untilT := none }, blockedOn := 0 }
  match x.ring with
  | none => s
  | some r => s.onRing r fun g => { g with waitsOn := none, waitCtx := 0 }

/-- Latches a wake cause of a context; a waiting context that awaits it resumes, and the wake event of its bench is raised (R157, Table 2.3). A judged or suspect context held by guilt finding keeps its causes latched (R369). -/
def setCause (s : State) (c bit : Nat) : State :=
  match s.eng.ctxs.get c with
  | none => s
  | some x =>
    let s := s.onCtx c fun y => { y with core := { y.core with causes := y.core.causes ||| BitVec.ofNat 6 (2 ^ bit) } }
    let s := match x.hewer with
      | none => s
      | some (b, _) => wake s (b + 1)
    if x.waits && !x.judged && (bit == causeStop || (x.core.awaits.getD 0).getLsbD bit) then resumeCtx s c x else s

/-! Rings. -/

/-- Entries of a ring (R95). -/
def Ring.size (g : Ring) : Nat := 2 ^ g.log2

/-- Occupancy (R95). -/
def Ring.occ (g : Ring) : Nat := (g.prod - g.cons).toNat

/-- PHASE of an entry written at an index: the inverse of bit LOG2 (R101). -/
def Ring.phase (g : Ring) (i : BitVec 32) : Bool := !(i.getLsbD g.log2)

/-- The ring is in state FENCED or ERROR, in which nothing enters or leaves it. -/
def Ring.stopped (g : Ring) : Bool := g.st == .fenced || g.st == .error

/-- Moves a ring to a state, with CHANGED (Table 3.12). -/
def setRingSt (s : State) (r : Nat) (st : RingState) : State :=
  s.onRing r fun g => if g.st = st then g else { g with st := st, changed := s.now }

/-- ACTIVE to IDLE when every available entry is consumed and completed; IDLE to ACTIVE when entries are available (Table 3.13). -/
def settleRing (s : State) (r : Nat) : State :=
  match s.eng.rings.get r with
  | none => s
  | some g =>
    if g.st = .active ∧ g.occ = 0 ∧ g.fetched = [] then setRingSt s r .idle
    else if g.st = .idle ∧ g.occ ≠ 0 then setRingSt s r .active
    else s

/-- The engine writes an index to SHADOW when SHADOW_EN is set (R96). -/
def writeShadow (s : State) (r : Nat) : State :=
  match s.eng.rings.get r with
  | none => s
  | some g =>
    if g.shadowEn then s.emit (.shadow r (if g.kind = .submit then g.cons else g.prod)) else s

/-- The wake of a ring's WAKE_TARGET: a context's RING cause, or an MSI-X vector 65 to 255 of the owner (Table 3.12, R84). -/
def wakeTarget (s : State) (g : Ring) : State :=
  if bits g.wakeTarget.toNat 31 30 = 1 then setCause s (bits g.wakeTarget.toNat 23 0) causeRing
  else if bits g.wakeTarget.toNat 31 30 = 2 then
    if 65 ≤ bits g.wakeTarget.toNat 23 0 ∧ bits g.wakeTarget.toNat 23 0 ≤ 255 then
      s.emit (.msix g.owner (bits g.wakeTarget.toNat 23 0))
    else s
  else s

/-- The context that waits for entries of a ring or for slots in it gets RING (Table 5.3). -/
def wakeBlocked (s : State) (r : Nat) : State :=
  s.eng.ctxs.foldl (fun t p => if p.2.waits && p.2.blockedOn == r then setCause t p.1 causeRing else t) s

/-- The controller has written one entry into a COMPLETE, FAULT or EVENT ring: PROD, SHADOW, state and wakes follow (R96, R101); a context blocked on the ring gets RING (log 25). -/
def produced (s : State) (r : Nat) : State :=
  match s.eng.rings.get r with
  | none => s
  | some g =>
    let s := s.onRing r fun y => { y with prod := y.prod + 1 }
    let s := settleRing s r
    wakeBlocked (wakeTarget (writeShadow s r) g) r

/-- Writes a completion into its COMPLETE ring, or holds it while that ring is full or in ERROR, so that none is lost (R100, R101, Table 3.24; log 35). -/
def putCompletion (s : State) (cr : Nat) (c : Completion) : State :=
  match s.eng.rings.get cr with
  | none => s
  | some g =>
    if g.st = .error ∨ g.occ = g.size ∨ g.waiting ≠ [] then s.onRing cr fun y => { y with waiting := y.waiting ++ [c] }
    else produced (s.emit (.completion cr g.prod { c with phase := g.phase g.prod })) cr

/-- A fetched and unanswered entry. -/
def Ring.find (g : Ring) (idx : BitVec 32) : Option Fetched := g.fetched.find? (·.index == idx)

/-- Answers an entry: its completion is written unless suppressed, and the entry leaves the ring (R99, R102, Table 3.20). -/
def answer (s : State) (r : Nat) (idx : BitVec 32) (status : Nat) (result : List Byte := []) (asSealed : Bool := false) : State :=
  match s.eng.rings.get r with
  | none => s
  | some g =>
    match g.find idx with
    | none => s
    | some f =>
      let c : Completion :=
        { opcode := f.entry.opcode, sealedResult := asSealed, tag := f.entry.tag, status := BitVec.ofNat 16 status
          subIndex := idx, subRing := r, time := s.now, result := if asSealed then [] else result }
      let s := s.onRing r fun y =>
        { y with fetched := y.fetched.filter (·.index != idx), done := y.done + 1 }
      let s := if f.entry.flags.getLsbD 2 && status == stOk then s else putCompletion s g.paired c
      settleRing s r

/-- Answers the entry that a record of ring and index names, if any. -/
def answerAt (s : State) (e : Option (Nat × BitVec 32)) (status : Nat) (result : List Byte := []) : State :=
  match e with
  | none => s
  | some (r, i) => answer s r i status result

/-- Moves a ring to ERROR with its ERROR_INFO; one already there keeps that of its first failed entry (Tables 3.12, 3.13). -/
def errorRing (s : State) (r : Nat) (status : Nat) (idx : BitVec 32) : State :=
  if (s.eng.rings.get r).any (·.st == .error) then s
  else (setRingSt s r .error).onRing r fun g => { g with errStatus := BitVec.ofNat 16 status, errIndex := idx }

/-- Answers every fetched entry of a ring with one status. -/
def answerAll (s : State) (r : Nat) (status : Nat) : State :=
  match s.eng.rings.get r with
  | none => s
  | some g => g.fetched.foldl (fun t f => answer t r f.index status) s

/-- Fences a ring: fetched entries complete with FENCED, and a context blocked on it resumes (Table 3.13, R91, R173). -/
def fenceRing (s : State) (r : Nat) : State :=
  match s.eng.rings.get r with
  | none => s
  | some g =>
    if g.st = .idle ∨ g.st = .active then
      wakeBlocked (setRingSt (answerAll s r stFenced) r .fenced) r
    else s

/-- Fences every ring that satisfies a test. -/
def fenceRings (s : State) (p : Nat → Ring → Bool) : State :=
  s.eng.rings.foldl (fun t q => if p q.1 q.2 then fenceRing t q.1 else t) s

/-- Held completions are written as slots free (R100). -/
def drainWaiting (s : State) (r : Nat) : Nat → State
  | 0 => s
  | n + 1 =>
    match s.eng.rings.get r with
    | none => s
    | some g =>
      match g.waiting with
      | [] => s
      | c :: rest =>
        if g.st ≠ .error ∧ g.occ < g.size then
          let s := s.onRing r fun y => { y with waiting := rest }
          drainWaiting (produced (s.emit (.completion r g.prod { c with phase := g.phase g.prod })) r) r n
        else s

/-! Notices, Table 3.26. -/

/-- Writes a notice into one EVENT ring, or drops it on a full one or one in ERROR; D17, which the ring that is no longer IDLE keeps ON, wakes (R60, R107; log 35). -/
def putNotice (s : State) (r : Nat) (n : Notice) : State :=
  match s.eng.rings.get r with
  | none => s
  | some g =>
    if g.st = .error ∨ g.occ = g.size then s.onRing r fun y => { y with lost := satAdd 0xFFFFFFFF y.lost 1 }
    else
      let s := (wake s 17).emit (.eventEntry r g.prod { n with phase := g.phase g.prod, lost := g.lost })
      produced (s.onRing r fun y => { y with lost := 0 }) r

/-- A portal is a party of an island (R104). -/
def State.isParty (s : State) (p h : Nat) : Bool :=
  match s.isles.islands.get h with
  | none => false
  | some i => (s.portal p).role == .party && i.parties.getLsbD p

/-- Who receives a notice of an island, 0 for a fabric-wide one; MAINT goes only to the steward (R107). -/
def State.hears (s : State) (p h : Nat) (maint : Bool) : Bool :=
  if maint then (s.portal p).role == .steward
  else if h = 0 then true
  else (s.portal p).role == .steward || (s.portal p).role == .auditor || s.isParty p h

/-- Raises a notice: a copy enters each EVENT ring entitled to it (R107). -/
def notify (s : State) (event : Nat) (island : Nat) (d0 d1 : Word) : State :=
  let n : Notice := { event := BitVec.ofNat 8 event, island := island, time := s.now, data0 := d0, data1 := d1 }
  s.eng.rings.foldl (fun t q =>
    if q.2.kind == .event && t.hears q.2.owner island (event == 6) && (q.2.island == 0 || island == 0 || q.2.island == island)
    then putNotice t q.1 n else t) s

/-! Sealed records (R114 to R117). -/

/-- The next sequence number that a direction refuses (R117). -/
abbrev seqLimit : Nat := 2 ^ 32

/-- A host-to-controller record is accepted under R115 (its tag apart). -/
def sealHeaderOk (p : Portal) (portal r : Nat) (idx : BitVec 32) (rec : List Byte) (len : Nat) : Bool :=
  let seq := leAt rec 8 8
  leAt rec 0 4 == 0x5345414C && leAt rec 4 1 == 1 && leAt rec 5 1 == 0 && leAt rec 6 1 == portal && leAt rec 7 1 == 0 &&
  leAt rec 0x10 4 == r && leAt rec 0x14 4 == idx.toNat && leAt rec 0x1C 4 == p.session.id.toNat &&
  decide (16 ≤ leAt rec 0x18 4) && decide (leAt rec 0x18 4 ≤ 65536) && len == 48 + leAt rec 0x18 4 &&
  decide (p.session.rxSeq ≤ seq) && decide (seq ≤ p.session.rxSeq + 1023) && decide (seq < seqLimit) &&
  !p.session.rxSeen.contains seq && p.session.live

/-- Drops the accepted numbers below the window and moves PT_RX_SEQ to the lowest number not accepted (R115). -/
def rxAdvance : Nat → Nat → List Nat → Nat × List Nat
  | 0, lo, seen => (lo, seen)
  | n + 1, lo, seen => if seen.contains lo then rxAdvance n (lo + 1) (seen.filter (· != lo)) else (lo, seen)

/-- The nonce of a sealed record: the direction's IV base XOR (32 zero bits followed by SEQ) (R114). -/
def sealNonce (key seq : Nat) : BitVec 96 := Config.ivBase key ^^^ BitVec.ofNat 96 (seq % 2 ^ 64)

/-- Opens a sealed record for an entry: its plaintext and the state with the sequence number taken, or none; its traffic wakes the trust unit (R115, Table 2.3). -/
def openRecord (s : State) (portal r : Nat) (idx : BitVec 32) (rec : List Byte) (len : Nat) : Option (List Byte) × State :=
  let s := wake s 19
  let p := s.portal portal
  if sealHeaderOk p portal r idx rec len then
    match Config.gcmOpen p.session.rxKeyGen (sealNonce p.session.rxKeyGen (leAt rec 8 8)) (rec.take 32) (rec.drop 32) with
    | none => (none, s)
    | some plain =>
      let (lo, seen) := rxAdvance 1024 p.session.rxSeq (leAt rec 8 8 :: p.session.rxSeen)
      (some plain, s.onPortal portal fun q => { q with session := { q.session with rxSeq := lo, rxSeen := seen } })
  else (none, s)

/-- A rejected record: SEAL_FAILED completion, ring to ERROR, SEAL_FAILED fault of the trust unit (R115). -/
def sealRejected (s : State) (portal r : Nat) (idx : BitVec 32) : State :=
  let s := errorRing (answer s r idx stSeal) r stSeal idx
  s.post { s.mkRec 19 4 0x007 .corrected with address := BitVec.ofNat 56 r, space := 9, portal := some portal }

/-- Seals a result to the RESULT_BUF of an entry under the next number of its direction; none when that number would reach the limit (R116, R117). -/
def sealResult (s : State) (portal r : Nat) (f : Fetched) (plain : List Byte) : Option State :=
  let p := s.portal portal
  let seq := p.session.txSeq + 1
  if seq < seqLimit ∧ p.session.live then
    let head := leBytes 4 0x5345414C ++ [1, 1, BitVec.ofNat 8 portal, 0] ++ leBytes 8 seq ++ leBytes 4 r ++
      leBytes 4 f.index.toNat ++ leBytes 4 plain.length ++ leBytes 4 p.session.id.toNat
    let s := s.onPortal portal fun q => { q with session := { q.session with txSeq := seq } }
    some (s.emit (.hostData portal f.entry.resultBuf (head ++ Config.gcmSeal p.session.txKeyGen (sealNonce p.session.txKeyGen seq) head plain)))
  else none

/-- Completes a served entry: sealed to RESULT_BUF when the entry is sealed, else inline; `data` is what the entry returns besides its 40 result bytes (R103, R116). -/
def finish (s : State) (r : Nat) (f : Fetched) (status : Nat) (result : List Byte := []) (data : List Byte := []) : State :=
  match s.eng.rings.get r with
  | none => s
  | some g =>
    if f.entry.flags.getLsbD 0 ∧ f.entry.resultBuf ≠ 0 then
      match sealResult s g.owner r f (slice result 0 40 ++ data) with
      | none => answer s r f.index stSeal
      | some t => answer t r f.index status [] true
    else if data = [] then answer s r f.index status result
    else answer (s.emit (.hostData g.owner f.entry.buffer data)) r f.index status result

/-- Serves an entry that ENTRY_FETCH has fetched, with what its buffer holds: a FENCE entry waits for the earlier ones, and a sealed record is opened first (R99, R103, R115). No such entry: no effect (log 1). -/
def serve (r : Nat) (idx : BitVec 32) (opcode : Nat) (buf : List Byte) (s : State)
    (k : Ring → Fetched → List Byte → List Byte → State → State) : State :=
  match s.eng.rings.get r with
  | none => s
  | some g =>
    match g.find idx with
    | none => s
    | some f =>
      if f.entry.opcode.toNat ≠ opcode ∨ f.ctx ≠ 0 then s
      else if f.entry.flags.getLsbD 1 && g.fetched.head?.map (·.index) != some idx then s
      else if f.entry.flags.getLsbD 0 then
        match openRecord s g.owner r idx buf f.entry.length.toNat with
        | (none, t) => sealRejected t g.owner r idx
        | (some plain, t) => k g f (slice plain 0 40) (plain.drop 40) t
      else k g f (slice f.entry.args 0 40) (slice buf 0 f.entry.length.toNat) s

end Sys2Proof.Machine
end

