-- ==== Sys2Proof/Machine/Geom.lean ====
section
/-! DEFINITION. Fabric addresses, torus distances, pods, and the fields of the fabric plan (R18 to R24, R36, R37, Tables 8.4 to 8.7). -/

namespace Sys2Proof.Machine

/-- KIND of an address (Table 1.3). -/
def addrKind (a : FAddr) : Nat := bits a.toNat 27 24

/-- Index of a switch or controller address. -/
def addrIndex (a : FAddr) : Nat := a.toNat % 2 ^ 24

/-- Coordinate of dimension k: 3 W, 2 X, 1 Y, 0 Z (Table 1.3). -/
def coordOf (a : FAddr) (k : Nat) : Nat := bits a.toNat (6 * k + 5) (6 * k)

/-- The endpoint address of coordinates W, X, Y, Z. -/
def endpointAddr (w x y z : Nat) : FAddr := BitVec.ofNat 28 (w * 2 ^ 18 + x * 2 ^ 12 + y * 2 ^ 6 + z)

/-- An endpoint address with the coordinate of one dimension replaced. -/
def withCoord (a : FAddr) (k v : Nat) : FAddr :=
  BitVec.ofNat 28 (a.toNat - coordOf a k * 2 ^ (6 * k) + v * 2 ^ (6 * k))

/-- The address none: 0x0FF_FFFF. -/
abbrev noAddr : FAddr := 0x0FFFFFF

/-! The plan (Table 8.4). -/

/-- A header field of the plan. -/
def planField (pl : List Byte) (off len : Nat) : Nat := leAt pl off len

/-- Size of dimension k from DIMS (Table 8.4). -/
def planDim (pl : List Byte) (k : Nat) : Nat := bits (leAt pl 0x010 4) (8 * k + 7) (8 * k)

/-- Side of a pod along dimension k, the default 4 when POD_SIDES is zero; a fabric below 256 positions is one pod (R36). -/
def planSide (pl : List Byte) (k : Nat) : Nat :=
  if planDim pl 3 * planDim pl 2 * planDim pl 1 * planDim pl 0 < 256 then planDim pl k
  else if leAt pl 0x014 4 = 0 then 4
  else bits (leAt pl 0x014 4) (8 * k + 7) (8 * k)

/-- Torus positions. -/
def planPositions (pl : List Byte) : Nat := planDim pl 3 * planDim pl 2 * planDim pl 1 * planDim pl 0

/-- The 16 bytes of an entry of a plan table: 0x048 positions and spares, 0x050 links, 0x058 switches. -/
def planEntry (pl : List Byte) (table i : Nat) : List Byte := slice pl (leAt pl table 4 + 16 * i) 16

/-- Entries of a plan table. -/
def planCount (pl : List Byte) (table : Nat) : Nat := leAt pl (table + 4) 4

/-- Every entry of a plan table, in order. -/
def planEntries (pl : List Byte) (table : Nat) : List (List Byte) :=
  (List.range (planCount pl table)).map (planEntry pl table)

/-- AGENT_ID of a position, spare or switch entry (Table 8.5). -/
def entryAgent (e : List Byte) : Nat := leAt e 8 8 % 2 ^ 56

/-- WHERE of an entry. -/
def entryWhere (e : List Byte) : Nat := leAt e 0 4

/-- The entry is a spare. -/
def entrySpare (e : List Byte) : Bool := (entryWhere e).testBit 31

/-- The entry is marked ABSENT. -/
def entryAbsent (e : List Byte) : Bool := (leAt e 4 1).testBit 1

/-- The entry is marked SPLICEABLE. -/
def entrySpliceable (e : List Byte) : Bool := (leAt e 4 1).testBit 0

/-- Sound switches of the plan. -/
def planSwitches (pl : List Byte) : Nat := leAt pl 0x018 2

/-- Portal policy entry of a portal (Table 8.7). -/
def planPortal (pl : List Byte) (p : Nat) : List Byte := slice pl (0x110 + 64 * p) 64

/-- QUAY entry n of the plan, none when unused. -/
def planQuay (pl : List Byte) (n : Nat) : Option (FAddr × Nat) :=
  let q := leAt pl (0x020 + 4 * n) 4
  if q = 0xFFFFFFFF then none else some (BitVec.ofNat 28 q, bits q 31 28)

/-! Addresses in the plan in force. -/

/-- Size of dimension k in the plan in force; 0 without a plan. -/
def State.dim (s : State) (k : Nat) : Nat :=
  match s.fab.plan with
  | none => 0
  | some pl => planDim pl k

/-- An address is valid (R21). -/
def validIn (dim : Nat → Nat) (switches : Nat) (a : FAddr) : Bool :=
  if addrKind a = 0 then
    decide (coordOf a 3 < dim 3) && decide (coordOf a 2 < dim 2) && decide (coordOf a 1 < dim 1) && decide (coordOf a 0 < dim 0)
  else if addrKind a = 1 then decide (addrIndex a < switches)
  else if addrKind a = 2 then decide (addrIndex a ≤ 2)
  else false

/-- An address is valid in the plan in force (R21). -/
def State.valid (s : State) (a : FAddr) : Bool :=
  match s.fab.plan with
  | none => validIn (fun _ => 0) 0 a
  | some pl => validIn (planDim pl) (planSwitches pl) a

/-- An address is valid to this controller: unpaired, it treats index 2 as not valid (R21, R23). -/
def State.ctrlValid (s : State) (a : FAddr) : Bool := s.valid a && !(addrKind a == 2 && addrIndex a == 2 && !s.pair.paired)

/-- The controller indexes to which this unit answers: 0 in the active role, which a takeover brings, or unpaired, and its own (R23). -/
def State.answersTo (s : State) (a : FAddr) : Bool :=
  addrKind a == 2 && ((addrIndex a == 0 && [.active, .unpaired, .takingOver].contains s.pair.role) || addrIndex a == s.unitIndex)

/-- Distance in the positive direction (R24). -/
def distUp (n a b : Nat) : Nat := (b + n - a) % n

/-- Distance in the negative direction (R24). -/
def distDown (n a b : Nat) : Nat := (a + n - b) % n

/-- The minimal direction is negative (R24). -/
def goesDown (n a b : Nat) : Bool := decide (distDown n a b < distUp n a b)

/-- The neighbour of a coordinate. -/
def stepCoord (n c : Nat) (down : Bool) : Nat := if down then (c + n - 1) % n else (c + 1) % n

/-- Pod index of an endpoint (R37). -/
def podIndex (pl : List Byte) (a : FAddr) : Nat :=
  let q (k : Nat) : Nat := coordOf a k / planSide pl k
  let c (k : Nat) : Nat := planDim pl k / planSide pl k
  ((q 3 * c 2 + q 2) * c 1 + q 1) * c 0 + q 0

/-- The island that has an address as a member, 0 for none (R46). -/
def islandOf (s : State) (a : FAddr) : Nat :=
  match s.isles.islands.find? fun p => p.2.members.contains a && p.2.st != .free && p.2.st != .releasing with
  | none => 0
  | some p => p.1

/-- A link id {address, link} as a key (R165). -/
def linkKey (a : FAddr) (l : Nat) : Nat := a.toNat * 16 + l

/-- The record of a link of the fabric model, UNUSED values where it lists none. -/
def State.mlink (s : State) (a : FAddr) (l : Nat) : MLink := s.fab.links.getD (linkKey a l) {}

/-- The links of a port of the model. -/
def State.portLinks (s : State) (a : FAddr) (p : Nat) : List MLink :=
  ((List.range 16).map (s.mlink a)).filter fun m => m.port == some p

/-- The agent whose assigned address is this one, as the model knows it. -/
def State.agentAt (s : State) (a : FAddr) : Option Nat :=
  (s.fab.roster.find? fun p => p.2.addr == a && p.2.addr != noAddr).map (·.1)

/-- A link or port whose two ends lie in different islands, or one of them in none (R166). -/
def straitEnds (s : State) (a b : FAddr) : Bool := islandOf s a != islandOf s b

/-- The link record of Table 5.6. -/
def linkRecord (s : State) (a : FAddr) (l : Nat) : Word :=
  let m := s.mlink a l
  let st := match m.port with
    | none => 3
    | some _ => if m.lanes = 0 then 1 else if straitEnds s a m.nbr then 2 else 0
  at_ m.nbr.toNat 0 ||| at_ (m.nbrLink % 16) 28 ||| at_ (m.lanes % 8) 32 ||| at_ (m.port.getD 0 % 8) 36 |||
    b1 m.port.isSome 39 ||| at_ st 40 ||| at_ (islandOf s a % 65536) 48

/-- NBR of a port: the neighbour of its lowest link; 0 for a port that is not VALID. -/
def portNbr (s : State) (a : FAddr) (p : Nat) : FAddr := ((s.portLinks a p).head?.map (·.nbr)).getD 0

/-- STATE of a port: 0 LIVE, 1 DEAD, 2 STRAIT, 3 UNUSED (R166). -/
def portSt (s : State) (a : FAddr) (p : Nat) : Nat :=
  let ls := s.portLinks a p
  if ls = [] then 3
  else if ls.all (fun m => m.lanes == 0) then 1
  else if straitEnds s a (portNbr s a p) then 2 else 0

/-- The port record of Table 5.6. -/
def portRecord (s : State) (a : FAddr) (p : Nat) : Word :=
  let live := ((s.portLinks a p).filter fun m => m.lanes != 0).length
  at_ (portNbr s a p).toNat 0 ||| at_ live 32 ||| at_ (portSt s a p) 40 ||| at_ (islandOf s a % 65536) 48

end Sys2Proof.Machine
end

