-- ==== Sys2Proof/Machine/Packet.lean ====
section
/-! DEFINITION. Packets: header bytes, block check value, path check, and control packets (R183 to R188). -/

namespace Sys2Proof.Machine

/-- One bit of CRC-64 (R187). -/
def crc64Bit (crc : Word) (b : Bool) : Word :=
  if crc.getLsbD 63 != b then (crc <<< 1) ^^^ 0x42F0E1EBA9EA3693 else crc <<< 1

/-- One byte of CRC-64, most significant bit first. -/
def crc64Byte (crc : Word) (b : Byte) : Word :=
  [7, 6, 5, 4, 3, 2, 1, 0].foldl (fun c n => crc64Bit c (b.getLsbD n)) crc

/-- The block check value of a byte string (R187). -/
def crc64 (bs : List Byte) : Word := bs.foldl crc64Byte 0

/-- One bit of CRC-32C, reflected (R188). -/
def crc32Bit (crc : BitVec 32) : BitVec 32 :=
  if crc.getLsbD 0 then (crc >>> 1) ^^^ 0x82F63B78 else crc >>> 1

/-- One byte of CRC-32C. -/
def crc32Byte (crc : BitVec 32) (b : Byte) : BitVec 32 :=
  [0, 1, 2, 3, 4, 5, 6, 7].foldl (fun c _ => crc32Bit c) (crc ^^^ b.zeroExtend 32)

/-- CRC-32C of a byte string (R188). -/
def crc32c (bs : List Byte) : BitVec 32 := ~~~(bs.foldl crc32Byte 0xFFFFFFFF)

/-- TYPE of a header (Table 6.1). -/
def Hdr.typ (h : Hdr) : Nat := bits h.w0.toNat 31 28
/-- DST -/
def Hdr.dst (h : Hdr) : FAddr := h.w0.truncate 28
/-- SRC -/
def Hdr.src (h : Hdr) : FAddr := h.w1.truncate 28
/-- FMT -/
def Hdr.fmt (h : Hdr) : Nat := bits h.w1.toNat 31 28
/-- VC of ROUTE -/
def Hdr.vc (h : Hdr) : Nat := bits h.route.toNat 2 0
/-- DETOUR of ROUTE -/
def Hdr.detour (h : Hdr) : Bool := h.route.getLsbD 3
/-- DLEFT of ROUTE -/
def Hdr.dleft (h : Hdr) : Nat := bits h.route.toNat 5 4
/-- DPATH of ROUTE -/
def Hdr.dpath (h : Hdr) : Nat := bits h.route.toNat 14 6
/-- MCAST -/
def Hdr.mcast (h : Hdr) : Bool := h.h12.getLsbD 0
/-- MDIM -/
def Hdr.mdim (h : Hdr) : Nat := bits h.h12.toNat 2 1
/-- POISON -/
def Hdr.poison (h : Hdr) : Bool := h.h12.getLsbD 3
/-- LEN of a data or MGMT packet -/
def Hdr.len (h : Hdr) : Nat := bits h.h12.toNat 9 4
/-- STREAM of a data packet -/
def Hdr.stream (h : Hdr) : Nat := bits h.h12.toNat 15 10
/-- OPCODE of a control packet -/
def Hdr.opcode (h : Hdr) : Nat := bits h.h12.toNat 15 8
/-- CONTEXT of a control packet -/
def Hdr.context (h : Hdr) : Nat := fld h.bcv 23 0
/-- SUB of a control packet -/
def Hdr.sub (h : Hdr) : Nat := fld h.bcv 31 24
/-- ARG of a control packet -/
def Hdr.arg (h : Hdr) : BitVec 32 := h.bcv.extractLsb' 32 32
/-- The packet is a control packet (Table 6.2). -/
def Hdr.isControl (h : Hdr) : Bool := h.typ == 1

/-- ROUTE from its fields. -/
def routeOf (vc : Nat) (detour : Bool) (dleft dpath : Nat) : BitVec 16 :=
  BitVec.ofNat 16 (vc + (if detour then 8 else 0) + dleft % 4 * 16 + dpath % 512 * 64)

/-- The 32 bytes of a header, ROUTE as given. -/
def Hdr.bytesWith (h : Hdr) (route : BitVec 16) : List Byte :=
  leBytes 4 h.w0.toNat ++ leBytes 4 h.w1.toNat ++ leBytes 4 h.epoch.toNat ++ leBytes 2 h.pkey.toNat ++
    leBytes 2 h.seq.toNat ++ leBytes 2 route.toNat ++ leBytes 2 h.h12.toNat ++ leBytes 8 h.bcv.toNat

/-- The path check that a packet should carry (R188). -/
def Pkt.goodPchk (p : Pkt) : BitVec 32 := crc32c (p.hdr.bytesWith 0 ++ p.payload)

/-- The packet with its path check written. -/
def Pkt.sealed (p : Pkt) : Pkt := { p with hdr := { p.hdr with pchk := p.goodPchk } }

/-- The 32 bytes of a control packet, path check included. -/
def Hdr.bytes (h : Hdr) : List Byte := h.bytesWith h.route ++ leBytes 4 h.pchk.toNat

/-- The header that 32 bytes spell (Table 6.1). -/
def hdrOf (bs : List Byte) : Hdr :=
  { w0 := BitVec.ofNat 32 (leAt bs 0 4), w1 := BitVec.ofNat 32 (leAt bs 4 4), epoch := BitVec.ofNat 32 (leAt bs 8 4)
    pkey := BitVec.ofNat 16 (leAt bs 0x0C 2), seq := BitVec.ofNat 16 (leAt bs 0x0E 2)
    route := BitVec.ofNat 16 (leAt bs 0x10 2), h12 := BitVec.ofNat 16 (leAt bs 0x12 2)
    bcv := wordAt bs 0x14, pchk := BitVec.ofNat 32 (leAt bs 0x1C 4) }

/-- A control packet from its fields (Table 6.1). -/
def ctrlHdr (dst src : FAddr) (epoch pkey opcode sub context : Nat) (arg : BitVec 32) (vc : Nat) : Hdr :=
  { w0 := BitVec.ofNat 32 (dst.toNat + 2 ^ 28), w1 := src.zeroExtend 32, epoch := BitVec.ofNat 32 epoch
    pkey := BitVec.ofNat 16 pkey, route := routeOf vc false 0 0, h12 := BitVec.ofNat 16 (opcode * 256)
    bcv := at_ context 0 ||| at_ sub 24 ||| at_ arg.toNat 32 }

/-! Management packets and frames (R218, R219, R222). -/

/-- The bytes of a register item (Table 7.7). -/
def regItemBytes (i : RegItem) : List Byte :=
  [i.op, i.status, 0, 0] ++ leBytes 4 i.offset.toNat ++ wordBytes i.value

/-- A MGMT payload: the 16-byte header, the body, and zeros up to the smallest multiple of 64 bytes, at least 256 (R219, Table 7.1). -/
def mgmtPayload (mtype count tag : Nat) (arg : Word) (body : List Byte) : List Byte :=
  let bs := leBytes 2 mtype ++ leBytes 2 count ++ leBytes 4 tag ++ wordBytes arg ++ body
  bs ++ List.replicate (Nat.max 256 ((bs.length + 63) / 64 * 64) - bs.length) 0

/-- A MGMT packet: TYPE 2, FMT 15, key 0, SEQ 0, on VC2, with its block check value (R183, R187, R218). -/
def mgmtPkt (dst src : FAddr) (epoch : Nat) (payload : List Byte) : Pkt :=
  { hdr := { w0 := BitVec.ofNat 32 (dst.toNat + 2 * 2 ^ 28), w1 := BitVec.ofNat 32 (src.toNat + 15 * 2 ^ 28), epoch := BitVec.ofNat 32 epoch
             route := routeOf 2 false 0 0, h12 := BitVec.ofNat 16 ((payload.length / 64 - 1) * 16), bcv := crc64 payload }
    payload := payload }

/-- One bit of the CRC-32 of IEEE 802.3, reflected. -/
def fcsBit (crc : BitVec 32) : BitVec 32 := if crc.getLsbD 0 then (crc >>> 1) ^^^ 0xEDB88320 else crc >>> 1

/-- The frame check sequence of IEEE 802.3 over a byte string (R222; log 187). -/
def frameFcs (bs : List Byte) : BitVec 32 :=
  ~~~(bs.foldl (fun (c : BitVec 32) (b : Byte) => [0, 1, 2, 3, 4, 5, 6, 7].foldl (fun c _ => fcsBit c) (c ^^^ b.zeroExtend 32)) 0xFFFFFFFF)

/-- A number in the byte order of an Ethernet header. -/
def beBytes (n v : Nat) : List Byte := (leBytes n v).reverse

/-- Bytes of a packet without flit padding: header and payload. -/
def Pkt.bytes (p : Pkt) : List Byte := p.hdr.bytes ++ p.payload

/-- The bytes that a packet's header says it has. -/
def Hdr.size (h : Hdr) : Nat := if h.isControl then 32 else 32 + 64 * (h.len + 1)

/-- The Ethernet frame of a packet: MAC addresses, the 802.1Q tag and EtherType that AG_NET gives, the shim, the packet, padding to the least frame and the FCS (R222; log 187). -/
def etherFrame (dst src : Nat) (net : Word) (p : Pkt) : List Byte :=
  let tag := if net.getLsbD 13 then beBytes 2 0x8100 ++ beBytes 2 (fld net 11 0) else []
  let bs := beBytes 6 dst ++ beBytes 6 src ++ tag ++ beBytes 2 (fld net 47 32) ++ [1, 0] ++ leBytes 2 p.bytes.length ++ p.bytes
  let bs := bs ++ List.replicate (60 - bs.length) 0
  bs ++ leBytes 4 (frameFcs bs).toNat

end Sys2Proof.Machine
end

