-- ==== Sys2Proof/Machine/AgWay.lean ====
section
/-! DEFINITION. The agent's tables, counters, ports and links, and the way of a packet: malformation, partition checks, routes, detours, virtual channels and the link queues (R32, R169, R183 to R195, R203, R206, R217). -/

namespace Sys2Proof.Machine

/-! Tables (Table 6.5, R169, R283, R306). -/

/-- Words per element of a table. -/
def tblWords (t : Nat) : Nat :=
  if t = 3 ∨ t = 5 then 2 else if t = 6 then 8 else if t = 7 then 64 else if t = 9 then 4 else 1

/-- Elements of a table, 0 for no table. -/
def tblCount (t : Nat) : Nat :=
  if t = 1 then 256 else if t = 2 then 4096 else if t = 3 then 16 else if t = 4 then 8 else if t = 5 then 16384
  else if t = 6 then 1 else if t = 7 then 9 else if t = 8 then 256 else if t = 9 then 16 * 4 else 0

/-- Tables of an agent kind that have a staging copy, ascending (Table 9.1). -/
def stagedTables (isSwitch : Bool) : List Nat := if isSwitch then [8] else [1, 2, 3, 4, 5, 6, 9]

/-- The key of a word of a bank. -/
def bankKey (t e w : Nat) : Nat := t * 0x100000 + e * tblWords t + w

/-- A word of a bank. -/
def Bank.word (b : Bank) (t e w : Nat) : Word := FMap.getD b (bankKey t e w) 0

/-- Writes a word of a bank. -/
def Bank.setWord (b : Bank) (t e w : Nat) (v : Word) : Bank := FMap.put b (bankKey t e w) v 0

/-- Word w of the installed PARAMS (Table 6.11). -/
def Agent.param (a : Agent) (w : Nat) : Word := Bank.word a.bank 6 0 w

/-- PARAMS HANDLE -/
def Agent.handle (a : Agent) : Nat := fld (a.param 4) 63 48

/-- PARAMS EPOCH -/
def Agent.epoch (a : Agent) : Nat := fld (a.param 4) 47 16

/-- PARAMS PKEY -/
def Agent.pkey (a : Agent) : Nat := fld (a.param 4) 15 0

/-- PARAMS REGIME is B -/
def Agent.regimeB (a : Agent) : Bool := (a.param 0).getLsbD 0

/-! Counters (R217, Table 6.13). -/

/-- A counter of a port, 8 the local port. -/
def Agent.count (a : Agent) (port w : Nat) : Word := a.cnt.getD (64 * port + w) 0

/-- Writes a counter. -/
def Agent.setCount (a : Agent) (port w : Nat) (v : Word) : Agent := { a with cnt := a.cnt.put (64 * port + w) v 0 }

/-- Adds to a counter of kind C, modulo 2^64. -/
def Agent.bump (a : Agent) (port w : Nat) (n : Nat := 1) : Agent := a.setCount port w (a.count port w + BitVec.ofNat 64 n)

/-- Raises a high-water mark. -/
def Agent.highest (a : Agent) (port w v : Nat) : Agent :=
  if (a.count port w).toNat < v then a.setCount port w (BitVec.ofNat 64 v) else a

/-- The agent's own copy of fabric time (FT_NS). -/
def Agent.ft (a : Agent) (s : State) : Nat := (Int.ofNat s.now + a.ftOff).toNat

/-- LIFE code (Table 7.6). -/
def Life.code : Life → Nat
  | .rom => 0
  | .loading => 1
  | .verifying => 2
  | .running => 3
  | .fwFault => 4
  | .rejected => 5

/-- Bytes of the read-only image region and its start (R226). -/
abbrev imageBase : Nat := 0x80000

/-- An address of SRAM lies in the image region (R226). -/
def inImage (a : Nat) : Bool := decide (imageBase ≤ a) && decide (a < 0x200000)

/-! Ports and links. -/

/-- Installed PORTS entry of a port (Table 6.8). -/
def Agent.portWord (a : Agent) (p : Nat) : Word := Bank.word a.bank 4 p 0

/-- The port is in use. -/
def Agent.portValid (a : Agent) (p : Nat) : Bool := (a.portWord p).getLsbD 20

/-- Links of a port, ascending. -/
def Agent.portLinks (a : Agent) (p : Nat) : List Nat := (List.range 16).filter fun n => a.portValid p && (a.portWord p).getLsbD n

/-- A link of the agent. -/
def Agent.link (a : Agent) (n : Nat) : Link := a.links.getD n {}

/-- Changes a link. -/
def Agent.onLink (a : Agent) (n : Nat) (f : Link → Link) : Agent := { a with links := a.links.set n (f (a.link n)) }

/-- A link is live (R25). -/
def Agent.linkLive (a : Agent) (n : Nat) : Bool := (a.link n).live

/-- A lane of a link. -/
def Link.lane (l : Link) (n : Nat) : Lane := l.lanes.getD n {}

/-- A virtual channel of a link. -/
def Link.vc (l : Link) (n : Nat) : LinkVc := l.vcs.getD n {}

/-- Lanes in use of a link. -/
def Link.inUse (l : Link) : Nat := ((List.range 4).filter fun n => (l.lane n).inUse).length

/-- A port has a live link (R33). -/
def Agent.portLive (a : Agent) (p : Nat) : Bool := (a.portLinks p).any a.linkLive

/-- The port whose counters a link's counts are kept with: its logical port, else the default grouping (R217, Table 1.5). -/
def Agent.countPort (a : Agent) (n : Nat) : Nat := ((List.range 8).find? fun p => (a.portLinks p).contains n).getD (n / 2)

/-- QUAY_VALID (Table 6.11). -/
def Agent.quayValid (a : Agent) : Bool := (a.param 5).getLsbD 20

/-- QUAY_LINK (Table 6.11). -/
def Agent.quayLink (a : Agent) : Nat := fld (a.param 5) 19 16

/-- The counter port of an output: a logical port, or the quay link's (R217). -/
def Agent.outCount (a : Agent) (port : Nat) : Nat := if port = 8 then a.countPort a.quayLink else port

/-- Dimension 0 W to 3 Z of a port's DIR; none for the quay link and for injection (R191, R195). -/
def Agent.portDim (a : Agent) (p : Nat) : Option Nat := if p < 8 then some (fld (a.portWord p) 18 17) else none

/-! Malformation (R185). -/

/-- The control opcodes of Tables 6.4, 7.3 and 9.3. -/
def knownControl (op : Nat) : Bool :=
  (decide (1 ≤ op) && decide (op ≤ 4)) || (decide (0x10 ≤ op) && decide (op ≤ 0x16)) || (decide (0x20 ≤ op) && decide (op ≤ 0x25))

/-- VC and DETOUR fit the packet's class. -/
def vcFits (h : Hdr) : Bool :=
  if h.detour then h.vc == 4 || h.vc == 5
  else if h.typ = 0 then h.vc == 0 || h.vc == 1
  else h.vc == 2 || h.vc == 3

/-- MCAST is set and DST differs from SRC in a coordinate other than MDIM; for a controller's packet the agent's own address stands for SRC (R185, R374). -/
def mcastBad (own : FAddr) (h : Hdr) : Bool :=
  let src := if addrKind h.src = 2 then own else h.src
  h.mcast && (List.range 4).any fun k => k != h.mdim && coordOf src k != coordOf h.dst k

/-- The packet is malformed (R185). -/
def malformed (own : FAddr) (h : Hdr) : Bool :=
  decide (3 ≤ h.typ) || h.route.getLsbD 15 || !vcFits h || mcastBad own h ||
    (if h.isControl then !knownControl h.opcode || h.fmt != 0 || bits h.h12.toNat 7 3 != 0
     else decide (h.len < 3) || (h.fmt != 15 && (decide (12 ≤ h.fmt) || h.typ == 2)))

/-! Partition checks (R49, R196). -/

/-- The outcome of the partition checks. -/
inductive PartDec where
  | ok | keyBad | epochBad
  deriving DecidableEq, Repr

/-- Controller traffic: key 0 with a controller as source or destination (R49). -/
def controllerTraffic (h : Hdr) : Bool := h.pkey == 0 && (addrKind h.src == 2 || addrKind h.dst == 2)

/-- Management traffic: MGMT packets, and control packets with OPCODE 0x20 to 0x3F (R218). -/
def Hdr.isMgmt (h : Hdr) : Bool := h.typ == 2 || (h.isControl && decide (0x20 ≤ h.opcode))

/-- The partition checks of a port; a quay link takes only key 0, and so does management traffic (R34, R49, R196, R218; log 151). -/
def Agent.partition (a : Agent) (h : Hdr) (quay : Bool) : PartDec :=
  if controllerTraffic h then .ok
  else if quay ∨ h.isMgmt ∨ !a.assigned ∨ a.handle = 0 ∨ h.pkey = 0 ∨ h.pkey = 0xFFFF ∨ h.pkey.toNat ≠ a.pkey then .keyBad
  else if h.epoch.toNat ≠ a.epoch then .epochBad
  else .ok

/-! Routes (R191, R195, R206). -/

/-- How a header leaves. -/
inductive Way where
  | port (p : Nat) (h : Hdr)
  /-- Dropped, with the counter word -/
  | drop (word : Nat)
  /-- Dropped for want of a detour at a dead port -/
  | noDetour (p : Nat)
  /-- The dead port's detour is not yet applied (R207) -/
  | wait (p : Nat)
  deriving DecidableEq, Repr

/-- The header's VC for an output port, from the previous hop's port, 8 for injection and the quay link (R191). -/
def Agent.setVc (a : Agent) (h : Hdr) (prev out : Nat) : Hdr :=
  let cls := if h.detour then 2 else if h.typ = 0 then 0 else 1
  let upper := if a.portDim out = a.portDim prev then h.vc % 2 else 0
  let upper := if out < 8 ∧ (a.portWord out).getLsbD 19 then 1 else upper
  { h with route := routeOf (2 * cls + upper) h.detour h.dleft h.dpath }

/-- The hop ports of a DETOUR word, up to its end byte (R206). -/
def detourHops (w : Word) : List Nat := (wordBytes w).takeWhile (· != 0xFF) |>.map (·.toNat)

/-- A DETOUR word is valid and its first port is live. -/
def Agent.detourFit (a : Agent) (w : Word) : Bool :=
  let l := detourHops w
  decide (0 < l.length) && decide (l.length ≤ 4) && l.all (· < 8) && a.portLive (l.head?.getD 8)

/-- The detour of a dead port: first choice, else second (R206). -/
def Agent.detourOf (a : Agent) (p : Nat) : Option (List Nat) :=
  match (a.portLinks p).head? with
  | none => none
  | some n =>
    if a.detourFit (Bank.word a.bank 3 n 0) then some (detourHops (Bank.word a.bank 3 n 0))
    else if a.detourFit (Bank.word a.bank 3 n 1) then some (detourHops (Bank.word a.bank 3 n 1))
    else none

/-- A header that has selected a dead port takes its detour, or is dropped (R206). -/
def Agent.takeDetour (a : Agent) (h : Hdr) (prev p : Nat) : Way :=
  if h.detour then .drop 31
  else match a.detourOf p with
    | none => .noDetour p
    | some l =>
      let path := l.getD 1 0 + l.getD 2 0 * 8 + l.getD 3 0 * 64
      let h := { h with route := routeOf h.vc true (l.length - 1) path }
      .port (l.headD 0) (a.setVc h prev (l.headD 0))

/-- The lowest-indexed valid EXCEPTION entry of a bank that matches an address (R195, Table 6.7). -/
def bankException (b : Bank) (d : FAddr) : Option Word :=
  ((List.range 4096).find? fun i =>
    let e := Bank.word b 2 i 0
    e.getLsbD 63 && decide (fld e 57 56 < 2) && addrKind (e.truncate 28) == addrKind d &&
      ((e.truncate 24 ^^^ d.truncate 24) &&& (BitVec.ofNat 24 (fld e 51 28)) == 0)).map fun i => Bank.word b 2 i 0

/-- The port that a bank's tables name for a destination: the EXCEPTION entry, else the DIM entry of the first dimension that differs; none where it is unreachable (R195). -/
def bankPort (b : Bank) (own d : FAddr) : Option Nat :=
  match bankException b d with
  | some e => if fld e 57 56 = 1 then none else some (fld e 54 52)
  | none =>
    if addrKind d ≠ 0 then none
    else match [3, 2, 1, 0].find? fun k => coordOf d k != coordOf own k with
      | none => none
      | some k =>
        let e := Bank.word b 1 (64 * k + coordOf d k) 0
        if e.getLsbD 4 then some (fld e 2 0) else none

/-- The port that a header selects before detours: a port, 8 for the quay link, or unreachable (R195). -/
def Agent.select (a : Agent) (h : Hdr) : Option (Nat × Hdr) :=
  if addrKind h.dst = 2 ∧ a.quayValid ∧ a.linkLive a.quayLink then some (8, h)
  else if h.detour ∧ 0 < h.dleft then
    some (h.dpath % 8, { h with route := routeOf h.vc true (h.dleft - 1) (h.dpath / 8) })
  else (bankPort a.bank a.addr h.dst).map fun p => (p, h)

/-- Where a header that is not for this agent goes (R195, R206, R207). -/
def Agent.wayOf (a : Agent) (h : Hdr) (prev : Nat) : Way :=
  match a.select h with
  | none => .drop 30
  | some (p, h) =>
    if p = 8 then .port 8 (a.setVc h prev 8)
    else if a.portLive p then .port p (a.setVc h prev p)
    else if a.deadPorts.getLsbD p ∧ !a.detoured.getLsbD p ∧ !h.detour then .wait p
    else a.takeDetour h prev p

/-! Counting and queueing. -/

/-- Flits of a packet (R183). -/
def Hdr.flits (h : Hdr) : Nat := if h.isControl then 1 else h.len + 2

/-- The pair of a VC: 0 data, 1 control, 2 detour. -/
def vcPair (vc : Nat) : Nat := vc / 2

/-- The links of an output: those of a logical port, or the quay link. -/
def Agent.outLinks (a : Agent) (out : Nat) : List Nat := if out = 8 then [a.quayLink] else a.portLinks out

/-- A hash picks among links; a pick that is dead is struck out and the rest is picked from, so that a flow keeps its link while that link lives (R32; log 189). -/
def pickLink (live : Nat → Bool) (hash : Nat) : Nat → List Nat → Option Nat
  | 0, _ => none
  | fuel + 1, l =>
    match l[hash % l.length]? with
    | none => none
    | some n => if live n then some n else pickLink live hash fuel (l.erase n)

/-- The live link of an output on which a header's flow goes: by the hash of source, destination and VC (R32, R33). -/
def Agent.linkFor (a : Agent) (out : Nat) (h : Hdr) : Option Nat :=
  pickLink a.linkLive (Config.linkHash h.src.toNat h.dst.toNat h.vc) 16 (a.outLinks out)

/-- Flits that wait on a pair of channels of the links whose counts a port keeps. -/
def Agent.depthNow (a : Agent) (p pair : Nat) : Nat :=
  (a.outq.filter fun e => a.countPort e.1 == p).foldl (fun k e =>
    (e.2.q.filter fun v => vcPair v.1 == pair).foldl (fun k v => v.2.foldl (fun k x => k + x.left) k) k) 0

/-- A packet waits at the link of its flow, under the header with which it leaves, and the high-water mark follows (R32, Table 6.13). -/
def Agent.enqueue (a : Agent) (out : Nat) (h : Hdr) (q : Queued) : Agent :=
  match a.linkFor out h with
  | none => a
  | some n =>
    let o := a.outq.getD n {}
    let a := { a with outq := a.outq.set n { o with q := o.q.set h.vc (o.q.getD h.vc [] ++ [{ q with flits := h.flits, left := h.flits }]) } }
    a.highest (a.countPort n) (17 + vcPair h.vc) (a.depthNow (a.countPort n) (vcPair h.vc))

/-- The dead port that a header would have used, when it newly takes a detour. -/
def newDetour (h h' : Hdr) (a : Agent) : Option Nat :=
  if h'.detour && !h.detour then (a.select h).map (·.1) else none

/-- A packet takes an output: it waits at its link and counts as sent onto a detour, or as one in transit (Table 6.13). -/
def Agent.forwarded (a : Agent) (out : Nat) (h' : Hdr) (q : Queued) : Agent :=
  let d := newDetour q.p.hdr h' a
  let a := a.enqueue out h' q
  match d with
  | some p => a.bump p 33
  | none => if h'.detour then a.bump (a.outCount out) 34 else a

/-! What an agent sends of itself. -/

/-- A control packet of the agent under a key and epoch. -/
def Agent.ctrlPkt (a : Agent) (dst : FAddr) (epoch pkey opcode sub context : Nat) (arg : BitVec 32) : Pkt :=
  { hdr := ctrlHdr dst a.addr epoch pkey opcode sub context arg 2 }

/-- The address of a controller unit, 0 the active one (R23). -/
def ctrlUnit (unit : Nat) : FAddr := BitVec.ofNat 28 (0x2000000 + unit)

/-- A packet of the agent's own takes its output: routed from the local port with VC and path check set, or it waits for a dead port, or it is dropped and counted; a switch agent has no ports to choose from (R40, R195). -/
def launchQuiet (s : State) (id : Nat) (p : Pkt) : State :=
  match s.agents.get id with
  | none => s
  | some a =>
    if a.hc.isSwitch then s.emit (.agPkt id p.sealed)
    else match a.wayOf p.hdr 8 with
      | .drop w => s.onAgent id fun a => a.bump 8 w
      | .noDetour _ => s.onAgent id fun a => a.bump 8 31
      | .wait q => s.onAgent id fun a => { a with waiting := a.waiting ++ [(q, { p := p })] }
      | .port out h =>
        (s.emit (.agPkt id ({ p with hdr := h }).sealed)).onAgent id fun a => a.forwarded out h { p := p }

/-- MAC address of a controller unit as ASSIGN gave it, 0 the one that asked last (R451). -/
def Agent.ctrlMac (a : Agent) (unit : Nat) : Nat :=
  if (if unit = 0 then a.lastCtrl else unit) = 2 then a.ctrlMac2 else a.ctrlMac1

/-- A packet of the agent's own toward a controller unit on one network: a frame, or a packet of the tensor network, which an agent without an address does not use (R222, R224, R451). -/
def agentSend (s : State) (id : Nat) (net : Net) (unit : Nat) (p : Pkt) : State :=
  match s.agents.get id with
  | none => s
  | some a =>
    match net with
    | .ordinary => s.emit (.agFrame id (etherFrame (a.ctrlMac unit) a.hc.mac a.net p.sealed))
    | .tensor => if a.assigned then launchQuiet s id p else s

/-- A control packet of agent management or installation toward a controller unit: key 0, SEQ 0 (R218, R220). -/
def agentCtrl (s : State) (id : Nat) (net : Net) (unit opcode sub : Nat) (context : BitVec 24) (arg : BitVec 32) : State :=
  match s.agents.get id with
  | none => s
  | some a => agentSend s id net unit (a.ctrlPkt (ctrlUnit unit) a.epoch 0 opcode sub context.toNat arg)

/-- A MGMT packet toward a controller unit: key 0, SEQ 0 (R218, R219). -/
def agentMgmt (s : State) (id : Nat) (net : Net) (unit mtype count : Nat) (tag : BitVec 32) (arg : Word) (body : List Byte) : State :=
  match s.agents.get id with
  | none => s
  | some a => agentSend s id net unit (mgmtPkt (ctrlUnit unit) a.addr a.epoch (mgmtPayload mtype count tag.toNat arg body))

/-- A network joins the agent to the controller: the ordinary one, or for an assigned agent the tensor network while its tables and ports give a way (R15, R17, R224; log 188). -/
def Agent.reaches (a : Agent) (id now : Nat) (net : Net) : Bool :=
  match net with
  | .ordinary => Config.netReaches 0 id now
  | .tensor =>
    a.assigned && Config.netReaches 1 id now &&
      match a.wayOf (ctrlHdr (ctrlUnit 0) a.addr 0 0 0x20 0 0 0 2) 8 with
      | .port _ _ => true
      | .wait _ => true
      | .drop _ => false
      | .noDetour _ => false

/-- The other network. -/
def Net.other : Net → Net
  | .ordinary => .tensor
  | .tensor => .ordinary

/-- The network of a traffic class: its primary one, and the other only when the primary cannot reach and the other can (R15, Table 1.1). -/
def agentNet (s : State) (id : Nat) (primary : Net) : Net :=
  match s.agents.get id with
  | none => primary
  | some a => if !a.reaches id s.now primary && a.reaches id s.now primary.other then primary.other else primary

end Sys2Proof.Machine
end

