-- ==== Sys2Proof/Machine/AgentOps.lean ====
section
/-! DEFINITION. Shared operations of agents: the event buffer, drops and sending, answers to the controller, exceptions of firmware and wake causes (R15 to R17, R22, R169, R182, R185, R196, R206, R221, R231, R237, R238, R378 to R380). -/

namespace Sys2Proof.Machine

/-! The event buffer (R237, R238, R378 to R380). -/

/-- DEGRADED or above. -/
def Cls.high (c : Cls) : Bool := decide (2 ≤ c.code)

/-- The order in which records are displaced: POWER_SAMPLE, NOTE, CORRECTED; 3 and above are never displaced (R379). -/
def Rec.rank (r : Rec) : Nat := if r.kind = 0x188 then 0 else r.cls.code + 1

/-- Merges a new record into a held one (R378). -/
def Rec.merge (held new : Rec) : Rec :=
  { held with count := satAdd 0xFFFFFFFF held.count new.count, lastTime := new.lastTime, coalesced := true }

/-- Replaces the first element that satisfies a test. -/
def replaceFirst {α : Type} (p : α → Bool) (f : α → α) : List α → List α
  | [] => []
  | x :: xs => if p x then f x :: xs else x :: replaceFirst p f xs

/-- Takes out the last element that satisfies a test. -/
def dropLast {α : Type} (p : α → Bool) (l : List α) : List α := (l.reverse.eraseP p).reverse

/-- The lowest rank among the elements that may be displaced, 9 for none. -/
def lowestRank {α : Type} (rank : α → Option Nat) (l : List α) : Nat :=
  l.foldl (fun m x => Nat.min m ((rank x).getD 9)) 9

/-- A full store takes a new element in place of the most recently taken one of the lowest class, when that class is below the new one's; none when nothing can be displaced (R379). -/
def displace {α : Type} (rank : α → Option Nat) (newRank : Nat) (l : List α) : Option (List α) :=
  let m := lowestRank rank l
  if m < newRank ∧ m < 3 then some (dropLast (fun x => rank x == some m) l) else none

/-- What a held record of the agent buffer ranks: only unsent records other than the first-fault record and EVT_SPOIL can be displaced (R238, R380). -/
def EvtRec.rank (e : EvtRec) : Option Nat :=
  if e.eseq.isSome || e.first || e.r.kind == 0x187 then none else some e.r.rank

/-- The record merges into an unsent one of the same UNIT, KIND and CLASS. -/
def EvtRec.sameUnsent (r : Rec) (e : EvtRec) : Bool :=
  e.eseq.isNone && e.r.unit == r.unit && e.r.kind == r.kind && e.r.cls == r.cls

/-- Records beside the reserved entry (R238). -/
def EvtBuf.plain (b : EvtBuf) : Nat := (b.recs.filter fun e => !e.first).length

/-- A record enters the buffer: first-fault record, merge, free entry, displacement, or loss counted in SPOIL (R238, R378, R379). -/
def EvtBuf.take (b : EvtBuf) (r : Rec) : EvtBuf :=
  if r.cls.high && !b.firstHeld then { b with recs := b.recs ++ [{ r := r, first := true }], firstHeld := true }
  else if r.kind = 0x187 ∧ b.recs.any (fun e => e.eseq.isNone && e.r.kind == 0x187) then
    { b with recs := replaceFirst (fun e => e.eseq.isNone && e.r.kind == 0x187) (fun e => { e with r := r }) b.recs }
  else if b.recs.any (EvtRec.sameUnsent r) then
    { b with recs := replaceFirst (EvtRec.sameUnsent r) (fun e => { e with r := e.r.merge r }) b.recs }
  else if b.plain < 4095 then { b with recs := b.recs ++ [{ r := r }] }
  else match displace EvtRec.rank r.rank b.recs with
    | some l => { b with recs := l ++ [{ r := r }], spoil := satAdd 0xFFFF b.spoil 1 }
    | none => { b with spoil := satAdd 0xFFFF b.spoil 1 }

/-- Unsent records. -/
def EvtBuf.unsent (b : EvtBuf) : List EvtRec := b.recs.filter fun e => e.eseq.isNone

/-- An EVENTS packet is due without waiting: 63 unsent records, or one of class DEGRADED or above (R378). -/
def EvtBuf.due (b : EvtBuf) : Bool := decide (63 ≤ b.unsent.length) || b.unsent.any fun e => e.r.cls.high

/-- Gives ESEQ to the first n unsent records, from `next` on (R237). -/
def numberUnsent : Nat → Nat → List EvtRec → List EvtRec
  | _, _, [] => []
  | 0, _, l => l
  | n + 1, next, e :: l =>
    match e.eseq with
    | some _ => e :: numberUnsent (n + 1) next l
    | none => { e with eseq := some next } :: numberUnsent n (next + 1) l

/-- The network of an agent's fault records: the tensor network, the ordinary one where that does not reach, none where neither does (R15, R17, R238). -/
def Agent.eventsNet (a : Agent) (id now : Nat) : Option Net :=
  if a.reaches id now .tensor then some .tensor else if a.reaches id now .ordinary then some .ordinary else none

/-- An EVENTS packet toward the active controller: its first ESEQ and its records (R237, R238, Table 7.2). -/
def eventsPacket (s : State) (id : Nat) (net : Net) (first : Nat) (recs : List Rec) : State :=
  agentMgmt s id net 0 0x0010 recs.length 0 (BitVec.ofNat 64 first) (recs.flatMap (·.bytes))

/-- Sends one EVENTS packet of up to 63 unsent records, while fewer than 4 are unacknowledged and a network reaches the controller (R17, R238, R378). -/
def sendEvents (s : State) (id : Nat) : State :=
  match s.agents.get id with
  | none => s
  | some a =>
    let l := a.evt.unsent.take 63
    match a.eventsNet id s.now with
    | none => s
    | some net =>
      if l = [] ∨ 4 ≤ a.evt.packets.length then s
      else (eventsPacket s id net a.evt.next (l.map (·.r))).onAgent id fun x =>
        { x with evt := { x.evt with recs := numberUnsent l.length x.evt.next x.evt.recs, next := x.evt.next + l.length
                                     packets := x.evt.packets ++ [x.evt.next + l.length - 1] } }

/-- Sends EVENTS packets while one is due. -/
def flushDue (s : State) (id : Nat) : Nat → State
  | 0 => s
  | n + 1 =>
    match s.agents.get id with
    | none => s
    | some a => if a.evt.due && decide (a.evt.packets.length < 4) then flushDue (sendEvents s id) id n else s

/-- A record as an agent fills it: SOURCE, TEMP, VOLT, times and ISLAND (R342). -/
def Agent.fill (a : Agent) (s : State) (r : Rec) : Rec :=
  { r with source := a.addr, temp := a.temp, volt := Config.supplyMv r.unit.toNat s.now, firstTime := a.ft s
           lastTime := a.ft s, island := a.handle }

/-- Posts a record of an agent into its event buffer. -/
def agentPost (s : State) (id : Nat) (r : Rec) : State :=
  match s.agents.get id with
  | none => s
  | some a => flushDue { s.onAgent id fun x => { x with evt := x.evt.take (a.fill s r) } with nonce := s.nonce + 1 } id 4

/-- Posts a record by unit, kind, class and details; those that the spec does not give are free (log 11). -/
def agentFault (s : State) (id unit kind : Nat) (cls : Cls) (d0 : Word := Config.openDetail kind 0 s.nonce [])
    (d1 : Word := Config.openDetail kind 1 s.nonce []) : State :=
  agentPost s id { unit := BitVec.ofNat 12 unit, kind := BitVec.ofNat 12 kind, cls := cls, detail0 := d0, detail1 := d1 }

/-! Drops, and what an agent sends of itself. -/

/-- A drop of a header at a port: its counter, and its record where the spec gives one (R22, R185, R196, R206); INVALID_ADDRESS holds the destination in DETAIL0, and the port in a place that the spec does not give (log 11). -/
def countDrop (s : State) (id port word : Nat) (h : Hdr) : State :=
  let s := s.onAgent id fun a => a.bump port word
  if word = 47 then agentFault s id 0 0x105 .note
  else if word = 29 then agentFault s id 0 0x10A .note (h.dst.zeroExtend 64) (Config.openDetail 0x10A 1 s.nonce [port])
  else if word = 27 then agentFault s id 0 0x106 .note
  else if word = 28 then agentFault s id 0 0x107 .note
  else s

/-- A drop for want of a detour is counted, and NO_DETOUR is recorded once per port death (R206). -/
def dropNoDetour (s : State) (id port p : Nat) : State :=
  match s.agents.get id with
  | none => s
  | some a =>
    let s := s.onAgent id fun a => a.bump port 31
    if a.noDetour.getLsbD p then s
    else agentFault (s.onAgent id fun a => { a with noDetour := a.noDetour ||| BitVec.ofNat 8 (2 ^ p) }) id 0 0x102 .degraded
      (Config.openDetail 0x102 0 s.nonce [p])

/-- Sends a packet of the agent's own into the fabric; where a dead port has no detour, NO_DETOUR is recorded (R195, R206). -/
def launch (s : State) (id : Nat) (p : Pkt) : State :=
  match (s.agents.get id).map (fun a => (a.hc.isSwitch, a.wayOf p.hdr 8)) with
  | some (false, Way.noDetour q) => dropNoDetour s id 8 q
  | _ => launchQuiet s id p

/-! Exceptions and causes of the micro-sequencer (R157, R182, R231). -/

/-- Exceptions within the last second. -/
def recentExcs (a : Agent) (now : Nat) : List Nat := a.excTimes.filter fun t => decide (now < t + 1000000000)

/-- An exception ends the routine: the record is posted, and the sequencer restarts at RECOVER, counted in RESTARTS, or stops in FW_FAULT at the third within 1 s; of the two records of one moment the higher class enters first (R182, R231, R237, R349). -/
def agentException (s : State) (id code : Nat) (pc info : Word) : State :=
  match s.agents.get id with
  | none => s
  | some a =>
    let r : Rec := { unit := 0x002, kind := 0x040, cls := if code = 0x07 then .uncorrected else .note
                     detail0 := Config.openDetail 0x040 0 0 [code, pc.toNat, info.toNat], detail1 := Config.openDetail 0x040 1 0 [code, pc.toNat, info.toNat]
                     address := pc.truncate 56, space := 3 }
    let times := s.now :: recentExcs a s.now
    let s := s.onAgent id fun x => { x with excTimes := times }
    if 3 ≤ times.length then
      let s := s.onAgent id fun x => { x with life := .fwFault, core := { x.core with awaits := none, untilT := none } }
      if r.cls.high then agentFault (agentPost s id r) id 0x002 0x180 .degraded
      else agentPost (agentFault s id 0x002 0x180 .degraded) id r
    else
      (agentPost s id r).onAgent id fun x =>
        let g := ((x.core.g.put 1 (BitVec.ofNat 64 code) 0).put 2 pc 0).put 3 (BitVec.ofNat 64 a.evt.next) 0
        { x with restarts := satAdd 0xFFFF x.restarts 1, core := { x.core with g := g, pc := BitVec.ofNat 64 (imageBase + x.manifest.recover) } }

/-- Latches a wake cause of an agent; a waiting routine that awaits it resumes (R157). -/
def agentCause (s : State) (id bit : Nat) : State :=
  s.onAgent id fun x =>
    let c := x.core
    let c := { c with causes := c.causes ||| BitVec.ofNat 6 (2 ^ bit) }
    { x with core := if (c.awaits.getD 0).getLsbD bit then { c with awaits := none, untilT := none } else c }

/-! TLD and TST on the agent (R169). -/

/-- Table id and staging bit of a handle's table number. -/
def agentTable (h : Word) : Nat × Bool := (fld h 62 48, h.getLsbD 63)

/-- The agent has the table, or its staging copy. -/
def hasTable (a : Agent) (t : Nat) (staging : Bool) : Bool :=
  (stagedTables a.hc.isSwitch).contains t || (t == 7 && !staging)

/-- A word of a table of an agent, none where the handle, index or word does not exist. -/
def agentTableRead (s : State) (id : Nat) (h : Word) (w : Nat) : Option Word :=
  match s.agents.get id with
  | none => none
  | some a =>
    let (t, staging) := agentTable h
    let e := fld h 47 0
    if !hasTable a t staging ∨ tblCount t ≤ e ∨ tblWords t ≤ w then none
    else if t = 7 then some (if w < 48 then a.count e w else 0)
    else some (if staging then Bank.word a.stage t e w else Bank.word a.bank t e w)

/-- A store to a staging word; ACCESS for an installed table, HANDLE where nothing is (R169). -/
def agentTableWrite (s : State) (id : Nat) (h : Word) (w : Nat) (v : Word) : Except Nat State :=
  match s.agents.get id with
  | none => .error 0x12
  | some a =>
    let (t, staging) := agentTable h
    let e := fld h 47 0
    if !staging && hasTable a t false then .error 0x11
    else if !hasTable a t staging ∨ tblCount t ≤ e ∨ tblWords t ≤ w then .error 0x12
    else .ok (s.onAgent id fun x => { x with stage := Bank.setWord x.stage t e w v })

/-! Answers to the controller (R16, R218, R221). -/

/-- A control packet that answers a request: to the unit that asked, with its CONTEXT, on its network (R16, R218). -/
def answerCtrl (s : State) (id : Nat) (q : Req) (opcode sub : Nat) (arg : BitVec 32) : State :=
  agentCtrl s id q.net q.ctrl opcode sub q.context arg

/-- Sends an answer on the network of its request (R16). -/
def emitAnswer (s : State) (id : Nat) (q : Req) (an : Answer) : State :=
  match an with
  | .mgAck st => answerCtrl s id q 0x20 st.toNat q.tag
  | .regRsp items => agentMgmt s id q.net q.ctrl 0x0002 items.length q.tag 0 (items.flatMap regItemBytes)

/-- The unit that sent a management request is the one to which index 0 resolves (R451). -/
def asksNow (s : State) (id : Nat) (q : Req) : State := s.onAgent id fun a => { a with lastCtrl := q.ctrl }

/-- Answers a request and keeps the answer among the last 16 TAGs of its controller unit (R221). -/
def answerReq (s : State) (id : Nat) (q : Req) (an : Answer) : State :=
  let s := emitAnswer s id q an
  s.onAgent id fun x => { x with answers := x.answers.set q.ctrl (((q.tag, an) :: x.answers.getD q.ctrl []).take 16) }

/-- Answers MG_ACK with a status. -/
def mgAck (s : State) (id : Nat) (q : Req) (status : Nat) : State := answerReq s id q (.mgAck (BitVec.ofNat 8 status))

/-- Answers MG_ACK to several requests. -/
def mgAcks (s : State) (id : Nat) (qs : List Req) (status : Nat) : State := qs.foldl (fun t q => mgAck t id q status) s

/-- The requests that an agent has taken and not yet answered: a repeated TAG of one of them is answered with it (R221). -/
def openReqs (a : Agent) : List Req :=
  a.rst.asks ++ a.rst.nextAsks ++ a.scrub.asks ++ (a.keys.queue.filterMap (·.ask)) ++ ((a.keys.running.bind (·.ask)).toList) ++
    a.integ.patHeld.map (·.1)

/-- A management request reaches an agent, and its unit becomes the one that asked last (R451): a repeated TAG is answered from the store without acting again, and one still open is left to its answer; else `act` serves it (R221). -/
def onRequest (s : State) (id : Nat) (q : Req) (act : Agent → State → State) : State :=
  match s.agents.get id with
  | none => s
  | some a =>
    if a.inReset then s
    else match (a.answers.getD q.ctrl []).find? (fun p => p.1 == q.tag && q.tag != 0) with
      | some p => emitAnswer (asksNow s id q) id q p.2
      | none =>
        if (openReqs a).any (fun r => r.tag == q.tag && r.ctrl == q.ctrl && q.tag != 0) then asksNow s id q else act a (asksNow s id q)

/-- Runs an operation on an agent that exists and is out of reset. -/
def onLive (s : State) (id : Nat) (act : Agent → State) : State :=
  match s.agents.get id with
  | none => s
  | some a => if a.inReset then s else act a

end Sys2Proof.Machine
end

