-- ==== Sys2Proof/Machine/Operands.lean ====
section
/-! DEFINITION. Aglek registers, instruction fields and legality, memory places, exceptions, and the prologue that every instruction runs (R120 to R135). -/

namespace Sys2Proof.Machine

/-! Registers (Table 4.1). -/

/-- g register n; g0 reads zero. -/
def Core.getG (c : Core) (n : Nat) : Word := if n = 0 then 0 else c.g.getD n 0

/-- Writes g register n; a write to g0 is discarded. -/
def Core.setG (c : Core) (n : Nat) (v : Word) : Core := if n = 0 then c else { c with g := c.g.put n v 0 }

/-- k register n; k0 reads 0xFFFF. -/
def Core.getK (c : Core) (n : Nat) : BitVec 16 := if n = 0 then 0xFFFF else c.k.getD n 0

/-- Writes k register n; a write to k0 is discarded. -/
def Core.setK (c : Core) (n : Nat) (v : BitVec 16) : Core := if n = 0 then c else { c with k := c.k.put n v 0 }

/-- Lane i of v register n. -/
def Core.getV (c : Core) (n i : Nat) : Word := c.v.getD (16 * n + i) 0

/-- Writes lane i of v register n. -/
def Core.setV (c : Core) (n i : Nat) (v : Word) : Core := { c with v := c.v.put (16 * n + i) v 0 }

/-- Source A of an instruction, g[SRCA] (R136). -/
def Core.opA (c : Core) (i : Ins) : Word := c.getG i.srca.toNat

/-- Source B of an instruction, g[SRCB] (R136). -/
def Core.opB (c : Core) (i : Ins) : Word := c.getG i.srcb.toNat

/-- g[DST], read by LOOP, STX, CAS and SEL-like rows. -/
def Core.opD (c : Core) (i : Ins) : Word := c.getG i.dst.toNat

/-- The sign-extended immediate (R136). -/
def Ins.simm (i : Ins) : Word := i.imm.signExtend 64

/-- The zero-extended immediate. -/
def Ins.zimm (i : Ins) : Word := i.imm.zeroExtend 64

/-! Instruction word and legality (R122 to R124). -/

/-- What a register field of a row names. -/
inductive Use where
  | unused | g | v | k
  deriving DecidableEq, Repr

/-- A row of the instruction tables: opcode, MOD values, register fields, used IMM bits, and whether the agent profile has it. -/
structure Row where
  /-- OPCODE -/
  op : Nat
  /-- MOD values that the row lists -/
  mods : List Nat := [0]
  /-- DST field -/
  dst : Use := .g
  /-- SRCA field -/
  srca : Use := .g
  /-- SRCB field -/
  srcb : Use := .g
  /-- IMM bits that the row uses -/
  imm : BitVec 32 := 0
  /-- In the agent profile (R150) -/
  profile : Bool := true
  deriving DecidableEq, Repr

/-- A register field is in range of its file, or zero when unused (R124). -/
def Use.ok : Use → BitVec 5 → Bool
  | .unused, n => n == 0
  | .g, _ => true
  | .v, n => decide (n.toNat < 16)
  | .k, n => decide (n.toNat < 8)

/-- The instruction is legal under its row (R124). -/
def Row.legal (r : Row) (i : Ins) : Bool :=
  r.mods.contains i.mod.toNat && r.dst.ok i.dst && r.srca.ok i.srca && r.srcb.ok i.srcb && (i.imm &&& ~~~r.imm == 0)

/-- The instruction word (Table 4.2). -/
def encodeWord (op : Nat) (i : Ins) : Word :=
  BitVec.ofNat 8 op ++ i.dst ++ i.srca ++ i.srcb ++ i.pred ++ BitVec.ofBool i.neg ++ i.mod ++ i.imm

/-- The opcode and fields of an instruction word (Table 4.2). -/
def decodeWord (w : Word) : Nat × Ins :=
  ((w.extractLsb' 56 8).toNat,
    { dst := w.extractLsb' 51 5, srca := w.extractLsb' 46 5, srcb := w.extractLsb' 41 5, pred := w.extractLsb' 38 3
      neg := w.getLsbD 37, mod := w.extractLsb' 32 5, imm := w.extractLsb' 0 32 })

/-- The opcode groups of Table 4.3. -/
inductive OpGroup where
  | scalarAlu | branch | scalarMemory | vector | graph | table | message | time | epoch | trust | integrity | reserved | system
  deriving DecidableEq, Repr

/-- The group of an opcode (Table 4.3). -/
def opGroup (op : Nat) : OpGroup :=
  if op < 0x20 then .scalarAlu else if op < 0x30 then .branch else if op < 0x40 then .scalarMemory else if op < 0x60 then .vector
  else if op < 0x70 then .graph else if op < 0x80 then .table else if op < 0x90 then .message else if op < 0xA0 then .time
  else if op < 0xB0 then .epoch else if op < 0xC0 then .trust else if op < 0xD0 then .integrity else if op < 0xF0 then .reserved else .system

/-- The instructions that the tables assign in a group, by OPCODE [3:0], or by [4:0] in the two groups of 32 (R123, Tables 4.6 to 4.16, 5.5 to 5.15). -/
def OpGroup.assigned : OpGroup → Nat → Bool
  | .scalarAlu, n => decide (n ≤ 0x10) || n == 0x12 || decide (0x16 ≤ n)
  | .branch, n => decide (n ≤ 4)
  | .scalarMemory, n => decide (n ≤ 5)
  | .vector, n => decide (n ≤ 0x17)
  | .graph, n => decide (n ≤ 3)
  | .table, n => decide (n ≤ 7)
  | .message, n => decide (n ≤ 5)
  | .time, n => decide (n ≤ 3)
  | .epoch, n => decide (n ≤ 1)
  | .trust, n => decide (n ≤ 4)
  | .integrity, n => decide (n ≤ 5)
  | .reserved, _ => false
  | .system, n => decide (n ≤ 2)

/-- The instruction number of an opcode within its group. -/
def opIndex (op : Nat) : Nat :=
  match opGroup op with
  | .scalarAlu => op % 32
  | .vector => op - 0x40
  | _ => op % 16

/-- An opcode that no table assigns is reserved (R123). -/
def opReserved (op : Nat) : Bool := !(opGroup op).assigned (opIndex op)

/-- The word at pc, which a fetch reads from scratch (R132). -/
def Core.fetched (c : Core) : Word := BitVec.ofNat 64 (leVal (memBytes c.mem c.pc.toNat 8))

/-! Exceptions (R134, R181, R182). -/

/-- An exception condition: code of Table 4.5 or 5.4, its information word, and the lane. -/
structure Exc where
  /-- Code -/
  code : Nat
  /-- Information beside pc: word, register number, address, IMM, handle, ring or ticket -/
  info : Word := 0
  /-- Lane -/
  lane : Nat := 0
  deriving DecidableEq, Repr

/-- FETCH -/
abbrev xFetch : Nat := 0x01
/-- ILLEGAL -/
abbrev xIllegal : Nat := 0x02
/-- PROFILE -/
abbrev xProfile : Nat := 0x03
/-- SPECIAL -/
abbrev xSpecial : Nat := 0x04
/-- MISALIGNED -/
abbrev xMisaligned : Nat := 0x05
/-- MEM_SPACE -/
abbrev xMemSpace : Nat := 0x06
/-- MEM_UNCORRECTED -/
abbrev xMemUnc : Nat := 0x07
/-- TRAP -/
abbrev xTrap : Nat := 0x08
/-- PARAM -/
abbrev xParam : Nat := 0x10
/-- ACCESS -/
abbrev xAccess : Nat := 0x11
/-- HANDLE -/
abbrev xHandle : Nat := 0x12
/-- ADDRESS -/
abbrev xAddress : Nat := 0x13
/-- RING -/
abbrev xRing : Nat := 0x14
/-- TICKET -/
abbrev xTicket : Nat := 0x15
/-- WATCHDOG -/
abbrev xWatchdog : Nat := 0x16

/-- The information that Table 5.4 gives ACCESS, the instruction word, and PARAM, the block address; of other conditions the information stands. -/
def Exc.told (e : Exc) (op : Nat) (i : Ins) (block : Word) : Exc :=
  if e.code = xAccess then { e with info := encodeWord op i } else if e.code = xParam then { e with info := block } else e

/-- The unit number of a context's hewer (R55). -/
def Ctx.unitNo (x : Ctx) : Nat :=
  match x.hewer with
  | none => 0
  | some (b, h) => (b + 1) * 64 + h

/-- Answers with INVALID every entry that a context has fetched and not answered, the ring's state unchanged (R181). -/
def answerTaken (s : State) (c : Nat) (x : Ctx) (status : Nat) : State :=
  match x.ring with
  | none => s
  | some r =>
    match s.eng.rings.get r with
    | none => s
    | some g => g.fetched.foldl (fun t f => if f.ctx = c then answer t r f.index status else t) s

/-- A detail word of a CTX_EXCEPTION record, which carries the context number, the code and the information of Tables 4.5 and 5.4, pc first, in a layout that the spec does not give (R181; log 11). -/
def excDetail (c : Nat) (pc : Word) (e : Exc) (word : Nat) : Word :=
  Config.openDetail 0x040 word 0 [c, e.code, pc.toNat, e.info.toNat, e.lane]

/-- A hewer raises an exception: the record is posted, the entries taken are answered INVALID, and the context is FAULTED (R181). -/
def ctxException (s : State) (c : Nat) (e : Exc) : State :=
  match s.eng.ctxs.get c with
  | none => s
  | some x =>
    let cls : Cls := if e.code = xMemUnc then .uncorrected else .note
    let u := x.unitNo
    let s := s.post { s.mkRec (u / 64) (u % 64) 0x040 cls (excDetail c x.core.pc e 0) (excDetail c x.core.pc e 1) with
      address := x.core.pc.truncate 56, space := 3, op := 0, island := x.island
      portal := if bits c 20 20 = 1 then none else some x.portal, ctx := some c }
    let s := answerTaken s c x stInvalid
    s.onCtx c fun y => { y with st := .faulted, exc := BitVec.ofNat 8 e.code }

/-- Raises an exception of what runs the instruction (R181, R182). -/
def raiseExc (s : State) (who : Who) (pc : Word) (e : Exc) : State :=
  match who with
  | .ctx c => ctxException s c e
  | .agent id => agentException s id e.code pc e.info

/-! Who runs, and the prologue. -/

/-- The core of what runs an instruction, if it exists. -/
def coreOf (s : State) : Who → Option Core
  | .ctx c => (s.eng.ctxs.get c).map (·.core)
  | .agent id => (s.agents.get id).map (·.core)

/-- Writes the core back. -/
def setCore (s : State) (who : Who) (c : Core) : State :=
  match who with
  | .ctx n => s.onCtx n fun x => { x with core := c }
  | .agent id => s.onAgent id fun a => { a with core := c }

/-- A context executes while RUNNING or STOPPING, and not waiting, on a hewer of a bench that is ON, an agent's sequencer while RUNNING and not waiting (Table 5.2, Table 7.6). -/
def State.executes (s : State) : Who → Bool
  | .ctx n =>
    match s.eng.ctxs.get n with
    | none => false
    | some x =>
      (x.st == .running || x.st == .stopping) && x.core.awaits.isNone && !x.judged &&
        (match x.hewer with
          | none => false
          | some (b, _) => s.domOn (b + 1))
  | .agent id =>
    match s.agents.get id with
    | none => false
    | some a => a.life == .running && a.core.awaits.isNone

/-- What runs the instruction is an agent. -/
def Who.isAgent : Who → Bool
  | .ctx _ => false
  | .agent _ => true

/-- Bytes of scratch or SRAM (Table 4.4). -/
def Who.scratchBytes : Who → Nat
  | .ctx _ => 0x40000
  | .agent _ => 0x200000

/-- The predicate mask of an instruction: k[PRED], inverted by NEG (R125). -/
def Core.mask (c : Core) (i : Ins) : BitVec 16 :=
  if i.neg then ~~~(c.getK i.pred.toNat) else c.getK i.pred.toNat

/-- The instruction completes: pc moves on, cycle and instret count (R121, Table 4.19). -/
def Core.retire (c : Core) (cost : Nat) : Core :=
  { c with pc := c.pc + 8, cycle := c.cycle + BitVec.ofNat 64 cost, instret := c.instret + 1 }

/-- The instruction completes as a branch to `t` (R140). -/
def Core.retireTo (c : Core) (t : Word) (cost : Nat) : Core :=
  { c with pc := t, cycle := c.cycle + BitVec.ofNat 64 cost, instret := c.instret + 1 }

/-- The hewer cost on a context, the agent cost on an agent. -/
def Who.cost (who : Who) (hewer agent : Nat) : Nat :=
  match who with
  | .ctx _ => hewer
  | .agent _ => agent

/-- The exception of a reserved opcode: ILLEGAL, or PROFILE for one of the vector group on the agent (R124, R150). -/
def reservedExc (who : Who) (w : Word) : Exc :=
  { code := if who.isAgent && opGroup (decodeWord w).1 == .vector then xProfile else xIllegal, info := w }

/-- The exception that stands before the predicate: FETCH, an unreadable word, a reserved opcode in the word fetched, ILLEGAL, PROFILE, SPECIAL (R123, R126, R132, R135). The word at pc is not held against the instruction that the command names unless its opcode is reserved, which no command names (log 173). -/
def preExc (who : Who) (c : Core) (r : Row) (i : Ins) (special : Option Nat) : Option Exc :=
  if c.pc.toNat % 8 ≠ 0 ∨ who.scratchBytes ≤ c.pc.toNat then some { code := xFetch, info := c.pc }
  else if c.eccBad.contains (c.pc.toNat / 8) then some { code := xMemUnc, info := c.pc }
  else if opReserved (decodeWord c.fetched).1 then some (reservedExc who c.fetched)
  else if !r.legal i then some { code := xIllegal, info := encodeWord r.op i }
  else if who.isAgent && !r.profile then some { code := xProfile, info := encodeWord r.op i }
  else match special with
    | some n => some { code := xSpecial, info := BitVec.ofNat 64 n }
    | none => none

/-! Memory places (R127, R128, R133). -/

/-- A place in memory: scratch or SRAM, or the shared memory of a bench. -/
inductive Loc where
  | own (a : Nat)
  | bench (b a : Nat)
  deriving DecidableEq, Repr

/-- The bench window of a context: bench, base offset and size in bytes (R128). -/
def windowOf (s : State) : Who → Option (Nat × Nat × Nat)
  | .ctx n =>
    match s.eng.ctxs.get n with
    | none => none
    | some x =>
      match x.hewer with
      | none => none
      | some (b, _) => some (b, x.granule * 0x10000, x.bwin * 0x10000)
  | .agent _ => none

/-- The place of an access of n bytes: MISALIGNED, then MEM_SPACE (R127, R135, R141, R151, R226). -/
def locate (s : State) (who : Who) (addr : Word) (n lane : Nat) (store : Bool) : Except Exc Loc :=
  let a := addr.toNat
  if a % n ≠ 0 then .error { code := xMisaligned, info := addr, lane := lane }
  else if a < who.scratchBytes then
    if store && who.isAgent && inImage a then .error { code := xMemSpace, info := addr, lane := lane }
    else .ok (.own a)
  else match windowOf s who with
    | none => .error { code := xMemSpace, info := addr, lane := lane }
    | some (b, base, size) =>
      if 0x1000000 + base ≤ a ∧ a < 0x1000000 + base + size then .ok (.bench b (a - 0x1000000))
      else .error { code := xMemSpace, info := addr, lane := lane }

/-- The word that holds a place cannot be corrected (R133). -/
def locBad (s : State) (who : Who) : Loc → Bool
  | .own a => ((coreOf s who).map fun c => c.eccBad.contains (a / 8)).getD false
  | .bench b a => (s.eng.benches.getD b {}).eccBad.contains (a / 8)

/-- The bytes at a place. -/
def readLoc (s : State) (who : Who) (n : Nat) : Loc → List Byte
  | .own a => ((coreOf s who).map fun c => memBytes c.mem a n).getD []
  | .bench b a => memBytes (s.eng.benches.getD b {}).mem a n

/-- Changes one bench. -/
def State.onBench (s : State) (b : Nat) (f : Bench → Bench) : State :=
  s.onEng fun e => { e with benches := e.benches.set b (f (e.benches.getD b {})) }

/-- Writes bytes at a place; a whole word written over an uncorrectable one replaces it (R133). -/
def writeLoc (s : State) (who : Who) (bs : List Byte) : Loc → State
  | .own a =>
    match coreOf s who with
    | none => s
    | some c => setCore s who { c with mem := memStore c.mem a bs, eccBad := if bs.length = 8 then c.eccBad.filter (· != a / 8) else c.eccBad }
  | .bench b a => s.onBench b fun x =>
      { x with mem := memStore x.mem a bs, eccBad := if bs.length = 8 then x.eccBad.filter (· != a / 8) else x.eccBad }

/-- A single-bit error met at a place is corrected, written back and posted as MEM_CORRECTED (R133). -/
def correctLoc (s : State) (who : Who) (l : Loc) : State :=
  match l with
  | .bench b a =>
    if (s.eng.benches.getD b {}).eccSoft.contains (a / 8) then
      (s.onBench b fun x => { x with eccSoft := x.eccSoft.filter (· != a / 8) }).post
        { s.mkRec (b + 1) 32 0x080 .corrected with address := BitVec.ofNat 56 (0x1000000 + a), space := 3 }
    else s
  | .own a =>
    match coreOf s who with
    | none => s
    | some c =>
      if c.eccSoft.contains (a / 8) then
        let s := setCore s who { c with eccSoft := c.eccSoft.filter (· != a / 8) }
        match who with
        | .ctx n =>
          let u := ((s.eng.ctxs.get n).map Ctx.unitNo).getD 0
          s.post { s.mkRec (u / 64) (u % 64) 0x080 .corrected with address := BitVec.ofNat 56 a, space := 3 }
        | .agent id => agentPost s id { unit := 0, kind := 0x080, cls := .corrected, address := BitVec.ofNat 56 a, space := 3,
                                        detail0 := Config.openDetail 0x080 0 s.nonce [], detail1 := Config.openDetail 0x080 1 s.nonce [] }
      else s

/-- Runs one Aglek instruction: no effect unless its context or agent executes (log 1); then the fetch, which corrects a single-bit error (R133), the checks of R126, the predicate of R125 and the row's own operation. -/
def runIns (who : Who) (i : Ins) (r : Row) (special : Option Nat) (s : State) (body : State → Core → State) : State :=
  match coreOf s who with
  | none => s
  | some c =>
    if !s.executes who then s
    else
      let s := correctLoc s who (.own c.pc.toNat)
      match coreOf s who with
      | none => s
      | some c =>
        match preExc who c r i special with
        | some e => raiseExc s who c.pc e
        | none => if (c.mask i).getLsbD 0 then body s c else setCore s who (c.retire 1)

/-- An instruction that changes only registers of its core. -/
def runReg (who : Who) (i : Ins) (r : Row) (hewer agent : Nat) (s : State) (f : Core → Core) : State :=
  runIns who i r none s fun s c => setCore s who ((f c).retire (who.cost hewer agent))

/-- A load of n bytes: the value, and the state with any correction (R133). -/
def loadMem (s : State) (who : Who) (addr : Word) (n lane : Nat) : Except Exc (List Byte × Loc) :=
  match locate s who addr n lane false with
  | .error e => .error e
  | .ok l => if locBad s who l then .error { code := xMemUnc, info := addr, lane := lane } else .ok (readLoc s who n l, l)

/-- The place of a store of n bytes: a partial store to an uncorrectable word raises (R133). -/
def storePlace (s : State) (who : Who) (addr : Word) (n lane : Nat) : Except Exc Loc :=
  match locate s who addr n lane true with
  | .error e => .error e
  | .ok l => if locBad s who l ∧ n < 8 then .error { code := xMemUnc, info := addr, lane := lane } else .ok l

/-- Whether a place lies in bench shared memory. -/
def Loc.isBench : Loc → Bool
  | .own _ => false
  | .bench _ _ => true

/-- A wait for a bank, at most 31 cycles, which the spec fixes only by what other hewers do: a free value (R131; log 9). -/
def drawWait (s : State) : Nat × State := (s.draw.1.toNat % 32, s.draw.2)

/-- The cycles of an access: scratch, or bench with its bank wait, or the agent's count (R131). -/
def accessCost (s : State) (who : Who) (l : Loc) (scratch bench agent : Nat) : Nat × State :=
  match who with
  | .agent _ => (agent, s)
  | .ctx _ => if l.isBench then ((drawWait s).1 + bench, (drawWait s).2) else (scratch, s)

/-- The condition that stands higher in the order of R135. -/
def worseExc (e f : Exc) : Exc := if f.code < e.code then f else e

/-- Bytes of a range in scratch or the window, every one readable: for buffers and parameter blocks (R162, R179). The range need not lie in one space. -/
def loadRange (s : State) (who : Who) (addr : Word) : Nat → Except Exc (List Byte)
  | 0 => .ok []
  | n + 1 =>
    match loadMem s who addr 1 0, loadRange s who (addr + 1) n with
    | .error e, .error f => .error (worseExc e f)
    | .error e, .ok _ => .error e
    | .ok _, .error f => .error f
    | .ok (b, _), .ok bs => .ok (b ++ bs)

/-- A read of a range corrects the single-bit errors that it meets (R133). -/
def correctRange (s : State) (who : Who) (addr : Word) : Nat → State
  | 0 => s
  | n + 1 =>
    correctRange (match locate s who addr 1 0 false with
      | .error _ => s
      | .ok l => correctLoc s who l) who (addr + 1) n

/-- The condition that a store of n bytes at a place would raise. -/
def storeExc (s : State) (who : Who) (addr : Word) (n : Nat) : Option Exc :=
  match storePlace s who addr n 0 with
  | .error e => some e
  | .ok _ => none

/-- Of two conditions, the higher in the order of R135. -/
def firstExc (a b : Option Exc) : Option Exc :=
  match a, b with
  | some e, some f => some (worseExc e f)
  | some e, none => some e
  | none, f => f

/-- Every byte of a range may be stored to: a whole aligned word at a time where the range holds one, else byte by byte (R133, R135). -/
def storeRangeOk (s : State) (who : Who) (addr : Word) : Nat → Option Exc
  | 0 => none
  | n + 8 =>
    if addr.toNat % 8 = 0 then firstExc (storeExc s who addr 8) (storeRangeOk s who (addr + 8) n)
    else firstExc (storeExc s who addr 1) (storeRangeOk s who (addr + 1) (n + 7))
  | n + 1 => firstExc (storeExc s who addr 1) (storeRangeOk s who (addr + 1) n)

/-- Stores bytes at a place, single-bit errors corrected; nothing where the place does not exist. -/
def storePiece (s : State) (who : Who) (addr : Word) (bs : List Byte) : State :=
  match locate s who addr bs.length 0 true with
  | .error _ => s
  | .ok l => writeLoc (correctLoc s who l) who bs l

/-- Stores a range that was checked: whole aligned words, which replace uncorrectable ones, and the bytes around them (R133). -/
def storeRange (s : State) (who : Who) (addr : Word) : List Byte → State
  | [] => s
  | b0 :: b1 :: b2 :: b3 :: b4 :: b5 :: b6 :: b7 :: bs =>
    if addr.toNat % 8 = 0 then storeRange (storePiece s who addr [b0, b1, b2, b3, b4, b5, b6, b7]) who (addr + 8) bs
    else storeRange (storePiece s who addr [b0]) who (addr + 1) (b1 :: b2 :: b3 :: b4 :: b5 :: b6 :: b7 :: bs)
  | b :: bs => storeRange (storePiece s who addr [b]) who (addr + 1) bs

end Sys2Proof.Machine
end

