-- ==== Sys2Proof/Decode.lean ====
section
/-! DEFINITION. Table words, of which the opcode table gives no row any bits, and the command that an Aglek instruction word spells. -/

namespace Sys2Proof

open Sys2Proof.Machine

/-- The command that a table word spells: none, since spec/opcode_table.json gives bits to no row. -/
def decodeTableWord (_nbits _w : Nat) : Option Instr := none

/-- The command of an opcode with its fields, none for a reserved one; HALT with an unlisted MOD is its .UNTIL form, which is then ILLEGAL (R123, R124, Tables 4.6 to 4.16 and 5.5 to 5.15). `host` is what RPOP and IDIGEST read from outside. -/
def opcodeInstr (who : Who) (i : Ins) (host : List Byte) : Nat → Option Instr
  | 0x00 => some (.add who i)
  | 0x01 => some (.sub who i)
  | 0x02 => some (.mul who i)
  | 0x03 => some (.mulh who i)
  | 0x04 => some (.div who i)
  | 0x05 => some (.rem who i)
  | 0x06 => some (.and who i)
  | 0x07 => some (.or who i)
  | 0x08 => some (.xor who i)
  | 0x09 => some (.shl who i)
  | 0x0A => some (.shr who i)
  | 0x0B => some (.rot who i)
  | 0x0C => some (.cmp who i)
  | 0x0D => some (.sel who i)
  | 0x0E => some (.bit who i)
  | 0x0F => some (.minmax who i)
  | 0x10 => some (.addi who i)
  | 0x12 => some (.muli who i)
  | 0x16 => some (.andi who i)
  | 0x17 => some (.ori who i)
  | 0x18 => some (.xori who i)
  | 0x19 => some (.shli who i)
  | 0x1A => some (.shri who i)
  | 0x1B => some (.roti who i)
  | 0x1C => some (.cmpi who i)
  | 0x1D => some (.kmov who i)
  | 0x1E => some (.movi who i)
  | 0x1F => some (.kop who i)
  | 0x20 => some (.br who i)
  | 0x21 => some (.jal who i)
  | 0x22 => some (.jr who i)
  | 0x23 => some (.jrl who i)
  | 0x24 => some (.loop who i)
  | 0x30 => some (.ld who i)
  | 0x31 => some (.st who i)
  | 0x32 => some (.ldx who i)
  | 0x33 => some (.stx who i)
  | 0x34 => some (.amo who i)
  | 0x35 => some (.cas who i)
  | 0x40 => some (.vadd who i)
  | 0x41 => some (.vsub who i)
  | 0x42 => some (.vmul who i)
  | 0x43 => some (.vfma who i)
  | 0x44 => some (.vand who i)
  | 0x45 => some (.vor who i)
  | 0x46 => some (.vxor who i)
  | 0x47 => some (.vshl who i)
  | 0x48 => some (.vshr who i)
  | 0x49 => some (.vminmax who i)
  | 0x4A => some (.vcmp who i)
  | 0x4B => some (.vsel who i)
  | 0x4C => some (.vbcast who i)
  | 0x4D => some (.vext who i)
  | 0x4E => some (.vins who i)
  | 0x4F => some (.vcvt who i)
  | 0x50 => some (.vld who i)
  | 0x51 => some (.vst who i)
  | 0x52 => some (.vgather who i)
  | 0x53 => some (.vscatter who i)
  | 0x54 => some (.vred who i)
  | 0x55 => some (.vperm who i)
  | 0x56 => some (.viota who i)
  | 0x57 => some (.vcompress who i)
  | 0x60 => some (.glink who i)
  | 0x61 => some (.gnbr who i)
  | 0x62 => some (.gcoord who i)
  | 0x63 => some (.gpath who i)
  | 0x70 => some (.tld who i)
  | 0x71 => some (.tst who i)
  | 0x72 => some (.tvld who i)
  | 0x73 => some (.tvst who i)
  | 0x74 => some (.tamo who i)
  | 0x75 => some (.tnew who i)
  | 0x76 => some (.tfree who i)
  | 0x77 => some (.tpush who i)
  | 0x80 => some (.msend who i)
  | 0x81 => some (.mrecv who i)
  | 0x82 => some (.mbwr who i)
  | 0x83 => some (.mbrd who i)
  | 0x84 => some (.rpop who i host)
  | 0x85 => some (.rpush who i)
  | 0x90 => some (.tnow who i)
  | 0x91 => some (if i.mod = 1 then .haltEvent who i else if i.mod = 2 then .haltEnd who i else .haltUntil who i)
  | 0x92 => some (.tkwait who i)
  | 0x93 => some (.tkpoll who i)
  | 0xA0 => some (.ecommit who i)
  | 0xA1 => some (.equery who i)
  | 0xB0 => some (.thash who i)
  | 0xB1 => some (.tverify who i)
  | 0xB2 => some (.trand who i)
  | 0xB3 => some (.tmeasure who i)
  | 0xB4 => some (.tkeyrel who i)
  | 0xC0 => some (.icrc who i)
  | 0xC1 => some (.idigest who i host)
  | 0xC2 => some (.ireport who i)
  | 0xC3 => some (.iadj who i)
  | 0xC4 => some (.itest who i)
  | 0xC5 => some (.ihist who i)
  | 0xF0 => some (.srd who i)
  | 0xF1 => some (.swr who i)
  | 0xF2 => some (.trap who i)
  | _ => none

/-- The command that an Aglek instruction word spells for what runs it (R122, R123). -/
def aglekInstr (who : Who) (host : List Byte) (w : Word) : Option Instr :=
  opcodeInstr who (decodeWord w).2 host (decodeWord w).1

end Sys2Proof
end

