-- ==== Sys2Proof/Machine/MaintOps.lean ====
section
/-! DEFINITION. The maintenance arbiter's shared operations: conflicts, admission, the end of an activity and the scan of its queue (R453 to R455). -/

namespace Sys2Proof.Machine

/-- Two lists of redundancy groups share one (R453). -/
def shareGroup (a b : List Nat) : Bool := a.any b.contains

/-- The group ANCHOR of Table 14.6, in the model's numbering of groups. -/
abbrev groupAnchor : Nat := 6 * 2 ^ 68

/-- The group ITEM of a page or object (Table 14.6). -/
def groupItem (id : Nat) : Nat := 5 * 2 ^ 68 + id

/-- The MAINT notice of an activity: 0 started, 1 deferred, 2 ended (Table 3.26). -/
def maintNotice (s : State) (a : Activity) (what status : Nat) : State :=
  notify s 6 0 (at_ (a.id % 65536) 0 ||| at_ (a.kind % 256) 16 ||| at_ what 24) (at_ status 0)

/-- Admits an activity under the next identifier: true where it runs, false where it is queued behind a conflict or behind 64 running ones (R454). -/
def admitAct (s : State) (a : Activity) : Bool × State :=
  let id := (s.pair.lastId + 1) % 65536
  let a := { a with id := id }
  let s := s.onPair fun p => { p with lastId := id }
  if decide (64 ≤ s.pair.running.length) || (s.pair.running ++ s.pair.queued).any fun b => shareGroup a.groups b.groups then
    let s := s.onPair fun p => { p with queued := p.queued ++ [a], deferrals := satAdd 0xFFFF p.deferrals 1 }
    (false, maintNotice (s.fault 0 0 0x287 .note) a 1 stDeferred)
  else (true, maintNotice (s.onPair fun p => { p with running := p.running ++ [a] }) a 0 stOk)

/-- Starts the queued activities that conflict with none running and none queued before them, in order (R455). -/
def scanQueue : List Activity → List Activity → State → State
  | [], kept, s => s.onPair fun p => { p with queued := kept }
  | a :: rest, kept, s =>
    if decide (64 ≤ s.pair.running.length) || (s.pair.running ++ kept).any fun b => shareGroup a.groups b.groups then scanQueue rest (kept ++ [a]) s
    else scanQueue rest kept (maintNotice (s.onPair fun p => { p with running := p.running ++ [a] }) a 0 stOk)

/-- Ends an activity with a status: MAINT_DONE, the notice, and the scan of the queue (R454, R455). -/
def endAct (s : State) (id status : Nat) : State :=
  match (s.pair.running ++ s.pair.queued).find? fun a => a.id == id with
  | none => s
  | some a =>
    let s := s.onPair fun p =>
      { p with running := p.running.filter (·.id != id), queued := p.queued.filter (·.id != id), retrains := p.retrains.filter (· != id) }
    let s := maintNotice (s.fault 0 0 0x288 .note (BitVec.ofNat 64 status)) a 2 status
    scanQueue s.pair.queued [] s

/-- The running activity of an internal kind and target. -/
def runningAct (s : State) (kind : Nat) (target : Word) : Option Activity :=
  s.pair.running.find? fun a => a.kind == kind && a.target == target

/-- An internal activity that has been admitted already, or is now: its identifier, none while it waits (R413, R455). -/
def internalAct (s : State) (kind : Nat) (target : Word) (groups : List Nat) : Option Nat × State :=
  match runningAct s kind target with
  | some a => (some a.id, s)
  | none =>
    if s.pair.queued.any fun a => a.kind == kind && a.target == target then (none, s)
    else
      let r := admitAct s { kind := kind, target := target, groups := groups }
      (if r.1 then some r.2.pair.lastId else none, r.2)

end Sys2Proof.Machine
end

