-- ==== Sys2Proof/Machine/Journal.lean ====
section
/-! DEFINITION. Writing the journal: JSNs, the open page, the ledge, what a full face holds, and shipping (R415 to R419, R429, R446). -/

namespace Sys2Proof.Machine

/-! Record types, Table 13.4. -/

/-- MODEL -/
abbrev jModel : Nat := 0x0001
/-- OBJECT_DIR -/
abbrev jObject : Nat := 0x0002
/-- FAULT -/
abbrev jFault : Nat := 0x0003
/-- INSTALL -/
abbrev jInstall : Nat := 0x0004
/-- TIME_FLOOR -/
abbrev jTime : Nat := 0x0005
/-- OUTCOME -/
abbrev jOutcome : Nat := 0x0006
/-- FLOOR -/
abbrev jFloor : Nat := 0x0007
/-- BLOCK -/
abbrev jBlock : Nat := 0x0008
/-- STEP -/
abbrev jStep : Nat := 0x0009
/-- DRESS_BEGIN -/
abbrev jDressBegin : Nat := 0x000A
/-- DRESS_END -/
abbrev jDressEnd : Nat := 0x000B
/-- PAD -/
abbrev jPad : Nat := 0xFFFF

/-- Bytes of a record in a page: header and body (R416). -/
def JRec.size (r : JRec) : Nat := 24 + 8 * r.body.length

/-- Bytes of the records of a page. -/
def recBytes (l : List JRec) : Nat := l.foldl (fun n r => n + r.size) 0

/-- Payload bytes of a page after its header (R417). -/
abbrev pagePayload : Nat := 16320

/-- The words of a record as shipped: TYPE and LENGTH, JSN, TIME, body (Table 13.3; its CHECK is recomputed by the reader). -/
def JRec.words (r : JRec) : List Word :=
  [at_ (r.typ % 65536) 0 ||| at_ (8 * r.body.length % 65536) 16, BitVec.ofNat 64 r.jsn, BitVec.ofNat 64 r.time] ++ r.body

/-- LAST of a page, 0 for an empty one. -/
def FPage.last (p : FPage) : Nat := (p.recs.getLast?.map (·.jsn)).getD 0

/-- Pages of the face above a JSN. -/
def pagesAbove (s : State) (jsn : Nat) : Nat := (s.nv.face.filter fun p => decide (jsn < p.last)).length

/-- FACE_MIB: the face above SNAP_JSN in MiB (Table 13.12). -/
def faceMib (s : State) : Nat := pagesAbove s s.nv.snapJsn * 16384 / 1048576

/-- A unit of D21 is in use: channels 0 to 3, flash layer 4, LDPC engine 5. -/
def nvUnitUp (s : State) (u : Nat) : Bool := !s.power.unitsOut.contains (21 * 64 + u)

/-- Channels in use. -/
def channelsLive (s : State) : Nat := ((List.range 4).filter (nvUnitUp s)).length

/-- A record of an NV unit, with the page address in SPACE 6 (R434). -/
def nvFault (s : State) (unit kind : Nat) (cls : Cls) (page : Nat) : State :=
  s.post { s.mkRec 21 unit kind cls with space := 6, address := BitVec.ofNat 56 page }

/-- The unit acts as the active one of a pair (R446). -/
def State.ships (s : State) : Bool := s.pair.paired && (s.pair.role == .active || s.pair.role == .takingOver)

/-- Takes the next JSN for a record of the present time (R415, R416). -/
def stampRec (s : State) (typ : Nat) (body : List Word) : JRec × State :=
  ({ typ := typ, jsn := s.nv.nextJsn, time := s.now, body := body }, s.onNv fun n => { n with nextJsn := n.nextJsn + 1 })

/-- Records of the open page that no PAD of a shipping frame has closed yet. -/
def unshipped (l : List JRec) : List JRec := (l.reverse.takeWhile fun r => r.typ != jPad).reverse

/-- A shipping frame to the peer's MAC under the next FRAME_SEQ, with its tag under the pair key (R446, Table 14.3). -/
def shipFrame (s : State) (ftype : Nat) (jsn : Nat) (payload : List Word) : State :=
  let seq := s.pair.txSeq + 1
  (s.emit (.ship s.pair.peerMac (BitVec.ofNat 8 ftype) seq jsn payload (Config.shipTag s.pair.pairKey ftype seq jsn payload))).onPair fun p =>
    { p with txSeq := seq }

/-- Ends the running RECORDS frame with its PAD record and ships it (R447). -/
def shipOpen (s : State) : State :=
  match unshipped s.nv.opn with
  | [] => s
  | r :: rs =>
    if !s.ships then s
    else
      let (pad, s) := stampRec s jPad []
      let s := s.onNv fun n => { n with opn := n.opn ++ [pad] }
      shipFrame s 1 r.jsn (((r :: rs) ++ [pad]).flatMap JRec.words)

/-- Closes the open page and programs both copies; a face of 1,024 MiB above the newest snapshot is full (R417, R419). -/
def closePage (s : State) : State :=
  let s := shipOpen s
  if s.nv.opn = [] then s
  else
    let s := s.onNv fun n => { n with face := n.face ++ [{ num := n.faceNext, recs := n.opn }], faceNext := n.faceNext + 1, opn := [] }
    if decide (1024 ≤ faceMib s) && !s.nv.faceFull then nvFault (s.onNv fun n => { n with faceFull := true }) 4 0x24A .degraded 0 else s

/-- Appends a record to the open page, closing it first when the record does not fit, and shipping a frame that is full (R416, R417, R446). -/
def appendRec (s : State) (typ : Nat) (body : List Word) : State :=
  let size := 24 + 8 * body.length
  let s := if 4072 < recBytes (unshipped s.nv.opn) + size then shipOpen s else s
  let s := if pagePayload < recBytes s.nv.opn + size + 24 then closePage s else s
  let (r, s) := stampRec s typ body
  s.onNv fun n => { n with opn := n.opn ++ [r] }

/-- Records that the ledge may carry: FAULT of class DEGRADED or above, TIME_FLOOR and FLOOR (R429). -/
def ledgeType (typ : Nat) (body : List Word) : Bool := (typ == jFault && decide (2 ≤ (body.getD 1 0).toNat % 8)) || typ == jTime || typ == jFloor

/-- A full face holds a record: any but FAULT, and FAULT too once the reserve of 64 MiB is used (R419, R426). -/
def faceHolds (s : State) (typ : Nat) : Bool := s.nv.faceFull && (typ != jFault || decide (1088 ≤ faceMib s))

/-- The flash layer cannot run: boot steps 1 and 2, a restart, or a fence of D21 (R429, R433). -/
def nvDown (s : State) : Bool := s.nv.restarting || s.pins.thermtripLow || s.domSt 21 == .fenced || decide (s.power.step ≤ 2)

/-- A unit writes a journal record: to the open page, to the ledge, or held until the flash layer or the face can take it; a standby's own record waits for a shipped JSN; D21 wakes (R415, R418, R419, R429, R447). -/
def journal (s : State) (typ : Nat) (body : List Word) : State :=
  let s := wake s 21
  if s.pair.role = .standby ∧ s.pair.rejoined then
    let r : JRec := { typ := typ, time := s.now, body := body }
    s.onPair fun p => { p with localRecs := p.localRecs ++ [r] }
  else if nvDown s then
    if ledgeType typ body then
      let (r, s) := stampRec s typ body
      s.onNv fun n => { n with ledgeOpn := n.ledgeOpn ++ [r] }
    else s.onNv fun n => { n with waits := n.waits ++ [(typ, body)] }
  else if faceHolds s typ ∨ s.nv.ledge ≠ [] ∨ s.nv.ledgeOpn ≠ [] then s.onNv fun n => { n with waits := n.waits ++ [(typ, body)] }
  else appendRec s typ body

/-- The held writes are appended when nothing holds them any more. -/
def releaseWaits (s : State) : State :=
  if nvDown s ∨ s.nv.faceFull ∨ s.nv.ledge ≠ [] ∨ s.nv.ledgeOpn ≠ [] then s
  else
    let l := s.nv.waits
    l.foldl (fun t w => appendRec t w.1 w.2) (s.onNv fun n => { n with waits := [], heldWrites := [] })

/-- The eight words of a fault record. -/
def Rec.words (r : Rec) : List Word := (List.range 8).map fun i => wordAt r.bytes (8 * i)

/-- Serves an entry whose effect is journalled: a planned switchover leaves it waiting, a full face holds it until there is room or 10 ms pass, and a fenced D21 completes it with BUSY (R419, R433, R445). -/
def serveJ (r : Nat) (idx : BitVec 32) (opcode : Nat) (buf : List Byte) (s : State)
    (k : Ring → Fetched → List Byte → List Byte → State → State) : State :=
  if s.pair.switching then s
  else if s.nv.faceFull then
    match (s.eng.rings.get r).bind fun g => g.find idx with
    | none => s
    | some _ => if s.nv.heldWrites.contains (r, idx) then s else s.onNv fun n => { n with heldWrites := n.heldWrites ++ [(r, idx)] }
  else if s.domSt 21 = .fenced ∧ !s.nv.restarting then serve r idx opcode buf s fun _ f _ _ s => finish s r f stBusy
  else serve r idx opcode buf s k

end Sys2Proof.Machine
end

