-- ==== Sys2Proof/Machine/Clear.lean ====
section
/-! DEFINITION. Uncleared records, the fault state and its end: FAULT_L, fences that end at exit, quiet periods (R343, R344, R354 to R357). -/

namespace Sys2Proof.Machine

/-- The source number {SOURCE, UNIT} of a record (R342). -/
def Rec.src (r : Rec) : Nat := r.source.toNat * 4096 + r.unit.toNat

/-- Sources in the fault state, one entry per uncleared record. -/
def faultSources (s : State) : List Nat := (s.coll.uncleared.map Rec.src).eraseDups

/-- Kinds that do not clear by a quiet period (Clears columns of Tables 11.3, 12.10, 13.11, 14.10). -/
def ownClear (r : Rec) : Bool :=
  [0x088, 0x089, 0x08A, 0x101, 0x102, 0x180, 0x182, 0x1C0, 0x1C1, 0x1C4, 0x1C5, 0x20A, 0x249, 0x24A, 0x280, 0x281, 0x282,
    0x285, 0x286, 0x289].contains r.kind.toNat ||
    ((r.kind == 0x181 || r.kind == 0x202) && r.cls == .uncorrected && !r.raised)

/-- The record clears as Quiet (R343, R344, R357). -/
def Rec.quiet (r : Rec) : Bool := r.cls != .fatal && !ownClear r

/-- FAULT_L is low while a record is uncleared, and until the end of boot step 1 (R355). -/
def driveFaultL (s : State) : State := s.onPins fun p => { p with faultLow := s.pins.d0Up && (s.coll.uncleared != [] || decide (s.power.step ≤ 1)) }

/-- A BENCH notice when BENCH_USABLE changes (Table 3.26). -/
def setUsable (s : State) (b : Nat) (on : Bool) : State :=
  if s.power.benchUsable.getLsbD b == on then s
  else
    let s := s.onPower fun p => { p with benchUsable := p.benchUsable ^^^ BitVec.ofNat 16 (2 ^ b) }
    notify s 5 0 (cap1 s) 0

/-- Another source whose unit lies in the domain, its plain units apart, is in the fault state. -/
def domFaulted (s : State) (d : Nat) (least : Nat) : Bool :=
  (faultSources s).any fun n => decide (n / 4096 = s.ctrlAddr.toNat) && decide (n % 4096 / 64 = d) && decide (least ≤ n % 64)

/-- A unit of the controller leaves the fault state: its fence ends as Table 11.7 gives. -/
def exitUnit (s : State) (unit : Nat) : State :=
  let d := unit / 64
  let u := unit % 64
  if 1 ≤ d ∧ d ≤ 16 then
    if u < 32 then s.onPower fun p => { p with fencedHw := p.fencedHw &&& ~~~(BitVec.ofNat 512 (2 ^ (32 * (d - 1) + u))) }
    else if domFaulted s d 32 then s
    else
      let s := setUsable s (d - 1) true
      if (s.dom d).engineReset then s else unfenceDom s d
  else if d = 17 then (if domFaulted s d 0 ∨ (s.dom d).engineReset then s else unfenceDom s d)
  else if d = 18 ∨ d = 19 ∨ d = 20 then (if domFaulted s d 0 then s else unfenceDom s d)
  else if d = 21 then
    if u < 4 then s.onPower fun p => { p with unitsOut := p.unitsOut.filter (· != unit) }
    else if domFaulted s d 4 then s
    else releaseWaits (unfenceDom (s.onNv fun n => { n with restarting := false }) d)
  else if d = 22 then
    if u = 8 then s.onPower fun p => { p with cacheBypass := false } else if u = 63 then unfenceDom s d else s
  else if d = 23 then
    if u < 8 then s.onPortal u fun p => { p with fenceAfter := false, st := if p.st = .fenced then .ready else p.st }
    else if u < 16 then s.onPower fun p => { p with unitsOut := p.unitsOut.filter (· != unit) }
    else if u = 63 then unfenceDom s d
    else s
  else s

/-- A unit of the agent is CONDEMNED (R401). -/
def condemnedAgent (s : State) (id : Nat) : Bool := s.integ.units.any fun u => u.agent == id && u.st == .condemned

/-- An agent's record that excludes its endpoint: its links apart, one of class UNCORRECTED or above, or AGENT_LOST (Table 11.7). -/
def excludes (r : Rec) : Bool :=
  r.kind == 0x1C4 || ((r.cls == .uncorrected || r.cls == .fatal) && !(decide (0x010 ≤ r.unit.toNat) && decide (r.unit.toNat ≤ 0x01F)))

/-- Another record of the agent excludes its endpoint still. -/
def stillExcluded (s : State) (a : FAddr) : Bool := s.coll.uncleared.any fun r => r.source == a && excludes r

/-- A source leaves the fault state: its fence ends, its raised pairs close and RECOVERIES counts (R356). -/
def exitSource (s : State) (src : Nat) : State :=
  let s := s.onColl fun c =>
    { c with pairs := c.pairs.filter fun p => !(!p.isCtx && p.src == src && p.raised), recoveries := satAdd 0xFFFF c.recoveries 1 }
  let a : FAddr := BitVec.ofNat 28 (src / 4096)
  if addrKind' a = 2 then exitUnit s (src % 4096)
  else
    s.onFab fun f => { f with roster := f.roster.mapVals fun id r =>
      if r.addr = a ∧ !stillExcluded s a ∧ !condemnedAgent s id then { r with excluded := false } else r }
where
  /-- KIND of an address. -/
  addrKind' (a : FAddr) : Nat := bits a.toNat 27 24

/-- Clears the uncleared records that satisfy a test; sources left without one leave the fault state (R356). -/
def clearRecs (s : State) (p : Rec → Bool) : State :=
  let before := faultSources s
  let s := s.onColl fun c => { c with uncleared := c.uncleared.filter fun r => !p r }
  let left := faultSources s
  driveFaultL ((before.filter fun n => !left.contains n).foldl exitSource s)

/-- Clears the records of a kind from one address. -/
def clearKind (s : State) (kind : Nat) : State := clearRecs s fun r => r.kind.toNat == kind

/-- Clears the records of a kind from one agent address. -/
def clearAt (s : State) (a : FAddr) (kind : Nat) : State := clearRecs s fun r => r.source == a && r.kind.toNat == kind

/-- The endpoint at an address is retired: the records that only this ends clear (R344, Tables 11.3, 12.10). -/
def clearRetired (s : State) (a : FAddr) : State :=
  clearRecs s fun r => r.source == a && (r.kind == 0x1C4 || r.kind == 0x20A || (r.kind == 0x202 && r.cls == .uncorrected && !r.raised) ||
    (decide (0x800 ≤ r.kind.toNat) && r.cls == .fatal))

/-- The fabric is BOOTING again; leaving HELD clears FABRIC_HELD (R269, Table 11.3). -/
def rebootFab (s : State) : State :=
  let t := s.onFab fun f => { f with st := .booting }
  if s.fab.st = .held then clearKind t 0x1C0 else t

end Sys2Proof.Machine
end

