-- ==== Sys2Proof/Machine/Plan.lean ====
section
/-! DEFINITION. The cabling that a fabric plan states: link entries, quay links, circuits, and the links of the fabric model (R29, R34, R262). -/

namespace Sys2Proof.Machine

/-! Link entries (Table 8.6). -/

/-- Entry number and link of END_A. -/
def linkA (e : List Byte) : Nat × Nat := (bits (leAt e 0 4) 23 0, bits (leAt e 0 4) 27 24)

/-- Entry number and link of END_B, none for an end that a circuit sets later. -/
def linkB (e : List Byte) : Option (Nat × Nat) :=
  if leAt e 4 4 = 0xFFFFFFFF then none else some (bits (leAt e 4 4) 23 0, bits (leAt e 4 4) 27 24)

/-- Sound switch that the entry passes through. -/
def linkVia (e : List Byte) : Option Nat := if (leAt e 8 2).testBit 15 then some (leAt e 8 2 % 2 ^ 14) else none

/-- A switch port as a key. -/
def swKey (sw port : Nat) : Nat := 256 * sw + port

/-- Switch port of END_A. -/
def linkPortA (e : List Byte) : Nat := leAt e 0x0A 1

/-- Switch port of END_B. -/
def linkPortB (e : List Byte) : Nat := leAt e 0x0B 1

/-- The fabric address of a position entry, none for a spare or an address outside the plan (R264). -/
def posAddr (pl : List Byte) (n : Nat) : Option FAddr :=
  let e := planEntry pl 0x048 n
  let a : FAddr := BitVec.ofNat 28 (entryWhere e)
  if decide (planCount pl 0x048 ≤ n) || entrySpare e || addrKind a != 0 || !validIn (planDim pl) (planSwitches pl) a then none else some a

/-- A cable of the plan between two positions: each end with its link, and the switch with both its ports. -/
structure Cable where
  /-- First end -/
  a : FAddr
  /-- Its link -/
  la : Nat
  /-- Second end -/
  b : FAddr
  /-- Its link -/
  lb : Nat
  /-- Switch, port of the first end and port of the second -/
  via : Option (Nat × Nat × Nat)
  deriving DecidableEq, Repr

/-- The cable of a link entry, none where an end is no position. -/
def cableOf (pl : List Byte) (e : List Byte) : Option Cable :=
  match linkB e with
  | none => none
  | some (nb, lb) =>
    match posAddr pl (linkA e).1, posAddr pl nb with
    | some a, some b =>
      some { a := a, la := (linkA e).2, b := b, lb := lb, via := (linkVia e).map fun sw => (sw, linkPortA e, linkPortB e) }
    | _, _ => none

/-- The same cable from its other end. -/
def Cable.flip (c : Cable) : Cable :=
  { a := c.b, la := c.lb, b := c.a, lb := c.la, via := c.via.map fun v => (v.1, v.2.2, v.2.1) }

/-- Every cable between positions, in the order of the entries. -/
def planCables (pl : List Byte) : List Cable := (planEntries pl 0x050).filterMap (cableOf pl)

/-- The cable at one end of a link. -/
def cableAt (pl : List Byte) (a : FAddr) (l : Nat) : Option Cable :=
  ((planCables pl).find? fun c => (c.a == a && c.la == l) || (c.b == a && c.lb == l)).map fun c =>
    if c.a = a ∧ c.la = l then c else c.flip

/-- The plan gives a position as present. -/
def positionPresent (pl : List Byte) (a : FAddr) : Bool :=
  (planEntries pl 0x048).any fun e => !entrySpare e && !entryAbsent e && entryWhere e == a.toNat

/-- A link entry whose far end is left to a circuit: the cable from its position to its switch, with no second end (Table 8.6). -/
def openCable (pl : List Byte) (e : List Byte) : Option Cable :=
  match linkB e, posAddr pl (linkA e).1 with
  | none, some a => some { a := a, la := (linkA e).2, b := noAddr, lb := 0, via := (linkVia e).map fun sw => (sw, linkPortA e, linkPortA e) }
  | _, _ => none

/-- The cable at a link that a quay may name: one to a neighbour, or one whose far end a circuit sets (R34). -/
def quayCable (pl : List Byte) (a : FAddr) (l : Nat) : Option Cable :=
  match cableAt pl a l with
  | some c => some c
  | none => ((planEntries pl 0x050).filterMap (openCable pl)).find? fun c => c.a == a && c.la == l

/-- The quay of a number, while its entry may be used: endpoint, its link, and its cable, which passes through the switch to which the controller link is also cabled (R34). -/
def State.quay (s : State) (n : Nat) : Option (FAddr × Nat × Cable) :=
  match s.fab.plan with
  | none => none
  | some pl =>
    match planQuay pl n with
    | none => none
    | some (a, l) =>
      match quayCable pl a l, s.fab.cable.get n with
      | some c, some k =>
        if positionPresent pl a && (c.via.map (·.1)) == some (k / 256) then some (a, l, c) else none
      | _, _ => none

/-- Quays whose entries are used, ascending. -/
def State.quays (s : State) : List (Nat × FAddr × Nat × Cable) :=
  (List.range 4).filterMap fun n => (s.quay n).map fun q => (n, q)

/-- A link end is a quay link or the neighbour's end of one, so it belongs to no port (R29, R34). -/
def State.quayEnd (s : State) (a : FAddr) (l : Nat) : Bool :=
  s.quays.any fun q => (q.2.1 == a && q.2.2.1 == l) || (q.2.2.2.b == a && q.2.2.2.lb == l)

/-- The quay link is live: trained toward this controller (R34). -/
def State.quayLive (s : State) (n : Nat) : Bool :=
  match s.quay n with
  | none => false
  | some (a, l, _) => (s.mlink a l).lanes != 0

/-- Live quays with their endpoints, ascending. -/
def State.liveQuays (s : State) : List (Nat × FAddr) :=
  (s.quays.filter fun q => s.quayLive q.1).map fun q => (q.1, q.2.1)

/-- The quay whose link this is, by number. -/
def State.quayOf (s : State) (a : FAddr) (l : Nat) : Option Nat :=
  (s.quays.find? fun q => q.2.1 == a && q.2.2.1 == l).map (·.1)

/-- The link of a spare, cabled to a switch, that takes the place of link l of a position (R42, R44). -/
def spareEntry (pl : List Byte) (n l sw : Nat) : Option (List Byte) :=
  (planEntries pl 0x050).find? fun e => linkA e == (n, l) && linkVia e == some sw

/-- Entry number of an identity in the position table. -/
def entryNumber (pl : List Byte) (id : Nat) : Option Nat :=
  (List.range (planCount pl 0x048)).find? fun n => entryAgent (planEntry pl 0x048 n) == id && id != 0

/-- Switch port of an end of a cable, where a spliced spare fills its position (R44). -/
def endPort (pl : List Byte) (spliced : FMap Nat) (a : FAddr) (l sw own : Nat) : Option Nat :=
  match spliced.get a.toNat with
  | none => some own
  | some id => ((entryNumber pl id).bind fun n => spareEntry pl n l sw).map linkPortA

/-- Joins two switch ports in a map. -/
def join (m : FMap Nat) (sw p q : Nat) : FMap Nat := (m.set (swKey sw p) (q + 1)).set (swKey sw q) (p + 1)

/-- The circuits that the plan's cables need, under the splices and the quay connections given. -/
def wantCircuits (s : State) (spliced : FMap Nat) : FMap Nat :=
  match s.fab.plan with
  | none => []
  | some pl =>
    let torus := (planCables pl).foldl (fun m c =>
      match c.via with
      | none => m
      | some (sw, pa, pb) =>
        if s.quayEnd c.a c.la then m
        else match endPort pl spliced c.a c.la sw pa, endPort pl spliced c.b c.lb sw pb with
          | some x, some y => join m sw x y
          | _, _ => m) []
    s.quays.foldl (fun m q =>
      match q.2.2.2.via, s.fab.cable.get q.1 with
      | some (sw, pa, _), some k =>
        (match endPort pl spliced q.2.1 q.2.2.1 sw pa with
          | some x => join m sw x (k % 256)
          | none => m)
      | _, _ => m) torus

/-- The switch and its two ports that a quay connection joins, under the splices given: the quay link's port and the controller's. -/
def State.quayPorts (s : State) (spliced : FMap Nat) (n : Nat) : Option (Nat × Nat × Nat) :=
  match s.fab.plan, s.quay n, s.fab.cable.get n with
  | some pl, some (a, l, c), some k =>
    match c.via with
    | none => none
    | some (sw, pa, _) => (endPort pl spliced a l sw pa).map fun x => (sw, x, k % 256)
  | _, _, _ => none

/-- A circuit map joins two ports of a switch. -/
def joined (m : FMap Nat) (sw p q : Nat) : Bool := m.get (swKey sw p) == some (q + 1) && m.get (swKey sw q) == some (p + 1)

/-- A quay link is connected to this controller by the circuits that the model holds (R34). -/
def State.quayJoined (s : State) (n : Nat) : Bool :=
  match s.quayPorts s.fab.spliced n with
  | none => false
  | some (sw, p, q) => joined s.fab.circuits sw p q

/-- The link ends whose circuits one map joins and another does not, under the splices given: both ends of a cable, and a quay link's own end (R34, R39). -/
def newEnds (s : State) (spliced old new : FMap Nat) : List (FAddr × Nat) :=
  let fresh (sw p q : Nat) : Bool := joined new sw p q && !joined old sw p q
  match s.fab.plan with
  | none => []
  | some pl =>
    ((planCables pl).flatMap fun c =>
      match c.via with
      | none => []
      | some (sw, pa, pb) =>
        match endPort pl spliced c.a c.la sw pa, endPort pl spliced c.b c.lb sw pb with
        | some x, some y => if fresh sw x y then [(c.a, c.la), (c.b, c.lb)] else []
        | _, _ => []) ++
    s.quays.filterMap fun q =>
      match s.quayPorts spliced q.1 with
      | none => none
      | some (sw, x, y) => if fresh sw x y then some (q.2.1, q.2.2.1) else none

/-! Circuits that a map may change (R38). -/

/-- The other port of a circuit, as a key. -/
def peerKey (k v : Nat) : Nat := swKey (k / 256) (v - 1)

/-- A new map in which the circuits held stay as they are, and nothing is joined to a held port. -/
def holdCircuits (held : Nat → Bool) (old new : FMap Nat) : FMap Nat :=
  (old.keep fun k _ => held k).foldl (fun m q => m.set q.1 q.2) (new.keep fun k v => !held k && !held (peerKey k v))

/-- The switch ports of a cable under the splices in force. -/
def cablePorts (s : State) (pl : List Byte) (c : Cable) : List Nat :=
  match c.via with
  | none => []
  | some (sw, pa, pb) =>
    ((endPort pl s.fab.spliced c.a c.la sw pa).toList ++ (endPort pl s.fab.spliced c.b c.lb sw pb).toList).map (swKey sw)

/-- The ports of the circuits that carry traffic of a running job of another island than h: both ends are its members (R38). -/
def runningPorts (s : State) (h : Nat) : List Nat :=
  match s.fab.plan with
  | none => []
  | some pl => ((planCables pl).filter fun c =>
      let i := islandOf s c.a
      i != 0 && i != h && i == islandOf s c.b && ((s.isles.islands.get i).map fun l => l.epoch != 0).getD false).flatMap (cablePorts s pl)

/-- The map that an installation of island h may set: a changed circuit that carries another running island's traffic is held until that island's boundary (R38). -/
def boundaryCircuits (s : State) (h : Nat) (want : FMap Nat) : FMap Nat :=
  let run := runningPorts s h
  holdCircuits run.contains s.fab.circuits want

/-- The map that a takeover sets: the quay circuits alone change, from the failed unit's link to this unit's (R38, R450). -/
def takeoverCircuits (s : State) (want : FMap Nat) : FMap Nat :=
  let moved := (List.range 4).flatMap fun n => match s.quayPorts s.fab.spliced n with
    | none => []
    | some (sw, p, q) => [swKey sw p, swKey sw q] ++ ((s.fab.circuits.get (swKey sw p)).map (peerKey (swKey sw p))).toList
  holdCircuits (fun k => !moved.contains k) s.fab.circuits want

/-- Switches whose part of two circuit maps differs, ascending. -/
def changedSwitches (s : State) (old new : FMap Nat) : List Nat :=
  match s.fab.plan with
  | none => []
  | some pl => (List.range (planSwitches pl)).filter fun sw =>
      (old.keep fun k _ => k / 256 == sw) != (new.keep fun k _ => k / 256 == sw)

/-- One link end of the model: lanes and margin stay while the neighbour is the same. -/
def modelLink (s : State) (m : FMap MLink) (a : FAddr) (l : Nat) (b : FAddr) (lb : Nat) (via : Option Nat) : FMap MLink :=
  let old := s.mlink a l
  let same := old.nbr == b && old.nbrLink == lb
  m.set (linkKey a l)
    { nbr := b, nbrLink := lb, lanes := if same then old.lanes else 0, margin := if same then old.margin else 0
      port := if s.quayEnd a l then none else some (l / 2), via := via }

/-- The links of the fabric model, with the default ports of Table 1.5 (R30). -/
def modelLinks (s : State) : FMap MLink :=
  match s.fab.plan with
  | none => []
  | some pl =>
    let torus := (planCables pl).foldl (fun m c =>
      let via := c.via.map (·.1)
      modelLink s (modelLink s m c.a c.la c.b c.lb via) c.b c.lb c.a c.la via) []
    s.quays.foldl (fun m q => if (m.get (linkKey q.2.1 q.2.2.1)).isSome then m
      else modelLink s m q.2.1 q.2.2.1 q.2.2.2.b q.2.2.2.lb (q.2.2.2.via.map (·.1))) torus

/-- The links of a position with the switch that each passes through, as the link entries give them (R42). -/
def positionCables (pl : List Byte) (a : FAddr) : List (Nat × Option Nat) :=
  (planEntries pl 0x050).flatMap fun e =>
    (if posAddr pl (linkA e).1 = some a then [((linkA e).2, linkVia e)] else []) ++
      (match linkB e with
        | none => []
        | some (n, l) => if posAddr pl n = some a then [(l, linkVia e)] else [])

/-- A spare can take the place of a position: the plan marks it spliceable, and every link of it passes through a switch to which the spare's same link is cabled (R42). -/
def spareFits (pl : List Byte) (a : FAddr) (id : Nat) : Bool :=
  ((planEntries pl 0x048).any fun e => !entrySpare e && entryWhere e == a.toNat && entrySpliceable e) &&
    (match entryNumber pl id with
      | none => false
      | some n => (positionCables pl a).all fun q => match q.2 with
        | none => false
        | some sw => (spareEntry pl n q.1 sw).isSome)

/-- The identity expected at a position or switch: the spliced spare, or the plan's entry. -/
def expectedAt (s : State) (a : FAddr) : Option Nat :=
  match s.fab.spliced.get a.toNat, s.fab.plan with
  | some id, _ => some id
  | none, none => none
  | none, some pl =>
    ((planEntries pl (if addrKind a = 1 then 0x058 else 0x048)).find? fun e =>
      !entrySpare e && !entryAbsent e && entryWhere e == a.toNat).map entryAgent

end Sys2Proof.Machine
end

