-- ==== Sys2Proof/Machine/Ferry.lean ====
section
/-! DEFINITION. Requests of the controller to agents: the networks and their packets and frames, tags, sending, re-sending and taking answers (R15, R218, R219, R221, R222). -/

namespace Sys2Proof.Machine

/-- The roster's entry of an agent. -/
def State.roster (s : State) (id : Nat) : Roster := s.fab.roster.getD id {}

/-- Changes the roster's entry of an agent that it lists. -/
def State.onRoster (s : State) (id : Nat) (f : Roster → Roster) : State :=
  s.onFab fun b => { b with roster := b.roster.upd id f }

/-! The two networks (R15, R16, R218, R219, R222). -/

/-- A network joins the controller and an agent as far as the model knows: an Ethernet port in use; for an agent with an address, a live quay whose tensor link is in use and a link of the agent's that is not dead (R15, R34; log 188). -/
def State.joins (s : State) (id : Nat) (net : Net) : Bool :=
  match net with
  | .ordinary => Config.netReaches 0 id s.now && [8, 9, 10, 11].any fun u => !s.power.unitsOut.contains (23 * 64 + u)
  | .tensor =>
    let a := (s.roster id).addr
    a != noAddr && Config.netReaches 1 id s.now && (s.liveQuays.any fun q => !s.power.unitsOut.contains (23 * 64 + 12 + q.1)) &&
      (addrKind a != 0 || (List.range 16).any fun l => (s.mlink a l).lanes != 0)

/-- The network of a traffic class toward an agent: its primary one, and the other only when the primary cannot reach it and the other can (R15). -/
def State.netTo (s : State) (id : Nat) (primary : Net) : Net :=
  if !s.joins id primary && s.joins id primary.other then primary.other else primary

/-- The EPOCH of the controller's packets toward an address: its island's, 0 where it has none (R204; log 188). -/
def epochAt (s : State) (a : FAddr) : Nat := ((s.isles.islands.get (islandOf s a)).map (·.epoch)).getD 0

/-- A packet of the controller on one network: of the tensor network to the agent's address, or a frame to its MAC address (R15, R222). -/
def sendOn (s : State) (id : Nat) (net : Net) (p : Pkt) : State :=
  match net with
  | .tensor => s.emit (.ctrlPkt p.sealed)
  | .ordinary => s.emit (.ctrlFrame (etherFrame (s.roster id).mac (Config.ctrlMac s.unitIndex) 0x000088B500000000 p.sealed))

/-- A control packet to an agent on one network: key 0, SEQ 0, on VC2; an agent without an address is reached as 0x0FF_FFFF on the ordinary network (R15, R49, R218, R225). -/
def toAgentOn (s : State) (id : Nat) (net : Net) (opcode sub context : Nat) (arg : BitVec 32) : State :=
  let a := (s.roster id).addr
  sendOn s id net { hdr := ctrlHdr a s.ctrlAddr (epochAt s a) 0 opcode sub context arg 2 }

/-- Sends a control packet to an agent: on the tensor network, or on the ordinary one where that cannot reach it (R15, Table 1.1). -/
def toAgent (s : State) (id opcode sub context : Nat) (arg : BitVec 32) : State :=
  toAgentOn s id (if (s.roster id).addr = noAddr then .ordinary else s.netTo id .tensor) opcode sub context arg

/-- Sends a control packet to an endpoint by address (R15). -/
def State.sendCtrl (s : State) (dst : FAddr) (opcode sub context : Nat) (arg : BitVec 32) : State :=
  match s.agentAt dst with
  | none => s.emit (.ctrlPkt ({ hdr := ctrlHdr dst s.ctrlAddr (epochAt s dst) 0 opcode sub context arg 2 } : Pkt).sealed)
  | some id => toAgent s id opcode sub context arg

/-- COUNT of a MGMT packet: items of REG_REQ, elements of TS_DATA, bytes of FW_CHUNK and PAT_DATA, 0 where Table 7.2 gives none (R219). -/
def mgmtCount (mtype : Nat) (arg : Word) (body : List Byte) : Nat :=
  if mtype = 0x0001 then body.length / 16
  else if mtype = 0x0050 then body.length / (8 * tblWords (fld arg 15 0 % 0x8000))
  else if mtype = 0x0031 ∨ mtype = 0x0061 then body.length
  else 0

/-- The ferry's class of a MGMT packet has the tensor network as its other network; the agents' firmware and ASSIGN do not (Table 1.1, R224). -/
def ferryFallback (mtype : Nat) : Bool := !(decide (0x0030 ≤ mtype) && decide (mtype ≤ 0x0032)) && mtype != 0x0021

/-- Sends a MGMT packet to an agent without keeping it as a request: on the ordinary network, and the ferry's on the tensor network where that one cannot reach it (R15, R218, R219). -/
def toAgentMgmt (s : State) (id mtype tag : Nat) (arg : Word) (body : List Byte) : State :=
  let a := (s.roster id).addr
  sendOn s id (if ferryFallback mtype then s.netTo id .ordinary else .ordinary)
    (mgmtPkt a s.ctrlAddr (epochAt s a) (mgmtPayload mtype (mgmtCount mtype arg body) tag arg body))

/-- The key of a request. -/
def reqKey (agent tag : Nat) : Nat := agent * 2 ^ 32 + tag

/-- The open request of an agent under a TAG. -/
def State.req (s : State) (agent tag : Nat) : Option MgReq := s.fab.reqs.get (reqKey agent tag)

/-- Sends a request, or sends it again (R221). -/
def emitReq (s : State) (q : MgReq) : State :=
  if q.ctl then toAgent s q.agent q.kind.toNat q.sub.toNat q.context (BitVec.ofNat 32 q.tag)
  else toAgentMgmt s q.agent q.kind.toNat q.tag q.arg q.body

/-- The next TAG for an agent: nonzero, in 16 bits, and not that of an open request of it (R221, R375). -/
def freshTag (s : State) (agent : Nat) : Nat :=
  let t := (s.roster agent).nextTag
  ((findFrom (fun k => (s.req agent (k % 65535 + 1)).isNone) 65535 (t - 1)).getD (t - 1)) % 65535 + 1

/-- Sends a new request under a fresh TAG and keeps it until its answer (R221). -/
def sendReq (s : State) (q : MgReq) : State :=
  let tag := freshTag s q.agent
  let q := { q with tag := tag, sends := 1 }
  let s := s.onFab fun b => { b with reqs := b.reqs.set (reqKey q.agent tag) q }
  emitReq (s.onRoster q.agent fun r => { r with nextTag := tag % 65535 + 1 }) q

/-- A request is answered or given up. -/
def dropReq (s : State) (agent tag : Nat) : State :=
  s.onFab fun b => { b with reqs := b.reqs.del (reqKey agent tag) }

/-- Sends RESET of a level (Table 7.3). -/
def sendReset (s : State) (id level : Nat) (island : Nat := 0) : State :=
  sendReq s { agent := id, ctl := true, kind := 0x23, sub := BitVec.ofNat 8 level, island := island }

/-- Sends SCRUB (Table 7.3). -/
def sendScrub (s : State) (id : Nat) (island : Nat := 0) : State :=
  sendReq s { agent := id, ctl := true, kind := 0x24, island := island }

/-- Sends REG_REQ with the items given (R234). -/
def sendRegs (s : State) (id : Nat) (items : List RegItem) (island : Nat := 0) : State :=
  sendReq s { agent := id, kind := 0x0001, body := items.flatMap regItemBytes, island := island }

/-- An item that reads a register. -/
def readItem (off : Nat) : RegItem := { op := 1, offset := BitVec.ofNat 32 off }

/-- An item that writes a register. -/
def writeItem (off : Nat) (v : Word) : RegItem := { op := 2, offset := BitVec.ofNat 32 off, value := v }

/-- The values that a measurement takes from an agent: AG_FW_MEAS, AG_HC_MEAS and AG_DEBUG (R323). -/
def measItems : List RegItem :=
  ((List.range 6).map fun i => readItem (0x40 + 8 * i)) ++ ((List.range 6).map fun i => readItem (0x70 + 8 * i)) ++ [readItem 0xA0]

/-- Writes bytes [8i, 8i + 8) of a measurement, byte 8i in [7:0] (Table 7.8). -/
def setHashWord (h : Hash) (i : Nat) (w : Word) : Hash :=
  let bs := hashBytes h
  hashAt (bs.take (8 * i) ++ wordBytes w ++ bs.drop (8 * i + 8)) 0

/-- Tenancy of an endpoint changes (Table 10.3). -/
def setTenancy (s : State) (id : Nat) (t : Tenancy) : State := s.onRoster id fun r => { r with tenancy := t }

/-- The controller scrubs an endpoint: it enters SCRUBBING (R318). -/
def scrubEndpoint (s : State) (id : Nat) : State := sendScrub (setTenancy s id .scrubbing) id

/-- KEY_DELIVER with ERASE for a slot (Table 10.10). -/
def keyErase (s : State) (id slot epoch pkey island : Nat) : State :=
  let body := leBytes 8 id ++ leBytes 4 epoch ++ leBytes 2 pkey ++ leBytes 1 slot ++ leBytes 1 2 ++ List.replicate 200 0
  sendReq s { agent := id, kind := 0x0040, arg := BitVec.ofNat 64 slot, body := body, island := island }

/-- The slots that a mask names, ascending. -/
def slotsOf (m : BitVec 32) : List Nat := (List.range 32).filter m.getLsbD

/-- Erases every loaded slot of an agent under the epoch and key that it holds (R313, R321). -/
def eraseSlots (s : State) (id island : Nat) : State :=
  let r := s.roster id
  let w4 := FMap.getD r.bank (6 * 0x100000 + 4) 0
  (slotsOf r.slots).foldl (fun s slot => keyErase s id slot (fld w4 47 16) (fld w4 15 0) island) s

/-- An endpoint whose scrub fails or cannot be reached goes to QUARANTINED, and its keys are erased (R315, R321). -/
def quarantine (s : State) (id : Nat) : State := eraseSlots (setTenancy s id .quarantined) id 0

/-- An agent that answers, or sends anything, is not lost: AGENT_LOST of it clears (Table 11.3). -/
def heard (s : State) (id : Nat) : State := clearAt s (s.roster id).addr 0x1C4

/-- The model has learnt an agent's LIFE: RUNNING clears AGENT_FW (Table 11.3). -/
def lifeKnown (s : State) (id : Nat) : State := if (s.roster id).life = .running then clearAt s (s.roster id).addr 0x180 else s

/-! What an agent that starts from ROM receives again (R229, R400, R401). -/

/-- AG_STEP value of a unit (Table 7.8). -/
def stepWord (u : SusUnit) : Word :=
  at_ u.unit.toNat 0 ||| at_ (BitVec.ofInt 8 u.vstep).toNat 16 ||| at_ (BitVec.ofInt 8 u.fstep).toNat 24

/-- Register items that write the steps of an agent's units: unit n of the agent in AG_STEP_n (R401). -/
def stepItems (s : State) (id : Nat) : List RegItem :=
  (((s.integ.units.filter fun u => u.agent == id).take 16).zipIdx.map fun p => writeItem (0x300 + 8 * p.2) (stepWord p.1))

/-- The pattern sets of an agent's class in its store slots: the eight of the highest SET_ID, in ascending order. DESIGN CHOICE: the spec names no slot. -/
def patternSlots (s : State) (id : Nat) : List (PatSet × Nat) :=
  let l := s.integ.library.filter fun p => p.hcClass == (s.roster id).hcClass
  (l.drop (l.length - 8)).zipIdx

/-- Sends one pattern set as PAT_DATA packets of at most 4,080 bytes (R400). -/
def sendPattern (s : State) (id : Nat) (p : PatSet) (slot : Nat) : State :=
  (List.range ((p.image.length + 4079) / 4080)).foldl (fun t k =>
    sendReq t { agent := id, kind := 0x0061, arg := at_ slot 0 ||| at_ p.id 16 ||| at_ (4080 * k) 32
                body := (p.image.drop (4080 * k)).take 4080 }) s

/-- Firmware of an agent has started: its pattern store is loaded again, and its steps applied. -/
def firmwareStarted (s : State) (id : Nat) : State :=
  let s := (patternSlots s id).foldl (fun t p => sendPattern t id p.1 p.2) s
  if stepItems s id = [] then s else sendRegs s id (stepItems s id)

end Sys2Proof.Machine
end

