-- ==== Sys2Proof/Machine/Assign.lean ====
section
/-! DEFINITION. Places of the plan, and ASSIGN (R44, R225, R265, R267). -/

namespace Sys2Proof.Machine

/-! Places (R44, R265). -/

/-- The place of an identity in the plan: the position or switch it is to take, or none for a spare; an identity whose position a spare has taken is retired. -/
inductive Place where
  | unknown | retired | spare (pod slot : Nat) | at (a : FAddr)
  deriving DecidableEq, Repr

/-- Looks an identity up in the position, spare and switch tables, splices considered (R44, R265). -/
def placeOf (s : State) (id : Nat) : Place :=
  match s.fab.plan with
  | none => .unknown
  | some pl =>
    match s.fab.spliced.find? fun q => q.2 == id with
    | some q => .at (BitVec.ofNat 28 q.1)
    | none =>
      match ((planEntries pl 0x048) ++ planEntries pl 0x058).find? fun e => entryAgent e == id && !entryAbsent e && id != 0 with
      | none => .unknown
      | some e =>
        let w := entryWhere e
        if entrySpare e then .spare (bits w 15 0) (bits w 19 16)
        else if (s.fab.spliced.get w).isSome then .retired
        else .at (BitVec.ofNat 28 w)

/-- The address of an identity's place; 0x0FF_FFFF for a spare and for one without a place. -/
def placeAddr (s : State) (id : Nat) : FAddr :=
  match placeOf s id with
  | .at a => a
  | .unknown | .retired | .spare _ _ => noAddr

/-- Low corner of a pod along dimension k: 3 W, 2 X, 1 Y, 0 Z (R37). -/
def podCorner (pl : List Byte) (pod k : Nat) : Nat :=
  let c (k : Nat) : Nat := planDim pl k / planSide pl k
  let inner := match k with
    | 3 => c 2 * c 1 * c 0
    | 2 => c 1 * c 0
    | 1 => c 0
    | _ => 1
  pod / inner % c k * planSide pl k

/-- Coordinate k of a place as the firmware broadcast sees it: a position's own, its pod's low corner for a spare, the index modulo 64 for a switch (R267; log 175). -/
def loadCoord (s : State) (a : FAddr) (id k : Nat) : Nat :=
  match s.fab.plan with
  | none => 0
  | some pl =>
    if a = noAddr then ((s.roster id).spare.map fun p => podCorner pl p.1 k).getD 0
    else if addrKind a = 1 then addrIndex a % 64 else coordOf a k

/-- Group MAC of the firmware broadcast for an agent: base, class and row (R267). -/
def fwGroup (s : State) (a : FAddr) (id : Nat) : Nat :=
  match s.fab.plan with
  | none => 0
  | some pl => planField pl 0x030 8 + 64 * (s.roster id).hcClass + loadCoord s a id 3

/-! ASSIGN (R225, R265). -/

/-- The body of ASSIGN (Table 7.4). -/
def assignBody (s : State) (id : Nat) (a : FAddr) : List Byte :=
  leBytes 8 id ++ leBytes 4 a.toNat ++ leBytes 2 0x88B5 ++ leBytes 2 0 ++ leBytes 8 (fwGroup s a id) ++ leBytes 8 (Config.ctrlMac 1) ++
    leBytes 8 (if s.pair.paired then Config.ctrlMac 2 else 0) ++ List.replicate 8 0

/-- Sends ASSIGN (R225, R265). -/
def sendAssign (s : State) (id : Nat) (a : FAddr) : State :=
  sendReq s { agent := id, kind := 0x0021, body := assignBody s id a }

end Sys2Proof.Machine
end

