-- ==== Sys2Proof/Machine/Clock.lean ====
section
/-! DEFINITION. The time reference state and its register (R274, Table 8.13). -/

namespace Sys2Proof.Machine

/-- Codes of Table 8.12. -/
def TimeState.num : TimeState → Nat
  | .unlocked => 0
  | .locked => 1
  | .hold => 2
  | .slew => 3
  | .holdover => 4

/-- One of the two references. -/
def Time.ref (t : Time) : Side → TRef
  | .a => t.a
  | .b => t.b

/-- Changes one of the two references. -/
def Time.onRef (t : Time) (x : Side) (f : TRef → TRef) : Time :=
  match x with
  | .a => { t with a := f t.a }
  | .b => { t with b := f t.b }

/-- A reference is qualified: valid continuously for 10 s (R273). -/
def TRef.qualified (r : TRef) : Bool := r.valid && decide (10 ≤ r.qualS)

/-- Seconds in the current HOLDOVER, saturating. -/
def State.holdoverS (s : State) : Nat :=
  if s.time.st = .holdover then Nat.min ((s.now - s.time.holdoverAt) / 1000000000) 0xFFFF else 0

/-- LH_TIME_STATUS (Table 8.13). -/
def timeStatus (s : State) : Word :=
  let t := s.time
  at_ (Nat.min t.a.qualS 0xFFFF) 48 ||| at_ (Nat.min t.b.qualS 0xFFFF) 32 ||| at_ s.holdoverS 16 ||| b1 t.firstLock 7 |||
    b1 (t.st == .locked && t.target == .b && t.a.qualified) 6 ||| b1 t.b.valid 5 ||| b1 t.a.valid 4 ||| b1 (t.target == .b) 3 |||
    at_ t.st.num 0

/-- An offset as 32 bits, signed and saturating (Table 8.13). -/
def offset32 (d : Int) : BitVec 32 := BitVec.ofInt 32 (max (-2147483648) (min 2147483647 d))

/-- LH_TIME_OFFSET (Table 8.13). -/
def timeOffset (s : State) : Word := at_ (offset32 s.time.b.offset).toNat 32 ||| at_ (offset32 s.time.a.offset).toNat 0

/-- The time reference changes state; notice TIME_STATE tells of it (R274, Table 3.26). -/
def setTime (s : State) (st : TimeState) (target : Side) : State :=
  let old := s.time.st
  let s := s.onTime fun t =>
    { t with st := st, target := target, holdoverAt := if st = .holdover ∧ t.st ≠ .holdover then t.now else t.holdoverAt }
  if old = st then s else notify s 4 0 (timeStatus s) 0

/-- Loads fabric time: the references keep their own time, so that their offsets move against it (R275). -/
def loadTime (s : State) (t : Nat) : State :=
  let d := Int.ofNat s.now - Int.ofNat t
  s.onTime fun x => { x with now := t, rateAt := t - (x.now - x.rateAt), a := { x.a with offset := x.a.offset + d }, b := { x.b with offset := x.b.offset + d } }

/-- Time returns to reference A from LOCKED on B, once A has qualified (R276). -/
def returnToA (s : State) : State :=
  if s.time.st = .locked ∧ s.time.target = .b ∧ s.time.a.qualified then setTime s .hold .a else s

/-- Live islands: every island but one that is FREE. -/
def liveIslands (s : State) : List (Nat × Island) := s.isles.islands.filter fun q => q.2.st != .free

/-- An island has become FREE; with none live, a return to A starts at once (R276). -/
def islandGone (s : State) (h : Nat) : State :=
  let s := s.onIsles fun e => { e with islands := e.islands.del h }
  if liveIslands s = [] then returnToA s else s

end Sys2Proof.Machine
end

