-- ==== Sys2Proof/Machine/AgRoute.lean ====
section
/-! DEFINITION. The agent's forwarding pipeline: acknowledgements and MOVED, headers, and the packets that wait for a dead port (R40, R195, R196, R198, R201, R203, R207). -/

namespace Sys2Proof.Machine

/-! Acknowledgement (R198 to R201). -/

/-- Outstanding packets that an ACK of an expected SEQ does not cover (R201). -/
def TxFlow.uncovered (f : TxFlow) (seq : BitVec 16) : List (Pkt × Nat) :=
  f.out.filter fun p => !(decide (1 ≤ (seq - p.1.hdr.seq).toNat) && decide ((seq - p.1.hdr.seq).toNat ≤ 32767))

/-- The key of a flow: destination or source, and class. -/
def flowKey (a : FAddr) (cls : Nat) : Nat := 2 * a.toNat + cls % 2

/-- An ACK discards what it covers; what stays keeps the count of its own re-sends (R201). -/
def ackFlow (s : State) (id : Nat) (peer : FAddr) (cls : Nat) (seq : BitVec 16) : State :=
  s.onAgent id fun a =>
    { a with tx := a.tx.upd (flowKey peer cls) fun f => { f with out := f.uncovered seq } }

/-- An ACK of a receiving flow: its expected SEQ (R200, Table 6.4). -/
def sendAck (s : State) (id : Nat) (src : FAddr) (cls : Nat) (expected : BitVec 16) : State :=
  match s.agents.get id with
  | none => s
  | some a =>
    if src = a.addr then ackFlow s id src cls expected
    else launch s id (a.ctrlPkt src a.epoch a.pkey 1 cls 0 (expected.zeroExtend 32))

/-- Class of a sequenced packet: 0 data, 1 control. -/
def Hdr.flowClass (h : Hdr) : Nat := if h.typ = 0 then 0 else 1

/-- Island unicast DATA and MESSAGE packets are sequenced (R199, Table 6.4). -/
def Hdr.sequenced (h : Hdr) : Bool := h.pkey != 0 && !h.mcast && (h.typ == 0 || (h.isControl && h.opcode == 4))

/-- A sequenced packet addressed to a former member under its former key and epoch (R198). -/
def Agent.formerHit (a : Agent) (h : Hdr) : Bool :=
  a.former.getLsbD 63 && h.dst == a.addr && h.sequenced && h.pkey.toNat == fld a.former 15 0 && h.epoch.toNat == fld a.former 47 16

/-- A former member answers a packet of its former key and epoch with MOVED, at most once in 1 µs for each source and class (R198). -/
def sendMoved (s : State) (id : Nat) (h : Hdr) : State :=
  match s.agents.get id with
  | none => s
  | some a =>
    let k := 2 * h.src.toNat + h.flowClass
    let recent : Bool := match a.movedAt.get k with
      | none => false
      | some t => decide (s.now < t + 1000)
    if !a.formerHit h || recent then s
    else
      let s := s.onAgent id fun a => ({ a with movedAt := a.movedAt.set k s.now }).bump 8 35
      launch s id (a.ctrlPkt h.src h.epoch.toNat h.pkey.toNat 2 h.flowClass 0 (h.seq.zeroExtend 32))

/-! Headers (R195). -/

/-- A multicast copy is for this agent: it is not SRC, and its coordinates other than MDIM equal DST's (R203). -/
def Agent.onSpan (a : Agent) (h : Hdr) : Bool :=
  h.mcast && a.addr != h.src && (List.range 4).all fun k => k == h.mdim || coordOf a.addr k == coordOf h.dst k

/-- Remembers a packet that entered by a link, 16 for the local port, until its tail passes. -/
def notePassing (s : State) (id link : Nat) (h : Hdr) (deliver : Bool) (fwd : Option Nat) : State :=
  s.onAgent id fun a => { a with passing := a.passing.set (8 * link + h.vc) { hdr := h, deliver := deliver, fwd := fwd } }

/-- A fenced local port discards DATA and MESSAGE packets (R241). -/
def Agent.refuses (a : Agent) (h : Hdr) : Bool :=
  (a.fenced || a.abortFence) && (h.typ == 0 || (h.isControl && h.opcode == 4))

/-- The steps of R195 after the partition checks: delivery and forwarding; a former member answers what is addressed to it with MOVED and discards it (R198, R316). -/
def routeHeader (s : State) (id input link : Nat) (a : Agent) (h : Hdr) : State :=
  let mine := a.onSpan h && !a.refuses h
  let q : Queued := { link := link, input := input, p := { hdr := h } }
  if h.dst = a.addr then
    let refused := a.refuses h || a.formerHit h
    notePassing (sendMoved (s.emit (.dec id input (if refused then .discard else .deliver))) id h) id link h (!refused) none
  else match a.wayOf h input with
    | .drop w => notePassing (countDrop (s.emit (.dec id input (.drop w))) id (if input = 9 then a.countPort link else input) w h) id link h mine none
    | .noDetour p => notePassing (dropNoDetour (s.emit (.dec id input (.drop 31))) id (if input = 9 then a.countPort link else input) p) id link h mine none
    | .wait p => notePassing (s.onAgent id fun x => { x with waiting := x.waiting ++ [(p, q)] }) id link h mine none
    | .port out h' => notePassing ((s.emit (.dec id input (.forward out h'.route))).onAgent id fun x => x.forwarded out h' q) id link h mine (some out)

/-- A header at a switch agent: one with no valid destination is dropped, counted and recorded as at an endpoint, and of the others only control packets addressed to the switch pass (R22, R40). -/
def switchHeader (s : State) (id input link : Nat) (a : Agent) (h : Hdr) : State :=
  if !s.valid h.dst then countDrop (s.emit (.dec id input (.drop 29))) id input 29 h
  else if h.isControl ∧ h.dst = a.addr then notePassing (s.emit (.dec id input .deliver)) id link h true none
  else s.emit (.dec id input .discard)

/-- The quay link is the link of entry (R34). -/
def Agent.isQuay (a : Agent) (link : Nat) : Bool := a.quayValid && a.quayLink == link

/-- R195 on one header that enters by a link of an input. -/
def header (s : State) (id input link : Nat) (h : Hdr) : State :=
  onLive s id fun a =>
    if a.hc.isSwitch then switchHeader s id input link a h
    else
      let quay := a.isQuay link
      let port := if quay then a.countPort link else input
      let s := s.onAgent id fun x => (x.bump port 13).bump port 45 (if !h.isControl && h.poison then 1 else 0)
      if malformed a.addr h then countDrop (s.emit (.dec id input (.drop 47))) id port 47 h
      else if !s.valid h.dst then countDrop (s.emit (.dec id input (.drop 29))) id port 29 h
      else match a.partition h quay with
        | .keyBad => sendMoved (countDrop (s.emit (.dec id input (.drop 27))) id port 27 h) id h
        | .epochBad => sendMoved (countDrop (s.emit (.dec id input (.drop 28))) id port 28 h) id h
        | .ok => routeHeader s id (if quay then 9 else input) link a h

/-- PACKET_HEADER: a header arrives at input 0 to 7 by a link, which may be the quay link. -/
def execPacketHeader (agent input link : Nat) (hdr : Hdr) (s : State) : Ans :=
  .next (if input < 8 ∧ link < 16 then header s agent input link hdr else s)

/-! Packets that wait for a dead port, or leave a dead link (R33, R206, R207). -/

/-- The output of a packet whose tail has not passed is known to its tail. -/
def Agent.noteOut (a : Agent) (q : Queued) (out : Option Nat) : Agent :=
  match a.passing.get (8 * q.link + q.p.hdr.vc) with
  | none => a
  | some x => if x.hdr = q.p.hdr then { a with passing := a.passing.set (8 * q.link + q.p.hdr.vc) { x with fwd := out } } else a

/-- A packet that has not started goes on anew: its way is taken again, a packet of the local port is sent with it, and a mark that its tail was given goes along (R189, R207). -/
def release (s : State) (id : Nat) (q : Queued) : State :=
  match s.agents.get id with
  | none => s
  | some a =>
    match a.wayOf q.p.hdr q.input with
    | .port out h =>
      let s := s.onAgent id fun y => (y.forwarded out h q).noteOut q (some out)
      let s := if q.input = 8 then s.emit (.agPkt id ({ q.p with hdr := h }).sealed) else s.emit (.dec id q.input (.forward out h.route))
      if q.bad then s.emit (.markBad id out) else s
    | .drop c => countDrop ((s.onAgent id fun y => y.noteOut q none).emit (.dec id q.input (.drop c))) id (if q.input = 9 then a.countPort q.link else q.input) c q.p.hdr
    | .noDetour p => dropNoDetour ((s.onAgent id fun y => y.noteOut q none).emit (.dec id q.input (.drop 31))) id (if q.input = 9 then a.countPort q.link else q.input) p
    | .wait p => s.onAgent id fun x => { x with waiting := x.waiting ++ [(p, q)] }.noteOut q none

/-- DETOUR_APPLY: 4 ns after a port's death its armed detour is applied, and the headers that wait take it (R207). -/
def execDetourApply (agent port : Nat) (s : State) : Ans :=
  .next (onLive s agent fun a =>
    if !a.deadPorts.getLsbD port ∨ a.detoured.getLsbD port then s
    else
      let s := s.onAgent agent fun x =>
        { x with detoured := x.detoured ||| BitVec.ofNat 8 (2 ^ port), waiting := x.waiting.filter fun w => w.1 != port }.bump port 32
      (a.waiting.filter fun w => w.1 == port).foldl (fun t w => release t agent w.2) s)

/-- A packet that waits for a dead port, or at a link, carries the mark that its tail was given: the newest one of the tail's header (R189). -/
def markLast (q : Hdr) (link : Nat) (l : List Queued) : List Queued :=
  (replaceFirst (fun x => x.link == link && x.p.hdr == q) (fun x => { x with bad := true }) l.reverse).reverse

/-- BAD on a packet whose tail has passed: it stays marked where it waits (R189, R207). -/
def Agent.markTail (a : Agent) (h : Hdr) (link : Nat) : Agent :=
  { a with waiting := (a.waiting.zip (markLast h link (a.waiting.map (·.2)))).map fun w => (w.1.1, w.2)
           outq := a.outq.mapVals fun _ o => { o with q := o.q.mapVals fun _ l => markLast h link l } }

end Sys2Proof.Machine
end

