-- ==== Sys2Proof/Machine/Plaus.lean ====
section
/-! DEFINITION. Element formats and the plausibility figures of a block (R382, R383, R387, R388, Table 12.1). -/

namespace Sys2Proof.Machine

/-- What one element of a block is: zero, NaN, Inf, or finite with its exponent e; `extreme` for an integer element equal to 127 or −128. -/
inductive Elem where
  | zero | nan | inf
  | finite (e : Int) (extreme : Bool)
  deriving DecidableEq, Repr

/-- ⌊log2 n⌋ of a positive number. -/
def log2 (n : Nat) : Nat := ((List.range 64).filter fun k => decide (2 ^ k ≤ n)).length - 1

/-- A floating-point element of given exponent width, mantissa width, bias and scale exponent; NaN and Inf by the column of Table 12.1: 0 as FP64, 1 E4M3, 2 neither. -/
def floatElem (ew mw : Nat) (bias : Int) (specials : Nat) (scale : Int) (v : Nat) : Elem :=
  let ex := bits v (mw + ew - 1) mw
  let m := v % 2 ^ mw
  if specials = 0 ∧ ex = 2 ^ ew - 1 then (if m = 0 then .inf else .nan)
  else if specials = 1 ∧ ex = 2 ^ ew - 1 ∧ m = 2 ^ mw - 1 then .nan
  else if ex = 0 then (if m = 0 then .zero else .finite (1 - bias + scale) false)
  else .finite (Int.ofNat ex - bias + scale) false

/-- An 8-bit two's-complement element with its scale exponent. -/
def intElem (scale : Int) (v : Nat) : Elem :=
  let mag := if 128 ≤ v then 256 - v else v
  if mag = 0 then .zero else .finite (Int.ofNat (log2 mag) + scale) (v == 127 || v == 128)

/-- Bits of an element of a format (Table 12.1). -/
def fmtBits (f : Nat) : Nat :=
  if f = 0 then 64 else if f = 1 ∨ f = 3 then 32 else if f = 2 ∨ f = 4 then 16 else if f = 7 ∨ f = 8 then 6 else if f = 9 then 4 else 8

/-- The format has E8M0 scales (Table 12.1). -/
def fmtScaled (f : Nat) : Bool := (decide (5 ≤ f) && decide (f ≤ 9)) || f == 11

/-- An element of a format; the scale exponent is that of its group, less the E8M0 bias of 127. -/
def elemOf (f : Nat) (scale : Int) (v : Nat) : Elem :=
  if f = 0 then floatElem 11 52 1023 0 0 v
  else if f = 1 ∨ f = 3 then floatElem 8 23 127 0 0 v
  else if f = 2 then floatElem 5 10 15 0 0 v
  else if f = 4 then floatElem 8 7 127 0 0 v
  else if f = 5 then floatElem 4 3 7 1 scale v
  else if f = 6 then floatElem 5 2 15 0 scale v
  else if f = 7 then floatElem 3 2 3 2 scale v
  else if f = 8 then floatElem 2 3 1 2 scale v
  else if f = 9 then floatElem 2 1 1 2 scale v
  else if f = 11 then intElem (scale - 6) v
  else intElem 0 v

/-- Groups of a scaled block of P bytes (R383). -/
def fmtGroups (f p : Nat) : Nat := p / (4 * fmtBits f + 1)

/-- The elements of a block (R382, R383). -/
def elemsOf (f : Nat) (bs : List Byte) : List Elem :=
  if fmtScaled f then
    let b := fmtBits f
    let g := fmtGroups f bs.length
    (List.range g).flatMap fun k =>
      let sc := leAt bs (4 * b * g + k) 1
      let grp := leAt bs (4 * b * k) (4 * b)
      (List.range 32).map fun i =>
        if sc = 0xFF then .nan else elemOf f (Int.ofNat sc - 127) (bits grp (b * i + b - 1) (b * i))
  else
    let n := fmtBits f / 8
    (List.range (bs.length / n)).map fun i => elemOf f 0 (leAt bs (n * i) n)

/-- Nonzero bytes of the zero tail of a scaled block, each one out-of-window element (R387). -/
def tailCount (f : Nat) (bs : List Byte) : Nat :=
  if fmtScaled f then ((bs.drop (fmtGroups f bs.length * (4 * fmtBits f + 1))).filter (· != 0)).length else 0

/-- A signed byte of a register. -/
def sbyte (w : Word) (lo : Nat) : Int := (w.extractLsb' lo 8).toInt

/-- An element is out of the window of AG_PLAUS (R387). -/
def outOfWindow (plaus : Word) (f : Nat) : Elem → Bool
  | .finite e extreme =>
    if f = 10 ∨ f = 11 then extreme else decide (e < sbyte plaus 40) || decide (sbyte plaus 48 < e)
  | .zero => false
  | .nan => false
  | .inf => false

/-- The histogram bin of an element (R388). -/
def binOf : Elem → Nat
  | .zero => 0
  | .nan => 15
  | .inf => 15
  | .finite e _ => if e ≤ -49 then 1 else if 48 ≤ e then 14 else ((e + 64) / 8).toNat

/-- Adds a block to the figures of the step (R387, R388). -/
def Plaus.add (q : Plaus) (plaus : Word) (f : Nat) (bs : List Byte) : Plaus :=
  let es := elemsOf f bs
  let nans := (es.filter (· == .nan)).length
  let infs := (es.filter (· == .inf)).length
  let outs := (es.filter (outOfWindow plaus f)).length + tailCount f bs
  let bad := (decide (0 < nans) && !plaus.getLsbD 0) || (decide (0 < infs) && !plaus.getLsbD 1) || decide (fld plaus 31 16 < outs)
  { q with blocks := satAdd 0xFFFFFFFF q.blocks 1, violations := satAdd 0xFFFFFFFF q.violations (if bad then 1 else 0)
           nans := satAdd 0xFFFFFFFF q.nans nans, infs := satAdd 0xFFFFFFFF q.infs infs
           hist := es.foldl (fun h e => h.set (binOf e) (satAdd 0xFFFFFFFF (h.getD (binOf e) 0) 1)) q.hist
           firstFmt := if bad ∧ q.firstFmt = none then some f else q.firstFmt }

end Sys2Proof.Machine
end

