-- ==== Sys2Proof/Machine/AgFlow.lean ====
section
/-! DEFINITION. Tails and their checks, delivery in sequence, acknowledgement, re-sending, injection and schedule slots (R184, R187 to R190, R198 to R204, R210, R213 to R216, R384, R385). -/

namespace Sys2Proof.Machine

/-! Firmware's packet queue (R172, R232). -/

/-- A MESSAGE for an agent's firmware: queued with cause MESSAGE, or dropped with MSG_DROP outside RUNNING and at a full queue (R172, R232). -/
def agentMessage (s : State) (id : Nat) (h : Hdr) : State :=
  match s.agents.get id with
  | none => s
  | some a =>
    if a.life ≠ .running ∨ 64 ≤ a.core.msgs.length then agentFault s id 0x002 0x041 .note
    else agentCause (s.onAgent id fun x => { x with core := { x.core with msgs := x.core.msgs ++ [h.bytes] } }) id causeMessage

/-- SUB codes of Table 12.4 that have commands of their own when they reach the firmware. -/
def integritySub (n : Nat) : Bool := [0xD0, 0xE1, 0xE2].contains n

/-- Hands a delivered packet over: DATA and messages for the integrity receiver to the host chip, other messages to the firmware. Every other packet's effect is its own command's (log 17). -/
def handOver (s : State) (id : Nat) (p : Pkt) : State :=
  let h := p.hdr
  if h.typ = 0 then
    let s := s.emit (.deliver id p)
    if h.poison then
      agentFault (s.onAgent id fun a => { a with integ := { a.integ with fig := { a.integ.fig with poisoned := true } } }) id 1 0x20C .note
    else s
  else if h.isControl ∧ h.opcode = 4 then
    if h.context = 0 then (if integritySub h.sub then s else agentMessage s id h)
    else if 0xF00000 ≤ h.context then s.emit (.deliver id p)
    else agentFault s id 0x002 0x041 .note
  else s

/-- The local port sends a delivered packet, and counts it (R217, log 151). -/
def sendLocal (s : State) (id : Nat) (p : Pkt) : State :=
  handOver (s.onAgent id fun a => (a.bump 8 12).bump 8 p.hdr.vc p.hdr.flits) id p

/-! Receiving flows (R200). -/

/-- Delivers a sequenced packet, or drops it out of sequence or as a duplicate (R200). -/
def receive (s : State) (id : Nat) (p : Pkt) : State :=
  match s.agents.get id with
  | none => s
  | some a =>
    let h := p.hdr
    let k := flowKey h.src h.flowClass
    let f := a.rx.getD k {}
    let d := (h.seq - f.expected).toNat
    if d = 0 then
      let n := f.unacked + 1
      let due := decide (fld (a.param 0) 47 40 ≤ n)
      let s := sendLocal (s.onAgent id fun x =>
        { x with rx := x.rx.set k { expected := f.expected + 1, unacked := if due then 0 else n } }) id p
      if due then sendAck s id h.src h.flowClass (f.expected + 1) else s
    else if d < 32768 then s.onAgent id fun x => x.bump 8 37
    else sendAck (s.onAgent id fun x => x.bump 8 38) id h.src h.flowClass f.expected

/-- ACK_DELAY: ACK_DELAY_NS after the first unacknowledged delivery of a flow, an ACK is sent (R200). -/
def execAckDelay (agent : Nat) (src : FAddr) (cls : Nat) (s : State) : Ans :=
  .next (onLive s agent fun a =>
    match a.rx.get (flowKey src cls) with
    | none => s
    | some f =>
      if f.unacked = 0 then s
      else sendAck (s.onAgent agent fun x => { x with rx := x.rx.set (flowKey src cls) { f with unacked := 0 } }) agent src cls f.expected)

/-! Checks of tails (R189, R384, R385). -/

/-- What the checkers of a port say of a packet: PCHK passes, BCV passes, and whether the two checkers disagree with the primary reporting the failure. `flips` inverts a checker's result: bits 0 and 1 the primary's PCHK and BCV, bits 2 and 3 the shadow's. -/
def checkTail (st : ChkState) (p : Pkt) (flips : BitVec 4) : Bool × Bool × Option Bool :=
  let pc := p.hdr.pchk == p.goodPchk
  let bc := p.hdr.isControl || p.hdr.poison || p.hdr.bcv == crc64 p.payload
  let pp := pc != flips.getLsbD 0
  let pb := bc != flips.getLsbD 1
  let sp := pc != flips.getLsbD 2
  let sb := bc != flips.getLsbD 3
  match st with
  | .primary => (pp, pb, none)
  | .shadow => (sp, sb, none)
  | .dead => (pp, pb, none)
  | .compare => (pp && sp, pb && sb, if pp = sp ∧ pb = sb then none else some (!(pp && pb)))

/-- Counts and records a failed check at a port; a BCV-only failure makes a self-test due, and so does a disagreement (R189, R384, R385). -/
def recordCheck (s : State) (id port : Nat) (pOk bOk : Bool) (dis : Option Bool) : State :=
  let s := s.onAgent id fun a => (a.bump port 25 (if pOk then 0 else 1)).bump port 26 (if bOk then 0 else 1)
  let s := if pOk then s else agentFault s id 0 0x103 .corrected (Config.openDetail 0x103 0 s.nonce [port]) (withBit0 (Config.openDetail 0x103 1 s.nonce [port]) (!bOk))
  let s := if pOk && !bOk then
      agentFault (s.onAgent id fun a => { a with integ := { a.integ with
          bcvOnly := a.integ.bcvOnly.set port (s.now :: (a.integ.bcvOnly.getD port []).filter fun t => decide (s.now < t + 10000000000))
          selfTest := if (a.integ.selfTest.get port).isSome then a.integ.selfTest else a.integ.selfTest.set port none } })
        id 0 0x104 .corrected (Config.openDetail 0x104 0 s.nonce [port]) (Config.openDetail 0x104 1 s.nonce [port])
    else s
  match dis with
  | none => s
  | some prim => s.onAgent id fun a => { a with integ := { a.integ with selfTest := a.integ.selfTest.set port (some prim) } }

/-- A packet that reaches its destination with its tail: delivered, or discarded without an acknowledgement (R189, R200, R204). -/
def arrive (s : State) (id : Nat) (p : Pkt) (ok : Bool) : State :=
  let h := p.hdr
  if h.mcast then
    if ok then sendLocal (s.onAgent id fun a => a.bump 8 43) id p
    else (s.onAgent id fun a => a.bump 8 44).emit (.niEvt id .mcastLoss h.src (BitVec.ofNat 6 h.stream) h.bcv)
  else if !ok then s
  else if h.sequenced then receive s id p
  else sendLocal s id p

/-- The oldest scheduled packet has left the local port (R215). -/
def Agent.leaveSlot (a : Agent) (vc : Nat) : Agent := if vc < 2 then { a with slots := a.slots.drop 1 } else a

/-- PACKET_TAIL: a packet's tail passes the port that its header entered by, link 16 the local port: the checks act, then it is delivered or goes on, BAD marked where they failed, also on a packet that still waits (R189, R215). -/
def execPacketTail (agent input link vc : Nat) (payload : List Byte) (bad : Bool) (flips : BitVec 4) (s : State) : Ans :=
  .next (onLive s agent fun a =>
    let s := if link = 16 then s.onAgent agent fun x => x.leaveSlot vc else s
    match a.passing.get (8 * link + vc) with
    | none => s
    | some q =>
      let port := if link = 16 then 8 else if a.isQuay link then a.countPort link else input
      let p : Pkt := { hdr := q.hdr, payload := payload }
      let (pOk, bOk, dis) := if link = 16 ∨ bad then (true, true, none) else checkTail (a.integ.chk.getD port .primary) p flips
      let ok := pOk && bOk && dis.isNone && !bad
      let s := recordCheck (s.onAgent agent fun x => { x with passing := x.passing.del (8 * link + vc) }) agent port pOk bOk dis
      let s := if ok then s else
        let s := s.onAgent agent fun x => x.markTail q.hdr link
        match q.fwd with
        | none => s
        | some out => s.emit (.markBad agent out)
      if q.deliver then arrive s agent p ok else s)

/-! Sending flows (R198, R199, R201, R202). -/

/-- ACK: the source discards every packet that it covers. -/
def execAck (agent : Nat) (peer : FAddr) (cls : Nat) (seq : BitVec 16) (s : State) : Ans :=
  .next (onLive s agent fun _ => ackFlow s agent peer cls seq)

/-- Ends a flow and reports it to the host chip (R198, R201, R290). -/
def endFlow (s : State) (id : Nat) (k : Nat) (f : TxFlow) (e : FlowEvt) : State :=
  let st := (f.out.head?.map fun p => p.1.hdr.stream).getD 0
  (s.onAgent id fun a => { a with tx := a.tx.set k { f with out := [], ended := true } }).emit
    (.niEvt id e (BitVec.ofNat 28 (k / 2)) (BitVec.ofNat 6 st) 0)

/-- Times that the oldest outstanding packet of a flow has been re-sent (R201). -/
def TxFlow.tries (f : TxFlow) : Nat := (f.out.head?.map (·.2)).getD 0

/-- E2E_TIMEOUT: every outstanding packet is re-sent in SEQ order, or the flow ends with FLOW_FAILED when its oldest packet has been re-sent RESEND_LIMIT times (R201). -/
def execE2eTimeout (agent : Nat) (dst : FAddr) (cls : Nat) (s : State) : Ans :=
  .next (onLive s agent fun a =>
    match a.tx.get (flowKey dst cls) with
    | none => s
    | some f =>
      if f.out = [] ∨ f.ended then s
      else
        let s := s.onAgent agent fun x => x.bump 8 40
        if fld (a.param 0) 39 36 ≤ f.tries then
          endFlow (agentFault s agent 0 0x140 .uncorrected) agent (flowKey dst cls) f .flowFailed
        else
          let s := s.onAgent agent fun x =>
            { x with tx := x.tx.set (flowKey dst cls) { f with out := f.out.map fun (p : Pkt × Nat) => (p.1, p.2 + 1) } }.bump 8 39 f.out.length
          f.out.foldl (fun t p => launch t agent p.1) s)

/-- MOVED: the flow stops, its outstanding packets are dropped, and MOVED is reported (R198). -/
def execMoved (agent : Nat) (src : FAddr) (cls : Nat) (s : State) : Ans :=
  .next (onLive s agent fun a => endFlow s agent (flowKey src cls) (a.tx.getD (flowKey src cls) {}) .moved)

/-! Slots (R213, R214). -/

/-- The SLOTS entry that covers slot n of the period: its two words, walking entries from i on (R213). -/
def slotEntry (a : Agent) : Nat → Nat → Nat → Option (Word × Word)
  | 0, _, _ => none
  | fuel + 1, i, n =>
    let w1 := Bank.word a.bank 5 i 1
    let run := fld w1 15 0 + 1
    if n < run then some (Bank.word a.bank 5 i 0, w1)
    else if w1.getLsbD 63 then none
    else slotEntry a fuel (i + 1) (n - run)

/-- SLOT_NS of the installed PARAMS. -/
def Agent.slotNs (a : Agent) : Nat := fld (a.param 3) 15 0

/-- The slot that runs now, counted from SCHED_T0; none before it. -/
def Agent.slotNow (a : Agent) (s : State) : Option Nat :=
  if a.ft s < (a.param 2).toNat ∨ a.slotNs = 0 then none else some ((a.ft s - (a.param 2).toNat) / a.slotNs)

/-- The lanes in use of a port, over its live links. -/
def Agent.portLanes (a : Agent) (p : Nat) : Nat := (a.portLinks p).foldl (fun n l => if a.linkLive l then n + (a.link l).inUse else n) 0

/-- The packet's last flit can leave by the end of the slot less GUARD_NS at the port's rate of 224 Gb/s a lane (R25, R214). -/
def Agent.fitsSlot (a : Agent) (s : State) (h : Hdr) (slot : Nat) : Bool :=
  let endNs := (a.param 2).toNat + (slot + 1) * a.slotNs - fld (a.param 3) 47 32
  match a.wayOf h 8 with
  | .port p _ => decide (h.flits * 512 ≤ (endNs - a.ft s) * (a.portLanes p * 224))
  | _ => true

/-- The conditions of R214 hold for the first sending of a DATA packet. -/
def Agent.slotOk (a : Agent) (s : State) (h : Hdr) : Bool :=
  if !(a.param 3).getLsbD 48 then true
  else match a.slotNow s with
    | none => false
    | some n =>
      match slotEntry a 16384 0 (n % (fld (a.param 3) 31 16 + 1)) with
      | none => false
      | some (w0, w1) =>
        let names := (w0.getLsbD 31 && w0.truncate 28 == h.dst) || (w0.getLsbD 63 && (w0.extractLsb' 32 28 : FAddr) == h.dst)
        let started := if a.slotAt = n then a.slotN else 0
        names && (fld w1 31 16 == 0 || decide (started < fld w1 31 16)) && a.fitsSlot s h n

/-! Injection (R184, R190, R199, R210, R214, R289). -/

/-- The header that the agent writes over an injected one: SRC, EPOCH, PKEY, SEQ and ROUTE (R184). -/
def Agent.stamp (a : Agent) (h : Hdr) : Hdr :=
  let h := { h with w1 := BitVec.ofNat 32 (a.addr.toNat + h.fmt * 2 ^ 28), epoch := BitVec.ofNat 32 a.epoch
                    pkey := BitVec.ofNat 16 a.pkey, seq := 0, route := routeOf (if h.typ = 0 then 0 else 2) false 0 0 }
  if h.sequenced then { h with seq := (a.tx.getD (flowKey h.dst h.flowClass) {}).next } else h

/-- The flow of an injected packet. -/
def Agent.flowOf (a : Agent) (h : Hdr) : TxFlow := a.tx.getD (flowKey h.dst h.flowClass) {}

/-- What an installation holds: new DATA and MESSAGE injections while HELD or COMMITTED (R289). -/
def Agent.tsHolds (a : Agent) (h : Hdr) : Bool :=
  (a.ts.st == .held || a.ts.st == .committed) && (h.typ == 0 || (h.isControl && h.opcode == 4))

/-- The window of regime A, and the limit of every flow (R199, R210). -/
def Agent.windowFull (a : Agent) (h : Hdr) : Bool :=
  (a.stamp h).sequenced && (decide (32767 ≤ (a.flowOf h).out.length) ||
    (!a.regimeB && h.typ == 0 && decide (fld (a.param 0) 15 5 ≤ (a.flowOf h).out.length)))

/-- The stamped packet would leave on VC4/VC5, or waits for its dead port's detour: no slot holds it (R216). -/
def Agent.detours (a : Agent) (h : Hdr) : Bool :=
  match a.wayOf h 8 with
  | .port _ h' => h'.detour
  | .wait _ => true
  | .drop _ => false
  | .noDetour _ => false

/-- The slot checks apply to the first sending of a stamped packet: DATA that takes no detour, with SCHED_EN set (R214, R216). -/
def Agent.scheduled (a : Agent) (h : Hdr) : Bool := h.typ == 0 && (a.param 3).getLsbD 48 && !a.detours h

/-- The packet may start now. -/
def Agent.mayStart (a : Agent) (s : State) (h : Hdr) : Bool :=
  !a.tsHolds h && !a.windowFull h && (!a.scheduled (a.stamp h) || a.slotOk s (a.stamp h))

/-- A stamped packet of the local port is checked there, joins its flow and is sent; none goes under key 0 (R49, R196, R199). -/
def sendOwn (s : State) (id : Nat) (a : Agent) (p : Pkt) : State :=
  let h := p.hdr
  if malformed a.addr h then countDrop s id 8 47 h
  else if !s.valid h.dst then countDrop s id 8 29 h
  else if h.pkey = 0 then countDrop s id 8 27 h
  else match a.partition h false with
    | .keyBad => countDrop s id 8 27 h
    | .epochBad => countDrop s id 8 28 h
    | .ok =>
      let s := if h.sequenced then
          let f : TxFlow := { a.flowOf h with next := h.seq + 1, out := (a.flowOf h).out ++ [(p, 0)] }
          s.onAgent id fun x => { x with tx := x.tx.set (flowKey h.dst h.flowClass) f }
        else s
      if h.dst = a.addr then notePassing (s.emit (.dec id 8 .deliver)) id 16 p.sealed.hdr true none
      else launch s id p

/-- The packet goes: it is stamped, counted in its slot and flow, judged for plausibility, checked at the local port and sent (R184, R196, R199, R387). -/
def inject (s : State) (id : Nat) (a : Agent) (j : Inj) : State :=
  let h := a.stamp j.hdr
  let p : Pkt := { hdr := h, payload := j.payload }
  let s := s.emit (.inj id .go)
  let s := if a.scheduled h then
      match a.slotNow s with
      | none => s
      | some n => s.onAgent id fun x =>
        { x with slotAt := n, slotN := (if x.slotAt = n then x.slotN else 0) + 1, slots := x.slots ++ [(n, false)] }
    else s
  let s := if h.typ = 0 ∧ h.poison then
      s.onAgent id fun x => { x with integ := { x.integ with fig := { x.integ.fig with poisoned := true } } }.bump 8 45
    else if h.typ = 0 ∧ h.fmt < 12 ∧ a.integ.plaus.getLsbD 63 then
      s.onAgent id fun x => { x with integ := { x.integ with fig := x.integ.fig.add x.integ.plaus h.fmt j.payload } }
    else s
  let s := s.onAgent id fun x => (x.bump 8 13).bump 8 (6 + h.vc) h.flits
  sendOwn s id a p

/-- After the block check: refusal, hold or grant of an injection. -/
def takeInj (s : State) (id : Nat) (a : Agent) (j : Inj) : State :=
  if (a.stamp j.hdr).sequenced ∧ (a.flowOf j.hdr).ended then s.emit (.inj id .reject)
  else if a.mayStart s j.hdr ∧ !a.heldInj.any (fun k => k.hdr.dst == j.hdr.dst && k.hdr.flowClass == j.hdr.flowClass) then inject s id a j
  else (s.emit (.inj id .hold)).onAgent id fun x => { x with heldInj := x.heldInj ++ [j] }

/-- A block whose BCV is to be verified at injection: DATA and MGMT with POISON clear (R189, R190). -/
def Hdr.hasBcv (h : Hdr) : Bool := !h.isControl && !h.poison

/-- INJECTION_REQUEST: a fenced port refuses; an unassigned endpoint drops DATA; a mismatched block is read once more; else the packet is admitted. -/
def execInjectionRequest (agent : Nat) (hdr : Hdr) (payload : List Byte) (s : State) : Ans :=
  .next (onLive s agent fun a =>
    if a.fenced ∨ a.abortFence then s.emit (.inj agent .reject)
    else if hdr.typ = 0 ∧ !a.assigned then countDrop (s.emit (.dec agent 8 (.drop 27))) agent 8 27 (a.stamp hdr)
    else if hdr.hasBcv ∧ hdr.bcv ≠ crc64 payload then
      ((s.onAgent agent fun x => { x with reread := some { hdr := hdr, payload := payload } }.bump 8 26)).emit (.inj agent .reread)
    else takeInj s agent a { hdr := hdr, payload := payload })

/-- BLOCK_REREAD: a second mismatch sends the packet with POISON and records BLOCK_CHECK, UNCORRECTED (R190). -/
def execBlockReread (agent : Nat) (payload : List Byte) (s : State) : Ans :=
  .next (onLive s agent fun a =>
    match a.reread with
    | none => s
    | some j =>
      let s := s.onAgent agent fun x => { x with reread := none }
      if j.hdr.bcv = crc64 payload then takeInj s agent { a with reread := none } { j with payload := payload }
      else
        let s := agentFault (s.onAgent agent fun x => x.bump 8 26) agent 0 0x104 .uncorrected
        match s.agents.get agent with
        | none => s
        | some x => takeInj s agent x { hdr := { j.hdr with h12 := j.hdr.h12 ||| 8 }, payload := payload })

/-- HELD_INJECTION_START: the oldest held packet that may now start does, and the held cycles are counted (R214). -/
def execHeldInjectionStart (agent cycles : Nat) (s : State) : Ans :=
  .next (onLive s agent fun a =>
    if a.fenced ∨ a.abortFence then s
    else match a.heldInj.find? fun j => a.mayStart s j.hdr with
      | none => s
      | some j =>
        let s := s.onAgent agent fun x =>
          { x with heldInj := x.heldInj.erase j }.bump 8 42 (if a.scheduled (a.stamp j.hdr) then cycles else 0)
        if (a.stamp j.hdr).sequenced ∧ (a.flowOf j.hdr).ended then s.emit (.inj agent .reject)
        else match s.agents.get agent with
          | none => s
          | some x => inject s agent x j)

/-- SLOT_END: the oldest scheduled packet that has neither left the local port nor slipped is late at the end of its slot: a slip, counted and recorded with the slot number and the overrun in ns (R215; log 190). -/
def execSlotEnd (agent overrun : Nat) (s : State) : Ans :=
  .next (onLive s agent fun a =>
    match a.slots.find? fun e => !e.2 with
    | none => s
    | some e =>
      agentFault (s.onAgent agent fun x => { x with slots := replaceFirst (fun e => !e.2) (fun e => (e.1, true)) x.slots }.bump 8 41)
        agent 0 0x142 .note (BitVec.ofNat 64 (e.1 % (fld (a.param 3) 31 16 + 1))) (BitVec.ofNat 64 overrun))

end Sys2Proof.Machine
end

