-- ==== Sys2Proof/Machine/AgLink.lean ====
section
/-! DEFINITION. Links of an agent: credits and XOFF, lanes and link death, hellos, link reports, time symbols, calibration and checker self-tests (R193, R205, R210, R211, R224, R278, R306, R307, R384, R385). -/

namespace Sys2Proof.Machine

/-- Runs an operation on a link of an agent out of reset. -/
def onLink (s : State) (id link : Nat) (act : Agent → Link → State) : State :=
  onLive s id fun a => if 16 ≤ link then s else act a (a.link link)

/-- Changes one virtual channel of a link. -/
def Agent.onVc (a : Agent) (n vc : Nat) (f : LinkVc → LinkVc) : Agent :=
  a.onLink n fun l => { l with vcs := l.vcs.set vc (f (l.vc vc)) }

/-- Changes one lane of a link. -/
def Agent.onLane (a : Agent) (n k : Nat) (f : Lane → Lane) : Agent :=
  a.onLink n fun l => { l with lanes := l.lanes.set k (f (l.lane k)) }

/-! Link reports (R224, Table 7.2). -/

/-- AG_NBR_n (Table 7.8). -/
def Link.nbrWord (l : Link) : Word := at_ (l.nbrLink % 16) 60 ||| b1 l.nbrValid 59 ||| at_ (l.nbr % 2 ^ 56) 0

/-- Lowest margin of the lanes in use. -/
def Link.margin (l : Link) : Nat := ((List.range 4).filter fun k => (l.lane k).inUse).foldl (fun m k => Nat.min m (l.lane k).margin) 15

/-- The body of LINK_REPORT. -/
def reportBody (a : Agent) : List Byte :=
  (List.range 16).flatMap fun n =>
    let l := a.link n
    wordBytes l.nbrWord ++ wordBytes (at_ l.inUse 0 ||| at_ l.margin 8)

/-- A table set has been installed: some port of the bank is in use. -/
def bankInstalled (b : Bank) : Bool := (List.range 8).any fun p => (Bank.word b 4 p 0).getLsbD 20

/-- Sends LINK_REPORT: on the ordinary network, and once a table set is installed on the tensor network where the ordinary one does not reach (R15, R224). -/
def sendReport (s : State) (id : Nat) : State :=
  match s.agents.get id with
  | none => s
  | some a =>
    let net := if bankInstalled a.bank then agentNet s id .ordinary else .ordinary
    (agentMgmt s id net 0 0x0022 0 0 0 (reportBody a)).onAgent id fun x => { x with reportDue := false, reportAt := some s.now }

/-- A change of AG_NBR_n or of a lane count: an assigned agent reports, at most once per 10 ms (R224). -/
def linkChanged (s : State) (id : Nat) : State :=
  match s.agents.get id with
  | none => s
  | some a =>
    let soon : Bool := match a.reportAt with
      | none => false
      | some t => decide (s.now < t + 10000000)
    if !a.assigned then s
    else if soon then s.onAgent id fun x => { x with reportDue := true }
    else sendReport s id

/-- LINK_REPORT_HOLDOFF: the 10 ms limit has ended. -/
def execLinkReportHoldoff (agent : Nat) (s : State) : Ans :=
  .next (onLive s agent fun a => if a.reportDue && a.assigned then sendReport s agent else s)

/-! Lanes and link death (R26, R28, R33, R205). -/

/-- LANES of every port (Table 6.13). -/
def Agent.refreshLanes (a : Agent) : Agent :=
  (List.range 8).foldl (fun x p =>
    let v := (List.range 16).foldl (fun w n => if a.countPort n = p then w ||| at_ (a.link n).inUse (4 * n) else w) (0 : Word)
    x.setCount p 20 v) a

/-- The logical port of a link. -/
def Agent.portOf (a : Agent) (n : Nat) : Option Nat := (List.range 8).find? fun p => (a.portLinks p).contains n

/-- A link is driven: before a table set is installed every cabled link is; then those of a port and the quay link are, by the staged tables while an installation holds the agent. The neighbour's end of a quay link is not (R27, R29, R34). -/
def Agent.driven (a : Agent) (n : Nat) : Bool :=
  let b := if a.ts.st = .held then a.stage else a.bank
  let w5 := Bank.word b 6 0 5
  !bankInstalled b || (w5.getLsbD 20 && fld w5 19 16 == n) ||
    (List.range 8).any fun p => (Bank.word b 4 p 0).getLsbD 20 && (Bank.word b 4 p 0).getLsbD n

/-- A link and its lanes go out of use. -/
def Link.down (l : Link) : Link := { l with live := false, lanes := l.lanes.mapVals fun _ k => { k with inUse := false } }

/-- A port whose last link has died is dead; its detour is not yet applied (R33, R207). -/
def Agent.portDeath (a : Agent) (n : Nat) : Agent :=
  match a.portOf n with
  | none => a
  | some p =>
    if a.portLive p then a
    else
      let m := BitVec.ofNat 8 (2 ^ p)
      { a with deadPorts := a.deadPorts ||| m, detoured := a.detoured &&& ~~~m, noDetour := a.noDetour &&& ~~~m }

/-- The packets at a link that have not started, by virtual channel: those partly sent are lost (R207). -/
def OutQ.whole (o : OutQ) : List Queued := o.q.flatMap fun v => v.2.filter fun q => q.left == q.flits

/-- What waited at a dead link goes on: on its port's live links by the hash, or by the way that its header now has, which for a dead port is the wait for its detour (R32, R33, R207). -/
def requeue (s : State) (id n : Nat) (o : OutQ) : State :=
  o.whole.foldl (fun t q => release t id q) (s.onAgent id fun a => { a with outq := a.outq.del n })

/-- A link dies: LINK_DOWN, LINK_DEAD and, with its last link, its port's death; what waited there goes on. A link that is not driven counts as neither live nor dead and ends without a record (R33, R34, R205). -/
def killLink (s : State) (id n : Nat) : State :=
  match s.agents.get id with
  | none => s
  | some a =>
    if !(a.link n).live then s
    else
      let o := a.outq.getD n {}
      let down (x : Agent) : Agent := x.onLink n Link.down
      if !a.driven n then requeue (linkChanged (s.onAgent id fun x => (down x).refreshLanes) id) id n o
      else
        let s := s.onAgent id fun x => (((down x).bump (x.countPort n) 36).refreshLanes).portDeath n
        let s := s.emits ((((List.range 4).filter fun k => ((a.link n).lane k).inUse).map fun k => Out.laneDrop id n k) ++ [Out.linkDown id n])
        requeue (linkChanged (agentFault s id (0x010 + n) 0x101 .degraded) id) id n o

/-- Lanes of one link are dropped in one change: a LANE_DROP, or the link's death when none is left; a link that is not driven has no record (R28, R34, R205). -/
def dropLanes (s : State) (id n : Nat) (lanes : List Nat) : State :=
  match s.agents.get id with
  | none => s
  | some a =>
    let hit := lanes.filter fun k => ((a.link n).lane k).inUse
    if hit = [] ∨ !(a.link n).live then s
    else if hit.length = (a.link n).inUse then killLink s id n
    else if !a.driven n then s.onAgent id fun x => (hit.foldl (fun y k => y.onLane n k fun l => { l with inUse := false }) x).refreshLanes
    else
      let s := s.onAgent id fun x =>
        ((hit.foldl (fun y k => y.onLane n k fun l => { l with inUse := false }) x).bump (x.countPort n) 21 hit.length).refreshLanes
      let mask := hit.foldl (fun w k => w ||| at_ 1 k) (0 : Word)
      let lost : Rec := { unit := BitVec.ofNat 12 (0x010 + n), kind := 0x100, cls := .corrected, count := hit.length
                          detail0 := (Config.openDetail 0x100 0 s.nonce [] &&& ~~~15) ||| mask, detail1 := Config.openDetail 0x100 1 s.nonce [] }
      linkChanged ((agentPost s id lost).emits (hit.map fun k => Out.laneDrop id n k)) id

/-- A link is up at its full width: its lanes, credits and buffers start anew, its port is live, and MARGIN_MIN starts with the port's first link (R27, R210, R217). -/
def Agent.linkUp (a : Agent) (n : Nat) : Agent :=
  let a := a.onLink n fun l =>
    { l with live := true, lanes := (List.range 4).map fun k => (k, { inUse := true })
             vcs := (List.range 6).map fun v => (v, { credits := (l.vc v).depth, depth := (l.vc v).depth, free := a.hc.depths.getD v 0 }) }
  let p := a.countPort n
  let a := if a.marginOn.getLsbD p then a else { a with marginOn := a.marginOn ||| BitVec.ofNat 8 (2 ^ p) }.setCount p 24 15
  let a := match a.portOf n with
    | none => a
    | some q => { a with deadPorts := a.deadPorts &&& ~~~BitVec.ofNat 8 (2 ^ q), detoured := a.detoured &&& ~~~BitVec.ofNat 8 (2 ^ q) }
  a.refreshLanes

/-- A link is trained: it is up, and its hello goes out with the depths of the own receive buffers (R27, R210, R224). -/
def trainLink (s : State) (id n : Nat) : State :=
  match s.agents.get id with
  | none => s
  | some a => linkChanged ((s.onAgent id fun x => x.linkUp n).emit (.hello id n a.hc.depths)) id

/-- CODEWORD_END: a lane's codeword ends with its count of corrected symbols, 31 for uncorrectable. -/
def execCodewordEnd (agent link lane symbols : Nat) (s : State) : Ans :=
  .next (onLink s agent link fun a _ =>
    if 4 ≤ lane then s
    else if symbols ≤ 15 then
      s.onAgent agent fun x =>
        (x.onLane link lane fun l => { l with most := Nat.max l.most symbols }).bump (a.countPort link) 22 (if symbols = 0 then 0 else 1)
    else if symbols = 31 then
      s.onAgent agent fun x => (x.onLane link lane fun l => { l with unc := true }).bump (a.countPort link) 23
    else s)

/-- The lane after its window, and whether the window drops it (R205). -/
def Lane.window (l : Lane) (dropMargin : Nat) : Lane × Bool :=
  let margin := 15 - l.most
  let low := if margin < dropMargin then l.low + 1 else 0
  ({ l with margin := margin, low := low, most := 0, unc := false, uncPrev := l.unc }, decide (3 ≤ low) || (l.unc && l.uncPrev))

/-- MARGIN_WINDOW: a 1 ms window ends on every link; lanes that meet the conditions are dropped, each link's in one change. -/
def execMarginWindow (agent : Nat) (s : State) : Ans :=
  .next (onLive s agent fun a =>
    let dm := fld (a.param 5) 3 0
    (List.range 16).foldl (fun t n =>
      if !(a.link n).live then t
      else
        let used := (List.range 4).filter fun k => ((a.link n).lane k).inUse
        let drops := used.filter fun k => (((a.link n).lane k).window dm).2
        let t := t.onAgent agent fun x => used.foldl (fun y k => y.onLane n k fun l => (l.window dm).1) x
        let low := used.foldl (fun m k => Nat.min m (15 - ((a.link n).lane k).most)) 15
        let t := t.onAgent agent fun x =>
          if low < (x.count (x.countPort n) 24).toNat then x.setCount (x.countPort n) 24 (BitVec.ofNat 64 low) else x
        dropLanes t agent n drops) s)

/-- CODEWORD_TIMEOUT: no valid codeword for 2 µs on the lanes of a mask of one link. -/
def execCodewordTimeout (agent link : Nat) (lanes : BitVec 4) (s : State) : Ans :=
  .next (onLink s agent link fun _ _ => dropLanes s agent link ((List.range 4).filter fun k => lanes.getLsbD k))

/-- LINK_DOWN: it arrives from the far end, and the link is declared dead. -/
def execLinkDown (agent link : Nat) (s : State) : Ans :=
  .next (onLink s agent link fun _ _ => killLink s agent link)

/-- KEEPALIVE: a lane without a flit for 500 ns sends a keepalive codeword. -/
def execKeepalive (agent link lane : Nat) (s : State) : Ans :=
  .next (onLink s agent link fun _ l => if l.live && (l.lane lane).inUse then s.emit (.keepalive agent link lane) else s)

/-- A link that is down may be trained: no job runs over it, since the agent is in no island, or an installation holds it, or the link is the quay link or not yet driven (R27). -/
def Agent.mayTrain (a : Agent) (n : Nat) : Bool :=
  a.handle == 0 || a.ts.st == .held || a.ts.st == .committed || a.isQuay n || !a.driven n

/-- LINK_HELLO: the neighbour's identity and link are recorded, with the credits that its receive buffers advertise; a link that was down has trained with it, where a training is allowed (R27, R210, R224; log 191). -/
def execLinkHello (agent link nbr nbrLink : Nat) (depths : List Nat) (s : State) : Ans :=
  .next (onLink s agent link fun a l =>
    if !l.live ∧ !a.mayTrain link then s
    else
      let s := if l.live then s else trainLink s agent link
      let s := s.onAgent agent fun x => x.onLink link fun l =>
        { l with nbrValid := true, nbr := nbr % 2 ^ 56, nbrLink := nbrLink % 16
                 vcs := (List.range 6).map fun v => (v, { l.vc v with depth := depths.getD v 0, credits := depths.getD v 0, sent := 0 }) }
      linkChanged s agent)

/-! Flits (R193, R210, R211). -/

/-- A flit may start on a virtual channel: a credit in regime A, no XOFF in regime B. -/
def Agent.vcOpen (a : Agent) (l : Link) (vc : Nat) : Bool := if a.regimeB then !(l.vc vc).stopped else decide (0 < (l.vc vc).credits)

/-- Flits wait on a virtual channel of an output. -/
def OutQ.waits (o : OutQ) (vc : Nat) : Bool := o.q.getD vc [] != []

/-- The service order of R193 lets a virtual channel go now. -/
def Agent.mayServe (a : Agent) (l : Link) (o : OutQ) (vc : Nat) : Bool :=
  let ready (v : Nat) : Bool := o.waits v && a.vcOpen l v
  if vcPair vc = 1 then true
  else if ready 2 || ready 3 then false
  else match o.mid with
    | some m => m == vc || !ready m
    | none =>
      let other := if vcPair vc = 0 then [4, 5] else [0, 1]
      o.last != vcPair vc || !other.any ready

/-- FLIT_SEND: the next flit of a virtual channel starts on a link, or its wait is counted; the last flit of a packet counts it as sent (R193, R210, R211, R217). -/
def execFlitSend (agent link vc : Nat) (s : State) : Ans :=
  .next (onLink s agent link fun a l =>
    let o := a.outq.getD link {}
    match o.q.getD vc [] with
    | [] => s
    | p :: rest =>
      if !l.live ∨ 6 ≤ vc then s
      else if !a.vcOpen l vc then s.onAgent agent fun x => x.bump (a.countPort link) (14 + vcPair vc)
      else if !a.mayServe l o vc then s
      else
        let last := decide (p.left ≤ 1)
        let o := { o with q := o.q.set vc (if last then rest else { p with left := p.left - 1 } :: rest)
                          last := if last ∧ vcPair vc ≠ 1 then vcPair vc else o.last
                          mid := if vcPair vc = 1 then o.mid else if last then none else some vc }
        let s := s.onAgent agent fun x =>
          (((({ x with outq := x.outq.set link o }.onVc link vc fun v => { v with credits := v.credits - 1, sent := v.sent + 1 }).onLink link
            fun k => { k with total := k.total + 1 }).bump (a.countPort link) vc).bump (a.countPort link) 12 (if last then 1 else 0))
        s.emit (.flit agent link vc))

/-- FLIT_RECEIVE: a flit enters a receive buffer; in regime B XOFF goes out at XOFF_FREE or below (R211). -/
def execFlitReceive (agent link vc : Nat) (s : State) : Ans :=
  .next (onLink s agent link fun a l =>
    if !l.live ∨ 6 ≤ vc then s
    else
      let free := (l.vc vc).free - 1
      let off := a.regimeB && decide (free ≤ fld (a.param 1) 15 0) && !(l.vc vc).xoffSent
      let s := s.onAgent agent fun x =>
        ((x.onVc link vc fun v => { v with free := free, xoffSent := v.xoffSent || off }).bump (a.countPort link) (6 + vc)).bump
          (a.countPort link) 46 (if off then 1 else 0)
      if off then s.emit (.xoff agent link vc true) else s)

/-- CREDIT_RETURN: a flit leaves the receive buffer and its credit, or XON at XON_FREE or above, is sent; or a credit arrives at the sender (R210, R211). -/
def execCreditReturn (agent link vc : Nat) (arrives : Bool) (s : State) : Ans :=
  .next (onLink s agent link fun a l =>
    if !l.live ∨ 6 ≤ vc then s
    else if arrives then s.onAgent agent fun x => x.onVc link vc fun v => { v with credits := Nat.min v.depth (v.credits + 1) }
    else
      let free := Nat.min (a.hc.depths.getD vc 0) ((l.vc vc).free + 1)
      let on := a.regimeB && (l.vc vc).xoffSent && decide (fld (a.param 1) 31 16 ≤ free)
      let s := s.onAgent agent fun x => x.onVc link vc fun v =>
        { v with free := free, freed := v.freed + 1, xoffSent := v.xoffSent && !on }
      if on then s.emit (.xoff agent link vc false) else if a.regimeB then s else s.emit (.credit agent link vc))

/-- CREDIT_RESYNC: the freed-flit counts go out, or arrive and restore the credits: depth less the flits sent and not freed, modulo 2^16 (R210). -/
def execCreditResync (agent link : Nat) (arrives : Bool) (counts : List (BitVec 16)) (s : State) : Ans :=
  .next (onLink s agent link fun a l =>
    if !l.live ∨ a.regimeB then s
    else if arrives then
      s.onAgent agent fun x => (List.range 6).foldl (fun y vc => y.onVc link vc fun v =>
        match counts[vc]? with
        | none => v
        | some c => { v with credits := v.depth - (v.sent - c).toNat }) x
    else s.emits ((List.range 6).map fun vc => Out.freed agent link vc (l.vc vc).freed))

/-- XOFF arrives for a virtual channel. -/
def execXoff (agent link vc : Nat) (s : State) : Ans :=
  .next (onLink s agent link fun _ _ => if 6 ≤ vc then s else s.onAgent agent fun x => x.onVc link vc fun v => { v with stopped := true })

/-- XON arrives for a virtual channel. -/
def execXon (agent link vc : Nat) (s : State) : Ans :=
  .next (onLink s agent link fun _ _ => if 6 ≤ vc then s else s.onAgent agent fun x => x.onVc link vc fun v => { v with stopped := false })

/-! Time (R278). -/

/-- Links of a time parent: a logical port, or 8 for the quay link. -/
def Agent.parentLinks (a : Agent) (p : Nat) : List Nat := if p = 8 then [a.quayLink] else a.portLinks p

/-- The time parent: TIME_PORT, or TIME_ALT when that port is dead. -/
def Agent.timeParent (a : Agent) : Nat :=
  let p := fld (a.param 5) 11 8
  if (a.parentLinks p).any a.linkLive then p else fld (a.param 5) 15 12

/-- TIME_SYMBOL: a symbol with its fabric time and half the measured round trip; only the time parent's steers the copy, corrected by the asymmetry (R278, R307). -/
def execTimeSymbol (agent link time delay : Nat) (s : State) : Ans :=
  .next (onLink s agent link fun a l =>
    if !l.live ∨ !(a.parentLinks a.timeParent).contains link then s
    else
      let off := Int.ofNat time + Int.ofNat delay + l.asym / 2000 - Int.ofNat s.now
      let s := s.onAgent agent fun x => { x with ftOff := off, ftValid := true, parentSilent := false }
      s.emit (.fabricTime agent (Int.ofNat s.now + off).toNat true))

/-- The quay over which the controller drives time, the lowest live one, when the link is its endpoint's quay link (R278). -/
def drivenQuay (s : State) (agent link : Nat) : Option Nat :=
  match s.liveQuays.head? with
  | none => none
  | some (n, _) => if s.domOn 23 ∧ ((s.quay n).any fun q => s.agentAt q.1 == some agent && q.2.1 == link) then some n else none

/-- TIME_SYMBOL_SEND: a time symbol goes out over a live link in each direction that this block drives: the agent's, and over the quay link that carries time the controller's (R278). -/
def execTimeSymbolSend (agent link : Nat) (s : State) : Ans :=
  .next (onLink s agent link fun a l =>
    if l.live then
      let s := s.emit (.timeSymbol agent link (a.ft s))
      match drivenQuay s agent link with
      | none => s
      | some n => s.emit (.quaySymbol n s.now)
    else s)

/-- TIME_PARENT_SILENT: no symbol for 100 µs; the copy runs on at its last frequency. -/
def execTimeParentSilent (agent : Nat) (s : State) : Ans :=
  .next (onLive s agent fun _ => s.onAgent agent fun x => { x with parentSilent := true })

/-! Calibration (R306, R307). -/

/-- Flits that a lane carries in 100 ms at 224 Gb/s. -/
abbrev laneFlits100 : Nat := 43750000

/-- The load bucket of a link from its sent flits over the last 100 ms (R306). -/
def Link.bucket (l : Link) : Nat :=
  let sent := l.total - (l.readings.getLast?.getD l.total)
  Nat.min 3 (4 * sent / (Nat.max 1 l.inUse * laneFlits100))

/-- TEMP of a calibration record, and its distance from a temperature. -/
def calibDist (w0 : Word) (temp : BitVec 16) : Nat := ((w0.extractLsb' 32 16).toInt - temp.toInt).natAbs

/-- The record of a link that R307 selects: the present bucket's within 15 °C, else the nearest in temperature at most one bucket away. -/
def Agent.calibFor (a : Agent) (n b : Nat) (temp : BitVec 16) : Option Nat :=
  let w (k : Nat) : Word := Bank.word a.bank 9 (4 * n + k) 0
  let fit (k : Nat) : Bool := (w k).getLsbD 7 && decide (calibDist (w k) temp ≤ 120)
  if fit b then some (4 * n + b)
  else
    ((List.range 4).filter fun k => fit k && decide (k ≤ b + 1) && decide (b ≤ k + 1)).foldl (fun best k =>
      match best with
      | none => some (4 * n + k)
      | some m => if calibDist (w k) temp < calibDist (w (m % 4)) temp then some (4 * n + k) else some m) none

/-- ASYM_PS of a calibration element. -/
def Agent.asymOf (a : Agent) (e : Option Nat) : Int :=
  match e with
  | none => 0
  | some k => ((Bank.word a.bank 9 k 1).extractLsb' 32 32).toInt

/-- Moves a value toward a target by at most a step. -/
def approach (v target step : Int) : Int := if v + step < target then v + step else if target < v - step then v - step else target

/-- CALIB_SELECT: every 10 ms the temperature is read and each link's record is chosen; CALIB_STALE once until one qualifies. -/
def execCalibSelect (agent : Nat) (temp : BitVec 16) (s : State) : Ans :=
  .next (onLive s agent fun a =>
    let s := s.onAgent agent fun x => { x with temp := temp }
    (List.range 16).foldl (fun t n =>
      let l := a.link n
      if !l.live then t
      else
        let e := a.calibFor n l.bucket temp
        let t := t.onAgent agent fun x => x.onLink n fun k =>
          { k with calib := e, calibStale := e.isNone, asym := approach k.asym (a.asymOf e) 10000
                   readings := (k.total :: k.readings).take 10 }
        if e.isNone && !l.calibStale then agentFault t agent (0x010 + n) 0x108 .note else t) s)

/-! Checker self-tests (R384, R385). -/

/-- Sets a port's checker state and records a finding of the self-test. -/
def chkResult (s : State) (id port : Nat) (st : ChkState) (kind : Nat) (cls : Cls) (which : Nat) : State :=
  agentFault (s.onAgent id fun a => { a with integ := { a.integ with chk := a.integ.chk.put port st .primary } }) id 1 kind cls
    (Config.openDetail kind 0 s.nonce [port, which]) (Config.openDetail kind 1 s.nonce [port, which])

/-- CHECKER_SELF_TEST: a due self-test of a port ends with what each checker did; the verdict follows Table 12.2, or R385 for a disagreement in COMPARE. -/
def execCheckerSelfTest (agent port : Nat) (primaryPass shadowPass : Bool) (s : State) : Ans :=
  .next (onLive s agent fun a =>
    match a.integ.selfTest.get port with
    | none => s
    | some why =>
      let s := s.onAgent agent fun x => { x with integ := { x.integ with selfTest := x.integ.selfTest.del port } }
      let st := a.integ.chk.getD port .primary
      if !primaryPass && !shadowPass then
        (a.portLinks port).foldl (fun t n => killLink t agent n) (chkResult s agent port .dead 0x202 .uncorrected 2)
      else if !primaryPass then chkResult s agent port .shadow 0x202 .degraded 0
      else if !shadowPass then chkResult s agent port .primary 0x202 .degraded 1
      else match why with
        | some prim =>
          if prim then chkResult s agent port .shadow 0x202 .degraded 0 else chkResult s agent port .primary 0x202 .degraded 1
        | none =>
          if st = .primary ∧ 3 ≤ ((a.integ.bcvOnly.getD port []).filter fun t => decide (s.now < t + 10000000000)).length then
            chkResult s agent port .compare 0x201 .corrected 0
          else s)

/-- COMPARE_QUIET: a port in COMPARE without a disagreement for the quiet period returns to PRIMARY. -/
def execCompareQuiet (agent port : Nat) (s : State) : Ans :=
  .next (onLive s agent fun a =>
    if a.integ.chk.getD port .primary = .compare ∧ (a.integ.selfTest.get port).isNone then
      s.onAgent agent fun x => { x with integ := { x.integ with chk := x.integ.chk.put port .primary .primary } }
    else s)

end Sys2Proof.Machine
end

