-- ==== Sys2Proof/Machine/AgDigest.lean ====
section
/-! DEFINITION. Replica digests of an agent: the digest, its report, and the serving of DIGEST_STEP requests (R389 to R392). -/

namespace Sys2Proof.Machine

/-- The replica digest of a byte string (R389). -/
def digest64 (bs : List Byte) : Word := (bs.foldl crc64Byte (-1)) ^^^ (-1)

/-- A message of the agent to its host chip's integrity receiver (R390). -/
def toHostChip (s : State) (id : Nat) (a : Agent) (sub context : Nat) (arg : BitVec 32) : State :=
  s.emit (.deliver id (a.ctrlPkt a.addr a.epoch a.pkey 4 sub context arg).sealed)

/-- A reset of level 3 or 4, or a scrub, runs (Table 12.11). -/
def Agent.busyReset (a : Agent) : Bool := decide (3 ≤ a.rst.level) || a.scrub.step != 0

/-- Valid descriptors of a mask, ascending (R391, Table 12.3). -/
def Agent.descsOf (a : Agent) (mask : Nat) : List Nat :=
  (List.range 8).filter fun i => mask.testBit i && (a.integ.desc.getD (2 * i + 1) 0).getLsbD 63

/-- The body of DIGEST_REPORT (Table 12.5). -/
def reportBytes (a : Agent) (desc : Nat) (rep poisoned : Bool) (step : Nat) (digest : Word) (f : Plaus) : List Byte :=
  leBytes 4 a.epoch ++ [BitVec.ofNat 8 desc, BitVec.ofNat 8 ((if rep then 1 else 0) + (if poisoned then 2 else 0)), 0, 0] ++
    leBytes 8 step ++ wordBytes digest ++ leBytes 4 f.blocks ++ leBytes 4 f.violations ++ leBytes 4 f.nans ++ leBytes 4 f.infs ++
    (List.range 16).flatMap fun b => leBytes 4 (f.hist.getD b 0)

/-- Sends a DIGEST_REPORT, held until its MG_ACK (R392). -/
def sendDigest (s : State) (id : Nat) (body : List Byte) : State :=
  match s.agents.get id with
  | none => s
  | some a =>
    let tag := BitVec.ofNat 32 a.integ.nextTag
    (agentMgmt s id (agentNet s id .ordinary) 0 0x0060 0 tag 0 body).onAgent id fun x =>
      { x with integ := { x.integ with nextTag := x.integ.nextTag + 1, reports := x.integ.reports ++ [{ tag := tag, body := body }] } }

/-- Serves the queued DIGEST_STEP requests in order, outside resets of level 3 and 4 and scrubs: the next descriptor's buffer is read, and a request whose digests are all reported ends with DIGEST_DONE (R391, Table 12.11). -/
def digestServe (s : State) (id : Nat) : Nat → State
  | 0 => s
  | n + 1 =>
    match s.agents.get id with
    | none => s
    | some a =>
      match a.integ.queue with
      | [] => s
      | d :: rest =>
        if a.busyReset ∨ a.life ≠ .running ∨ a.integ.reading then s
        else match d.descs with
          | [] => digestServe (toHostChip (s.onAgent id fun x => { x with integ := { x.integ with queue := rest } }) id a 0xD1 0xF00000
              (BitVec.ofNat 32 d.step)) id n
          | i :: _ => (s.onAgent id fun x => { x with integ := { x.integ with reading := true } }).emit
              (.hostRead id (a.integ.desc.getD (2 * i) 0) (fld (a.integ.desc.getD (2 * i + 1) 0) 35 0))

end Sys2Proof.Machine
end

