-- ==== Sys2Proof/Machine/AgReset.lean ====
section
/-! DEFINITION. Endpoint resets, the scrub sequencer, the key port and stepping of an agent (R240 to R248, R331, R332). -/

namespace Sys2Proof.Machine

/-! The key port (R246, R247). -/

/-- Starts the next key operation when none is in its handshake. -/
def kpStart (s : State) (id : Nat) : State :=
  match s.agents.get id with
  | none => s
  | some a =>
    match a.keys.running, a.keys.queue with
    | none, k :: rest =>
      (s.onAgent id fun x => { x with keys := { x.keys with running := some k, queue := rest } }).emit (.keyReq id k.op k.slot k.key)
    | _, _ => s

/-- Queues a LOAD or an ERASE, in order of arrival (R247). -/
def kpQueue (s : State) (id : Nat) (k : KOp) : State :=
  kpStart (s.onAgent id fun x => { x with keys := { x.keys with queue := x.keys.queue ++ [k] } }) id

/-- ERASE_ALL goes ahead of every queued operation and cancels the queued LOADs, which are answered INVALID (R247). -/
def kpEraseAll (s : State) (id : Nat) (scrub : Bool) : State :=
  match s.agents.get id with
  | none => s
  | some a =>
    let gone := a.keys.queue.filter fun k => k.op == .load
    let s := s.onAgent id fun x =>
      { x with keys := { x.keys with queue := { op := .eraseAll, scrub := scrub } :: x.keys.queue.filter fun k => k.op != .load } }
    kpStart (mgAcks s id (gone.filterMap (·.ask)) stInvalid) id

/-- What a completed operation leaves in the slots. -/
def AgKeys.done (k : AgKeys) (o : KOp) : AgKeys :=
  let m := BitVec.ofNat 32 (2 ^ o.slot)
  match o.op with
  | .load => { k with loaded := k.loaded ||| m, noDebug := if o.debugOk then k.noDebug &&& ~~~m else k.noDebug ||| m, gen := k.gen + 1 }
  | .erase => { k with loaded := k.loaded &&& ~~~m, noDebug := k.noDebug &&& ~~~m, gen := k.gen + 1 }
  | .eraseAll => { k with loaded := 0, noDebug := 0, gen := k.gen + 1 }

/-- What a failed operation leaves: a LOAD's slot is unloaded (R246). -/
def AgKeys.failed (k : AgKeys) (o : KOp) : AgKeys :=
  let m := BitVec.ofNat 32 (2 ^ o.slot)
  match o.op with
  | .load => { k with loaded := k.loaded &&& ~~~m, noDebug := k.noDebug &&& ~~~m }
  | .erase => k
  | .eraseAll => k

/-! Resets (R240 to R242). -/

/-- Raises RST_REQ for the running level, unless an earlier one's handshake is still open (R251). -/
def raiseReset (s : State) (id : Nat) : State :=
  match s.agents.get id with
  | none => s
  | some a => if a.rst.late ∨ a.rst.level = 0 then s else s.emit (.rstReq id a.rst.level)

/-- Starts a reset of a level: fence at level 3 and 4, then RST_REQ; a host memory read that a reset of level 3 or 4 cuts is made again after it (R241). -/
def startReset (s : State) (id level : Nat) (asks : List Req) : State :=
  raiseReset (s.onAgent id fun x =>
    { x with fenced := x.fenced || decide (3 ≤ level), integ := { x.integ with reading := x.integ.reading && decide (level < 3) }
             rst := { x.rst with asked := level, level := level, started := s.now, asks := asks } }) id

/-- Microseconds from a start to now. -/
def microsSince (s : State) (t : Nat) : Nat := (s.now - t) / 1000

/-- A request of an unknown level: REG_DENIED, and INVALID to a packet (R240). -/
def resetDenied (s : State) (id : Nat) (ask : Option Req) : State :=
  let s := agentFault s id 6 0x006 .note
  match ask with
  | none => s
  | some q => mgAck s id q stInvalid

/-- A request for a reset: started, merged into the running reset or scrub, or run next (R240, R242). -/
def requestReset (s : State) (id level : Nat) (ask : Option Req) : State :=
  match s.agents.get id with
  | none => s
  | some a =>
    if level = 0 ∨ 5 ≤ level then resetDenied s id ask
    else if a.scrub.step ≠ 0 then s.onAgent id fun x => { x with scrub := { x.scrub with asks := x.scrub.asks ++ ask.toList } }
    else if a.rst.level = 0 then startReset s id level ask.toList
    else if level ≤ a.rst.level then s.onAgent id fun x => { x with rst := { x.rst with asks := x.rst.asks ++ ask.toList } }
    else s.onAgent id fun x =>
      { x with rst := { x.rst with next := Nat.max x.rst.next level, nextAsks := x.rst.nextAsks ++ ask.toList } }

/-! Scrub (R244, R245). -/

/-- AG_SCRUB_STATUS (Table 7.8). -/
def Agent.scrubStatus (a : Agent) : Word :=
  at_ a.scrub.totalUs 32 ||| at_ a.scrub.agentNs 16 ||| at_ a.scrub.failedRegion 8 ||| b1 a.scrub.resetFailed 4 ||| at_ a.scrub.result 0

/-- The scrub ends: SCRUB_REPORT and the answers to its requests (R244). -/
def endScrub (s : State) (id result : Nat) : State :=
  match s.agents.get id with
  | none => s
  | some a =>
    let s := s.onAgent id fun x =>
      { x with fenced := decide (result ≠ 2)
               scrub := { x.scrub with step := 0, result := result, totalUs := microsSince s x.scrub.started, asks := [] } }
    let s := match s.agents.get id with
      | none => s
      | some x => agentMgmt s id (agentNet s id .ordinary) 0 0x0041 0 0 0 (wordBytes x.scrubStatus ++ wordBytes x.scrub.regionUs)
    digestServe (mgAcks s id a.scrub.asks (if result = 2 then stOk else stFenced)) id 4

/-- The scrub ends FAILED (R245). -/
def failScrub (s : State) (id region : Nat) (byReset : Bool) : State :=
  let s := s.onAgent id fun x => { x with scrub := { x.scrub with failedRegion := region, resetFailed := byReset } }
  endScrub (agentFault s id 5 0x182 .uncorrected) id 3

/-- Raises SCRUB_REQ for region r, in step 3 + r, unless an earlier one's handshake is still open (R251). -/
def scrubRegion (s : State) (id r : Nat) : State :=
  let open_ := ((s.agents.get id).map (·.scrub.late)).getD false
  let s := s.onAgent id fun x => { x with scrub := { x.scrub with step := 3 + r, regionStart := s.now } }
  if open_ then s else s.emit (.scrubReq id r)

/-- The requests whose answers step 7 of a scrub settles: KEY_DELIVER still staged, and PAT_DATA still held (R221, R244; log 192). -/
def Agent.stagedAsks (a : Agent) : List Req :=
  ((a.keys.queue.filter fun k => k.op == .load).filterMap (·.ask)) ++ a.integ.patHeld.map (·.1)

/-- Step 7: the agent's own state: the writable SRAM region, the buffers of the check and digest engine, both mailbox words and flags, and staged KEY_DELIVER keys; queued DIGEST_STEP requests stay, without figures, since they are served after the scrub (R244, Table 12.11; log 192). -/
def Agent.scrubOwn (a : Agent) : Agent :=
  { a with core := { a.core with mem := a.core.mem.filter fun c => inImage c.1 }
           mbIn := 0, mbOut := 0, inFull := false, outFull := false, inOvf := false, outOvf := false
           keys := { a.keys with queue := a.keys.queue.filter fun k => k.op != .load }, reread := none
           integ := { a.integ with fig := {}, queue := a.integ.queue.map fun d => { d with fig := {} }, reports := [], patHeld := [] } }

/-- A scrub starts, merges into the running one, or waits for the running reset (R242, R244). -/
def startScrub (s : State) (id : Nat) (ask : Option Req) : State :=
  match s.agents.get id with
  | none => s
  | some a =>
    if a.scrub.step ≠ 0 ∨ a.scrub.due then s.onAgent id fun x => { x with scrub := { x.scrub with asks := x.scrub.asks ++ ask.toList } }
    else if a.rst.level ≠ 0 then s.onAgent id fun x => { x with scrub := { x.scrub with due := true, asks := ask.toList } }
    else
      let s := s.onAgent id fun x =>
        { x with scrub := { step := 1, started := s.now, asks := ask.toList, result := 1, late := x.scrub.late } }
      startReset s id 4 []

/-- What waits for a reset's end starts: a higher level, then a scrub (R242). -/
def afterReset (s : State) (id : Nat) : State :=
  match s.agents.get id with
  | none => s
  | some a =>
    if a.rst.next ≠ 0 then
      startReset (s.onAgent id fun x => { x with rst := { x.rst with next := 0, nextAsks := [] } }) id a.rst.next a.rst.nextAsks
    else if a.scrub.due then
      let s := s.onAgent id fun x => { x with scrub := { step := 1, started := s.now, asks := x.scrub.asks, result := 1, late := x.scrub.late } }
      startReset s id 4 []
    else s

/-! Stepping (R248). -/

/-- Passes the lowest waiting step to the power manager, one at a time, and none during a level 3 or 4 reset. -/
def pmStart (s : State) (id : Nat) : State :=
  match s.agents.get id with
  | none => s
  | some a =>
    match a.stepRun, a.stepQueue with
    | none, n :: rest =>
      if 3 ≤ a.rst.level then s
      else
        let x := a.steps.getD n {}
        (s.onAgent id fun y => { y with stepRun := some n, stepQueue := rest }).emit (.pmReq id x.unit x.vstep x.fstep)
    | _, _ => s

/-- Inserts into an ascending list without repeats. -/
def insertAsc (n : Nat) : List Nat → List Nat
  | [] => [n]
  | m :: l => if n < m then n :: m :: l else if n = m then m :: l else m :: insertAsc n l

/-- A signed step limited to a magnitude. -/
def limitStep (v : BitVec 8) (lim : Nat) : BitVec 8 :=
  if v.toInt < -Int.ofNat lim then BitVec.ofInt 8 (-Int.ofNat lim) else if Int.ofNat lim < v.toInt then BitVec.ofInt 8 (Int.ofNat lim) else v

/-- A write of AG_STEP_n (R248). -/
def writeStep (s : State) (id n : Nat) (w : Word) : State :=
  match s.agents.get id with
  | none => s
  | some a =>
    let v : BitVec 8 := w.extractLsb' 16 8
    let f : BitVec 8 := w.extractLsb' 24 8
    let v' := limitStep v (bits a.hc.pmLimit.toNat 7 0)
    let f' := limitStep f (bits a.hc.pmLimit.toNat 15 8)
    let x : AgStep := { unit := w.truncate 12, vstep := v', fstep := f', clamped := v != v' || f != f' }
    pmStart (s.onAgent id fun y => { y with steps := y.steps.put n x {}, stepQueue := insertAsc n y.stepQueue }) id

/-- AG_STEP_WRITE: the controller writes AG_STEP_n. -/
def execAgStepWrite (agent n : Nat) (value : Word) (s : State) : Ans :=
  .next (onLive s agent fun _ => if n < 16 then writeStep s agent n value else s)

/-- The power manager answers the running step. -/
def pmDone (s : State) (id : Nat) (f : AgStep → AgStep) : State :=
  match (s.agents.get id).bind (·.stepRun) with
  | none => s
  | some n =>
    pmStart (s.onAgent id fun x =>
      { x with stepRun := none, steps := if x.stepQueue.contains n then x.steps else x.steps.put n (f (x.steps.getD n {})) {} }) id

/-- PM_ACK: APPLIED is set. -/
def execPmAck (agent : Nat) (s : State) : Ans := .next (onLive s agent fun _ => pmDone s agent fun x => { x with applied := true })

/-- PM_FAIL: REFUSED is set and STEP_REFUSED recorded. -/
def execPmFail (agent : Nat) (s : State) : Ans :=
  .next (onLive s agent fun a =>
    if a.stepRun.isNone then s
    else pmDone (agentFault s agent 7 0x185 .degraded) agent fun x => { x with refused := true })

/-! The commands of resets and scrubs. -/

/-- RESET: a RESET packet of a level. -/
def execReset (agent : Nat) (req : Req) (level : Nat) (s : State) : Ans :=
  .next (onRequest s agent req fun _ s => requestReset s agent level (some req))

/-- AG_RESET_GO: a write of AG_RESET with GO. -/
def execAgResetGo (agent level : Nat) (s : State) : Ans := .next (onLive s agent fun _ => requestReset s agent level none)

/-- The late answer of a timed-out RST_REQ ends its handshake, and the RST_REQ of the level that now runs rises (R251). -/
def lateReset (s : State) (id : Nat) : State := raiseReset (s.onAgent id fun x => { x with rst := { x.rst with late := false } }) id

/-- RST_ACK: the reset ends: the fence lifts unless a scrub runs or has failed, RESULT is OK without an escalation, and the requests are answered; a late one only ends its handshake (R241, R251). -/
def execRstAck (agent : Nat) (s : State) : Ans :=
  .next (onLive s agent fun a =>
    if a.rst.late then lateReset s agent
    else if a.rst.level = 0 then s
    else
      let keep := a.scrub.step ≠ 0 ∨ a.scrub.result = 3
      let s := s.onAgent agent fun x =>
        { x with fenced := x.fenced && decide keep
                 rst := { x.rst with level := 0, asked := 0, asks := [], lastLevel := x.rst.level
                                     lastUs := microsSince s x.rst.started, result := if x.rst.asked = x.rst.level then 1 else 2 } }
      let s := mgAcks s agent a.rst.asks stOk
      let s := pmStart s agent
      if a.scrub.step = 1 then kpEraseAll (s.onAgent agent fun x => { x with scrub := { x.scrub with step := 2 } }) agent true
      else digestServe (afterReset s agent) agent 4)

/-- A reset fails at its level: it escalates, or ends FAILED at level 4 with the fence kept, and the steps held during it are served (R241, R244, R248). -/
def resetFails (s : State) (id : Nat) (a : Agent) : State :=
  if a.rst.level = 0 then s
  else if a.rst.level < 4 then
    let l := a.rst.level + 1
    let s := s.onAgent id fun x =>
      { x with fenced := x.fenced || decide (3 ≤ l), integ := { x.integ with reading := x.integ.reading && decide (l < 3) }
               rst := { x.rst with level := l, result := 2 } }
    raiseReset (agentFault s id 6 0x181 .degraded) id
  else
    let s := s.onAgent id fun x =>
      { x with rst := { x.rst with level := 0, asked := 0, asks := [], lastLevel := 4, lastUs := microsSince s x.rst.started, result := 3 } }
    let s := agentFault s id 6 0x181 .uncorrected
    let s := pmStart (mgAcks s id a.rst.asks stFenced) id
    if a.scrub.step = 1 then failScrub s id 0 true else digestServe (afterReset s id) id 4

/-- RST_FAIL: the host chip fails the reset; a late one only ends its handshake (R251). -/
def execRstFail (agent : Nat) (s : State) : Ans :=
  .next (onLive s agent fun a => if a.rst.late then lateReset s agent else resetFails s agent a)

/-- ENDPOINT_RESET_TIMEOUT: the level's limit passes without RST_ACK; the handshake stays open for its late answer (R251). -/
def execEndpointResetTimeout (agent : Nat) (s : State) : Ans :=
  .next (onLive s agent fun a =>
    if a.rst.level = 0 then s
    else resetFails (s.onAgent agent fun x => { x with rst := { x.rst with late := true } }) agent a)

/-- SCRUB: a SCRUB packet. -/
def execScrub (agent : Nat) (req : Req) (s : State) : Ans :=
  .next (onRequest s agent req fun _ s => startScrub s agent (some req))

/-- AG_SCRUB_GO: a write of AG_SCRUB.GO. -/
def execAgScrubGo (agent : Nat) (s : State) : Ans := .next (onLive s agent fun _ => startScrub s agent none)

/-- The late answer of a timed-out SCRUB_REQ ends its handshake, and the SCRUB_REQ of the region that now waits rises and is timed (R251). -/
def lateScrub (s : State) (id : Nat) (a : Agent) : State :=
  let s := s.onAgent id fun x => { x with scrub := { x.scrub with late := false } }
  if a.scrub.step < 3 then s else scrubRegion s id (a.scrub.step - 3)

/-- SCRUB_DONE: a region ends; the next starts, or step 7 clears the agent's own state and the scrub ends OK. The time of step 7 the spec does not fix: a free value (log 9). -/
def execScrubDone (agent : Nat) (s : State) : Ans :=
  .next (onLive s agent fun a =>
    if a.scrub.late then lateScrub s agent a
    else if a.scrub.step < 3 then s
    else
      let r := a.scrub.step - 3
      let us := Nat.min 0xFFFF (microsSince s a.scrub.regionStart)
      let s := s.onAgent agent fun x =>
        { x with scrub := { x.scrub with regionUs := (x.scrub.regionUs &&& ~~~at_ 0xFFFF (16 * r)) ||| at_ us (16 * r) } }
      if r < 3 then scrubRegion s agent (r + 1)
      else
        let ns := s.draw.1.toNat % 65536
        let s := s.draw.2.onAgent agent fun x => { x.scrubOwn with scrub := { x.scrub with agentNs := ns } }
        endScrub (mgAcks s agent a.stagedAsks stInvalid) agent 2)

/-- SCRUB_FAIL: the host chip fails the region; a late one only ends its handshake (R251). -/
def execScrubFail (agent : Nat) (s : State) : Ans :=
  .next (onLive s agent fun a =>
    if a.scrub.late then lateScrub s agent a else if a.scrub.step < 3 then s else failScrub s agent (a.scrub.step - 3) false)

/-- SCRUB_REGION_TIMEOUT: no answer within 1 s for the region; the handshake stays open for its late answer (R251). -/
def execScrubRegionTimeout (agent : Nat) (s : State) : Ans :=
  .next (onLive s agent fun a =>
    if a.scrub.step < 3 then s
    else failScrub (s.onAgent agent fun x => { x with scrub := { x.scrub with late := true } }) agent (a.scrub.step - 3) false)

/-! The commands of the key port. -/

/-- After an operation's handshake: the next one, and a scrub's step 2 goes on to region 0. -/
def kpNext (s : State) (id : Nat) (scrubStep : Bool) : State :=
  let s := kpStart (s.onAgent id fun x => { x with keys := { x.keys with running := none, late := false } }) id
  if scrubStep then scrubRegion s id 0 else s

/-- KP_ACK: the operation is done, or the late answer of one already failed: a late load is erased first (R246). -/
def execKpAck (agent : Nat) (s : State) : Ans :=
  .next (onLive s agent fun a =>
    match a.keys.running with
    | none => s
    | some o =>
      if a.keys.late then
        let s := s.onAgent agent fun x =>
          { x with keys := if o.op = .load then { x.keys with queue := { op := .erase, slot := o.slot } :: x.keys.queue } else x.keys.done o }
        kpNext s agent false
      else
        let s := s.onAgent agent fun x => { x with keys := x.keys.done o }
        let s := match o.ask with
          | none => s
          | some q => mgAck s agent q stOk
        kpNext s agent (o.scrub && a.scrub.step == 2))

/-- An operation counts as answered with KP_ERR: KEY_PORT, the KEY_DELIVER answered INVALID; a scrub whose ERASE_ALL fails ends FAILED (R246; log 18). -/
def kpFails (s : State) (id : Nat) (a : Agent) (o : KOp) (late : Bool) : State :=
  let s := agentFault (s.onAgent id fun x => { x with keys := x.keys.failed o }) id 4 0x184 .uncorrected (d1 := withBit0 (Config.openDetail 0x184 1 s.nonce []) late)
  let s := match o.ask with
    | none => s
    | some q => mgAck s id q stInvalid
  if o.scrub ∧ a.scrub.step = 2 then failScrub s id 0 false else s

/-- KP_ERR: the slot stays unloaded. -/
def execKpErr (agent : Nat) (s : State) : Ans :=
  .next (onLive s agent fun a =>
    match a.keys.running with
    | none => s
    | some o => kpNext (if a.keys.late then s else kpFails s agent a o false) agent false)

/-- KEY_PORT_TIMEOUT: no answer within 10 µs; the handshake stays open for the late answer. -/
def execKeyPortTimeout (agent : Nat) (s : State) : Ans :=
  .next (onLive s agent fun a =>
    match a.keys.running with
    | none => s
    | some o =>
      if a.keys.late then s
      else kpFails (s.onAgent agent fun x => { x with keys := { x.keys with late := true, running := some { o with ask := none, scrub := false } } })
        agent a o true)

/-- The checks of KEY_DELIVER in order (R331): none where one fails, else the operation. -/
def keyDeliverOp (id : Nat) (a : Agent) (q : Req) (arg : Word) (body : List Byte) : Option KOp :=
  let slot := leAt body 0x0E 1
  let erase := (leAt body 0x0F 1).testBit 1
  let debugOk := (leAt body 0x0F 1).testBit 0
  let bindOk := hashAt body 0x10 == Config.sha384 (hashBytes a.fwMeas ++ hashBytes a.hcMeas)
  if leAt body 0 8 % 2 ^ 56 ≠ id ∨ leAt body 8 4 ≠ a.epoch ∨ leAt body 0x0C 2 ≠ a.pkey ∨ slot ≠ arg.toNat ∨ 17 ≤ slot then none
  else if erase then some { op := .erase, slot := slot, ask := some q }
  else match Config.unwrapKey id body with
    | none => none
    | some k =>
      if !bindOk ∨ !(a.dbg == 0 || debugOk) then none
      else some { op := .load, slot := slot, key := k, debugOk := debugOk, ask := some q }

/-- KEY_DELIVER: the body is checked, then its slot is loaded or erased through the key port; a failed check is answered INVALID. -/
def execKeyDeliver (agent : Nat) (req : Req) (arg : Word) (body : List Byte) (s : State) : Ans :=
  .next (onRequest s agent req fun a s =>
    match keyDeliverOp agent a req arg body with
    | none => mgAck s agent req stInvalid
    | some k => kpQueue s agent k)

/-- DBG_STATE_CHANGE: a value that becomes nonzero erases keys delivered without DEBUG_OK (R249, R332). -/
def execDbgStateChange (agent : Nat) (value : BitVec 8) (s : State) : Ans :=
  .next (onLive s agent fun a =>
    let s := s.onAgent agent fun x => { x with dbg := value, dbgSeen := x.dbgSeen || value != 0 }
    if a.dbg = 0 ∧ value ≠ 0 ∧ a.keys.noDebug ≠ 0 then kpEraseAll (agentFault s agent 4 0x186 .degraded) agent false else s)

/-- HC_MEAS_VALID: its first rise after AG_RST_L latches the host chip measurement (R249). -/
def execHcMeasValid (agent : Nat) (meas : Hash) (s : State) : Ans :=
  .next (onLive s agent fun a =>
    if a.hcLatched then s else s.onAgent agent fun x => { x with hcMeas := meas, hcLatched := true })

end Sys2Proof.Machine
end

