-- ==== Sys2Proof/Machine/AgMgmt.lean ====
section
/-! DEFINITION. Agent identity, registers, mailbox, event buffer traffic, counters, frames and firmware (R222 to R239). -/

namespace Sys2Proof.Machine

/-! AG_RST_L (R224, R230, R234, R253). -/

/-- AG_RST_L_ASSERT: host chip power-on; every agent register takes its Reset value, and the agent is in ROM from any state. -/
def execAgRstLAssert (agent : Nat) (s : State) : Ans :=
  .next { s with agents := s.agents.set agent { hc := ((s.agents.get agent).getD {}).hc } }

/-- AGENT_RESET_RELEASE: with its static signals, the boot ROM erases every key slot, trains every cabled link and sends its hellos. -/
def execAgentResetRelease (agent : Nat) (hc : Straps) (cabled : BitVec 16) (s : State) : Ans :=
  .next (match s.agents.get agent with
    | none => s
    | some a =>
      if !a.inReset then s
      else
        let s := { s with agents := s.agents.set agent { hc := hc, inReset := false } }
        let s := kpEraseAll s agent false
        (List.range 16).foldl (fun t n => if cabled.getLsbD n then trainLink t agent n else t) s)

/-- AG_INFO (Table 7.8). -/
def Agent.info (a : Agent) : Word :=
  at_ (a.hc.rev % 256) 56 ||| at_ (a.hc.hcClass % 256) 48 ||| at_ (a.hc.memGib % 65536) 32 ||| at_ 32 24 ||| at_ 16 16 ||| at_ (a.hc.hcPart % 65536) 0

/-- AG_FW_STATUS (Table 7.8). -/
def Agent.fwStatus (a : Agent) : Word :=
  at_ a.restarts 48 ||| at_ (a.svn % 65536) 32 ||| at_ (a.hc.floor % 65536) 16 ||| at_ a.reason 0

/-- The ANNOUNCE packet (Table 7.2). -/
def Agent.announcePkt (a : Agent) (id : Nat) : Pkt :=
  mgmtPkt (ctrlUnit 0) a.addr a.epoch (mgmtPayload 0x0020 0 0 (BitVec.ofNat 64 a.life.code)
    (leBytes 8 id ++ wordBytes a.info ++ leBytes 8 a.hc.mac ++ wordBytes a.fwStatus ++ hashBytes a.hc.idKey))

/-- ANNOUNCE_TIMER: an agent neither assigned nor held as a spare broadcasts ANNOUNCE (R224, R225, Table 7.2). -/
def execAnnounceTimer (agent : Nat) (s : State) : Ans :=
  .next (onLive s agent fun a =>
    if a.assigned || a.spare then s
    else s.emit (.agFrame agent (etherFrame 0xFFFFFFFFFFFF a.hc.mac a.net (a.announcePkt agent).sealed)))

/-- AG_NET from an ASSIGN body (Table 7.4). -/
def netOfBody (body : List Byte) : Word :=
  at_ (leAt body 0x0C 2) 32 ||| b1 ((leAt body 0x0E 2).testBit 15) 13 ||| at_ (leAt body 0x0E 2 % 4096) 0

/-- ASSIGN takes effect on the address registers (R225). -/
def Agent.assign (a : Agent) (addr : FAddr) : Agent :=
  if a.assigned || a.spare then { a with staged := some addr }
  else if addr = 0x0FFFFFF then { a with spare := true }
  else { a with addr := addr, assigned := true }

/-- ASSIGN: accepted for the own identity and an endpoint or switch address, else INVALID (R225). -/
def execAssign (agent : Nat) (req : Req) (body : List Byte) (s : State) : Ans :=
  .next (onRequest s agent req fun a s =>
    let w := leAt body 8 4
    if leAt body 0 8 % 2 ^ 56 ≠ agent ∨ 2 ^ 28 ≤ w ∨ 2 ≤ w / 2 ^ 24 then mgAck s agent req stInvalid
    else
      let s := mgAck s agent req stOk
      let s := s.onAgent agent fun x =>
        { x.assign (BitVec.ofNat 28 w) with net := netOfBody body, fwGroup := leAt body 0x10 6, ctrlMac1 := leAt body 0x18 6
                                            ctrlMac2 := leAt body 0x20 6 }
      let now := ((s.agents.get agent).map (·.assigned)).getD false
      if now && !a.assigned then sendReport s agent else s)

/-! Frames (R222). -/

/-- A big-endian number of a frame. -/
def beAt (bs : List Byte) (off len : Nat) : Nat := leVal ((slice bs off len).reverse)

/-- The bytes of a frame after its shim are its packet and the FCS, or the least frame's padding stands between them (R222; log 187). -/
def frameFits (frame body : List Byte) (len : Nat) : Bool := decide (len + 4 = body.length) || (decide (len + 4 < body.length) && frame.length == 64)

/-- ETHERNET_FRAME: unwrapped under AG_NET; a wrong EtherType, VERSION or LENGTH is dropped and counted, and PCHK is checked at the local port; then R195's first steps hold, own address 0x0FF_FFFF apart (R22, R222, R224), and a fenced port discards a MESSAGE (R241). A message is handed over; every other packet's effect is its own command's (log 17). -/
def execEthernetFrame (agent : Nat) (frame : List Byte) (s : State) : Ans :=
  .next (onLive s agent fun a =>
    let tagged := beAt frame 12 2 == 0x8100
    let off := if tagged then 16 else 12
    let body := frame.drop (off + 6)
    let len := leAt frame (off + 4) 2
    let p : Pkt := { hdr := hdrOf body, payload := (body.drop 32).take (len - 32) }
    let vlanOk := if a.net.getLsbD 13 then tagged && beAt frame 14 2 % 4096 == fld a.net 11 0 else !tagged
    let good := vlanOk && beAt frame off 2 == fld a.net 47 32 && leAt frame (off + 2) 1 == 1 && leAt frame (off + 3) 1 == 0 &&
      decide (32 ≤ len) && frameFits frame body len && p.hdr.size == len && p.hdr.typ != 0
    if !good then s.onAgent agent fun x => x.bump 8 47
    else
      let (pOk, bOk, _) := checkTail (a.integ.chk.getD 8 .primary) p 0
      if !(pOk && bOk) then recordCheck s agent 8 pOk bOk none
      else if malformed a.addr p.hdr then countDrop s agent 8 47 p.hdr
      else if p.hdr.dst ≠ a.addr ∧ !s.valid p.hdr.dst then countDrop s agent 8 29 p.hdr
      else if !controllerTraffic p.hdr then countDrop s agent 8 27 p.hdr
      else if a.refuses p.hdr then s
      else handOver s agent p)

/-! Registers (R234, Table 7.8, Table 12.3). -/

/-- A hash as six registers, first bytes lowest. -/
def hashWord (h : Hash) (i : Nat) : Word := wordAt (hashBytes h) (8 * i)

/-- AG_STATE. -/
def Agent.stateWord (a : Agent) : Word :=
  at_ a.scrub.step 12 ||| at_ a.rst.level 8 ||| b1 (a.former.getLsbD 63) 4 ||| b1 (a.fenced || a.abortFence) 3 ||| at_ a.life.code 0

/-- AG_STEP_n. -/
def AgStep.word (x : AgStep) : Word :=
  b1 x.refused 34 ||| b1 x.clamped 33 ||| b1 x.applied 32 ||| at_ x.fstep.toNat 24 ||| at_ x.vstep.toNat 16 ||| at_ x.unit.toNat 0

/-- Code of a checker state (Table 12.3). -/
def ChkState.code : ChkState → Nat
  | .primary => 0
  | .compare => 1
  | .shadow => 2
  | .dead => 3

/-- The value of an agent register, none where the offset names none (Tables 7.8, 12.3). -/
def agentReg (id : Nat) (a : Agent) (off : Nat) : Option Word :=
  if off % 8 ≠ 0 then none
  else if off = 0x0 then some (BitVec.ofNat 64 id)
  else if off = 0x8 then some a.info
  else if off = 0x10 then some (b1 a.assigned 31 ||| b1 a.spare 30 ||| a.addr.zeroExtend 64)
  else if off = 0x18 then some a.net
  else if off = 0x20 then some a.stateWord
  else if off = 0x28 then some a.fwStatus
  else if 0x40 ≤ off ∧ off < 0x70 then some (hashWord a.fwMeas ((off - 0x40) / 8))
  else if 0x70 ≤ off ∧ off < 0xA0 then some (hashWord a.hcMeas ((off - 0x70) / 8))
  else if off = 0xA0 then some (b1 a.dbgSeen 8 ||| a.dbg.zeroExtend 64)
  else if 0x100 ≤ off ∧ off < 0x180 then some (a.link ((off - 0x100) / 8)).nbrWord
  else if off = 0x180 then some a.mbIn
  else if off = 0x188 then some a.mbOut
  else if off = 0x190 then some (b1 a.outOvf 9 ||| b1 a.inOvf 8 ||| b1 a.outFull 1 ||| b1 a.inFull 0)
  else if off = 0x1C0 then some (at_ a.evt.spoil 48 ||| at_ a.evt.recs.length 16 ||| b1 a.evt.firstHeld 0)
  else if off = 0x1C8 then some (BitVec.ofNat 64 a.evt.next)
  else if off = 0x1D0 then some (BitVec.ofNat 64 a.evt.acked)
  else if off = 0x200 then some 0
  else if off = 0x208 then some (at_ a.rst.lastUs 32 ||| at_ a.rst.result 5 ||| at_ a.rst.lastLevel 0)
  else if off = 0x210 then some a.rst.limit
  else if off = 0x240 then some 0
  else if off = 0x248 then some a.scrubStatus
  else if off = 0x250 then some a.scrub.regionUs
  else if off = 0x280 then some (at_ a.keys.gen.toNat 32 ||| at_ a.keys.loaded.toNat 0)
  else if 0x300 ≤ off ∧ off < 0x380 then some (a.steps.getD ((off - 0x300) / 8) {}).word
  else if off = 0x380 then some a.former
  else if off = 0x400 then some a.integ.plaus
  else if off = 0x408 then some ((List.range 9).foldl (fun w p => w ||| at_ (a.integ.chk.getD p .primary).code (4 * p)) (0 : Word))
  else if off = 0x410 then some (at_ a.integ.queue.length 40 ||| at_ (a.integ.step % 2 ^ 40) 0)
  else if 0x480 ≤ off ∧ off < 0x500 then some (a.integ.desc.getD ((off - 0x480) / 8) 0)
  else if 0x10000 ≤ off ∧ off < 0x11200 ∧ (off - 0x10000) % 0x200 < 384 then
    some (a.count ((off - 0x10000) / 0x200) ((off - 0x10000) % 0x200 / 8))
  else none

/-- A write of an agent register that exists: read-only fields keep their values. -/
def writeAgentReg (s : State) (id off : Nat) (v : Word) : State :=
  if off = 0x18 then s.onAgent id fun x => { x with net := v &&& 0x0000FFFF00002FFF }
  else if off = 0x190 then s.onAgent id fun x => { x with outOvf := x.outOvf && !v.getLsbD 9, inOvf := x.inOvf && !v.getLsbD 8 }
  else if off = 0x200 then if v.getLsbD 0 then requestReset s id (fld v 3 1) none else s
  else if off = 0x210 then s.onAgent id fun x => { x with rst := { x.rst with limit := v } }
  else if off = 0x240 then if v.getLsbD 0 then startScrub s id none else s
  else if 0x300 ≤ off ∧ off < 0x380 then writeStep s id ((off - 0x300) / 8) v
  else if off = 0x380 then s.onAgent id fun x => { x with former := v &&& 0x8000FFFFFFFFFFFF }
  else if off = 0x400 then s.onAgent id fun x => { x with integ := { x.integ with plaus := v &&& 0x80FFFF00FFFF0003 } }
  else if 0x480 ≤ off ∧ off < 0x500 then
    let v := if off % 16 = 8 then v &&& 0x8000000FFFFFFFFF else v
    s.onAgent id fun x => { x with integ := { x.integ with desc := x.integ.desc.put ((off - 0x480) / 8) v 0 } }
  else s

/-- One register item: its answer, and the state (R234, Table 7.7). -/
def regItem (s : State) (id : Nat) (i : RegItem) : RegItem × State :=
  match (s.agents.get id).bind fun a => agentReg id a i.offset.toNat with
  | none => ({ i with status := 3 }, s)
  | some v =>
    if i.op = 1 then ({ i with status := 0, value := v }, s)
    else if i.op = 2 then ({ i with status := 0 }, writeAgentReg s id i.offset.toNat i.value)
    else ({ i with status := 3 }, s)

/-- The items in ascending order, each on its own. -/
def regItems (s : State) (id : Nat) : List RegItem → List RegItem × State
  | [] => ([], s)
  | i :: is =>
    let (r, s) := regItem s id i
    let (rs, s) := regItems s id is
    (r :: rs, s)

/-- REG_REQ: its COUNT items in order, answered with REG_RSP in a frame under the AG_NET before it; a malformed one is answered MG_ACK INVALID (R234, Table 7.8). -/
def execRegReq (agent : Nat) (req : Req) (count : Nat) (items : List RegItem) (s : State) : Ans :=
  .next (onRequest s agent req fun a s =>
    if count = 0 ∨ 255 < count ∨ items.length < count then mgAck s agent req stInvalid
    else
      let (done, t) := regItems s agent (items.take count)
      let net := ((t.agents.get agent).map (·.net)).getD 0
      let t := answerReq (t.onAgent agent fun x => { x with net := a.net }) agent req (.regRsp done)
      t.onAgent agent fun x => { x with net := net })

/-! Mailbox (R235, R236). -/

/-- MB_WORD: stored in AG_MB_IN with cause MAILBOX, or dropped with IN_OVF and BUSY. -/
def execMbWord (agent : Nat) (req : Req) (word : Word) (s : State) : Ans :=
  .next (onRequest s agent req fun a s =>
    if a.inFull then mgAck (s.onAgent agent fun x => { x with inOvf := true }) agent req stBusy
    else mgAck (agentCause (s.onAgent agent fun x => { x with mbIn := word, inFull := true }) agent causeMailbox) agent req stOk)

/-- Sends the mailbox word to the active controller under its TAG (R236, Table 7.2). -/
def sendMbOut (s : State) (id : Nat) (tag : BitVec 32) (w : Word) : State :=
  agentMgmt s id (agentNet s id .ordinary) 0 0x0003 0 tag 1 (wordBytes w)

/-- AG_MB_OUT_RESEND: the word to the controller is sent again (R236). -/
def execAgMbOutResend (agent : Nat) (s : State) : Ans :=
  .next (onLive s agent fun a =>
    if a.outFull then sendMbOut s agent a.outTag a.mbOut else s)

/-- MG_ACK_AT_AGENT: the answer to the mailbox word or to a digest report; re-sending stops (R236, R392). -/
def execMgAckAtAgent (agent : Nat) (tag : BitVec 32) (status : BitVec 8) (s : State) : Ans :=
  .next (onLive s agent fun a =>
    if a.outFull ∧ a.outTag = tag then
      s.onAgent agent fun x => { x with outFull := false, outOvf := x.outOvf || status.toNat == stBusy }
    else s.onAgent agent fun x => { x with integ := { x.integ with reports := x.integ.reports.filter fun r => r.tag != tag } })

/-! The event buffer's traffic (R237 to R239, R344, R378 to R380). -/

/-- The kind that the agent keeps of a host chip record (R344). -/
def hostKind (k : BitVec 12) : BitVec 12 := if k = 0x188 ∨ 0x800 ≤ k.toNat then k else 0x800

/-- HC_EVT: the record is taken or lost to spoil, and acknowledged in either case. -/
def execHcEvt (agent : Nat) (rec : Rec) (s : State) : Ans :=
  .next (onLive s agent fun a =>
    let r := { rec with source := a.addr, island := a.handle, kind := hostKind rec.kind
                        cls := if rec.kind = 0x188 then .note else rec.cls, portal := none, ctx := none }
    (flushDue (s.onAgent agent fun x => { x with evt := x.evt.take r }) agent 4).emit (.hcEvtAck agent))

/-- EVENTS_FLUSH: 100 µs after the oldest unsent record was taken. -/
def execEventsFlush (agent : Nat) (s : State) : Ans := .next (onLive s agent fun _ => sendEvents s agent)

/-- The ESEQ that a 32-bit acknowledgement names: at or below AG_EVT_NEXT − 1 and within 4,096 of it (R238). -/
def extendAck (next : Nat) (arg : BitVec 32) : Option Nat :=
  let top := next - 1
  let d := (BitVec.ofNat 32 top - arg).toNat
  if d ≤ 4096 ∧ d ≤ top then some (top - d) else none

/-- The buffer after an acknowledgement of every ESEQ up to e. -/
def EvtBuf.ackTo (b : EvtBuf) (e : Nat) : EvtBuf :=
  let keep := b.recs.filter fun r => match r.eseq with
    | none => true
    | some n => decide (e < n)
  { b with recs := keep, acked := e, firstHeld := keep.any (·.first), packets := b.packets.filter fun n => decide (e < n) }

/-- EVT_ACK: the records that it covers are released. -/
def execEvtAck (agent : Nat) (arg : BitVec 32) (s : State) : Ans :=
  .next (onLive s agent fun a =>
    match extendAck a.evt.next arg with
    | none => s
    | some e =>
      if e ≤ a.evt.acked then s
      else flushDue (s.onAgent agent fun x => { x with evt := x.evt.ackTo e }) agent 4)

/-- The sent and held records from an ESEQ on, up to the end of its packet. -/
def packetRecs (b : EvtBuf) (lo hi : Nat) : List Rec :=
  b.recs.filterMap fun r => match r.eseq with
    | none => none
    | some n => if lo < n ∧ n ≤ hi then some r.r else none

/-- Sends the unacknowledged packets again, oldest first. -/
def resendPackets (s : State) (id : Nat) (net : Net) (b : EvtBuf) : Nat → List Nat → State
  | _, [] => s
  | lo, hi :: rest => resendPackets (eventsPacket s id net (lo + 1) (packetRecs b lo hi)) id net b hi rest

/-- EVENTS_RESEND: no acknowledgement advances for 1 ms, and the agent re-sends from the oldest held record, where a network reaches the controller (R17, R238). -/
def execEventsResend (agent : Nat) (s : State) : Ans :=
  .next (onLive s agent fun a =>
    match a.eventsNet agent s.now with
    | none => s
    | some net => resendPackets s agent net a.evt a.evt.acked a.evt.packets)

/-- EVT_SPOIL: an agent whose SPOIL has risen posts it, at most once per 10 ms (R380). -/
def execEvtSpoil (agent : Nat) (s : State) : Ans :=
  .next (onLive s agent fun a =>
    let soon : Bool := match a.evt.spoilTime with
      | none => false
      | some t => decide (s.now < t + 10000000)
    if a.evt.spoil ≤ a.evt.spoilPosted ∨ soon then s
    else agentFault (s.onAgent agent fun x => { x with evt := { x.evt with spoilPosted := x.evt.spoil, spoilTime := some s.now } })
      agent 3 0x187 .note (BitVec.ofNat 64 a.evt.spoil))

/-! Counters and PING (R217, R220). -/

/-- The body of COUNTERS: words 0 to 47 of ports 0 to 8. -/
def Agent.counterWords (a : Agent) : List Word := (List.range 9).flatMap fun p => (List.range 48).map fun w => a.count p w

/-- Live links whose counts a port keeps. -/
def Agent.countLinks (a : Agent) (p : Nat) : List Nat := (List.range 16).filter fun n => a.linkLive n && a.countPort n == p

/-- Every H counter starts again from its current value; MARGIN_MIN of a port without a live link has none and stays (R217). -/
def Agent.restartMarks (a : Agent) : Agent :=
  (List.range 8).foldl (fun x p =>
    let x := [0, 1, 2].foldl (fun y k => y.setCount p (17 + k) (BitVec.ofNat 64 (a.depthNow p k))) x
    if a.countLinks p = [] then x
    else x.setCount p 24 (BitVec.ofNat 64 ((a.countLinks p).foldl (fun m n => Nat.min m (a.link n).margin) 15))) a

/-- CNT_SAMPLE: the counters are sent with the agent's time, on the ordinary network alone, and every H counter restarts (Table 1.1). -/
def execCntSample (agent : Nat) (req : Req) (s : State) : Ans :=
  .next (onLive s agent fun a =>
    (agentMgmt (asksNow s agent req) agent .ordinary req.ctrl 0x0011 0 req.tag (BitVec.ofNat 64 (a.ft s)) (a.counterWords.flatMap wordBytes)).onAgent
      agent Agent.restartMarks)

/-- PING: answered with the same ARG on its network. -/
def execPing (agent : Nat) (req : Req) (arg : BitVec 32) (s : State) : Ans :=
  .next (onLive s agent fun _ => answerCtrl (asksNow s agent req) agent req 0x25 0 arg)

/-! Firmware (R226 to R231). -/

/-- The manifest fields that R227 step 1 judges. -/
def manifestFits (b : List Byte) : Bool :=
  let bytes := leAt b 8 4
  leAt b 0 4 == 0x41474657 && decide (leAt b 6 1 ≤ 1) && leAt b 7 1 == 0 && zeroAt b 0x18 8 && zeroAt b 0x50 16 && b.length == 192 &&
    decide (8 ≤ bytes) && decide (bytes ≤ 1572864) && bytes % 8 == 0 && leAt b 0x0C 4 == (bytes + 4079) / 4080 &&
    leAt b 0x10 4 % 8 == 0 && decide (leAt b 0x10 4 < bytes) && leAt b 0x14 4 % 8 == 0 && decide (leAt b 0x14 4 < bytes)

/-- The reason with which a manifest fails, 0 for none (R227). -/
def manifestReason (b : List Byte) (floor : Nat) : Nat :=
  if !manifestFits b then 6
  else if !Config.ecdsaVerify (Config.romKey 2 (leAt b 6 1)) (Config.sha384 (b.take 0x60)) (slice b 0x60 96) then 2
  else if leAt b 4 2 < floor then 3
  else 0

/-- The manifest of a body. -/
def manifestOf (b : List Byte) : FwMan :=
  { svn := leAt b 4 2, bytes := leAt b 8 4, chunks := leAt b 0x0C 4, entry := leAt b 0x10 4, recover := leAt b 0x14 4, hash := hashAt b 0x20 }

/-- FW_MANIFEST: checked under R227; an accepted one zeroes the image region and the chunk record and enters LOADING. Table 7.6 gives VERIFYING no such row: there it is refused (log 19). -/
def execFwManifest (agent : Nat) (req : Req) (body : List Byte) (s : State) : Ans :=
  .next (onRequest s agent req fun a s =>
    let why := manifestReason body a.hc.floor
    if why ≠ 0 then mgAck (s.onAgent agent fun x => { x with reason := why }) agent req stInvalid
    else if a.life = .verifying then mgAck s agent req stInvalid
    else
      mgAck (s.onAgent agent fun x =>
        { x with reason := 0, life := .loading, manifest := manifestOf body, chunks := [], fwMeas := 0
                 core := { x.core with mem := x.core.mem.filter fun c => !inImage c.1, awaits := none, untilT := none, msgs := [] } })
        agent req stOk)

/-- The bytes that chunk k must carry (R228). -/
def FwMan.chunkLen (m : FwMan) (k : Nat) : Nat := Nat.min 4080 (m.bytes - 4080 * k)

/-- FW_CHUNK: written at its offset in any order; a duplicate is ignored, a wrong one counted, and the last one enters VERIFYING (R228). -/
def execFwChunk (agent k : Nat) (bytes : List Byte) (s : State) : Ans :=
  .next (onLive s agent fun a =>
    if a.life ≠ .loading then s
    else if a.manifest.chunks ≤ k ∨ bytes.length ≠ a.manifest.chunkLen k then s.onAgent agent fun x => x.bump 8 47
    else if a.chunks.contains k then s
    else s.onAgent agent fun x =>
      { x with core := { x.core with mem := memStore x.core.mem (imageBase + 4080 * k) bytes }, chunks := insertAsc k x.chunks
               life := if x.chunks.length + 1 = x.manifest.chunks then .verifying else .loading })

/-- FW_MISSING: missing chunk indexes, lowest first, at most 1,020 (R228, Table 7.2). -/
def sendMissing (s : State) (id : Nat) (a : Agent) : State :=
  let miss := (List.range a.manifest.chunks).filter fun k => !a.chunks.contains k
  agentMgmt s id .ordinary 0 0x0033 (Nat.min 1020 miss.length) 0 (BitVec.ofNat 64 miss.length) ((miss.take 1020).flatMap (leBytes 4))

/-- FW_END: an agent in LOADING reports what it misses. -/
def execFwEnd (agent : Nat) (s : State) : Ans :=
  .next (onLive s agent fun a => if a.life = .loading then sendMissing s agent a else s)

/-- FW_MISSING_TIMER: 50 ms after the last chunk received. -/
def execFwMissingTimer (agent : Nat) (s : State) : Ans :=
  .next (onLive s agent fun a => if a.life = .loading then sendMissing s agent a else s)

/-- LOADING_TIMEOUT: 10 s in LOADING with no chunk: ROM, reason TIMEOUT. -/
def execLoadingTimeout (agent : Nat) (s : State) : Ans :=
  .next (onLive s agent fun a => if a.life = .loading then s.onAgent agent fun x => { x with life := .rom, reason := 5 } else s)

/-- FW_VERIFY_DONE: the image hash ends: RUNNING at ENTRY with cleared registers and data, or REJECTED with AGENT_FW (R229). -/
def execFwVerifyDone (agent : Nat) (s : State) : Ans :=
  .next (onLive s agent fun a =>
    if a.life ≠ .verifying then s
    else
      let hash := Config.sha384 (memBytes a.core.mem imageBase a.manifest.bytes)
      if hash = a.manifest.hash then
        let s := s.onAgent agent fun x =>
          { x with life := .running, fwMeas := hash, svn := x.manifest.svn, excTimes := []
                   core := { mem := x.core.mem.filter fun c => inImage c.1, pc := BitVec.ofNat 64 (imageBase + x.manifest.entry)
                             causes := x.core.causes } }
        digestServe s agent 4
      else agentFault (s.onAgent agent fun x => { x with life := .rejected, reason := 1 }) agent 2 0x180 .uncorrected)

end Sys2Proof.Machine
end

