-- ==== Sys2Proof/Machine/AgTs.lean ====
section
/-! DEFINITION. The agent's part in an installation, and island abort at an agent (R282 to R291, R373 to R375). -/

namespace Sys2Proof.Machine

/-! The image and the checks at TS_PREPARE (R209, R213, R282, R283, R288). -/

/-- The words of a table of a bank, in order. -/
def tableWords (b : Bank) (t : Nat) : List Word := (List.range (tblCount t * tblWords t)).map fun i => FMap.getD b (t * 0x100000 + i) 0

/-- The member image: the staging tables in ascending id (R282). -/
def memberImage (isSwitch : Bool) (b : Bank) : List Byte := (stagedTables isSwitch).flatMap fun t => (tableWords b t).flatMap wordBytes

/-- A field lies in a range. -/
def within (lo hi v : Nat) : Bool := decide (lo ≤ v) && decide (v ≤ hi)

/-- Every PARAMS field with a range lies in it (R209, Table 6.11). -/
def paramsFit (b : Bank) : Bool :=
  let w0 := Bank.word b 6 0 0
  let w3 := Bank.word b 6 0 3
  let w5 := Bank.word b 6 0 5
  within 100 10000 (fld w0 63 48) && within 1 64 (fld w0 47 40) && within 1 15 (fld w0 39 36) && within 10 1000 (fld w0 31 16) &&
    within 1 1024 (fld w0 15 5) && within 0 1000 (fld w3 47 32) && within 250 16000 (fld w3 15 0) &&
    (within 0 8 (fld w5 11 8) || fld w5 11 8 == 15) && (within 0 7 (fld w5 15 12) || fld w5 15 12 == 15)

/-- The slots that the SLOTS entries cover up to the first LAST; none without one. -/
def slotsCovered (b : Bank) : Nat → Nat → Nat → Option Nat
  | 0, _, _ => none
  | fuel + 1, i, n =>
    let w := Bank.word b 5 i 1
    if w.getLsbD 63 then some (n + fld w 15 0 + 1) else slotsCovered b fuel (i + 1) (n + fld w 15 0 + 1)

/-- The entries up to the first LAST cover the period exactly (R213). -/
def slotsFit (b : Bank) : Bool := slotsCovered b 16384 0 0 == some (fld (Bank.word b 6 0 3) 31 16 + 1)

/-- A DETOUR word is a path of at most 4 hops, or all ones (R206). -/
def detourWordFit (w : Word) : Bool :=
  let l := detourHops w
  w == -1 || (decide (0 < l.length) && decide (l.length ≤ 4) && l.all (· < 8))

/-- Every DETOUR word is valid. -/
def detoursFit (b : Bank) : Bool := (List.range 16).all fun n => detourWordFit (Bank.word b 3 n 0) && detourWordFit (Bank.word b 3 n 1)

/-- Links of a port in a bank. -/
def bankLinks (b : Bank) (p : Nat) : List Nat :=
  let w := Bank.word b 4 p 0
  if w.getLsbD 20 then (List.range 16).filter w.getLsbD else []

/-- Each link in at most one port, each port in use with 1 to 16 links, and no port spans two neighbours, as the hellos tell (R29; log 20). -/
def portsFit (a : Agent) (b : Bank) : Bool :=
  ((List.range 16).all fun n => decide (((List.range 8).filter fun p => (bankLinks b p).contains n).length ≤ 1)) &&
    (List.range 8).all fun p =>
      let ids := ((bankLinks b p).filter fun n => (a.link n).nbrValid).map fun n => (a.link n).nbr
      (!(Bank.word b 4 p 0).getLsbD 20 || bankLinks b p != []) && ids.all fun i => ids.head? == some i

/-- The port of a bank in a direction of Table 6.8. -/
def bankDir (b : Bank) (dir : Nat) : Option Nat :=
  (List.range 8).find? fun p => (Bank.word b 4 p 0).getLsbD 20 && fld (Bank.word b 4 p 0) 18 16 == dir

/-- The staging bank of the endpoint that is to hold an address in an island. -/
def stagedBank (s : State) (h : Nat) (d : FAddr) : Option Bank :=
  (s.agents.find? fun e => !e.2.hc.isSwitch && e.2.staged.getD e.2.addr == d && fld (Bank.word e.2.stage 6 0 4) 63 48 == h).map (·.2.stage)

/-- DATELINE of a bank's port in a direction. -/
def bankDateline (b : Bank) (dir : Nat) : Bool := ((bankDir b dir).map fun p => (Bank.word b 4 p 0).getLsbD 19).getD false

/-- The dateline ends along an island's dimension line from one member on, in the positive direction of a dimension, two for each dateline link; none where the line is open (R192). -/
def ringEnds (s : State) (h dir : Nat) (start : FAddr) : Nat → Bank → Option Nat
  | 0, _ => none
  | fuel + 1, b =>
    match bankDir b dir with
    | none => none
    | some p =>
      let d : FAddr := (Bank.word b 4 p 0).extractLsb' 32 28
      match stagedBank s h d with
      | none => none
      | some c =>
        let n := (if bankDateline b dir then 1 else 0) + (if bankDateline c (dir + 1) then 1 else 0)
        if n = 1 then some 1 else if d = start then some n else (ringEnds s h dir start fuel c).map (· + n)

/-- Every closed dimension ring of the staged island that the member lies on has exactly one dateline link, set at both its ends (R192; log 20). -/
def datelinesFit (s : State) (a : Agent) : Bool :=
  let h := fld (Bank.word a.stage 6 0 4) 63 48
  h == 0 || [0, 2, 4, 6].all fun dir => (ringEnds s h dir (a.staged.getD a.addr) 64 a.stage).all (· == 2)

/-- Both ends of every circuit name each other (R283). -/
def circuitsFit (b : Bank) : Bool :=
  (List.range 256).all fun p =>
    let w := Bank.word b 8 p 0
    !w.getLsbD 8 || Bank.word b 8 (fld w 7 0) 0 == (at_ p 0 ||| at_ 1 8)

/-- The checks that a staging bank must pass (Table 9.5). -/
def stagingFits (s : State) (a : Agent) : Bool :=
  if a.hc.isSwitch then circuitsFit a.stage
  else paramsFit a.stage && slotsFit a.stage && detoursFit a.stage && portsFit a a.stage && datelinesFit s a

/-! Answers. -/

/-- TS_ACK (Table 9.3). -/
def tsAck (s : State) (id : Nat) (q : Req) (status : Nat) (arg : BitVec 32) : State :=
  answerCtrl s id q 0x16 status arg

/-- TS_READY (Table 9.3). -/
def tsReady (s : State) (id : Nat) (q : Req) (status : Nat) (crc : BitVec 32) : State :=
  answerCtrl s id q 0x11 status crc

/-- The prepared epoch (R285). -/
def Agent.prepEpoch (a : Agent) : Nat := if a.hc.isSwitch then a.ts.prep else fld (Bank.word a.stage 6 0 4) 47 16

/-- The packet's epoch is the prepared or the current one (R285). -/
def Agent.tsEpochOk (a : Agent) (epoch : Nat) : Bool := epoch == a.prepEpoch || (!a.hc.isSwitch && epoch == a.epoch)

/-- Local flows with outstanding packets. -/
def Agent.undrained (a : Agent) : Nat := (a.tx.filter fun f => f.2.out != []).length

/-! Flows at a swap and an abandon (R290). -/

/-- Ends every flow with outstanding packets, with FLOW_FAILED each and one FLOW_CUT (R290, R375). -/
def cutFlows (s : State) (id : Nat) (a : Agent) : State :=
  let cut := a.tx.filter fun f => f.2.out != []
  let s := cut.foldl (fun t f => endFlow t id f.1 f.2 .flowFailed) s
  if cut = [] then s else agentFault s id 0 0x141 .note (BitVec.ofNat 64 cut.length)

/-- Every flow starts at SEQ 0 (R199). -/
def restartFlows (s : State) (id : Nat) : State := s.onAgent id fun x => { x with tx := [], rx := [] }

/-- Ports without a live link in the installed bank count as dead, their armed detours applied. -/
def Agent.rearm (a : Agent) : Agent :=
  let dead := (List.range 8).foldl (fun m p => if a.portValid p && !a.portLive p then m ||| BitVec.ofNat 8 (2 ^ p) else m) (0 : BitVec 8)
  { a with deadPorts := dead, detoured := dead, noDetour := 0 }.refreshLanes

/-! TS_DATA (R286, R290). -/

/-- Writes elements of a table, word by word. -/
def writeElems (b : Bank) (t first : Nat) (ws : List Word) : Bank :=
  ((ws.zip (List.range ws.length)).foldl (fun b q => FMap.put b (t * 0x100000 + first * tblWords t + q.2) q.1 0) b)

/-- The words of a byte string. -/
def wordsOf (bs : List Byte) (n : Nat) : List Word := (List.range n).map fun i => wordAt bs (8 * i)

/-- The staging write itself: TS_ACK OK, or INVALID without a write (R286). -/
def tsData (s : State) (id : Nat) (q : Req) (table first count : Nat) (bytes : List Byte) : State :=
  match s.agents.get id with
  | none => s
  | some a =>
    let t := table - 0x8000
    let n := count * tblWords t
    if table < 0x8000 ∨ !(stagedTables a.hc.isSwitch).contains t ∨ tblCount t < first + count ∨ bytes.length < 8 * n ∨
        a.ts.st = .held ∨ a.ts.st = .committed then tsAck s id q stInvalid (q.tag &&& 0xFFFF)
    else
      let s := s.onAgent id fun x =>
        { x with stage := writeElems x.stage t first (wordsOf bytes n), ts := { x.ts with st := .opn } }
      tsAck s id q stOk (q.tag &&& 0xFFFF)

/-- TS_DATA: written to staging and answered, or held until a refill ends (R286, R290). -/
def execTsData (agent : Nat) (req : Req) (table first count : Nat) (bytes : List Byte) (s : State) : Ans :=
  .next (onLive s agent fun a =>
    let s := asksNow s agent req
    if a.ts.refill then
      s.onAgent agent fun x => { x with ts := { x.ts with held := x.ts.held ++ [(req, table, first, count, bytes)] } }
    else tsData s agent req table first count bytes)

/-- STAGING_REFILL_DONE: staging equals installed, and held TS_DATA is written and answered (R284, R290). -/
def execStagingRefillDone (agent : Nat) (s : State) : Ans :=
  .next (onLive s agent fun a =>
    if !a.ts.refill then s
    else
      let s := s.onAgent agent fun x => { x with stage := x.bank, ts := { x.ts with refill := false, held := [] } }
      a.ts.held.foldl (fun t h => tsData t agent h.1 h.2.1 h.2.2.1 h.2.2.2.1 h.2.2.2.2) s)

/-! The installation packets (R288, R289, R290). -/

/-- TS_PREPARE: the staging is checked and answered TS_READY with its image CRC, or INVALID. -/
def execTsPrepare (agent : Nat) (req : Req) (epoch : Nat) (s : State) : Ans :=
  .next (onLive s agent fun a =>
    let crc := crc32c (memberImage a.hc.isSwitch a.stage)
    let anyEpoch := a.hc.isSwitch && a.ts.st == .opn
    if !anyEpoch && !a.tsEpochOk epoch then tsReady s agent req stInvalid 0
    else match a.ts.st with
      | .opn =>
        if stagingFits s a then
          tsReady (s.onAgent agent fun x => { x with ts := { x.ts with st := .prepared, prep := epoch } }) agent req stOk crc
        else tsReady s agent req stInvalid 0
      | .prepared => if epoch = a.prepEpoch then tsReady s agent req stOk crc else tsReady s agent req stInvalid 0
      | .held => tsReady s agent req stInvalid 0
      | .committed => tsReady s agent req stInvalid 0)

/-- The undrained count in ARG of TS_ACK (Table 9.3). -/
def drainArg (n : Nat) : BitVec 32 := BitVec.ofNat 32 (Nat.min 0xFFFF n * 65536)

/-- TS_QUIESCE: island injection is held and the drain starts; answered at once when nothing is outstanding, and by a switch agent (R288, R289). -/
def execTsQuiesce (agent : Nat) (req : Req) (epoch : Nat) (s : State) : Ans :=
  .next (onLive s agent fun a =>
    if !a.tsEpochOk epoch then tsAck s agent req stInvalid 0
    else match a.ts.st with
      | .prepared =>
        let wait := !a.hc.isSwitch && decide (0 < a.undrained)
        let s := s.onAgent agent fun x => { x with ts := { x.ts with st := .held, quiesce := if wait then some req else none } }
        if wait then s else tsAck s agent req stOk 0
      | .held => tsAck s agent req stOk (drainArg a.undrained)
      | .opn => tsAck s agent req stInvalid 0
      | .committed => tsAck s agent req stInvalid 0)

/-- Answers a waiting TS_QUIESCE with the drain count. -/
def answerQuiesce (s : State) (id : Nat) (a : Agent) : State :=
  match a.ts.quiesce with
  | none => s
  | some q => tsAck (s.onAgent id fun x => { x with ts := { x.ts with quiesce := none } }) id q stOk (drainArg a.undrained)

/-- FLOWS_DRAINED: every local flow has no outstanding packet. -/
def execFlowsDrained (agent : Nat) (s : State) : Ans :=
  .next (onLive s agent fun a => if a.undrained = 0 then answerQuiesce s agent a else s)

/-- DRAIN_LIMIT: 20 ms after TS_QUIESCE. -/
def execDrainLimit (agent : Nat) (s : State) : Ans := .next (onLive s agent fun a => answerQuiesce s agent a)

/-- After a change of the installed tables, what waited for a dead port takes its way anew (R195, R207). -/
def releaseWaiting (s : State) (id : Nat) : State :=
  match s.agents.get id with
  | none => s
  | some a => a.waiting.foldl (fun t w => release t id w.2) (s.onAgent id fun x => { x with waiting := [] })

/-- The banks swap: tables, staged address and step take effect, flows are cut and start anew; an agent now assigned reports its links (R224, R225, R290). -/
def swapBanks (s : State) (id : Nat) (a : Agent) : State :=
  let s := restartFlows (cutFlows s id a) id
  let s := s.onAgent id fun x =>
    let x := { x with bank := x.stage, stage := x.bank, staged := none, dbgSeen := x.dbg != 0
                      ts := { x.ts with st := .committed, old := some x.bank, back := some (x.addr, x.assigned, x.spare, x.staged) }
                      integ := { x.integ with step := 0 } }
    let x := match a.staged with
      | none => x
      | some d => if d = 0x0FFFFFF then { x with addr := d, assigned := false, spare := true } else { x with addr := d, assigned := true, spare := false }
    x.rearm
  let s := releaseWaiting s id
  let s := if a.hc.isSwitch then s.emit (.switchMap id) else s
  if !a.assigned && ((s.agents.get id).map (·.assigned)).getD false then sendReport s id else s

/-- TS_COMMIT: the swap, answered TS_ACK OK; answered again when repeated (Table 9.5). -/
def execTsCommit (agent : Nat) (req : Req) (epoch : Nat) (s : State) : Ans :=
  .next (onLive s agent fun a =>
    if !a.tsEpochOk epoch then tsAck s agent req stInvalid 0
    else match a.ts.st with
      | .held => tsAck (swapBanks (s.onAgent agent fun x => { x with ts := { x.ts with quiesce := none } }) agent a) agent req stOk 0
      | .committed => tsAck s agent req stOk 0
      | .opn => tsAck s agent req stInvalid 0
      | .prepared => tsAck s agent req stInvalid 0)

/-- TS_RELEASE: the hold and an abort's fence end, the old bank goes, and staging refills; in OPEN it is only answered (Table 9.5, R375). -/
def execTsRelease (agent : Nat) (req : Req) (epoch : Nat) (s : State) : Ans :=
  .next (onLive s agent fun a =>
    if !a.tsEpochOk epoch then tsAck s agent req stInvalid 0
    else match a.ts.st with
      | .committed =>
        tsAck (s.onAgent agent fun x =>
          { x with abortFence := false, ts := { x.ts with st := .opn, old := none, back := none, refill := true } }) agent req stOk 0
      | .opn => tsAck s agent req stOk 0
      | .prepared => tsAck s agent req stInvalid 0
      | .held => tsAck s agent req stInvalid 0)

/-- Leaves any installation state: swapped back if swapped, which a switch agent applies to its circuits, the hold lifted, staging refilled; with RESTART flows are cut and start anew (R283, R290). -/
def abandon (s : State) (id : Nat) (a : Agent) (restart : Bool) : State :=
  let s := if restart then restartFlows (cutFlows s id a) id else s
  let s := s.onAgent id fun x =>
    let x := match x.ts.old with
      | none => x
      | some b => { x with stage := x.bank, bank := b }.rearm
    let x := match x.ts.back with
      | none => x
      | some (d, asg, sp, st) => { x with addr := d, assigned := asg, spare := sp, staged := st }
    { x with ts := { x.ts with st := .opn, old := none, back := none, quiesce := none, refill := true } }
  if a.ts.old.isNone then s else if a.hc.isSwitch then s.emit (.switchMap id) else releaseWaiting s id

/-- TS_ABANDON, with RESTART in SUB (R290, R291). -/
def execTsAbandon (agent : Nat) (req : Req) (epoch : Nat) (restart : Bool) (s : State) : Ans :=
  .next (onLive s agent fun a =>
    if !a.tsEpochOk epoch then tsAck s agent req stInvalid 0
    else tsAck (abandon s agent a restart) agent req stOk 0)

/-! Island abort (R373 to R375). -/

/-- Steps along a dimension from the own coordinate over VALID DIM entries, at most n − 1. -/
def runLength (a : Agent) (k n : Nat) (down : Bool) : Nat → Nat → Nat
  | 0, _ => 0
  | fuel + 1, c =>
    let d := stepCoord n c down
    if d = coordOf a.addr k ∨ !(Bank.word a.bank 1 (64 * k + d) 0).getLsbD 4 then 0 else runLength a k n down fuel d + 1

/-- The coordinates at which relays along a dimension end: the two spans of a whole ring, or the ends of an open line that differ from the relay (R203, R373). -/
def relayEnds (s : State) (a : Agent) (k : Nat) : List Nat :=
  let n := s.dim k
  let c := coordOf a.addr k
  let up := runLength a k n false 63 c
  let down := runLength a k n true 63 c
  if n ≤ 1 then []
  else if up + 1 = n then
    [(c + n / 2) % n] ++ (if 1 < (n + 1) / 2 then [(c + n - ((n + 1) / 2 - 1)) % n] else [])
  else (if up = 0 then [] else [(c + up) % n]) ++ (if down = 0 then [] else [(c + n - down) % n])

/-- A relay keeps the controller's SRC, key 0 and the island's EPOCH (R204, R373). -/
def relayPkt (a : Agent) (h : Hdr) (k d : Nat) : Pkt :=
  let r := ctrlHdr (withCoord a.addr k d) h.src a.epoch 0 3 h.sub 0 h.arg 2
  { hdr := { r with h12 := BitVec.ofNat 16 (3 * 256 + 1 + 2 * k) } }

/-- The dimensions along which a copy is relayed: all from the root, else those after the one it came along (R373). -/
def relayDims (h : Hdr) : List Nat := if h.mcast then (List.range h.mdim).reverse else [3, 2, 1, 0]

/-- The answer of an aborted agent to controller index 0, on the network that carried the abort: MG_ACK FENCED with 0x8000_0000 | handle (R16, R375). -/
def abortAnswer (s : State) (id : Nat) (c : Carried) : State :=
  agentCtrl s id c.net 0 0x20 10 (BitVec.ofNat 24 c.hdr.context) (0x80000000 ||| (c.hdr.arg &&& 0xFFFF))

/-- ISLAND_ABORT_PACKET: for its own handle the agent fences, leaves its installation, ends flows, relays and answers; a second copy is only answered, and any other handle is discarded. -/
def execIslandAbortPacket (agent : Nat) (copy : Carried) (s : State) : Ans :=
  .next (onLive s agent fun a =>
    if a.handle = 0 ∨ copy.hdr.arg.toNat % 65536 ≠ a.handle then s
    else if a.abortFence then abortAnswer s agent copy
    else
      let s := s.onAgent agent fun x => { x with abortFence := true }
      let s := if a.ts.st = .opn then s else abandon s agent a false
      let s := cutFlows s agent a
      let s := (relayDims copy.hdr).foldl (fun t k =>
        (relayEnds t a k).foldl (fun u d => launch u agent (relayPkt a copy.hdr k d)) t) s
      abortAnswer s agent copy)

end Sys2Proof.Machine
end

