-- ==== Sys2Proof/Machine/AgInteg.lean ====
section
/-! DEFINITION. The check and digest engine of an agent: steps, digests, reports, targeted tests and pattern stores (R388 to R392, R398, R400). -/

namespace Sys2Proof.Machine

/-- DIGEST_STEP: queued behind at most three others, else dropped with its step counted; a new step takes the figures of the old one and posts its PLAUSIBILITY record (R388, R391; log 22, 154). -/
def execDigestStep (agent : Nat) (arg : BitVec 32) (s : State) : Ans :=
  .next (onLive s agent fun a =>
    let rep := arg.getLsbD 8
    if a.life ≠ .running then agentFault s agent 2 0x041 .note
    else
      let full := decide (4 ≤ a.integ.queue.length)
      let f := a.integ.fig
      let step := if rep then bits arg.toNat 31 9 else (a.integ.step + 1) % 2 ^ 40
      let d : DStep := { descs := a.descsOf (bits arg.toNat 7 0), rep := rep, step := step, fig := if rep then {} else f }
      let s := s.onAgent agent fun x =>
        { x with integ := { x.integ with step := if rep then x.integ.step else step, fig := if rep then x.integ.fig else {}
                                         queue := if full then x.integ.queue else x.integ.queue ++ [d] } }
      let s := if !rep && decide (0 < f.violations) then
          agentFault s agent 1 0x200 .note (BitVec.ofNat 64 f.violations) (BitVec.ofNat 64 (f.firstFmt.getD 0))
        else s
      if full then agentFault s agent 2 0x041 .note else digestServe s agent 4)

/-- DIGEST_COMPLETE: the host memory of the next descriptor has been read; its digest is reported, and the next is read or the request ends. -/
def execDigestComplete (agent : Nat) (data : List Byte) (s : State) : Ans :=
  .next (onLive s agent fun a =>
    match a.integ.queue with
    | [] => s
    | d :: rest =>
      if a.busyReset ∨ a.life ≠ .running then s
      else match d.descs with
        | [] => digestServe s agent 4
        | i :: is =>
          let body := reportBytes a i d.rep d.fig.poisoned d.step (digest64 data) d.fig
          let none' : Plaus := { poisoned := d.fig.poisoned }
          let s := s.onAgent agent fun x =>
            { x with integ := { x.integ with queue := { d with descs := is, fig := none' } :: rest, reading := false } }
          digestServe (sendDigest s agent body) agent 4)

/-- DIGEST_REPORT_RESEND: an unanswered report is sent again, at most 8 times (R392). -/
def execDigestReportResend (agent : Nat) (tag : BitVec 32) (s : State) : Ans :=
  .next (onLive s agent fun a =>
    match a.integ.reports.find? fun r => r.tag == tag with
    | none => s
    | some r =>
      if 9 ≤ r.sends then s.onAgent agent fun x => { x with integ := { x.integ with reports := x.integ.reports.filter fun q => q.tag != tag } }
      else
        (agentMgmt s agent (agentNet s agent .ordinary) 0 0x0060 0 tag 0 r.body).onAgent agent fun x =>
          { x with integ := { x.integ with reports := x.integ.reports.map fun q => if q.tag = tag then { q with sends := q.sends + 1 } else q } })

/-! Targeted tests (R398 to R400). -/

/-- SRAM address of a store slot. -/
def storeAt (slot : Nat) : Nat := 0x70000 + 8192 * slot

/-- The store slot that holds a pattern set. -/
def Agent.findSet (a : Agent) (set : Nat) : Option Nat :=
  if set = 0 then none else (List.range 8).find? fun k => memLoad a.core.mem (storeAt k) 2 == set

/-- Address of entry i of a pattern set (R399). -/
def entryAt (t : AgTest) : Nat := storeAt t.slot + 16 + 24 * t.entry

/-- COUNT of the pattern set of a test. -/
def Agent.setCountOf (a : Agent) (t : AgTest) : Nat := memLoad a.core.mem (storeAt t.slot + 4) 4

/-- Sends TEST_RUN for the entry that runs. -/
def testRun (s : State) (id : Nat) (a : Agent) (t : AgTest) : State :=
  toHostChip (s.onAgent id fun x => { x with integ := { x.integ with test := some t } }) id a 0xE0
    (0xF00000 + t.unit % 4096 * 256 + memLoad a.core.mem (entryAt t) 1) (BitVec.ofNat 32 (memLoad a.core.mem (entryAt t + 4) 4))

/-- Writes PAT_DATA bytes into a store slot and answers. -/
def patWrite (s : State) (id : Nat) (q : Req) (slot offset : Nat) (bytes : List Byte) : State :=
  mgAck (s.onAgent id fun x => { x with core := { x.core with mem := memStore x.core.mem (storeAt slot + offset) bytes } }) id q stOk

/-- A result of ITEST: [7:0] the code, [31:16] the stopping entry. -/
def testWord (code entry : Nat) : Nat := code + entry * 65536

/-- Ends a test: an ITEST instruction completes with the result, or TEST_RESULT goes to the asking context; held PAT_DATA is written. The cycles of an ITEST's wait the spec does not give: a free value (log 9). -/
def testEnd (s : State) (id : Nat) (t : AgTest) (code : Nat) : State :=
  let w := testWord code t.entry
  let s := match t.dst with
    | none => answerCtrl s id t.ask 0x04 0xE3 (BitVec.ofNat 32 w)
    | some d =>
      let cost := s.draw.1.toNat
      s.draw.2.onAgent id fun x =>
        let c := x.core
        { x with core := { c with g := if d = 0 then c.g else c.g.put d.toNat (BitVec.ofNat 64 w) 0, pc := c.pc + 8, awaits := none
                                  cycle := c.cycle + BitVec.ofNat 64 cost, instret := c.instret + 1 } }
  match s.agents.get id with
  | none => s
  | some a =>
    let s := s.onAgent id fun x => { x with integ := { x.integ with test := none, patHeld := [] } }
    a.integ.patHeld.foldl (fun u h => patWrite u id h.1 h.2.1 h.2.2.2.1 h.2.2.2.2) s

/-- Starts a test, or ends it at once: REFUSED while one runs or a reset or scrub does, NO_SET without the set (R398, Table 12.11). -/
def testStart (s : State) (id : Nat) (a : Agent) (t : AgTest) : State :=
  if a.integ.test.isSome ∨ a.busyReset ∨ a.life ≠ .running then testEnd' s id t 3
  else match a.findSet t.set with
    | none => testEnd' s id t 4
    | some k => if a.setCountOf { t with slot := k } = 0 then testEnd' s id t 0 else testRun s id a { t with slot := k }
where
  /-- An end that leaves a running test alone. -/
  testEnd' (s : State) (id : Nat) (t : AgTest) (code : Nat) : State :=
    let keep := (s.agents.get id).bind fun a => a.integ.test
    let held := ((s.agents.get id).map fun a => a.integ.patHeld).getD []
    (testEnd (s.onAgent id fun x => { x with integ := { x.integ with patHeld := [] } }) id t code).onAgent id fun x =>
      { x with integ := { x.integ with test := keep, patHeld := held } }

/-- TEST_REQ: the controller asks for a pattern set on a unit; ARG [15:0] set, [27:16] unit (Table 12.4). Outside RUNNING it is dropped and counted as MSG_DROP (R232, R390). -/
def execTestReq (agent : Nat) (req : Req) (arg : BitVec 32) (s : State) : Ans :=
  .next (onLive s agent fun a =>
    if a.life ≠ .running then agentFault s agent 2 0x041 .note
    else testStart s agent a { set := bits arg.toNat 15 0, unit := bits arg.toNat 27 16, ask := req })

/-- TEST_DONE: the host chip ends a run, 0 when it refused; LENGTH bytes of the output are read, digested and compared, and the next entry runs or the test ends (R398). Outside RUNNING it is dropped and counted as MSG_DROP (R390). -/
def execTestDone (agent : Nat) (arg : BitVec 32) (data : List Byte) (s : State) : Ans :=
  .next (onLive s agent fun a =>
    if a.life ≠ .running then agentFault s agent 2 0x041 .note
    else match a.integ.test with
      | none => s
      | some t =>
        if arg = 0 then testEnd s agent t 3
        else
          let len := memLoad a.core.mem (entryAt t + 8) 8
          let s := s.emit (.hostRead agent (arg.zeroExtend 64 <<< 12) len)
          if digest64 (slice data 0 len) ≠ BitVec.ofNat 64 (memLoad a.core.mem (entryAt t + 16) 8) then testEnd s agent t 1
          else if t.entry + 1 < a.setCountOf t then testRun s agent a { t with entry := t.entry + 1 }
          else testEnd s agent t 0)

/-- TEST_RUN_TIMEOUT: no TEST_DONE within 100 ms. -/
def execTestRunTimeout (agent : Nat) (s : State) : Ans :=
  .next (onLive s agent fun a =>
    match a.integ.test with
    | none => s
    | some t => testEnd s agent t 2)

/-- PAT_DATA: bytes of a pattern set for a store slot, held while a running test uses the slot (R400). -/
def execPatData (agent : Nat) (req : Req) (slot set offset : Nat) (bytes : List Byte) (s : State) : Ans :=
  .next (onRequest s agent req fun a s =>
    if 8 ≤ slot ∨ bytes = [] ∨ 4080 < bytes.length ∨ 8192 < offset + bytes.length then mgAck s agent req stInvalid
    else if a.integ.test.any fun t => t.slot == slot then
      s.onAgent agent fun x => { x with integ := { x.integ with patHeld := x.integ.patHeld ++ [(req, slot, set, offset, bytes)] } }
    else patWrite s agent req slot offset bytes)

end Sys2Proof.Machine
end

