-- ==== Sys2Proof/Machine/Flags.lean ====
section
/-! DEFINITION. binary64 arithmetic with its flags (R144 to R146, Table 4.14, Table 4.20). -/

namespace Sys2Proof.Machine

/-- A decoded binary64 number: a NaN (signalling or not), an infinity, or ± m × 2^(e − 1074) exactly. -/
inductive Flt where
  | nan (signalling : Bool)
  | inf (neg : Bool)
  | fin (neg : Bool) (m e : Nat)
  deriving DecidableEq, Repr

/-- Decodes binary64; e is the exponent of the last place above that of the least subnormal. -/
def fltOf (w : Word) : Flt :=
  let ex := fld w 62 52
  let fr := fld w 51 0
  let s := w.getLsbD 63
  if ex = 2047 then (if fr = 0 then .inf s else .nan (!(w.getLsbD 51)))
  else if ex = 0 then .fin s fr 0
  else .fin s (2 ^ 52 + fr) (ex - 1)

/-- The canonical quiet NaN (R144). -/
abbrev fNan : Word := 0x7FF8000000000000

/-- An infinity. -/
def fInf (neg : Bool) : Word := if neg then 0xFFF0000000000000 else 0x7FF0000000000000

/-- A zero. -/
def fZero (neg : Bool) : Word := if neg then 0x8000000000000000 else 0

/-- The four flags as fpflags bits: INVALID 0, OVERFLOW 1, UNDERFLOW 2, INEXACT 3 (Table 4.20). -/
def flagBits (invalid overflow underflow inexact : Bool) : BitVec 4 :=
  BitVec.ofBool inexact ++ BitVec.ofBool underflow ++ BitVec.ofBool overflow ++ BitVec.ofBool invalid

/-- m / 2^d rounded to nearest even, and whether it is exact. -/
def rne (m d : Nat) : Nat × Bool :=
  let q := m / 2 ^ d
  let r := m % 2 ^ d
  let h := 2 ^ d / 2
  if d = 0 then (m, true)
  else if r = 0 then (q, true)
  else if r < h ∨ (r = h ∧ q % 2 = 0) then (q, false)
  else (q + 1, false)

/-- Rounds ± m × 2^(e − 1074 − base) to binary64: result and flags. `base` is how far below the least subnormal the scale starts (R144). -/
def roundFlt (neg : Bool) (m e base : Nat) : Word × BitVec 4 :=
  if m = 0 then (fZero neg, 0)
  else
    let len := Nat.log2 m + 1
    -- the last place kept, in units of 2^(−1074 − base)
    let q := Nat.max (e + len - 53) base
    let (k, exact) := if q ≤ e then (m * 2 ^ (e - q), true) else rne m (q - e)
    -- the same number rounded as if the exponent had no lower bound
    let u := if e + len - 53 ≤ e then m * 2 ^ (e - (e + len - 53)) else (rne m (e + len - 53 - e)).1
    let tinyAfter := decide (u * 2 ^ (e + len - 53) < 2 ^ (52 + base))
    let tinyExact := decide (m * 2 ^ e < 2 ^ (52 + base))
    let (k, q) := if k = 2 ^ 53 then (2 ^ 52, q + 1) else (k, q)
    let under := !exact && tinyExact && (tinyAfter || Config.tinyBefore)
    if k < 2 ^ 52 then (BitVec.ofNat 64 k ||| fZero neg, flagBits false false under (!exact))
    else if 2047 ≤ q - base + 1 then (fInf neg, flagBits false true false true)
    else (BitVec.ofNat 64 ((q - base + 1) * 2 ^ 52 + (k - 2 ^ 52)) ||| fZero neg, flagBits false false under (!exact))

/-- A NaN result; invalid when an operand signals or the operation has no number (R144). -/
def nanRes (invalid : Bool) : Word × BitVec 4 := (fNan, flagBits invalid false false false)

/-- An operand is a signalling NaN. -/
def Flt.signals : Flt → Bool
  | .nan b => b
  | .inf _ => false
  | .fin _ _ _ => false

/-- An operand is a NaN. -/
def Flt.isNan : Flt → Bool
  | .nan _ => true
  | .inf _ => false
  | .fin _ _ _ => false

/-- The exact sum of two signed numbers of one scale: sign and magnitude; an exact zero is −0 only when both are negative. -/
def signedSum (na : Bool) (a : Nat) (nb : Bool) (b : Nat) : Bool × Nat :=
  if na = nb then (na, a + b)
  else if b < a then (na, a - b)
  else if a < b then (nb, b - a)
  else (false, 0)

/-- binary64 addition. -/
def fAdd (x y : Word) : Word × BitVec 4 :=
  match fltOf x, fltOf y with
  | .nan a, b => nanRes (a || b.signals)
  | a, .nan b => nanRes (b || a.signals)
  | .inf a, .inf b => if a = b then (fInf a, 0) else nanRes true
  | .inf a, .fin _ _ _ => (fInf a, 0)
  | .fin _ _ _, .inf b => (fInf b, 0)
  | .fin na ma ea, .fin nb mb eb =>
    let e := Nat.min ea eb
    let (n, m) := signedSum na (ma * 2 ^ (ea - e)) nb (mb * 2 ^ (eb - e))
    roundFlt n m e 0

/-- The sign bit inverted. -/
def fNeg (x : Word) : Word := x ^^^ 0x8000000000000000

/-- binary64 subtraction. -/
def fSub (x y : Word) : Word × BitVec 4 :=
  if (fltOf y).isNan then fAdd x y else fAdd x (fNeg y)

/-- binary64 multiplication. -/
def fMul (x y : Word) : Word × BitVec 4 :=
  match fltOf x, fltOf y with
  | .nan a, b => nanRes (a || b.signals)
  | a, .nan b => nanRes (b || a.signals)
  | .inf a, .inf b => (fInf (a != b), 0)
  | .inf a, .fin nb mb _ => if mb = 0 then nanRes true else (fInf (a != nb), 0)
  | .fin na ma _, .inf b => if ma = 0 then nanRes true else (fInf (na != b), 0)
  | .fin na ma ea, .fin nb mb eb => roundFlt (na != nb) (ma * mb) (ea + eb) 1074

/-- The product of two operands, when neither is a NaN: none for zero times infinity, else its decoded value on scale 2^−2148. -/
def exactMul (a b : Flt) : Option Flt :=
  match a, b with
  | .nan x, _ => some (.nan x)
  | _, .nan x => some (.nan x)
  | .inf x, .inf y => some (.inf (x != y))
  | .inf x, .fin n m _ => if m = 0 then none else some (.inf (x != n))
  | .fin n m _, .inf y => if m = 0 then none else some (.inf (n != y))
  | .fin n m e, .fin n' m' e' => some (.fin (n != n') (m * m') (e + e'))

/-- Fused multiply-add d + a × b with one rounding (R143). -/
def fFma (d a b : Word) : Word × BitVec 4 :=
  let fd := fltOf d
  let fa := fltOf a
  let fb := fltOf b
  let sig := fd.signals || fa.signals || fb.signals
  if fa.isNan || fb.isNan then nanRes sig
  else match exactMul fa fb with
    | none => if fd.isNan then nanRes (sig || Config.fmaNanInvalid) else nanRes true
    | some (.nan _) => nanRes sig
    | some (.inf p) =>
      match fd with
      | .nan _ => nanRes sig
      | .inf n => if n = p then (fInf p, 0) else nanRes true
      | .fin _ _ _ => (fInf p, 0)
    | some (.fin np mp ep) =>
      match fd with
      | .nan _ => nanRes sig
      | .inf n => (fInf n, 0)
      | .fin nd md ed =>
        let e := Nat.min ep (ed + 1074)
        let (n, m) := signedSum np (mp * 2 ^ (ep - e)) nd (md * 2 ^ (ed + 1074 - e))
        roundFlt n m e 1074

/-- A key that orders the numbers, −0 below +0: bit patterns read as sign and magnitude. -/
def fKey (w : Word) : Int := if w.getLsbD 63 then -(fld w 62 0 : Int) - 1 else (fld w 62 0 : Int)

/-- .FMIN and .FMAX: the number against a NaN, the canonical NaN for two (R144). -/
def fMinMax (mx : Bool) (x y : Word) : Word × BitVec 4 :=
  let fl := flagBits ((fltOf x).signals || (fltOf y).signals) false false false
  if (fltOf x).isNan then (if (fltOf y).isNan then (fNan, fl) else (y, fl))
  else if (fltOf y).isNan then (x, fl)
  else if mx then (if fKey x < fKey y then (y, fl) else (x, fl))
  else (if fKey y < fKey x then (y, fl) else (x, fl))

/-- a = b in binary64, ordered: zeros are equal. -/
def fEq (x y : Word) : Bool :=
  !(fltOf x).isNan && !(fltOf y).isNan && (x == y || (fld x 62 0 == 0 && fld y 62 0 == 0))

/-- a < b in binary64, ordered. -/
def fLt (x y : Word) : Bool :=
  !(fltOf x).isNan && !(fltOf y).isNan && !(fEq x y) && decide (fKey x < fKey y)

/-- The floating conditions of Table 4.13 by MOD, with the invalid flag of R145, which names FLT, FLE and FEQ; .FUN sets none, which is the model's choice (log 164). -/
def fCond (m : Nat) (x y : Word) : Bool × BitVec 4 :=
  let anyNan := (fltOf x).isNan || (fltOf y).isNan
  let anySig := (fltOf x).signals || (fltOf y).signals
  if m = 8 then (fEq x y, flagBits anySig false false false)
  else if m = 9 then (fLt x y, flagBits anyNan false false false)
  else if m = 10 then (fLt x y || fEq x y, flagBits anyNan false false false)
  else (anyNan, 0)

/-- .I2F and .U2F: an integer to binary64, nearest even (Table 4.14). -/
def toF (neg : Bool) (m : Nat) : Word × BitVec 4 := roundFlt neg m 1074 0

/-- The integer part of a finite number's magnitude. -/
def truncMag (m e : Nat) : Nat := if 1074 ≤ e then m * 2 ^ (e - 1074) else m / 2 ^ (1074 - e)

/-- .F2I: toward zero, saturating, NaN 0 (Table 4.14). -/
def toI (x : Word) : Word × BitVec 4 :=
  match fltOf x with
  | .nan _ => (0, flagBits true false false false)
  | .inf n => (if n then 0x8000000000000000 else 0x7FFFFFFFFFFFFFFF, flagBits true false false false)
  | .fin n m e =>
    let v := truncMag m e
    if n then (if v ≤ 2 ^ 63 then (0 - BitVec.ofNat 64 v, 0) else (0x8000000000000000, flagBits true false false false))
    else (if v < 2 ^ 63 then (BitVec.ofNat 64 v, 0) else (0x7FFFFFFFFFFFFFFF, flagBits true false false false))

/-- .F2U: toward zero; NaN and negatives below −0 give 0, above range all ones (Table 4.14). -/
def toU (x : Word) : Word × BitVec 4 :=
  match fltOf x with
  | .nan _ => (0, flagBits true false false false)
  | .inf n => (if n then 0 else -1, flagBits true false false false)
  | .fin n m e =>
    let v := truncMag m e
    if n then (0, flagBits (m != 0) false false false)
    else (if v < 2 ^ 64 then (BitVec.ofNat 64 v, 0) else (-1, flagBits true false false false))

/-- The conversions of Table 4.14 by MOD. -/
def convert (m : Nat) (x : Word) : Word × BitVec 4 :=
  if m = 0 then toF (x.getLsbD 63) x.toInt.natAbs
  else if m = 1 then toF false x.toNat
  else if m = 2 then toI x
  else toU x

end Sys2Proof.Machine
end

