-- ==== Sys2Proof/Machine/Alu.lean ====
section
/-! DEFINITION. The scalar ALU and branch groups (R136 to R140). -/

namespace Sys2Proof.Machine

/-! Results of the scalar ALU (Table 4.6). -/

/-- High 64 bits of the signed product. -/
def mulhS (a b : Word) : Word := BitVec.ofInt 64 (a.toInt * b.toInt / 2 ^ 64)

/-- High 64 bits of the unsigned product. -/
def mulhU (a b : Word) : Word := BitVec.ofNat 64 (a.toNat * b.toNat / 2 ^ 64)

/-- Signed quotient toward zero, with the results of R137. -/
def divS (a b : Word) : Word := if b = 0 then -1 else BitVec.ofInt 64 (a.toInt.tdiv b.toInt)

/-- Unsigned quotient, with the results of R137. -/
def divU (a b : Word) : Word := if b = 0 then -1 else BitVec.ofNat 64 (a.toNat / b.toNat)

/-- Signed remainder with the sign of a, with the results of R137. -/
def remS (a b : Word) : Word := if b = 0 then a else BitVec.ofInt 64 (a.toInt.tmod b.toInt)

/-- Unsigned remainder, with the results of R137. -/
def remU (a b : Word) : Word := if b = 0 then a else BitVec.ofNat 64 (a.toNat % b.toNat)

/-- Shift right, arithmetic when `arith`. -/
def shiftR (arith : Bool) (a : Word) (n : Nat) : Word := if arith then a.sshiftRight n else a >>> n

/-- Bits set, from the top. -/
def popCount : List Bool → Nat
  | [] => 0
  | b :: bs => (if b then 1 else 0) + popCount bs

/-- The bits of a word, bit 0 first. -/
def wordBits (a : Word) : List Bool := (List.range 64).map fun n => a.getLsbD n

/-- Leading false values of a list. -/
def runZeros : List Bool → Nat
  | [] => 0
  | b :: bs => if b then 0 else 1 + runZeros bs

/-- The word whose bits are a list, bit 0 first. -/
def ofBits : List Bool → Nat
  | [] => 0
  | b :: bs => (if b then 1 else 0) + 2 * ofBits bs

/-- The functions of BIT by MOD: POPC, CLZ, CTZ, BSWAP, BREV. -/
def bitFn (m : Nat) (a : Word) : Word :=
  if m = 0 then BitVec.ofNat 64 (popCount (wordBits a))
  else if m = 1 then BitVec.ofNat 64 (runZeros (wordBits a).reverse)
  else if m = 2 then BitVec.ofNat 64 (runZeros (wordBits a))
  else if m = 3 then BitVec.ofNat 64 (leVal (wordBytes a).reverse)
  else BitVec.ofNat 64 (ofBits (wordBits a).reverse)

/-- MIN, MAX, MINU, MAXU by MOD. -/
def minMax (m : Nat) (a b : Word) : Word :=
  if m = 0 then (if a.slt b then a else b)
  else if m = 1 then (if a.slt b then b else a)
  else if m = 2 then (if a.ult b then a else b)
  else (if a.ult b then b else a)

/-- The conditions of Table 4.7 by MOD. -/
def condHolds (m : Nat) (a b : Word) : Bool :=
  if m = 0 then a == b
  else if m = 1 then a != b
  else if m = 2 then a.slt b
  else if m = 3 then !(a.slt b)
  else if m = 4 then a.ult b
  else !(a.ult b)

/-- A predicate value: all ones or zero. -/
def pmask (b : Bool) : BitVec 16 := if b then 0xFFFF else 0

/-- The operations of Table 4.8 by MOD. -/
def kop (m : Nat) (a b : BitVec 16) : BitVec 16 :=
  if m = 0 then a &&& b
  else if m = 1 then a ||| b
  else if m = 2 then a ^^^ b
  else if m = 3 then a &&& ~~~b
  else if m = 4 then ~~~a
  else if m = 5 then pmask (a != 0)
  else pmask (a == 0xFFFF)

/-- MOVI by MOD: sign-extended, zero-extended, or into the high half. -/
def moviFn (i : Ins) (d : Word) : Word :=
  if i.mod = 0 then i.simm
  else if i.mod = 1 then i.zimm
  else i.imm ++ d.extractLsb' 0 32

/-- ADD: g[d] := a + b (Table 4.6). -/
def execAdd (who : Who) (i : Ins) (s : State) : Ans :=
  .next (runReg who i { op := 0x00, mods := [0], dst := .g, srca := .g, srcb := .g, imm := 0 } 1 1 s fun c => c.setG i.dst.toNat (c.opA i + c.opB i))

/-- SUB: g[d] := a − b (Table 4.6). -/
def execSub (who : Who) (i : Ins) (s : State) : Ans :=
  .next (runReg who i { op := 0x01, mods := [0], dst := .g, srca := .g, srcb := .g, imm := 0 } 1 1 s fun c => c.setG i.dst.toNat (c.opA i - c.opB i))

/-- MUL: g[d] := low64(a × b) (Table 4.6). -/
def execMul (who : Who) (i : Ins) (s : State) : Ans :=
  .next (runReg who i { op := 0x02, mods := [0], dst := .g, srca := .g, srcb := .g, imm := 0 } 3 4 s fun c => c.setG i.dst.toNat (c.opA i * c.opB i))

/-- MULH: high 64 bits, signed or unsigned (Table 4.6). -/
def execMulh (who : Who) (i : Ins) (s : State) : Ans :=
  .next (runReg who i { op := 0x03, mods := [0, 1], dst := .g, srca := .g, srcb := .g, imm := 0 } 3 4 s fun c => c.setG i.dst.toNat (if i.mod = 0 then mulhS (c.opA i) (c.opB i) else mulhU (c.opA i) (c.opB i)))

/-- DIV: quotient toward zero (Table 4.6). -/
def execDiv (who : Who) (i : Ins) (s : State) : Ans :=
  .next (runReg who i { op := 0x04, mods := [0, 1], dst := .g, srca := .g, srcb := .g, imm := 0 } 36 66 s fun c => c.setG i.dst.toNat (if i.mod = 0 then divS (c.opA i) (c.opB i) else divU (c.opA i) (c.opB i)))

/-- REM: remainder (Table 4.6). -/
def execRem (who : Who) (i : Ins) (s : State) : Ans :=
  .next (runReg who i { op := 0x05, mods := [0, 1], dst := .g, srca := .g, srcb := .g, imm := 0 } 36 66 s fun c => c.setG i.dst.toNat (if i.mod = 0 then remS (c.opA i) (c.opB i) else remU (c.opA i) (c.opB i)))

/-- AND: g[d] := a & b (Table 4.6). -/
def execAnd (who : Who) (i : Ins) (s : State) : Ans :=
  .next (runReg who i { op := 0x06, mods := [0], dst := .g, srca := .g, srcb := .g, imm := 0 } 1 1 s fun c => c.setG i.dst.toNat (c.opA i &&& c.opB i))

/-- OR: g[d] := a or b, bitwise (Table 4.6). -/
def execOr (who : Who) (i : Ins) (s : State) : Ans :=
  .next (runReg who i { op := 0x07, mods := [0], dst := .g, srca := .g, srcb := .g, imm := 0 } 1 1 s fun c => c.setG i.dst.toNat (c.opA i ||| c.opB i))

/-- XOR: g[d] := a ^ b (Table 4.6). -/
def execXor (who : Who) (i : Ins) (s : State) : Ans :=
  .next (runReg who i { op := 0x08, mods := [0], dst := .g, srca := .g, srcb := .g, imm := 0 } 1 1 s fun c => c.setG i.dst.toNat (c.opA i ^^^ c.opB i))

/-- SHL: shift left by b[5:0] (Table 4.6). -/
def execShl (who : Who) (i : Ins) (s : State) : Ans :=
  .next (runReg who i { op := 0x09, mods := [0], dst := .g, srca := .g, srcb := .g, imm := 0 } 1 1 s fun c => c.setG i.dst.toNat (c.opA i <<< ((c.opB i).toNat % 64)))

/-- SHR: shift right by b[5:0], logical or arithmetic (Table 4.6). -/
def execShr (who : Who) (i : Ins) (s : State) : Ans :=
  .next (runReg who i { op := 0x0A, mods := [0, 1], dst := .g, srca := .g, srcb := .g, imm := 0 } 1 1 s fun c => c.setG i.dst.toNat (shiftR (i.mod == 1) (c.opA i) ((c.opB i).toNat % 64)))

/-- ROT: rotate right by b[5:0] (Table 4.6). -/
def execRot (who : Who) (i : Ins) (s : State) : Ans :=
  .next (runReg who i { op := 0x0B, mods := [0], dst := .g, srca := .g, srcb := .g, imm := 0 } 1 1 s fun c => c.setG i.dst.toNat ((c.opA i).rotateRight ((c.opB i).toNat % 64)))

/-- CMP: k[d] := condition of Table 4.7 (Table 4.6). -/
def execCmp (who : Who) (i : Ins) (s : State) : Ans :=
  .next (runReg who i { op := 0x0C, mods := [0, 1, 2, 3, 4, 5], dst := .k, srca := .g, srcb := .g, imm := 0 } 1 1 s fun c => c.setK i.dst.toNat (pmask (condHolds i.mod.toNat (c.opA i) (c.opB i))))

/-- SEL: g[d] := bit 0 of k[MOD] ? a : b (Table 4.6). -/
def execSel (who : Who) (i : Ins) (s : State) : Ans :=
  .next (runReg who i { op := 0x0D, mods := [0, 1, 2, 3, 4, 5, 6, 7], dst := .g, srca := .g, srcb := .g, imm := 0 } 1 1 s fun c => c.setG i.dst.toNat (if (c.getK i.mod.toNat).getLsbD 0 then c.opA i else c.opB i))

/-- BIT: counts or reorders bits (Table 4.6). -/
def execBit (who : Who) (i : Ins) (s : State) : Ans :=
  .next (runReg who i { op := 0x0E, mods := [0, 1, 2, 3, 4], dst := .g, srca := .g, srcb := .unused, imm := 0 } 1 1 s fun c => c.setG i.dst.toNat (bitFn i.mod.toNat (c.opA i)))

/-- MINMAX: minimum or maximum (Table 4.6). -/
def execMinmax (who : Who) (i : Ins) (s : State) : Ans :=
  .next (runReg who i { op := 0x0F, mods := [0, 1, 2, 3], dst := .g, srca := .g, srcb := .g, imm := 0 } 1 1 s fun c => c.setG i.dst.toNat (minMax i.mod.toNat (c.opA i) (c.opB i)))

/-- ADDI: g[d] := a + i (Table 4.6). -/
def execAddi (who : Who) (i : Ins) (s : State) : Ans :=
  .next (runReg who i { op := 0x10, mods := [0], dst := .g, srca := .g, srcb := .unused, imm := 0xFFFFFFFF } 1 1 s fun c => c.setG i.dst.toNat (c.opA i + i.simm))

/-- MULI: g[d] := low64(a × i) (Table 4.6). -/
def execMuli (who : Who) (i : Ins) (s : State) : Ans :=
  .next (runReg who i { op := 0x12, mods := [0], dst := .g, srca := .g, srcb := .unused, imm := 0xFFFFFFFF } 3 4 s fun c => c.setG i.dst.toNat (c.opA i * i.simm))

/-- ANDI: g[d] := a & i (Table 4.6). -/
def execAndi (who : Who) (i : Ins) (s : State) : Ans :=
  .next (runReg who i { op := 0x16, mods := [0], dst := .g, srca := .g, srcb := .unused, imm := 0xFFFFFFFF } 1 1 s fun c => c.setG i.dst.toNat (c.opA i &&& i.simm))

/-- ORI: g[d] := a or i, bitwise (Table 4.6). -/
def execOri (who : Who) (i : Ins) (s : State) : Ans :=
  .next (runReg who i { op := 0x17, mods := [0], dst := .g, srca := .g, srcb := .unused, imm := 0xFFFFFFFF } 1 1 s fun c => c.setG i.dst.toNat (c.opA i ||| i.simm))

/-- XORI: g[d] := a ^ i (Table 4.6). -/
def execXori (who : Who) (i : Ins) (s : State) : Ans :=
  .next (runReg who i { op := 0x18, mods := [0], dst := .g, srca := .g, srcb := .unused, imm := 0xFFFFFFFF } 1 1 s fun c => c.setG i.dst.toNat (c.opA i ^^^ i.simm))

/-- SHLI: shift left by IMM[5:0] (Table 4.6). -/
def execShli (who : Who) (i : Ins) (s : State) : Ans :=
  .next (runReg who i { op := 0x19, mods := [0], dst := .g, srca := .g, srcb := .unused, imm := 0x3F } 1 1 s fun c => c.setG i.dst.toNat (c.opA i <<< (i.imm.toNat % 64)))

/-- SHRI: shift right by IMM[5:0], logical or arithmetic (Table 4.6). -/
def execShri (who : Who) (i : Ins) (s : State) : Ans :=
  .next (runReg who i { op := 0x1A, mods := [0, 1], dst := .g, srca := .g, srcb := .unused, imm := 0x3F } 1 1 s fun c => c.setG i.dst.toNat (shiftR (i.mod == 1) (c.opA i) (i.imm.toNat % 64)))

/-- ROTI: rotate right by IMM[5:0] (Table 4.6). -/
def execRoti (who : Who) (i : Ins) (s : State) : Ans :=
  .next (runReg who i { op := 0x1B, mods := [0], dst := .g, srca := .g, srcb := .unused, imm := 0x3F } 1 1 s fun c => c.setG i.dst.toNat ((c.opA i).rotateRight (i.imm.toNat % 64)))

/-- CMPI: k[d] := condition of Table 4.7 against i (Table 4.6). -/
def execCmpi (who : Who) (i : Ins) (s : State) : Ans :=
  .next (runReg who i { op := 0x1C, mods := [0, 1, 2, 3, 4, 5], dst := .k, srca := .g, srcb := .unused, imm := 0xFFFFFFFF } 1 1 s fun c => c.setK i.dst.toNat (pmask (condHolds i.mod.toNat (c.opA i) i.simm)))

/-- The row of KMOV: .TOG reads a k register, .TOK writes one. -/
def rowKmov (i : Ins) : Row :=
  if i.mod = 1 then { op := 0x1D, mods := [0, 1], dst := .k, srca := .g, srcb := .unused }
  else { op := 0x1D, mods := [0, 1], dst := .g, srca := .k, srcb := .unused }

/-- KMOV: moves between a k and a g register (Table 4.6). -/
def execKmov (who : Who) (i : Ins) (s : State) : Ans :=
  .next (runReg who i (rowKmov i) 1 1 s fun c => 
    if i.mod = 1 then c.setK i.dst.toNat ((c.opA i).truncate 16)
    else c.setG i.dst.toNat ((c.getK i.srca.toNat).zeroExtend 64))

/-- MOVI: loads the immediate (Table 4.6). -/
def execMovi (who : Who) (i : Ins) (s : State) : Ans :=
  .next (runReg who i { op := 0x1E, mods := [0, 1, 2], dst := .g, srca := .unused, srcb := .unused, imm := 0xFFFFFFFF } 1 1 s fun c => c.setG i.dst.toNat (moviFn i (c.opD i)))

/-- The row of KOP: .NOT, .ANY and .ALL do not use SRCB. -/
def rowKop (i : Ins) : Row :=
  { op := 0x1F, mods := [0, 1, 2, 3, 4, 5, 6], dst := .k, srca := .k, srcb := if i.mod.toNat < 4 then .k else .unused }

/-- KOP: combines predicate registers (Table 4.8) (Table 4.6). -/
def execKop (who : Who) (i : Ins) (s : State) : Ans :=
  .next (runReg who i (rowKop i) 1 1 s fun c => c.setK i.dst.toNat (kop i.mod.toNat (c.getK i.srca.toNat) (c.getK i.srcb.toNat)))

/-! Branches (Table 4.9). -/

/-- pc + 8 × i. -/
def relTarget (c : Core) (i : Ins) : Word := c.pc + 8 * i.simm

/-- BR: t := pc + 8 × i. -/
def execBr (who : Who) (i : Ins) (s : State) : Ans :=
  .next (runIns who i { op := 0x20, dst := .unused, srca := .unused, srcb := .unused, imm := 0xFFFFFFFF } none s fun s c =>
    setCore s who (c.retireTo (relTarget c i) (who.cost 3 2)))

/-- JAL: g[d] := pc + 8; t := pc + 8 × i. -/
def execJal (who : Who) (i : Ins) (s : State) : Ans :=
  .next (runIns who i { op := 0x21, srca := .unused, srcb := .unused, imm := 0xFFFFFFFF } none s fun s c =>
    setCore s who ((c.setG i.dst.toNat (c.pc + 8)).retireTo (relTarget c i) (who.cost 3 2)))

/-- JR: t := a + i. -/
def execJr (who : Who) (i : Ins) (s : State) : Ans :=
  .next (runIns who i { op := 0x22, dst := .unused, srcb := .unused, imm := 0xFFFFFFFF } none s fun s c =>
    setCore s who (c.retireTo (c.opA i + i.simm) (who.cost 4 3)))

/-- JRL: g[d] := pc + 8; t := old a + i. -/
def execJrl (who : Who) (i : Ins) (s : State) : Ans :=
  .next (runIns who i { op := 0x23, srcb := .unused, imm := 0xFFFFFFFF } none s fun s c =>
    setCore s who ((c.setG i.dst.toNat (c.pc + 8)).retireTo (c.opA i + i.simm) (who.cost 4 3)))

/-- LOOP: g[d] := g[d] − 1; taken while the result, as g[d] then reads, is not zero. -/
def execLoop (who : Who) (i : Ins) (s : State) : Ans :=
  .next (runIns who i { op := 0x24, srca := .unused, srcb := .unused, imm := 0xFFFFFFFF } none s fun s c =>
    let d := c.setG i.dst.toNat (c.opD i - 1)
    if d.getG i.dst.toNat ≠ 0 then setCore s who (d.retireTo (relTarget c i) (who.cost 3 2))
    else setCore s who (d.retire 1))

end Sys2Proof.Machine
end

