-- ==== Sys2Proof/Machine/ScalarMem.lean ====
section
/-! DEFINITION. The scalar memory group and the system group (R141, R142, R148, R149). -/

namespace Sys2Proof.Machine

/-- Access size of MOD[1:0] (R141). -/
def sizeOfMod (i : Ins) : Nat := 2 ^ (i.mod.toNat % 4)

/-- The loaded value extended by MOD[2] (R141). -/
def extend (i : Ins) (bs : List Byte) : Word :=
  let n := 8 * bs.length
  let v := leVal bs
  if 4 ≤ i.mod.toNat ∧ 2 ^ (n - 1) ≤ v then BitVec.ofNat 64 (2 ^ 64 - 2 ^ n + v) else BitVec.ofNat 64 v

/-- A load into g[d] from an address. -/
def loadTo (who : Who) (i : Ins) (s : State) (c : Core) (addr : Word) : State :=
  match loadMem s who addr (sizeOfMod i) 0 with
  | .error e => raiseExc s who c.pc e
  | .ok (bs, l) =>
    let s := correctLoc s who l
    let (cost, s) := accessCost s who l 2 16 3
    match coreOf s who with
    | none => s
    | some c => setCore s who ((c.setG i.dst.toNat (extend i bs)).retire cost)

/-- A store of the low bytes of a value at an address. -/
def storeFrom (who : Who) (i : Ins) (s : State) (c : Core) (addr v : Word) : State :=
  match storePlace s who addr (sizeOfMod i) 0 with
  | .error e => raiseExc s who c.pc e
  | .ok l =>
    let s := correctLoc s who l
    let s := writeLoc s who ((wordBytes v).take (sizeOfMod i)) l
    let (cost, s) := accessCost s who l 2 16 3
    match coreOf s who with
    | none => s
    | some c => setCore s who (c.retire cost)

/-- LD: g[d] := ext(mem(a + i)). -/
def execLd (who : Who) (i : Ins) (s : State) : Ans :=
  .next (runIns who i { op := 0x30, mods := [0, 1, 2, 3, 4, 5, 6], srcb := .unused, imm := 0xFFFFFFFF } none s fun s c =>
    loadTo who i s c (c.opA i + i.simm))

/-- ST: mem(a + i) := low(b). -/
def execSt (who : Who) (i : Ins) (s : State) : Ans :=
  .next (runIns who i { op := 0x31, mods := [0, 1, 2, 3], dst := .unused, imm := 0xFFFFFFFF } none s fun s c =>
    storeFrom who i s c (c.opA i + i.simm) (c.opB i))

/-- The address of LDX and STX: a + b × s + i. -/
def indexed (c : Core) (i : Ins) : Word := c.opA i + c.opB i * BitVec.ofNat 64 (sizeOfMod i) + i.simm

/-- LDX: g[d] := ext(mem(a + b × s + i)). -/
def execLdx (who : Who) (i : Ins) (s : State) : Ans :=
  .next (runIns who i { op := 0x32, mods := [0, 1, 2, 3, 4, 5, 6], imm := 0xFFFFFFFF } none s fun s c =>
    loadTo who i s c (indexed c i))

/-- STX: mem(a + b × s + i) := low(g[d]). -/
def execStx (who : Who) (i : Ins) (s : State) : Ans :=
  .next (runIns who i { op := 0x33, mods := [0, 1, 2, 3], imm := 0xFFFFFFFF } none s fun s c =>
    storeFrom who i s c (indexed c i) (c.opD i))

/-- The operations of Table 4.11 by MOD. -/
def amoFn (m : Nat) (old b : Word) : Word :=
  if m = 0 then old + b
  else if m = 1 then old &&& b
  else if m = 2 then old ||| b
  else if m = 3 then old ^^^ b
  else if m = 4 then b
  else minMax (m - 5) old b

/-- A read-modify-write of 8 bytes: `f` gives the word written, none for no write; g[d] := old (R142). The place is checked as that of a store also where CAS then writes nothing, which is the model's choice (log 165). -/
def rmw (who : Who) (i : Ins) (s : State) (c : Core) (addr : Word) (f : Word → Option Word) : State :=
  match locate s who addr 8 0 true with
  | .error e => raiseExc s who c.pc e
  | .ok l =>
    if locBad s who l then raiseExc s who c.pc { code := xMemUnc, info := addr }
    else
      let old := BitVec.ofNat 64 (leVal (readLoc s who 8 l))
      let s := correctLoc s who l
      let s := match f old with
        | none => s
        | some v => writeLoc s who (wordBytes v) l
      let (cost, s) := accessCost s who l 3 20 4
      match coreOf s who with
      | none => s
      | some c => setCore s who ((c.setG i.dst.toNat old).retire cost)

/-- AMO: old := mem64(a + i); mem64(a + i) := f(old, b); g[d] := old. -/
def execAmo (who : Who) (i : Ins) (s : State) : Ans :=
  .next (runIns who i { op := 0x34, mods := [0, 1, 2, 3, 4, 5, 6, 7, 8], imm := 0xFFFFFFFF } none s fun s c =>
    rmw who i s c (c.opA i + i.simm) fun old => some (amoFn i.mod.toNat old (c.opB i)))

/-- CAS: writes b where the word equals g[d]; g[d] := old. -/
def execCas (who : Who) (i : Ins) (s : State) : Ans :=
  .next (runIns who i { op := 0x35, imm := 0xFFFFFFFF } none s fun s c =>
    rmw who i s c (c.opA i + i.simm) fun old => if old = c.opD i then some (c.opB i) else none)

/-! Special registers (Table 4.19). -/

/-- The value of a special register of a context. -/
def srCtx (n : Nat) (x : Ctx) (num : Nat) : Option Word :=
  if num = 0 then some x.core.pc
  else if num = 1 then some (BitVec.ofNat 64 n)
  else if num = 2 then some (BitVec.ofNat 64 x.unitNo)
  else if num = 3 then some x.core.cycle
  else if num = 4 then some x.core.instret
  else if num = 5 then some (x.core.fpflags.zeroExtend 64)
  else if num = 6 then some (BitVec.ofNat 64 x.portal)
  else if num = 7 then some (BitVec.ofNat 64 x.island)
  else if num = 8 then some (BitVec.ofNat 64 (x.ring.getD 0))
  else if num = 9 then some (BitVec.ofNat 64 (x.granule * 0x10000))
  else if num = 10 then some (BitVec.ofNat 64 (x.bwin * 0x10000))
  else if num = 11 then some 0
  else none

/-- The value of a special register of an agent. -/
def srAgent (a : Agent) (num : Nat) : Option Word :=
  if num = 0 then some a.core.pc
  else if num = 1 then some 0
  else if num = 3 then some a.core.cycle
  else if num = 4 then some a.core.instret
  else if num = 11 then some 1
  else if num = 12 then some (a.addr.zeroExtend 64)
  else none

/-- The value of a special register, none where the number is unknown or absent in the profile (R148). -/
def specialOf (s : State) (who : Who) (num : Nat) : Option Word :=
  match who with
  | .ctx n => (s.eng.ctxs.get n).bind fun x => srCtx n x num
  | .agent id => (s.agents.get id).bind fun a => srAgent a num

/-- SRD: g[d] := special[IMM[11:0]]. -/
def execSrd (who : Who) (i : Ins) (s : State) : Ans :=
  let num := i.imm.toNat % 4096
  .next (runIns who i { op := 0xF0, srca := .unused, srcb := .unused, imm := 0xFFF }
    (if (specialOf s who num).isSome then none else some num) s fun s c =>
      setCore s who ((c.setG i.dst.toNat ((specialOf s who num).getD 0)).retire 2))

/-- SWR: special[IMM[11:0]] := a; only fpflags is writable, on a hewer (R149). -/
def execSwr (who : Who) (i : Ins) (s : State) : Ans :=
  let num := i.imm.toNat % 4096
  .next (runIns who i { op := 0xF1, dst := .unused, srcb := .unused, imm := 0xFFF }
    (if num = 5 ∧ !who.isAgent then none else some num) s fun s c =>
      setCore s who ({ c with fpflags := (c.opA i).truncate 4 }.retire 2))

/-- TRAP: raises TRAP with IMM as its information. -/
def execTrap (who : Who) (i : Ins) (s : State) : Ans :=
  .next (runIns who i { op := 0xF2, dst := .unused, srca := .unused, srcb := .unused, imm := 0xFFFFFFFF } none s fun s c =>
    raiseExc s who c.pc { code := xTrap, info := i.zimm })

end Sys2Proof.Machine
end

