-- ==== Sys2Proof/Machine/Vector.lean ====
section
/-! DEFINITION. The vector group (R143 to R147). -/

namespace Sys2Proof.Machine

/-- Lanes 0 to 15. -/
def lanes : List Nat := List.range 16

/-- The active lanes of an instruction, ascending (R125). -/
def Core.active (c : Core) (i : Ins) : List Nat := lanes.filter fun n => (c.mask i).getLsbD n

/-- Lane n of v[SRCA]. -/
def Core.laneA (c : Core) (i : Ins) (n : Nat) : Word := c.getV i.srca.toNat n

/-- Lane n of v[SRCB]. -/
def Core.laneB (c : Core) (i : Ins) (n : Nat) : Word := c.getV i.srcb.toNat n

/-- Lane n of v[DST]. -/
def Core.laneD (c : Core) (i : Ins) (n : Nat) : Word := c.getV i.dst.toNat n

/-- Writes each active lane of v[DST] from the core as it was. -/
def Core.mapLanes (c : Core) (i : Ins) (f : Nat → Word) : Core :=
  (c.active i).foldl (fun d n => d.setV i.dst.toNat n (f n)) c

/-- As mapLanes, each lane's flags ORed into fpflags (R144). -/
def Core.mapFlt (c : Core) (i : Ins) (f : Nat → Word × BitVec 4) : Core :=
  (c.active i).foldl (fun d n => { d.setV i.dst.toNat n (f n).1 with fpflags := d.fpflags ||| (f n).2 }) c

/-- A vector row of three v registers. -/
def rowV (op : Nat) (mods : List Nat) : Row := { op := op, mods := mods, dst := .v, srca := .v, srcb := .v, profile := false }

/-- VADD: d := a + b per active lane (Table 4.12). -/
def execVadd (who : Who) (i : Ins) (s : State) : Ans :=
  .next (runReg who i (rowV 0x40 [0, 1]) (if i.mod = 0 then 2 else 5) 0 s fun c => 
    if i.mod = 0 then c.mapLanes i fun n => c.laneA i n + c.laneB i n
    else c.mapFlt i fun n => fAdd (c.laneA i n) (c.laneB i n))

/-- VSUB: d := a − b per active lane (Table 4.12). -/
def execVsub (who : Who) (i : Ins) (s : State) : Ans :=
  .next (runReg who i (rowV 0x41 [0, 1]) (if i.mod = 0 then 2 else 5) 0 s fun c => 
    if i.mod = 0 then c.mapLanes i fun n => c.laneA i n - c.laneB i n
    else c.mapFlt i fun n => fSub (c.laneA i n) (c.laneB i n))

/-- VMUL: d := a × b per active lane (Table 4.12). -/
def execVmul (who : Who) (i : Ins) (s : State) : Ans :=
  .next (runReg who i (rowV 0x42 [0, 1]) (if i.mod = 0 then 4 else 5) 0 s fun c => 
    if i.mod = 0 then c.mapLanes i fun n => c.laneA i n * c.laneB i n
    else c.mapFlt i fun n => fMul (c.laneA i n) (c.laneB i n))

/-- VFMA: d := d + a × b with one rounding (Table 4.12). -/
def execVfma (who : Who) (i : Ins) (s : State) : Ans :=
  .next (runReg who i (rowV 0x43 [0]) (5) 0 s fun c => c.mapFlt i fun n => fFma (c.laneD i n) (c.laneA i n) (c.laneB i n))

/-- VAND: bitwise per active lane (Table 4.12). -/
def execVand (who : Who) (i : Ins) (s : State) : Ans :=
  .next (runReg who i (rowV 0x44 [0]) (2) 0 s fun c => c.mapLanes i fun n => c.laneA i n &&& c.laneB i n)

/-- VOR: bitwise per active lane (Table 4.12). -/
def execVor (who : Who) (i : Ins) (s : State) : Ans :=
  .next (runReg who i (rowV 0x45 [0]) (2) 0 s fun c => c.mapLanes i fun n => c.laneA i n ||| c.laneB i n)

/-- VXOR: bitwise per active lane (Table 4.12). -/
def execVxor (who : Who) (i : Ins) (s : State) : Ans :=
  .next (runReg who i (rowV 0x46 [0]) (2) 0 s fun c => c.mapLanes i fun n => c.laneA i n ^^^ c.laneB i n)

/-- VSHL: shifts left by b[5:0] (Table 4.12). -/
def execVshl (who : Who) (i : Ins) (s : State) : Ans :=
  .next (runReg who i (rowV 0x47 [0]) (2) 0 s fun c => c.mapLanes i fun n => c.laneA i n <<< ((c.laneB i n).toNat % 64))

/-- VSHR: shifts right by b[5:0], logical or arithmetic (Table 4.12). -/
def execVshr (who : Who) (i : Ins) (s : State) : Ans :=
  .next (runReg who i (rowV 0x48 [0, 1]) (2) 0 s fun c => c.mapLanes i fun n => shiftR (i.mod == 1) (c.laneA i n) ((c.laneB i n).toNat % 64))

/-- VMINMAX: minimum or maximum per active lane (Table 4.12). -/
def execVminmax (who : Who) (i : Ins) (s : State) : Ans :=
  .next (runReg who i (rowV 0x49 [0, 1, 2, 3, 4, 5]) (2) 0 s fun c => 
    if i.mod.toNat < 4 then c.mapLanes i fun n => minMax i.mod.toNat (c.laneA i n) (c.laneB i n)
    else c.mapFlt i fun n => fMinMax (i.mod == 5) (c.laneA i n) (c.laneB i n))

/-- The conditions of Table 4.13 by MOD, with flags. -/
def vCond (m : Nat) (x y : Word) : Bool × BitVec 4 := if m < 6 then (condHolds m x y, 0) else fCond m x y

/-- VCMP: bit n of k[d] := active and condition; inactive bits clear (R145). -/
def execVcmp (who : Who) (i : Ins) (s : State) : Ans :=
  .next (runReg who i { op := 0x4A, mods := [0, 1, 2, 3, 4, 5, 8, 9, 10, 11], dst := .k, srca := .v, srcb := .v, profile := false } 2 0 s fun c =>
    let rs := (c.active i).map fun n => (n, vCond i.mod.toNat (c.laneA i n) (c.laneB i n))
    let k := rs.foldl (fun acc r => if r.2.1 then acc ||| BitVec.ofNat 16 (2 ^ r.1) else acc) 0
    { c.setK i.dst.toNat k with fpflags := rs.foldl (fun acc r => acc ||| r.2.2) c.fpflags })

/-- VSEL: bit n of k[MOD] ? a : b per active lane (Table 4.12). -/
def execVsel (who : Who) (i : Ins) (s : State) : Ans :=
  .next (runReg who i (rowV 0x4B [0, 1, 2, 3, 4, 5, 6, 7]) (2) 0 s fun c => c.mapLanes i fun n => if (c.getK i.mod.toNat).getLsbD n then c.laneA i n else c.laneB i n)

/-- VBCAST: d := g[SRCA] in each active lane. -/
def execVbcast (who : Who) (i : Ins) (s : State) : Ans :=
  .next (runReg who i { op := 0x4C, dst := .v, srca := .g, srcb := .unused, profile := false } 2 0 s fun c =>
    c.mapLanes i fun _ => c.opA i)

/-- VEXT: g[d] := lane IMM[3:0] of a. -/
def execVext (who : Who) (i : Ins) (s : State) : Ans :=
  .next (runReg who i { op := 0x4D, dst := .g, srca := .v, srcb := .unused, imm := 0xF, profile := false } 2 0 s fun c =>
    c.setG i.dst.toNat (c.laneA i (i.imm.toNat % 16)))

/-- VINS: lane IMM[3:0] of d := g[SRCA]. -/
def execVins (who : Who) (i : Ins) (s : State) : Ans :=
  .next (runReg who i { op := 0x4E, dst := .v, srca := .g, srcb := .unused, imm := 0xF, profile := false } 2 0 s fun c =>
    c.setV i.dst.toNat (i.imm.toNat % 16) (c.opA i))

/-- VCVT: the conversions of Table 4.14. -/
def execVcvt (who : Who) (i : Ins) (s : State) : Ans :=
  .next (runReg who i { op := 0x4F, mods := [0, 1, 2, 3], dst := .v, srca := .v, srcb := .unused, profile := false } 4 0 s fun c =>
    c.mapFlt i fun n => convert i.mod.toNat (c.laneA i n))

/-! Vector memory (R135, R147). -/

/-- The condition that the instruction raises among those of its lanes: the highest in order, then the lowest lane (R135). -/
def worstExc : List Exc → Option Exc
  | [] => none
  | e :: es =>
    match worstExc es with
    | none => some e
    | some f => if f.code < e.code then some f else some e

/-- The condition of one lane's access, if any. -/
def laneExc (s : State) (who : Who) (store : Bool) (addr : Word) (n : Nat) : Option Exc :=
  match locate s who addr 8 n store with
  | .error e => some e
  | .ok l => if !store && locBad s who l then some { code := xMemUnc, info := addr, lane := n } else none

/-- Cycles that lanes add by naming a bank that a lower lane uses (R131). -/
def bankClashes : List Loc → Nat
  | [] => 0
  | l :: ls => bankClashes ls + (match l with
    | .own _ => 0
    | .bench _ a => if ls.any (fun m => match m with
        | .own _ => false
        | .bench _ b => a / 8 % 32 == b / 8 % 32) then 1 else 0)

/-- The places of the active lanes. -/
def lanePlaces (s : State) (who : Who) (as : List (Nat × Word)) (store : Bool) : List Loc :=
  as.filterMap fun p => match locate s who p.2 8 p.1 store with
    | .error _ => none
    | .ok l => some l

/-- Cycles of a vector access: scratch, or bench with the largest bank wait; an access whose lanes span both is charged as bench, which is the model's choice (log 163). -/
def vecCost (s : State) (ls : List Loc) (scratch bench : Nat) : Nat × State :=
  if ls.any Loc.isBench then ((drawWait s).1 + bench, (drawWait s).2) else (scratch, s)

/-- Loads the lanes at their addresses into v[DST], all checked first. -/
def vecLoad (who : Who) (i : Ins) (s : State) (c : Core) (as : List (Nat × Word)) (scratch bench : Nat) : State :=
  match worstExc (as.filterMap fun p => laneExc s who false p.2 p.1) with
  | some e => raiseExc s who c.pc e
  | none =>
    let ls := lanePlaces s who as false
    let vals := as.map fun p => (p.1, match loadMem s who p.2 8 p.1 with
      | .error _ => 0
      | .ok (bs, _) => BitVec.ofNat 64 (leVal bs))
    let s := ls.foldl (fun t l => correctLoc t who l) s
    let (cost, s) := vecCost s ls scratch bench
    match coreOf s who with
    | none => s
    | some c => setCore s who ((vals.foldl (fun d p => d.setV i.dst.toNat p.1 p.2) c).retire cost)

/-- Stores the lanes of v[DST] at their addresses in ascending lane order, all checked first. -/
def vecStore (who : Who) (i : Ins) (s : State) (c : Core) (as : List (Nat × Word)) (scratch bench : Nat) : State :=
  match worstExc (as.filterMap fun p => laneExc s who true p.2 p.1) with
  | some e => raiseExc s who c.pc e
  | none =>
    let ls := lanePlaces s who as true
    let s := as.foldl (fun t p => match locate t who p.2 8 p.1 true with
      | .error _ => t
      | .ok l => writeLoc (correctLoc t who l) who (wordBytes (c.laneD i p.1)) l) s
    let (cost, s) := vecCost s ls scratch bench
    match coreOf s who with
    | none => s
    | some c => setCore s who (c.retire cost)

/-- Consecutive lane addresses: g[SRCA] + i + 8 × lane. -/
def seqAddrs (c : Core) (i : Ins) : List (Nat × Word) :=
  (c.active i).map fun n => (n, c.opA i + i.simm + BitVec.ofNat 64 (8 * n))

/-- Gathered lane addresses: g[SRCA] + i + b per lane. -/
def offAddrs (c : Core) (i : Ins) : List (Nat × Word) :=
  (c.active i).map fun n => (n, c.opA i + i.simm + c.laneB i n)

/-- VLD: consecutive words into the active lanes. -/
def execVld (who : Who) (i : Ins) (s : State) : Ans :=
  .next (runIns who i { op := 0x50, dst := .v, srca := .g, srcb := .unused, imm := 0xFFFFFFFF, profile := false } none s fun s c =>
    vecLoad who i s c (seqAddrs c i) 4 24)

/-- VST: the active lanes to consecutive words. -/
def execVst (who : Who) (i : Ins) (s : State) : Ans :=
  .next (runIns who i { op := 0x51, dst := .v, srca := .g, srcb := .unused, imm := 0xFFFFFFFF, profile := false } none s fun s c =>
    vecStore who i s c (seqAddrs c i) 4 24)

/-- VGATHER: words at per-lane offsets into the active lanes. -/
def execVgather (who : Who) (i : Ins) (s : State) : Ans :=
  .next (runIns who i { op := 0x52, dst := .v, srca := .g, srcb := .v, imm := 0xFFFFFFFF, profile := false } none s fun s c =>
    vecLoad who i s c (offAddrs c i) 18
      (16 + 2 * (c.active i).length + bankClashes (lanePlaces s who (offAddrs c i) false)))

/-- VSCATTER: the active lanes to words at per-lane offsets. -/
def execVscatter (who : Who) (i : Ins) (s : State) : Ans :=
  .next (runIns who i { op := 0x53, dst := .v, srca := .g, srcb := .v, imm := 0xFFFFFFFF, profile := false } none s fun s c =>
    vecStore who i s c (offAddrs c i) 18
      (16 + 2 * (c.active i).length + bankClashes (lanePlaces s who (offAddrs c i) true)))

/-- Integer reductions of Table 4.15: one step. -/
def redStep (m : Nat) (x y : Word) : Word :=
  if m = 0 then x + y
  else if m = 1 then x &&& y
  else if m = 2 then x ||| y
  else if m = 3 then x ^^^ y
  else minMax (m - 4) x y

/-- Floating reductions of Table 4.15: one step. -/
def redFlt (m : Nat) (x y : Word) : Word × BitVec 4 :=
  if m = 8 then fAdd x y else fMinMax (m == 10) x y

/-- Identities of Table 4.15. -/
def redId (m : Nat) : Word :=
  if m = 1 then -1
  else if m = 4 then 0x7FFFFFFFFFFFFFFF
  else if m = 5 then 0x8000000000000000
  else if m = 6 then -1
  else if m = 9 then fInf false
  else if m = 10 then fInf true
  else 0

/-- A NaN result is the canonical one (R144). -/
def canonNan (x : Word) : Word := if (fltOf x).isNan then fNan else x

/-- The reduction of the active lanes in ascending order, from the lowest one on (R146; log 12). -/
def reduce (m : Nat) : List Word → Word × BitVec 4
  | [] => (redId m, 0)
  | x :: xs =>
    if m < 8 then (xs.foldl (redStep m) x, 0)
    else
      let r := xs.foldl (fun acc y => ((redFlt m acc.1 y).1, acc.2 ||| (redFlt m acc.1 y).2)) (x, 0)
      (canonNan r.1, r.2)

/-- VRED: g[d] := reduction of the active lanes. -/
def execVred (who : Who) (i : Ins) (s : State) : Ans :=
  .next (runReg who i { op := 0x54, mods := [0, 1, 2, 3, 4, 5, 6, 7, 8, 9, 10], dst := .g, srca := .v, srcb := .unused, profile := false }
    (if i.mod = 8 then 20 else 6) 0 s fun c =>
      let r := reduce i.mod.toNat ((c.active i).map fun n => c.laneA i n)
      { c.setG i.dst.toNat r.1 with fpflags := c.fpflags ||| r.2 })

/-- VPERM: d := lane b[3:0] of a per active lane (Table 4.12). -/
def execVperm (who : Who) (i : Ins) (s : State) : Ans :=
  .next (runReg who i (rowV 0x55 [0]) (3) 0 s fun c => c.mapLanes i fun n => c.laneA i ((c.laneB i n).toNat % 16))

/-- VIOTA: d := g[SRCA] + i × lane per active lane. -/
def execViota (who : Who) (i : Ins) (s : State) : Ans :=
  .next (runReg who i { op := 0x56, dst := .v, srca := .g, srcb := .unused, imm := 0xFFFFFFFF, profile := false } 2 0 s fun c =>
    c.mapLanes i fun n => c.opA i + i.simm * BitVec.ofNat 64 n)

/-- VCOMPRESS: the active lanes go to the low lanes, the others of d become 0. -/
def execVcompress (who : Who) (i : Ins) (s : State) : Ans :=
  .next (runReg who i { op := 0x57, dst := .v, srca := .v, srcb := .unused, profile := false } 3 0 s fun c =>
    let xs := (c.active i).map fun n => c.laneA i n
    lanes.foldl (fun d n => d.setV i.dst.toNat n (xs.getD n 0)) c)

end Sys2Proof.Machine
end

