-- ==== Sys2Proof/Machine/Graph.lean ====
section
/-! DEFINITION. The graph group (R165 to R167). -/

namespace Sys2Proof.Machine

/-- Cycles of table lines that miss the table cache, 400 each: all of them while the cache is bypassed, else a free number of the lines read (Table 5.4's term c, Table 11.7; log 9). -/
def missCost (s : State) (lines : Nat) : Nat × State :=
  if s.power.cacheBypass then (400 * lines, s)
  else (400 * (s.draw.1.toNat % (lines + 1)), s.draw.2)

/-- Completes an instruction of the hewer whose cost has a cache term. -/
def doneCached (who : Who) (s : State) (cost lines : Nat) (f : Core → Core) : State :=
  let (m, s) := missCost s lines
  match coreOf s who with
  | none => s
  | some c => setCore s who ((f c).retire (cost + m))

/-- The endpoint address that a link id, port id or vertex names, or ADDRESS (R165, Table 5.4). -/
def vertexOf (s : State) (a : FAddr) : Except Exc FAddr :=
  if s.valid a && addrKind a == 0 then .ok a else .error { code := xAddress, info := a.zeroExtend 64 }

/-- The endpoint that a register names, its bits above [27:0] zero, or ADDRESS. -/
def vertexW (s : State) (w : Word) : Except Exc FAddr :=
  if fld w 63 28 = 0 then vertexOf s (w.truncate 28) else .error { code := xAddress, info := w }

/-- GLINK: g[d] := link record of link id a, or port record of port id a. -/
def execGlink (who : Who) (i : Ins) (s : State) : Ans :=
  .next (runIns who i { op := 0x60, mods := [0, 1], srcb := .unused, profile := false } none s fun s c =>
    let id := fld (c.opA i) 31 0
    match vertexOf s (BitVec.ofNat 28 (id / 16)) with
    | .error e => raiseExc s who c.pc e
    | .ok a => doneCached who s 8 1 fun c =>
        c.setG i.dst.toNat (if i.mod = 0 then linkRecord s a (id % 16) else portRecord s a (id % 16)))

/-- GNBR: the link records or port records of vertex a into v[d]. -/
def execGnbr (who : Who) (i : Ins) (s : State) : Ans :=
  .next (runIns who i { op := 0x61, mods := [0, 1], dst := .v, srcb := .unused, profile := false } none s fun s c =>
    match vertexW s (c.opA i) with
    | .error e => raiseExc s who c.pc e
    | .ok a => doneCached who s 12 16 fun c =>
        c.mapLanes i fun n => if i.mod = 0 then linkRecord s a n else if n < 8 then portRecord s a n else 0)

/-- The fields of GCOORD.DIST for dimension k (Table 5.5). -/
def distField (n a b : Nat) : Nat :=
  distUp n a b + distDown n a b * 2 ^ 8 + (if goesDown n a b then 2 ^ 15 else 0)

/-- GCOORD: .NBR the neighbour of endpoint a in direction b; .DIST the distances from a to b. -/
def execGcoord (who : Who) (i : Ins) (s : State) : Ans :=
  .next (runIns who i { op := 0x62, mods := [0, 1], profile := false } none s fun s c =>
    match vertexW s (c.opA i) with
    | .error e => raiseExc s who c.pc e
    | .ok a =>
      if i.mod = 0 then
        let dir := (c.opB i).toNat % 8
        let k := 3 - dir / 2
        setCore s who ((c.setG i.dst.toNat
          ((withCoord a k (stepCoord (s.dim k) (coordOf a k) (dir % 2 == 1))).zeroExtend 64)).retire 2)
      else match vertexW s (c.opB i) with
        | .error e => raiseExc s who c.pc e
        | .ok b =>
          let f (k : Nat) : Word := at_ (distField (s.dim k) (coordOf a k) (coordOf b k)) (16 * k)
          setCore s who ((c.setG i.dst.toNat (f 3 ||| f 2 ||| f 1 ||| f 0)).retire 2))

/-! GPATH (R167, Table 5.7). -/

/-- The parameter block of a search. -/
structure PathReq where
  /-- SRC -/
  src : FAddr
  /-- DST -/
  dst : FAddr
  /-- Excluded port ids -/
  excl : List Nat
  /-- Hop limit -/
  hops : Nat
  /-- Island of LIMITS, 0 for no restriction -/
  island : Nat
  /-- Corners of BOX while valid -/
  box : Option (Nat × Nat)
  deriving DecidableEq, Repr

/-- A vertex lies inside a box of corners given in address layout. -/
def inBox (lo hi : Nat) (a : FAddr) : Bool :=
  addrKind a == 0 && (List.range 4).all fun k =>
    decide (bits lo (6 * k + 5) (6 * k) ≤ coordOf a k) && decide (coordOf a k ≤ bits hi (6 * k + 5) (6 * k))

/-- A port is usable in a search (R167). -/
def PathReq.usable (q : PathReq) (s : State) (v : FAddr) (p : Nat) : Bool :=
  portSt s v p == 0 && !q.excl.contains (v.toNat * 16 + p) && (q.island == 0 || islandOf s v == q.island) &&
    (match q.box with
      | none => true
      | some (lo, hi) => inBox lo hi (portNbr s v p))

/-- The state of a search: port records read, visited vertices with the path that reached each (last port first), the next level in order, and the path found. -/
structure PathSt where
  /-- e of R167 -/
  e : Nat := 0
  /-- Visited vertices -/
  seen : List FAddr := []
  /-- Vertices appended, newest first, with their paths -/
  next : List (FAddr × List Nat) := []
  /-- The path found, last port first -/
  found : Option (List Nat) := none
  deriving DecidableEq, Repr

/-- One port of one vertex. -/
def PathReq.port (q : PathReq) (s : State) (v : FAddr) (path : List Nat) (t : PathSt) (p : Nat) : PathSt :=
  if t.found.isSome then t
  else
    let t := { t with e := t.e + 1 }
    let n := portNbr s v p
    if !q.usable s v p || t.seen.contains n then t
    else if n = q.dst then { t with found := some (p :: path) }
    else { t with seen := n :: t.seen, next := (n, p :: path) :: t.next }

/-- One vertex: its ports 0 to 7 in order. -/
def PathReq.vertex (q : PathReq) (s : State) (t : PathSt) (v : FAddr × List Nat) : PathSt :=
  if t.found.isSome then t else (List.range 8).foldl (q.port s v.1 v.2) t

/-- The search level by level, up to the hop limit. -/
def PathReq.search (q : PathReq) (s : State) : Nat → List (FAddr × List Nat) → PathSt → PathSt
  | 0, _, t => t
  | n + 1, level, t =>
    let t := level.foldl (q.vertex s) { t with next := [] }
    if t.found.isSome then t
    else if t.next = [] then t
    else q.search s n t.next.reverse t

/-- A parameter block read at g[SRCA]: PARAM where it is misaligned or outside scratch and the window (R162). -/
def paramBlock (s : State) (who : Who) (addr : Word) (n : Nat) : Except Exc (List Byte) :=
  if addr.toNat % 8 ≠ 0 then .error { code := xParam, info := addr }
  else match loadRange s who addr n with
    | .error e => .error (if e.code = xMemUnc then e else { code := xParam, info := addr })
    | .ok bs => .ok bs

/-- The search that a block asks for; none where a reserved field is nonzero or a limit is out of range. -/
def pathReq (bs : List Byte) : Option PathReq :=
  let w (n : Nat) : Word := wordAt bs (8 * n)
  let ex (x : Word) : List Nat := if fld x 32 32 = 1 then [fld x 31 0] else []
  if fld (w 0) 63 28 ≠ 0 ∨ fld (w 1) 63 28 ≠ 0 ∨ fld (w 2) 63 33 ≠ 0 ∨ fld (w 3) 63 33 ≠ 0 ∨
      fld (w 4) 15 8 ≠ 0 ∨ fld (w 4) 63 32 ≠ 0 ∨ fld (w 6) 62 48 ≠ 0 ∨ w 0 = w 1 ∨
      fld (w 4) 7 0 = 0 ∨ 32 < fld (w 4) 7 0 then none
  else some { src := (w 0).truncate 28, dst := (w 1).truncate 28, excl := ex (w 2) ++ ex (w 3)
              hops := fld (w 4) 7 0, island := fld (w 4) 31 16
              box := if (w 6).getLsbD 63 then some (fld (w 6) 23 0, fld (w 6) 47 24) else none }

/-- GPATH: shortest usable path; its port bytes at OUT and its length in g[d], all ones where none exists. -/
def execGpath (who : Who) (i : Ins) (s : State) : Ans :=
  .next (runIns who i { op := 0x63, srcb := .unused, profile := false } none s fun s c =>
    match paramBlock s who (c.opA i) 56 with
    | .error e => raiseExc s who c.pc e
    | .ok bs =>
      match pathReq bs with
      | none => raiseExc s who c.pc { code := xParam, info := c.opA i }
      | some q =>
        let out := wordAt bs 0x28
        if out.toNat % 8 ≠ 0 then raiseExc s who c.pc { code := xMisaligned, info := out }
        else match storeRangeOk s who out 32 with
          | some e => raiseExc s who c.pc e
          | none =>
            match vertexOf s q.src with
            | .error e => raiseExc s who c.pc e
            | .ok _ =>
              match vertexOf s q.dst with
              | .error e => raiseExc s who c.pc e
              | .ok _ =>
                let t := q.search s q.hops [(q.src, [])] { seen := [q.src] }
                let path := ((t.found.getD []).reverse).map (BitVec.ofNat 8)
                let s := storeRange s who out (path ++ List.replicate (32 - path.length) 0xFF)
                correctRange (doneCached who s (40 + 6 * t.e) (t.e + 1) fun c =>
                  c.setG i.dst.toNat (if t.found.isSome then BitVec.ofNat 64 path.length else -1)) who (c.opA i) 56)

end Sys2Proof.Machine
end

