-- ==== Sys2Proof/Machine/Contexts.lean ====
section
/-! DEFINITION. The life of contexts: start, placement, stop, end, wake causes, tickets, mailbox bindings (R152 to R163, R361, R109). -/

namespace Sys2Proof.Machine

/-- A system context: local bit 20 set (R152). -/
def isSystem (c : Nat) : Bool := c.testBit 20

/-- The owner portal of a context number. -/
def ctxPortal (c : Nat) : Nat := c / 2 ^ 21

/-- The least local number 1 to 65,535 that a portal has free (R152, log 7). -/
def freeLocal (s : State) (p : Nat) : Option Nat :=
  findFrom (fun n => (s.eng.ctxs.get (p * 2 ^ 21 + n)).isNone) 65535 1

/-- Unbinds the mailboxes of a context (R155). -/
def unbindMailboxes (p : Portal) (c : Nat) : Portal :=
  { p with mbo := p.mbo.mapVals fun _ m => if m.ctx = c then { m with ctx := 0 } else m
           mbi := p.mbi.mapVals fun _ m => if m.ctx = c then { m with ctx := 0 } else m }

/-- The owner number of the tables that system contexts create: they belong to no portal (R152, R168). -/
abbrev systemOwner : Nat := 8

/-- Whose tables a context creates: its portal's, or the system's (R168). -/
def tableOwner (c : Nat) : Nat := if isSystem c then systemOwner else ctxPortal c

/-- Frees the tables of an owner when none of its contexts is left (R155). -/
def freeTables (s : State) (owner : Nat) : State :=
  if s.eng.ctxs.any (fun q => tableOwner q.1 == owner) then s
  else s.onEng fun e => { e with tables := e.tables.keep fun id t => !(t.portal == owner && decide (0x100 ≤ id)) }

/-- A context ends: ring, mailboxes, tickets, window, hewer and tables are released, and a CTX_STOP that waits for it is answered (R154, R155). -/
def endCtx (s : State) (c status : Nat) : State :=
  match s.eng.ctxs.get c with
  | none => s
  | some x =>
    let s := match x.ring with
      | none => s
      | some r => s.onRing r fun g =>
          { g with ctx := 0, waitsOn := none, waitCtx := 0,
                   fetched := g.fetched.map fun (f : Fetched) => if f.ctx = c then { f with ctx := 0 } else f }
    let s := s.onPortal x.portal fun p => unbindMailboxes p c
    let s := s.onEng fun e => { e with ctxs := e.ctxs.del c }
    let s := freeTables s (tableOwner c)
    answerAt s x.stopEntry status

/-- The status that a context reset or start gives the core: registers at their start values, scratch from the image (Table 4.1). -/
def startCore (x : Ctx) : Core :=
  ((({ pc := x.entry, mem := memStore [] 0 x.image, causes := x.core.causes, msgs := x.core.msgs } : Core).setG 1 x.g1).setG 2 x.g2)

/-! CTX_START (R152, R153, Table 5.1). -/

/-- A role that the steward and parties share. -/
def Role.isSP (r : Role) : Bool := r == .steward || r == .party

/-- The RING argument of CTX_START: none when its valid bit is clear. -/
def startRing (args : List Byte) : Option Nat :=
  if (leAt args 8 4).testBit 31 then some (bits (leAt args 8 4) 21 0) else none

/-- The context that CTX_START describes. -/
def startCtx (s : State) (p : Nat) (g : Ring) (args image : List Byte) : Ctx :=
  let ring := startRing args
  let hint := leAt args 0x0E 2
  { portal := p, ring := ring, island := ((ring.bind fun r => s.eng.rings.get r).map (·.island)).getD 0
    confidential := g.confidential || ((ring.bind fun r => s.eng.rings.get r).map (·.confidential)).getD false
    entry := wordAt args 0, image := image, g1 := wordAt args 0x18, g2 := wordAt args 0x20
    bwin := leAt args 0x0C 2, hint := if hint.testBit 15 then some (hint % 16) else none
    share := bits (leAt args 0x10 4) 23 0, order := s.eng.nextOrder }

/-- RING names a ring that is not of kind SUBMIT or is already bound (R153). -/
def ringUnfit (s : State) (ring : Option Nat) : Bool :=
  match ring with
  | none => false
  | some r =>
    match s.eng.rings.get r with
    | none => true
    | some g => g.kind != .submit || g.ctx != 0

/-- The status with which CTX_START refuses, none when it accepts (R153). -/
def startRefusal (s : State) (p : Nat) (args image : List Byte) : Option Nat :=
  let ring := startRing args
  let share := bits (leAt args 0x10 4) 23 0
  if (match ring with | none => false | some r => r / 2 ^ 19 != p) || (share != 0 && ctxPortal share != p) then some stDenied
  else if image.length % 8 ≠ 0 ∨ image.length = 0 ∨ 262144 < image.length then some stInvalid
  else if (wordAt args 0).toNat % 8 ≠ 0 ∨ image.length ≤ (wordAt args 0).toNat then some stInvalid
  else if ringUnfit s ring then some stInvalid
  else if 128 < leAt args 0x0C 2 ∨ !zeroAt args 0x14 4 then some stInvalid
  else if share ≠ 0 ∧ (s.eng.ctxs.get share).isNone then some stInvalid
  else none

/-- CTX_START creates a PENDING context, or completes with the refusal of R153. It is the one command that creates a context and it creates portal contexts only: the spec says that the controller's firmware has system contexts (R152) but gives no event that starts one, so none is there at reset and a state that holds one is the model's premise (log 166). -/
def execCtxStart (ring : Nat) (index : BitVec 32) (buf : List Byte) (s : State) : Ans :=
  .next (serve ring index 0x01 buf s fun g f args image s =>
    match startRefusal s g.owner args image with
    | some st => finish s ring f st
    | none =>
      match freeLocal s g.owner with
      | none => finish s ring f stNoSpace
      | some n =>
        let c := g.owner * 2 ^ 21 + n
        let x := startCtx s g.owner g args image
        let s := s.onEng fun e => { e with ctxs := e.ctxs.set c x, nextOrder := e.nextOrder + 1 }
        let s := match x.ring with
          | none => s
          | some r => s.onRing r fun y => { y with ctx := c }
        finish s ring f stOk (leBytes 4 c))

/-! Stops (R154, R155, Table 5.2). -/

/-- What CTX_STOP does to a context by its state: its status when it is answered at once, and the state. -/
def stopCtx (s : State) (ring : Nat) (f : Fetched) (c grace : Nat) (x : Ctx) : State :=
  match x.st with
  | .pending => finish (endCtx s c stOk) ring f stOk
  | .faulted => finish (endCtx s c stOk) ring f stOk
  | .stopping => finish s ring f stInvalid
  | .ended => finish s ring f stInvalid
  | .running | .halted | .blocked =>
    let s := s.onCtx c fun y =>
      { y with stopEntry := some (ring, f.index), graceUs := if grace = 0 then 1000 else grace,
               st := .stopping }
    setCause s c causeStop

/-- HALT.END has ended the context at the present fabric time: a stop that comes in that cycle meets it (R156, log 172). -/
def endedNow (s : State) (c : Nat) : Bool := s.eng.haltEnds.any fun e => e.1 == c && e.2 == s.now

/-- CTX_STOP ends a PENDING or FAULTED context, or moves a running one to STOPPING with cause STOP; one that meets HALT.END completes OK (R154 to R156). -/
def execCtxStop (ring : Nat) (index : BitVec 32) (buf : List Byte) (s : State) : Ans :=
  .next (serve ring index 0x02 buf s fun g f args _ s =>
    let c := leAt args 0 4
    if !zeroAt args 6 34 then finish s ring f stInvalid
    else match s.eng.ctxs.get c with
      | none => finish s ring f (if endedNow s c && ctxPortal c == g.owner && !isSystem c then stOk else stInvalid)
      | some x => if x.portal ≠ g.owner ∨ isSystem c then finish s ring f stDenied else stopCtx s ring f c (leAt args 4 2) x)

/-- STOP_GRACE_EXPIRY ends a STOPPING context by force, FENCED; one that has gone to FAULTED keeps its hewer (R154, R159, Table 5.2). -/
def execStopGraceExpiry (c : Nat) (s : State) : Ans :=
  .next (match s.eng.ctxs.get c with
    | none => s
    | some x => if x.st = .stopping then endCtx s c stFenced else s)

/-- FAULTED_TIMEOUT: a context FAULTED for 1 s goes to ENDED (Table 5.2). -/
def execFaultedTimeout (c : Nat) (s : State) : Ans :=
  .next (match s.eng.ctxs.get c with
    | none => s
    | some x => if x.st = .faulted then endCtx s c stOk else s)

/-- The bench window of a context is zeroed, whoever shares it (R320). -/
def wipeWindow (s : State) (x : Ctx) : State :=
  match x.hewer with
  | none => s
  | some (b, _) => s.onBench b fun k =>
      { k with mem := k.mem.filter fun e => !(decide (x.granule * 0x10000 ≤ e.1) && decide (e.1 < (x.granule + x.bwin) * 0x10000)) }

/-- The window of a context is zeroed unless a live context shares it (R361). -/
def zeroWindow (s : State) (c : Nat) (x : Ctx) : State :=
  if s.eng.ctxs.any (fun q => q.1 != c && (q.2.share == c || (x.share != 0 && (q.1 == x.share || q.2.share == x.share)))) then s
  else wipeWindow s x

/-- A context ends under R320: its window is zeroed, and its scratch goes with it. -/
def scrubCtx (s : State) (c : Nat) (x : Ctx) : State := endCtx (wipeWindow s x) c stFenced

/-- A context returns to PENDING: tickets, messages and causes are discarded, its hewer is given up; bindings stay (R361). A CTX_STOP that it had not yet answered completes FENCED (log 172). -/
def toPending (s : State) (c : Nat) : State :=
  let s := answerAt s ((s.eng.ctxs.get c).bind (·.stopEntry)) stFenced
  s.onCtx c fun x =>
    { x with st := .pending, hewer := none, tickets := [], stopEntry := none, blockedOn := 0, judged := false
             core := { x.core with causes := 0, msgs := [], awaits := none, untilT := none } }

/-- CTX_RESET resets a FAULTED context back to PENDING; INVALID unless it is FAULTED, so also when counting has ended it (R347, R361). -/
def execCtxReset (ring : Nat) (index : BitVec 32) (buf : List Byte) (s : State) : Ans :=
  .next (serve ring index 0x03 buf s fun g f args _ s =>
    let c := leAt args 0 4
    if !zeroAt args 4 36 then finish s ring f stInvalid
    else match s.eng.ctxs.get c with
      | none => finish s ring f stInvalid
      | some x =>
        if x.portal ≠ g.owner ∨ isSystem c then finish s ring f stDenied
        else if x.st ≠ .faulted then finish s ring f stInvalid
        else finish (toPending (zeroWindow s c x) c) ring f stOk)

/-! Placement (R158, R159). -/

/-- Hewers of a bench that are held. -/
def busyHewers (s : State) (b : Nat) : List Nat :=
  s.eng.ctxs.filterMap fun q => match q.2.hewer with
    | none => none
    | some (k, h) => if k = b then some h else none

/-- Hewers of a bench that are free and not fenced, ascending. -/
def freeHewers (s : State) (b : Nat) : List Nat :=
  (List.range 32).filter fun h => !(busyHewers s b).contains h && !s.power.fencedHw.getLsbD (32 * b + h)

/-- The bench may take contexts: present, usable, and not in an engine reset (R59, R362). -/
def benchOpen (s : State) (b : Nat) : Bool :=
  decide (b < s.pins.part.benches) && s.power.benchUsable.getLsbD b && s.domSt (b + 1) != .fenced

/-- Granules of a bench that windows hold. -/
def heldGranules (s : State) (b : Nat) : List (Nat × Nat) :=
  s.eng.ctxs.filterMap fun q => match q.2.hewer with
    | none => none
    | some (k, _) => if k = b ∧ q.2.bwin ≠ 0 then some (q.2.granule, q.2.bwin) else none

/-- The lowest run of n free granules of the 128 of a bench (R158). -/
def freeRun (s : State) (b n : Nat) : Option Nat :=
  if n = 0 then some 0
  else (List.range 128).find? fun g =>
    decide (g + n ≤ 128) && (heldGranules s b).all fun h => decide (g + n ≤ h.1) || decide (h.1 + h.2 ≤ g)

/-- The bench has a free hewer and room for the window. -/
def benchFits (s : State) (b n : Nat) : Bool := benchOpen s b && freeHewers s b != [] && (freeRun s b n).isSome

/-- The usable bench with the most free hewers that fits, the lowest number winning a tie (R158). -/
def bestBench (s : State) (n : Nat) : Option Nat :=
  (List.range 16).foldl (fun best b =>
    if benchFits s b n then
      match best with
      | none => some b
      | some k => if (freeHewers s k).length < (freeHewers s b).length then some b else some k
    else best) none

/-- The bench and the first granule for a context by the rules of R158, none when it fits nowhere. -/
def placeFor (s : State) (x : Ctx) : Option (Nat × Nat) :=
  if x.share ≠ 0 then
    match s.eng.ctxs.get x.share with
    | none => none
    | some y =>
      match y.hewer with
      | none => none
      | some (b, _) => if benchOpen s b && freeHewers s b != [] then some (b, y.granule) else none
  else
    let b := match x.hint with
      | some h => if benchFits s h x.bwin then some h else bestBench s x.bwin
      | none => bestBench s x.bwin
    b.bind fun k => (freeRun s k x.bwin).map fun g => (k, g)

/-- Hewers that a portal's contexts hold. -/
def hewersOf (s : State) (p : Nat) : Nat :=
  (s.eng.ctxs.filter fun q => q.2.portal == p && !isSystem q.1 && q.2.hewer.isSome).length

/-- Inserts a context into a list in creation order. -/
def byOrder (q : Nat × Ctx) : List (Nat × Ctx) → List (Nat × Ctx)
  | [] => [q]
  | a :: as => if q.2.order < a.2.order then q :: a :: as else a :: byOrder q as

/-- PENDING contexts of a class in creation order. -/
def pendingOf (s : State) (p : Nat → Ctx → Bool) : List (Nat × Ctx) :=
  (s.eng.ctxs.filter fun q => q.2.st == .pending && !q.2.judged && p q.1 q.2).foldl (fun l q => byOrder q l) []

/-- The candidates in the order of R158: system contexts, then the portals in rotation from the one after the portal served last, within its hewer limit. -/
def placeOrder (s : State) : List (Nat × Ctx) :=
  pendingOf s (fun c _ => isSystem c) ++
    (List.range 8).flatMap fun k =>
      let p := (s.eng.lastPortal + 1 + k) % 8
      if hewersOf s p < (s.portal p).hewerLimit then pendingOf s fun c x => !isSystem c && x.portal == p else []

/-- Puts a context on a hewer with its window; its image is loaded and it runs (R158, R361). -/
def putOn (s : State) (c : Nat) (x : Ctx) (b g : Nat) : State :=
  match (freeHewers s b).head? with
  | none => s
  | some h =>
    let bw := if x.share = 0 then x.bwin else ((s.eng.ctxs.get x.share).map (·.bwin)).getD x.bwin
    let s := s.onCtx c fun y => { y with st := .running, hewer := some (b, h), granule := g, bwin := bw, core := startCore y }
    let s := if isSystem c then s else s.onEng fun e => { e with lastPortal := x.portal }
    wake s (b + 1)

/-- PLACEMENT: the first candidate that fits is placed; one that fits no bench stays PENDING (R158). -/
def execPlacement (s : State) : Ans :=
  .next (match (placeOrder s).findSome? fun q => (placeFor s q.2).map fun w => (q, w) with
    | none => s
    | some ((c, x), (b, g)) => putOn s c x b g)

/-! Causes and time (R157, R161). -/

/-- Fabric time as what runs reads it: the controller's, or the agent's own copy (R175). -/
def State.timeOf (s : State) : Who → Nat
  | .ctx _ => s.now
  | .agent id =>
    match s.agents.get id with
    | none => s.now
    | some a => a.ft s

/-- Latches a wake cause of a context or an agent (R157). -/
def State.cause (s : State) (who : Who) (bit : Nat) : State :=
  match who with
  | .ctx c => setCause s c bit
  | .agent id => agentCause s id bit

/-- WAKE_CAUSE: a cause is latched, and a waiting context that awaits it resumes. -/
def execWakeCause (c : Nat) (cause : Nat) (s : State) : Ans :=
  .next (if cause < 6 then setCause s c cause else s)

/-- TIME_WAKE: fabric time has reached the time that a HALT.UNTIL awaits (R161). -/
def execTimeWake (who : Who) (s : State) : Ans :=
  .next (match coreOf s who with
    | none => s
    | some c =>
      match c.untilT with
      | none => s
      | some t => if t ≤ s.timeOf who then s.cause who causeTime else s)

/-- The earliest HALT.UNTIL time of a bench's contexts (R161). -/
def earliestWake (s : State) (b : Nat) : Option Nat :=
  s.eng.ctxs.foldl (fun best q =>
    match q.2.hewer, q.2.core.untilT with
    | some (k, _), some t =>
      if k = b then (match best with
        | none => some t
        | some u => some (Nat.min t u))
      else best
    | _, _ => best) none

/-- BENCH_PREWAKE: 30 µs before the bench's earliest HALT.UNTIL time, its wake event is raised when it is OFF (R161). -/
def execBenchPrewake (b : Nat) (s : State) : Ans :=
  .next (match earliestWake s b with
    | none => s
    | some t => if s.domSt (b + 1) == .off && decide (t ≤ s.now + 30000) then wake s (b + 1) else s)

/-! Tickets (R163). -/

/-- The least free ticket number of a context, none when 64 are open (R163, log 7). -/
def freeTicket (x : Ctx) : Option Nat :=
  if 64 ≤ x.tickets.length then none
  else findFrom (fun n => (x.tickets.get n).isNone) 64 1

/-- Records a ticket of a context. -/
def setTicket (s : State) (c n : Nat) (t : Ticket) : State := s.onCtx c fun x => { x with tickets := x.tickets.set n t }

/-- Completes an open ticket with a status; the TICKET cause is set (R163, Table 5.3). -/
def finishTicket (s : State) (c n status : Nat) : State :=
  match (s.eng.ctxs.get c).bind fun x => x.tickets.get n with
  | none => s
  | some t =>
    match t.status with
    | some _ => s
    | none => setCause (setTicket s c n { t with status := some (BitVec.ofNat 16 status) }) c causeTicket

/-- Completes with FENCED every open ticket whose unit lies in a domain (Table 11.7). -/
def fenceTickets (s : State) (dom : Nat) : State :=
  s.eng.ctxs.foldl (fun t q => q.2.tickets.foldl (fun u k =>
    if k.2.dom = dom then finishTicket u q.1 k.1 stFenced else u) t) s

/-- Issues a ticket for an operation: TICKET when 64 are open; else the ticket is recorded, g[d] takes its number and the instruction completes. -/
def issueTicket (who : Who) (i : Ins) (s : State) (c : Core) (cost : Nat) (t : Ticket) (k : Nat → Nat → State → State) : State :=
  match who with
  | .agent _ => s
  | .ctx n =>
    match s.eng.ctxs.get n with
    | none => s
    | some x =>
      match freeTicket x with
      | none => raiseExc s who c.pc { code := xTicket }
      | some tk =>
        let s := setTicket s n tk t
        let s := setCore s who ((c.setG i.dst.toNat (BitVec.ofNat 64 tk)).retire cost)
        k n tk s

/-- TKWAIT: waits for ticket a; g[d] := status; frees the ticket. While the ticket is open the instruction does not complete (log 13). -/
def execTkwait (who : Who) (i : Ins) (s : State) : Ans :=
  .next (runIns who i { op := 0x92, srcb := .unused, profile := false } none s fun s c =>
    match who with
    | .agent _ => s
    | .ctx n =>
      match (s.eng.ctxs.get n).bind fun x => x.tickets.get (c.opA i).toNat with
      | none => raiseExc s who c.pc { code := xTicket, info := c.opA i }
      | some t =>
        match t.status with
        | none => s
        | some st =>
          let s := s.onCtx n fun x => { x with tickets := x.tickets.del (c.opA i).toNat }
          let w := s.draw.1.toNat
          setCore s.draw.2 who ((c.setG i.dst.toNat (st.zeroExtend 64)).retire (2 + w)))

/-- TKPOLL: g[d] := status and frees the ticket, or all ones while it is pending. -/
def execTkpoll (who : Who) (i : Ins) (s : State) : Ans :=
  .next (runIns who i { op := 0x93, srcb := .unused, profile := false } none s fun s c =>
    match who with
    | .agent _ => s
    | .ctx n =>
      match (s.eng.ctxs.get n).bind fun x => x.tickets.get (c.opA i).toNat with
      | none => raiseExc s who c.pc { code := xTicket, info := c.opA i }
      | some t =>
        match t.status with
        | none => setCore s who ((c.setG i.dst.toNat (-1)).retire 2)
        | some st =>
          let s := s.onCtx n fun x => { x with tickets := x.tickets.del (c.opA i).toNat }
          setCore s who ((c.setG i.dst.toNat (st.zeroExtend 64)).retire 2))

/-! Mailbox bindings (R109). -/

/-- Binds a channel of a portal. -/
def bindChannel (p : Portal) (incoming : Bool) (n c : Nat) : Portal :=
  if incoming then { p with mbi := p.mbi.set n { p.mbi.getD n {} with ctx := c } }
  else { p with mbo := p.mbo.set n { p.mbo.getD n {} with ctx := c } }

/-- MB_BIND binds outgoing or incoming channel n to a context of the portal, or unbinds it with context 0; a word that waits then wakes the context. How ARGS spell the three values the spec does not give, so they are operands (log 14); its refusals INVALID and DENIED are the model's choice (log 162). -/
def execMbBind (ring : Nat) (index : BitVec 32) (buf : List Byte) (incoming : Bool) (channel ctx : Nat) (s : State) : Ans :=
  .next (serve ring index 0x04 buf s fun g f _ _ s =>
    if 64 ≤ channel then finish s ring f stInvalid
    else if ctx ≠ 0 ∧ (ctxPortal ctx ≠ g.owner ∨ isSystem ctx) then finish s ring f stDenied
    else if ctx ≠ 0 ∧ (s.eng.ctxs.get ctx).isNone then finish s ring f stInvalid
    else
      let full := !incoming && ((s.portal g.owner).mbo.getD channel {}).full
      let s := s.onPortal g.owner fun p => bindChannel p incoming channel ctx
      let s := if full ∧ ctx ≠ 0 then setCause s ctx causeMailbox else s
      finish s ring f stOk)

end Sys2Proof.Machine
end

