-- ==== Sys2Proof/Machine/Portals.lean ====
section
/-! DEFINITION. Portals: access shapes, mailboxes, doorbells, the command interface, entry fetch and partition reset (chapter 3). -/

namespace Sys2Proof.Machine

/-! Access shapes (R85, Table 3.10). -/

/-- How one register access of at most 8 bytes is taken. -/
inductive Shape where
  | whole | half (hi : Bool) | narrow | unsupported
  deriving DecidableEq, Repr

/-- The shape of an access of `size` bytes at an offset (Table 3.10). -/
def shapeOf (off size : Nat) : Shape :=
  if size = 8 ∧ off % 8 = 0 then .whole
  else if size = 4 ∧ off % 4 = 0 then .half (off % 8 == 4)
  else if (size = 2 ∧ off % 2 = 0) ∨ size = 1 then .narrow
  else .unsupported

/-- Logs an access event (Table 3.8). -/
def logAccess (s : State) (p ev : Nat) (bar2 write : Bool) (size off : Nat) : State :=
  s.onPortal p fun q =>
    { q with logCount := satAdd 0xFFFF q.logCount 1, logEvent := BitVec.ofNat 2 ev, logBar2 := bar2, logWrite := write
             logSize := BitVec.ofNat 4 size, logOffset := BitVec.ofNat 24 off }

/-- A write of a shape that the register does not take: dropped, ACCESS_SIZE, PT_ACCESS_LOG (R85). -/
def accessSize (s : State) (p : Nat) (bar2 : Bool) (size off : Nat) : State :=
  (logAccess (s.portalFault p 0x001 .note 2 (if bar2 then 2 else 1) off) p 0 bar2 true size off).emit (.writeDone p)

/-- A write dropped because of the portal's role: NOTE-class REG_DENIED (R68). -/
def regDenied (s : State) (p off : Nat) : State :=
  (s.portalFault p 0x006 .note 2 1 off).emit (.writeDone p)

/-- The portal exists on this part. -/
def State.hasPortal (s : State) (p : Nat) : Bool := decide (p < s.pins.part.portals)

/-- The portal takes accesses other than to LH_ and PT_ registers: it is not in a partition reset (R119). -/
def State.portalOpen (s : State) (p : Nat) : Bool := s.hasPortal p && (s.portal p).st != .resetting

/-- A portal access to a register of domain `d`: dropped, reading zero, for an absent unit (R5) and for a FENCED domain, which is recorded; held, with a wake, for a sleeping one (R67). -/
def viaDomain (s : State) (p d off size : Nat) (write : Option Word) (act : State → State) : State :=
  let drop (s : State) : State := s.emit (if write.isSome then .writeDone p else .readValue p 0)
  if !s.domPresent d then drop s
  else match s.domSt d with
    | .on => act s
    | .fenced => drop (s.portalFault p 0x002 .note (if write.isSome then 2 else 1) 1 off)
    | .off | .waking | .draining =>
      wake (s.onPortal p fun q => { q with held := q.held ++ [{ offset := off, write := write, size := size, dom := d }] }) d

/-! Mailboxes (R108 to R113). -/

/-- PT_MBO_DATA_WRITE: an empty channel takes the word and raises the wake of its context; a full one drops it and sets MB_OVF (R110). -/
def execPtMboDataWrite (portal channel : Nat) (word : Word) (s : State) : Ans :=
  .next (if !s.portalOpen portal then s.emit (.unsupported portal)
    else if 64 ≤ channel then s
    else
      let m := (s.portal portal).mbo.getD channel {}
      if m.full then
        (s.onPortal portal fun p => { p with mbo := p.mbo.set channel { m with ovf := true } }).emit (.writeDone portal)
      else
        let s := (s.onPortal portal fun p => { p with mbo := p.mbo.set channel { m with word := word, full := true } }).emit (.writeDone portal)
        let s := wake s 17
        if m.ctx = 0 then s else setCause s m.ctx causeMailbox)

/-- PT_MBI_DATA_READ: a full 8-byte read returns the word and clears the full flag; an empty channel reads zero (R110). -/
def execPtMbiDataRead (portal channel : Nat) (s : State) : Ans :=
  .next (if !s.hasPortal portal then s.emit (.unsupported portal)
    else if 64 ≤ channel then s
    else
      let m := (s.portal portal).mbi.getD channel {}
      (s.onPortal portal fun p => { p with mbi := p.mbi.set channel { m with word := 0, full := false } }).emit
        (.readValue portal (if m.full then m.word else 0)))

/-- The full flags of channels as a word. -/
def fullMask (m : FMap Mbox) : Word := m.foldl (fun w q => if q.2.full then w ||| at_ 1 q.1 else w) 0

/-- The MB_OVF bits of channels as a word. -/
def ovfMask (m : FMap Mbox) : Word := m.foldl (fun w q => if q.2.ovf then w ||| at_ 1 q.1 else w) 0

/-- Writing 1 clears an MB_OVF bit (Table 3.21). -/
def clearOvf (m : FMap Mbox) (w : Word) : FMap Mbox := m.mapVals fun n q => if w.getLsbD n then { q with ovf := false } else q

/-- PT_CTRL takes its low half: enabling MB_IRQ_EN raises the vector of each full incoming mailbox once (R112). -/
def setPtCtrl (s : State) (p : Nat) (w : Word) : State :=
  let old := s.portal p
  let s := s.onPortal p fun q => { q with faultIrqEn := w.getLsbD 8, mbIrqEn := w.getLsbD 1, ringsEn := w.getLsbD 0 }
  if w.getLsbD 1 && !old.mbIrqEn then
    s.emits ((old.mbi.filter fun q => q.2.full).map fun q => Out.msix p q.1)
  else s

/-- PT_CTRL_WRITE, split-writable: a write of its high half changes nothing (Table 3.4). -/
def execPtCtrlWrite (portal offset size : Nat) (data : Word) (s : State) : Ans :=
  .next (if !s.portalOpen portal then s.emit (.unsupported portal)
    else match shapeOf offset size with
      | .whole => (setPtCtrl s portal data).emit (.writeDone portal)
      | .half hi => (if hi then s else setPtCtrl s portal data).emit (.writeDone portal)
      | .narrow => accessSize s portal false size (0x10008 + offset % 8)
      | .unsupported => s.emit (.unsupported portal))

/-! Fault slots of a portal (R350, R352). -/

/-- The vector 64 of a portal when a VALID bit rises and FAULT_IRQ_EN is 1 (R352). -/
def raiseVector64 (s : State) (p : Nat) : State := if (s.portal p).faultIrqEn then s.emit (.msix p 64) else s

/-- PT_FAULT_FIRST_CLEAR frees the portal's first-fault slot. -/
def execPtFaultFirstClear (portal : Nat) (s : State) : Ans :=
  .next (if !s.portalOpen portal then s.emit (.unsupported portal)
    else (s.onPortal portal fun p => { p with first := none }).emit (.writeDone portal))

/-- The next queued record is shown in PT_FAULT_NEXT (R352). -/
def showNext (s : State) (p : Nat) : State :=
  match (s.portal p).next, (s.portal p).queue with
  | none, r :: rest => raiseVector64 (s.onPortal p fun q => { q with next := some r, queue := rest }) p
  | _, _ => s

/-- PT_FAULT_NEXT_CLEAR frees the next-fault slot, and the next queued record is shown. -/
def execPtFaultNextClear (portal : Nat) (s : State) : Ans :=
  .next (if !s.portalOpen portal then s.emit (.unsupported portal)
    else (showNext (s.onPortal portal fun p => { p with next := none }) portal).emit (.writeDone portal))

/-- A write of LH_FAULT_STATUS: FIRST_VALID clears with a 1, SPOIL and RECOVERIES take their fields (Table 11.8; log 148). -/
def setFaultStatus (s : State) (w : Word) : State :=
  s.onColl fun c => { c with first := if w.getLsbD 0 then none else c.first, spoil := fld w 63 48, recoveries := fld w 47 32 }

/-- LH_FAULT_FIRST_CLEAR: the steward writes LH_FAULT_STATUS; from another role the write is dropped (R68, R358). -/
def execLhFaultFirstClear (portal : Nat) (data : Word) (s : State) : Ans :=
  .next (if !s.portalOpen portal then s.emit (.unsupported portal)
    else if (s.portal portal).role = .steward then setFaultStatus (s.emit (.writeDone portal)) data
    else regDenied s portal 0x400)

/-! The command interface (R88 to R94, Table 3.17). -/

/-- Portal field of a ring identifier (R88). -/
def ringPortal (r : Nat) : Nat := r / 2 ^ 19

/-- The portal is neither steward nor party of an island that a ring names (R93). -/
def islandDenied (s : State) (p h : Nat) : Bool :=
  h != 0 && (s.portal p).role != .steward && !s.isParty p h

/-- The ring kind of a code (Table 3.12). -/
def RingKind.ofCode (n : Nat) : Option RingKind :=
  if n = 0 then some .submit else if n = 1 then some .complete else if n = 2 then some .fault
  else if n = 3 then some .event else none

/-- RING_CREATE: the identifier, or the status of R93; a KIND above 3 and a reserved FLAGS bit, which R93 does not list, give INVALID (log 156). -/
def ringCreate (s : State) (p : Nat) : Nat × State :=
  let q := s.portal p
  let log2 := fld q.arg1 7 0
  let flags := fld q.arg1 31 16
  let isl := fld q.arg1 47 32
  let paired := fld q.arg2 63 32
  match RingKind.ofCode (fld q.arg1 15 8) with
  | none => (stInvalid, s)
  | some k =>
    if log2 < 6 ∨ 16 < log2 ∨ fld q.arg0 11 0 ≠ 0 ∨ fld q.arg3 2 0 ≠ 0 ∨ 4 ≤ flags ∨
        (k = .submit ∧ !(ringPortal paired == p && ((s.eng.rings.get paired).map (·.kind)) == some .complete)) then (stInvalid, s)
    else if islandDenied s p isl ∨ (flags % 2 = 1 ∧ (!q.session.live ∨ q.role = .auditor)) then (stDenied, s)
    else match findFrom (fun n => (s.eng.rings.get (p * 2 ^ 19 + n)).isNone) 524288 0 with
      | none => (stNoSpace, s)
      | some n =>
        let g : Ring :=
          { base := q.arg0, log2 := log2, kind := k, owner := p, island := isl, confidential := flags % 2 == 1
            shadowEn := flags / 2 % 2 == 1, wakeTarget := q.arg2.truncate 32, paired := if k = .submit then paired else 0
            shadow := q.arg3, changed := s.now }
        let s := s.onEng fun e => { e with rings := e.rings.set (p * 2 ^ 19 + n) g }
        (stOk, s.onPortal p fun x => { x with arg0 := BitVec.ofNat 64 (p * 2 ^ 19 + n) })

/-- Takes a ring out of the table; a context bound to it is bound to none, and one blocked on it resumes. -/
def dropRing (s : State) (r : Nat) : State :=
  let s := wakeBlocked s r
  s.onEng fun e =>
    { e with rings := e.rings.del r
             ctxs := e.ctxs.mapVals fun _ x => if x.ring = some r then { x with ring := none } else x }

/-- RING_DESTROY (R94). -/
def ringDestroy (s : State) (r : Nat) (g : Ring) : Nat × State :=
  if g.st = .active ∨ (g.kind = .complete ∧ s.eng.rings.any fun q => q.2.kind == .submit && q.2.paired == r) then (stInvalid, s)
  else (stOk, dropRing s r)

/-- RING_FENCE; a ring in ERROR is left so, and a ring that is FENCED stays so with OK (Table 3.13; log 15, 157). -/
def ringFence (s : State) (r : Nat) (g : Ring) : Nat × State :=
  if g.st = .error then (stInvalid, s) else (stOk, fenceRing s r)

/-- RING_RESUME; of a ring that is not FENCED, INVALID (Table 3.13; log 157). -/
def ringResume (s : State) (r : Nat) (g : Ring) : Nat × State :=
  if g.st = .fenced then (stOk, settleRing (setRingSt s r .idle) r) else (stInvalid, s)

/-- RING_RESET; entries that an ERROR ring had fetched and not answered leave it without a completion, and completions held while the ring was in ERROR are then written (R94, R100, Table 3.13; log 35, 158). -/
def ringReset (s : State) (r : Nat) (g : Ring) : Nat × State :=
  if g.st = .error ∨ g.st = .fenced then
    (stOk, drainWaiting ((setRingSt s r .idle).onRing r fun y =>
      { y with prod := 0, cons := 0, fetched := [], stalled := false, lost := 0, errStatus := 0, errIndex := 0 }) r g.size)
  else (stInvalid, s)

/-- The 4-bit code of a ring state (Table 3.12). -/
def RingState.code : RingState → Nat
  | .idle => 0
  | .active => 1
  | .fenced => 2
  | .error => 3

/-- WAITS_ON as its register form (Table 3.12). -/
def Ring.waitsWord (g : Ring) : Nat :=
  match g.waitsOn with
  | none => 0
  | some r => 2 ^ 31 + r

/-- RING_QUERY (Table 3.17). -/
def ringQuery (s : State) (p : Nat) (g : Ring) : Nat × State :=
  (stOk, s.onPortal p fun x =>
    { x with arg0 := at_ g.prod.toNat 0 ||| at_ g.cons.toNat 32, arg1 := at_ g.st.code 0 ||| at_ g.waitsWord 32
             arg2 := at_ g.errIndex.toNat 0 ||| at_ g.errStatus.toNat 32, arg3 := g.done })

/-- A channel-engine command by its code: status and state; an OP that Table 3.17 does not have, and a ring of the own portal that does not exist, give INVALID (R88, Table 3.17; log 155). -/
def chRun (s : State) (p op : Nat) : Nat × State :=
  if op = 1 then ringCreate s p
  else if 7 < op ∨ op = 0 then (stInvalid, s)
  else
    let r := fld (s.portal p).arg0 21 0
    if ringPortal r ≠ p then (stDenied, s)
    else match s.eng.rings.get r with
      | none => (stInvalid, s)
      | some g =>
        if op = 2 then ringDestroy s r g
        else if op = 3 then ringFence s r g
        else if op = 4 then ringResume s r g
        else if op = 5 then ringReset s r g
        else if op = 6 then ringQuery s p g
        else (stOk, s.onRing r fun y => { y with wakeTarget := (s.portal p).arg1.truncate 32 })

/-- Ends a portal's running command with a status (Table 3.16). -/
def chEnd (s : State) (p status : Nat) : State :=
  s.onPortal p fun q => { q with cmdStatus := BitVec.ofNat 16 status, cmdBusy := false, cmdOp := 0 }

/-- The commands that waited for D17 run (R92). -/
def runWaitingCmds (s : State) : State :=
  (List.range 8).foldl (fun t p =>
    if (t.portal p).cmdBusy then chEnd (chRun t p (t.portal p).cmdOp.toNat).2 p (chRun t p (t.portal p).cmdOp.toNat).1 else t) s

/-- A write of CH_CMD: dropped with CMD_BUSY while a command runs; run at once while D17 is ON, and where its wake brings a draining D17 back to ON; ended with FENCED while D17 is FENCED; else it wakes D17 and runs when D17 is ON (R64, R92; log 161). -/
def chCmd (s : State) (p op : Nat) (tag : BitVec 16) : State :=
  if !s.portalOpen p then s.emit (.unsupported p)
  else if (s.portal p).cmdBusy then (s.portalFault p 0x003 .note 8 1 0x30020).emit (.writeDone p)
  else
    let s := (s.onPortal p fun q => { q with cmdTag := tag }).emit (.writeDone p)
    match s.domSt 17 with
    | .on => chEnd (chRun s p op).2 p (chRun s p op).1
    | .fenced => chEnd s p stFenced
    | .off | .waking | .draining =>
      let t := wake (s.onPortal p fun q => { q with cmdBusy := true, cmdOp := BitVec.ofNat 8 op }) 17
      if t.domOn 17 then runWaitingCmds t else t

/-- RING_CREATE. -/
def execRingCreate (portal : Nat) (tag : BitVec 16) (s : State) : Ans := .next (chCmd s portal 1 tag)
/-- RING_DESTROY. -/
def execRingDestroy (portal : Nat) (tag : BitVec 16) (s : State) : Ans := .next (chCmd s portal 2 tag)
/-- RING_FENCE. -/
def execRingFence (portal : Nat) (tag : BitVec 16) (s : State) : Ans := .next (chCmd s portal 3 tag)
/-- RING_RESUME. -/
def execRingResume (portal : Nat) (tag : BitVec 16) (s : State) : Ans := .next (chCmd s portal 4 tag)
/-- RING_RESET. -/
def execRingReset (portal : Nat) (tag : BitVec 16) (s : State) : Ans := .next (chCmd s portal 5 tag)
/-- RING_QUERY. -/
def execRingQuery (portal : Nat) (tag : BitVec 16) (s : State) : Ans := .next (chCmd s portal 6 tag)
/-- RING_RETARGET. -/
def execRingRetarget (portal : Nat) (tag : BitVec 16) (s : State) : Ans := .next (chCmd s portal 7 tag)

/-! Doorbells (R97, R98). -/

/-- A doorbell of a missing, errored or not-ahead ring: dropped, DOORBELL_STALE, PT_ACCESS_LOG (R98). -/
def doorbellStale (s : State) (p off size : Nat) : State :=
  logAccess (s.portalFault p 0x004 .note 2 2 off) p 1 true true size off

/-- A doorbell that overruns its ring moves it to ERROR with INVALID; ERROR_INFO holds the doorbell's index, for no entry failed (R98; log 159). -/
def ringOverrun (s : State) (p r off : Nat) (idx : BitVec 32) : State :=
  errorRing (s.portalFault p 0x005 .note 2 2 off) r stInvalid idx

/-- A doorbell that the engine accepts: the host's index moves, and what waits for entries or slots is woken (R98, R100, Table 5.3). -/
def doorbellAccept (s : State) (r : Nat) (g : Ring) (idx : BitVec 32) : State :=
  if g.kind = .submit then
    let s := s.onRing r fun y => { y with prod := idx }
    let s := if g.stopped then s else settleRing s r
    let s := if g.ctx = 0 then s else setCause s g.ctx causeRing
    s
  else
    let s := s.onRing r fun y => { y with cons := idx }
    let s := if g.stopped then s else settleRing s r
    wakeBlocked s r

/-- The checks of R98 in order. -/
def doorbell (s : State) (p r off size : Nat) (idx : BitVec 32) : State :=
  match s.eng.rings.get r with
  | none => doorbellStale s p off size
  | some g =>
    let host := if g.kind = .submit then g.prod else g.cons
    if g.st = .error then doorbellStale s p off size
    else if 2 ^ 31 ≤ (idx - host).toNat then doorbellStale s p off size
    else if g.kind = .submit ∧ g.size < (idx - g.cons).toNat then ringOverrun s p r off idx
    else if g.kind ≠ .submit ∧ (g.prod - host).toNat < (idx - host).toNat then ringOverrun s p r off idx
    else doorbellAccept s r g idx

/-- DOORBELL_WRITE: a write in BAR2 by its shape; it wakes D17 (R85, R97, R98). During a partition reset it is dropped without a fault (R119). -/
def execDoorbellWrite (portal offset size : Nat) (data : Word) (s : State) : Ans :=
  .next (if !s.hasPortal portal ∨ 0x400000 ≤ offset then s.emit (.unsupported portal)
    else if (s.portal portal).st = .resetting then s
    else
      let r := portal * 2 ^ 19 + offset / 8
      match shapeOf offset size with
      | .whole => doorbell (wake (s.emit (.writeDone portal)) 17) portal r offset size (data.truncate 32)
      | .half hi =>
        if hi then s.emit (.writeDone portal)
        else doorbell (wake (s.emit (.writeDone portal)) 17) portal r offset size (data.truncate 32)
      | .narrow => accessSize s portal true size offset
      | .unsupported => s.emit (.unsupported portal))

/-! Entry fetch (R99 to R104). -/

/-- The entry that 64 bytes spell (Table 3.18). -/
def subEntryOf (raw : List Byte) : SubEntry :=
  { opcode := BitVec.ofNat 8 (leAt raw 0 1), flags := BitVec.ofNat 8 (leAt raw 1 1), tag := BitVec.ofNat 16 (leAt raw 2 2)
    length := BitVec.ofNat 32 (leAt raw 4 4), buffer := wordAt raw 8, resultBuf := wordAt raw 0x10, args := slice raw 0x18 40 }

/-- The opcodes of Table 3.11. -/
def knownOpcodes : List Nat :=
  [0x00, 0x01, 0x02, 0x03, 0x04, 0x10, 0x11, 0x12, 0x13, 0x20, 0x21, 0x22, 0x23, 0x30, 0x40, 0x41, 0x50, 0x60]

/-- The greatest LENGTH of an opcode without SEALED: the stated limits, zero for entries that use no buffer, else none stated (R102, R152, R298, R454, R477; log 65). -/
def lengthLimit (op : Nat) : Nat :=
  if op = 0x01 then 262144
  else if op = 0x11 then 256
  else if op = 0x30 then 0x80000000
  else if op = 0x60 then 512
  else if [0x00, 0x02, 0x03, 0x04, 0x12, 0x21, 0x23].contains op then 0
  else 0xFFFFFFFF

/-- The entry is malformed: a reserved bit, an unknown OPCODE or a LENGTH beyond its limit (R102). -/
def malformedEntry (e : SubEntry) : Bool :=
  decide (8 ≤ e.flags.toNat) || !knownOpcodes.contains e.opcode.toNat ||
    (if e.flags.getLsbD 0 then decide (65584 < e.length.toNat) else decide (lengthLimit e.opcode.toNat < e.length.toNat))

/-- The roles that may submit an opcode (Table 3.11). -/
def roleMay (role : Role) (op : Nat) : Bool :=
  match role with
  | .none => op == 0
  | .steward => op != 0x40 && op != 0x41
  | .party => [0x00, 0x01, 0x02, 0x03, 0x04, 0x22, 0x23, 0x40, 0x41, 0x50].contains op
  | .auditor => [0x00, 0x04, 0x22, 0x50].contains op

/-- The status with which the sealing rules refuse an entry: R103, and R104 for KEY_SHARE and CONSENT. -/
def sealRefusal (g : Ring) (e : SubEntry) : Option Nat :=
  let sealedBit := e.flags.getLsbD 0
  if !sealedBit && (e.opcode == 0x40 || e.opcode == 0x41) then some stDenied
  else if g.confidential && e.opcode != 0 && (!sealedBit || e.resultBuf == 0) then some stDenied
  else if !g.confidential && sealedBit then some stInvalid
  else none

/-- The paired COMPLETE ring has no free slot (R100). -/
def completeFull (s : State) (g : Ring) : Bool :=
  match s.eng.rings.get g.paired with
  | none => false
  | some c => decide (c.size ≤ c.occ) || c.waiting != []

/-- The next entry of a SUBMIT ring is fetched for the engine, or for a context by its number, and checked for malformation, role and sealing; false where the check has answered it (R99, R102 to R104, R82). -/
def takeEntry (s : State) (ring : Nat) (g : Ring) (raw : List Byte) (ctx : Nat) : Bool × State :=
  let e := subEntryOf raw
  let idx := g.cons
  let s := s.onRing ring fun y =>
    { y with cons := y.cons + 1, stalled := false, fetched := y.fetched ++ [{ index := idx, entry := e, ctx := ctx }] }
  let s := wakeBlocked (writeShadow s ring) ring
  if malformedEntry e then (false, errorRing (answer s ring idx stInvalid) ring stInvalid idx)
  else if !roleMay (s.portal g.owner).role e.opcode.toNat then (false, answer s ring idx stDenied)
  else match sealRefusal g e with
    | some st => (false, answer s ring idx st)
    | none => (true, s)

/-- A bus error on BASE or SHADOW moves an IDLE or ACTIVE ring to ERROR, with the engine's index and a free status (Table 3.13; log 167). -/
def busErrorRing (s : State) (ring : Nat) (g : Ring) : State :=
  if g.st = .idle ∨ g.st = .active then errorRing s.draw.2 ring (s.draw.1.toNat % 65536) (if g.kind = .submit then g.cons else g.prod) else s

/-- ENTRY_FETCH: the channel engine fetches the next entry of an ACTIVE SUBMIT ring that no context is bound to; the entries of a bound ring are its context's to take. A bus error that the engine meets at a ring of any kind, on its entries or on the SHADOW that follows, moves the ring to ERROR (R90, R99, R173; log 167). -/
def execEntryFetch (ring : Nat) (read : EntryRead) (s : State) : Ans :=
  .next (match s.eng.rings.get ring with
    | none => s
    | some g =>
      match read with
      | .baseError | .shadowError => if s.domOn 17 then busErrorRing s ring g else s
      | .entry raw =>
        if g.kind ≠ .submit ∨ g.st ≠ .active ∨ g.occ = 0 ∨ g.ctx ≠ 0 ∨ !(s.portal g.owner).ringsEn ∨ !s.domOn 17 then s
        else if completeFull s g then s.onRing ring fun y => { y with stalled := true }
        else (takeEntry s ring g raw 0).2)

/-- SUBMIT_RESUME: a slot of a full COMPLETE ring has been freed; held completions are written and consumption resumes (R100). -/
def execSubmitResume (ring : Nat) (s : State) : Ans :=
  .next (match s.eng.rings.get ring with
    | none => s
    | some g =>
      let s := drainWaiting s g.paired g.size
      if completeFull s g then s else wakeBlocked (s.onRing ring fun y => { y with stalled := false }) ring)

/-- NOP: the entry completes with no effect (Table 3.11). -/
def execNop (ring : Nat) (index : BitVec 32) (buf : List Byte) (s : State) : Ans :=
  .next (serve ring index 0x00 buf s fun _ f _ _ s => finish s ring f stOk)

/-! Partition reset (R118, R119, Table 3.24). -/

/-- Every ring of a portal is fenced, its fetched entries complete with FENCED whatever its state, and it is destroyed (Table 3.24). -/
def dropRings (s : State) (p : Nat) : State :=
  let s := fenceRings s fun _ g => g.owner == p
  let s := s.eng.rings.foldl (fun t q => if q.2.owner = p then answerAll t q.1 stFenced else t) s
  s.eng.rings.foldl (fun t q => if q.2.owner = p then dropRing t q.1 else t) s

/-- Every context of a portal ends; the confidential ones are scrubbed, and the portal's tables go with the last (R118, R320). -/
def dropCtxs (s : State) (p : Nat) : State :=
  s.eng.ctxs.foldl (fun t q =>
    if q.2.portal ≠ p ∨ isSystem q.1 then t else if q.2.confidential then scrubCtx t q.1 q.2 else endCtx t q.1 stFenced) s

/-- The portal's own registers after a partition reset: mailboxes empty, session ended, PT_CTRL, PT_ACCESS_LOG and CH_ at reset, but for the status FENCED of a command that it interrupts; fault slots, role, policy, MSI-X table and IU_SEL kept (R119, Table 3.24; log 168). -/
def Portal.afterReset (q : Portal) (fenced : Bool) (now : Nat) : Portal :=
  { st := .resetting, role := q.role, hewerLimit := q.hewerLimit, peerHash := q.peerHash, first := q.first, next := q.next
    queue := q.queue, spoil := q.spoil, words := q.words, iuSel := q.iuSel, fenceAfter := fenced, resetAt := now
    cmdStatus := if q.cmdBusy then BitVec.ofNat 16 stFenced else 0, cmdTag := if q.cmdBusy then q.cmdTag else 0 }

/-- Accesses that a portal holds for a waking domain end with an error to their originator (R73). -/
def endHeld (s : State) (p : Nat) : State :=
  (s.emits ((s.portal p).held.map fun _ => Out.unsupported p)).onPortal p fun q => { q with held := [] }

/-- The MSI-X table of a portal after a reset that the PCI Express link starts (Table 3.24; log 169). -/
def clearMsix (s : State) (p : Nat) : State := s.onPortal p fun q => { q with words := [] }

/-- LH_RESET_STATUS takes the level and the cause of a reset that starts (Table 11.11). -/
def setLast (s : State) (level : Nat) (c : Cause) : State := s.onPower fun p => { p with lastLevel := level, cause := BitVec.ofNat 8 c.num }

/-- LAST_US of a reset that ends, from its start. -/
def setLastUs (s : State) (start : Nat) : State := s.onPower fun p => { p with lastUs := satAdd 0xFFFFFFFF ((s.now - start) / 1000) 0 }

/-- A partition reset starts and has its effects; a portal that is already resetting merges it (R118, R360). -/
def partitionReset (s : State) (p : Nat) (fenced : Bool) (c : Cause) : State :=
  if !s.hasPortal p then s
  else if (s.portal p).st = .resetting then s.onPortal p fun q => { q with fenceAfter := q.fenceAfter || fenced }
  else
    let s := dropCtxs (dropRings (endHeld s p) p) p
    setLast (s.onPortal p fun q => q.afterReset fenced s.now) 3 c

/-- PT_RESET_GO: a write of PT_RESET with GO 1. -/
def execPtResetGo (portal : Nat) (s : State) : Ans :=
  .next (if !s.portalOpen portal then s.emit (.unsupported portal) else partitionReset (s.emit (.writeDone portal)) portal false .software)

/-- PCIE_RESET_EVENT: a Function Level Reset, a hot reset or a loss of link; its cause reads SOFTWARE (log 30). -/
def execPcieResetEvent (portal : Nat) (s : State) : Ans :=
  .next (if s.hasPortal portal then clearMsix (partitionReset s portal false .software) portal else s)

/-- PCIE_CONFIG_REQUEST: retry status until the first licence evaluation has ended, and during a partition reset (R7, R119). -/
def execPcieConfigRequest (portal : Nat) (s : State) : Ans :=
  .next (if !s.hasPortal portal then s
    else s.emit (.cfg portal (!s.lic.evaluated || (s.portal portal).st == .resetting)))

end Sys2Proof.Machine
end

