-- ==== Sys2Proof/Machine/Tables.lean ====
section
/-! DEFINITION. The table group on the controller, apart from TPUSH (R168, R169). -/

namespace Sys2Proof.Machine

/-- Table id of a handle. -/
def handleId (h : Word) : Nat := fld h 63 48

/-- Element index of a handle. -/
def handleIndex (h : Word) : Nat := fld h 47 0

/-- A fabric-model table that nothing has written: zero words in a shape that the spec leaves open (R168, log 150). -/
def blankModelTable (id : Nat) : Table :=
  { portal := systemOwner, es := (Config.modelTable id).1 % 7, count := (Config.modelTable id).2 }

/-- A table by its id: tables 0x0001 to 0x00FF, which form the fabric model, always exist (R168). -/
def tableOf (s : State) (id : Nat) : Option Table :=
  match s.eng.tables.get id with
  | some t => some t
  | none => if 1 ≤ id ∧ id < 0x100 then some (blankModelTable id) else none

/-- The table that a context reaches by an id: its portal's, a fabric-model table, or for a system context any table (R168). -/
def tableFor (s : State) (c id : Nat) : Option Table :=
  match tableOf s id with
  | none => none
  | some t =>
    if id = 0 then none
    else if id < 0x100 ∨ isSystem c ∨ t.portal = ctxPortal c then some t else none

/-- The word of an element, read. -/
def Table.word (t : Table) (idx w : Nat) : Word := t.words.getD (idx * 2 ^ t.es + w) 0

/-- Writes a word of an element. -/
def Table.setWord (t : Table) (idx w : Nat) (v : Word) : Table := { t with words := t.words.put (idx * 2 ^ t.es + w) v 0 }

/-- The check of a table access to words w to w + n − 1: ACCESS before HANDLE (R164). -/
def tableCheck (s : State) (c : Nat) (h : Word) (ws : List Nat) (store : Bool) : Except Exc Table :=
  if store && decide (handleId h < 0x100) && decide (handleId h ≠ 0) && !isSystem c then .error { code := xAccess, info := h }
  else match tableFor s c (handleId h) with
    | none => .error { code := xHandle, info := h }
    | some t =>
      if t.count ≤ handleIndex h ∨ ws.any (fun w => decide (2 ^ t.es ≤ w)) then .error { code := xHandle, info := h }
      else .ok t

/-- Changes a table that exists. -/
def State.onTable (s : State) (id : Nat) (f : Table → Table) : State :=
  match tableOf s id with
  | none => s
  | some t => s.onEng fun e => { e with tables := e.tables.set id (f t) }

/-- A table instruction of a hewer on one word; on the agent `agent` answers. -/
def tableIns (who : Who) (i : Ins) (r : Row) (s : State) (ctx : State → Nat → Core → State) (agent : State → Nat → Core → State) : State :=
  runIns who i r none s fun s c =>
    match who with
    | .ctx n => ctx s n c
    | .agent id => agent s id c

/-- TLD: g[d] := word IMM[5:0] of element a. -/
def execTld (who : Who) (i : Ins) (s : State) : Ans :=
  .next (tableIns who i { op := 0x70, srcb := .unused, imm := 0x3F } s
    (fun s n c =>
      match tableCheck s n (c.opA i) [i.imm.toNat % 64] false with
      | .error e => raiseExc s who c.pc e
      | .ok t => doneCached who s 6 1 fun c => c.setG i.dst.toNat (t.word (handleIndex (c.opA i)) (i.imm.toNat % 64)))
    (fun s id c =>
      match agentTableRead s id (c.opA i) (i.imm.toNat % 64) with
      | none => raiseExc s who c.pc { code := xHandle, info := c.opA i }
      | some v => setCore s who ((c.setG i.dst.toNat v).retire 3)))

/-- TST: word IMM[5:0] of element a := b; on the agent only staging copies take stores. -/
def execTst (who : Who) (i : Ins) (s : State) : Ans :=
  .next (tableIns who i { op := 0x71, dst := .unused, imm := 0x3F } s
    (fun s n c =>
      match tableCheck s n (c.opA i) [i.imm.toNat % 64] true with
      | .error e => raiseExc s who c.pc (e.told 0x71 i (c.opA i))
      | .ok _ =>
        let s := s.onTable (handleId (c.opA i)) fun t => t.setWord (handleIndex (c.opA i)) (i.imm.toNat % 64) (c.opB i)
        doneCached who s 6 1 id)
    (fun s id c =>
      match agentTableWrite s id (c.opA i) (i.imm.toNat % 64) (c.opB i) with
      | .error code => raiseExc s who c.pc (({ code := code, info := c.opA i } : Exc).told 0x71 i (c.opA i))
      | .ok s => setCore s who (c.retire 3)))

/-- The words that the active lanes name: IMM[5:0] + lane. -/
def laneWords (c : Core) (i : Ins) : List Nat := (c.active i).map fun n => i.imm.toNat % 64 + n

/-- TVLD: table words into the active lanes. -/
def execTvld (who : Who) (i : Ins) (s : State) : Ans :=
  .next (tableIns who i { op := 0x72, dst := .v, srcb := .unused, imm := 0x3F, profile := false } s
    (fun s n c =>
      match tableCheck s n (c.opA i) (laneWords c i) false with
      | .error e => raiseExc s who c.pc e
      | .ok t => doneCached who s 12 16 fun c =>
          c.mapLanes i fun l => t.word (handleIndex (c.opA i)) (i.imm.toNat % 64 + l))
    (fun s _ _ => s))

/-- TVST: the active lanes into table words. -/
def execTvst (who : Who) (i : Ins) (s : State) : Ans :=
  .next (tableIns who i { op := 0x73, dst := .v, srcb := .unused, imm := 0x3F, profile := false } s
    (fun s n c =>
      match tableCheck s n (c.opA i) (laneWords c i) true with
      | .error e => raiseExc s who c.pc (e.told 0x73 i (c.opA i))
      | .ok _ =>
        let s := s.onTable (handleId (c.opA i)) fun t =>
          (c.active i).foldl (fun u l => u.setWord (handleIndex (c.opA i)) (i.imm.toNat % 64 + l) (c.laneD i l)) t
        doneCached who s 12 16 id)
    (fun s _ _ => s))

/-- TAMO: indivisible read-modify-write of a table word; g[d] := old. -/
def execTamo (who : Who) (i : Ins) (s : State) : Ans :=
  .next (tableIns who i { op := 0x74, mods := [0, 1, 2, 3, 4, 5, 6, 7, 8], imm := 0x3F, profile := false } s
    (fun s n c =>
      match tableCheck s n (c.opA i) [i.imm.toNat % 64] true with
      | .error e => raiseExc s who c.pc (e.told 0x74 i (c.opA i))
      | .ok t =>
        let old := t.word (handleIndex (c.opA i)) (i.imm.toNat % 64)
        let s := s.onTable (handleId (c.opA i)) fun u =>
          u.setWord (handleIndex (c.opA i)) (i.imm.toNat % 64) (amoFn i.mod.toNat old (c.opB i))
        doneCached who s 10 1 fun c => c.setG i.dst.toNat old)
    (fun s _ _ => s))

/-- Bytes of a table. -/
def Table.bytes (t : Table) : Nat := t.count * 8 * 2 ^ t.es

/-- TNEW: g[d] := handle of element 0 of a new zeroed table of a elements; 0 when the portal's 4,096 tables or the table space are used up. The size of the table space the spec does not give: Config.tableSpace (log 9). -/
def execTnew (who : Who) (i : Ins) (s : State) : Ans :=
  .next (tableIns who i { op := 0x75, mods := [0, 1, 2, 3, 4, 5, 6], srcb := .unused, profile := false } s
    (fun s n c =>
      let owner := tableOwner n
      let t : Table := { portal := owner, es := i.mod.toNat, count := (c.opA i).toNat
                         island := ((s.eng.ctxs.get n).map fun x => if x.confidential then x.island else 0).getD 0 }
      let used := s.eng.tables.foldl (fun k q => k + q.2.bytes) 0
      let mine := (s.eng.tables.filter fun q => q.2.portal == owner && decide (0x100 ≤ q.1)).length
      match findFrom (fun id => (s.eng.tables.get id).isNone) 65280 0x100 with
      | none => setCore s who ((c.setG i.dst.toNat 0).retire 200)
      | some id =>
        if 4096 ≤ mine ∨ Config.tableSpace < used + t.bytes then setCore s who ((c.setG i.dst.toNat 0).retire 200)
        else
          let s := s.onEng fun e => { e with tables := e.tables.set id t }
          setCore s who ((c.setG i.dst.toNat (at_ id 48)).retire 200))
    (fun s _ _ => s))

/-- TFREE: frees the table of handle a. -/
def execTfree (who : Who) (i : Ins) (s : State) : Ans :=
  .next (tableIns who i { op := 0x76, dst := .unused, srcb := .unused, profile := false } s
    (fun s n c =>
      if handleId (c.opA i) < 0x100 ∧ handleId (c.opA i) ≠ 0 ∧ !isSystem n then
        raiseExc s who c.pc { code := xAccess, info := encodeWord 0x76 i }
      else match tableFor s n (handleId (c.opA i)) with
        | none => raiseExc s who c.pc { code := xHandle, info := c.opA i }
        | some _ =>
          let s := s.onEng fun e => { e with tables := e.tables.del (handleId (c.opA i)) }
          setCore s who (c.retire 200))
    (fun s _ _ => s))

end Sys2Proof.Machine
end

