-- ==== Sys2Proof/Machine/Msgs.lean ====
section
/-! DEFINITION. Messages, mailboxes, rings from contexts, time and sleep, and the trust and check instructions that act at once (R171 to R180, R389). -/

namespace Sys2Proof.Machine

/-- Completes an instruction of a core that the operation may have changed. -/
def fin (s : State) (who : Who) (cost : Nat) (f : Core → Core) : State :=
  match coreOf s who with
  | none => s
  | some c => setCore s who ((f c).retire cost)

/-- Completes an instruction that writes a status to g[d]. -/
def finG (s : State) (who : Who) (i : Ins) (cost v : Nat) : State := fin s who cost fun c => c.setG i.dst.toNat (BitVec.ofNat 64 v)

/-- The pending causes that an instruction awaiting a mask delivers: those of the mask, and STOP always (R157). -/
def Core.deliverable (c : Core) (mask : BitVec 6) : BitVec 6 := c.causes &&& (mask ||| 0x20)

/-- Clears delivered causes (R157). -/
def Core.clearCauses (c : Core) (m : BitVec 6) : Core := { c with causes := c.causes &&& ~~~m }

/-- What runs the instruction waits for a cause: HALTED, or BLOCKED on a ring with its WAITS_ON edge; a STOPPING context stays STOPPING (Table 5.2, R155, R173). -/
def waitFor (s : State) (who : Who) (mask : BitVec 6) (untilT : Option Nat) (block : Option (Nat × Option Nat)) : State :=
  match who with
  | .agent id => s.onAgent id fun a => { a with core := { a.core with awaits := some mask, untilT := untilT } }
  | .ctx n =>
    let s := s.onCtx n fun x =>
      { x with st := if x.st = .stopping then .stopping else if block.isSome then .blocked else .halted, blockedOn := (block.map (·.1)).getD 0
               core := { x.core with awaits := some mask, untilT := untilT } }
    match block.bind (·.2), (s.eng.ctxs.get n).bind (·.ring) with
    | some target, some r => s.onRing r fun g => { g with waitsOn := some target, waitCtx := n }
    | _, _ => s

/-- A place aligned to n bytes, else MISALIGNED. -/
def aligned (addr : Word) (n : Nat) : Option Exc := if addr.toNat % n ≠ 0 then some { code := xMisaligned, info := addr } else none

/-! MSEND and MRECV (R171, R172, R186). -/

/-- The header that MSEND sends: DST, TYPE, MCAST and MDIM by the instruction, OPCODE MESSAGE unless a system context sends, and what hardware fills at zero (R186, Table 5.10). -/
def msendHdr (i : Ins) (bs : List Byte) (dst : FAddr) (src : FAddr) (system : Bool) : Hdr :=
  let h := hdrOf bs
  let op := if system then h.opcode else 4
  let cast := if i.mod = 1 then 1 + 2 * (i.imm.toNat % 4) else 0
  { h with w0 := BitVec.ofNat 32 (dst.toNat + 2 ^ 28), w1 := src.zeroExtend 32, epoch := 0, pkey := 0, seq := 0
           route := routeOf 2 false 0 0, h12 := BitVec.ofNat 16 (op * 256 + bits h.h12.toNat 7 3 * 8 + cast), pchk := 0 }

/-- A portal context may reach controllers and the members of its island (R172). -/
def mayReach (s : State) (n : Nat) (dst : FAddr) : Bool :=
  isSystem n || addrKind dst == 2 || (match s.eng.ctxs.get n with
    | none => false
    | some x => x.island != 0 && ((s.isles.islands.get x.island).map fun l => l.members.contains dst).getD false)

/-- One packet of agent firmware: key 0 only toward a controller, else the island's key in its flow; BUSY while an installation holds or the window is full, FENCED on an ended flow (R49, R199, R201, R289; log 24). -/
def agentSendOne (s : State) (id : Nat) (h : Hdr) : Nat × State :=
  match s.agents.get id with
  | none => (stOk, s)
  | some a =>
    if addrKind h.dst = 2 then (stOk, launch s id { hdr := h })
    else
      let h := a.stamp h
      if h.sequenced ∧ (a.flowOf h).ended then (stFenced, s)
      else if a.tsHolds h ∨ a.windowFull h then (stBusy, s)
      else if h.dst = a.addr then (stOk, sendLocal s id { hdr := h })
      else (stOk, sendOwn s id a { hdr := h })

/-- The destinations of a send: one, or for .DIM on an agent the ends of both spans of its ring through b (R203, log 23). -/
def sendTargets (s : State) (a : Agent) (i : Ins) (dst : FAddr) : List FAddr :=
  if i.mod = 0 then [dst]
  else
    let k := i.imm.toNat % 4
    let n := s.dim k
    let up := n / 2
    let down := (n + 1) / 2 - 1
    (if up = 0 then [] else [withCoord dst k ((coordOf a.addr k + up) % n)]) ++
      (if down = 0 then [] else [withCoord dst k ((coordOf a.addr k + n - down) % n)])

/-- The destinations of a context's send: one; for .DIM, since the controller has no place on a ring, each position of the ring through b that the context may reach, in ascending coordinate (R171, R203; log 174). -/
def ctxTargets (s : State) (n : Nat) (i : Ins) (dst : FAddr) : List FAddr :=
  if i.mod = 0 then [dst]
  else ((List.range (s.dim (i.imm.toNat % 4))).map fun x => withCoord dst (i.imm.toNat % 4) x).filter fun a => s.valid a && mayReach s n a

/-- MSEND: sends the 32-byte control packet at a to b; g[d] := status. -/
def execMsend (who : Who) (i : Ins) (s : State) : Ans :=
  .next (runIns who i { op := 0x80, mods := [0, 1], imm := if i.mod = 1 then 3 else 0 } none s fun s c =>
    match aligned (c.opA i) 32 with
    | some e => raiseExc s who c.pc e
    | none =>
      match loadRange s who (c.opA i) 32 with
      | .error e => raiseExc s who c.pc e
      | .ok bs =>
        let dst : FAddr := (c.opB i).truncate 28
        match who with
        | .ctx n =>
          if !mayReach s n dst then raiseExc s who c.pc { code := xAccess, info := encodeWord 0x80 i }
          else if fld (c.opB i) 63 28 ≠ 0 ∨ !s.ctrlValid dst then raiseExc s who c.pc { code := xAddress, info := c.opB i }
          else
            let t := (ctxTargets s n i dst).foldl (fun t d =>
              t.emit (.ctrlPkt ({ hdr := msendHdr { i with mod := 0 } bs d s.ctrlAddr (isSystem n) } : Pkt).sealed)) s
            correctRange (finG t who i 8 stOk) who (c.opA i) 32
        | .agent id =>
          match s.agents.get id with
          | none => s
          | some a =>
            if fld (c.opB i) 63 28 ≠ 0 ∨ !s.valid dst then raiseExc s who c.pc { code := xAddress, info := c.opB i }
            else
              let r := (sendTargets s a i dst).foldl (fun (q : Nat × State) d =>
                if q.1 = stOk then agentSendOne q.2 id (msendHdr i bs d a.addr false) else q) (stOk, s)
              correctRange (finG r.2 who i 6 r.1) who (c.opA i) 32)

/-- MRECV: writes the oldest queued packet at a and g[d] := 1; else g[d] := 0, or .WAIT waits for MESSAGE. -/
def execMrecv (who : Who) (i : Ins) (s : State) : Ans :=
  .next (runIns who i { op := 0x81, mods := [0, 1], srcb := .unused } none s fun s c =>
    match c.msgs with
    | p :: rest =>
      match aligned (c.opA i) 32 with
      | some e => raiseExc s who c.pc e
      | none =>
        match storeRangeOk s who (c.opA i) 32 with
        | some e => raiseExc s who c.pc e
        | none => fin (storeRange s who (c.opA i) p) who (who.cost 6 4) fun c =>
            let c := if i.mod = 1 then c.clearCauses 0x08 else c
            { c with msgs := rest }.setG i.dst.toNat 1
    | [] =>
      if i.mod = 0 then finG s who i (who.cost 6 4) 0
      else if c.deliverable 0x08 = 0 then waitFor s who 0x08 none none
      else fin s who (who.cost 6 4) fun c => (c.clearCauses (c.deliverable 0x08)).setG i.dst.toNat 0)

/-- MESSAGE: a MESSAGE packet that reaches the controller is queued for its context with cause MESSAGE, or dropped with MSG_DROP at a full queue; one for no context, or for an index to which this unit does not answer, is dropped (R23, R172). -/
def execMessage (hdr : Hdr) (s : State) : Ans :=
  .next (match s.answersTo hdr.dst, s.eng.ctxs.get hdr.context with
    | false, _ => s
    | true, none => s
    | true, some x =>
      let dom := match x.hewer with
        | none => 17
        | some (b, _) => b + 1
      if 64 ≤ x.core.msgs.length then s.fault dom 63 0x041 .note
      else setCause (s.onCtx hdr.context fun y => { y with core := { y.core with msgs := y.core.msgs ++ [hdr.bytes] } }) hdr.context causeMessage)

/-! Mailboxes (R108, R110 to R112, R235, R236). -/

/-- A context writes incoming mailbox n: DENIED unless bound to it, BUSY and MB_OVF when full; the vector follows the full flag. -/
def mboxWrite (s : State) (c n : Nat) (w : Word) : Nat × State :=
  match s.eng.ctxs.get c with
  | none => (stDenied, s)
  | some x =>
    let m := (s.portal x.portal).mbi.getD n {}
    if m.ctx ≠ c then (stDenied, s)
    else if m.full then (stBusy, s.onPortal x.portal fun p => { p with mbi := p.mbi.set n { m with ovf := true } })
    else
      let s := s.onPortal x.portal fun p => { p with mbi := p.mbi.set n { m with word := w, full := true } }
      (stOk, if (s.portal x.portal).mbIrqEn then s.emit (.msix x.portal n) else s)

/-- The agent writes AG_MB_OUT, which is sent to the controller until it is answered (R236). -/
def agentMboxWrite (s : State) (id : Nat) (w : Word) : Nat × State :=
  match s.agents.get id with
  | none => (stBusy, s)
  | some a =>
    if a.outFull then (stBusy, s)
    else
      let tag := BitVec.ofNat 32 a.integ.nextTag
      (stOk, (sendMbOut s id tag w).onAgent id fun x =>
        { x with mbOut := w, outFull := true, outTag := tag, integ := { x.integ with nextTag := x.integ.nextTag + 1 } })

/-- MBWR: writes a to incoming mailbox IMM[5:0], on the agent to its mailbox to the controller; g[d] := status. -/
def execMbwr (who : Who) (i : Ins) (s : State) : Ans :=
  .next (runIns who i { op := 0x82, srcb := .unused, imm := 0x3F } none s fun s c =>
    match who with
    | .ctx n => finG (mboxWrite s n (i.imm.toNat % 64) (c.opA i)).2 who i 4 (mboxWrite s n (i.imm.toNat % 64) (c.opA i)).1
    | .agent id => finG (agentMboxWrite s id (c.opA i)).2 who i 3 (agentMboxWrite s id (c.opA i)).1)

/-- The word that MBRD finds, none when its channel is empty, or ACCESS when it is not bound to the context. -/
def mboxRead (s : State) (who : Who) (n : Nat) : Except Exc (Option Word) :=
  match who with
  | .ctx c =>
    match s.eng.ctxs.get c with
    | none => .ok none
    | some x =>
      let m := (s.portal x.portal).mbo.getD n {}
      if m.ctx ≠ c then .error { code := xAccess, info := BitVec.ofNat 64 n }
      else .ok (if m.full then some m.word else none)
  | .agent id =>
    match s.agents.get id with
    | none => .ok none
    | some a => .ok (if a.inFull then some a.mbIn else none)

/-- MBRD clears the full flag of the channel that it read. -/
def mboxClear (s : State) (who : Who) (n : Nat) : State :=
  match who with
  | .ctx c =>
    match s.eng.ctxs.get c with
    | none => s
    | some x => s.onPortal x.portal fun p => { p with mbo := p.mbo.upd n fun m => { m with word := 0, full := false } }
  | .agent id => s.onAgent id fun a => { a with inFull := false }

/-- MBRD: g[d] := word of a full bound outgoing mailbox with k[SRCB] := all ones; else zeros, or .WAIT waits for MAILBOX. -/
def execMbrd (who : Who) (i : Ins) (s : State) : Ans :=
  .next (runIns who i { op := 0x83, mods := [0, 1], srca := .unused, srcb := .k, imm := 0x3F } none s fun s c =>
    match mboxRead s who (i.imm.toNat % 64) with
    | .error e => raiseExc s who c.pc (e.told 0x83 i 0)
    | .ok (some w) => fin (mboxClear s who (i.imm.toNat % 64)) who (who.cost 4 3) fun c =>
        let c := if i.mod = 1 then c.clearCauses 0x02 else c
        (c.setG i.dst.toNat w).setK i.srcb.toNat 0xFFFF
    | .ok none =>
      if i.mod = 1 ∧ c.deliverable 0x02 = 0 then waitFor s who 0x02 none none
      else fin s who (who.cost 4 3) fun c =>
        let c := if i.mod = 1 then c.clearCauses (c.deliverable 0x02) else c
        (c.setG i.dst.toNat 0).setK i.srcb.toNat 0)

/-! RPOP and RPUSH (R173, R174). -/

/-- A form that finds its ring empty or full: BUSY; .WAIT with RING or STOP pending delivers them and returns at once, with a status that the spec does not state (a free value, log 171); else it blocks on the ring (R157, R173). -/
def ringWait (s : State) (who : Who) (i : Ins) (c : Core) (isWait : Bool) (r : Nat) (edge : Option Nat) : State :=
  if !isWait then finG s who i 40 stBusy
  else if c.deliverable 0x04 = 0 then waitFor s who 0x04 none (some (r, edge))
  else fin s.draw.2 who 40 fun d => (d.clearCauses (c.deliverable 0x04)).setG i.dst.toNat s.draw.1

/-- A ring instruction completes with a status; its .WAIT form delivers the RING that it found or awaited (R157). -/
def finRing (s : State) (who : Who) (i : Ins) (isWait : Bool) (cost v : Nat) : State :=
  fin s who cost fun c => (if isWait then c.clearCauses 0x04 else c).setG i.dst.toNat (BitVec.ofNat 64 v)

/-- The entry that a context pops: a NOP of a confidential ring comes without its inline ARGS, which are never read (R103). -/
def poppedEntry (g : Ring) (host : List Byte) : List Byte :=
  if g.confidential then slice host 0 24 ++ List.replicate 40 0 else slice host 0 64

/-- RPOP of the bound SUBMIT ring: `host` is the entry followed by the record at its BUFFER. An entry that the engine may not take yet, while the paired COMPLETE ring is full, the portal's rings are off, or its FENCE waits, counts as none (R99, R100; log 171). -/
def popSubmit (s : State) (who : Who) (n r : Nat) (g : Ring) (i : Ins) (c : Core) (host : List Byte) : State :=
  let e := subEntryOf host
  let isWait := i.mod == 1
  if g.stopped then finRing s who i isWait 40 stFenced
  else if g.occ ≠ 0 ∧ completeFull s g then ringWait s who i c isWait g.paired none
  else if g.occ = 0 ∨ !(s.portal g.owner).ringsEn ∨ (e.flags.getLsbD 1 ∧ g.fetched ≠ []) then ringWait s who i c isWait r none
  else
    let (ok, t) := takeEntry s r g host n
    if !ok then t
    else if e.flags.getLsbD 0 then
      match openRecord t g.owner r g.cons (host.drop 64) e.length.toNat with
      | (none, u) => finRing (sealRejected u g.owner r g.cons) who i isWait 200 stSeal
      | (some plain, u) =>
        match storeRangeOk s who (c.opA i + 64) (plain.length - 40) with
        | some x => raiseExc s who c.pc x
        | none =>
          finRing (storeRange u who (c.opA i) (slice host 0 24 ++ slice plain 0 40 ++ plain.drop 40)) who i isWait
            (200 + plain.length / 8) (stOk + plain.length * 65536)
    else finRing (storeRange t who (c.opA i) (poppedEntry g host)) who i isWait 40 stOk

/-- The SUBMIT ring paired with a COMPLETE ring, the lowest where there are several. -/
def pairedSubmit (s : State) (r : Nat) : Option Nat :=
  (s.eng.rings.find? fun q => q.2.kind == .submit && q.2.paired == r).map (·.1)

/-- RPOP of a COMPLETE ring of the portal. -/
def popComplete (s : State) (who : Who) (r : Nat) (g : Ring) (i : Ins) (c : Core) (host : List Byte) : State :=
  if g.stopped then finRing s who i (i.mod == 1) 40 stFenced
  else if g.occ = 0 then ringWait s who i c (i.mod == 1) r (pairedSubmit s r)
  else
    let s := wakeBlocked (settleRing (s.onRing r fun y => { y with cons := y.cons + 1 }) r) r
    finRing (storeRange s who (c.opA i) (slice host 0 64)) who i (i.mod == 1) 40 stOk

/-- The bound ring of a context. -/
def boundRing (s : State) (n : Nat) : Option (Nat × Ring) :=
  (s.eng.ctxs.get n).bind fun x => x.ring.bind fun r => (s.eng.rings.get r).map fun g => (r, g)

/-- A ring that a context names by g[SRCB], or RING: it exists, belongs to the portal of the bound ring and is of the kind (Table 5.4, Table 5.10). -/
def namedRing (s : State) (n : Nat) (w : Word) (kind : RingKind) : Option Ring :=
  match boundRing s n, s.eng.rings.get w.toNat with
  | some (_, b), some g => if g.owner = b.owner ∧ g.kind = kind then some g else none
  | _, _ => none

/-- RPOP: the next entry of the bound SUBMIT ring, or of COMPLETE ring g[SRCB], to a; g[d] := status and plaintext length. -/
def execRpop (who : Who) (i : Ins) (host : List Byte) (s : State) : Ans :=
  .next (runIns who i { op := 0x84, mods := [0, 1], profile := false } none s fun s c =>
    match who with
    | .agent _ => s
    | .ctx n =>
      match firstExc (aligned (c.opA i) 64) (storeRangeOk s who (c.opA i) 64) with
      | some e => raiseExc s who c.pc e
      | none =>
        match boundRing s n with
        | none => raiseExc s who c.pc { code := xRing, info := c.opB i }
        | some (r, g) =>
          if c.opB i = 0 then popSubmit s who n r g i c host
          else match namedRing s n (c.opB i) .complete with
            | none => raiseExc s who c.pc { code := xRing, info := c.opB i }
            | some t => popComplete s who (c.opB i).toNat t i c host)

/-- RPUSH.CPL: the completion built at a answers a fetched entry of the bound ring, whichever context of the ring fetched it. -/
def pushCompletion (s : State) (who : Who) (r : Nat) (g : Ring) (i : Ins) (c : Core) (bs : List Byte) (isWait : Bool) : State :=
  if g.stopped then finRing s who i isWait 40 stFenced
  else match g.fetched.find? fun f => f.index.toNat == leAt bs 8 4 with
    | none => finRing s who i isWait 40 stInvalid
    | some f =>
      if completeFull s g then ringWait s who i c isWait g.paired none
      else if f.entry.flags.getLsbD 0 then
        match loadRange s who (c.opA i + 64) (c.opB i).toNat with
        | .error e => raiseExc s who c.pc e
        | .ok data =>
          let bad := (sealResult s g.owner r f (slice bs 0x18 40 ++ data)).isNone
          correctRange (finRing (finish s r f (leAt bs 4 2) (slice bs 0x18 40) data) who i isWait (200 + (40 + data.length) / 8) (if bad then stSeal else stOk))
            who (c.opA i + 64) (c.opB i).toNat
      else finRing (finish s r f (leAt bs 4 2) (slice bs 0x18 40)) who i isWait 40 stOk

/-- RPUSH.SUB: the entry at a goes into a SUBMIT ring of the same portal and its doorbell rings. -/
def pushEntry (s : State) (who : Who) (r : Nat) (g : Ring) (i : Ins) (c : Core) (bs : List Byte) (isWait : Bool) : State :=
  if g.stopped then finRing s who i isWait 40 stFenced
  else if g.size ≤ g.occ then ringWait s who i c isWait r (some r)
  else finRing (doorbellAccept (wake (s.emit (.submitEntry r g.prod bs)) 17) r g (g.prod + 1)) who i isWait 40 stOk

/-- RPUSH: .CPL answers an entry with the completion at a, .SUB submits the entry at a to ring g[SRCB]; g[d] := status. -/
def execRpush (who : Who) (i : Ins) (s : State) : Ans :=
  .next (runIns who i { op := 0x85, mods := [0, 1, 2, 3], profile := false } none s fun s c =>
    match who with
    | .agent _ => s
    | .ctx n =>
      match aligned (c.opA i) 64, loadRange s who (c.opA i) 64 with
      | some e, _ => raiseExc s who c.pc e
      | none, .error e => raiseExc s who c.pc e
      | none, .ok bs =>
        match boundRing s n with
        | none => raiseExc s who c.pc { code := xRing, info := c.opB i }
        | some (r, g) =>
          if !i.mod.getLsbD 0 then correctRange (pushCompletion s who r g i c bs (i.mod.getLsbD 1)) who (c.opA i) 64
          else match namedRing s n (c.opB i) .submit with
            | none => raiseExc s who c.pc { code := xRing, info := c.opB i }
            | some t => correctRange (pushEntry s who (c.opB i).toNat t i c bs (i.mod.getLsbD 1)) who (c.opA i) 64)

/-! Time and sleep (R157, R161, R175). -/

/-- TNOW: g[d] := fabric time, or .STATE the code of the time reference state machine, which an agent's copy does not have (a free value there; log 9). -/
def execTnow (who : Who) (i : Ins) (s : State) : Ans :=
  .next (runIns who i { op := 0x90, mods := [0, 1], srca := .unused, srcb := .unused } none s fun s _ =>
    if i.mod = 0 then finG s who i (who.cost 4 3) (s.timeOf who)
    else if who.isAgent then finG s.draw.2 who i 3 s.draw.1.toNat
    else finG s who i 4 s.time.st.num)

/-- Delivers pending awaited causes to g[d], or waits. -/
def haltFor (s : State) (who : Who) (i : Ins) (c : Core) (mask : BitVec 6) (untilT : Option Nat) : State :=
  let m := c.deliverable mask
  if m = 0 then waitFor s who mask untilT none
  else fin s who 2 fun c => (c.clearCauses m).setG i.dst.toNat (m.zeroExtend 64)

/-- HALT.UNTIL: waits for fabric time a or a cause of IMM[5:0]; g[d] := the causes delivered. -/
def execHaltUntil (who : Who) (i : Ins) (s : State) : Ans :=
  .next (runIns who i { op := 0x91, srcb := .unused, imm := 0x3F } none s fun s c =>
    let c := if (c.opA i).toNat ≤ s.timeOf who then { c with causes := c.causes ||| 1 } else c
    haltFor (setCore s who c) who i c (i.imm.truncate 6 ||| 1) (some (c.opA i).toNat))

/-- HALT.EVENT: waits for a cause of IMM[5:0]; g[d] := the causes delivered. -/
def execHaltEvent (who : Who) (i : Ins) (s : State) : Ans :=
  .next (runIns who i { op := 0x91, mods := [1], srca := .unused, srcb := .unused, imm := 0x3F } none s fun s c =>
    haltFor s who i c (i.imm.truncate 6) none)

/-- The end of a context by HALT.END is remembered for the cycle in which it falls (R156, log 172). -/
def haltEnded (s : State) (c : Nat) : State :=
  s.onEng fun e => { e with haltEnds := (c, s.now) :: e.haltEnds.filter fun q => q.2 == s.now && q.1 != c }

/-- HALT.END: the context ends, or the agent's routine does: its sequencer then rests until its firmware starts again (R175, log 26). -/
def execHaltEnd (who : Who) (i : Ins) (s : State) : Ans :=
  .next (runIns who i { op := 0x91, mods := [2], dst := .unused, srca := .unused, srcb := .unused } none s fun s _ =>
    match who with
    | .ctx n => haltEnded (endCtx s n stOk) n
    | .agent _ => waitFor (fin s who 2 id) who 0 none none)

/-! Epoch query and trust (R176, R178). -/

/-- EQUERY: g[d] := current epoch and partition key of island a[15:0], 0 when there is none; system only. -/
def execEquery (who : Who) (i : Ins) (s : State) : Ans :=
  .next (runIns who i { op := 0xA1, srcb := .unused, profile := false } none s fun s c =>
    match who with
    | .agent _ => s
    | .ctx n =>
      if !isSystem n then raiseExc s who c.pc { code := xAccess, info := encodeWord 0xA1 i }
      else
        let w := match s.isles.islands.get (fld (c.opA i) 15 0) with
          | none => 0
          | some l => if l.st = .free then 0 else at_ l.epoch 0 ||| at_ l.pkey 32
        fin s who 20 fun c => c.setG i.dst.toNat w)

/-- A parameter block with reserved fields checked, or PARAM (R162). -/
def withBlock (s : State) (who : Who) (i : Ins) (c : Core) (n : Nat) (good : List Byte → Bool) (k : List Byte → State) : State :=
  match paramBlock s who (c.opA i) n with
  | .error e => raiseExc s who c.pc e
  | .ok bs => if good bs then correctRange (k bs) who (c.opA i) n else raiseExc s who c.pc { code := xParam, info := c.opA i }

/-- Issues a ticket of the trust unit, whose domain wakes (R178). -/
def trustTicket (s : State) (who : Who) (i : Ins) (c : Core) (t : Ticket) : State :=
  issueTicket who i s c 20 { t with dom := 19 } fun _ _ s => wake s 19

/-- THASH: SHA-384 of the block's input, written at its output when the ticket completes. -/
def execThash (who : Who) (i : Ins) (s : State) : Ans :=
  .next (runIns who i { op := 0xB0, srcb := .unused, profile := false } none s fun s c =>
    withBlock s who i c 24 (fun _ => true) fun bs =>
      let dst := wordAt bs 16
      match firstExc (aligned dst 8) (storeRangeOk s who dst 48), loadRange s who (wordAt bs 0) (wordAt bs 8).toNat with
      | some e, .error f => raiseExc s who c.pc (worseExc e f)
      | some e, .ok _ => raiseExc s who c.pc e
      | none, .error f => raiseExc s who c.pc f
      | none, .ok data => correctRange (trustTicket s who i c { op := 0xB0, out := dst.toNat, data := data }) who (wordAt bs 0) (wordAt bs 8).toNat)

/-- The bytes of a range, empty where some byte cannot be read. -/
def rangeOr (s : State) (who : Who) (addr : Word) (n : Nat) : List Byte :=
  match loadRange s who addr n with
  | .error _ => []
  | .ok bs => bs

/-- TVERIFY: ECDSA P-384 verification of the hash, key and signature that the block names; an unreadable one makes the ticket INVALID (log 27). -/
def execTverify (who : Who) (i : Ins) (s : State) : Ans :=
  .next (runIns who i { op := 0xB1, srcb := .unused, profile := false } none s fun s c =>
    withBlock s who i c 24 (fun _ => true) fun bs =>
      let t := trustTicket s who i c
        { op := 0xB1, data := rangeOr s who (wordAt bs 0) 48 ++ rangeOr s who (wordAt bs 8) 97 ++ rangeOr s who (wordAt bs 16) 96 }
      correctRange (correctRange (correctRange t who (wordAt bs 0) 48) who (wordAt bs 8) 97) who (wordAt bs 16) 96)

/-- TRAND: g[d] := 64 random bits; its cost has the wake of D19 when that domain is not ON (R178; free values, log 9). -/
def execTrand (who : Who) (i : Ins) (s : State) : Ans :=
  .next (runIns who i { op := 0xB2, srca := .unused, srcb := .unused, profile := false } none s fun s _ =>
    let extra := if s.domOn 19 then 0 else s.draw.2.draw.1.toNat
    fin (wake s.draw.2.draw.2 19) who (60 + extra) fun c => c.setG i.dst.toNat s.draw.1)

/-- TMEASURE: the measurement of an island, written at the block's output when the ticket completes; system only. -/
def execTmeasure (who : Who) (i : Ins) (s : State) : Ans :=
  .next (runIns who i { op := 0xB3, srcb := .unused, profile := false } none s fun s c =>
    withBlock s who i c 16 (fun bs => fld (wordAt bs 0) 63 16 == 0) fun bs =>
      match who with
      | .agent _ => s
      | .ctx n =>
        if !isSystem n then raiseExc s who c.pc { code := xAccess, info := encodeWord 0xB3 i }
        else trustTicket s who i c { op := 0xB3, out := (wordAt bs 8).toNat, args := [wordAt bs 0] })

/-- TKEYREL: a release by the key broker, done when the ticket completes; system only. -/
def execTkeyrel (who : Who) (i : Ins) (s : State) : Ans :=
  .next (runIns who i { op := 0xB4, srcb := .unused, profile := false } none s fun s c =>
    withBlock s who i c 16 (fun bs => fld (wordAt bs 0) 63 16 == 0 && fld (wordAt bs 8) 63 32 == 0) fun bs =>
      match who with
      | .agent _ => s
      | .ctx n =>
        if !isSystem n then raiseExc s who c.pc { code := xAccess, info := encodeWord 0xB4 i }
        else trustTicket s who i c { op := 0xB4, args := [wordAt bs 0, wordAt bs 8] })

/-! Checks over memory (R179, R389). -/

/-- ICRC: g[d] := block check value of g[SRCB] bytes at a. -/
def execIcrc (who : Who) (i : Ins) (s : State) : Ans :=
  .next (runIns who i { op := 0xC0 } none s fun s c =>
    if (c.opA i).toNat % 8 ≠ 0 ∨ (c.opB i).toNat % 8 ≠ 0 then raiseExc s who c.pc { code := xMisaligned, info := c.opA i }
    else match loadRange s who (c.opA i) (c.opB i).toNat with
      | .error e => raiseExc s who c.pc e
      | .ok bs => correctRange (fin s who (who.cost 8 4 + bs.length / 8) fun c => c.setG i.dst.toNat (crc64 bs)) who (c.opA i) (c.opB i).toNat)

/-- IDIGEST: g[d] := replica digest of g[SRCB] bytes at a; on a hewer at any address and length (Table 5.15 asks alignment of ICRC alone), on the agent of host chip memory, which the command brings. The host chip's pace makes the agent's cost a free value above 40 + L/64 (R389; log 9). -/
def execIdigest (who : Who) (i : Ins) (host : List Byte) (s : State) : Ans :=
  .next (runIns who i { op := 0xC1 } none s fun s c =>
    let len := (c.opB i).toNat
    match who with
    | .ctx _ =>
      match loadRange s who (c.opA i) len with
      | .error e => raiseExc s who c.pc e
      | .ok bs => correctRange (fin s who (8 + len / 8) fun c => c.setG i.dst.toNat (digest64 bs)) who (c.opA i) len
    | .agent id =>
      match s.agents.get id with
      | none => s
      | some a =>
        if (c.opA i).toNat % 64 ≠ 0 ∨ len % 64 ≠ 0 then raiseExc s who c.pc { code := xMisaligned, info := c.opA i }
        else if a.hc.memGib * 2 ^ 30 < (c.opA i).toNat + len then raiseExc s who c.pc { code := xMemSpace, info := c.opA i }
        else fin (s.draw.2.emit (.hostRead id (c.opA i) len)) who (40 + len / 64 + s.draw.1.toNat) fun c => c.setG i.dst.toNat (digest64 (slice host 0 len)))

end Sys2Proof.Machine
end

