-- ==== Sys2Proof/Machine/TableSet.lean ====
section
/-! DEFINITION. What the controller builds for a table set: routes, exceptions, detours, ports, slots and parameters of each member, and the circuits of each switch (R30, R47, R191, R278 to R283, R295, R296, R299). -/

namespace Sys2Proof.Machine

/-! The region that a table set serves: an island, or the whole fabric for unassigned endpoints. -/

/-- A region: corner and extents by dimension, W first, and its members. -/
structure Region where
  /-- Low corner: W, X, Y, Z -/
  low : List Nat
  /-- Extents: W, X, Y, Z -/
  shape : List Nat
  /-- Members, ascending fabric addresses -/
  members : List FAddr
  deriving DecidableEq, Repr

/-- Entry of dimension k (3 W to 0 Z) of a list that begins with W. -/
def axis (l : List Nat) (k : Nat) : Nat := l.getD (3 - k) 0

/-- Position of coordinate c of dimension k inside the region. -/
def Region.rel (g : Region) (s : State) (k c : Nat) : Nat := (c + s.dim k - axis g.low k) % s.dim k

/-- The ring of dimension k is closed inside the region. -/
def Region.closed (g : Region) (s : State) (k : Nat) : Bool := axis g.shape k == s.dim k

/-- Coordinate c lies in the region's span of dimension k. -/
def Region.spans (g : Region) (s : State) (k c : Nat) : Bool := decide (g.rel s k c < axis g.shape k)

/-- The port of a direction: +W, −W, +X, −X, +Y, −Y, +Z, −Z (Table 1.5). -/
def dirPort (k : Nat) (down : Bool) : Nat := 2 * (3 - k) + (if down then 1 else 0)

/-- Dimension of a port. -/
def portDim (p : Nat) : Nat := 3 - p / 2

/-- Whether a packet at coordinate own of dimension k goes down toward coordinate c (R279). -/
def Region.down (g : Region) (s : State) (k own c : Nat) : Bool :=
  if g.closed s k then goesDown (s.dim k) own c else decide (g.rel s k c < g.rel s k own)

/-- The DIM entry of a member for coordinate c of dimension k (R279); its own coordinate is VALID, so that the run of R373 holds it. -/
def Region.dimEntry (g : Region) (s : State) (a : FAddr) (k c : Nat) : Word :=
  if decide (s.dim k ≤ c) || !g.spans s k c then 0
  else at_ 1 4 ||| at_ (dirPort k (g.down s k (coordOf a k) c)) 0

/-- The first dimension of W, X, Y, Z in which two addresses differ (R195). -/
def firstDim (a d : FAddr) : Option Nat := [3, 2, 1, 0].find? fun k => coordOf a k != coordOf d k

/-- The port that dimension order names, none at the destination. -/
def Region.dimPort (g : Region) (s : State) (a d : FAddr) : Option Nat :=
  (firstDim a d).map fun k => dirPort k (g.down s k (coordOf a k) (coordOf d k))

/-- The neighbour in the torus of an address by a port. -/
def torusNbr (s : State) (a : FAddr) (p : Nat) : FAddr :=
  let k := portDim p
  withCoord a k (stepCoord (s.dim k) (coordOf a k) (p % 2 == 1))

/-- The dimension-order path stays inside the region, over ports with a live link: a dead port ends it as a lost position does (R47, R280; log 181). -/
def Region.straight (g : Region) (s : State) (d : FAddr) : Nat → FAddr → Bool
  | 0, a => a == d
  | fuel + 1, a =>
    match g.dimPort s a d with
    | none => true
    | some p => portSt s a p == 0 && g.members.contains (torusNbr s a p) && g.straight s d fuel (torusNbr s a p)

/-- Steps enough for any dimension-order path (R18). -/
abbrev pathFuel : Nat := 128

/-! Distances over links, level by level. -/

/-- Adds the neighbours of a level that have no distance yet. -/
def nextLevel (nbrs : FAddr → List FAddr) (d : Nat) (m : FMap Nat) (level : List FAddr) : FMap Nat × List FAddr :=
  level.foldl (fun acc v => (nbrs v).foldl (fun acc n =>
    if (acc.1.get n.toNat).isSome then acc else (acc.1.set n.toNat d, acc.2 ++ [n])) acc) (m, [])

/-- Distances from a set of vertices. -/
def distances (nbrs : FAddr → List FAddr) : Nat → Nat → List FAddr → FMap Nat → FMap Nat
  | 0, _, _, m => m
  | fuel + 1, d, level, m =>
    if level = [] then m
    else
      let r := nextLevel nbrs d m level
      distances nbrs fuel (d + 1) r.2 r.1

/-- Distances from some vertices over the neighbours given. -/
def distFrom (nbrs : FAddr → List FAddr) (fuel : Nat) (src : List FAddr) : FMap Nat :=
  distances nbrs fuel 1 src (src.foldl (fun m a => m.set a.toNat 0) [])

/-- Ports with a live link, straits among them. -/
def livePorts (s : State) (a : FAddr) : List Nat := (List.range 8).filter fun p => portSt s a p == 0 || portSt s a p == 2

/-- Neighbours over live links (R280, R278). -/
def liveNbrs (s : State) (a : FAddr) : List FAddr := (livePorts s a).map (portNbr s a)

/-- Levels enough for any search of the plan. -/
def searchFuel (s : State) : Nat := s.dim 3 * s.dim 2 * s.dim 1 * s.dim 0 + 1

/-- The lowest port of those given whose neighbour is nearer. -/
def nearerPort (s : State) (m : FMap Nat) (a : FAddr) (ps : List Nat) : Option Nat :=
  match m.get a.toNat with
  | none => none
  | some d => ps.find? fun p =>
      match m.get (portNbr s a p).toNat with
      | none => false
      | some e => e < d

/-! EXCEPTION entries (R280). -/

/-- Ports that stay inside the region. -/
def Region.ports (g : Region) (s : State) (a : FAddr) : List Nat :=
  (List.range 8).filter fun p => portSt s a p == 0 && g.members.contains (portNbr s a p)

/-- Distances to a member inside the region. -/
def Region.distTo (g : Region) (s : State) (d : FAddr) : FMap Nat :=
  distFrom (fun v => (g.ports s v).map (portNbr s v)) (searchFuel s) [d]

/-- Where dimension order leaves the region: the port of a shortest path inside it, none where no path is left. -/
def Region.bend (g : Region) (s : State) (a d : FAddr) : Option Nat := nearerPort s (g.distTo s d) a (g.ports s a)

/-- The port by which a member reaches another (R195, R280). -/
def Region.route (g : Region) (s : State) (a d : FAddr) : Option Nat :=
  if a = d then none else if g.straight s d pathFuel a then g.dimPort s a d else g.bend s a d

/-- The members that another reaches by an exception. -/
def Region.bent (g : Region) (s : State) (a : FAddr) : List FAddr :=
  g.members.filter fun d => d != a && !g.straight s d pathFuel a

/-- The route from a member to another, hop by hop over live ports inside the region, ends there (R47, R281). -/
def Region.closedRoute (g : Region) (s : State) (d : FAddr) : Nat → FAddr → Bool
  | 0, a => a == d
  | fuel + 1, a =>
    if a = d then true
    else match g.route s a d with
      | none => false
      | some p => portSt s a p == 0 && g.members.contains (portNbr s a p) && g.closedRoute s d fuel (portNbr s a p)

/-- The first member and live quay endpoint without a path over live links, strait ports among them (R47, R281). -/
def Region.quayGap (g : Region) (s : State) : Option (FAddr × FAddr) :=
  (s.liveQuays.flatMap fun q =>
    let m := distFrom (liveNbrs s) (searchFuel s) [q.2]
    (g.members.filter fun a => (m.get a.toNat).isNone).map fun a => (a, q.2)).head?

/-- The first member pair without a closed route, or member without a path to a quay endpoint (R47, R281). -/
def Region.open_ (g : Region) (s : State) : Option (FAddr × FAddr) :=
  match (g.members.flatMap fun a => g.members.map fun d => (a, d)).find? fun q => !g.closedRoute s q.2 (searchFuel s) q.1 with
  | some q => some q
  | none => g.quayGap s

/-- The members, beside those that a splice fills, that another reaches only through splices: no path inside the region avoids every spliced position (R280; log 181). -/
def Region.onlySpliced (g : Region) (s : State) (a : FAddr) : List FAddr :=
  let filled (d : FAddr) : Bool := (s.fab.spliced.get d.toNat).isSome
  if s.fab.spliced = [] then []
  else
    let m := distFrom (fun v => ((g.ports s v).map (portNbr s v)).filter fun d => !filled d) (searchFuel s) [a]
    g.members.filter fun d => d != a && !filled d && (m.get d.toNat).isNone

/-- An EXCEPTION entry that compares the whole address (Table 6.7). -/
def exceptionWord (d : FAddr) (port : Nat) : Word := at_ 1 63 ||| at_ port 52 ||| at_ 0xFFFFFF 28 ||| at_ d.toNat 0

/-- The controller indexes that answer: 0 and 1, and 2 when paired (R23). -/
def ctrlIndexes (s : State) : List Nat := if s.pair.paired then [0, 1, 2] else [0, 1]

/-- The port toward the nearest live quay endpoint, in a quay endpoint toward the next nearest (R280). -/
def quayPort (s : State) (a : FAddr) : Option Nat :=
  let ends := ((s.liveQuays.map (·.2)).filter (· != a))
  if ends = [] then none
  else nearerPort s (distFrom (liveNbrs s) (searchFuel s) ends) a (livePorts s a)

/-- The EXCEPTION entries of a member, in order (R280). -/
def Region.exceptions (g : Region) (s : State) (a : FAddr) : List Word :=
  let bent := g.bent s a
  let only := g.onlySpliced s a
  ((g.members.filter fun d => bent.contains d || only.contains d).filterMap fun d => (g.route s a d).map (exceptionWord d)) ++
    ((ctrlIndexes s).filterMap fun i => (quayPort s a).map (exceptionWord (BitVec.ofNat 28 (0x2000000 + i))))

/-- EXCEPTION entries that a table holds. -/
abbrev exceptionLimit : Nat := 4096

/-- The first member that would need more entries than its table holds (R280). -/
def Region.crowded (g : Region) (s : State) : Option FAddr :=
  g.members.find? fun a => decide (exceptionLimit < (g.exceptions s a).length)

/-! PORTS and PARAMS. -/

/-- The links of a port, as bits. -/
def linkBits (s : State) (a : FAddr) (p : Nat) : Nat :=
  ((List.range 16).filter fun l => (s.mlink a l).port == some p).foldl (fun w l => w + 2 ^ l) 0

/-- The port's link is the dateline of its ring: the link between the last coordinate and the first of a closed ring (R192). -/
def Region.dateline (g : Region) (s : State) (a : FAddr) (p : Nat) : Bool :=
  let k := portDim p
  g.closed s k && (if p % 2 = 1 then coordOf a k == 0 else coordOf a k + 1 == s.dim k)

/-- A PORTS entry (Table 6.8). -/
def Region.portWord (g : Region) (s : State) (a : FAddr) (p : Nat) : Word :=
  if linkBits s a p = 0 then 0
  else at_ (portNbr s a p).toNat 32 ||| at_ 1 20 ||| b1 (g.dateline s a p) 19 ||| at_ p 16 ||| at_ (linkBits s a p) 0

/-- Regime B: the plan has more than 16,384 positions (R209). -/
def regimeB (s : State) : Bool := decide (16384 < s.dim 3 * s.dim 2 * s.dim 1 * s.dim 0)

/-- The longest measured round trip of an agent's links, in flits at full rate (R211, R307). -/
def tripFlits (r : Roster) : Nat :=
  let rtts := (List.range 64).map fun e => if fld (FMap.getD r.calib (4 * e) 0) 7 7 = 1 then fld (FMap.getD r.calib (4 * e + 1) 0) 31 0 else 0
  (rtts.foldl Nat.max 0 * 7 + 3999) / 4000

/-- The root of time: the endpoint of the lowest live quay (R278). -/
def timeRoot (s : State) : Option FAddr := s.liveQuays.head?.map (·.2)

/-- TIME_PORT and TIME_ALT of an endpoint (R278). -/
def timePorts (s : State) (a : FAddr) : Nat × Nat :=
  match timeRoot s with
  | none => (15, 15)
  | some root =>
    if a = root then (8, 15)
    else
      let m := distFrom (liveNbrs s) (searchFuel s) [root]
      match nearerPort s m a (livePorts s a) with
      | none => (15, 15)
      | some p => (p, (nearerPort s m a ((livePorts s a).filter (· != p))).getD 15)

/-- PARAMS word 5 of an endpoint (Table 6.11). -/
def paramWord5 (s : State) (a : FAddr) : Word :=
  let t := timePorts s a
  let quay := s.quays.find? fun q => q.2.1 == a
  at_ (match quay with | none => 0 | some q => 1 * 16 + q.2.2.1 % 16) 16 ||| at_ t.2 12 ||| at_ t.1 8 ||| at_ 3 0

/-! Detours (R206, R295, R296). -/

/-- A DETOUR word: byte h the port of hop h, 0xFF past the end (R206). -/
def detourWord (path : List Nat) : Word :=
  wordAt ((path.map (BitVec.ofNat 8)) ++ List.replicate (8 - path.length) 0xFF) 0

/-- A shortest path from an endpoint to a port's neighbour without the ports given (R167, R295). -/
def detourPath (s : State) (h : Nat) (a b : FAddr) (excl : List Nat) : Option (List Nat) :=
  let q : PathReq := { src := a, dst := b, excl := excl, hops := 4, island := h, box := none }
  ((q.search s 4 [(a, [])] { seen := [a] }).found).map List.reverse

/-- A choice of a port: its path, and the first-hop port of the first choice that it replaces. -/
structure Choice where
  /-- Ports from the first hop on -/
  path : List Nat
  /-- Port assumed dead with it -/
  also : Option Nat
  deriving DecidableEq, Repr

/-- The two choices of a port, as computed (R295). -/
def choices (s : State) (h : Nat) (a : FAddr) (p : Nat) : List Choice :=
  let b := portNbr s a p
  match detourPath s h a b [a.toNat * 16 + p] with
  | none => []
  | some c1 =>
    let f := c1.headD 0
    { path := c1, also := none } ::
      (match detourPath s h a b [a.toNat * 16 + p, a.toNat * 16 + f] with
        | none => []
        | some c2 => [{ path := c2, also := some f }])

/-- The vertices and ports of a path. -/
def pathHops (s : State) : FAddr → List Nat → List (FAddr × Nat)
  | _, [] => []
  | a, p :: ps => (a, p) :: pathHops s (portNbr s a p) ps

/-- The hops from a vertex to a destination by the region's routes, up to a dead port. -/
def Region.onward (g : Region) (s : State) (dead : List (FAddr × Nat)) (d : FAddr) : Nat → FAddr → List (FAddr × Nat)
  | 0, _ => []
  | fuel + 1, a =>
    match g.route s a d with
    | none => []
    | some p => if dead.contains (a, p) then [] else (a, p) :: g.onward s dead d fuel (portNbr s a p)

/-- A channel: vertex, port, and VC4 or VC5. -/
def channel (v : FAddr) (p : Nat) (upper : Bool) : Nat := (v.toNat * 16 + p) * 2 + (if upper then 1 else 0)

/-- The channels that a packet takes in turn, under R191. -/
def Region.channels (g : Region) (s : State) : Option Nat → Bool → List (FAddr × Nat) → List Nat
  | _, _, [] => []
  | prev, up, (v, p) :: hs =>
    let up := (up && prev == some (portDim p)) || g.dateline s v p
    channel v p up :: g.channels s (some (portDim p)) up hs

/-- Dependencies between the channels of one packet. -/
def depends : List Nat → List (Nat × Nat)
  | x :: y :: r => (x, y) :: depends (y :: r)
  | _ => []

/-- How a packet from a member to d stands when it comes to a: the dimension of its last hop and whether it is on the upper channel; none where its route does not pass a. -/
def Region.arrival (g : Region) (s : State) (d a : FAddr) : Nat → Option Nat → Bool → FAddr → Option (Option Nat × Bool)
  | 0, _, _, _ => none
  | fuel + 1, prev, up, v =>
    if v = a then some (prev, up)
    else match g.route s v d with
      | none => none
      | some p => g.arrival s d a fuel (some (portDim p)) ((up && prev == some (portDim p)) || g.dateline s v p) (portNbr s v p)

/-- The ways in which the packets of every source for d come to a, each once. -/
def Region.arrivals (g : Region) (s : State) (d a : FAddr) : List (Option Nat × Bool) :=
  ((g.members.filter (· != d)).filterMap (g.arrival s d a (searchFuel s) none false)).eraseDups

/-- The port that a second choice assumes dead besides: the first hop of the choice that it replaces. -/
def Choice.dead (c : Choice) (a : FAddr) : List (FAddr × Nat) := (c.also.map fun f => (a, f)).toList

/-- Dependencies of every packet that could take a choice of port p of a and then go on by dimension order, in a fault situation (R296). -/
def Region.choiceDeps (g : Region) (s : State) (a : FAddr) (p : Nat) (dead : List (FAddr × Nat)) (c : Choice) : List (Nat × Nat) :=
  let b := portNbr s a p
  (g.members.filter fun d => g.route s a d == some p).flatMap fun d =>
    let hops := pathHops s a c.path ++ g.onward s dead d (searchFuel s) b
    (g.arrivals s d a).flatMap fun r => depends (g.channels s r.1 r.2 hops)

/-- Drops the dependencies that nothing leads to; what stays after all rounds lies on or behind a cycle. -/
def prune : Nat → List (Nat × Nat) → List (Nat × Nat)
  | 0, l => l
  | n + 1, l => prune n (l.filter fun e => l.any fun f => f.2 == e.1)

/-- The dependencies close a cycle. -/
def cyclic (l : List (Nat × Nat)) : Bool := prune (l.length + 1) l != []

/-- The facing port of a neighbour. -/
def facing (s : State) (a : FAddr) (p : Nat) : Option Nat :=
  ((s.portLinks a p).head?.map fun m => (s.mlink m.nbr m.nbrLink).port).join

/-- Discards choices of the end with the higher address until no choice of one end closes a cycle together with a choice of the other: first choices first, each pair in its own fault situation (R296). -/
def settlePair (dropA : Bool) (bad : Choice → Choice → Bool) : Nat → List Choice → List Choice → List Choice × List Choice
  | 0, x, y => (x, y)
  | n + 1, x, y =>
    match (x.flatMap fun c => y.map fun d => (c, d)).find? fun q => bad q.1 q.2 with
    | none => (x, y)
    | some (c, d) => if dropA then settlePair dropA bad n (x.erase c) y else settlePair dropA bad n x (y.erase d)

/-- The choices of a port that survive the check (R296). -/
def Region.armed (g : Region) (s : State) (h : Nat) (a : FAddr) (p : Nat) : List Choice :=
  let b := portNbr s a p
  match facing s a p with
  | none => []
  | some q =>
    let dead := [(a, p), (b, q)]
    let ca := (choices s h a p).filter fun c => !cyclic (g.choiceDeps s a p (dead ++ c.dead a) c)
    let cb := (choices s h b q).filter fun d => !cyclic (g.choiceDeps s b q (dead ++ d.dead b) d)
    let bad (c d : Choice) : Bool :=
      let all := dead ++ c.dead a ++ d.dead b
      cyclic (g.choiceDeps s a p all c ++ g.choiceDeps s b q all d)
    (settlePair (decide (b.toNat < a.toNat)) bad 4 ca cb).1

/-- A port whose detours the controller computes: a live port inside its island (R295). -/
def detours (s : State) (h : Nat) (a : FAddr) (p : Nat) : Bool := decide (h ≠ 0) && portSt s a p == 0

/-- The two DETOUR words of a port, with whether it is left without a choice (R295, R296). -/
def Region.detourWords (g : Region) (s : State) (h : Nat) (a : FAddr) (p : Nat) : Word × Word × Bool :=
  if !detours s h a p then (-1, -1, false)
  else match g.armed s h a p with
    | [] => (-1, -1, true)
    | [c] => (detourWord c.path, -1, false)
    | c :: d :: _ => (detourWord c.path, detourWord d.path, false)

/-! Schedules (R298, R299). -/

/-- The section of a member with relative coordinates rel: its SLOTS bytes. -/
def sectionAt (img : List Byte) (rel : Nat) : Nat → Nat → Option (List Byte)
  | 0, _ => none
  | n + 1, off =>
    let entries := leAt img (off + 4) 4
    if leAt img off 4 % 2 ^ 24 = rel then some (slice img (off + 16) (16 * entries))
    else sectionAt img rel n (off + 16 + 16 * entries)

/-- Relative coordinates of a member. -/
def Region.relAddr (g : Region) (s : State) (a : FAddr) : Nat :=
  (endpointAddr (g.rel s 3 (coordOf a 3)) (g.rel s 2 (coordOf a 2)) (g.rel s 1 (coordOf a 1)) (g.rel s 0 (coordOf a 0))).toNat

/-- The absolute address of relative coordinates (R299). -/
def Region.absAddr (g : Region) (s : State) (r : FAddr) : FAddr :=
  let c (k : Nat) : Nat := (axis g.low k + coordOf r k) % s.dim k
  endpointAddr (c 3) (c 2) (c 1) (c 0)

/-- A SLOTS word with its destinations made absolute. -/
def Region.slotWord (g : Region) (s : State) (w : Word) : Word :=
  let d (b : Nat) : Nat := (g.absAddr s (BitVec.ofNat 28 (fld w (b + 23) b))).toNat
  (w &&& 0xF0000000F0000000) ||| (if w.getLsbD 63 then at_ (d 32) 32 else 0) ||| (if w.getLsbD 31 then at_ (d 0) 0 else 0)

/-- The SLOTS words of a member, in order. -/
def Region.slots (g : Region) (s : State) (img : List Byte) (a : FAddr) : List Word :=
  match sectionAt img (g.relAddr s a) (leAt img 0x18 4) 0x60 with
  | none => []
  | some bs => (List.range (bs.length / 8)).map fun i =>
      let w := wordAt bs (8 * i)
      if i % 2 = 0 then g.slotWord s w else w

/-- SCHED_EN may be set: fabric time has had its first lock, or a takeover has kept it (R275). -/
def schedTime (s : State) : Bool := s.time.firstLock || s.time.taken

/-- PARAMS word 3 under a schedule, or without one; SCHED_EN stays 0 before the first lock (R275, R299). -/
def paramWord3 (en : Bool) (img : Option (List Byte)) : Word :=
  match img with
  | none => at_ 50 32 ||| at_ 1000 0
  | some b => b1 en 48 ||| at_ (leAt b 0x12 2) 32 ||| at_ (leAt b 0x14 4 - 1) 16 ||| at_ (leAt b 0x10 2) 0

/-! The whole bank of a member. -/

/-- Writes a list of words from a key on. -/
def putWords (b : Bank) (key : Nat) : List Word → Bank
  | [] => b
  | w :: ws => putWords (FMap.put b key w 0) (key + 1) ws

/-- What a table set gives every member: handle, epoch, key, schedule image and the time of step 1. -/
structure SetHead where
  /-- Island handle, 0 for unassigned endpoints -/
  h : Nat
  /-- Epoch -/
  epoch : Nat
  /-- Partition key -/
  pkey : Nat
  /-- Schedule image -/
  sched : Option (List Byte)
  /-- Fabric time at which step 1 began -/
  t0 : Nat
  deriving DecidableEq, Repr

/-- The staging bank of an endpoint (R282). -/
def Region.bank (g : Region) (s : State) (q : SetHead) (r : Roster) (a : FAddr) : Bank :=
  let dim := (List.range 4).flatMap fun k => (List.range 64).map fun c => g.dimEntry s a k c
  let det := (List.range 16).flatMap fun l =>
    match (s.mlink a l).port with
    | none => [-1, -1]
    | some p => let d := g.detourWords s q.h a p; [d.1, d.2.1]
  let trip := tripFlits r
  let params : List Word :=
    [0x07D0088000140800 ||| b1 (regimeB s) 0,
     if regimeB s then at_ (trip + 6) 16 ||| at_ (trip + 2) 0 else 0,
     if q.sched.isSome then BitVec.ofNat 64 q.t0 else 0,
     paramWord3 (schedTime s) q.sched,
     at_ q.h 48 ||| at_ q.epoch 16 ||| at_ q.pkey 0,
     paramWord5 s a]
  let b := putWords [] (bankKey 1 0 0) dim
  let b := putWords b (bankKey 2 0 0) ((g.exceptions s a).take exceptionLimit)
  let b := putWords b (bankKey 3 0 0) det
  let b := putWords b (bankKey 4 0 0) ((List.range 8).map (g.portWord s a))
  let b := putWords b (bankKey 5 0 0) ((q.sched.map fun i => g.slots s i a).getD [0, at_ 1 63])
  let b := putWords b (bankKey 6 0 0) params
  putWords b (bankKey 9 0 0) ((List.range 256).map fun i => FMap.getD r.calib i 0)

/-- The staging bank of a switch agent from a circuit map (R283, Table 9.2). -/
def circuitBank (m : FMap Nat) (sw : Nat) : Bank :=
  putWords [] (bankKey 8 0 0) ((List.range 256).map fun p =>
    match m.get (swKey sw p) with
    | none => 0
    | some q => at_ 1 8 ||| at_ (q - 1) 0)

/-- Ports of the members left without a detour (R296). -/
def Region.unarmed (g : Region) (s : State) (h : Nat) : List (FAddr × Nat) :=
  g.members.flatMap fun a => ((List.range 8).filter fun p => (g.detourWords s h a p).2.2).map fun p => (a, p)

/-- The region of an island of the state. -/
def Island.region (l : Island) : Region := { low := l.low, shape := l.shape, members := l.members }

/-- The state as it will be under the splices: the model's addresses, and the new circuits' links trained (R39, R44). -/
def asSpliced (s : State) (moves : List (Nat × Nat × Nat)) : State :=
  moves.foldl (fun t m =>
    let a : FAddr := BitVec.ofNat 28 m.1
    let t := t.onRoster m.2.1 fun r => { r with addr := noAddr }
    if m.2.2 = 0 then t.onFab fun f => { f with links := f.links.mapVals fun k l => if k / 16 = m.1 ∨ l.nbr = a then { l with lanes := 0 } else l }
    else (t.onRoster m.2.2 fun r => { r with addr := a }).onFab fun f => { f with
      spliced := f.spliced.set m.1 m.2.2
      links := f.links.mapVals fun k l => if k / 16 = m.1 ∨ l.nbr = a then { l with lanes := 4 } else l }) s

/-- The state once a circuit map is set and the links that it joins anew are trained (R39). -/
def asJoined (s : State) (new : FMap Nat) : State :=
  (newEnds s s.fab.spliced s.fab.circuits new).foldl (fun t e =>
    t.onFab fun f => { f with links := f.links.upd (linkKey e.1 e.2) fun l => if l.lanes = 0 then { l with lanes := 4 } else l }) s

/-- A member lies next to a hole of the region or a lost position: a position of the box beside it is no member (R281). -/
def Region.besideHole (g : Region) (s : State) (a : FAddr) : Bool :=
  (List.range 8).any fun p =>
    let b := torusNbr s a p
    ([3, 2, 1, 0].all fun k => g.spans s k (coordOf b k)) && !g.members.contains b

/-- The whole fabric, for the base table set of unassigned endpoints. -/
def baseRegion (s : State) : Region :=
  { low := [0, 0, 0, 0], shape := [s.dim 3, s.dim 2, s.dim 1, s.dim 0]
    members := match s.fab.plan with
      | none => []
      | some pl => ((planEntries pl 0x048).filterMap fun e =>
          if entrySpare e || entryAbsent e then none else some (BitVec.ofNat 28 (entryWhere e))).filter fun a => !s.fab.lost.contains a }

/-- Elements of a table at which two banks differ. -/
def diffElems (old new : Bank) (t : Nat) : List Nat :=
  let ks := ((old.map (·.1)) ++ (new.map (·.1))).filter fun k => k / 0x100000 == t && FMap.getD old k 0 != FMap.getD new k 0
  ((ks.map fun k => k % 0x100000 / tblWords t).foldl (fun (m : FMap Unit) e => m.set e ()) []).keys

/-- Runs of consecutive elements, each of at most n: first element and count. -/
def runsOf (n : Nat) : List Nat → List (Nat × Nat)
  | [] => []
  | e :: es =>
    match runsOf n es with
    | [] => [(e, 1)]
    | (f, c) :: r => if f = e + 1 ∧ c < n then (e, c + 1) :: r else (e, 1) :: (f, c) :: r

end Sys2Proof.Machine
end

