-- ==== Sys2Proof/Machine/Install.lean ====
section
/-! DEFINITION. Installations at the controller: staging, the phases of R287, their answers, repeats and failures, the commit's effect on the island, TPUSH and ECOMMIT (R52, R170, R176, R177, R287 to R294, R316, R322, R323). -/

namespace Sys2Proof.Machine

/-! Islands: state, measurement. -/

/-- Codes of Table 10.1. -/
def IslState.code : IslState → Nat
  | .free => 0
  | .carving => 1
  | .opn => 2
  | .keyed => 3
  | .boundary => 4
  | .aborted => 5
  | .releasing => 6

/-- An island changes state: ISLAND_STATE notice and journal (Table 3.26, Table 13.4). -/
def setIsl (s : State) (h : Nat) (st : IslState) : State :=
  match s.isles.islands.get h with
  | none => s
  | some l =>
    if l.st = st then s
    else
      let d0 := at_ l.st.code 0 ||| at_ st.code 8 ||| at_ l.epoch 32
      let s := notify (s.onIsland h fun x => { x with st := st }) 1 h d0 (at_ l.pkey 0)
      journal s jModel [at_ 0x20 0 ||| at_ st.code 8 ||| at_ h 16 ||| at_ l.epoch 32, at_ l.pkey 0]

/-- Switches that carry circuits between two members of an island, ascending (Table 10.4). -/
def islandSwitches (s : State) (members : List FAddr) : List Nat :=
  match s.fab.plan with
  | none => []
  | some pl =>
    let ws := (planCables pl).filterMap fun c => if members.contains c.a && members.contains c.b then c.via.map (·.1) else none
    (ws.foldl (fun (m : FMap Unit) w => m.set w ()) []).keys

/-- The fabric address of a sound switch. -/
def switchAddr (sw : Nat) : FAddr := BitVec.ofNat 28 (0x1000000 + sw)

/-- A table-set image (R282): the member images in ascending address, staged or installed. -/
def setImage (s : State) (staged : Bool) (members : List FAddr) : List Byte :=
  members.flatMap fun a =>
    match s.agentAt a with
    | none => []
    | some id => memberImage false (if staged then (s.roster id).stage else (s.roster id).bank)

/-- The CIRCUITS images of switches. -/
def circuitImage (s : State) (staged : Bool) (sws : List Nat) : List Byte :=
  sws.flatMap fun w =>
    match s.agentAt (switchAddr w) with
    | none => []
    | some id => memberImage true (if staged then (s.roster id).stage else (s.roster id).bank)

/-- The plaintext that a consent token binds: its ARGS (Table 10.12). -/
def Token.bytes (h : Nat) (t : Token) : List Byte :=
  leBytes 2 h ++ leBytes 1 t.party ++ leBytes 1 t.scope.toNat ++ leBytes 1 t.portals.toNat ++ [0, 0, 0] ++ leBytes 4 t.fromEpoch ++
    leBytes 4 t.toEpoch ++ leBytes 8 t.notAfter ++ leBytes 4 t.member.toNat ++ List.replicate 12 0

/-- SHA-384 of a byte string, zero for an empty one. -/
def hashOrZero (bs : List Byte) : List Byte := if bs = [] then List.replicate 48 0 else hashBytes (Config.sha384 bs)

/-- A member record (Table 10.5). -/
def memberRecord (s : State) (a : FAddr) (id : Nat) : List Byte :=
  let r := s.roster id
  leBytes 4 a.toNat ++ leBytes 1 r.hcClass ++ leBytes 1 (r.dbgWord.toNat % 256) ++
    leBytes 1 ((if r.dbgWord.getLsbD 8 then 1 else 0) + (if (s.fab.spliced.get a.toNat).isSome then 2 else 0)) ++ [0] ++ leBytes 8 id ++
    hashBytes r.idKey ++ hashBytes r.fwMeas ++ hashBytes r.hcMeas

/-- A measurement record (Table 10.4) over members given with their identities. -/
def measRecord (s : State) (h epoch pkey : Nat) (conf staged : Bool) (members : List (FAddr × Nat)) (policy consent : List Byte) : List Byte :=
  let addrs := members.map (·.1)
  let sws := islandSwitches s addrs
  let image := members.flatMap fun m => memberImage false (if staged then (s.roster m.2).stage else (s.roster m.2).bank)
  leBytes 4 0x494D5352 ++ leBytes 2 1 ++ leBytes 2 (if conf then 1 else 0) ++ leBytes 2 h ++ leBytes 2 pkey ++ leBytes 4 epoch ++
    leBytes 4 members.length ++ leBytes 4 sws.length ++ leBytes 2 s.power.svn ++ List.replicate 6 0 ++ hashBytes s.power.imageHash ++
    hashBytes s.power.deviceId ++ hashBytes (Config.sha384 image) ++ hashBytes (Config.sha384 (circuitImage s staged sws)) ++
    hashOrZero policy ++ hashOrZero consent ++ members.flatMap fun m => memberRecord s m.1 m.2

/-- The consent tokens in force, in ascending party. -/
def consentBytes (h : Nat) (ts : List Token) : List Byte :=
  (List.range 16).flatMap fun p => (ts.filter fun t => t.party == p && !t.lapsed).flatMap (Token.bytes h)

/-- The members of an island with their identities. -/
def withIds (s : State) (as : List FAddr) : List (FAddr × Nat) := as.filterMap fun a => (s.agentAt a).map fun id => (a, id)

/-- The measurement record of an island at its current epoch (R322). -/
def islandRecord (s : State) (h : Nat) : List Byte :=
  match s.isles.islands.get h with
  | none => []
  | some l => measRecord s h l.epoch l.pkey l.confidential false (withIds s l.members) l.policy (consentBytes h l.consent)

/-- Computes the measurement of an island again from the values read (R323). -/
def remeasure (s : State) (h : Nat) : State :=
  let m := Config.sha384 (islandRecord s h)
  s.onIsland h fun l => { l with meas := m }

/-! Sending. -/

/-- Changes an open installation. -/
def onInst (s : State) (k : Nat) (f : Install → Install) : State :=
  s.onIsles fun e => { e with installs := e.installs.upd k f }

/-- The key of an installation that names one unassigned endpoint alone (R278), or a switch at a takeover (R38). -/
def singleKey (id : Nat) : Nat := 2 ^ 20 + id

/-- CONTEXT of an installation's packets: the context that asked, else a number of the controller's own (R218, R285). -/
def Install.context (x : Install) (k : Nat) : Nat :=
  match x.ticket with
  | some (c, _) => c
  | none => 2 ^ 20 + k % 2 ^ 20

/-- Codes of FY_INSTALL.PHASE (Table 9.8). -/
def Phase.code : Phase → Nat
  | .idle => 0
  | .staging => 1
  | .prepare => 2
  | .quiesce => 3
  | .switches => 4
  | .commit => 5
  | .release => 6
  | .abandon => 7

/-- Opcode of a phase's packet (Table 9.3). -/
def Phase.opcode : Phase → Nat
  | .prepare => 0x10
  | .quiesce => 0x12
  | .release => 0x14
  | .abandon => 0x15
  | _ => 0x13

/-- The agents that a phase addresses (R287). -/
def Install.targets (x : Install) (ph : Phase) : List Nat :=
  match ph with
  | .switches => x.switches
  | .commit => x.members
  | .idle => []
  | .staging => []
  | _ => x.members ++ x.switches

/-- Changes the registers of Table 9.8 while they show this installation. -/
def onFy (s : State) (k : Nat) (f : Isles → Isles) : State := if s.isles.fyKey = k then s.onIsles f else s

/-- Sends the packet of the running phase to some agents. -/
def sendPhase (s : State) (k : Nat) (x : Install) (ids : List Nat) : State :=
  ids.foldl (fun t id => toAgent t id x.phase.opcode (if x.phase = .abandon ∧ x.restart then 1 else 0) (x.context k) (BitVec.ofNat 32 x.epoch)) s

/-- A phase begins: it is journalled, then its packets are sent (R287). -/
def enterPhase (s : State) (k : Nat) (ph : Phase) : State :=
  match s.isles.installs.get k with
  | none => s
  | some x =>
    let ids := x.targets ph
    let x := { x with phase := ph, waiting := ids, sends := 1, draining := [], phaseAt := s.now, committed := x.committed || ph == .commit
                      t2 := if ph = .prepare then s.now else x.t2 }
    let s := journal s jInstall [at_ k 0 ||| at_ ph.code 56, at_ x.epoch 0 ||| at_ x.pkey 32 ||| b1 x.restart 48]
    let s := onFy (onInst s k fun _ => x) k fun e => { e with fyPhase := ph, fyAgents := (x.members ++ x.switches).length, fyAnswered := 0 }
    sendPhase s k x ids

/-- TS_DATA of consecutive elements to one agent; the controller's own copy takes them too (R286, R287). -/
def sendElems (s : State) (id k t first : Nat) (ws : List Word) (ticket : Option (Nat × Nat)) : State :=
  let s := s.onRoster id fun r => { r with stage := putWords r.stage (bankKey t first 0) ws }
  sendReq s { agent := id, kind := 0x0050, arg := at_ (t + 0x8000) 0 ||| at_ first 16, body := ws.flatMap wordBytes, island := k, ticket := ticket
              context := (ticket.map (·.1)).getD 0 }

/-- Pushes what differs between the controller's staging copy of an agent and a new bank (R284), PARAMS always (R287), and the whole map of a switch that was reported to hold another (R41). -/
def sendStage (s : State) (id k : Nat) (isSwitch : Bool) (new : Bank) : State :=
  let whole := isSwitch && s.fab.wrongMaps.contains (addrIndex (s.roster id).addr)
  (stagedTables isSwitch).foldl (fun t tb =>
    let old := (t.roster id).stage
    let es := if whole then List.range 256 else diffElems old new tb
    let es := if tb = 6 ∧ es = [] then [0] else es
    (runsOf (4080 / (8 * tblWords tb)) es).foldl (fun t r =>
      sendElems t id k tb r.1 ((List.range (r.2 * tblWords tb)).map fun i => FMap.getD new (bankKey tb r.1 0 + i) 0) none) t) s

/-- A TS_DATA of the installation's own still awaits its answer. -/
def stagingOpen (s : State) (k : Nat) : Bool :=
  s.fab.reqs.vals.any fun q => q.island == k && q.kind == 0x0050 && q.ticket.isNone

/-- A KEY_DELIVER that erases a slot before the commit still awaits its answer (R313). -/
def erasing (s : State) (k : Nat) : Bool :=
  s.fab.reqs.vals.any fun q => q.island == k && q.kind == 0x0040 && !q.ctl && (leAt q.body 0x0F 1).testBit 1

/-- ANSWERED of Table 9.8: the agents that have answered in the running phase, in STAGING those that have answered every TS_DATA of the installation. -/
def answered (s : State) (k : Nat) (x : Install) : Nat :=
  if x.phase = .staging then
    ((x.members ++ x.switches).filter fun id => !(s.fab.reqs.vals.any fun q => q.agent == id && q.island == k && q.kind == 0x0050 && q.ticket.isNone)).length
  else (x.targets x.phase).length - x.waiting.length

/-- Shows how many agents have answered (Table 9.8). -/
def showAnswered (s : State) (k : Nat) : State :=
  match s.isles.installs.get k with
  | none => s
  | some x => onFy s k fun e => { e with fyAnswered := answered s k x }

/-- The switches whose map an installation loads, with their new banks: those whose map changes, and those reported to hold another that `named` admits (R38, R41). -/
def switchLoads (s : State) (want : FMap Nat) (named : Nat → Bool) : List (Nat × Bool × Bank) :=
  let changed := changedSwitches s s.fab.circuits want
  let sws := match s.fab.plan with
    | none => []
    | some pl => (List.range (planSwitches pl)).filter fun w => changed.contains w || (s.fab.wrongMaps.contains w && named w)
  sws.filterMap fun w => (s.agentAt (switchAddr w)).map fun id => (id, true, circuitBank want w)

/-! The commit's effect. -/

/-- A member loads a key: it no longer delays the reuse of keys that it held (R48). -/
def keyLoaded (s : State) (id : Nat) : State :=
  s.onIsles fun e => { e with retiring := (e.retiring.mapVals fun _ l => l.filter (· != id)).keep fun _ l => l != [] }

/-- What a released commit gives an agent: its staging is installed, and a staged address is its own (R225, R284, R290). -/
def agentCommitted (s : State) (id : Nat) : State :=
  keyLoaded (s.onRoster id fun r => { r with bank := r.stage, addr := r.staged.getD r.addr, staged := none }) id

/-- A splice takes effect: the spare fills the position, and the endpoint it replaces is retired (R44). -/
def spliceDone (s : State) (m : Nat × Nat × Nat) : State :=
  let s := if m.2.2 = 0 then s.onFab fun f => { f with lost := f.lost ++ [BitVec.ofNat 28 m.1] }
    else s.onFab fun f => { f with spliced := f.spliced.set m.1 m.2.2, lost := f.lost.filter fun a => a.toNat != m.1 }
  let s := journal s jModel [at_ 0x30 0 ||| at_ m.1 16, BitVec.ofNat 64 m.2.2]
  if m.2.1 = 0 then s
  else
    clearRetired (s.onRoster m.2.1 fun r => { r with addr := noAddr, retired := true, leaving := true }) (BitVec.ofNat 28 m.1)

/-- New tokens take the place of earlier tokens of their parties (R339, R340). -/
def takeTokens (old new : List Token) : List Token :=
  (old.filter fun t => !(new.any fun n => n.party == t.party)) ++ new

/-- Agents hold a partition key that they have not yet replaced: it is not reused before each has loaded its next key (R48). -/
def holdKey (s : State) (pkey : Nat) (ids : List Nat) : State :=
  if ids = [] then s
  else s.onIsles fun e => { e with retiring := e.retiring.set pkey ((e.retiring.getD pkey []) ++ ids.filter fun id => !(e.retiring.getD pkey []).contains id) }

/-- Parties that must accept. -/
def policyRequired (b : List Byte) : Nat := leAt b 8 2

/-- A token grants a scope bit for a member at an epoch (R340). -/
def Token.grants (t : Token) (s : State) (bit epoch : Nat) (a : FAddr) : Bool :=
  !t.lapsed && t.scope.getLsbD bit && decide (t.fromEpoch ≤ epoch) && (t.toEpoch == 0 || decide (epoch ≤ t.toEpoch)) &&
    decide (s.now ≤ t.notAfter) && (t.member == noAddr || t.member == a)

/-- A scope is granted for a member: every REQUIRED party holds such a token in force (R340). -/
def granted (s : State) (l : Island) (bit : Nat) (a : FAddr) : Bool :=
  let req := policyRequired l.policy
  req != 0 && (List.range 16).all fun p => !req.testBit p || l.consent.any fun t => t.party == p && t.grants s bit l.epoch a

/-- Erases the slots that a member holds with DEBUG_OK (R340). -/
def eraseDebug (s : State) (h : Nat) (l : Island) (id : Nat) : State :=
  (slotsOf (s.roster id).debugSlots).foldl (fun t slot => keyErase t id slot l.epoch l.pkey h) s

/-- At a new epoch, members for which consent no longer covers DEBUG lose the slots that they hold with DEBUG_OK (R340). -/
def dropDebug (s : State) (h : Nat) : State :=
  match s.isles.islands.get h with
  | none => s
  | some l => (withIds s l.members).foldl (fun t m => if granted t l 0 m.1 then t else eraseDebug t h l m.2) s

/-- An island's installation has committed (R52, Table 10.1). -/
def islandCommitted (s : State) (h : Nat) (x : Install) (before : List Nat) : State :=
  match s.isles.islands.get h with
  | none => s
  | some l =>
    let left := before.filter fun id => !(x.members.contains id)
    let s := holdKey (x.members.foldl (fun t id => setTenancy t id .member) s) l.pkey left
    let s := s.onIsland h fun l => { l with
      epoch := x.epoch, pkey := x.pkey, members := x.newMembers, low := x.low, shape := x.shape, sched := x.sched
      pendSched := if l.pendSched = x.pend then 0 else l.pendSched
      detoursDue := false, stale := false, slipPeriods := 0, slipLast := none, slips := [], schedLapsed := false
      consent := takeTokens l.consent l.tokens, tokens := [], iu := l.iuNext
      broker := { l.broker with accepted := 0, released := 0 } }
    let s := dropDebug (remeasure (setIsl s h .opn) h) h
    let s := s.onIsles fun e => { e with
      useOrder := e.useOrder + 1, scheds := e.scheds.upd x.sched fun c => { c with used := e.useOrder + 1 } }
    let s := if x.sched ≠ 0 then notify s 7 h (BitVec.ofNat 64 x.sched) 0 else s
    let s := clearRecs s fun r => r.kind == 0x1C5 && r.island == h
    let s := s.onInteg fun g => { g with keys := g.keys.filter fun k => !(k.done && k.island == h) }
    let s := (x.newMembers).foldl (fun t a => clearAt t a 0x102) s
    let s := left.foldl scrubEndpoint s
    let s := x.members.foldl (fun t id => sendRegs t id measItems h) s
    let s := returnToA s
    answerAt (s.onIsland h fun l => { l with entry := none }) l.entry stOk (leBytes 2 h ++ leBytes 2 x.pkey ++ leBytes 4 x.epoch)

/-- An island's installation has not committed: CARVING ends FREE, BOUNDARY in its state before (Table 10.1). -/
def islandUncommitted (s : State) (h status : Nat) : State :=
  match s.isles.islands.get h with
  | none => s
  | some l =>
    let s := if l.st = .boundary then setIsl s h l.prev else s
    let s := answerAt (s.onIsland h fun x => { x with entry := none }) l.entry status
    if l.st = .carving then islandGone (setIsl s h .free) h else s

/-- Microseconds since a fabric time. -/
def usSince (s : State) (t : Nat) : Nat := (s.now - t) / 1000

/-- An installation ends with a status: on OK what was staged is installed; else nothing has changed (R177, R284). -/
def finishInstall (s : State) (k status : Nat) : State :=
  match s.isles.installs.get k with
  | none => s
  | some x =>
    let s := onFy s k fun e => { e with
      fyPhase := .idle, fyResult := BitVec.ofNat 8 status, fyBoundaryUs := usSince s x.t2, fyTotalUs := usSince s x.t1 }
    let s := s.onIsles fun e => { e with installs := e.installs.del k }
    let s := journal s jInstall [at_ k 0, at_ x.epoch 0 ||| at_ status 32]
    let ids := x.members ++ x.switches
    let s :=
      if status = stOk then
        let before := ((s.isles.islands.get k).map fun l => (withIds s l.members).map (·.2)).getD []
        let s := x.moves.foldl spliceDone s
        let s := ids.foldl agentCommitted s
        let s := if x.switches = [] then s else s.onFab fun f => { f with
          circuits := x.circuits, wrongMaps := f.wrongMaps.filter fun w => !(x.switches.any fun id => (f.roster.getD id {}).addr == switchAddr w) }
        if k < 1024 ∧ k ≠ 0 then islandCommitted s k x before else s
      else
        let s := ids.foldl (fun t id => t.onRoster id fun r => { r with stage := r.bank, staged := none }) s
        if k < 1024 ∧ k ≠ 0 then islandUncommitted s k status else s
    let s := if k = 0 ∧ s.power.step = 12 then s.onPower fun p => { p with step := 13 } else s
    match x.ticket with
    | none => s
    | some (c, n) => finishTicket s c n status

/-- After a chip reset or a takeover, an open installation is completed when TS_COMMIT was sent to every member, else abandoned (R292). -/
def resolveInstall (s : State) (k : Nat) : State :=
  match s.isles.installs.get k with
  | none => s
  | some x =>
    let s := onInst s k fun y => { y with
      restart := y.committed, resolving := y.committed, pushes := [], waits := [], status := if y.phase = .abandon then y.status else BitVec.ofNat 16 stFenced }
    enterPhase s k (if x.committed ∧ x.phase ≠ .abandon then .commit else .abandon)

/-- A failure before the end: TS_ABANDON to every member and switch agent, with RESTART once members may have swapped (R291). -/
def failInstall (s : State) (k status : Nat) : State :=
  match s.isles.installs.get k with
  | none => s
  | some x =>
    if x.phase = .abandon then s
    else
      let restart := x.phase == .commit || x.phase == .release
      let s := s.onFab fun f => { f with reqs := f.reqs.keep fun _ q => !(q.island == k && q.kind == 0x0050 && q.ticket.isNone) }
      let s := onInst s k fun x => { x with restart := restart, status := BitVec.ofNat 16 status, pushes := [], waits := [] }
      let s := enterPhase s k .abandon
      if x.members = [] ∧ x.switches = [] then finishInstall s k status else s

/-- The path by the staged tables from a member to another stays among the members, over live links, and ends there (R281). -/
def stagedPath (s : State) (ms : List (FAddr × Nat)) (d : FAddr) : Nat → FAddr → Bool
  | 0, a => a == d
  | fuel + 1, a =>
    if a = d then true
    else match ms.find? fun m => m.1 == a with
      | none => false
      | some m =>
        let b := (s.roster m.2).stage
        match (bankPort b a d).bind fun p => (bankLinks b p).find? fun l => (s.mlink a l).lanes != 0 with
        | none => false
        | some l => stagedPath s ms d fuel (s.mlink a l).nbr

/-- The staged table set may be installed: the walks of R281 end, and no circuit of another running island changes (R38; log 183). -/
def setHolds (s : State) (k : Nat) (x : Install) : Bool :=
  let t := asJoined (asSpliced s x.moves) (if x.switches = [] then s.fab.circuits else x.circuits)
  let g : Region := { low := x.low, shape := x.shape, members := x.newMembers }
  let ms := withIds t g.members
  ((g.members.filter (g.besideHole t)).all fun a => g.members.all fun d => stagedPath t ms d (searchFuel t) a) && (g.quayGap t).isNone &&
    (x.switches == [] || boundaryCircuits s k x.circuits == x.circuits)

/-- Moves an installation on as far as its answers allow; an island's staged set that fails the check of R281 is never installed (R281, R287). -/
def advance : Nat → State → Nat → State
  | 0, s, _ => s
  | n + 1, s, k =>
    match s.isles.installs.get k with
    | none => s
    | some x =>
      if x.waiting ≠ [] then s
      else match x.phase with
        | .staging =>
          if stagingOpen s k ∨ erasing s k ∨ x.pushes ≠ [] ∨ x.waits ≠ [] then s
          else if k ≠ 0 ∧ k < 1024 ∧ !setHolds s k x then failInstall s k stInvalid
          else advance n (enterPhase s k .prepare) k
        | .prepare => advance n (enterPhase s k .quiesce) k
        | .quiesce => advance n (enterPhase s k (if x.switches = [] then .commit else .switches)) k
        | .switches => s
        | .commit => advance n (enterPhase s k .release) k
        | .release => finishInstall s k stOk
        | .abandon => finishInstall s k x.status.toNat
        | .idle => s

/-- An installation starts: step 1, with its banks pushed (R287). -/
def startInstall (s : State) (k : Nat) (x : Install) (banks : List (Nat × Bool × Bank)) : State :=
  let x := { x with phase := .staging, waiting := [], t1 := s.now, t2 := s.now }
  let s := s.onIsles fun e => { e with
    installs := e.installs.set k x, fyKey := k, fyIsland := if k < 1024 then k else 0, fyEpoch := x.epoch }
  let s := enterPhase s k .staging
  let s := banks.foldl (fun t b => sendStage t b.1 k b.2.1 b.2.2) s
  advance 8 (showAnswered s k) k

/-- Endpoints that splices have replaced lose their addresses: each is sent ASSIGN without one, and an installation that names it alone commits it (R44, R225; log 184). -/
def unassignLeft (s : State) : State :=
  (s.fab.roster.filter fun q => q.2.leaving).foldl (fun t q =>
    startInstall (sendAssign (t.onRoster q.1 fun r => { r with leaving := false, staged := some noAddr }) q.1 noAddr) (singleKey q.1)
      { members := [q.1] } [(q.1, false, Bank.reset)]) s

/-- Moves an installation on; where one has ended, the endpoints that it replaced lose their addresses. -/
def goOn (s : State) (k : Nat) : State := unassignLeft (advance 8 s k)

/-- One thing that step 2 waited for has ended (R233, R397, R456). -/
def waitDone (s : State) (code : Nat) : State :=
  (s.isles.installs.filter fun q => q.2.waits.contains code).foldl (fun t q =>
    goOn (onInst t q.1 fun x => { x with waits := x.waits.filter (· != code) }) q.1) s

/-! Push tickets (R170). -/

/-- A push ticket completes; an ECOMMIT that waits for it goes on, or fails (R177). -/
def pushDone (s : State) (t : Nat × Nat) (status : Nat) : State :=
  let s := finishTicket s t.1 t.2 status
  (s.isles.installs.filter fun q => q.2.pushes.contains t).foldl (fun u q =>
    if status = stOk then goOn (onInst u q.1 fun x => { x with pushes := x.pushes.filter (· != t) }) q.1
    else failInstall u q.1 stInvalid) s

/-- TS_DATA has reached an agent that was PREPARED: step 2 is repeated for it (Table 9.7). -/
def repeatPrepare (s : State) (id : Nat) : State :=
  (s.isles.installs.filter fun q => q.2.phase == .prepare && (q.2.members ++ q.2.switches).contains id && !q.2.waiting.contains id).foldl
    (fun t q => sendPhase (showAnswered (onInst t q.1 fun x => { x with waiting := x.waiting ++ [id] }) q.1) q.1 q.2 [id]) s

/-- A TS_DATA is answered, or given up (R170, R286, R291). -/
def elemsDone (s : State) (q : MgReq) (status : Nat) : State :=
  let s := dropReq s q.agent q.tag
  match q.ticket with
  | some t =>
    let s := repeatPrepare s q.agent
    if status ≠ stOk then pushDone s t status
    else if s.fab.reqs.vals.any fun r => r.ticket == some t then s
    else pushDone s t stOk
  | none => if status = stOk then goOn (showAnswered s q.island) q.island else failInstall s q.island stInvalid

/-- An agent has answered the running phase. -/
def phaseAnswered (s : State) (k id : Nat) : State :=
  goOn (showAnswered (onInst s k fun x => { x with waiting := x.waiting.filter (· != id), draining := x.draining.filter (· != id) }) k) k

/-- The drain limit of R289, ns. -/
abbrev drainLimit : Nat := 20000000

/-- The drain limit of the running phase has passed (R287, R289). -/
def Install.drainOver (x : Install) (s : State) : Bool := decide (x.phaseAt + drainLimit ≤ s.now)

/-- An answer to TS_QUIESCE with flows still undrained, before the drain limit: the member drains on, and answers again (R287, R289). -/
def undrainedYet (s : State) (x : Install) (arg : BitVec 32) : Bool := x.phase == .quiesce && decide (65536 ≤ arg.toNat) && !x.drainOver s

/-- The answer of a member that has already been released, to a TS_COMMIT of an installation that is completed from the journal (R292; log 185). -/
def releasedAlready (x : Install) (status : BitVec 8) : Bool := x.resolving && x.phase == .commit && status.toNat == stInvalid

/-- The installation in which an agent takes part under a CONTEXT (R285). -/
def instOf (s : State) (id context : Nat) : Option (Nat × Install) :=
  s.isles.installs.find? fun q => (q.2.members ++ q.2.switches).contains id && q.2.context q.1 % 2 ^ 24 == context

/-- TS_READY: readiness with the CRC of the controller's own copy; a rejection or another CRC fails the commit (R287, R291). -/
def execTsReady (agent context : Nat) (status : BitVec 8) (crc : BitVec 32) (s : State) : Ans :=
  .next (match instOf (heard s agent) agent context with
    | none => s
    | some (k, x) =>
      let s := heard s agent
      if x.phase ≠ .prepare ∨ !x.waiting.contains agent then s
      else if status ≠ 0 ∨ crc ≠ crc32c (memberImage (x.switches.contains agent) (s.roster agent).stage) then failInstall s k stInvalid
      else phaseAnswered s k agent)

/-- TS_ACK: of a TS_DATA by its TAG, else of the running phase; a member with flows undrained is waited for up to the drain limit (R286, R287, R289, R291, R292). -/
def execTsAck (agent context : Nat) (status : BitVec 8) (arg : BitVec 32) (s : State) : Ans :=
  .next (
    let s := heard s agent
    let tag := arg.toNat % 65536
    if tag ≠ 0 then
      match s.req agent tag with
      | none => s
      | some q => if q.kind = 0x0050 then elemsDone s q status.toNat else s
    else match instOf s agent context with
      | none => s
      | some (k, x) =>
        if !x.waiting.contains agent ∨ x.phase = .prepare ∨ x.phase = .staging then s
        else if status ≠ 0 ∧ x.phase ≠ .abandon ∧ !releasedAlready x status then failInstall s k stInvalid
        else if undrainedYet s x arg then onInst s k fun y => { y with draining := y.draining.filter (· != agent) ++ [agent] }
        else phaseAnswered s k agent)

/-- INSTALL_RESEND: 200 µs without an answer; the packet is sent again, at most 16 times, then the phase has failed; members that still drain are waited for up to the drain limit (R287, R291). -/
def execInstallResend (key : Nat) (s : State) : Ans :=
  .next (match s.isles.installs.get key with
    | none => s
    | some x =>
      let silent := x.waiting.filter fun id => !x.draining.contains id
      if x.waiting = [] then s
      else if silent = [] then
        if x.drainOver s then goOn (showAnswered (onInst s key fun y => { y with waiting := [], draining := [] }) key) key else s
      else if x.sends < 17 then sendPhase (onInst s key fun y => { y with sends := y.sends + 1 }) key x silent
      else if x.phase = .abandon then goOn (onInst s key fun y => { y with waiting := [] }) key
      else failInstall s key stInvalid)

/-- Trains links at their agents: the ends given, under the addresses that the splices give (R27, R39). -/
def trainEnds (s : State) (t : State) (ends : List (FAddr × Nat)) : State :=
  ends.foldl (fun u e => match t.agentAt e.1 with
    | none => u
    | some id => onLink u id e.2 fun _ _ => trainLink u id e.2) s

/-- SWITCH_SETTLE: 80 ms after the switch agents acknowledged, the links of the changed circuits are trained, quay links among them, and members commit (R27, R39, R287). -/
def execSwitchSettle (key : Nat) (s : State) : Ans :=
  .next (match s.isles.installs.get key with
    | none => s
    | some x =>
      if x.phase = .switches ∧ x.waiting = [] then
        let t := asSpliced s x.moves
        goOn (enterPhase (trainEnds s t (newEnds s t.fab.spliced s.fab.circuits x.circuits)) key .commit) key
      else s)

/-! TPUSH and ECOMMIT. -/

/-- The words of source elements, none where an element lies outside the table. -/
def sourceWords (t : Table) (first count : Nat) : Option (List Word) :=
  if t.count < first + count then none
  else some ((List.range (count * 2 ^ t.es)).map fun i => t.words.getD (first * 2 ^ t.es + i) 0)

/-- Splits a push to one agent into TS_DATA packets of at most 4,080 bytes (R286). -/
def pushTo (s : State) (id t first : Nat) (ws : List Word) (ticket : Nat × Nat) : State :=
  let n := ws.length / tblWords t
  (runsOf (4080 / (8 * tblWords t)) (List.range n)).foldl (fun u r =>
    sendElems u id 0 t (first + r.1) ((ws.drop (r.1 * tblWords t)).take (r.2 * tblWords t)) (some ticket)) s

/-- The agents that a push names, in order, or the exception: PARAM, then ACCESS, then HANDLE (R164, R170, Table 5.9). -/
def pushDests (s : State) (c : Nat) (bs : List Byte) : Except Exc (List (Option Nat)) :=
  let dest := wordAt bs 0x18
  let own := ((s.eng.ctxs.get c).map (·.island)).getD 0
  if dest.getLsbD 63 then
    let l := s.isles.islands.get (fld dest 15 0)
    if (match l with
      | none => false
      | some l => leAt bs 0x08 4 != leAt bs 0x20 4 * l.members.length) then .error { code := xParam, info := dest }
    else match l with
      | none => .error { code := xAccess, info := dest }
      | some l =>
        if !isSystem c && own != fld dest 15 0 then .error { code := xAccess, info := dest }
        else .ok (l.members.map s.agentAt)
  else
    let a : FAddr := dest.truncate 28
    let member := ((s.isles.islands.get own).map fun l => l.members.contains a).getD false
    if !isSystem c && (own == 0 || !member) then .error { code := xAccess, info := dest }
    else .ok [s.agentAt a]

/-- The destinations of a push with their blocks, or the exception (Table 5.9, R170). -/
def pushPlan (s : State) (c : Nat) (bs : List Byte) : Except Exc (List (Option Nat × List Word)) :=
  match pushDests s c bs, tableCheck s c (wordAt bs 0) [0] false with
  | .error e, _ => .error e
  | .ok _, .error e => .error e
  | .ok ids, .ok t =>
    match sourceWords t (handleIndex (wordAt bs 0)) (leAt bs 0x08 4) with
    | none => .error { code := xHandle, info := wordAt bs 0 }
    | some ws =>
      let n := if (wordAt bs 0x18).getLsbD 63 then leAt bs 0x20 4 * 2 ^ t.es else ws.length
      .ok (ids.zipIdx.map fun p => (p.1, (ws.drop (n * p.2)).take n))

/-- The words of an element of the push's source. -/
def pushWidth (s : State) (c : Nat) (bs : List Byte) : Nat :=
  match tableCheck s c (wordAt bs 0) [0] false with
  | .error _ => 0
  | .ok t => 2 ^ t.es

/-- Reserved fields of the block of Table 5.9 are zero. -/
def pushBlockOk (bs : List Byte) : Bool :=
  let dest := wordAt bs 0x18
  leAt bs 0x0C 4 == 0 && fld (wordAt bs 0x10) 63 48 == 0 && leAt bs 0x24 4 == 0 &&
    (if dest.getLsbD 63 then fld dest 62 16 == 0 else fld dest 62 28 == 0 && leAt bs 0x20 4 == 0)

/-- TPUSH: table elements go to agents' staging copies through the ferry; g[d] := ticket (R170). -/
def execTpush (who : Who) (i : Ins) (s : State) : Ans :=
  .next (runIns who i { op := 0x77, srcb := .unused, profile := false } none s fun s c =>
    match who with
    | .agent _ => s
    | .ctx n =>
      withBlock s who i c 40 pushBlockOk fun bs =>
        match pushPlan s n bs with
        | .error e => raiseExc s who c.pc (e.told 0x77 i (c.opA i))
        | .ok dests =>
          let tb := fld (wordAt bs 0x10) 15 0
          let first := fld (wordAt bs 0x10) 47 16
          issueTicket who i s c 20 { op := 0x77, dom := 18 } fun ctx tk s =>
            let fits := tb < 16 && tblCount tb != 0 && tb != 7 && tblWords tb == pushWidth s n bs &&
              dests.all fun d => d.1.isSome && decide (first + d.2.length / tblWords tb ≤ tblCount tb)
            if !s.running 18 ∧ s.domSt 18 = .fenced then finishTicket s ctx tk stFenced
            else if !fits then finishTicket s ctx tk stInvalid
            else if dests.all (fun d => d.2 == []) then finishTicket s ctx tk stOk
            else dests.foldl (fun u d => match d.1 with
              | none => u
              | some id => pushTo u id tb first d.2 (ctx, tk)) (wake s 18))

/-- The islands that R12 admits to boundaries: the earliest carved, up to MAX_ISLANDS. -/
def admitted (s : State) (h : Nat) : Bool :=
  match s.isles.islands.get h with
  | none => false
  | some l => decide (((liveIslands s).filter fun q => decide (q.2.order < l.order)).length < s.lic.maxIslands)

/-- A partition key is held by another live island, or, unless it is the island's own, not yet free (R48). -/
def keyTaken (s : State) (h k : Nat) : Bool :=
  (s.isles.islands.any fun q => q.1 != h && q.2.st != .free && q.2.pkey == k) ||
    ((s.isles.retiring.get k).isSome && (s.isles.islands.get h).map (·.pkey) != some k)

/-- The islands that already run when one asks for EPOCH 1: an island that has an epoch counts itself, unless it is at its last and starts anew (R50, R177). -/
def runningIslands (s : State) (h : Nat) : Nat :=
  ((liveIslands s).filter fun q => q.1 != h || (q.2.epoch != 0 && q.2.epoch != 0xFFFFFFFF)).length

/-- The status with which an ECOMMIT ends at once, `bad` when a listed ticket has completed other than OK: UNSUPPORTED, then INVALID, then FENCED (R177). An island without a record has epoch 0 and no members to commit, and one whose installation is open takes that epoch already: INVALID (log 76). -/
def commitRefusal (s : State) (h epoch key : Nat) (bad : Bool) : Option Nat :=
  let l := s.isles.islands.get h
  if epoch = 1 ∧ s.lic.maxIslands ≤ runningIslands s h then some stUnsupported
  else if 1 < epoch ∧ !admitted s h then some stUnsupported
  else if epoch ≠ (l.map (·.epoch)).getD 0 + 1 ∨ 2 ^ 32 ≤ epoch ∨ key = 0 ∨ key = 0xFFFF ∨ keyTaken s h key ∨ bad = true then some stInvalid
  else if l.isNone ∨ (s.isles.installs.get h).isSome then some stInvalid
  else if l.any (·.st == .aborted) then some stFenced
  else none

/-- The switch agents whose staged circuits differ from those installed. -/
def stagedSwitches (s : State) : List Nat :=
  (s.fab.roster.filter fun q => addrKind q.2.addr == 1 && q.2.stage != q.2.bank).map (·.1)

/-- The circuit map that switches' staging tables give. -/
def stagedCircuits (s : State) : FMap Nat :=
  (stagedSwitches s).foldl (fun m id =>
    let sw := addrIndex (s.roster id).addr
    (List.range 256).foldl (fun m p =>
      let w := Bank.word (s.roster id).stage 8 p 0
      if w.getLsbD 8 then m.set (swKey sw p) (fld w 7 0 + 1) else m.del (swKey sw p)) m) s.fab.circuits

/-- The block of ECOMMIT has its reserved bytes zero and 1 to 16 tickets (Table 5.13). -/
def commitBlockOk (bs : List Byte) : Bool :=
  zeroAt bs 2 6 && zeroAt bs 0x0C 4 && zeroAt bs 0x12 6 && leAt bs 0x20 8 < 17 && leAt bs 0x20 8 != 0

/-- ECOMMIT: waits for its push tickets, then commits an island's new epoch; g[d] := ticket; system only; PARAM, ACCESS, TICKET in this order (R164, R176, R177). -/
def execEcommit (who : Who) (i : Ins) (s : State) : Ans :=
  .next (runIns who i { op := 0xA0, srcb := .unused, profile := false } none s fun s c =>
    match who with
    | .agent _ => s
    | .ctx n =>
      withBlock s who i c 40 commitBlockOk fun bs =>
        let cnt := leAt bs 0x20 8
        match loadRange s who (wordAt bs 0x18) (8 * cnt) with
        | .error _ => raiseExc s who c.pc { code := xParam, info := c.opA i }
        | .ok lst =>
          let tks := (List.range cnt).map fun j => (wordAt lst (8 * j)).toNat
          let open_ : FMap Ticket := ((s.eng.ctxs.get n).map (·.tickets)).getD []
          if !isSystem n then raiseExc s who c.pc { code := xAccess, info := encodeWord 0xA0 i }
          else if !(tks.all fun t => (open_.get t).isSome) then raiseExc s who c.pc { code := xTicket }
          else
            let h := leAt bs 0 2
            let epoch := leAt bs 8 4
            let key := leAt bs 0x10 2
            let st (t : Nat) : Option (BitVec 16) := ((open_.get t).map (·.status)).getD none
            correctRange (issueTicket who i s c 30 { op := 0xA0, dom := 18 } fun ctx tk s =>
              match commitRefusal s h epoch key (tks.any fun t => (st t).isSome && st t != some 0), s.isles.islands.get h with
              | some st, _ => finishTicket s ctx tk st
              | none, none => finishTicket s ctx tk stInvalid
              | none, some l =>
                let ids := (withIds s l.members).map (·.2)
                let x : Install :=
                  { epoch := epoch, pkey := key, members := ids, switches := stagedSwitches s, circuits := stagedCircuits s
                    ticket := some (ctx, tk), pushes := (tks.filter fun t => (st t).isNone).map fun t => (n, t)
                    newMembers := l.members, low := l.low, shape := l.shape, sched := l.sched }
                let w4 := at_ h 48 ||| at_ epoch 16 ||| at_ key 0
                startInstall (wake s 18) h x (ids.map fun id => (id, false, Bank.setWord (s.roster id).stage 6 0 4 w4))) who (wordAt bs 0x18) (8 * cnt))

/-- DETOUR_RECOMPUTE: the islands whose members' ports a change of the fabric model touches have recomputed detours due at their next boundary (R297). -/
def execDetourRecompute (island : Nat) (s : State) : Ans :=
  .next (s.onIsland island fun l => { l with detoursDue := true })

end Sys2Proof.Machine
end

