-- ==== Sys2Proof/Machine/Scheds.lean ====
section
/-! DEFINITION. Schedule images as the controller reads them, what they use of the fabric, and staleness (R298 to R304, R309). -/

namespace Sys2Proof.Machine

/-- The image of a schedule, while the model holds it. -/
def schedImage (s : State) (id : Nat) : Option (List Byte) := (s.isles.scheds.get id).map (·.image)

/-- A cached schedule fits an island: shape, closed rings and member set (R301). -/
def schedFits (s : State) (img : List Byte) (g : Region) : Bool :=
  leAt img 8 4 == axis g.shape 3 * 2 ^ 24 + axis g.shape 2 * 2 ^ 16 + axis g.shape 1 * 2 ^ 8 + axis g.shape 0 &&
    leAt img 0x0C 1 == ((List.range 4).filter (g.closed s)).foldl (fun w k => w + 2 ^ k) 0 &&
    leAt img 0x18 4 == g.members.length &&
    g.members.all fun a => (sectionAt img (g.relAddr s a) (leAt img 0x18 4) 0x60).isSome

/-! Reading an image (Tables 9.9, 9.10 and 6.12). -/

/-- The sections of an image: relative coordinates, the word at 0x08 and SLOTS bytes, and the offset behind them; none where one runs past the end. -/
def sectionsOf (img : List Byte) : Nat → Nat → Option (List (Nat × Word × List Byte) × Nat)
  | 0, off => some ([], off)
  | n + 1, off =>
    let entries := leAt img (off + 4) 4
    if entries = 0 ∨ 16384 < entries ∨ img.length < off + 16 + 16 * entries then none
    else match sectionsOf img n (off + 16 + 16 * entries) with
      | none => none
      | some (l, e) => some ((leAt img off 4, wordAt img (off + 8), slice img (off + 16) (16 * entries)) :: l, e)

/-- The SLOTS entries of a section. -/
def slotPairs (bs : List Byte) : List (Word × Word) := (List.range (bs.length / 16)).map fun i => (wordAt bs (16 * i), wordAt bs (16 * i + 8))

/-- A relative destination lies below the shape, KIND 0. -/
def relInside (shape r : Nat) : Bool :=
  decide (r < 2 ^ 24) && (List.range 4).all fun k => decide (bits r (6 * k + 5) (6 * k) < bits shape (8 * k + 7) (8 * k))

/-- The slots that entries cover, in all. -/
def slotSpan (l : List (Word × Word)) : Nat := l.foldl (fun n e => n + fld e.2 15 0 + 1) 0

/-- A section keeps Tables 9.10 and 6.12. -/
def sectionHolds (shape period : Nat) (q : Nat × Word × List Byte) : Bool :=
  let es := slotPairs q.2.2
  relInside shape q.1 && q.2.1 == 0 && slotSpan es == period &&
    ((es.dropLast).all fun e => !e.2.getLsbD 63) && (es.getLast?.any fun e => e.2.getLsbD 63) &&
    es.all fun e =>
      fld e.1 62 60 == 0 && fld e.1 30 28 == 0 && fld e.2 62 32 == 0 &&
        (if e.1.getLsbD 31 then relInside shape (fld e.1 27 0) else fld e.1 27 0 == 0) &&
        (if e.1.getLsbD 63 then relInside shape (fld e.1 59 32) else fld e.1 59 32 == 0)

/-- The relative coordinates of the sections, each once. -/
def onceEach (l : List Nat) : Bool := l.all fun a => (l.filter fun b => b == a).length == 1

/-- An image keeps Tables 9.9 and 9.10, R304 and its FINGERPRINT (R298, R301). -/
def imageHolds (img : List Byte) : Bool :=
  let n := img.length
  let cls := leAt img 6 1
  let shape := leAt img 8 4
  let slot := leAt img 0x10 2
  let period := leAt img 0x14 4
  let members := leAt img 0x18 4
  let model := leAt img 0x58 8
  decide (144 ≤ n) && leAt img 0 4 == 0x53434844 && leAt img 4 2 == 1 && decide (cls ≤ 2) &&
    decide (1 ≤ leAt img 7 1) && decide (leAt img 7 1 ≤ 4) && decide (leAt img 0x0C 1 < 16) && decide (leAt img 0x0D 1 ≤ 3) &&
    decide (leAt img 0x0E 1 ≤ 100) && leAt img 0x0F 1 == 0 && decide (250 ≤ slot) && decide (slot ≤ 16000) &&
    decide (leAt img 0x12 2 ≤ 1000) && decide (1 ≤ period) && decide (period ≤ 65536) && decide (1 ≤ members) && decide (members ≤ 131072) &&
    (if cls = 2 then decide (slot ≤ 500) && decide (period * slot ≤ 8000) && decide (model ≤ 8000) else model == 0) &&
    (match sectionsOf img members 0x60 with
      | none => false
      | some (l, e) => e + 48 == n && (l.all (sectionHolds shape period)) && onceEach (l.map (·.1))) &&
    slice img (n - 48) 48 == hashBytes (Config.sha384 (img.take (n - 48)))

/-! What a schedule uses of the fabric (R300). -/

/-- The hops of a scheduled packet with its VC: routed hops under R191 and R194. -/
def flowHops (s : State) (g : Region) (a d : FAddr) : List (FAddr × Nat × Nat) :=
  let hops := g.onward s [] d (searchFuel s) a
  (hops.zip (g.channels s none false hops)).map fun q => (q.1.1, q.1.2, q.2 % 2)

/-- The links of a port that are live. -/
def liveLinksOf (s : State) (a : FAddr) (p : Nat) : List Nat :=
  (List.range 16).filter fun l => (s.mlink a l).port == some p && (s.mlink a l).lanes != 0

/-- The link that a flow takes at a port, as its agent picks it (R32). -/
def flowLink (s : State) (src dst : FAddr) (h : FAddr × Nat × Nat) : Option (FAddr × Nat) :=
  (pickLink (fun l => (s.mlink h.1 l).lanes != 0) (Config.linkHash src.toNat dst.toNat h.2.2) 16
    ((List.range 16).filter fun l => (s.mlink h.1 l).port == some h.2.1)).map fun l => (h.1, l)

/-- The links that a scheduled flow takes. -/
def flowLinks (s : State) (g : Region) (a d : FAddr) : List (FAddr × Nat) := (flowHops s g a d).filterMap (flowLink s a d)

/-- The entry in force in a slot of the period. -/
def entryIn (slot : Nat) : List (Word × Word) → Option (Word × Word)
  | [] => none
  | e :: es => if slot < fld e.2 15 0 + 1 then some e else entryIn (slot - (fld e.2 15 0 + 1)) es

/-- The absolute destinations of an entry. -/
def Region.dests (g : Region) (s : State) (e : Word × Word) : List FAddr :=
  (if e.1.getLsbD 31 then [g.absAddr s (BitVec.ofNat 28 (fld e.1 27 0))] else []) ++
    (if e.1.getLsbD 63 then [g.absAddr s (BitVec.ofNat 28 (fld e.1 59 32))] else [])

/-- Packets that an entry allows in a slot; no limit is the 64 packets that R208 allows one flow. -/
def budgetOf (e : Word × Word) : Nat := if fld e.2 31 16 = 0 then 64 else fld e.2 31 16

/-- Each member's section: its address and its SLOTS entries. -/
def Region.plans (g : Region) (s : State) (img : List Byte) : List (FAddr × List (Word × Word)) :=
  g.members.filterMap fun a => (sectionAt img (g.relAddr s a) (leAt img 0x18 4) 0x60).map fun bs => (a, slotPairs bs)

/-- Packets that an entry puts on one link that n of its flows take: no more than its BUDGET, and 64 for each flow (R208, R300). -/
def linkBudget (e : Word × Word) (n : Nat) : Nat := if fld e.2 31 16 = 0 then 64 * n else Nat.min (fld e.2 31 16) (64 * n)

/-- Packets put on each link in a slot, as (link, packets) pairs. -/
def Region.slotLoads (g : Region) (s : State) (plans : List (FAddr × List (Word × Word))) (slot : Nat) : List ((FAddr × Nat) × Nat) :=
  plans.flatMap fun q =>
    match entryIn slot q.2 with
    | none => []
    | some e =>
      let ls := (g.dests s e).flatMap (flowLinks s g q.1)
      ls.eraseDups.map fun l => (l, linkBudget e (ls.filter (· == l)).length)

/-- The first condition of R300: in every slot every link carries its packets, 65 flits of 64 bytes each, in the usable slot time at LANE_FLOOR lanes of 28 bytes per ns, and no flow exceeds 64 packets. -/
def wireFits (s : State) (g : Region) (img : List Byte) : Bool :=
  let plans := g.plans s img
  let usable := leAt img 0x10 2 - leAt img 0x12 2
  (plans.all fun q => q.2.all fun e => decide (budgetOf e ≤ 64) || g.dests s e == []) &&
    (List.range (leAt img 0x14 4)).all fun slot =>
      let loads := g.slotLoads s plans slot
      loads.all fun x =>
        let pk := (loads.filter fun y => y.1 == x.1).foldl (fun n y => n + y.2) 0
        decide (pk * 65 * 64 ≤ usable * 28 * leAt img 7 1)

/-- The links that a schedule uses: every link of the ports on its flows' routes. -/
def schedLinks (s : State) (g : Region) (img : List Byte) : List (FAddr × Nat) :=
  ((g.plans s img).flatMap fun q => q.2.flatMap fun e => (g.dests s e).flatMap fun d =>
    (flowHops s g q.1 d).flatMap fun h => (liveLinksOf s h.1 h.2.1).map fun l => (h.1, l)).eraseDups

/-- A link that a schedule uses runs below LANE_FLOOR (R301, R309). -/
def belowFloor (s : State) (g : Region) (img : List Byte) : Bool :=
  (schedLinks s g img).any fun q => decide ((s.mlink q.1 q.2).lanes < leAt img 7 1)

/-- Inserts a number into an ascending list, once. -/
def insNat (n : Nat) : List Nat → List Nat
  | [] => [n]
  | a :: as => if n < a then n :: a :: as else if n = a then a :: as else a :: insNat n as

/-- The dead links of an island in island-relative link ids, ascending: links of its members toward its members that are not live (R298). -/
def deadLinks (s : State) (g : Region) : List Nat :=
  let ids := g.members.flatMap fun a => ((List.range 16).filter fun l =>
    (s.mlink a l).port.isSome && (s.mlink a l).lanes == 0 && g.members.contains (s.mlink a l).nbr).map fun l => g.relAddr s a * 16 + l
  ids.foldr insNat []

/-- HEALTH of an island: SHA-384 of its dead-link list, 4 bytes each. -/
def healthOf (s : State) (g : Region) : List Byte := hashBytes (Config.sha384 ((deadLinks s g).flatMap (leBytes 4)))

/-- The lowest lane count in use on an island's own links; 4 where none is in use (R302). -/
def lowestLanes (s : State) (g : Region) : Nat :=
  (g.members.flatMap fun a => (List.range 16).filterMap fun l =>
    let m := s.mlink a l
    if m.port.isSome ∧ m.lanes ≠ 0 ∧ g.members.contains m.nbr then some m.lanes else none).foldl Nat.min 4

/-! Staleness (R309). -/

/-- The licence that an image needs is absent (R9, R301). -/
def schedUnlicensed (s : State) (img : List Byte) : Bool :=
  (decide (16384 < leAt img 0x14 4) && !s.lic.valid.getLsbD 4) || (leAt img 6 1 == 2 && !s.lic.valid.getLsbD 2)

/-- Marks an island's schedule stale, once, with the reason (R309). -/
def markStale (s : State) (h reason : Nat) : State :=
  match s.isles.islands.get h with
  | none => s
  | some l =>
    if l.stale ∨ l.sched = 0 then s
    else
      let s := s.onIsland h fun x => { x with stale := true, schedLapsed := x.schedLapsed || reason == 5 }
      let gives := [h, l.sched, reason]
      let s := s.post { s.mkRec 0 0 0x1C2 .corrected (Config.openDetail 0x1C2 0 s.nonce gives) (Config.openDetail 0x1C2 1 s.nonce gives) with island := h }
      notify s 7 h (BitVec.ofNat 64 l.sched) 1

/-- The reasons of R309 that the model and the licences give: 3 lanes, 4 dead links, 5 licence. -/
def staleCause (s : State) (l : Island) : Option Nat :=
  match schedImage s l.sched with
  | none => none
  | some img =>
    if schedUnlicensed s img then some 5
    else if belowFloor s l.region img then some 3
    else if healthOf s l.region ≠ slice img 0x20 48 then some 4
    else none

/-- Looks at every island that runs a schedule. -/
def checkStale (s : State) : State :=
  (liveIslands s).foldl (fun t q => if q.2.sched = 0 ∨ q.2.stale then t else
    match staleCause t q.2 with
    | none => t
    | some r => markStale t q.1 r) s

/-- Notes a slip's period in the run of consecutive periods. -/
def slipPeriod (l : Island) (n : Nat) : Island :=
  match l.slipLast with
  | none => { l with slipLast := some n, slipPeriods := 1 }
  | some m => if n = m then l else { l with slipLast := some n, slipPeriods := if n = m + 1 then l.slipPeriods + 1 else 1 }

/-- A SCHEDULE_SLIP record's slips count: reasons 1, three consecutive periods, and 2, more than 1 in 10,000 scheduled slots over 1 s (R309). -/
def takeSlip (s : State) (r : Rec) : State :=
  match s.isles.islands.get r.island with
  | none => s
  | some l =>
    match schedImage s l.sched with
    | none => s
    | some img =>
      let slot := leAt img 0x10 2
      let len := leAt img 0x14 4 * slot
      let t0 := ((l.members.head?.bind s.agentAt).map fun id => (Bank.word (s.roster id).bank 6 0 2).toNat).getD 0
      let l := slipPeriod (slipPeriod l ((r.firstTime - t0) / len)) ((r.lastTime - t0) / len)
      let l := { l with slips := (l.slips.filter fun q => decide (r.lastTime < q.1 + 1000000000)) ++ [(r.lastTime, r.count)] }
      let s := s.onIsland r.island fun _ => l
      let total := l.slips.foldl (fun n q => n + q.2) 0
      let slots := l.members.length * (1000000000 / slot)
      if 3 ≤ l.slipPeriods then markStale s r.island 1 else if slots < 10000 * total then markStale s r.island 2 else s

end Sys2Proof.Machine
end

