-- ==== Sys2Proof/Machine/Nv.lean ====
section
/-! DEFINITION. The persistent store: pages, blocks, reads and repairs, dressing, the anchor, the ledge and objects (R408 to R434). -/

namespace Sys2Proof.Machine

/-! Places (R408, R409, Tables 13.1, 13.2). -/

/-- Die of a block key. -/
def blockDie (b : Nat) : Nat := b / 2048

/-- The block exists (R408). -/
def blockExists (b : Nat) : Bool := decide (b < 16384)

/-- One block. -/
def State.block (s : State) (b : Nat) : Block := s.nv.blocks.getD b {}

/-- Changes one block. -/
def onBlock (s : State) (b : Nat) (f : Block → Block) : State :=
  s.onNv fun n => { n with blocks := n.blocks.put b (f (n.blocks.getD b {})) {} }

/-- The block works in SLC mode. -/
def isSlc (s : State) (b : Nat) : Bool := decide (b % 2048 < 512) || (s.block b).slcMoved

/-- Pages of a block by its mode. -/
def blockPages (s : State) (b : Nat) : Nat := if isSlc s b then 256 else 1024

/-- Page address of the first page of a block (R408). -/
def pageAddr (b page : Nat) : Nat := b * 1024 + page

/-- Erase limit (Table 13.2). -/
def eraseLimit (s : State) (b : Nat) : Nat := if isSlc s b then 50000 else 1500

/-- Reads before refresh (Table 13.2). -/
def readLimit (s : State) (b : Nat) : Nat := if isSlc s b then 100000 else 10000

/-- Retention age in ns (Table 13.2). -/
def retentionNs (s : State) (b : Nat) : Nat :=
  (if isSlc s b then s.nv.retSlcD.toNat else s.nv.retQlcD.toNat) * 86400000000000

/-- Blocks of a die out of use, in the journal pool or in bulk. -/
def lostBlocks (s : State) (die : Nat) (slc : Bool) : Nat :=
  (s.nv.blocks.filter fun q => decide (blockDie q.1 = die) && decide (q.1 % 2048 < 512) == slc && (q.2.bad || q.2.retired)).length

/-- Bulk blocks of a die taken into SLC mode (R414). -/
def movedBlocks (s : State) (die : Nat) : Nat :=
  (s.nv.blocks.filter fun q => decide (blockDie q.1 = die) && q.2.slcMoved).length

/-- Spare journal-pool blocks of a die (R414). -/
def spareSlc (s : State) (die : Nat) : Nat := 32 + movedBlocks s die - lostBlocks s die true

/-- Spare bulk blocks of a die (R414). -/
def spareQlc (s : State) (die : Nat) : Nat := 64 - movedBlocks s die - lostBlocks s die false

/-- A journal pool with fewer than 8 spares on a die takes a spare bulk block of it: the highest that is in use nowhere (R414, log 29). -/
def takeSpare (s : State) (die : Nat) : State :=
  if 8 ≤ spareSlc s die ∨ spareQlc s die = 0 then s
  else match findFrom (fun k => s.nv.blocks.get (die * 2048 + 2047 - k) == none) 1536 0 with
    | none => s
    | some k => onBlock s (die * 2048 + 2047 - k) fun x => { x with slcMoved := true }

/-- Object classes of the store; DESIGN CHOICE: the numbers. -/
abbrev clsSlot : Nat := 1
/-- Agent images by host chip class: manifest, then image. -/
abbrev clsAgentFw : Nat := 2
/-- Fabric plans. -/
abbrev clsPlan : Nat := 3
/-- Licences. -/
abbrev clsLicence : Nat := 4
/-- Pattern sets. -/
abbrev clsPattern : Nat := 5
/-- Integrity history. -/
abbrev clsHistory : Nat := 6
/-- CPER records. -/
abbrev clsCper : Nat := 7
/-- Cached schedules. -/
abbrev clsSched : Nat := 8

/-- Key of an object. -/
def objKey (cls id : Nat) : Nat := cls * 2 ^ 64 + id

/-! The schedule cache in bulk (R302, R414, R431). -/

/-- Images that the cache holds (R302). -/
abbrev cacheLimit : Nat := 4096

/-- Cached schedules. -/
def cachedScheds (s : State) : List (Nat × Sched) := s.isles.scheds.filter fun q => q.2.cached

/-- The quota of the cache in bytes: 86 GiB, less 8 MiB of data for each bulk block that is lost beyond the spares of its die (R414, Table 13.9). -/
def cacheQuota (s : State) : Nat :=
  86 * 2 ^ 30 - 2 ^ 23 * (List.range 8).foldl (fun n d => n + (movedBlocks s d + lostBlocks s d false - 64)) 0

/-- Images, with so many more and so many more bytes, pass what the cache holds. -/
def cacheOver (s : State) (l : List (Nat × Sched)) (more bytes : Nat) : Bool :=
  decide (cacheLimit < l.length + more) || decide (cacheQuota s < l.foldl (fun n q => n + q.2.image.length) bytes)

/-- The cached image to evict: unpinned, least recently installed (R302). -/
def evictable (s : State) : Option Nat :=
  ((cachedScheds s).filter fun q => !q.2.pin).foldl (fun (b : Option (Nat × Nat)) q =>
    match b with
    | none => some (q.1, q.2.used)
    | some (_, u) => if q.2.used < u then some (q.1, q.2.used) else b) none |>.map (·.1)

/-- Evicts images until so many more with so many bytes fit, or none can go; at most `fuel` (R302). -/
def evictFor (s : State) (more bytes : Nat) : Nat → State
  | 0 => s
  | fuel + 1 =>
    if !cacheOver s (cachedScheds s) more bytes then s
    else match evictable s with
      | none => s
      | some k =>
        let s := s.onIsles fun e => { e with scheds := e.scheds.upd k fun q => { q with cached := false } }
        evictFor (s.onNv fun n => { n with objects := n.objects.del (objKey clsSched k) }) more bytes fuel

/-- A BLOCK record of a block's state (Table 13.4). -/
def journalBlock (s : State) (b : Nat) : State :=
  let x := s.block b
  journal s jBlock [BitVec.ofNat 64 b, b1 x.bad 0 ||| b1 x.retired 1 ||| b1 x.slcMoved 2]

/-- A block becomes grown bad: recorded, journalled, replaced from the spares; the schedule cache takes the loss of bulk (R411, R414). -/
def growBad (s : State) (b kind : Nat) : State :=
  let s := onBlock s b fun x => { x with bad := true }
  let s := nvFault s (blockDie b / 2) kind .corrected (pageAddr b 0)
  let s := takeSpare (journalBlock s b) (blockDie b)
  evictFor s 0 0 (cachedScheds s).length

/-- A block at its erase limit is retired once its data has moved (R414). -/
def retireWorn (s : State) (b : Nat) : State :=
  if (s.block b).erases < eraseLimit s b ∨ (s.block b).retired then s
  else
    let s := onBlock s b fun x => { x with retired := true }
    let s := takeSpare (journalBlock (nvFault s (blockDie b / 2) 0x247 .note (pageAddr b 0)) b) (blockDie b)
    evictFor s 0 0 (cachedScheds s).length

/-- Asks for a block's refresh. -/
def askRefresh (s : State) (b : Nat) : State :=
  if s.nv.refresh.contains b then s else s.onNv fun n => { n with refresh := n.refresh ++ [b] }

/-- The spread of erase counts at which a region is levelled (Table 13.2). -/
def levelSpread (slc : Bool) : Nat := if slc then 5000 else 150

/-- Static levelling: when the erase counts of a region spread by more than its figure, the data of its least-erased block is asked to move (R412; log 196). -/
def levelRegion (s : State) (slc : Bool) : State :=
  let inUse := s.nv.blocks.filter fun q => isSlc s q.1 == slc && !q.2.bad && !q.2.retired
  let top := inUse.foldl (fun m q => Nat.max m q.2.erases) 0
  match inUse.foldl (fun (low : Option (Nat × Nat)) q =>
      if q.2.blank ∨ q.2.programmed = 0 then low
      else match low with
        | none => some (q.1, q.2.erases)
        | some l => if q.2.erases < l.2 then some (q.1, q.2.erases) else some l) none with
  | none => s
  | some l => if l.2 + levelSpread slc < top then askRefresh s l.1 else s

/-- BLOCK_ERASE: an erase ends; a failure makes the block grown bad, a worn block is retired, and its region is levelled (R411, R412, R424). -/
def execBlockErase (block : Nat) (pass : Bool) (s : State) : Ans :=
  if !blockExists block then .fault .noSuchFlashPlace
  else .next (if (s.block block).bad ∨ (s.block block).retired then s
    else if pass then levelRegion (retireWorn (onBlock s block fun x => { x with erases := x.erases + 1, reads := 0, blank := true }) block) (isSlc s block)
    else growBad (onBlock s block fun x => { x with erases := x.erases + 1 }) block 0x246)

/-! Face pages (R417, R418). -/

/-- A page is durable: both copies have passed, or one while fewer than two channels are live. -/
def FPage.durable (p : FPage) (single : Bool) : Bool := if single then p.ok0 || p.ok1 else p.ok0 && p.ok1

/-- The highest durable JSN of a run of pages that are durable one after another. -/
def durableTo (single : Bool) : List FPage → Nat → Nat
  | [], d => d
  | p :: ps, d => if p.durable single || decide (p.last ≤ d) then durableTo single ps (Nat.max d p.last) else d

/-- LAST_DURABLE follows the pages; a standby acknowledges what has become durable (R418, R447). -/
def settleDurable (s : State) : State :=
  let old := s.nv.durable
  let s := s.onNv fun n => { n with durable := durableTo n.singleCopy n.face n.durable }
  if s.pair.role = .standby ∧ old < s.nv.durable then shipFrame s 2 s.nv.durable [] else s

/-- SINGLE_COPY follows the live channels (R418). -/
def settleSingle (s : State) : State :=
  let single := decide (channelsLive s < 2)
  if single = s.nv.singleCopy then s
  else
    let s := s.onNv fun n => { n with singleCopy := single }
    if single then nvFault s 4 0x249 .degraded 0 else clearKind s 0x249

/-- QUIET_PERIOD_END: a source has had no record of class DEGRADED or above accepted for QUIET_S; its Quiet records clear, and a channel that this brings back ends SINGLE_COPY (R356, R433, Table 13.11). -/
def execQuietPeriodEnd (source : FAddr) (unit : BitVec 12) (s : State) : Ans :=
  .next (settleSingle (clearRecs s fun r => r.source == source && r.unit == unit && r.quiet))

/-- The channel of a copy of face page n: copy 0 on n mod 4 and copy 1 on (n + 2) mod 4; where that channel is out of use, the next live one that does not hold the other copy, none when there is none (R417, R418). -/
def copyChannel (s : State) (n : Nat) (second : Bool) : Option Nat :=
  let nextFrom (c other : Nat) : Option Nat := [(c + 1) % 4, (c + 2) % 4, (c + 3) % 4].find? fun k => nvUnitUp s k && k != other
  let a := n % 4
  let b := (n + 2) % 4
  let c0 := if nvUnitUp s a then some a else nextFrom a b
  if !second then c0
  else if nvUnitUp s b then some b
  else nextFrom b (c0.getD a)

/-- FACE_FLUSH: FLUSH_US after the first record that is in no closed page, the open page is closed (R417). -/
def execFaceFlush (s : State) : Ans := .next (if nvDown s then s else closePage (settleSingle s))

/-- Changes one page of a list of pages. -/
def onNth {α : Type} (f : α → α) : Nat → List α → List α
  | _, [] => []
  | 0, x :: xs => f x :: xs
  | n + 1, x :: xs => x :: onNth f n xs

/-- PAGE_PROGRAMMED: the program of one copy of a face page ends in a block; a failed one is grown bad and the copy is written again. A bad block is never programmed, and a copy passes on its own channel only (R411, R417, R418). -/
def execPageProgrammed (page : Nat) (second : Bool) (block : Nat) (pass : Bool) (s : State) : Ans :=
  if !blockExists block then .fault .noSuchFlashPlace
  else .next (if nvDown s ∨ (s.block block).bad then s
    else
      let s := settleSingle s
      if !pass then growBad s block 0x245
      else if (s.nv.face[page]?).bind (fun p => copyChannel s p.num second) ≠ some (blockDie block / 2) then s
      else
        let s := onBlock s block fun x => { x with programmed := s.now, blank := false }
        settleDurable (s.onNv fun n =>
          { n with face := onNth (fun p => if second then { p with ok1 := true } else { p with ok0 := true }) page n.face }))

/-- JOURNAL_WRITE: a unit appends a record; an entry whose write a full face holds is noted (R416, R419). -/
def execJournalWrite (typ : Nat) (body : List Word) (entry : Option (Nat × BitVec 32)) (s : State) : Ans :=
  .next (if 16296 < 8 * body.length then s
    else
      let held := s.nv.faceFull && typ != jFault
      let s := journal s typ body
      match entry with
      | none => s
      | some e => if held then s.onNv fun n => { n with heldWrites := n.heldWrites ++ [e] } else s)

/-- FACE_FULL_TIMEOUT: an entry held by a full face completes with BUSY after 10 ms (R419). -/
def execFaceFullTimeout (ring : Nat) (index : BitVec 32) (s : State) : Ans :=
  .next (if s.nv.heldWrites.contains (ring, index) then
      answer (s.onNv fun n => { n with heldWrites := n.heldWrites.filter (· != (ring, index)) }) ring index stBusy
    else s)

/-- TIME_FLOOR_RECORD: fabric time is journalled as the time floor (R277). -/
def execTimeFloorRecord (s : State) : Ans :=
  .next ((journal s jTime [BitVec.ofNat 64 s.now]).onTime fun t => { t with floor := s.now })

/-! Reads and repairs (R410, R412, R427, R428). -/

/-- A CONFLICTED or lost item falls back as Table 13.8 gives. -/
def fallBack (s : State) (item : NvItem) : State :=
  match item with
  | .snapshot => s.onNv fun n => { n with snapBad := true }
  | .face page => s.onNv fun n => { n with face := onNth (fun p => { p with conflicted := true }) page n.face }
  | .object c i =>
    s.onNv fun n =>
      match n.objects.get (c * 2 ^ 64 + i) with
      | none => n
      | some o =>
        match o.prev with
        | some d => { n with objects := n.objects.set (c * 2 ^ 64 + i) { o with data := d, prev := none, hash := Config.sha384 d } }
        | none => { n with objects := n.objects.del (c * 2 ^ 64 + i) }

/-- A repair of a copy: recorded and counted. -/
def repaired (s : State) (kind : Nat) (cls : Cls) (page : Nat) : State :=
  (nvFault s 4 kind cls page).onNv fun n => { n with repairs := satAdd 0xFFFFFFFF n.repairs 1 }

/-- NV_READ: a copy of a page is read and decoded, refreshed when it needs it, repaired from the other copy, or given up as CONFLICTED. -/
def execNvRead (block page : Nat) (item : NvItem) (found : NvFound) (s : State) : Ans :=
  if !blockExists block ∨ blockPages s block ≤ page then .fault .noSuchFlashPlace
  else
    let s := wake s 21
    let s := onBlock s block fun x => { x with reads := x.reads + 1 }
    let s := if readLimit s block ≤ (s.block block).reads then askRefresh s block else s
    .next (match found with
      | .good => s
      | .retried => askRefresh (nvFault s 5 0x240 .corrected (pageAddr block page)) block
      | .checkBad => repaired s 0x242 .note (pageAddr block page)
      | .copyBad => repaired s 0x241 .corrected (pageAddr block page)
      | .lost =>
        fallBack ((nvFault s 4 0x243 .uncorrected (pageAddr block page)).onNv fun n => { n with conflicts := satAdd 0xFFFF n.conflicts 1 }) item
      | .conflicted =>
        fallBack ((nvFault s 4 0x244 .degraded (pageAddr block page)).onNv fun n => { n with conflicts := satAdd 0xFFFF n.conflicts 1 }) item)

/-- RETENTION_AGE: a block's data reaches its retention age and a refresh is requested (R412). -/
def execRetentionAge (block : Nat) (s : State) : Ans :=
  if !blockExists block then .fault .noSuchFlashPlace
  else .next (if retentionNs s block ≤ s.now - (s.block block).programmed then askRefresh s block else s)

/-- RELOCATION: once its claim is admitted, one copy is written to another block, verified, journalled, and the old copy is freed; a copy that stood on a channel out of use is recorded as repaired (R413, R414, R433). -/
def execRelocation (block target : Nat) (verified : Bool) (s : State) : Ans :=
  if !blockExists block ∨ !blockExists target then .fault .noSuchFlashPlace
  else .next (
    let r := internalAct s 8 (BitVec.ofNat 64 block) [groupItem block]
    match r.1 with
    | none => r.2
    | some id =>
      let s := r.2
      if !verified then growBad s target 0x245
      else
        let s := onBlock s target fun x => { x with programmed := s.now, blank := false }
        let s := journal s jBlock [BitVec.ofNat 64 block, BitVec.ofNat 64 target, b1 true 3]
        let s := if nvUnitUp s (blockDie block / 2) then s else nvFault s 4 0x241 .corrected (pageAddr block 0)
        let s := s.onNv fun n => { n with refresh := n.refresh.filter (· != block) }
        endAct (retireWorn s block) id stOk)

/-- SPARES_LOW_DAILY: recorded while a die has fewer than 8 spares in either region (R414). -/
def execSparesLowDaily (s : State) : Ans :=
  .next (if (List.range 8).any fun d => decide (spareSlc s d < 8) || decide (spareQlc s d < 8) then nvFault s 4 0x248 .corrected 0 else s)

/-- The copies on a channel that goes out of use count as lost: each block that holds one is asked to move (R433). -/
def rewriteChannel (s : State) (channel : Nat) : State :=
  (s.nv.blocks.filter fun q => blockDie q.1 / 2 == channel && !q.2.bad && !q.2.retired && !q.2.blank && q.2.programmed != 0).foldl
    (fun t q => askRefresh t q.1) s

/-! The anchor (R420, R421). -/

/-- Dies that hold an anchor copy, in the order in which they are written. -/
def anchorDies : List Nat := [0, 3, 6]

/-- Place of an anchor die in ANCHOR_VALID. -/
def dieBit (die : Nat) : Nat := die / 3

/-- The anchor of a new generation. -/
def newAnchor (s : State) (gen snap prev : Nat) : Anchor :=
  { valid := true, gen := gen, snapJsn := snap, prevJsn := prev, timeFloor := s.time.floor, operatorKey := s.fab.operatorKey }

/-- FACE_FULL ends when the face above the newest snapshot is below 1,024 MiB (R419, Table 13.11). -/
def settleFull (s : State) : State :=
  if !s.nv.faceFull ∨ 1024 ≤ faceMib s then s else clearKind (s.onNv fun n => { n with faceFull := false }) 0x24A

/-- The dressing's last steps, once all three dies hold the new generation: old pages are freed, DRESS_END is written and the claim is released (R423). -/
def endDressing (s : State) : State :=
  if s.nv.dressStep ≠ 4 then s
  else
    let oldSnap := s.nv.snapJsn
    let s := s.onNv fun n =>
      { n with prevJsn := oldSnap, snapJsn := n.dressJsn, snapBad := false, dressStep := 0, dressings := satAdd 0xFFFF n.dressings 1
               face := n.face.filter fun p => decide (oldSnap < p.last) }
    let s := settleFull s
    let s := releaseWaits (journal s jDressEnd [BitVec.ofNat 64 s.nv.gen])
    match runningAct s 9 0 with
    | none => s
    | some a => endAct s a.id stOk

/-- ANCHOR_GENERATION: one die's copy of the generation in hand is written and verified; die 0 first, never two at once (R420). -/
def execAnchorGeneration (die : Nat) (verified : Bool) (s : State) : Ans :=
  .next (if s.nv.anchorTodo.head? ≠ some die then s
    else if !verified then s.onNv fun n => { n with anchors := n.anchors.set die { n.anchors.getD die {} with valid := false } }
    else
      let gen := if s.nv.dressStep = 4 then (if die = 0 then s.nv.gen + 1 else s.nv.gen) else s.nv.gen
      let a := if s.nv.dressStep = 4 then newAnchor s gen s.nv.dressJsn s.nv.snapJsn else newAnchor s gen s.nv.snapJsn s.nv.prevJsn
      let s := s.onNv fun n =>
        { n with anchors := n.anchors.set die a, gen := gen, anchorTodo := n.anchorTodo.drop 1
                 anchorOk := (if n.gen = gen then n.anchorOk else 0) ||| BitVec.ofNat 3 (2 ^ dieBit die) }
      if s.nv.anchorTodo = [] then
        match s.nv.dressStep, runningAct s 9 1 with
        | 4, _ => endDressing s
        | _, some r => endAct s r.id stOk
        | _, none => s
      else s)

/-! Dressing (R422, R423). -/

/-- DRESSING: the face has passed DRESS_MIB; once the anchor claim is admitted, DRESS_BEGIN is appended and gives SNAP_JSN. -/
def execDressing (s : State) : Ans :=
  .next (if nvDown s ∨ s.pair.role = .standby ∨ faceMib s ≤ s.nv.dressMib.toNat ∨ 2 ≤ s.nv.dressStep then s
    else
      let r := internalAct s 9 0 [groupAnchor]
      match r.1 with
      | none => r.2
      | some _ =>
        let s := r.2
        let jsn := s.nv.nextJsn
        let s := appendRec s jDressBegin []
        s.onNv fun n => { n with dressStep := 2, dressJsn := if n.nextJsn = jsn + 1 then jsn else n.nextJsn - 1 })

/-- SNAPSHOT_VERIFIED: both copies are read back; when they match, the snapshot is shipped to a standby and the new anchor generation starts, else the check repeats (R423, R447; log 198). -/
def execSnapshotVerified (pass : Bool) (s : State) : Ans :=
  .next (if pass ∧ s.nv.dressStep = 2 then
      let s := if s.ships then shipFrame s 3 s.nv.dressJsn [] else s
      s.onNv fun n => { n with dressStep := 4, anchorTodo := anchorDies }
    else s)

/-! The ledge (R429). -/

/-- A record may enter the ledge: the last 8 pages of its 256 are kept for FATAL records. -/
def ledgeRoom (s : State) : Bool :=
  decide (s.nv.ledgePages < 248) ||
    (decide (s.nv.ledgePages < 256) && s.nv.ledgeOpn.any fun r => r.typ == jFault && ((r.body.getD 1 0).toNat % 8 == 4))

/-- LEDGE_WRITE: the NV path writes a batch as one page to both ledge blocks; it is durable when both pass. -/
def execLedgeWrite (pass : Bool) (s : State) : Ans :=
  .next (if s.nv.ledgeOpn = [] ∨ !ledgeRoom s ∨ !pass then s
    else s.onNv fun n => { n with ledge := n.ledge ++ n.ledgeOpn, ledgeOpn := [], ledgePages := n.ledgePages + 1 })

/-- LEDGE_MERGE: the flash layer appends the ledge records to the face in JSN order under their own JSNs, one that stands there already apart, and erases the ledge. -/
def execLedgeMerge (s : State) : Ans :=
  .next (if nvDown s ∨ s.nv.ledgeOpn ≠ [] then s
    else
      let s := s.onNv fun n =>
        { n with opn := n.opn ++ n.ledge.filter (fun r => !(n.face.any fun p => p.recs.contains r)), ledge := [], ledgePages := 0 }
      releaseWaits (closePage s))

/-! Objects (R430, R431). -/

/-- The words of a run of bytes, the last padded with zeros. -/
def payloadWords (l : List Byte) : List Word := (List.range ((l.length + 7) / 8)).map fun i => wordAt l (8 * i)

/-- The active unit of a pair ships an object's data in OBJECT frames of at most 4,096 bytes, before its OBJECT_DIR record (R447). -/
def shipObject (s : State) (data : List Byte) : State :=
  if !s.ships then s
  else (List.range ((data.length + 4095) / 4096)).foldl (fun t k => shipFrame t 4 0 (payloadWords (slice data (4096 * k) 4096))) s

/-- Commits a new version of an object: written and verified in two copies, and shipped, then OBJECT_DIR is journalled (R430, R447). -/
def putObject (s : State) (cls id : Nat) (data : List Byte) : State :=
  let s := shipObject s data
  let old := s.nv.objects.get (objKey cls id)
  let h := Config.sha384 data
  let jsn := s.nv.nextJsn
  let s := journal s jObject [BitVec.ofNat 64 cls, BitVec.ofNat 64 id, h.truncate 64]
  let o : Obj := { version := (old.map (·.version)).getD 0 + 1, jsn := jsn, hash := h, data := data, prev := old.map (·.data) }
  s.onNv fun n => { n with objects := n.objects.set (objKey cls id) o }

/-- OBJECT_COMMIT: a version whose copies verify takes effect with its OBJECT_DIR record. -/
def execObjectCommit (cls id : Nat) (data : List Byte) (verified : Bool) (s : State) : Ans :=
  .next (if verified then putObject s cls id data else s)

end Sys2Proof.Machine
end

