-- ==== Sys2Proof/Machine/Chip.lean ====
section
/-! DEFINITION. Engine resets, chip resets, escalation, watchdogs and hang guilt (R359 to R371, Tables 11.9 to 11.12). -/

namespace Sys2Proof.Machine

/-! Level 5: power cycle requests (R366). -/

/-- The keeper records POWER_CYCLE, its cause in DETAIL0 where the spec names one (1 THERMAL, 2 AON_CLOCK; else 0 here and a free word there), which acceptance journals, and asks the tray controller. -/
def requestCycle (s : State) (why : Nat) : State :=
  ((s.fault 0 0 0x08A .fatal (if why = 0 then Config.openDetail 0x08A 0 s.nonce [] else BitVec.ofNat 64 why)).onPower fun p => { p with cycleReq := true }).emit
    (.pldm 0x08 (BitVec.ofNat 64 why) 0)

/-- An escalation counts in LH_RESET_STATUS.ESCALATIONS (R365). -/
def escalated (s : State) : State := s.onPower fun p => { p with escalations := satAdd 0xFF p.escalations 1 }

/-! Level 4: chip reset (R364). -/

/-- Domains D1 to D23 start to drain; one whose power is off is OFF at once (Table 2.4). -/
def drainAll (s : State) : State :=
  (List.range 24).foldl (fun t d =>
    if d = 0 then t
    else match t.domSt d with
      | .on => t.onDom d fun x => { x with st := .draining, engineReset := false }
      | .fenced => t.onDom d fun x => { x with st := if x.powerOff then .off else .draining, engineReset := false }
      | .off | .waking | .draining => t.onDom d fun x => { x with engineReset := false }) s

/-- Every portal fences: its STATE reads 1, its rings are FENCED, a running command ends with FENCED, and held accesses end with an error (R73, R360, R364 step 2). -/
def fencePortals (s : State) : State :=
  let s := fenceRings s fun _ _ => true
  (List.range 8).foldl (fun t p =>
    if t.hasPortal p then
      let t := endHeld (if (t.portal p).cmdBusy then chEnd t p stFenced else t) p
      t.onPortal p fun q => { q with st := .resetting }
    else t) s

/-- A chip reset starts: the cause is journalled, PORTAL_RDY falls, portals fence and domains drain; during a reset of level 4 or 5 it merges (R360, R364, R468). -/
def startChip (s : State) (c : Cause) : State :=
  if s.power.resetting then s
  else
    let s := journal s jModel [at_ 0x0B 0, at_ c.num 0]
    let s := setLast s 4 c
    let s := s.onPower fun p =>
      { p with chipResets := satAdd 0xFF p.chipResets 1, draining := true, resetting := true, chipAt := s.now, chipWait := none }
    drainAll (fencePortals (s.onPins fun p => { p with portalRdy := false }))

/-- A reset of level 2 or 3 runs: an engine reset of a bench or of D17, or a partition reset (Table 11.9). -/
def State.lowerReset (s : State) : Bool :=
  ((List.range 18).any fun d => (s.dom d).engineReset) || s.portals.vals.any fun q => q.st == .resetting

/-- A request for a chip reset: it runs as soon as the running resets below it have ended, and one that waits already takes it in (R360). -/
def chipReset (s : State) (c : Cause) : State :=
  if s.power.resetting ∨ s.power.chipWait.isSome then s
  else if s.lowerReset then s.onPower fun p => { p with chipWait := some c }
  else startChip s c

/-- A reset of level 2 or 3 has ended: the chip reset that waited for the last of them starts (R360). -/
def chipDue (s : State) : State :=
  match s.power.chipWait with
  | none => s
  | some c => if s.lowerReset then s else startChip s c

/-- CHIP_RESET: a later assertion of CHIP_RST_L (R464). -/
def execChipReset (s : State) : Ans :=
  .next (if !s.pins.d0Up ∨ !s.pins.firstRise ∨ !s.pins.chipRstHigh then s
    else if s.power.step ≤ 1 then s.onPins fun p => { p with chipRstHigh := false, firstRise := false }
    else chipReset (s.onPins fun p => { p with chipRstHigh := false }) .pin)

/-- What a portal keeps over a chip reset: its fault slots and queue, and its policy. -/
def Portal.afterChip (q : Portal) : Portal :=
  { role := q.role, hewerLimit := q.hewerLimit, peerHash := q.peerHash, first := q.first, next := q.next, queue := q.queue, spoil := q.spoil }

/-- D1 to D23 are off, and what lived in them is lost: rings, contexts, sessions, broker state, bench memory, what the ferry waits for and the reports and tests of the integrity unit; tables stay in HBM, and histories, suspect states and exports in NAND (R334, R364, R401, R405, R432). -/
def loseDomains (s : State) : State :=
  let s := s.onPower fun p => { p with doms := p.doms.mapVals fun _ (x : Dom) => { x with st := .off, powerOff := true, wakePend := false, missed := 0, engineReset := false } }
  let s := s.onEng fun e =>
    { e with rings := [], ctxs := [], benches := [], isletPortals := 0, replayMs := 10, hang := none, wakeAt := [] }
  let s := s.onIsles fun i =>
    { i with islands := i.islands.mapVals fun _ (l : Island) =>
               { l with broker := {}, entry := none, abortEntry := none, abortWait := [], release := none, ownScrub := false } }
  let s := s.onInteg fun g => { history := g.history, units := g.units, library := g.library, cper := g.cper, nextCper := g.nextCper }
  let s := s.onFab fun f => { f with reqs := [] }
  { s with portals := s.portals.mapVals fun _ q => q.afterChip }

/-- The registers of the integrity unit return to their reset values with D20, for every island (R13, Tables 0.7, 12.8). -/
def resetIu (s : State) : State :=
  s.onIsles fun i => { i with islands := i.islands.mapVals fun _ (l : Island) => { l with iu := {}, iuNext := {} } }

/-- The controller's registers that are not sticky return to their reset values (Table 0.7). -/
def resetRegisters (s : State) : State :=
  let s := s.onPower fun p => { p with hold := 0, fyIdleMs := 10, chIdleUs := 100, benchIdleUs := 100 }
  let s := resetIu s
  let s := s.onColl fun c => { c with countOvf := 0, quietS := 30, noteTMs := 10000, noteN := 0, corrTMs := 10000, corrN := 16, ovr := [] }
  let s := s.onNv fun n => { n with dressMib := 512, retSlcD := 180, retQlcD := 30, flushUs := 50 }
  s.onPair fun p => { p with deferrals := 0 }

/-- The collector has still to take a record of a unit of D1 to D23 (R65). -/
def State.owes (s : State) : Bool := s.coll.posted.any fun r => r.source == s.ctrlAddr && decide (64 ≤ r.unit.toNat)

/-- CHIP_RESET_DRAIN_END: with every record of D1 to D23 taken (R65), the domains are OFF, HBM is in self-refresh, and the keeper boots from step 2; an installation that was open is resolved from the journal at step 12 or 13 (R292, R364). -/
def execChipResetDrainEnd (s : State) : Ans :=
  .next (if !s.power.draining ∨ s.owes then s
    else
      let hbm := s.domSt 22 != .off
      let s := resetRegisters (loseDomains s)
      let s := rebootFab (s.onFab fun f => { f with fwLoading := false })
      s.onPower fun p =>
        { p with draining := false, hbmSelfRefresh := hbm, hbmFenced := p.hbmFenced ||| p.hbmDue, hbmDue := 0, step := 2, licDone := false, cold := false, fastPath := false, stopped := false })

/-- LH_RESET_CHIP: LH_RESET with LEVEL 4 by the steward (R68, R359). -/
def execLhResetChip (portal : Nat) (s : State) : Ans :=
  .next (if !s.portalOpen portal then s.emit (.unsupported portal)
    else if (s.portal portal).role = .steward then chipReset (s.emit (.writeDone portal)) .software
    else regDenied s portal 0x418)

/-- TRAY_CHIP_RESET: the tray controller starts a chip reset. -/
def execTrayChipReset (s : State) : Ans := .next (if s.pins.d0Up then chipReset s .tray else s)

/-! Level 2: engine reset (R362). -/

/-- An engine reset of a bench or of D17 starts; a domain that is resetting merges it (R360, R362 steps 1 and 2). -/
def startEngine (s : State) (d : Nat) (c : Cause) : State :=
  if d = 0 ∨ 17 < d ∨ !s.domPresent d ∨ (s.dom d).engineReset ∨ s.power.draining then s
  else
    let s := setLast (fenceDom s d) 2 c
    let s := s.onDom d fun x => { x with engineReset := true, resetAt := s.now }
    if d = 17 then
      (List.range 8).foldl (fun t p => if (t.portal p).cmdBusy then chEnd t p stFenced else t) (fenceTickets s 17)
    else s

/-- LH_RESET_ENGINE: LH_RESET with LEVEL 2; an absent DOMAIN is dropped with REG_DENIED (Table 11.10). -/
def execLhResetEngine (portal domain : Nat) (s : State) : Ans :=
  .next (if !s.portalOpen portal then s.emit (.unsupported portal)
    else if (s.portal portal).role ≠ .steward ∨ domain = 0 ∨ 17 < domain ∨ !s.domPresent domain then regDenied s portal 0x418
    else startEngine (s.emit (.writeDone portal)) domain .software)

/-- A ring's fetch point rewinds to the oldest entry that a context fetched and did not answer, and the context's block behind another ring ends (R89, R362 step 3). -/
def rewindRing (g : Ring) (c : Nat) : Ring :=
  match g.fetched.find? fun f => f.ctx == c with
  | none => { g with waitsOn := none, waitCtx := 0 }
  | some f => { g with cons := f.index, fetched := g.fetched.filter fun (x : Fetched) => x.ctx != c, waitsOn := none, waitCtx := 0 }

/-- A context of a bench that ends an engine reset: a live one returns to PENDING with its ring rewound, a FAULTED or STOPPING one loses its hewer (R362 step 3, log 31). -/
def replayCtx (s : State) (c : Nat) (x : Ctx) : State :=
  match x.st with
  | .running | .halted | .blocked =>
    let s := match x.ring with
      | none => s
      | some r => settleRing (s.onRing r fun g => rewindRing g c) r
    s.onCtx c fun y =>
      { y with st := .pending, hewer := none, tickets := [], blockedOn := 0, judged := y.suspect
               core := { y.core with awaits := none, untilT := none } }
  | .faulted | .stopping => s.onCtx c fun y => { y with hewer := none }
  | .pending | .ended => s

/-- The contexts that hold a hewer of a bench. -/
def ctxsOn (s : State) (b : Nat) : List (Nat × Ctx) := s.eng.ctxs.filter fun q => (q.2.hewer.map (·.1)) == some b

/-- The manager of a domain is in the fault state for its PLL: the domain stays FENCED until it leaves that state (R71). -/
def pllFault (s : State) (d : Nat) : Bool :=
  s.coll.uncleared.any fun r => r.source == s.ctrlAddr && r.unit == unitNo d 63 && r.kind == 0x082

/-- ENGINE_RESET_COMPLETE: contexts are replayed, bench memory is zero, the domain returns to ON, unless its PLL's fault keeps it FENCED, and pending wakes are applied; the restart of D21 ends so too (R71, R362 steps 3 to 5, R433; log 16). -/
def execEngineResetComplete (domain : Nat) (s : State) : Ans :=
  .next (if !(s.dom domain).engineReset then s
    else if domain = 21 then releaseWaits (returnOn (s.onNv fun n => { n with restarting := false }) 21)
    else
      let s := setLastUs s (s.dom domain).resetAt
      let s := if domain = 17 then s
        else ((ctxsOn s (domain - 1)).foldl (fun t q => replayCtx t q.1 q.2) s).onEng fun e => { e with benches := e.benches.del (domain - 1) }
      let s := s.onDom domain fun x => { x with engineReset := false }
      chipDue (if pllFault s domain then s
      else
        let s := returnOn s domain
        if domain = 17 then runWaitingCmds s else s))

/-! Level 3: the end of a partition reset (R119, R363). -/

/-- PARTITION_RESET_DONE: STATE reads 2, or 3 while the portal is fenced (R119, Table 11.7); a portal that a chip reset holds stays in reset, and one that waited for this reset starts (R360). -/
def execPartitionResetDone (portal : Nat) (s : State) : Ans :=
  .next (if (s.portal portal).st = .resetting ∧ !s.power.draining then
      chipDue (setLastUs (s.onPortal portal fun q => { q with st := if q.fenceAfter then .fenced else .ready }) (s.portal portal).resetAt)
    else s)

/-! Escalation and watchdogs (R365 to R367). -/

/-- A reset of a level runs: a context's as long as its bench holds it, an engine's, a portal's, the chip's (Table 11.9). -/
def State.resets (s : State) (level target : Nat) : Bool :=
  if level = 1 then ((s.eng.ctxs.get target).bind (·.hewer)).isSome
  else if level = 2 then decide (target ≤ 17) && (s.dom target).engineReset
  else if level = 3 then (s.portal target).st == .resetting && !s.power.draining
  else level == 4 && s.power.resetting

/-- RESET_TIMEOUT: a reset of a level that runs passes its limit, is recorded, and escalates: a context to the engine of its bench, an engine or a partition to the chip, which does not wait for it, the chip to a power cycle (R365). `target` is the context, domain or portal. -/
def execResetTimeout (level target : Nat) (s : State) : Ans :=
  .next (if !s.resets level target then s
    else
      let src := if level = 2 then (target, 63) else if level = 3 then (23, target) else (0, 2)
      let s := escalated (s.fault src.1 src.2 0x087 .degraded)
      if level = 1 then
        match (s.eng.ctxs.get target).bind (·.hewer) with
        | none => s
        | some (b, _) => startEngine s (b + 1) .escalation
      else if level = 4 then requestCycle s 0
      else startChip s .escalation)

/-- KEEPER_WATCHDOG: the keeper's watchdog expires: a chip reset from boot ROM, or at a second expiry within 60 s a power cycle (R365, R367). -/
def execKeeperWatchdog (s : State) : Ans :=
  .next (if !s.pins.d0Up then s
    else
      let second := match s.power.lastWatchdog with
        | none => false
        | some t => decide (s.now ≤ t + 60000000000)
      let s := (s.fault 0 2 0x089 .fatal).onPower fun p => { p with lastWatchdog := some s.now }
      if second then requestCycle (escalated s) 0 else chipReset s .watchdog)

/-- DOMAIN_HEARTBEAT_MISS: an ON domain's manager misses a heartbeat; the third in a row records DOMAIN_HANG, and the collector fences the domain at its acceptance, a bench or D17 by an engine reset (R367; `fenceUnit`). -/
def execDomainHeartbeatMiss (domain : Nat) (s : State) : Ans :=
  .next (if domain = 0 ∨ !s.domPresent domain ∨ !s.domOn domain then s
    else if (s.dom domain).missed + 1 < 3 then s.onDom domain fun x => { x with missed := x.missed + 1 }
    else (s.onDom domain fun x => { x with missed := 0 }).fault domain 63 0x083 .degraded)

/-! Hang detection (R368 to R371). -/

/-- The rings from one on along WAITS_ON, as far as they go. -/
def waitChain (s : State) : Nat → Nat → List Nat
  | 0, _ => []
  | n + 1, r =>
    match (s.eng.rings.get r).bind (·.waitsOn) with
    | none => [r]
    | some q => r :: waitChain s n q

/-- The cycle of rings that the WAITS_ON edge of a ring closes, if it closes one. -/
def cycleFrom (s : State) (r : Nat) : Option (List Nat) :=
  let l := waitChain s (s.eng.rings.length + 1) r
  match (l.drop 1).idxOf? r with
  | none => none
  | some n => some (l.take (n + 1))

/-- The contexts bound to rings. -/
def boundTo (s : State) (rings : List Nat) : List (Nat × Ctx) :=
  s.eng.ctxs.filter fun q => match q.2.ring with
    | none => false
    | some r => rings.contains r

/-- Benches that hold one of the contexts. -/
def benchesOf (l : List (Nat × Ctx)) : List Nat :=
  (l.filterMap fun q => q.2.hewer.map (·.1)).eraseDups

/-- A guilty context goes to FAULTED, its block behind another ring ends, and its bound ring goes to FENCED (R89, R369 step 4). -/
def fenceGuilty (s : State) (c : Nat) : State :=
  match s.eng.ctxs.get c with
  | none => s
  | some x =>
    let s := s.onCtx c fun y => { y with st := .faulted, suspect := false, judged := false, blockedOn := 0, core := { y.core with awaits := none, untilT := none } }
    match x.ring with
    | none => s
    | some r => fenceRing (s.onRing r fun g => { g with waitsOn := none, waitCtx := 0 }) r

/-- A HANG_GUILTY record of a context; DETAIL1 bit 0 in Islet mode (R370, R371). -/
def hangGuilty (s : State) (c : Nat) (x : Ctx) (islet : Bool) : State :=
  fenceGuilty (s.post { s.mkRec 17 2 0x042 .note (d1 := withBit0 (Config.openDetail 0x042 1 s.nonce []) islet) with
    portal := some x.portal, ctx := some c, island := x.island, space := 10, address := BitVec.ofNat 56 c }) c

/-- The HANG record: its detail words carry the cycle's rings in a layout that the spec does not give (R368, log 11). -/
def hangRecord (s : State) (rings : List Nat) : State :=
  (s.fault 17 2 0x08B .corrected (Config.openDetail 0x08B 0 0 rings) (Config.openDetail 0x08B 1 0 rings)).onEng fun e => { e with hangs := satAdd 0xFFFF e.hangs 1 }

/-- The Islet verdict: the context whose edge closed the cycle is guilty, and nothing else is touched (R371). -/
def isletVerdict (s : State) (closer : Nat) : State :=
  match (s.eng.rings.get closer).bind fun g => (s.eng.ctxs.get g.waitCtx).map fun x => (g.waitCtx, x) with
  | none => s
  | some (c, x) => hangGuilty s c x true

/-- The contexts suspected: live on a bench that is reset (R369 step 1). -/
def suspectsOf (s : State) (benches : List Nat) : List Nat :=
  (s.eng.ctxs.filter fun q =>
    (match q.2.hewer with
      | none => false
      | some (b, _) => benches.contains b) && (q.2.st == .running || q.2.st == .halted || q.2.st == .blocked)).map (·.1)

/-- Native guilt finding starts with an engine reset of every bench of the cycle (R369). -/
def startGuilt (s : State) (rings : List Nat) : State :=
  let bs := benchesOf (boundTo s rings)
  let sus := suspectsOf s bs
  let s := sus.foldl (fun t c => t.onCtx c fun y => { y with suspect := true }) s
  let s := bs.foldl (fun t b => startEngine t (b + 1) .hang) s
  s.onEng fun e => { e with hang := some { rings := rings, queue := sus } }

/-- The same cycle has closed again within REPLAY_MS of a resumption without a guilty suspect (R370). -/
def closedAgain (s : State) (h : Hang) (rings : List Nat) : Bool :=
  match h.resumed with
  | none => false
  | some t => decide (s.now ≤ t + s.eng.replayMs.toNat * 1000000) && rings.all h.rings.contains && h.rings.all rings.contains

/-- What follows a cycle that has been recorded. -/
def judgeCycle (s : State) (rings : List Nat) (closer : Nat) : State :=
  let owner := ((s.eng.rings.get closer).map (·.owner)).getD 0
  if s.eng.isletPortals.getLsbD owner then isletVerdict s closer
  else match s.eng.hang with
    | none => startGuilt s rings
    | some h =>
      if closedAgain s h rings then
        ((boundTo s rings).foldl (fun t q => hangGuilty t q.1 q.2 false) s).onEng fun e => { e with hang := none }
      else if h.resumed.isSome then startGuilt s rings
      else s

/-- HANG_DETECT: the WAITS_ON edge of a ring closes a cycle; one with a bench in an engine reset is discarded (R368). -/
def execHangDetect (ring : Nat) (s : State) : Ans :=
  .next (match cycleFrom s ring with
    | none => s
    | some l =>
      if (benchesOf (boundTo s l)).any fun b => (s.dom (b + 1)).engineReset then s
      else judgeCycle (hangRecord s l) l ring)

/-- Where the next suspect is placed: the lowest usable bench that holds no context, else the first bench that is open (R369 step 2). -/
def suspectBench (s : State) : Option Nat :=
  match (List.range 16).find? fun b => benchOpen s b && (ctxsOn s b).isEmpty with
  | some b => some b
  | none => (List.range 16).find? fun b => benchOpen s b && freeHewers s b != []

/-- The innocent suspects resume with their latched causes (R369 step 5). -/
def resumeInnocents (s : State) : State :=
  s.eng.ctxs.foldl (fun t q =>
    if q.2.suspect then
      let t := t.onCtx q.1 fun y => { y with suspect := false, judged := false }
      if q.2.waits && (q.2.core.causes &&& (q.2.core.awaits.getD 0 ||| 0x20)) != 0 then resumeCtx t q.1 q.2 else t
    else t) s

/-- Ends the finding: it is kept for R370 when no suspect was guilty. -/
def endGuilt (s : State) (h : Hang) : State :=
  (resumeInnocents s).onEng fun e => { e with hang := if h.guilty then none else some { h with queue := [], running := 0, resumed := some s.now } }

/-- The verdict on the suspect that has been running: guilty when FAULTED, innocent when it waits, blocks or has ended, none while it runs (R369 step 3). -/
def verdict (s : State) (c : Nat) : Option Bool :=
  match s.eng.ctxs.get c with
  | none => some false
  | some x =>
    match x.st with
    | .faulted => some true
    | .halted | .blocked | .ended | .stopping => some false
    | .running | .pending => none

/-- The next suspect of the queue is placed alone, or the finding ends. -/
def nextSuspect (s : State) (h : Hang) : State :=
  match h.queue with
  | [] => endGuilt s h
  | c :: rest =>
    match s.eng.ctxs.get c with
    | none => s.onEng fun e => { e with hang := some { h with queue := rest, running := 0 } }
    | some x =>
      match suspectBench s with
      | none => s.onEng fun e => { e with hang := some { h with running := 0 } }
      | some b =>
        let s := s.onCtx c fun y => { y with judged := false }
        let s := putOn s c { x with share := 0 } b ((freeRun s b x.bwin).getD 0)
        s.onEng fun e => { e with hang := some { h with queue := rest, running := c } }

/-- SUSPECT_REPLAY: the suspect that has been replayed is judged, and the next one is placed alone (R369). -/
def execSuspectReplay (s : State) : Ans :=
  .next (match s.eng.hang with
    | none => s
    | some h =>
      if h.resumed.isSome ∨ (List.range 17).any (fun d => (s.dom d).engineReset) then s
      else if h.running = 0 then nextSuspect s h
      else match verdict s h.running with
        | none => s
        | some true => nextSuspect (fenceGuilty s h.running) { h with running := 0, guilty := true }
        | some false => nextSuspect (s.onCtx h.running fun y => { y with judged := true }) { h with running := 0 })

/-- REPLAY_WATCHDOG: a suspect still RUNNING at REPLAY_MS raises WATCHDOG (R369, Table 5.4). -/
def execReplayWatchdog (s : State) : Ans :=
  .next (match s.eng.hang with
    | none => s
    | some h =>
      match s.eng.ctxs.get h.running with
      | none => s
      | some x => if x.st = .running then raiseExc s (.ctx h.running) x.core.pc { code := xWatchdog } else s)

end Sys2Proof.Machine
end

