-- ==== Sys2Proof/Machine/Collector.lean ====
section
/-! DEFINITION. The fault collector: counting, first-fault slots, distribution, portal queues, spoil, and the fence of a source (R342 to R358, R378 to R380). -/

namespace Sys2Proof.Machine

/-! Order (R349). -/

/-- Class as a number. -/
def Cls.rank : Cls → Nat
  | .note => 0
  | .corrected => 1
  | .degraded => 2
  | .uncorrected => 3
  | .fatal => 4

/-- One class higher, never above UNCORRECTED (R345). -/
def Cls.raise : Cls → Cls
  | .note => .corrected
  | .corrected => .degraded
  | .degraded => .uncorrected
  | .uncorrected => .uncorrected
  | .fatal => .fatal

/-- A record comes before another: higher class, then lower source number, then lower KIND. -/
def Rec.before (a b : Rec) : Bool :=
  if a.cls.rank ≠ b.cls.rank then decide (b.cls.rank < a.cls.rank)
  else if a.src ≠ b.src then decide (a.src < b.src)
  else decide (a.kind.toNat < b.kind.toNat)

/-- Inserts a record behind those it does not come before. -/
def insRec (r : Rec) : List Rec → List Rec
  | [] => [r]
  | a :: as => if r.before a then r :: a :: as else a :: insRec r as

/-- The order of R349; ties keep their posting order. -/
def sortRecs (l : List Rec) : List Rec := l.foldl (fun o r => insRec r o) []

/-! Severity counting (R345 to R348). -/

/-- Kinds that count against a context (R347). -/
def ctxKind (r : Rec) : Bool := decide (0x040 ≤ r.kind.toNat) && decide (r.kind.toNat ≤ 0x07F)

/-- The lowest override entry that names a kind (R346). -/
def override (s : State) (kind : BitVec 12) : Option SevOvr := s.coll.ovr.vals.find? fun o => o.valid && o.kind == kind

/-- N that LH_SEV_CFG gives a class, none when it is not counted (R345). -/
def plainN (s : State) : Cls → Option Nat
  | .note => if s.coll.noteN = 0 then none else some s.coll.noteN.toNat
  | .corrected => some (clamp 1 255 s.coll.corrN.toNat)
  | .degraded | .uncorrected | .fatal => none

/-- N of a window that a record opens, and the class that it rests on under LH_SEV_CFG; none when the record is not counted (R345 to R347). -/
def countN (s : State) (r : Rec) (byCtx : Bool) : Option (Nat × Option Cls) :=
  match override s r.kind with
  | some o => if o.n = 0 then none else some (o.n.toNat, none)
  | none =>
    if byCtx then some (clamp 1 255 s.coll.corrN.toNat, none)
    else (plainN s r.cls).map fun n => (n, some r.cls)

/-- An open window counts the record: a change of the registers applies to later windows (R346, Table 11.5). -/
def countsIn (s : State) (p : Pair) (r : Rec) : Bool :=
  match p.basis with
  | none => true
  | some c => r.cls == c || (plainN s r.cls).isSome

/-- A pair is the one of a record. -/
def Pair.of (p : Pair) (src : Nat) (isCtx : Bool) (kind : BitVec 12) : Bool := p.src == src && p.isCtx == isCtx && p.kind == kind

/-- Open windows that the counting table holds (R348). -/
abbrev pairLimit : Nat := 65536

/-- Counts one record in its context pair or its source pair: the record as raised, and the state with that pair; a context pair that would be raised ends its context, where it is FAULTED, instead (R345, R347, Table 5.2). -/
def countAs (s : State) (r : Rec) (byCtx : Bool) : Rec × State :=
  let src := if byCtx then r.ctx.getD 0 else r.src
  match s.coll.pairs.find? fun p => p.of src byCtx r.kind with
  | some p => if countsIn s p r then settle s r { p with total := p.total + r.count } byCtx else (r, s)
  | none =>
    match countN s r byCtx with
    | none => (r, s)
    | some (n, basis) =>
      if pairLimit ≤ s.coll.pairs.length then (r, s.onColl fun c => { c with countOvf := satAdd 0xFF c.countOvf 1 })
      else settle s r { src := src, isCtx := byCtx, kind := r.kind, total := r.count, n := n, basis := basis } byCtx
where
  /-- The pair after its new total: raised from N on. -/
  settle (s : State) (r : Rec) (p : Pair) (byCtx : Bool) : Rec × State :=
    let put (q : Pair) : State := s.onColl fun c => { c with pairs := c.pairs.filter (fun x => !x.of q.src q.isCtx q.kind) ++ [q] }
    if p.total < p.n then (r, put p)
    else if byCtx then
      let s := put { p with raised := true }
      (r, if (s.eng.ctxs.get p.src).map (·.st) = some .faulted then endCtx s p.src stFenced else s)
    else
      let cls := r.cls.raise
      ({ r with cls := cls, raised := r.raised || cls != r.cls },
        put { p with raised := true, raisedHigh := p.raisedHigh || decide (2 ≤ cls.rank) })

/-- Counts one record: by its context where it names one, else by its source; a MEM_UNCORRECTED of a context counts against its hewer as well (R181, R347). -/
def countRec (s : State) (r : Rec) : Rec × State :=
  if r.kind = 0x188 then (r, s)
  else if ctxKind r && r.ctx.isSome then
    let q := countAs s r true
    if r.kind = 0x040 ∧ r.cls = .uncorrected then countAs q.2 q.1 false else q
  else countAs s r false

/-- Counts the records of a cycle in order. -/
def countAll (s : State) : List Rec → List Rec × State
  | [] => ([], s)
  | r :: rs =>
    let (r', s) := countRec s r
    let (l, s) := countAll s rs
    (r' :: l, s)

/-- SEVERITY_WINDOW_END: a window ends below N, or T passes with no record of a pair raised below DEGRADED; the pair closes (R345). -/
def execSeverityWindowEnd (src : Nat) (isCtx : Bool) (kind : BitVec 12) (s : State) : Ans :=
  .next (s.onColl fun c => { c with pairs := c.pairs.filter fun p => !(p.of src isCtx kind && !p.raisedHigh) })

/-! The D0 store and the portal queues (R350, R352, R378 to R380). -/

/-- Place of a record in the order of displacement: POWER_SAMPLE, NOTE, CORRECTED (R379). -/
def Rec.weight (r : Rec) : Nat := if r.kind = 0x188 then 0 else r.cls.rank + 1

/-- The record that a new one displaces: the most recently taken of the lowest class present, when that class is below the new one's (R379). -/
def victim (l : List Rec) (r : Rec) : Option Rec :=
  let low := l.foldl (fun m x => Nat.min m x.weight) 6
  if low < r.weight ∧ low ≤ 2 then
    l.foldl (fun (best : Option Rec) x =>
      if x.weight ≠ low then best
      else match best with
        | none => some x
        | some b => if b.serial < x.serial then some x else some b) none
  else none

/-- The numbers of the records that some portal still shows or queues, and of LH_FAULT_FIRST. -/
def named (s : State) : List Nat :=
  (s.coll.first.toList ++ s.portals.flatMap fun q => q.2.first.toList ++ q.2.next.toList ++ q.2.queue).map (·.serial)

/-- The numbers of the records that are showing. -/
def showing (s : State) : List Nat :=
  (s.coll.first.toList ++ s.portals.flatMap fun q => q.2.first.toList ++ q.2.next.toList).map (·.serial)

/-- The store drops what no queue names any more (R352). -/
def gcStore (s : State) : State :=
  let keep := named s
  s.onColl fun c => { c with store := c.store.filter fun r => keep.contains r.serial }

/-- Spoil of a portal queue rises by one (R380). -/
def spoilPortal (q : Portal) : Portal := { q with spoil := satAdd 0xFFFF q.spoil 1 }

/-- A record leaves the store and every queue that names it (R352). -/
def displaceRec (s : State) (n : Nat) : State :=
  let s := s.onColl fun c => { c with store := c.store.filter (·.serial != n), spoil := satAdd 0xFFFF c.spoil 1 }
  { s with portals := s.portals.mapVals fun _ q =>
      if q.queue.any (·.serial == n) then spoilPortal { q with queue := q.queue.filter (·.serial != n) } else q }

/-- Records that the D0 store holds beside its reserved entries. -/
abbrev storeLimit : Nat := 16384
/-- Records that a portal queue holds. -/
abbrev queueLimit : Nat := 4096

/-- A queued record takes a delivered one with its source number, KIND and CLASS (R378). -/
def mergeInto (x r : Rec) : Rec :=
  { x with count := satAdd 0xFFFFFFFF x.count r.count, lastTime := r.lastTime, coalesced := true }

/-- The records can merge. -/
def Rec.sameKind (x r : Rec) : Bool := x.src == r.src && x.kind == r.kind && x.cls == r.cls

/-- Merges into the first record that can take it. -/
def mergeFirst (r : Rec) : List Rec → List Rec
  | [] => []
  | x :: xs => if x.sameKind r then mergeInto x r :: xs else x :: mergeFirst r xs

/-- Puts a record into a portal queue at a place, displacing one or being lost when it is full (R379, R380). -/
def enqueue (q : Portal) (r : Rec) (place : Nat) : Portal :=
  if q.queue.length < queueLimit then { q with queue := q.queue.take place ++ [r] ++ q.queue.drop place }
  else match victim q.queue r with
    | none => spoilPortal q
    | some v =>
      let rest := q.queue.filter (·.serial != v.serial)
      spoilPortal { q with queue := rest.take place ++ [r] ++ rest.drop place }

/-- What a cycle has to remember: portals whose first-fault slot was empty when it began, and how many losers each has put at the head of its queue (R350). -/
structure Cycle where
  /-- Portals -/
  empties : List Nat := []
  /-- Losers by portal -/
  losers : FMap Nat := []
  deriving DecidableEq, Repr

/-- A record that lost the first-fault slot goes to the next-fault slot or to the head of the queue (R350). -/
def placeLoser (s : State) (cy : Cycle) (p : Nat) (r : Rec) : Cycle × State :=
  match (s.portal p).next with
  | none => (cy, raiseVector64 (s.onPortal p fun q => { q with next := some r }) p)
  | some _ =>
    let n := cy.losers.getD p 0
    ({ cy with losers := cy.losers.set p (n + 1) }, s.onPortal p fun q => enqueue q r n)

/-- A record that the next-fault slot or the queue of a portal takes (R352, R378). -/
def placeNext (s : State) (p : Nat) (r : Rec) : State :=
  let q := s.portal p
  if q.next = none ∧ q.queue = [] then raiseVector64 (s.onPortal p fun q => { q with next := some r }) p
  else if q.queue.any fun x => x.sameKind r then s.onPortal p fun q => { q with queue := mergeFirst r q.queue }
  else s.onPortal p fun q => enqueue q r q.queue.length

/-- Delivers one record to one portal (R350, R352). -/
def toPortal (s : State) (cy : Cycle) (p : Nat) (r : Rec) : Cycle × State :=
  if 1 ≤ r.cls.rank ∧ cy.empties.contains p then
    match (s.portal p).first with
    | none => (cy, raiseVector64 (s.onPortal p fun q => { q with first := some r }) p)
    | some _ => placeLoser s cy p r
  else (cy, placeNext s p r)

/-- The copy of a record without its address and detail words (R351). -/
def Rec.hide (r : Rec) : Rec := { r with address := 0, space := 0, detail0 := 0, detail1 := 0, hidden := true }

/-- What a portal receives of a record, none for nothing (Table 11.6). -/
def copyFor (s : State) (p : Nat) (r : Rec) : Option Rec :=
  let k := r.kind.toNat
  if k ≤ 0x07F ∧ r.portal.isSome then (if r.portal = some p then some r else none)
  else
    let conf : Bool := match s.isles.islands.get r.island with
      | none => false
      | some l => l.confidential
    match (s.portal p).role with
    | .none => none
    | .party => if r.island ≠ 0 ∧ s.isParty p r.island then some r else none
    | .steward | .auditor =>
      if r.island = 0 ∨ !conf ∨ (0x100 ≤ k ∧ k ≤ 0x13F) ∨ (0x180 ≤ k ∧ k ≤ 0x1FF) then some r else some r.hide

/-- A FAULT ring takes a copy, or drops it when it is full or in ERROR (R106; log 35). -/
def toFaultRing (s : State) (ring : Nat) (g : Ring) (r : Rec) : State :=
  if g.st = .error ∨ g.size ≤ g.occ then (s.onRing ring fun y => { y with lost := satAdd 0xFFFFFFFF y.lost 1 }).onPortal g.owner spoilPortal
  else
    let s := s.emit (.faultEntry ring g.prod (g.phase g.prod) (g.lost != 0) r)
    produced (s.onRing ring fun y => { y with lost := 0 }) ring

/-- The copies into the FAULT rings of a portal; D17 wakes for them (R106). -/
def toFaultRings (s : State) (p : Nat) (r : Rec) : State :=
  s.eng.rings.foldl (fun t q =>
    if q.2.kind == .fault && q.2.owner == p && (q.2.island == 0 || q.2.island == r.island) then toFaultRing (wake t 17) q.1 q.2 r else t) s

/-- Delivers a record to the portals entitled to it; `queued` is false where the D0 store has lost it (log 33). -/
def deliverRec (s : State) (cy : Cycle) (r : Rec) (queued : Bool) : Cycle × State :=
  (List.range 8).foldl (fun (acc : Cycle × State) p =>
    if !s.hasPortal p then acc
    else match copyFor acc.2 p r with
      | none => acc
      | some c =>
        let u := toFaultRings acc.2 p c
        if queued || (1 ≤ r.cls.rank && cy.empties.contains p && (u.portal p).first.isNone) then toPortal u acc.1 p c else (acc.1, u)) (cy, s)

/-- The record takes a first-fault slot that is empty, and with it a reserved entry of the store (R350, R352). -/
def takesFirst (s : State) (cy : Cycle) (r : Rec) : Bool :=
  (decide (2 ≤ r.cls.rank) && s.coll.first.isNone) ||
    (List.range 8).any fun p => s.hasPortal p && cy.empties.contains p && (s.portal p).first.isNone && decide (1 ≤ r.cls.rank) && (copyFor s p r).isSome

/-- Room in the D0 store for a record: true when it is held, after a displacement if need be (R379). -/
def makeRoom (s : State) (cy : Cycle) (r : Rec) : Bool × State :=
  let s := gcStore s
  if s.coll.store.length < storeLimit ∨ takesFirst s cy r then (true, s)
  else
    let shown := showing s
    match victim (s.coll.store.filter fun x => !shown.contains x.serial) r with
    | some v => (true, displaceRec s v.serial)
    | none => (false, s.onColl fun c => { c with spoil := satAdd 0xFFFF c.spoil 1 })

/-! Fences (R354, R433, Table 11.7). -/

/-- QUIET_S in ns. -/
def quietNs (s : State) : Nat := clamp 1 3600 s.coll.quietS.toNat * 1000000000

/-- The chip reset of Table 11.7, or the power cycle to which a repeat within QUIET_S escalates (R365); a record met while the chip drains merges into its reset (R360). -/
def fenceByChip (s : State) (src : Nat) : State :=
  let again := match s.power.chipFault.get src with
    | none => false
    | some t => decide (s.now ≤ t + quietNs s)
  let s := s.onPower fun p => { p with chipFault := p.chipFault.set src s.now }
  if again && !s.power.draining then requestCycle (escalated s) 0 else chipReset s .fault

/-- The flash layer, the LDPC engine or the manager of D21: D21 is fenced and its manager restarts it, which ENGINE_RESET_COMPLETE ends; at a second entry within the quiet period it stays FENCED (R433, Table 2.4; log 170). -/
def fenceFlash (s : State) : State :=
  let again := match s.nv.lastFlashFault with
    | none => false
    | some t => decide (s.now ≤ t + quietNs s)
  let s := fenceDom (s.onNv fun n => { n with lastFlashFault := some s.now, restarting := true }) 21
  s.onDom 21 fun x => { x with engineReset := !again }

/-- The reaction to a record of class DEGRADED or above of a controller unit (Table 11.7). `entered` says that the unit was not in the fault state; a further record starts the engine reset or the chip reset again and retires its HBM page, and leaves the other fences as they are (log 153). -/
def fenceUnit (s : State) (r : Rec) (entered : Bool) : State :=
  let d := r.unit.toNat / 64
  let u := r.unit.toNat % 64
  let cause := if r.kind = 0x083 then Cause.watchdog else .fault
  if d = 0 then s
  else if d ≤ 16 then
    if u < 32 then s.onPower fun p => { p with fencedHw := p.fencedHw ||| BitVec.ofNat 512 (2 ^ (32 * (d - 1) + u)) }
    else startEngine (setUsable s (d - 1) false) d cause
  else if d = 17 then startEngine s 17 cause
  else if d = 22 then
    if u < 8 then s.onPower fun p =>
      { p with hbmRetired := if r.space = 4 ∧ !p.hbmRetired.contains (r.address.toNat / 2097152) then p.hbmRetired ++ [r.address.toNat / 2097152] else p.hbmRetired
               hbmFenced := if r.kind = 0x084 then p.hbmFenced ||| BitVec.ofNat 8 (2 ^ u) else p.hbmFenced
               hbmDue := if r.kind = 0x085 ∧ r.raised then p.hbmDue ||| BitVec.ofNat 8 (2 ^ u) else p.hbmDue }
    else if u = 8 then s.onPower fun p => { p with cacheBypass := true }
    else fenceByChip s r.src
  else if d = 23 ∧ 16 ≤ u then fenceByChip s r.src
  else if !entered then s
  else if d ≤ 20 then fenceTickets (fenceDom s d) d
  else if d = 21 then
    if u < 4 then rewriteChannel (settleSingle (s.onPower fun p => { p with unitsOut := p.unitsOut ++ [r.unit.toNat] })) u else fenceFlash s
  else if d = 23 then
    if u < 8 then partitionReset s u true .fault else s.onPower fun p => { p with unitsOut := p.unitsOut ++ [r.unit.toNat] }
  else s

/-- An endpoint is excluded from new carves (Table 11.7). -/
def excludeAt (s : State) (a : FAddr) : State :=
  s.onFab fun f => { f with roster := f.roster.mapVals fun _ r => if r.addr = a then { r with excluded := true } else r }

/-- The collector fences the source of a record of class DEGRADED or above (R354). -/
def applyFence (s : State) (r : Rec) (entered : Bool) : State :=
  if addrKind r.source = 2 then fenceUnit s r entered
  else if excludes r then excludeAt s r.source
  else s

/-! Acceptance (R349 to R357). -/

/-- ISLAND of a controller record is that of the context it concerns (R351). -/
def fillIsland (s : State) (r : Rec) : Rec :=
  match r.ctx.bind s.eng.ctxs.get with
  | none => r
  | some x => { r with island := x.island }

/-- LH_FAULT_FIRST takes the first record of class DEGRADED or above (R350). -/
def firstFault (s : State) (r : Rec) : State :=
  s.onColl fun c => if c.first.isNone then { c with first := some r } else c

/-- Accepts one record: a FATAL one is journalled before its reaction; slots, queues, FAULT rings, FAULT_L and the fence follow (R350 to R357). -/
def acceptRec (cy : Cycle) (s : State) (r : Rec) : Cycle × State :=
  let r := { fillIsland s r with serial := s.coll.serial }
  let s := s.onColl fun c => { c with serial := c.serial + 1 }
  let s := if r.cls = .fatal then (journal s jFault r.words).onFab fun f => { f with fatalSince := true } else s
  let high := decide (2 ≤ r.cls.rank)
  let (held, s) := makeRoom s cy r
  let s := if high then firstFault s r else s
  let s := if held then s.onColl fun c => { c with store := c.store ++ [r] } else s
  let (cy, s) := deliverRec s cy r held
  if !high then (cy, gcStore s)
  else
    let entered := !(faultSources s).contains r.src
    let s := driveFaultL (s.onColl fun c => { c with uncleared := c.uncleared ++ [r] })
    (cy, gcStore (applyFence s r entered))

/-- The portals whose first-fault slot is empty. -/
def emptyFirsts (s : State) : List Nat := (List.range 8).filter fun p => (s.portal p).first.isNone

/-- Takes every posted record through both passes of R349: the records as accepted, and the state. -/
def acceptPosted (s : State) : List Rec × State :=
  let l := sortRecs s.coll.posted
  let (l, s) := countAll (s.onColl fun c => { c with posted := [] }) l
  let l := sortRecs l
  (l, (l.foldl (fun (acc : Cycle × State) r => acceptRec acc.1 acc.2 r) ({ empties := emptyFirsts s }, s)).2)

end Sys2Proof.Machine
end

