-- ==== Sys2Proof/Machine/Discovery.lean ====
section
/-! DEFINITION. Discovery and agent firmware at the controller: what an announcement brings, manifests, chunks and their repair, and the ends of boot steps 10 and 11 (R225 to R228, R233, R265 to R268, R271, R272). -/

namespace Sys2Proof.Machine

/-! Announcements (R265). -/

/-- An agent that has announced receives its place, its steps, and where it runs already a query of its measurement (R265, R266, R401). -/
def assignOne (s : State) (id : Nat) (a : FAddr) : State :=
  let s := sendAssign s id a
  let s := if stepItems s id = [] then s else sendRegs s id (stepItems s id)
  if (s.roster id).life = .running then sendRegs s id (readItem 0x20 :: measItems) else s

/-- An agent announces at a place of the plan: matched by one MAC, or by two and then assigned to neither; within the window the ASSIGN waits for its end (R265). -/
def assignFound (s : State) (id : Nat) (a : FAddr) : State :=
  if 1 < (s.roster id).macs.length then s.onRoster id fun r => { r with found := false, addr := noAddr, staged := none }
  else
    let s := s.onRoster id fun r => { r with found := true, addr := noAddr, staged := none }
    if s.power.step = 10 then s else assignOne s id a

/-- The end of the window: every identity that exactly one MAC announced in it receives ASSIGN (R265). -/
def assignMatched (s : State) : State :=
  (s.fab.roster.filter fun q => q.2.found && q.2.macs != [] && q.2.addr == noAddr).foldl (fun t q =>
    match placeOf t q.1 with
    | .at a => assignOne t q.1 a
    | .spare _ _ => assignOne t q.1 noAddr
    | .unknown | .retired => t) s

/-! Firmware (R226, R228, R233, R266). -/

/-- An agent needs firmware: it does not run, or its measurement, once read, differs from the image staged for its class (R266). -/
def needsFirmware (s : State) (id : Nat) : Bool :=
  match s.fab.stagedFw.get (s.roster id).hcClass with
  | none => false
  | some hsh => (s.roster id).life != .running || ((s.roster id).measKnown && (s.roster id).fwMeas != hsh)

/-- The staged manifest and image of a host chip class. -/
def stagedImage (s : State) (cls : Nat) : List Byte := ((s.nv.objects.get (objKey clsAgentFw cls)).map (·.data)).getD []

/-- Chunks of an image (R226). -/
def chunkCount (img : List Byte) : Nat := (img.length - 192 + 4079) / 4080

/-- Sends chunks of the staged image by unicast, then FW_END (R228). -/
def sendChunks (s : State) (id : Nat) (ks : List Nat) : State :=
  let img := stagedImage s (s.roster id).hcClass
  let n := chunkCount img
  let s := (ks.filter (· < n)).foldl (fun t k =>
    toAgentMgmt t id 0x0031 0 (BitVec.ofNat 64 k) ((img.drop (192 + 4080 * k)).take 4080)) s
  toAgentMgmt s id 0x0032 0 (BitVec.ofNat 64 n) []

/-- Sends the staged manifest of an agent's class; with `alone`, its chunks follow by unicast, not with a group (R266, R267). -/
def sendManifest (s : State) (id island : Nat) (alone : Bool := true) : State :=
  let img := stagedImage s (s.roster id).hcClass
  sendReq (s.onRoster id fun r => { r with manifest := true })
    { agent := id, kind := 0x0030, sub := if alone then 1 else 0, body := img.take 192, island := island }

/-- Loads by unicast an agent that needs firmware and that no broadcast reaches; a member of a live island waits for its boundary (R233, R266, R271, R272). -/
def loadAlone (s : State) (id : Nat) : State :=
  let due := decide (12 ≤ s.power.step) || (s.power.step == 11 && s.fab.fwLoading)
  if due && (s.roster id).found && !(s.roster id).manifest && needsFirmware s id && islandOf s (placeAddr s id) == 0 then sendManifest s id 0 else s

/-! Repair of the broadcast (R267). -/

/-- The agents whose missing chunks are known, in ascending X of their column, then ascending identity. -/
def repairOrder (s : State) : List (Nat × List Nat) :=
  (List.range 64).flatMap fun x => s.fab.fwGaps.filter fun q => loadCoord s (placeAddr s q.1) q.1 2 == x

/-- Every agent that still loads has named its missing chunks. -/
def gapsKnown (s : State) : Bool :=
  s.fab.roster.all fun q => !(q.2.manifest && q.2.life == .loading) || (s.fab.fwGaps.get q.1).isSome

/-- Once every row has been sent and its gaps gathered, the ferry repairs column by column; after that pass each answer is repaired as it comes (R267; log 175). -/
def repairPass (s : State) : State :=
  if !s.fab.fwLoading ∨ s.fab.fwRepaired ∨ s.fab.fwGaps = [] ∨ !gapsKnown s then s
  else ((repairOrder s).foldl (fun t q => sendChunks t q.1 q.2) s).onFab fun f => { f with fwGaps := [], fwRepaired := true }

/-- FW_MISSING: in the broadcast of step 11 the gaps are gathered for the repair pass; else the chunks are sent by unicast, then FW_END again (R228, R267). -/
def execFwMissing (agent : Nat) (chunks : List Nat) (missing : Nat) (s : State) : Ans :=
  .next (
    let s := heard s agent
    if missing = 0 then s
    else if s.power.step = 11 ∧ s.fab.fwLoading ∧ !s.fab.fwRepaired then repairPass (s.onFab fun f => { f with fwGaps := f.fwGaps.set agent chunks })
    else sendChunks s agent chunks)

/-! Ends of boot steps 10 and 11 that answers bring about (R265, R268). -/

/-- Firmware of an agent is still on its way. -/
def Life.loads : Life → Bool
  | .loading => true
  | .verifying => true
  | _ => false

/-- Every entry of the plan that is not ABSENT is matched; without a plan none is expected. -/
def allMatched (s : State) : Bool :=
  match s.fab.plan with
  | none => true
  | some pl =>
    ((planEntries pl 0x048) ++ planEntries pl 0x058).all fun e =>
      entryAbsent e || (s.roster (entryAgent e)).found || (s.roster (entryAgent e)).retired

/-- Step 10 ends: the matched agents are assigned, and step 11 follows; where tables survive, step 13 does, and agents of other firmware are loaded by unicast (R265, R272, R450, Table 8.1). -/
def endDiscovery (s : State) : State :=
  let warm := s.power.fastPath || s.pair.role == .takingOver
  let s := assignMatched (s.onPower fun p => { p with step := if warm then 13 else 11 })
  if warm then s.fab.roster.foldl (fun t q => loadAlone t q.1) s else s

/-- Step 10 ends once every entry is matched (R265). -/
def discoveryCheck (s : State) : State :=
  if s.power.step = 10 ∧ s.fab.st = .discovering ∧ allMatched s then endDiscovery s else s

/-- An agent runs the image staged for its class, as far as one is staged. -/
def rightFirmware (s : State) (r : Roster) : Bool :=
  r.life == .running && (match s.fab.stagedFw.get r.hcClass with
    | none => true
    | some h => r.fwMeas == h)

/-- Step 11 ends: agents that do not run the staged image are FW_FAILED (R268). -/
def endFirmware (s : State) : State :=
  (s.onFab fun f => { f with fwLoading := false, roster := f.roster.mapVals fun _ r => { r with fwFailed := r.found && !rightFirmware s r } }).onPower
    fun p => { p with step := 12 }

/-- The measurement of a found agent that runs is still being read. -/
def measPending (s : State) : Bool :=
  s.fab.roster.any fun q => q.2.found && q.2.life == .running && !q.2.measKnown &&
    s.fab.reqs.vals.any fun r => r.agent == q.1 && !r.ctl && r.kind == 0x0001

/-- Every agent that was sent a manifest has come to an end, and no measurement is awaited (R268). -/
def loadsEnded (s : State) : Bool :=
  !measPending s && s.fab.roster.vals.all fun r => !r.manifest || r.life == .running || r.life == .rejected || r.life == .fwFault

/-- Step 11 ends once every agent that was sent a manifest has come to an end; one that loads is read again (R268). -/
def firmwareCheck (s : State) (id : Nat) : State :=
  if s.power.step ≠ 11 ∨ !s.fab.fwLoading then s
  else
    let s := repairPass s
    if (s.roster id).manifest && ((s.roster id).life.loads || (s.roster id).life == .rom) then sendRegs s id (readItem 0x20 :: measItems)
    else if loadsEnded s then endFirmware s
    else s

end Sys2Proof.Machine
end

