-- ==== Sys2Proof/Machine/CtrlMsgs.lean ====
section
/-! DEFINITION. What the controller does with what agents send it: register answers, acknowledgements, mailbox words, events, counters, scrub reports, and silence (R216, R220, R221, R224, R228, R236, R238, R315 to R321, R343, R376, R381). -/

namespace Sys2Proof.Machine

/-! Islands that are released (R314). -/

/-- A RELEASING island whose scrubs have all ended is FREE: its key waits for its former members, and the entry completes (R48, R314). -/
def releaseCheck (s : State) (h : Nat) : State :=
  match s.isles.islands.get h with
  | none => s
  | some l =>
    if l.st ≠ .releasing ∨ l.scrubs ≠ [] ∨ l.ownScrub then s
    else
      let s := islandGone (setIsl s h .free) h
      answerAt s l.release stOk

/-- A scrub of an endpoint has ended or was given up: CLEAN or QUARANTINED (Table 10.3). -/
def scrubEnded (s : State) (id : Nat) (ok : Bool) : State :=
  let s := s.onFab fun f => { f with reqs := f.reqs.keep fun _ q => !(q.agent == id && q.ctl && q.kind == 0x24) }
  let s := if ok then setTenancy s id .clean else quarantine s id
  let s := s.onIsles fun e => { e with islands := e.islands.mapVals fun _ l => { l with scrubs := l.scrubs.filter (· != id) } }
  s.isles.islands.foldl (fun t q => releaseCheck t q.1) s

/-- Scrub budget of a host chip, µs (R319). -/
def scrubBudget (gib : Nat) : Nat := 40000 * Nat.max 192 gib / 192

/-- SCRUB_REPORT: OK makes the endpoint CLEAN, a slow one recorded; FAILED quarantines it (R319, R321). -/
def execScrubReport (agent : Nat) (status : Word) (s : State) : Ans :=
  .next (
    let s := heard s agent
    let r := s.roster agent
    if fld status 3 0 = 2 then
      let total := fld status 63 32
      let budget := scrubBudget r.memGib
      let s := clearAt s r.addr 0x182
      let s := clearRecs s fun x => x.source == r.addr && decide (0x800 ≤ x.kind.toNat) && x.cls == .fatal
      let gives := [r.hcClass, budget, total]
      let s := if budget < total then s.fault 0 0 0x183 .degraded (Config.openDetail 0x183 0 0 gives) (Config.openDetail 0x183 1 0 gives) else s
      scrubEnded s agent true
    else if fld status 3 0 = 3 then scrubEnded s agent false
    else s)

/-- SCRUB_UNREACHABLE: an agent in SCRUBBING has been unreachable for 1 s (Table 10.3). -/
def execScrubUnreachable (agent : Nat) (s : State) : Ans :=
  .next (if (s.roster agent).tenancy = .scrubbing then scrubEnded s agent false else s)

/-- QUARANTINE_RESCRUB: a reachable QUARANTINED endpoint is scrubbed again; it stays QUARANTINED until one ends OK (R321). -/
def execQuarantineRescrub (agent : Nat) (s : State) : Ans :=
  .next (if (s.roster agent).tenancy = .quarantined then sendScrub s agent else s)

/-! Register answers (R234, R323). -/

/-- A value read from an agent enters the model. -/
def Roster.take (r : Roster) (off : Nat) (v : Word) : Roster :=
  if off = 0x08 then { r with hcClass := fld v 55 48, memGib := fld v 47 32 }
  else if off = 0x10 then { r with found := fld v 27 0 == r.addr.toNat }
  else if off = 0x20 then { r with life := match fld v 2 0 with
    | 1 => .loading | 2 => .verifying | 3 => .running | 4 => .fwFault | 5 => .rejected | _ => .rom }
  else if off = 0x28 then { r with svn := fld v 47 32 }
  else if off = 0xA0 then { r with dbgWord := v.truncate 9 }
  else if 0x40 ≤ off ∧ off < 0x70 ∧ off % 8 = 0 then
    { r with fwMeas := setHashWord r.fwMeas ((off - 0x40) / 8) v, measKnown := r.measKnown || off == 0x68 }
  else if 0x70 ≤ off ∧ off < 0xA0 ∧ off % 8 = 0 then { r with hcMeas := setHashWord r.hcMeas ((off - 0x70) / 8) v }
  else r

/-- A firmware load at a boundary has ended; while it runs the agent's state is read again (R233). -/
def firmwareStep (s : State) (id island : Nat) : State :=
  let code := 4 * id + 2
  if !(s.isles.installs.vals.any fun x => x.waits.contains code) then s
  else if (s.roster id).life.loads then sendRegs s id (readItem 0x20 :: measItems) island
  else waitDone s code

/-- REG_RSP: the values read enter the model; a measurement that they change is computed again (R221, R323). -/
def execRegRsp (agent : Nat) (tag : BitVec 32) (items : List RegItem) (s : State) : Ans :=
  .next (
    let s := heard s agent
    match s.req agent tag.toNat with
    | none => s
    | some q =>
      if q.ctl ∨ q.kind ≠ 0x0001 then s
      else
        let old := s.roster agent
        let s := dropReq s agent q.tag
        let s := items.foldl (fun t i => if i.op = 1 ∧ i.status = 0 then t.onRoster agent fun r => r.take i.offset.toNat i.value else t) s
        let new := s.roster agent
        let changed := new.fwMeas != old.fwMeas || new.hcMeas != old.hcMeas || new.dbgWord != old.dbgWord
        let s := if items.any (fun i => i.op == 1 && i.status == 0 && i.offset.toNat == 0x20) then lifeKnown s agent else s
        let s := if changed ∧ q.island ≠ 0 then remeasure s q.island else s
        let s := if old.life ≠ .running ∧ new.life = .running then firmwareStarted s agent else s
        let s := if !old.measKnown ∧ new.measKnown then loadAlone s agent else s
        firmwareCheck (discoveryCheck (firmwareStep s agent q.island)) agent)

/-! MG_ACK (R221, R240 to R242, R331, R375, R376). -/

/-- A KEY_DELIVER is answered: the slot is loaded, or empty, which an installation may wait for, or the member receives nothing further at the epoch (R313, R330). -/
def keyAnswered (s : State) (q : MgReq) (ok : Bool) : State :=
  let slot := q.arg.toNat
  let bit : BitVec 32 := BitVec.ofNat 32 (2 ^ slot)
  let flags := leAt q.body 0x0F 1
  if flags.testBit 1 then
    goOn (if ok then s.onRoster q.agent fun r => { r with slots := r.slots &&& ~~~bit, debugSlots := r.debugSlots &&& ~~~bit } else s) q.island
  else if ok then
    s.onRoster q.agent fun r => { r with
      slots := r.slots ||| bit, debugSlots := if flags.testBit 0 then r.debugSlots ||| bit else r.debugSlots &&& ~~~bit }
  else
    let epoch := leAt q.body 8 4
    let s := s.onRoster q.agent fun r => { r with refusedEpoch := epoch }
    s.post { s.mkRec 0 0 0x1C3 .degraded (Config.openDetail 0x1C3 0 s.nonce [(s.roster q.agent).addr.toNat]) with island := q.island }

/-- A RESET has ended OK: a failed ENDPOINT_RESET clears, and after a level 4 reset the host chip's FATAL records (R344, Table 11.3). -/
def resetEnded (s : State) (q : MgReq) : State :=
  let a := (s.roster q.agent).addr
  let s := clearRecs s fun r => r.source == a && r.kind == 0x181 && r.cls == .uncorrected && !r.raised
  if q.sub = 4 then clearRecs s fun r => r.source == a && decide (0x800 ≤ r.kind.toNat) && r.cls == .fatal else s

/-- An ASSIGN is accepted: an agent without an address takes it at once (R225). -/
def assigned (s : State) (q : MgReq) : State :=
  let a : FAddr := BitVec.ofNat 28 (leAt q.body 8 4)
  s.onRoster q.agent fun r => if r.addr = noAddr ∧ r.staged.isNone then { r with addr := a, found := true } else { r with found := true }

/-- An island's abort has been answered, or its repeats are spent (R376). -/
def abortCheck (s : State) (h : Nat) : State :=
  match s.isles.islands.get h with
  | none => s
  | some l =>
    if l.abortWait ≠ [] then s
    else answerAt (s.onIsland h fun x => { x with abortEntry := none }) l.abortEntry stOk (leBytes 4 0)

/-- MG_ACK: answers the request with its TAG, or an abort (R221, R375). -/
def execMgAck (agent : Nat) (status : BitVec 8) (arg : BitVec 32) (s : State) : Ans :=
  .next (
    let s := heard s agent
    if arg.getLsbD 31 then
      let h := arg.toNat % 65536
      let a := (s.roster agent).addr
      abortCheck (s.onIsland h fun l => { l with abortWait := l.abortWait.filter (· != a) }) h
    else match s.req agent arg.toNat with
      | none => s
      | some q =>
        if !q.ctl ∧ q.kind = 0x0050 then s
        else
          let ok := status == 0
          let s := dropReq s agent q.tag
          if q.ctl then if q.kind = 0x23 ∧ ok then resetEnded s q else s
          else if q.kind = 0x0021 then if ok then assigned s q else s.onRoster agent fun r => { r with staged := none }
          else if q.kind = 0x0030 then
            if !ok then waitDone s (4 * agent + 2)
            else
              let s := s.onRoster agent fun r => { r with life := .loading }
              if q.sub = 0 then s
              else sendRegs (sendChunks s agent (List.range (chunkCount (stagedImage s (s.roster agent).hcClass)))) agent (readItem 0x20 :: measItems) q.island
          else if q.kind = 0x0040 then keyAnswered s q ok
          else s)

/-- Times that a request is sent again (R221, R291). -/
def resendLimit (q : MgReq) : Nat := if q.kind = 0x0050 ∧ !q.ctl then 16 else 8

/-- MGMT_RESEND: the request goes out again under its TAG; after the last time it is given up (R221, R291). -/
def execMgmtResend (agent tag : Nat) (s : State) : Ans :=
  .next (match s.req agent tag with
    | none => s
    | some q =>
      if q.sends ≤ resendLimit q then
        emitReq (s.onFab fun f => { f with reqs := f.reqs.set (reqKey agent tag) { q with sends := q.sends + 1 } }) q
      else if !q.ctl ∧ q.kind = 0x0050 then elemsDone s q stInvalid
      else
        let s := firmwareCheck (waitDone (dropReq s agent tag) (4 * agent + 2)) agent
        if !q.ctl ∧ q.kind = 0x0040 then goOn s q.island else s)

/-- MB_WORD of an agent: stored in its channel, or dropped with MB_OVF and answered BUSY (R110, R236). -/
def execMbWordToController (agent : Nat) (tag : BitVec 32) (word : Word) (s : State) : Ans :=
  .next (
    let s := heard s agent
    let m := s.fab.mboxes.getD agent {}
    let put (x : Mbox) (st : Nat) : State := toAgent (s.onFab fun f => { f with mboxes := f.mboxes.set agent x }) agent 0x20 st 0 tag
    if m.full then put { m with ovf := true } stBusy else wake (put { m with word := word, full := true } stOk) 17)

/-- The host chip power that POWER_SAMPLE carries (R337). -/
def takePower (s : State) (agent : Nat) (r : Rec) : State :=
  if r.kind = 0x188 then s.onRoster agent fun x =>
    let new := decide (((x.powerCoarse.map (·.1)).getD 0) / 100000000 < r.lastTime / 100000000) || x.powerCoarse.isNone
    { x with power := r.detail0.toNat, powerAt := r.lastTime, powerCoarse := if new then some (r.lastTime, r.detail0.toNat) else x.powerCoarse }
  else s

/-- EVENTS: records that follow in order enter the collector, and EVT_ACK gives the highest ESEQ in order (R238). -/
def execEvents (agent eseq : Nat) (recs : List Rec) (s : State) : Ans :=
  .next (
    let s := heard s agent
    let last := (s.fab.eseq.get agent).getD (eseq - 1)
    let new := if last + 1 < eseq then [] else recs.drop (last + 1 - eseq)
    let last := last + new.length
    let s := new.foldl (fun t r => (takePower t agent r).post { r with portal := none, serial := 0 }) s
    let s := s.onFab fun f => { f with eseq := f.eseq.set agent last }
    toAgent s agent 0x21 0 0 (BitVec.ofNat 32 last))

/-- A takeover takes fabric time once from the endpoint of the lowest quay whose copy is at or above the floor; that load is no lock, so the first lock still evaluates the licences (R77, R275, R450). -/
def takeoverTime (s : State) (agent time : Nat) : State :=
  match s.pair.timeLoad with
  | none => s
  | some tried =>
    let took (t : Nat) : State := ((loadTime s t).onTime fun x => { x with taken := true }).onPair fun p => { p with timeLoad := none }
    match s.quays.find? fun q => !tried.contains q.1 with
    | none => took (Nat.max s.now s.time.floor)
    | some q =>
      if s.agentAt q.2.1 ≠ some agent then s
      else if time < s.time.floor then s.onPair fun p => { p with timeLoad := some (q.1 :: tried) }
      else took time

/-- COUNTERS: a sample with its agent fabric time, which a takeover may load (R220, R275, R337). -/
def execCounters (agent time : Nat) (words : List Word) (s : State) : Ans :=
  .next ((takeoverTime (heard s agent) agent time).onRoster agent fun r =>
    let new := decide (((r.coarse.map (·.1)).getD 0) / 100000000 < time / 100000000) || r.coarse.isNone
    { r with sample := some (time, words), coarse := if new then some (time, words) else r.coarse })

/-- TELEMETRY_SAMPLE: the telemetry period timer wakes D18, and every agent found is asked for its counters over the ordinary network, unless fault intake defers it (R61, R381, Table 1.1). -/
def execTelemetrySample (deferred : Bool) (s : State) : Ans :=
  .next (
    let s := wake (s.onFab fun f => { f with deferTelemetry := deferred }) 18
    if deferred then s
    else (s.fab.roster.filter fun q => q.2.found).foldl (fun t q => toAgentOn t q.1 .ordinary 0x22 0 0 0) s)

/-- AGENT_SILENCE: an assigned agent has answered and sent nothing for 1 s while a network is up (Table 11.3). -/
def execAgentSilence (agent : Nat) (s : State) : Ans :=
  .next (
    let a := (s.roster agent).addr
    if a = noAddr then s
    else s.post { s.mkRec 0 0 0x1C4 .degraded with
      source := a, unit := 0x008, island := islandOf s a })

end Sys2Proof.Machine
end

