-- ==== Sys2Proof/Machine/Islands.lean ====
section
/-! DEFINITION. Building a table set for an island, carving, release, attestation reports and abort (R42 to R50, R233, R310 to R327, R372 to R376). -/

namespace Sys2Proof.Machine

/-! Building (R42 to R47, R280, R316). -/

/-- A member has failed: its agent is gone, lost, excluded or condemned. -/
def failedAt (s : State) (a : FAddr) : Bool :=
  match s.agentAt a with
  | none => true
  | some id => (s.roster id).excluded || condemnedAgent s id || s.coll.uncleared.any fun r => r.source == a && r.kind == 0x1C4

/-- Healthy spares of a pod by ascending slot, CLEAN ones where an island takes them (R43, Table 10.3). -/
def healthySpares (s : State) (clean : Bool) (pod : Nat) : List Nat :=
  let l := s.fab.roster.filter fun q =>
    (q.2.spare.map (·.1)) == some pod && q.2.addr == noAddr && q.2.staged.isNone && q.2.found && !q.2.excluded && !q.2.retired &&
      !q.2.fwFailed && !condemnedAgent s q.1 && (!clean || q.2.tenancy == .clean)
  (List.range 16).filterMap fun slot => (l.find? fun q => (q.2.spare.map (·.2)) == some slot).map (·.1)

/-- The splices of failed positions, in ascending address: position, identity that leaves, and the lowest healthy spare of the pod that can take its place, or 0 where the position is lost (R42, R43, R45). -/
def chooseMoves (s : State) (clean : Bool) : List FAddr → List Nat → List (Nat × Nat × Nat)
  | [], _ => []
  | a :: as, used =>
    let old := (s.agentAt a).getD 0
    match s.fab.plan with
    | none => []
    | some pl =>
      let spare := ((healthySpares s clean (podIndex pl a)).find? fun id => !used.contains id && spareFits pl a id).getD 0
      (a.toNat, old, spare) :: chooseMoves s clean as (spare :: used)

/-- What an island's next table set is for. -/
structure SetPlan where
  /-- Island handle -/
  h : Nat
  /-- New epoch -/
  epoch : Nat
  /-- Partition key -/
  pkey : Nat
  /-- Low corner -/
  low : List Nat
  /-- Extents -/
  shape : List Nat
  /-- Members -/
  members : List FAddr
  /-- Splices and losses -/
  moves : List (Nat × Nat × Nat)
  /-- Schedule, 0 for none -/
  sched : Nat
  /-- What step 2 waits for -/
  waits : List Nat
  deriving DecidableEq, Repr

/-- The circuit map of a set: the one that the plan and the splices want, as far as the island's boundary may change it (R38). -/
def setCircuits (s : State) (q : SetPlan) : FMap Nat :=
  let t := asSpliced s q.moves
  boundaryCircuits s q.h (wantCircuits t t.fab.spliced)

/-- The state in which an island's new tables are computed: its splices, members and circuits as they will be. -/
def setState (s : State) (q : SetPlan) : State :=
  (asJoined (asSpliced s q.moves) (setCircuits s q)).onIsland q.h fun l => { l with members := q.members, low := q.low, shape := q.shape }

/-- The region of a set. -/
def SetPlan.region (q : SetPlan) : Region := { low := q.low, shape := q.shape, members := q.members }

/-- The refusal of a set: a member that needs too many entries, or the first pair without a closed route (R47, R280). -/
def setRefusal (s : State) (q : SetPlan) : Option (FAddr × FAddr) :=
  let t := setState s q
  match q.region.crowded t with
  | some a => some (a, a)
  | none => q.region.open_ t

/-- Splices are prepared: a failed member is marked a former one and reset, and the spare is given the position (R316). -/
def prepareMove (s : State) (h : Nat) (l : Island) (m : Nat × Nat × Nat) : State :=
  let s := if m.2.1 = 0 ∨ (s.roster m.2.1).tenancy ≠ .member then s
    else sendReset (sendRegs s m.2.1 [writeItem 0x380 (at_ 1 63 ||| at_ l.epoch 16 ||| at_ l.pkey 0)] h) m.2.1 3 h
  if m.2.2 = 0 then s
  else sendAssign (s.onRoster m.2.2 fun r => { r with staged := some (BitVec.ofNat 28 m.1) }) m.2.2 (BitVec.ofNat 28 m.1)

/-- Integrity registers of a member from the island's configuration: AG_PLAUS without PLAUS_TRIGGER, its EN clear while ENABLE is, AG_DIGEST_BASE and AG_DIGEST_LEN (R391, R404). -/
def integItems (c : IuCfg) : List RegItem :=
  writeItem 0x400 (c.plaus &&& (if c.cfg.getLsbD 63 then 0xFFFFFF00FFFFFFFF else 0x7FFFFF00FFFFFFFF)) :: (List.range 16).map fun i => writeItem (0x480 + 8 * i) (c.desc.getD i 0)

/-- The installation of a set starts: keys that must go are erased, splices, integrity registers and firmware prepared, banks pushed (R287, R313, R316). -/
def installSet (s : State) (q : SetPlan) (isPartIu : Bool) : State :=
  match s.isles.islands.get q.h with
  | none => s
  | some l =>
    let t := setState s q
    let g := q.region
    let head : SetHead := { h := q.h, epoch := q.epoch, pkey := q.pkey, sched := schedImage s q.sched, t0 := s.now }
    let ids := withIds t q.members
    let banks := ids.map fun m => (m.2, false, g.bank t head (t.roster m.2) m.1)
    let want := setCircuits s q
    let sws := switchLoads s want (islandSwitches t q.members).contains
    let gone := ((withIds s l.members).map (·.2)).filter fun id => !(ids.any fun m => m.2 == id)
    let load := (ids.map (·.2)).filter (needsFirmware s)
    let s := (gone ++ load).foldl (fun t id => eraseSlots t id q.h) s
    let s := q.moves.foldl (fun t m => prepareMove t q.h l m) s
    let s := (g.unarmed t q.h).foldl (fun u p => u.post { u.mkRec 0 0 0x109 .note (Config.openDetail 0x109 0 0 [p.1.toNat, p.2]) (Config.openDetail 0x109 1 0 [p.1.toNat, p.2]) with island := q.h }) s
    let s := if isPartIu then ids.foldl (fun u m => sendRegs u m.2 (integItems l.iuNext) q.h) s else s
    let s := load.foldl (fun u id => sendManifest u id q.h) s
    let x : Install :=
      { epoch := q.epoch, pkey := q.pkey, members := ids.map (·.2), switches := sws.map (·.1), circuits := want
        waits := q.waits ++ load.map fun id => 4 * id + 2
        newMembers := q.members, low := q.low, shape := q.shape, moves := q.moves, sched := q.sched, pend := l.pendSched }
    startInstall s q.h x (banks ++ sws)

/-! ISLAND_CARVE of a new island (R310, R311). -/

/-- Coordinates from the layout {W, X, Y, Z} of 6 bits each. -/
def lowOf (w : Nat) : List Nat := [bits w 23 18, bits w 17 12, bits w 11 6, bits w 5 0]

/-- Extents from the layout [31:24] W to [7:0] Z. -/
def shapeOf4 (w : Nat) : List Nat := [bits w 31 24, bits w 23 16, bits w 15 8, bits w 7 0]

/-- The positions of a box in ascending address; it wraps modulo the plan sizes. -/
def boxPositions (s : State) (low shape : List Nat) : List FAddr :=
  let g : Region := { low := low, shape := shape, members := [] }
  let cs (k : Nat) : List Nat := (List.range (s.dim k)).filter (g.spans s k)
  (cs 3).flatMap fun w => (cs 2).flatMap fun x => (cs 1).flatMap fun y => (cs 0).map fun z => endpointAddr w x y z

/-- The members of a box: its positions that are not lost and not ABSENT (R42, R311). -/
def boxMembers (s : State) (low shape : List Nat) : List FAddr :=
  (boxPositions s low shape).filter fun a => !s.fab.lost.contains a && (expectedAt s a).isSome

/-- The positions of a box whose endpoints have failed and that no other island than h holds. -/
def failedIn (s : State) (h : Nat) (as : List FAddr) : List FAddr := as.filter fun a => (islandOf s a == 0 || islandOf s a == h) && failedAt s a

/-- Positions without those that are lost because no spare takes them (R42, R43). -/
def withoutLost (moves : List (Nat × Nat × Nat)) (as : List FAddr) : List FAddr :=
  as.filter fun a => !(moves.any fun m => m.1 == a.toNat && m.2.2 == 0)

/-- The splices that a new carve makes: failed positions of its box that a spare takes; the others are lost, and the carve goes around them (R42, R43, Table 11.7; log 182). -/
def carveMoves (s : State) (low shape : List Nat) : List (Nat × Nat × Nat) := chooseMoves s true (failedIn s 0 (boxMembers s low shape)) []

/-- The members of a new carve (R42, R311). -/
def carveMembers (s : State) (low shape : List Nat) : List FAddr := withoutLost (carveMoves s low shape) (boxMembers s low shape)

/-- A box is no box of the plan (R311). -/
def badBox (s : State) (low shape : List Nat) : Bool :=
  [3, 2, 1, 0].any fun k => axis shape k == 0 || decide (s.dim k < axis shape k) || decide (s.dim k ≤ axis low k)

/-- Some member belongs to another island, is QUARANTINED, or has no agent (R46, R311). -/
def membersBarred (s : State) (h : Nat) (as : List FAddr) : Bool :=
  as.any fun a => (islandOf s a != 0 && islandOf s a != h) ||
    (match s.agentAt a with
      | none => true
      | some id => (s.roster id).tenancy == .quarantined)

/-- The members that no splice fills. -/
def unmoved (moves : List (Nat × Nat × Nat)) (as : List FAddr) : List FAddr := as.filter fun a => !(moves.any fun m => m.1 == a.toNat)

/-- Some member is not yet CLEAN: SCRUBBING, or UNSCRUBBED before its first scrub (R311, R315). -/
def membersScrubbing (s : State) (h : Nat) (as : List FAddr) : Bool :=
  as.any fun a => islandOf s a != h &&
    (match s.agentAt a with
      | none => false
      | some id => (s.roster id).tenancy != .clean && (s.roster id).tenancy != .quarantined)

/-- PARTIES names a portal whose role is not PARTY. -/
def badParties (s : State) (mask : Nat) : Bool := (List.range 8).any fun p => mask.testBit p && (s.portal p).role != .party

/-- A broker policy holds (R328). -/
def policyHolds (b : List Byte) : Bool :=
  let n := leAt b 6 1
  b.length == 1680 && leAt b 0 4 == 0x42504F4C && leAt b 4 2 == 1 && decide (1 ≤ n) && decide (n ≤ 16) && decide (leAt b 7 1 ≤ n) &&
    leAt b 8 2 != 0 && decide (leAt b 8 2 < 2 ^ n) && zeroAt b 0x0A 6 &&
    ((List.range n).all fun i => Config.validPoint (slice b (0x10 + 104 * i) 104) && zeroAt b (0x10 + 104 * i + 97) 7) && zeroAt b (0x10 + 104 * n) (104 * (16 - n))

/-- The next handle in rotation that no live island and no ring names (R310). -/
def nextHandle (s : State) : Option Nat :=
  (findFrom (fun k =>
    let h := k % 1023 + 1
    (s.isles.islands.get h).isNone && !(s.eng.rings.any fun r => r.2.island == h)) 1023 s.isles.lastHandle).map fun k => k % 1023 + 1

/-- The lowest partition key that is free (R48; log 7). -/
def nextKey (s : State) : Option Nat := findFrom (fun k => !keyTaken s 0 k) 0xFFFE 1

/-- The fabric states in which no island is carved (R271). -/
def fabClosed (s : State) : Bool := s.fab.st == .booting || s.fab.st == .discovering || s.fab.st == .held

/-- The image of a cached schedule (R302). -/
def cachedImage (s : State) (id : Nat) : Option (List Byte) := (s.isles.scheds.get id).bind fun q => if q.cached then some q.image else none

/-- The status with which a new carve is refused; a schedule whose licence is absent is a new request that needs the feature (R9, R311). -/
def carveRefusal (s : State) (args buf : List Byte) : Option Nat :=
  let low := lowOf (leAt args 4 4)
  let shape := shapeOf4 (leAt args 8 4)
  let conf := (leAt args 2 1).testBit 0
  let sched := leAt args 0x10 8
  let as := carveMembers s low shape
  let stay := unmoved (carveMoves s low shape) as
  if badParties s (leAt args 3 1) then some stDenied
  else if fabClosed s ∨ s.domSt 18 = .fenced ∨ !s.time.firstLock then some stFenced
  else if 1 < leAt args 2 1 ∨ 2 ^ 24 ≤ leAt args 4 4 ∨ !zeroAt args 0x0C 4 ∨ !zeroAt args 0x18 16 ∨ badBox s low shape then some stInvalid
  else if as = [] ∨ membersBarred s 0 stay then some stInvalid
  else if (conf && leAt args 3 1 == 0) || (!conf && buf != []) || (buf != [] && !policyHolds buf) then some stInvalid
  else if sched ≠ 0 ∧ !((cachedImage s sched).map fun i => schedFits s i { low := low, shape := shape, members := as }).getD false then some stInvalid
  else if membersScrubbing s 0 stay then some stBusy
  else if s.lic.maxIslands ≤ (liveIslands s).length ∨ (buf ≠ [] ∧ !s.lic.valid.getLsbD 1) ∨ (cachedImage s sched).any (schedUnlicensed s) then some stUnsupported
  else none

/-- The part has the integrity unit (Table 0.1). -/
def State.hasIu (s : State) : Bool := s.pins.part.hasIu

/-- ISLAND_CARVE with HANDLE 0: a new island in CARVING, whose first installation starts (R310, R311). -/
def execIslandCarve (ring : Nat) (index : BitVec 32) (buf : List Byte) (s₀ : State) : Ans :=
  .next (serveJ ring index 0x20 buf s₀ fun _ f args buf s =>
    if leAt args 0 2 ≠ 0 then s₀
    else match carveRefusal s args buf, nextHandle s, nextKey s with
      | some st, _, _ => finish s ring f st
      | none, some h, some key =>
        let low := lowOf (leAt args 4 4)
        let shape := shapeOf4 (leAt args 8 4)
        let q : SetPlan :=
          { h := h, epoch := 1, pkey := key, low := low, shape := shape, members := carveMembers s low shape
            moves := (carveMoves s low shape).filter fun m => m.2.2 != 0, sched := leAt args 0x10 8, waits := [] }
        let conf := (leAt args 2 1).testBit 0
        let l : Island :=
          { pkey := key, confidential := conf, parties := BitVec.ofNat 8 (leAt args 3 1), low := low, shape := shape, members := q.members
            policy := buf, order := s.isles.nextOrder, entry := some (ring, index), xts := if conf then s.isles.xtsGen + 2 else 0
            broker := { keyGen := s.isles.xtsGen + 1 } }
        let t := s.onIsles fun e => { e with
          islands := e.islands.set h l, lastHandle := h, nextOrder := e.nextOrder + 1, xtsGen := e.xtsGen + 2 }
        match setRefusal t q with
        | some (a, b) => finish s ring f stInvalid (List.replicate 8 0 ++ leBytes 4 a.toNat ++ leBytes 4 b.toNat)
        | none => installSet (wake (setIsl t h .carving) 18) q s.hasIu
      | none, _, _ => finish s ring f stNoSpace)

/-! ISLAND_RELEASE (R314, R320). -/

/-- The controller's own scrub of an island begins: its contexts end, their scratch and windows are zeroed, its tables and its XTS key go (R320). -/
def scrubOwn (s : State) (h : Nat) : State :=
  let cs := s.eng.ctxs.filter fun c => c.2.island == h && c.2.ring.isSome
  let s := cs.foldl (fun t c => scrubCtx t c.1 c.2) s
  let s := s.onEng fun e => { e with tables := e.tables.keep fun _ t => t.island != h }
  s.onIsland h fun l => { l with xts := 0, ownScrub := true }

/-- An island's release: RELEASING, members fenced at level 3 and scrubbed, broker state gone, the key waiting for its former members (R48, R314). -/
def startRelease (s : State) (h : Nat) : State :=
  match s.isles.islands.get h with
  | none => s
  | some l =>
    let ids := (withIds s l.members).map (·.2)
    let s := setIsl s h .releasing
    let s := ids.foldl (fun t id => sendReset t id 3 h) s
    let s := s.onIsland h fun l => { l with broker := {}, tokens := [], consent := [], scrubs := ids, entry := none }
    let s := ids.foldl scrubEndpoint s
    let s := holdKey s l.pkey ids
    clearRecs (scrubOwn s h) fun r => r.kind == 0x1C5 && r.island == h

/-- States from which an island is released. -/
def IslState.releases : IslState → Bool
  | .opn => true
  | .keyed => true
  | .aborted => true
  | _ => false

/-- ISLAND_RELEASE: the release starts, or waits for the ECOMMIT of a boundary that runs (R314). -/
def execIslandRelease (ring : Nat) (index : BitVec 32) (s : State) : Ans :=
  .next (serveJ ring index 0x21 [] s fun _ f args _ s =>
    let h := leAt args 0 2
    match s.isles.islands.get h with
    | none => finish s ring f stInvalid
    | some l =>
      if !zeroAt args 2 38 then finish s ring f stInvalid
      else if l.release.isSome then finish s ring f stBusy
      else
        let t := s.onIsland h fun l => { l with release := some (ring, index) }
        if l.st.releases then startRelease t h
        else if l.st = .boundary then t
        else finish s ring f stInvalid)

/-- ISLAND_RELEASE_RESUME: the ECOMMIT for which a release waited has completed (R314). -/
def execIslandReleaseResume (island : Nat) (s : State) : Ans :=
  .next (match s.isles.islands.get island with
    | none => s
    | some l => if l.release.isSome && l.st.releases then startRelease s island else s)

/-- ISLAND_STATE_SCRUB_DONE: the controller's own scrub of an island has ended (R320). -/
def execIslandStateScrubDone (island : Nat) (s : State) : Ans :=
  .next (releaseCheck (s.onIsland island fun l => { l with ownScrub := false }) island)

/-! ISLAND_MEASURE (R327). -/

/-- The attestation report of an island (Table 10.6). -/
def islandReport (s : State) (h : Nat) (l : Island) (nonce : List Byte) : List Byte :=
  let pub := if l.broker.keyGen = 0 then List.replicate 1672 0 else slice (Config.brokerPub l.broker.keyGen) 0 1672
  let body := leBytes 4 0x49525054 ++ leBytes 2 1 ++ leBytes 2 h ++ leBytes 4 l.epoch ++ leBytes 1 l.st.code ++ [0, 0, 0] ++ nonce ++
    hashBytes l.meas ++ pub ++ leBytes 4 (320 + 160 * (withIds s l.members).length) ++ leBytes 4 0
  body ++ slice (Config.ecdsaSign (Config.sha384 body)) 0 96

/-- A party may submit entries only for islands that name it (Table 3.1). -/
def strangeParty (s : State) (p h : Nat) : Bool := (s.portal p).role == .party && !s.isParty p h

/-- The island's broker key pair: one that has been discarded is drawn anew with the next report, and none for an island that is being released (R314, R334). -/
def brokerPair (s : State) (h : Nat) : State :=
  match s.isles.islands.get h with
  | none => s
  | some l =>
    if l.broker.keyGen ≠ 0 ∨ l.st = .releasing then s
    else
      let n := s.isles.xtsGen + 1
      (s.onIsles fun e => { e with xtsGen := n }).onIsland h fun x => { x with broker := { x.broker with keyGen := n } }

/-- ISLAND_MEASURE: the signed attestation report of an island (R327, R334). -/
def execIslandMeasure (ring : Nat) (index : BitVec 32) (buf : List Byte) (s : State) : Ans :=
  .next (serve ring index 0x22 buf s fun g f args _ s =>
    let h := leAt args 0 2
    if strangeParty s g.owner h ∨ s.pins.debugUnlocked then finish s ring f stDenied
    else match s.isles.islands.get h with
      | none => finish s ring f stInvalid
      | some l =>
        if !zeroAt args 2 6 ∨ l.st = .carving then finish s ring f stInvalid
        else if s.domSt 19 = .fenced then finish s ring f stFenced
        else
          let s := brokerPair s h
          finish (wake s 19) ring f stOk [] (islandReport s h ((s.isles.islands.get h).getD l) (slice args 8 32)))

/-! ISLAND_ABORT (R372 to R376). -/

/-- The root of an abort: the member at the middle of the island, else the member of the lowest address (R373). -/
def abortRoot (s : State) (l : Island) : Option FAddr :=
  let c (k : Nat) : Nat := (axis l.low k + axis l.shape k / 2) % s.dim k
  let a := endpointAddr (c 3) (c 2) (c 1) (c 0)
  if l.members.contains a then some a else l.members.head?

/-- Sends ISLAND_ABORT to one member. -/
def sendAbort (s : State) (h reason : Nat) (a : FAddr) : State := s.sendCtrl a 3 reason 0 (BitVec.ofNat 32 h)

/-- The controller aborts an island (R373). -/
def abortIsland (s : State) (h reason : Nat) (entry : Option (Nat × BitVec 32)) : State :=
  match s.isles.islands.get h with
  | none => s
  | some l =>
    let s := s.post { s.mkRec 0 0 0x1C5 .degraded with island := h }
    let s := setIsl s h .aborted
    let s := fenceRings s fun _ g => g.island == h
    let s := failInstall s h stFenced
    let s := s.onIsland h fun x => { x with abortWait := l.members, abortSends := 0, abortReason := reason, abortEntry := entry }
    match abortRoot s l with
    | none => abortCheck s h
    | some a => sendAbort s h reason a

/-- States in which an island can be aborted (Table 10.1). -/
def IslState.aborts : IslState → Bool
  | .opn => true
  | .keyed => true
  | .boundary => true
  | _ => false

/-- ISLAND_ABORT: aborts an island, or completes OK where it is aborted already (R372). -/
def execIslandAbort (ring : Nat) (index : BitVec 32) (buf : List Byte) (s : State) : Ans :=
  .next (serveJ ring index 0x23 buf s fun g f args _ s =>
    let h := leAt args 0 2
    if strangeParty s g.owner h then finish s ring f stDenied
    else match s.isles.islands.get h with
      | none => finish s ring f stInvalid
      | some l =>
        if leAt args 2 1 ≠ 1 ∨ !zeroAt args 3 37 then finish s ring f stInvalid
        else if l.st = .aborted then finish s ring f stOk
        else if l.st.aborts then abortIsland s h 1 (some (ring, index))
        else finish s ring f stInvalid)

/-- ABORT_RESEND: members that have not answered receive the abort by unicast, at most 8 times; then each is recorded lost (R376). -/
def execAbortResend (island : Nat) (s : State) : Ans :=
  .next (match s.isles.islands.get island with
    | none => s
    | some l =>
      if l.abortWait = [] then s
      else if l.abortSends < 8 then
        l.abortWait.foldl (fun t a => sendAbort t island l.abortReason a)
          (s.onIsland island fun x => { x with abortSends := x.abortSends + 1 })
      else
        let s := l.abortWait.foldl (fun t a => t.post { t.mkRec 0 0 0x1C4 .degraded with source := a, unit := 0x008, island := island }) s
        let s := s.onIsland island fun x => { x with abortWait := [], abortEntry := none }
        answerAt s l.abortEntry stOk (leBytes 4 l.abortWait.length))

end Sys2Proof.Machine
end

