-- ==== Sys2Proof/Machine/Trust.lean ====
section
/-! DEFINITION. The key broker: KEY_SHARE, releases, withdrawals and consent tokens (R328 to R334, R339 to R341). -/

namespace Sys2Proof.Machine

/-! Arithmetic in GF(2^8) with the polynomial 0x11B (Table 10.9). -/

/-- Multiplication by x. -/
def gfDouble (a : Byte) : Byte := if a.getLsbD 7 then (a <<< 1) ^^^ 0x1B else a <<< 1

/-- Multiplication, over the bits of the second factor. -/
def gfMulN : Nat → Byte → Byte → Byte
  | 0, _, _ => 0
  | n + 1, a, b => (if b.getLsbD 0 then a else 0) ^^^ gfMulN n (gfDouble a) (b >>> 1)

/-- Multiplication. -/
def gfMul (a b : Byte) : Byte := gfMulN 8 a b

/-- Powers. -/
def gfPow (a : Byte) : Nat → Byte
  | 0 => 1
  | n + 1 => gfMul a (gfPow a n)

/-- Inverse of a nonzero element. -/
def gfInv (a : Byte) : Byte := gfPow a 254

/-- The Lagrange coefficient at 0 of point x among the points given. -/
def gfLagrange (x : Byte) (xs : List Byte) : Byte :=
  (xs.filter (· != x)).foldl (fun acc y => gfMul acc (gfMul y (gfInv (x ^^^ y)))) 1

/-- The weight key rebuilt from shares, byte by byte, at x = 0 (R330). -/
def rebuildKey (shares : List (Nat × BitVec 256)) : BitVec 256 :=
  let xs := shares.map fun p => BitVec.ofNat 8 (p.1 + 1)
  let byte (i : Nat) : Byte := shares.foldl (fun acc p =>
    acc ^^^ gfMul (p.2.extractLsb' (8 * i) 8) (gfLagrange (BitVec.ofNat 8 (p.1 + 1)) xs)) 0
  BitVec.ofNat 256 (leVal ((List.range 32).map byte))

/-! Policy. -/

/-- Parties of a policy. -/
def policyParties (b : List Byte) : Nat := leAt b 6 1

/-- Shares that a policy needs. -/
def policyThreshold (b : List Byte) : Nat := leAt b 7 1

/-- Key of a party. -/
def policyKey (b : List Byte) (i : Nat) : List Byte := slice b (0x10 + 104 * i) 104

/-! Releases (R330, R331). -/

/-- The slots that the broker may release now, with their keys (R330). -/
def releasable (l : Island) : List (Nat × BitVec 256) :=
  let n := policyParties l.policy
  let t := policyThreshold l.policy
  let req := policyRequired l.policy
  if l.policy = [] ∨ (l.st ≠ .opn ∧ l.st ≠ .keyed) then []
  else if (List.range 16).any fun p => req.testBit p && !l.broker.accepted.getLsbD p then []
  else
    let weight := if t = 0 ∨ l.broker.shares.length < t then [] else [(0, l.broker.weight.getD (rebuildKey (l.broker.shares.take t)))]
    weight ++ (List.range n).filterMap fun i =>
      match l.broker.dataKeys.get i with
      | none => none
      | some k => if l.broker.accepted.getLsbD i then some (1 + i, k) else none

/-- A KEY_DELIVER of a slot to an agent is still open. -/
def keyOpen (s : State) (id slot : Nat) : Bool :=
  s.fab.reqs.vals.any fun q => q.agent == id && !q.ctl && q.kind == 0x0040 && q.arg.toNat == slot

/-- KEY_DELIVER of a key to a member, where it may have it (R330, R331). -/
def deliverKey (s : State) (h : Nat) (l : Island) (a : FAddr) (id slot : Nat) (key : BitVec 256) : State :=
  let r := s.roster id
  let debugOk := granted s l 0 a
  if r.slots.getLsbD slot || r.refusedEpoch == l.epoch || keyOpen s id slot || (r.dbgWord.toNat % 256 != 0 && !debugOk) then s
  else
    let head := leBytes 8 id ++ leBytes 4 l.epoch ++ leBytes 2 l.pkey ++ leBytes 1 slot ++ leBytes 1 (if debugOk then 1 else 0) ++
      hashBytes (Config.sha384 (hashBytes r.fwMeas ++ hashBytes r.hcMeas))
    let body := head ++ slice (Config.wrapKey id s.nonce head key) 0 152
    sendReq { s with nonce := s.nonce + 1 } { agent := id, kind := 0x0040, arg := BitVec.ofNat 64 slot, body := body, island := h }

/-- Every slot that may be released goes to every member that lacks it, and the weight key stays in D19; the island is then KEYED; none with debug unlocked (R330, R476, Table 10.1). -/
def tryRelease (s : State) (h : Nat) : State :=
  match s.isles.islands.get h with
  | none => s
  | some l =>
    let ks := releasable l
    if ks = [] ∨ s.pins.debugUnlocked then s
    else
      let s := (withIds s l.members).foldl (fun t m => ks.foldl (fun u k => deliverKey u h l m.1 m.2 k.1 k.2) t) s
      let bits := ks.foldl (fun (w : BitVec 32) k => w ||| BitVec.ofNat 32 (2 ^ k.1)) l.broker.released
      let weight := match ks.find? fun k => k.1 == 0 with
        | none => l.broker.weight
        | some k => some k.2
      setIsl (s.onIsland h fun x => { x with broker := { x.broker with released := bits, weight := weight } }) h .keyed

/-! KEY_SHARE (R329). -/

/-- The kinds of KEY_SHARE. -/
def shareKind (args : List Byte) : Nat := leAt args 2 1

/-- The secret of a KEY_SHARE, where it opens: none once the key pair has been discarded (R329, R334). -/
def shareSecret (l : Island) (args env : List Byte) : Option (BitVec 256) :=
  let info := [0x4B, 0x53, 0x48, 0x52] ++ slice args 0 2 ++ slice args 3 1 ++ slice args 2 1
  if l.broker.keyGen = 0 then none else Config.shareOpen l.broker.keyGen (slice env 0x060 1672) info (args ++ slice env 0 96) (slice env 0x6E8 48)

/-- The checks of an entry that a party signs, in order: licence, debug unlock, party, policy and signature (R329, R339, R476). -/
def partyRefusal (s : State) (g : Ring) (args env : List Byte) (party sigAt : Nat) : Option Nat :=
  let h := leAt args 0 2
  if !s.lic.valid.getLsbD 1 then some stUnsupported
  else if s.pins.debugUnlocked then some stDenied
  else if !s.isParty g.owner h then some stDenied
  else match s.isles.islands.get h with
    | none => some stInvalid
    | some l =>
      if l.policy = [] ∨ !(l.st.aborts || l.st == .aborted) then some stInvalid
      else if slice env 0 48 ≠ hashBytes (Config.sha384 l.policy) then some stInvalid
      else if policyParties l.policy ≤ party then some stInvalid
      else if !Config.ecdsaVerify (policyKey l.policy party) (Config.sha384 (args ++ env.take sigAt)) (slice env sigAt 96) then some stInvalid
      else none

/-- The checks of a KEY_SHARE, in order (R329). -/
def shareRefusal (s : State) (g : Ring) (args env : List Byte) : Option Nat :=
  match partyRefusal s g args env (leAt args 3 1) 0x718 with
  | some st => some st
  | none =>
    match s.isles.islands.get (leAt args 0 2) with
    | none => some stInvalid
    | some l =>
      let kind := shareKind args
      let flagsOk := if kind = 4 then leAt args 4 4 < 8 else leAt args 4 4 = 0
      let epochOk := kind = 3 ∨ (leAt args 8 4 = 0 ∧ zeroAt env 48 48)
      if kind = 0 ∨ 4 < kind ∨ env.length ≠ 1912 ∨ !zeroAt args 0x0C 28 ∨ ¬ flagsOk ∨ ¬ epochOk then some stInvalid
      else if (shareSecret l args env).isNone then some stInvalid
      else if kind = 3 ∧ (slice env 48 48 ≠ hashBytes l.meas ∨ leAt args 8 4 ≠ l.epoch) then some stInvalid
      else none

/-- The entry is one of the kind; one that names no kind of Table 10.8 is answered by each of the commands (log 193). -/
def kindFits (args : List Byte) (kind : Nat) : Bool := shareKind args == kind || shareKind args == 0 || decide (4 < shareKind args)

/-- Serves a KEY_SHARE of one kind: the broker takes it, then releases what it now may (R329, R330). -/
def keyShare (ring : Nat) (index : BitVec 32) (buf : List Byte) (kind : Nat) (s₀ : State)
    (k : Nat → Island → Nat → BitVec 256 → List Byte → State → State) : State :=
  serve ring index 0x40 buf s₀ fun g f args env s =>
    if !kindFits args kind then s₀
    else if s.domSt 19 = .fenced then finish s ring f stFenced
    else match shareRefusal s g args env with
      | some st => finish (wake s 19) ring f st
      | none =>
        let h := leAt args 0 2
        match s.isles.islands.get h with
        | none => s
        | some l => finish (k h l (leAt args 3 1) ((shareSecret l args env).getD 0) args (wake s 19)) ring f stOk

/-- DATA_KEY: a party's data key enters the broker. -/
def execDataKey (ring : Nat) (index : BitVec 32) (buf : List Byte) (s : State) : Ans :=
  .next (keyShare ring index buf 1 s fun h _ party secret _ s =>
    tryRelease (s.onIsland h fun l => { l with broker := { l.broker with dataKeys := l.broker.dataKeys.set party secret } }) h)

/-- WEIGHT_SHARE: a party's share of the weight key enters the broker. -/
def execWeightShare (ring : Nat) (index : BitVec 32) (buf : List Byte) (s : State) : Ans :=
  .next (keyShare ring index buf 2 s fun h _ party secret _ s =>
    tryRelease (s.onIsland h fun l => { l with broker := { l.broker with shares := l.broker.shares.set party secret } }) h)

/-- ACCEPT: a party has accepted the current measurement. -/
def execAccept (ring : Nat) (index : BitVec 32) (buf : List Byte) (s : State) : Ans :=
  .next (keyShare ring index buf 3 s fun h _ party _ _ s =>
    tryRelease (s.onIsland h fun l => { l with broker := { l.broker with accepted := l.broker.accepted ||| BitVec.ofNat 16 (2 ^ party) } }) h)

/-- Erases a slot from every member that holds it or is being sent it (R333). -/
def eraseEverywhere (s : State) (h : Nat) (l : Island) (slot : Nat) : State :=
  (withIds s l.members).foldl (fun t m =>
    if (t.roster m.2).slots.getLsbD slot || keyOpen t m.2 slot then keyErase t m.2 slot l.epoch l.pkey h else t) s

/-- A withdrawal of a share leaves fewer than the threshold (R330, R333). -/
def sharesFewer (l : Island) (party : Nat) : Bool := decide ((l.broker.shares.del party).length < policyThreshold l.policy)

/-- The slots that a withdrawal erases (R333). -/
def withdrawSlots (l : Island) (party flags : Nat) : List Nat :=
  let fewer := sharesFewer l party
  if flags.testBit 2 ∧ (policyRequired l.policy).testBit party then List.range 17
  else (if flags.testBit 0 then [1 + party] else []) ++ (if flags.testBit 1 && fewer then [0] else [])

/-- A withdrawal at the broker and at the members; without a released slot the island is OPEN (R333). -/
def withdraw (s : State) (h : Nat) (l : Island) (party flags : Nat) : State :=
  let slots := withdrawSlots l party flags
  let s := slots.foldl (fun t slot => eraseEverywhere t h l slot) s
  let b := l.broker
  let b := { b with
    dataKeys := if flags.testBit 0 then b.dataKeys.del party else b.dataKeys
    shares := if flags.testBit 1 then b.shares.del party else b.shares
    weight := if flags.testBit 1 && sharesFewer l party then none else b.weight
    accepted := if flags.testBit 2 then b.accepted &&& ~~~(BitVec.ofNat 16 (2 ^ party)) else b.accepted
    released := slots.foldl (fun (w : BitVec 32) slot => w &&& ~~~(BitVec.ofNat 32 (2 ^ slot))) b.released }
  let s := s.onIsland h fun x => { x with broker := b }
  if l.st = .keyed ∧ b.released = 0 then setIsl s h .opn else s

/-- WITHDRAW: takes effect at once at the broker and at every member (R333). -/
def execWithdraw (ring : Nat) (index : BitVec 32) (buf : List Byte) (s : State) : Ans :=
  .next (keyShare ring index buf 4 s fun h l party _ args s => withdraw s h l party (leAt args 4 4))

/-! Consent (R339, R340). -/

/-- The token that CONSENT carries (Table 10.12). -/
def tokenOf (args : List Byte) : Token :=
  { party := leAt args 2 1, scope := BitVec.ofNat 3 (leAt args 3 1), portals := BitVec.ofNat 8 (leAt args 4 1)
    fromEpoch := leAt args 8 4, toEpoch := leAt args 0x0C 4, notAfter := leAt args 0x10 8, member := BitVec.ofNat 28 (leAt args 0x18 4) }

/-- CONSENT: a party's token waits for the island's next boundary and replaces its earlier one (R339, R340). -/
def execConsent (ring : Nat) (index : BitVec 32) (buf : List Byte) (s : State) : Ans :=
  .next (serveJ ring index 0x41 buf s fun g f args env s =>
    if s.domSt 19 = .fenced then finish s ring f stFenced
    else match partyRefusal s g args env (leAt args 2 1) 48 with
      | some st => finish (wake s 19) ring f st
      | none =>
        if env.length ≠ 144 ∨ 8 ≤ leAt args 3 1 ∨ !zeroAt args 5 3 ∨ 2 ^ 28 ≤ leAt args 0x18 4 ∨ !zeroAt args 0x1C 12 then finish s ring f stInvalid
        else
          let h := leAt args 0 2
          let s := s.onIsland h fun l => { l with tokens := takeTokens l.tokens [tokenOf args] }
          finish (journal (wake s 19) jModel [at_ 0x21 0 ||| at_ h 16]) ring f stOk)

/-- CONSENT_LAPSE: NOT_AFTER of a token in force has passed; it stops granting, and slots delivered with DEBUG_OK are erased (R340). -/
def execConsentLapse (island party : Nat) (s : State) : Ans :=
  .next (match s.isles.islands.get island with
    | none => s
    | some l =>
      if !(l.consent.any fun t => t.party == party && !t.lapsed && decide (t.notAfter < s.now)) then s
      else
        let s := s.onIsland island fun x => { x with
          consent := x.consent.map fun t => if t.party = party ∧ t.notAfter < s.now then { t with lapsed := true } else t }
        (withIds s l.members).foldl (fun t m =>
          eraseDebug t island l m.2) s)

end Sys2Proof.Machine
end

