-- ==== Sys2Proof/Machine/Integ.lean ====
section
/-! DEFINITION. The integrity unit: adjudication, classification, targeted tests, suspect units and stepping, its instructions and its registers (R389 to R407, R432). -/

namespace Sys2Proof.Machine

/-! Records and history (R406, R432). -/

/-- A record about a member: UNIT 0x001, or the host chip unit concerned. -/
def memberFault (s : State) (a : FAddr) (h : Nat) (unit : BitVec 12) (kind : Nat) (cls : Cls)
    (d0 : Word := Config.openDetail kind 0 s.nonce []) (d1 : Word := Config.openDetail kind 1 s.nonce []) (own : Nat := 0) : State :=
  s.post { s.mkRec 0 0 kind cls d0 d1 own with source := a, unit := if unit = 0xFFF then 0x001 else unit, island := h }

/-- Appends to an agent's history, which keeps its latest 1,024 records (R432). -/
def addHist (s : State) (id : Nat) (r : Hist) : State :=
  s.onInteg fun g => { g with history := g.history.set id ((r :: g.history.getD id []).take 1024) }

/-- A DIVERGENT verdict counting itself is PERMANENT by the history (R396). -/
def permanentBy (s : State) (id : Nat) (limits : Word) (unit : BitVec 12) : Bool :=
  let days := clamp 1 255 (fld limits 23 16)
  let old := (s.integ.history.getD id []).filter fun r =>
    r.unit == unit && (r.verdict == 1 || r.verdict == 2 || r.verdict == 7) && decide (s.now ≤ r.time + days * 86400000000000)
  decide (clamp 1 255 (fld limits 31 24) ≤ old.length + 1)

/-! Suspect units and stepping (R248, R401). -/

/-- The state of a unit of an agent. -/
def suspectOf (s : State) (id : Nat) (unit : BitVec 12) : SusUnit :=
  (s.integ.units.find? fun u => u.agent == id && u.unit == unit).getD { agent := id, unit := unit }

/-- Replaces or adds the state of a unit. -/
def putSuspect (s : State) (u : SusUnit) : State :=
  s.onInteg fun g =>
    if g.units.any fun x => x.agent == u.agent && x.unit == u.unit then
      { g with units := g.units.map fun x => if x.agent = u.agent ∧ x.unit = u.unit then u else x }
    else { g with units := g.units ++ [u] }

/-- The steps of an agent are journalled and written to it (R401). -/
def applySteps (s : State) (id : Nat) (u : SusUnit) : State :=
  let s := journal s jStep [BitVec.ofNat 64 id, stepWord u]
  sendRegs s id (stepItems s id)

/-- A suspect unit takes its next step, or is condemned (Table 12.7). -/
def nextStep (s : State) (h : Nat) (limits : Word) (u : SusUnit) : State :=
  let a := (s.roster u.agent).addr
  let v : Int := (fld limits 15 8 : Nat)
  let f : Int := (fld limits 7 0 : Nat)
  match u.st with
  | .suspect =>
    let u := { u with st := .stepped, vstep := u.vstep + v, testing := false }
    memberFault (applySteps (putSuspect s u) u.agent u) a h u.unit 0x209 .degraded
  | .stepped =>
    let u := { u with st := .stepped2, vstep := u.vstep + v, fstep := u.fstep - f, testing := false }
    memberFault (applySteps (putSuspect s u) u.agent u) a h u.unit 0x209 .degraded
  | .stepped2 =>
    let s := putSuspect s { u with st := .condemned, testing := false }
    let s := addHist s u.agent { unit := u.unit, verdict := 5, island := h, time := s.now }
    memberFault (s.onRoster u.agent fun r => { r with excluded := true }) a h u.unit 0x20A .uncorrected
  | .healthy => s
  | .condemned => s

/-! Targeted tests (R397 to R399). -/

/-- The pattern set of a class whose TRIGGER covers a cause, with the highest SET_ID; 0 for none (R397). -/
def pickSet (s : State) (id cause : Nat) : Nat :=
  (s.integ.library.filter fun p => p.hcClass == (s.roster id).hcClass && p.trigger.getLsbD cause).foldl (fun m p => Nat.max m p.id) 0

/-- Sends TEST_REQ (Table 12.4). -/
def sendTest (s : State) (id set : Nat) (unit : BitVec 12) (context ticket : Nat) : State :=
  let s := s.onInteg fun g => { g with tests := g.tests ++ [(id, set, unit.toNat, context, ticket)] }
  toAgent s id 4 0xE2 0 (BitVec.ofNat 32 (set + unit.toNat * 65536))

/-- A test of the unit is queued or runs. -/
def testOpen (s : State) (id : Nat) (unit : BitVec 12) : Bool :=
  (s.integ.tests.any fun t => t.1 == id && t.2.2.1 == unit.toNat && t.2.2.2.1 == 0) ||
    s.integ.waiting.any fun t => t.1 == id && t.2.1 == unit.toNat

/-- A targeted test of a member: at once with TEST_IN_JOB, else at the island's next boundary; true when one is queued or runs (R397). -/
def launchTest (s : State) (h id : Nat) (unit : BitVec 12) (cause : Nat) : Bool × State :=
  let set := pickSet s id cause
  match s.isles.islands.get h with
  | none => (false, s)
  | some l =>
    if testOpen s id unit then (true, s)
    else if set = 0 then (false, s)
    else if l.iu.cfg.getLsbD 61 then (true, sendTest s id set unit 0 0)
    else (true, s.onInteg fun g => { g with waiting := g.waiting ++ [(id, unit.toNat, set)] })

/-- A trigger of R397: no test where the unit is SUSPECT already (Table 12.11). -/
def trigger (s : State) (h id : Nat) (unit : BitVec 12) (cause : Nat) : State :=
  if (suspectOf s id unit).st = .suspect then s else (launchTest s h id unit cause).2

/-- A PERMANENT verdict, an UNRESOLVED one, or a failed test enters the suspect machine; a verdict has a test run, unless the unit is SUSPECT already (R397, Tables 12.7, 12.11). -/
def accuse (s : State) (h : Nat) (limits : Word) (id : Nat) (unit : BitVec 12) (permanent : Bool) : State :=
  let u := suspectOf s id unit
  match u.st with
  | .healthy =>
    let (running, s) := launchTest s h id unit 0
    let u := { u with st := .suspect, permanent := permanent, testing := running }
    if permanent && !running then nextStep (putSuspect s u) h limits u else putSuspect s u
  | .suspect =>
    let u := { u with permanent := u.permanent || permanent }
    if u.permanent && !u.testing then nextStep s h limits u else putSuspect s u
  | .stepped | .stepped2 =>
    let s := (launchTest s h id unit 0).2
    if permanent then nextStep s h limits u else s
  | .condemned => (launchTest s h id unit 0).2

/-- The end of a unit's test in the suspect machine (Table 12.7). -/
def testVerdict (s : State) (h : Nat) (limits : Word) (id : Nat) (unit : BitVec 12) (code : Nat) : State :=
  let u := { suspectOf s id unit with testing := false }
  match u.st with
  | .healthy =>
    if code = 1 then
      let s := accuse s h limits id unit false
      putSuspect s { suspectOf s id unit with failed := true }
    else s
  | .suspect =>
    if code = 1 ∨ code = 2 ∨ u.permanent then nextStep s h limits u
    else if code = 0 ∧ !u.failed then putSuspect s { u with st := .healthy }
    else putSuspect s u
  | .stepped => if code = 1 then nextStep s h limits u else s
  | .stepped2 => if code = 1 then nextStep s h limits u else s
  | .condemned => s

/-- The integrity limits that hold for an agent: those of its island, or the reset values. -/
def limitsFor (s : State) (h : Nat) : Word := ((s.isles.islands.get h).map fun l => l.iu.limits).getD 0x006403E8021E0202

/-- TEST_RESULT: a ticket of ITEST completes, the verdict is recorded and enters the suspect machine, and a boundary that waits goes on (R397, R398). -/
def execTestResult (agent context : Nat) (arg : BitVec 32) (s : State) : Ans :=
  .next (
    let s := heard s agent
    match s.integ.tests.find? fun t => t.1 == agent && t.2.2.2.1 == context with
    | none => s
    | some (_, set, unit, c, tk) =>
      let code := bits arg.toNat 7 0
      let u := BitVec.ofNat 12 unit
      let a := (s.roster agent).addr
      let h := islandOf s a
      let s := s.onInteg fun g => { g with tests := g.tests.erase (agent, set, unit, c, tk) }
      let s := if c = 0 then s else finishTicket s c tk (if code = 0 then stOk else if code = 1 ∨ code = 2 then stInvalid else stBusy)
      let hist (s : State) (v : Nat) : State := addHist s agent { unit := u, verdict := v, pattern := BitVec.ofNat 16 set, island := h, time := s.now }
      let s := if code = 0 then hist s 6 else if code = 1 then memberFault (hist s 7) a h u 0x207 .degraded (own := set)
        else if code = 2 then memberFault s a h u 0x208 .degraded (own := set) else s
      let s := if code ≤ 4 then testVerdict s h (limitsFor s h) agent u code else s
      if c = 0 then waitDone s (4 * agent + 1) else s)

/-- TEST_BOUNDARY_LIMIT: a test that has not ended 2 s into a boundary is stopped and queued for the following one (R397). -/
def execTestBoundaryLimit (agent : Nat) (s : State) : Ans :=
  .next (
    let code := 4 * agent + 1
    if !(s.isles.installs.vals.any fun x => x.waits.contains code) then s
    else
      let mine := s.integ.tests.filter fun t => t.1 == agent && t.2.2.2.1 == 0
      let s := s.onInteg fun g => { g with
        tests := g.tests.filter fun t => !(t.1 == agent && t.2.2.2.1 == 0), waiting := g.waiting ++ mine.map fun t => (t.1, t.2.2.1, t.2.1) }
      waitDone s code)

/-! Adjudication (R393 to R396). -/

/-- What an adjudication answers. -/
inductive Verdict where
  | agree | divergent | noVerdict | tie | unresolved
  deriving DecidableEq, Repr

/-- REPEAT_EP of a configuration, none for 0x0FF_FFFF. -/
def repeatEp (c : IuCfg) : Option FAddr :=
  let a : FAddr := BitVec.ofNat 28 (fld c.cfg 47 20)
  if a = noAddr then none else some a

/-- Two members differ only in the masked coordinates (R393). -/
def sameGroup (mask : Nat) (a b : FAddr) : Bool := (List.range 4).all fun k => mask.testBit k || coordOf a k == coordOf b k

/-- The replica group of a member, ascending, REPEAT_EP left out (R393). -/
def groupOf (l : Island) (a : FAddr) : List FAddr :=
  l.members.filter fun m => repeatEp l.iu != some m && sameGroup (fld l.iu.cfg 59 56) a m

/-- Sends REPEAT to an endpoint's host chip (Table 12.4). -/
def sendRepeat (s : State) (a : FAddr) (desc step : Nat) : State :=
  s.sendCtrl a 4 0xD2 (0xF00000 + desc) (BitVec.ofNat 32 (step % 2 ^ 32))

/-- A classified DIVERGENT member: history, record, test and suspect machine (R396, R397, R401). -/
def classified (s : State) (h step : Nat) (a : FAddr) (majority own : Word) (permanent : Bool) : State :=
  match s.agentAt a with
  | none => s
  | some id =>
    let s := addHist s id { unit := 0xFFF, verdict := if permanent then 2 else 1, island := h, time := s.now, step := step }
    let s := memberFault s a h 0xFFF 0x203 (if permanent then .degraded else .corrected) majority own
    if permanent then accuse s h (limitsFor s h) id 0xFFF true else trigger s h id 0xFFF 0

/-- A DIVERGENT member is classified by MODE (R396). -/
def diverge (s : State) (k : DKey) (l : Island) (a : FAddr) (majority own : Word) : State :=
  match l.iu.cfg.getLsbD 60, repeatEp l.iu with
  | true, some ep =>
    let s := s.onInteg fun g => { g with repeats := g.repeats ++
      [{ island := k.island, epoch := k.epoch, step := k.step, desc := k.desc, member := a, majority := majority, digest := own }] }
    sendRepeat (sendRepeat s a k.desc k.step) ep k.desc k.step
  | _, _ => classified s k.island k.step a majority own (((s.agentAt a).map fun id => permanentBy s id l.iu.limits 0xFFF).getD false)

/-- Two keys are the same one. -/
def DKey.same (x k : DKey) : Bool :=
  x.island == k.island && x.epoch == k.epoch && x.step == k.step && x.desc == k.desc && x.group == k.group

/-- Puts a key in the place of the one it names. -/
def setKey (s : State) (k : DKey) : State :=
  s.onInteg fun g => { g with keys := g.keys.filter (fun x => !x.same k) ++ [k] }

/-- A key has its verdict: its reports are let go, and what is reported of it later is discarded (log 91). -/
def dropKey (s : State) (k : DKey) : State := setKey s { k with reports := [], tie := false, done := true }

/-- An UNRESOLVED key: every member of the group is suspect, and with ABORT the island is aborted with reason 2 (R394). -/
def unresolved (s : State) (k : DKey) (l : Island) : State :=
  let g := groupOf l k.group
  let s := memberFault s k.group k.island 0xFFF 0x205 .degraded (own := k.step)
  let s := (withIds s g).foldl (fun t m =>
    let t := addHist t m.2 { unit := 0xFFF, verdict := 4, island := k.island, time := t.now, step := k.step }
    accuse t k.island l.iu.limits m.2 0xFFF false) s
  if l.iu.cfg.getLsbD 62 && l.st.aborts then abortIsland s k.island 2 none else s

/-- A value that more than half of the group's size hold among the votes. -/
def majorityOf (r : Nat) (votes : List DReport) : Option Word :=
  (votes.find? fun v => decide (r < 2 * (votes.filter fun w => w.digest == v.digest).length)).map (·.digest)

/-- The votes hold exactly two values, half of the group each. -/
def twoHalves (r : Nat) (votes : List DReport) : Bool :=
  match votes with
  | [] => false
  | v :: _ =>
    let same := votes.filter fun w => w.digest == v.digest
    let rest := votes.filter fun w => w.digest != v.digest
    2 * same.length == r && 2 * rest.length == r && rest.all fun w => some w.digest == (rest.head?.map (·.digest))

/-- Adjudicates a key with the reports held (R393). -/
def adjudicate (s : State) (k : DKey) : Verdict × State :=
  match s.isles.islands.get k.island with
  | none => (.noVerdict, dropKey s k)
  | some l =>
    let g := groupOf l k.group
    let r := g.length
    let votes := k.reports.filter fun x => !x.poisoned
    let silent := g.filter fun a => !(k.reports.any fun x => x.src == a)
    let miss (s : State) : State := silent.foldl (fun t a => memberFault t a k.island 0xFFF 0x206 .note) s
    match majorityOf r votes with
    | some v =>
      let bad := votes.filter fun x => x.digest != v
      let s := bad.foldl (fun t x => diverge t k l x.src v x.digest) (dropKey s k)
      (if bad = [] then .agree else .divergent, miss s)
    | none =>
      if votes.length < r then (.noVerdict, miss (dropKey s k))
      else match twoHalves r votes, repeatEp l.iu with
        | true, some ep =>
          let s := setKey s { k with tie := true }
          let s := memberFault s k.group k.island 0xFFF 0x204 .corrected (Config.openDetail 0x204 0 0 [k.group.toNat]) (Config.openDetail 0x204 1 0 [k.group.toNat])
          (.tie, miss (sendRepeat s ep k.desc k.step))
        | _, _ => (.unresolved, miss (unresolved (dropKey s k) k l))

/-- A tie's repeat digest has arrived: the holders of the other value are DIVERGENT, or the key is UNRESOLVED (R394). -/
def settleTie (s : State) (k : DKey) (l : Island) (digest : Word) : State :=
  let votes := k.reports.filter fun x => !x.poisoned
  let s := dropKey s k
  if votes.any fun x => x.digest == digest then
    (votes.filter fun x => x.digest != digest).foldl (fun t x => diverge t k l x.src digest x.digest) s
  else unresolved s k l

/-- A repeat of MODE REPEAT is settled: TRANSIENT where both digests agree (R396). -/
def settleRepeat (s : State) (q : Repeat) (permanent : Bool) : State :=
  let s := s.onInteg fun g => { g with repeats := g.repeats.erase q }
  classified s q.island q.step q.member q.majority q.digest permanent

/-- The repeat report of a member for a step of 23 bits (R391, R394, R396). -/
def takeRepeat (s : State) (a : FAddr) (h : Nat) (l : Island) (epoch desc step : Nat) (digest : Word) : State :=
  let isEp := repeatEp l.iu == some a
  let mineOf (x : Nat) : Bool := x % 2 ^ 23 == step % 2 ^ 23
  let ties := s.integ.keys.filter fun k => isEp && k.tie && k.island == h && k.epoch == epoch && k.desc == desc && mineOf k.step
  let s := ties.foldl (fun t k => settleTie t k l digest) s
  let hits := s.integ.repeats.filter fun q =>
    q.island == h && q.epoch == epoch && q.desc == desc && mineOf q.step && (isEp || q.member == a)
  hits.foldl (fun t q =>
    let n := { q with mine := if q.member = a then some digest else q.mine, other := if isEp then some digest else q.other }
    let t := t.onInteg fun g => { g with repeats := g.repeats.map fun x => if x = q then n else x }
    match n.mine, n.other with
    | some x, some y => settleRepeat t n (x != y)
    | _, _ => t) s

/-- A report of a step enters its key, which is adjudicated at the r-th report; REPEAT_EP is in no group (R393). -/
def takeReport (s : State) (a : FAddr) (h : Nat) (l : Island) (epoch desc step : Nat) (x : DReport) : State :=
  let g := if repeatEp l.iu = some a then [] else groupOf l a
  match g with
  | [] => s
  | low :: _ =>
    let isKey (k : DKey) : Bool := k.island == h && k.epoch == epoch && k.step == step && k.desc == desc && k.group == low
    let old := (s.integ.keys.find? isKey).getD { island := h, epoch := epoch, step := step, desc := desc, group := low }
    if old.done ∨ old.tie ∨ old.reports.any (fun q => q.src == a) then s
    else
      let k := { old with reports := old.reports ++ [x] }
      let s := setKey s k
      if g.length ≤ k.reports.length then (adjudicate s k).2 else s

/-- The integrity unit reads a DIGEST_REPORT body (Table 12.5); reports of another epoch, or while ENABLE is clear, are discarded. -/
def readReport (s : State) (id : Nat) (body : List Byte) : State :=
  let a := (s.roster id).addr
  let h := islandOf s a
  match s.isles.islands.get h with
  | none => s
  | some l =>
    let flags := leAt body 5 1
    let desc := leAt body 4 1 % 8
    let step := leAt body 8 8 % 2 ^ 40
    let viol := leAt body 0x1C 4
    if leAt body 0 4 ≠ l.epoch ∨ !l.iu.cfg.getLsbD 63 then s
    else if flags.testBit 0 then takeRepeat s a h l l.epoch desc step (wordAt body 0x10)
    else
      let s := takeReport s a h l l.epoch desc step
        { src := a, poisoned := flags.testBit 1, digest := wordAt body 0x10, violations := viol }
      if 0 < viol ∧ fld l.iu.plaus 39 32 ≤ viol then trigger s h id 0xFFF 2 else s

/-- DIGEST_REPORT: answered with MG_ACK; held until D20 is ON (R392, R393). -/
def execDigestReport (agent : Nat) (tag : BitVec 32) (body : List Byte) (s : State) : Ans :=
  .next (
    let s := heard s agent
    let ack (s : State) (st : Nat) : State := toAgent s agent 0x20 st 0 tag
    if !s.hasIu then ack s stUnsupported
    else if body.length ≠ 104 then ack s stInvalid
    else if s.domSt 20 = .fenced then ack s stFenced
    else if s.running 20 then readReport (ack s stOk) agent body
    else
      let s := wake (ack s stOk) 20
      s.onInteg fun g => { g with held := g.held ++ [(agent, tag, body)] })

/-- The reports that the I/O domain holds are delivered, D20 being ON (R392). -/
def deliverHeld (s : State) : State :=
  let held := s.integ.held
  held.foldl (fun t q => readReport t q.1 q.2.2) (s.onInteg fun g => { g with held := [] })

/-- The key that a command names, while it has no verdict. -/
def findKey (s : State) (island epoch step desc : Nat) (group : FAddr) : Option DKey :=
  s.integ.keys.find? fun k => k.same { island := island, epoch := epoch, step := step, desc := desc, group := group } && !k.done

/-- ADJ_TIMEOUT: the time of a key is up; it is adjudicated with the reports held (R393). -/
def execAdjTimeout (island epoch step desc : Nat) (group : FAddr) (s : State) : Ans :=
  .next (match findKey s island epoch step desc group with
    | none => s
    | some k => if k.tie then s else (adjudicate s k).2)

/-- REPEAT_TIMEOUT: a tie is UNRESOLVED, and a repeat of MODE REPEAT is PERMANENT (R394, R396). -/
def execRepeatTimeout (island epoch step desc : Nat) (group : FAddr) (s : State) : Ans :=
  .next (
    let s := match findKey s island epoch step desc group, s.isles.islands.get island with
      | some k, some l => if k.tie then unresolved (dropKey s k) k l else s
      | _, _ => s
    let late := s.integ.repeats.filter fun q =>
      q.island == island && q.epoch == epoch && q.step == step && q.desc == desc && q.member == group
    late.foldl (fun t q => settleRepeat t q true) s)

/-! Instructions (Table 5.15). -/

/-- The integrity unit takes a digest that a controller context reports: no replica group has a context, so it is held and not adjudicated (R179, R393; log 97). -/
def ctxReport (s : State) (n desc step : Nat) (digest : Word) : State :=
  s.onInteg fun g => { g with ctxReports := (n, desc, step, digest) :: g.ctxReports }

/-- IREPORT: sends a digest for a step to the integrity unit; g[d] := status (R392). -/
def execIreport (who : Who) (i : Ins) (s : State) : Ans :=
  .next (runIns who i { op := 0xC2 } none s fun s c =>
    let b := c.opB i
    let cost := who.cost 10 8
    let done (s : State) (st : Nat) : State := finG s who i cost st
    match who with
    | .ctx n =>
      if !s.hasIu then done s stUnsupported
      else if fld b 63 43 ≠ 0 then done s stInvalid
      else if s.domSt 20 = .fenced then done s stFenced
      else done (ctxReport (wake s 20) n (fld b 42 40) (fld b 39 0) (c.opA i)) stOk
    | .agent id =>
      match s.agents.get id with
      | none => s
      | some a =>
        if fld b 63 43 ≠ 0 then done s stInvalid
        else
          let step := fld b 39 0
          match a.integ.queue with
          | d :: rest =>
            if d.step = step ∧ !d.rep then
              let s := done s stOk
              let s := s.onAgent id fun x => { x with integ := { x.integ with queue := { d with fig := { poisoned := d.fig.poisoned } } :: rest } }
              sendDigest s id (reportBytes a (fld b 42 40) false d.fig.poisoned step (c.opA i) d.fig)
            else sendDigest (done s stOk) id (reportBytes a (fld b 42 40) false false step (c.opA i) {})
          | [] => sendDigest (done s stOk) id (reportBytes a (fld b 42 40) false false step (c.opA i) {}))

/-- A ticket of the integrity unit: UNSUPPORTED without it, FENCED while D20 is, else D20 wakes (R163, R179). -/
def iuTicket (s : State) (who : Who) (i : Ins) (c : Core) (t : Ticket) (k : Nat → Nat → State → State) : State :=
  issueTicket who i s c 20 { t with dom := 20 } fun n tk s =>
    if !s.hasIu then finishTicket s n tk stUnsupported
    else if s.domSt 20 = .fenced then finishTicket s n tk stFenced
    else k n tk (wake s 20)

/-- Adjudicates a list of keys; true while every verdict is AGREE. -/
def adjudicateAll (s : State) : List DKey → Bool × State
  | [] => (true, s)
  | k :: ks =>
    let (v, s) := adjudicate s k
    let (ok, s) := adjudicateAll s ks
    (v == .agree && ok, s)

/-- IADJ: adjudicates the keys of an island's step and descriptor at once; system only (R395). -/
def execIadj (who : Who) (i : Ins) (s : State) : Ans :=
  .next (runIns who i { op := 0xC3, srcb := .unused, profile := false } none s fun s c =>
    withBlock s who i c 16 (fun bs => fld (wordAt bs 0) 63 16 == 0 && fld (wordAt bs 8) 63 43 == 0) fun bs =>
      match who with
      | .agent _ => s
      | .ctx n =>
        if !isSystem n then raiseExc s who c.pc { code := xAccess, info := encodeWord 0xC3 i }
        else iuTicket s who i c { op := 0xC3, args := [wordAt bs 0, wordAt bs 8] } fun n tk s =>
          let h := leAt bs 0 2
          let b := wordAt bs 8
          let ks := s.integ.keys.filter fun k => k.island == h && k.step == fld b 39 0 && k.desc == fld b 42 40 && !k.tie && !k.done
          if ks = [] then finishTicket s n tk stBusy
          else
            let (ok, s) := adjudicateAll s ks
            finishTicket s n tk (if ok then stOk else stInvalid))

/-- ITEST: on the controller TEST_REQ to an agent, with a ticket; on the agent the test runs and g[d] takes its result (R398). -/
def execItest (who : Who) (i : Ins) (s : State) : Ans :=
  .next (runIns who i { op := 0xC4 } none s fun s c =>
    let set := fld (c.opA i) 15 0
    let b := c.opB i
    match who with
    | .ctx _ =>
      iuTicket s who i c { op := 0xC4, args := [c.opA i, b] } fun n tk s =>
        match s.agentAt (BitVec.ofNat 28 (fld b 39 12)) with
        | none => finishTicket s n tk stBusy
        | some id =>
          if (s.roster id).life ≠ .running ∨ s.integ.tests.any (fun t => t.1 == id) then finishTicket s n tk stBusy
          else sendTest s id set (BitVec.ofNat 12 (fld b 11 0)) n tk
    | .agent id =>
      match s.agents.get id with
      | none => s
      | some a =>
        let s := s.onAgent id fun x => { x with core := { x.core with awaits := some 0 } }
        testStart s id a { set := set, unit := fld b 11 0, dst := some i.dst })

/-- IHIST: the history of an agent's unit, written at the block's output when the ticket completes (R432). -/
def execIhist (who : Who) (i : Ins) (s : State) : Ans :=
  .next (runIns who i { op := 0xC5, srcb := .unused, profile := false } none s fun s c =>
    withBlock s who i c 24 (fun bs => fld (wordAt bs 0) 63 56 == 0 && fld (wordAt bs 8) 15 12 == 0 && fld (wordAt bs 8) 63 32 == 0) fun bs =>
      iuTicket s who i c { op := 0xC5, out := (wordAt bs 16).toNat, args := [wordAt bs 0, wordAt bs 8] } fun _ _ s => s)

/-- A history record as stored (Table 13.10). -/
def histBytes (id : Nat) (r : Hist) : List Byte :=
  leBytes 8 id ++ leBytes 2 r.unit.toNat ++ [BitVec.ofNat 8 r.verdict, 0] ++ leBytes 2 r.pattern.toNat ++ leBytes 2 r.island ++
    leBytes 8 r.time ++ leBytes 8 r.step

/-- What IHIST writes: a count, then the newest records of the unit. -/
def histOutput (s : State) (w0 w1 : Word) : List Byte :=
  let id := fld w0 55 0
  let unit := fld w1 11 0
  let rs := ((s.integ.history.getD id []).filter fun r => unit == 0xFFF || r.unit.toNat == unit).take (fld w1 31 16)
  leBytes 8 rs.length ++ rs.flatMap (histBytes id)

/-! Tickets that complete later (R163, R178). -/

/-- What a ticket's operation answers: a status, bytes for its output, and the state it leaves. -/
def ticketWork (s : State) (t : Ticket) : Nat × List Byte × State :=
  let arg (k : Nat) : Word := t.args.getD k 0
  let h := fld (arg 0) 15 0
  match t.op.toNat with
  | 0xB0 => (stOk, hashBytes (Config.sha384 t.data), s)
  | 0xB1 =>
    if t.data.length ≠ 241 then (stInvalid, [], s)
    else if Config.ecdsaVerify (slice t.data 48 97) (hashAt t.data 0) (slice t.data 145 96) then (stOk, [], s) else (stInvalid, [], s)
  | 0xB3 =>
    match s.isles.islands.get h with
    | none => (stInvalid, [], s)
    | some l => (stOk, hashBytes l.meas, s)
  | 0xB4 =>
    if !s.lic.valid.getLsbD 1 then (stUnsupported, [], s)
    else match s.isles.islands.get h with
      | none => (stInvalid, [], s)
      | some l => if l.epoch ≠ fld (arg 1) 31 0 then (stInvalid, [], s) else (stOk, [], tryRelease s h)
  | 0xC5 => if fld (arg 1) 31 16 = 0 ∨ 1024 < fld (arg 1) 31 16 then (stInvalid, [], s) else (stOk, histOutput s (arg 0) (arg 1), s)
  | _ => (stOk, [], s)

/-- TICKET_COMPLETE: a long operation of the trust or integrity unit ends; its output is written and the TICKET cause set (R163). Tickets of other operations complete with what they wait for. -/
def execTicketComplete (ctx ticket : Nat) (s : State) : Ans :=
  .next (match (s.eng.ctxs.get ctx).bind fun x => x.tickets.get ticket with
    | none => s
    | some t =>
      let later := t.op == 0xB0 || t.op == 0xB1 || t.op == 0xB3 || t.op == 0xB4 || t.op == 0xC5
      if t.status.isSome ∨ !later then s
      else if s.domSt t.dom = .fenced then finishTicket s ctx ticket stFenced
      else
        let (st, bytes, s) := ticketWork s t
        finishTicket (storeRange s (.ctx ctx) (BitVec.ofNat 64 t.out) bytes) ctx ticket st)

/-! Registers (R404, Table 12.8). -/

/-- Clamps a field of IU_LIMITS. -/
def iuLimitsOf (w : Word) : Word :=
  at_ (clamp 1 60000 (fld w 63 48)) 48 ||| at_ (clamp 1 60000 (fld w 47 32)) 32 ||| at_ (clamp 1 255 (fld w 31 24)) 24 |||
    at_ (clamp 1 255 (fld w 23 16)) 16 ||| at_ (fld w 15 0) 0

/-- A configuration after a write at an offset from 0x0050_0000, none where no such register is. -/
def iuStore (c : IuCfg) (off : Nat) (w : Word) : Option IuCfg :=
  if off = 0x08 then some { c with cfg := w &&& 0xFF00FFFFFFF00000 }
  else if off = 0x10 then some { c with plaus := w }
  else if off = 0x18 then some { c with limits := iuLimitsOf w }
  else if 0x20 ≤ off ∧ off < 0xA0 ∧ off % 8 = 0 then some { c with desc := c.desc.put ((off - 0x20) / 8) w 0 }
  else none

/-- The portal may write the integrity registers of an island: the steward, or a party of it (R404). -/
def mayWriteIu (s : State) (p h : Nat) : Bool := (s.portal p).role == .steward || s.isParty p h

/-- Every unit of an agent is HEALTHY, its steps nominal (Table 12.7). -/
def clearUnits (s : State) (id : Nat) : State :=
  let mine := s.integ.units.filter fun u => u.agent == id
  let s := s.onInteg fun g => { g with units := g.units.map fun u =>
    if u.agent = id then { u with st := .healthy, permanent := false, failed := false, vstep := 0, fstep := 0 } else u }
  if mine = [] then s
  else
    let s := mine.foldl (fun t u => journal t jStep [BitVec.ofNat 64 id, at_ u.unit.toNat 0]) s
    sendRegs s id (stepItems s id)

/-- A write of IU_CLEAR with D20 ON (R401, R404). -/
def iuClear (s : State) (p : Nat) (data : Word) : State :=
  if (s.portal p).role ≠ .steward then regDenied s p 0x500100 else (clearUnits s (fld data 55 0)).emit (.writeDone p)

/-- A whole write in the IU_ window at an offset from 0x0050_0000, D20 ON: IU_SEL, IU_CFG, IU_PLAUS, IU_LIMITS, IU_DESC or IU_CLEAR; a change takes effect at the island's next boundary (R404). -/
def iuWrite (s : State) (p offset : Nat) (data : Word) : State :=
  if offset = 0 then (s.onPortal p fun q => { q with iuSel := data.truncate 16 }).emit (.writeDone p)
  else if offset = 0x100 then iuClear s p data
  else
    let h := (s.portal p).iuSel.toNat
    match iuStore {} offset data with
    | none => s.emit (.writeDone p)
    | some _ =>
      if !mayWriteIu s p h then regDenied s p (0x500000 + offset)
      else (s.onIsland h fun x => { x with iuNext := (iuStore x.iuNext offset data).getD x.iuNext }).emit (.writeDone p)

/-- IU_REGISTER_WRITE: a write of a register of the integrity unit (R5, R67, R85, R404). -/
def execIuRegisterWrite (portal offset size : Nat) (data : Word) (s : State) : Ans :=
  .next (
    let full := 0x500000 + offset
    if !s.portalOpen portal ∨ 0x100000 ≤ offset ∨ shapeOf offset size = .unsupported then s.emit (.unsupported portal)
    else if !s.hasIu then s.emit (.writeDone portal)
    else if shapeOf offset size ≠ .whole then accessSize s portal false size full
    else viaDomain s portal 20 full size (some data) fun s => iuWrite s portal offset data)

/-- IU_CLEAR: the steward returns every unit of an agent to HEALTHY (R401, R404). -/
def execIuClear (portal : Nat) (data : Word) (s : State) : Ans :=
  .next (
    if !s.portalOpen portal then s.emit (.unsupported portal)
    else viaDomain s portal 20 0x500100 8 (some data) fun s => iuClear s portal data)

end Sys2Proof.Machine
end

