-- ==== Sys2Proof/Machine/Telemetry.lean ====
section
/-! DEFINITION. TELEMETRY_READ and the CPER records that it returns (R337, R338, R405). -/

namespace Sys2Proof.Machine

/-- One of the eight signed bits of a step as a byte. -/
def stepByte (v : Int) : Byte := BitVec.ofInt 8 v

/-- ErrorSeverity of a class (R405). -/
def cperSeverity : Cls → Nat
  | .note => 3
  | .corrected => 2
  | .degraded => 0
  | .uncorrected => 0
  | .fatal => 1

/-- The 328 bytes of a CPER record with its embedded fault record as a portal sees it (Table 12.9; the places within the header and the section descriptor are those of UEFI, PRESUMED). -/
def cperBytes (s : State) (c : Cper) (fault : Rec) : List Byte :=
  [0x43, 0x50, 0x45, 0x52] ++ leBytes 2 0x0101 ++ leBytes 4 0xFFFFFFFF ++ leBytes 2 1 ++ leBytes 4 c.severity ++ leBytes 4 3 ++ leBytes 4 328 ++
    leBytes 8 (Config.utcStamp c.time) ++ (hashBytes s.power.deviceId).take 16 ++ List.replicate 16 0 ++
    [0x3A, 0x0C, 0x1E, 0x6B, 0x42, 0x9F, 0x7E, 0x4D, 0xB5, 0xA1, 0x2C, 0x8E, 0x03, 0xD4, 0x7F, 0x19] ++ List.replicate 16 0 ++
    leBytes 8 c.id ++ List.replicate 24 0 ++
    leBytes 4 0xC8 ++ leBytes 4 128 ++ leBytes 2 0x0101 ++ [0, 0] ++ leBytes 4 1 ++
    [0x61, 0x8A, 0x5D, 0x2F, 0x37, 0x0C, 0x9B, 0x4E, 0xA4, 0xD2, 0x71, 0xB6, 0xE9, 0x5C, 0x08, 0x34] ++ List.replicate 16 0 ++ leBytes 4 c.severity ++
    [0x58, 0x41, 0x4E, 0x55, 0x4E, 0x45, 0x20, 0x53, 0x44, 0x43] ++ List.replicate 10 0 ++
    fault.bytes ++ leBytes 8 c.agent ++ leBytes 1 c.hcClass ++ leBytes 1 c.verdict ++ leBytes 2 c.unit.toNat ++ leBytes 2 c.pattern ++
    [stepByte c.vstep, stepByte c.fstep] ++ leBytes 8 c.step ++ wordBytes c.majority ++ wordBytes c.digest ++ List.replicate 24 0

/-- Traffic words of Table 6.13, which a confidential island hides (R338). -/
def trafficWord (w : Nat) : Bool := decide (w ≤ 19) || w == 33 || w == 34 || (decide (37 ≤ w) && decide (w ≤ 43)) || w == 46

/-- Words of kind C (Table 6.13). -/
def countWord (w : Nat) : Bool := !(decide (17 ≤ w) && decide (w ≤ 20)) && w != 24

/-- A counter word as a portal outside the island reads it (R338). -/
def coarseWord (conf : Bool) (w : Nat) (v : Word) : Word :=
  if conf && trafficWord w then 0
  else if countWord w then BitVec.ofNat 64 (v.toNat / 4096 * 4096)
  else v

/-- A portal reads a member's telemetry exact: its party, or one that a consent of scope TELEMETRY names (R338, R339). -/
def exactFor (s : State) (p h : Nat) (a : FAddr) : Bool :=
  s.isParty p h ||
    match s.isles.islands.get h with
    | none => false
    | some l => granted s { l with consent := l.consent.filter fun t => t.portals.getLsbD p } 2 a

/-- Members whose telemetry an entry asks for, with their identities: of an island, or of the fabric (R337). -/
def askedMembers (s : State) (h : Nat) (member : FAddr) : List (FAddr × Nat) :=
  let all := match s.isles.islands.get h with
    | none => if h = 0 then ((s.fab.roster.filter fun q => addrKind q.2.addr == 0 && q.2.addr != noAddr).map fun q => q.2.addr) else []
    | some l => l.members
  withIds s (if member = noAddr then all else all.filter fun a => a == member)

/-- The sample of a member that a portal is shown. -/
def shownSample (s : State) (p : Nat) (a : FAddr) (id : Nat) : Option (Nat × List Word) :=
  let r := s.roster id
  let h := islandOf s a
  if exactFor s p h a then r.sample
  else
    let conf := ((s.isles.islands.get h).map fun l => l.confidential).getD false
    r.coarse.map fun q => (q.1, (List.range 432).map fun i => coarseWord conf (i % 48) (q.2.getD i 0))

/-- The power share that a portal is shown, with its time. -/
def shownPower (s : State) (p : Nat) (a : FAddr) (id : Nat) : Option (Nat × Nat) :=
  let r := s.roster id
  if exactFor s p (islandOf s a) a then (if r.powerAt = 0 then none else some (r.powerAt, r.power))
  else r.powerCoarse.map fun q => (q.1, q.2 / 50 * 50)

/-- What a telemetry read answers: bytes, sample time, coarsened flag. -/
structure TelRead where
  /-- Data -/
  data : List Byte := []
  /-- Fabric time of the newest sample -/
  time : Nat := 0
  /-- Coarsened -/
  coarse : Bool := false
  deriving DecidableEq, Repr

/-- KIND 0: counters. -/
def readCounters (s : State) (p : Nat) (ms : List (FAddr × Nat)) (since : Nat) : TelRead :=
  ms.foldl (fun r m =>
    match shownSample s p m.1 m.2 with
    | none => r
    | some (t, ws) =>
      if t ≤ since then r
      else { data := r.data ++ leBytes 8 m.1.toNat ++ leBytes 8 t ++ ((List.range 432).flatMap fun i => wordBytes (ws.getD i 0))
             time := Nat.max r.time t, coarse := r.coarse || !exactFor s p (islandOf s m.1) m.1 }) {}

/-- KIND 2: power shares; the layout is a free value (log 9). -/
def readPower (s : State) (p : Nat) (ms : List (FAddr × Nat)) (since : Nat) : TelRead :=
  let qs := ms.filterMap fun m => (shownPower s p m.1 m.2).bind fun q => if q.1 ≤ since then none else some (m.1, q)
  { data := Config.exportForm 2 (qs.flatMap fun q => [q.1.toNat, q.2.1, q.2.2])
    time := qs.foldl (fun n q => Nat.max n q.2.1) 0
    coarse := qs.any fun q => !exactFor s p (islandOf s q.1) q.1 }

/-- KIND 1: shape, closed dimensions, dead links, lane counts, CALIB records and regime; the layout is a free value (log 9). -/
def readExport (s : State) (l : Island) : TelRead :=
  let g := l.region
  { data := Config.exportForm 1 (l.shape ++ ((List.range 4).map fun k => if g.closed s k then 1 else 0) ++ deadLinks s g ++
      (l.members.flatMap fun a => (List.range 16).map fun k => (s.mlink a k).lanes) ++
      ((withIds s l.members).flatMap fun m => (s.roster m.2).calib.flatMap fun q => [m.1.toNat, q.1, q.2.toNat]) ++ [if regimeB s then 1 else 0])
    time := s.now }

/-- KIND 4: CPER records above a RecordID, whole, as many as the buffer holds. -/
def readCper (s : State) (p h since room : Nat) : TelRead :=
  { data := ((s.integ.cper.filter fun c => decide (since < c.id) && (h == 0 || c.fault.island == h)).filterMap fun c =>
      (copyFor s p c.fault).map fun r => cperBytes s c r).foldl (fun d b => if d.length + b.length ≤ room then d ++ b else d) []
    time := s.now }

/-- The portal may not read this kind (R337). -/
def telemetryDenied (s : State) (p h kind : Nat) : Bool :=
  let role := (s.portal p).role
  if kind = 1 then !(role == .steward || s.isParty p h)
  else if kind = 4 ∧ h = 0 then !(role == .steward || role == .auditor)
  else h != 0 && strangeParty s p h

/-- The answer to a TELEMETRY_READ whose arguments hold; none where it names no island or member. -/
def telemetry (s : State) (p room : Nat) (args : List Byte) : Option TelRead :=
  let h := leAt args 0 2
  let kind := leAt args 2 1
  let member : FAddr := BitVec.ofNat 28 (leAt args 4 4)
  let since := leAt args 8 8
  let ms := askedMembers s h member
  match kind, s.isles.islands.get h with
  | 0, isl => if (h ≠ 0 ∧ isl.isNone) ∨ (member ≠ noAddr ∧ ms = []) then none else some (readCounters s p ms since)
  | 1, some l => some (readExport s l)
  | 2, some _ => if member ≠ noAddr ∧ ms = [] then none else some (readPower s p ms since)
  | 3, some l => some { data := (if leAt args 3 1 = 0 then islandRecord s h else setImage s false l.members).drop since, time := s.now }
  | 4, isl => if h ≠ 0 ∧ isl.isNone then none else some (readCper s p h since room)
  | _, _ => none

/-- TELEMETRY_READ: counters, export, power, image bytes or CPER records, as the role and R338 allow. -/
def execTelemetryRead (ring : Nat) (index : BitVec 32) (buf : List Byte) (s : State) : Ans :=
  .next (serve ring index 0x50 buf s fun g f args _ s =>
    let p := g.owner
    let kind := leAt args 2 1
    let src := leAt args 3 1
    if telemetryDenied s p (leAt args 0 2) kind then finish s ring f stDenied
    else if 4 < kind ∨ 1 < src ∨ (src = 1 ∧ kind ≠ 3) ∨ 2 ^ 28 ≤ leAt args 4 4 ∨ !zeroAt args 16 24 then finish s ring f stInvalid
    else if kind = 4 ∧ !s.hasIu then finish s ring f stUnsupported
    else
      let room := if f.entry.flags.getLsbD 0 then 65536 else Nat.min 65536 f.entry.length.toNat
      match telemetry s p room args with
      | none => finish s ring f stInvalid
      | some r =>
        let data := r.data.take room
        finish s ring f stOk (leBytes 4 data.length ++ leBytes 8 r.time ++ [if r.coarse then 1 else 0]) data)

end Sys2Proof.Machine
end

