-- ==== Sys2Proof/Machine/Accept.lean ====
section
/-! DEFINITION. RECORD_ACCEPT: the collector takes the records of one cycle, and the controller's units react to each (R309, R349 to R357, R397, R405, R432). -/

namespace Sys2Proof.Machine

/-- CPER records that the NV store keeps. -/
abbrev cperLimit : Nat := 65536

/-- The record is exported: kinds 0x104, 0x202, 0x203 PERMANENT, 0x205 and 0x207 to 0x20A (R405). -/
def exported (r : Rec) : Bool :=
  [0x104, 0x202, 0x205, 0x207, 0x208, 0x209, 0x20A].contains r.kind.toNat || (r.kind == 0x203 && (r.cls == .uncorrected || (r.cls == .degraded && !r.raised)))

/-- Verdict of an exported record (Table 12.9). -/
def cperVerdict (r : Rec) : Nat :=
  if r.kind = 0x203 then 2 else if r.kind = 0x202 then 3 else if r.kind = 0x205 then 4 else if r.kind = 0x20A then 5 else 0

/-- The unit that a record is about: 0xFFF where an integrity record names none of the host chip (R406). -/
def cperUnit (r : Rec) : BitVec 12 := if 0x203 ≤ r.kind.toNat ∧ r.kind.toNat ≤ 0x20A ∧ r.unit = 0x001 then 0xFFF else r.unit

/-- The signature export unit appends a CPER record; the store keeps the latest 65,536 (R405). -/
def exportCper (s : State) (r : Rec) : State :=
  let id := (s.agentAt r.source).getD 0
  let u := suspectOf s id (cperUnit r)
  let step := if r.kind = 0x203 then (((s.integ.history.getD id []).head?.map (·.step)).getD 0) else if r.kind = 0x205 then r.own else 0
  let c : Cper :=
    { id := s.integ.nextCper, severity := cperSeverity r.cls, fault := r, time := r.lastTime, agent := id, hcClass := (s.roster id).hcClass
      verdict := cperVerdict r, unit := cperUnit r, pattern := if r.kind = 0x207 ∨ r.kind = 0x208 then r.own else 0
      vstep := u.vstep, fstep := u.fstep, step := step
      majority := if r.kind = 0x203 then r.detail0 else 0, digest := if r.kind = 0x203 then r.detail1 else 0 }
  s.onInteg fun g => { g with nextCper := g.nextCper + 1, cper := (g.cper ++ [c]).drop ((g.cper.length + 1) - cperLimit) }

/-- The record triggers a targeted test of a member: an injection double mismatch on unit 0xFFF, or an UNCORRECTED record of the host chip on its unit (R344, R397). -/
def recordTest (s : State) (id : Nat) (r : Rec) : State :=
  let h := islandOf s r.source
  if r.kind = 0x104 ∧ r.cls = .uncorrected ∧ !r.raised then trigger s h id 0xFFF 1
  else if 0x800 ≤ r.kind.toNat ∧ r.cls = .uncorrected then trigger s h id r.unit 3
  else s

/-- The integrity unit reacts to an accepted record of an agent: the history takes a CHECKER verdict, a test is triggered, a CPER record is exported. -/
def integReact (s : State) (r : Rec) : State :=
  if !s.hasIu ∨ s.domSt 20 = .fenced then s
  else match s.agentAt r.source with
    | none => s
    | some id =>
      let s := if r.kind = 0x202 then addHist s id { unit := r.unit, verdict := 3, island := islandOf s r.source, time := s.now } else s
      let s := recordTest s id r
      if exported r then exportCper (wake s 20) r else s

/-- An agent whose debug state has made it erase all its slots holds none of them any more (R330, R332; log 194). -/
def keysErased (s : State) (r : Rec) : State :=
  match s.agentAt r.source with
  | none => s
  | some id => s.onRoster id fun x => { x with slots := 0, debugSlots := 0 }

/-- What the controller's units do at an accepted record: a slip counts against its island's schedule, a KEY_DEBUG_ERASE empties the agent's slots, and the integrity unit reacts. -/
def reactRec (s : State) (r : Rec) : State :=
  let s := if r.kind = 0x142 then takeSlip s r else s
  let s := if r.kind = 0x186 then keysErased s r else s
  integReact s r

/-- RECORD_ACCEPT: every record posted since the last cycle is counted, accepted in order, delivered and acted on (R349). -/
def execRecordAccept (s : State) : Ans :=
  .next (
    if !s.pins.d0Up then s
    else
      let (l, s) := acceptPosted s
      l.foldl reactRec s)

end Sys2Proof.Machine
end

