-- ==== Sys2Proof/Machine/PairOps.lean ====
section
/-! DEFINITION. The pair role and its register, and the rest of a standby (R440, R441, R449, Table 14.4). -/

namespace Sys2Proof.Machine

/-- Codes of Table 14.2. -/
def PairRole.code : PairRole → Nat
  | .unpaired => 0
  | .active => 1
  | .standby => 2
  | .takingOver => 3
  | .relinquished => 4

/-- LH_PAIR_STATUS (Table 14.4). -/
def pairStatus (s : State) : Word :=
  at_ s.pair.takeovers 48 ||| b1 s.pair.peerEligible 39 ||| b1 s.pair.arbiterOk 38 ||| b1 s.pins.leaseLow 37 ||| at_ (s.pair.unit % 2) 36 |||
    b1 s.pair.paired 35 ||| at_ s.pair.role.code 32

/-- The unit takes a pair role; notice PAIR tells of it, and a STANDBY's LEASE_LOST clears (Tables 3.26, 14.10). -/
def setRole (s : State) (r : PairRole) : State :=
  let old := s.pair.role
  let s := s.onPair fun p => { p with role := r }
  let s := if r = .standby then clearKind s 0x280 else s
  if old = r then s else notify s 8 0 (pairStatus s) 0

/-- HELLO with the highest JSN held; FRAME_SEQ starts from 1 (R449, Table 14.3). -/
def sendHello (s : State) : State := shipFrame (s.onPair fun p => { p with txSeq := 0 }) 5 (s.nv.nextJsn - 1) []

/-- The boot of a standby rests after step 3: its reset has ended, and it sends HELLO (R441, R449). -/
def standbyRest (s : State) : State :=
  sendHello (s.onPower fun p =>
    { p with resetting := false, lastUs := if p.resetting ∧ !p.cold then satAdd 0xFFFFFFFF ((s.now - p.chipAt) / 1000) 0 else p.lastUs })

end Sys2Proof.Machine
end

