-- ==== Sys2Proof/Machine/PlanCheck.lean ====
section
/-! DEFINITION. Acceptance of fabric plans, the limits that a plan may break, its rejected entries, and the differences of topology agreement (R1, R18, R36, R262 to R264, R269, R270, R478). -/

namespace Sys2Proof.Machine

/-! Acceptance (R262, R263). -/

/-- The entries of a table follow the header and lie before the signature (R262). -/
def planTableOk (pl : List Byte) (table : Nat) : Bool :=
  planCount pl table == 0 || (decide (0x310 ≤ leAt pl table 4) && decide (leAt pl table 4 + 16 * planCount pl table + 96 ≤ pl.length))

/-- Positions come first, then spares (Table 8.4). -/
def sparesLast : List (List Byte) → Bool
  | e :: f :: l => (!entrySpare e || entrySpare f) && sparesLast (f :: l)
  | _ => true

/-- Reserved bits of a position, spare or switch entry (Table 8.5). -/
def posEntryOk (e : List Byte) : Bool :=
  let w := entryWhere e
  (if w.testBit 31 then bits w 30 20 == 0 else bits w 30 28 == 0) && decide (leAt e 4 1 < 4) && zeroAt e 6 2 && leAt e 15 1 == 0 &&
    (!entryAbsent e || entryAgent e == 0)

/-- Reserved bits of a link entry (Table 8.6). -/
def linkEntryOk (e : List Byte) : Bool :=
  bits (leAt e 0 4) 31 28 == 0 && (leAt e 4 4 == 0xFFFFFFFF || bits (leAt e 4 4) 31 28 == 0) && !(leAt e 8 2).testBit 14 && zeroAt e 12 4

/-- A portal policy entry (Table 8.7). -/
def portalEntryOk (e : List Byte) : Bool :=
  decide (leAt e 0 1 ≤ 3) && leAt e 1 1 == 0 && decide (leAt e 2 2 ≤ 512) && zeroAt e 4 4 && zeroAt e 0x38 8

/-- A reference's entry (Table 8.4). -/
def timeEntryOk (w : Nat) : Bool := bits w 7 2 == 0 && bits w 31 17 == 0

/-- The format and the reserved fields are as Tables 8.4 to 8.7 require; the group bit of FW_BASE_MAC is bit 40 (log 177). -/
def planWellFormed (pl : List Byte) : Bool :=
  decide (0x370 ≤ pl.length) && leAt pl 0 4 == 0x504C414E && leAt pl 4 2 == 1 && zeroAt pl 6 2 && leAt pl 8 8 != 0 &&
    decide (leAt pl 0x01A 1 ≤ 16) && leAt pl 0x01B 1 == 0 &&
    (leAt pl 0x01C 4 == 0 || (decide (100 ≤ leAt pl 0x01C 4) && decide (leAt pl 0x01C 4 ≤ 60000))) &&
    leAt pl 0x030 8 % 2 ^ 14 == 0 && (leAt pl 0x030 8).testBit 40 && decide (leAt pl 0x030 8 < 2 ^ 48) && timeEntryOk (leAt pl 0x038 4) && timeEntryOk (leAt pl 0x03C 4) &&
    bits (leAt pl 0x038 4) 1 0 != bits (leAt pl 0x03C 4) 1 0 && decide (1 ≤ leAt pl 0x040 4) && decide (leAt pl 0x040 4 ≤ 720) &&
    zeroAt pl 0x044 4 && zeroAt pl 0x060 16 && leAt pl 0x070 1 == 4 && zeroAt pl 0x0D1 7 && zeroAt pl 0x108 8 &&
    ((List.range 8).all fun p => portalEntryOk (planPortal pl p)) && [0x048, 0x050, 0x058].all (planTableOk pl) &&
    (planEntries pl 0x048).all posEntryOk && sparesLast (planEntries pl 0x048) && ((planEntries pl 0x058).all fun e => posEntryOk e && !entrySpare e) && (planEntries pl 0x050).all linkEntryOk

/-- SHA-384 of OPERATOR_KEY, the field of 104 bytes (Table 8.4). -/
def planKeyHash (pl : List Byte) : Hash := Config.sha384 (slice pl 0x070 104)

/-- The key hash that may sign the plan after this one: NEXT_KEY_HASH, zero for the same key (Table 8.4). -/
def nextKeyHash (pl : List Byte) : Hash := if hashAt pl 0x0D8 = 0 then planKeyHash pl else hashAt pl 0x0D8

/-- Exactly one portal is the steward's (R81). -/
def oneSteward (pl : List Byte) : Bool := ((List.range 8).filter fun p => leAt (planPortal pl p) 0 1 == 1).length == 1

/-- The signature of the plan verifies under its own OPERATOR_KEY. -/
def planSigned (pl : List Byte) : Bool :=
  let n := pl.length - 96
  Config.ecdsaVerify (slice pl 0x070 97) (Config.sha384 (pl.take n)) (slice pl n 96)

/-- A plan's key is enrolled, or named by the plan in force (R263). -/
def planKeyKnown (s : State) (pl : List Byte) : Bool :=
  s.fab.operatorKey == some (planKeyHash pl) || (s.fab.plan.map nextKeyHash) == some (planKeyHash pl)

/-- GENERATION exceeds that of the plan in force. -/
def planNewer (s : State) (pl : List Byte) : Bool := decide (((s.fab.plan.map fun p => leAt p 8 8).getD 0) < leAt pl 8 8)

/-- The controller accepts a plan (R263). -/
def planAccepted (s : State) (pl : List Byte) : Bool :=
  planWellFormed pl && oneSteward pl && planKeyKnown s pl && planSigned pl && planNewer s pl

/-! Limits and rejected entries (R264, R478). -/

/-- A difference without an agent's address. -/
def limitDiff (code value : Nat) : Diff := { kind := 1, outcome := 2, detail := BitVec.ofNat 56 (code * 2 ^ 48 + value % 2 ^ 48) }

/-- Endpoint agents of a plan: positions and spares that are not ABSENT (R18). -/
def planEndpoints (pl : List Byte) : Nat := ((planEntries pl 0x048).filter fun e => !entryAbsent e).length

/-- Sides of the pods as POD_SIDES gives them, or the default. -/
def podSides (pl : List Byte) : Nat := if leAt pl 0x014 4 = 0 then 0x04040404 else leAt pl 0x014 4

/-- The pod rule holds (R36). -/
def podsOk (pl : List Byte) : Bool :=
  let side (k : Nat) : Nat := bits (podSides pl) (8 * k + 7) (8 * k)
  decide (planPositions pl < 256) ||
    (side 3 * side 2 * side 1 * side 0 == 256 && (List.range 4).all fun k => side k != 0 && planDim pl k % side k == 0)

/-- HBM that is not fenced, GiB (Table 0.1, R255). -/
def hbmGib (s : State) : Nat := 24 * ((List.range s.pins.part.stacks).filter fun k => !s.power.hbmFenced.getLsbD k).length

/-- One LIMIT difference for each limit broken (R264, Table 8.14). -/
def limitDiffs (s : State) (pl : List Byte) : List Diff :=
  let sizes := [3, 2, 1, 0].filterMap fun k =>
    if 2 ≤ planDim pl k ∧ planDim pl k ≤ 64 then none else some (limitDiff (4 - k) (planDim pl k))
  let test (ok : Bool) (code v : Nat) : List Diff := if ok then [] else [limitDiff code v]
  sizes ++ test (decide (planPositions pl ≤ 131072)) 5 (planPositions pl) ++
    test (decide (planEndpoints pl ≤ 1024 * s.pins.part.endpointsK)) 6 (planEndpoints pl) ++
    test (decide (planSwitches pl ≤ 1024 * s.pins.part.switchesK)) 7 (planSwitches pl) ++
    test (podsOk pl) 8 (podSides pl) ++ test (decide (Config.modelGib pl ≤ hbmGib s)) 9 (Config.modelGib pl)

/-- Pods of a plan. -/
def planPods (pl : List Byte) : Nat :=
  (List.range 4).foldl (fun n k => n * (planDim pl k / planSide pl k)) 1

/-- A position, spare or switch entry names something outside the plan (R264). -/
def badPlace (pl : List Byte) (isSwitch : Bool) (e : List Byte) : Bool :=
  let w := entryWhere e
  if isSwitch then addrKind (BitVec.ofNat 28 w) != 1 || decide (planSwitches pl ≤ w % 2 ^ 24)
  else if entrySpare e then decide (planPods pl ≤ bits w 15 0) || decide (leAt pl 0x01A 1 ≤ bits w 19 16)
  else addrKind (BitVec.ofNat 28 w) != 0 || !validIn (planDim pl) (planSwitches pl) (BitVec.ofNat 28 w)

/-- A link entry names something outside the plan. -/
def badLink (pl : List Byte) (e : List Byte) : Bool :=
  let n := planCount pl 0x048
  decide (n ≤ (linkA e).1) || ((linkB e).map fun b => decide (n ≤ b.1)) == some true ||
    ((linkVia e).map fun w => decide (planSwitches pl ≤ w)) == some true

/-- PLAN_ENTRY differences of one table. -/
def entryDiffs (pl : List Byte) (table code : Nat) (bad : List Byte → Bool) : List Diff :=
  ((planEntries pl table).zipIdx.filter fun q => bad q.1).map fun q =>
    { kind := 12, outcome := 2, detail := BitVec.ofNat 56 (code * 2 ^ 48 + q.2) }

/-- Every rejected entry: positions and spares, links, switches. -/
def planEntryDiffs (pl : List Byte) : List Diff :=
  entryDiffs pl 0x048 0 (badPlace pl false) ++ entryDiffs pl 0x050 1 (badLink pl) ++ entryDiffs pl 0x058 2 (badPlace pl true)

/-! Topology agreement (R269, Table 8.8). -/

/-- The agent that the model expects at a position or switch is here and runs its image. -/
def present (s : State) (a : FAddr) : Bool :=
  match expectedAt s a with
  | none => false
  | some id => (s.roster id).found && !(s.roster id).fwFailed

/-- Positions and switches of the plan that are not ABSENT, with their entries. -/
def planPlaces (pl : List Byte) (table : Nat) : List FAddr :=
  ((planEntries pl table).filter fun e => !entrySpare e && !entryAbsent e && !badPlace pl (table == 0x058) e).map fun e => BitVec.ofNat 28 (entryWhere e)

/-- One difference at a place whose agent is missing or without firmware. -/
def placeDiff (s : State) (kind outcome : Nat) (a : FAddr) : Diff :=
  { kind := kind, outcome := outcome, addr := if kind = 6 then noAddr else a, detail := BitVec.ofNat 56 ((expectedAt s a).getD 0) }

/-- Positions that have no agent that can serve them, ascending. -/
def emptyPositions (s : State) (pl : List Byte) : List FAddr :=
  let l := (planPlaces pl 0x048).filter fun a => !present s a
  (l.foldl (fun (m : FMap Unit) a => m.set a.toNat ()) []).keys.map fun k => BitVec.ofNat 28 k

/-- A link of the model joins two present positions, no quay link among them. -/
def joinsPresent (s : State) (c : Cable) : Bool := present s c.a && present s c.b && !s.quayEnd c.a c.la

/-- The agent of a cable's switch has not been found, so that its circuits count as dead (Table 8.8). -/
def switchMissing (s : State) (c : Cable) : Bool :=
  match c.via with
  | none => false
  | some v => match expectedAt s (BitVec.ofNat 28 (0x1000000 + v.1)) with
    | none => true
    | some id => !(s.roster id).found

/-- A cable is dead, or reaches something else than the plan's neighbour. -/
def cableDead (s : State) (c : Cable) : Bool := (s.mlink c.a c.la).lanes == 0 || (s.mlink c.b c.lb).lanes == 0 || switchMissing s c

/-- The cable from its lower end. -/
def Cable.lower (c : Cable) : Cable := if c.b.toNat < c.a.toNat then c.flip else c

/-- Cables between present positions, each from its lower end. -/
def modelCables (s : State) (pl : List Byte) : List Cable := ((planCables pl).filter (joinsPresent s)).map Cable.lower

/-- The port of a cable at its first end. -/
def Cable.port (s : State) (c : Cable) : Option Nat := (s.mlink c.a c.la).port

/-- Every cable of the port that holds this one is dead. -/
def portDead (s : State) (cs : List Cable) (c : Cable) : Bool :=
  (cs.filter fun d => d.a == c.a && d.port s == c.port s).all (cableDead s)

/-- One cable of each dead port between present positions, by its lower end. -/
def deadPorts (s : State) (pl : List Byte) : List Cable :=
  let cs := modelCables s pl
  (cs.filter fun c => cableDead s c && portDead s cs c).foldl (fun (l : List Cable) c =>
    if l.any fun d => d.a == c.a && d.port s == c.port s then l else l ++ [c]) []

/-- Positions in ascending address, each once. -/
def ascending (as : List FAddr) : List FAddr := ((as.foldl (fun (m : FMap Unit) a => m.set a.toNat ()) []).keys).map (BitVec.ofNat 28)

/-- Positions that spares take when all of these are to be spliced (R42, R43, R45). -/
def spliced (s : State) (want : List FAddr) : Nat := ((chooseMoves s false (ascending want) []).filter fun m => m.2.2 != 0).length

/-- A position can be spliced besides those that are already to be: with it, one more of them is covered (R42, R43, Table 8.8). -/
def spareLeft (s : State) (want : List FAddr) (a : FAddr) : Bool := want.contains a || spliced s want < spliced s (want ++ [a])

/-- The positions that splices are to cover, with one end of each dead port: the higher address when both qualify (Table 8.8). -/
def spliceEnds (s : State) (want : List FAddr) : List Cable → List FAddr
  | [] => want
  | c :: cs =>
    spliceEnds s (if spareLeft s want c.b then if want.contains c.b then want else want ++ [c.b]
      else if spareLeft s want c.a then if want.contains c.a then want else want ++ [c.a] else want) cs

/-- LINK_DEAD, PORT_DEAD, LANES and MISWIRED of the cables; a dead port is covered when an end of it is spliced. -/
def cableDiffs (s : State) (pl : List Byte) (covered : FAddr → Bool) : List Diff :=
  let cs := modelCables s pl
  let miswired (a : FAddr) (l : Nat) (b : FAddr) (lb : Nat) : List Diff :=
    match (s.mlink a l).seen with
    | none => []
    | some (id, k) =>
      if s.agentAt b = some id ∧ k = lb then [] else [{ kind := 11, outcome := 0, addr := a, link := l, detail := BitVec.ofNat 56 id }]
  (cs.filter fun c => cableDead s c && !portDead s cs c).map (fun c => { kind := 8, outcome := 1, addr := c.a, link := c.la }) ++
    (cs.filterMap fun c =>
      let n := Nat.min (s.mlink c.a c.la).lanes (s.mlink c.b c.lb).lanes
      if cableDead s c ∨ 4 ≤ n then none else some { kind := 9, outcome := 1, addr := c.a, link := c.la, detail := BitVec.ofNat 56 n }) ++
    (deadPorts s pl).map (fun c => { kind := 10, outcome := if covered c.a || covered c.b then 1 else 2, addr := c.a }) ++
    cs.flatMap fun c => miswired c.a c.la c.b c.lb ++ miswired c.b c.lb c.a c.la

/-- Ascending KIND, then address, then link (R270). -/
def Diff.before (d e : Diff) : Bool :=
  decide (d.kind < e.kind) || (d.kind == e.kind && (decide (d.addr.toNat < e.addr.toNat) || (d.addr == e.addr && decide (d.link < e.link))))

/-- Inserts a difference after those that are not after it. -/
def insertDiff (d : Diff) : List Diff → List Diff
  | [] => [d]
  | e :: l => if d.before e then d :: e :: l else e :: insertDiff d l

/-- The positions that a splice covers at step 13, ascending: those without an agent, and one end of each dead port. -/
def spliceWanted (s : State) (pl : List Byte) : List FAddr :=
  ascending (spliceEnds s (emptyPositions s pl) (deadPorts s pl))

/-- The kind of a place that has no agent to serve it: FW_FAILED where one was found, else `kind` (R268, Table 8.8). -/
def emptyKind (s : State) (kind : Nat) (a : FAddr) : Nat :=
  match expectedAt s a with
  | some id => if (s.roster id).found then 4 else kind
  | none => kind

/-- The whole list of differences, and the splices that cover what can be covered (R43, R45, R269). A switch whose firmware failed is FW_FAILED, which no splice covers (log 178). -/
def agreement (s : State) : List Diff × List (Nat × Nat × Nat) :=
  let strays := s.fab.unexpected.map fun id => { kind := 5, outcome := 0, detail := BitVec.ofNat 56 id }
  match s.fab.plan with
  | none => ({ kind := 2, outcome := 2 } :: strays, [])
  | some pl =>
    let moves := (chooseMoves s false (spliceWanted s pl) []).filter fun m => m.2.2 != 0
    let covered (a : FAddr) : Bool := moves.any fun m => m.1 == a.toNat
    let places := (emptyPositions s pl).map fun a => placeDiff s (emptyKind s 3 a) (if covered a then 1 else 2) a
    let spares := ((planEntries pl 0x048).filter fun e => entrySpare e && !entryAbsent e && !badPlace pl false e &&
      !((s.roster (entryAgent e)).found && !(s.roster (entryAgent e)).fwFailed)).map fun e =>
        { kind := 6, outcome := 1, detail := BitVec.ofNat 56 (entryAgent e) }
    let switches := ((planPlaces pl 0x058).filter fun a => !present s a).map fun a =>
      placeDiff s (emptyKind s 7 a) (if emptyKind s 7 a = 7 then 1 else 2) a
    ((limitDiffs s pl ++ planEntryDiffs pl ++ places ++ spares ++ switches ++ strays ++ cableDiffs s pl covered).foldl (fun l d => insertDiff d l) [], moves)

/-- LH_FAB_STATUS.STATE (Table 8.10). -/
def FabState.code : FabState → Nat
  | .booting => 0
  | .discovering => 1
  | .ready => 2
  | .readyDegraded => 3
  | .held => 4

/-- LH_FAB_STATUS (Table 8.10). -/
def fabStatus (s : State) : Word :=
  at_ (Nat.min s.fab.diffs.length 0xFFFF) 48 ||| at_ s.fab.diffGen.toNat 40 |||
    at_ (((s.fab.plan.map fun p => leAt p 8 2).getD 0)) 24 ||| at_ s.fab.st.code 0

/-- LH_DIFF_i_LO (Table 8.9). -/
def Diff.lo (d : Diff) : Word := at_ d.kind 56 ||| at_ d.link 48 ||| at_ d.outcome 40 ||| at_ d.addr.toNat 0

/-- LH_DIFF_i_HI. -/
def Diff.hi (d : Diff) : Word := at_ d.detail.toNat 0

/-- The full list of differences goes to the journal, in MODEL records of at most 100 (R270). -/
def journalDiffs (s : State) (l : List Diff) : State :=
  (List.range (l.length / 100 + 1)).foldl (fun t k =>
    journal t jModel ((at_ 0x40 0 ||| at_ l.length 16) :: ((l.drop (100 * k)).take 100).flatMap fun d => [d.lo, d.hi])) s

/-- The fabric's state changes, its rewritten list going to the journal; notice FABRIC_STATE and FABRIC_HELD follow it (R269, Table 3.26). -/
def setFab (s : State) (st : FabState) (diffs : Option (List Diff)) : State :=
  let old := s.fab
  let s := s.onFab fun f => match diffs with
    | none => { f with st := st }
    | some l => { f with st := st, diffs := l, diffGen := f.diffGen + 1 }
  let s := match diffs with
    | none => s
    | some l => journalDiffs s l
  let s := if st = .held ∧ old.st ≠ .held then s.fault 0 0 0x1C0 .degraded
    else if st ≠ .held ∧ old.st = .held then clearKind s 0x1C0
    else s
  if old.st = st ∧ diffs = none then s else notify s 3 0 (fabStatus s) 0

end Sys2Proof.Machine
end

