-- ==== Sys2Proof/Machine/Licence.lean ====
section
/-! DEFINITION. Licences: checks, evaluation, expiry, store and removal (R7 to R10, R75 to R79, R477). -/

namespace Sys2Proof.Machine

/-- Bit of PART_MASK of the part (Table 2.13). -/
def Part.maskBit : Part → Nat
  | .xnu3124 => 0
  | .xnu3148 => 1
  | .xnu3188 => 2

/-- Check 1 of Table 2.14. -/
def licWellFormed (b : List Byte) : Bool :=
  b.length == 256 && leAt b 0 4 == 0x4C49434E && leAt b 4 2 == 1 && zeroAt b 0x54 44 && zeroAt b 0xE0 32 && decide (leAt b 6 1 ≤ 4) &&
    decide (leAt b 7 1 ≤ 3) && leAt b 8 8 != 0 && decide (leAt b 0x50 4 < 8)

/-- The evaluation time (R77). -/
def evalTime (s : State) : Nat := if s.time.firstLock then Nat.max s.time.floor s.now else s.time.floor

/-- The reason code of a licence: 1 where every check passes, in the order of Table 2.14; every unit of Table 0.6 is present on every part (R76). -/
def licReason (s : State) (b : List Byte) : Nat :=
  if !licWellFormed b then 9
  else if s.power.licKeyRevoked.getLsbD (leAt b 7 1) then 8
  else if !Config.ecdsaVerify (Config.romKey 1 (leAt b 7 1)) (Config.sha384 (b.take 0x80)) (slice b 0x80 96) then 2
  else if hashAt b 0x10 ≠ s.power.deviceId then 3
  else if !(leAt b 0x50 4).testBit s.pins.part.maskBit then 6
  else if evalTime s < leAt b 0x40 8 then 4
  else if leAt b 0x48 8 ≠ 0 ∧ leAt b 0x48 8 ≤ evalTime s then 5
  else 1

/-- The reason of a feature: 0 none stored, 1 one passes, else that of the highest SERIAL (R79). -/
def featureReason (s : State) (n : Nat) : Nat :=
  let l := s.lic.stored.filter fun b => leAt b 6 1 == n
  if l.any fun b => licReason s b == 1 then 1
  else (l.foldl (fun (best : Nat × Nat) b => if best.1 < leAt b 8 8 then (leAt b 8 8, licReason s b) else best) (0, 0)).2

/-- LH_CAP3 (Table 0.5). -/
def cap3 (s : State) : Word :=
  at_ s.lic.gen.toNat 56 ||| at_ s.lic.maxIslands 32 ||| at_ s.lic.refused.toNat 16 ||| at_ s.lic.valid.toNat 0

/-- LH_LIC_REASON (Table 2.15). -/
def licReasonWord (s : State) : Word := at_ s.lic.reasonGen.toNat 56 ||| at_ s.lic.reason.toNat 0

/-- An evaluation: LH_CAP3 and LH_LIC_REASON change in one step, LIC_GEN counts it, ISLET_PORTALS clears with its licence, and a notice tells of a change (R8, R78, R79, R371, Table 3.26). -/
def evaluate (s : State) : State :=
  let rs := (List.range 5).map (featureReason s)
  let mask (p : Nat → Bool) : Nat := (rs.zipIdx.filter fun q => p q.1).foldl (fun w q => w + 2 ^ q.2) 0
  let valid := mask (· == 1)
  let refused := mask fun r => decide (2 ≤ r)
  let reason := rs.zipIdx.foldl (fun w q => w + q.1 * 16 ^ q.2) 0
  let new : Lic := { s.lic with
    evaluated := true, gen := s.lic.gen + 1, valid := BitVec.ofNat 16 valid, refused := BitVec.ofNat 16 refused
    maxIslands := if valid % 2 = 1 then 256 else 16, reasonGen := s.lic.gen + 1, reason := BitVec.ofNat 20 reason
    passing := (s.lic.stored.filter fun b => licReason s b == 1).map fun b => leAt b 8 8 }
  let old := s.lic
  let s := { s with lic := new }
  let s := if new.valid.getLsbD 3 then s else s.onEng fun e => { e with isletPortals := 0 }
  let changed := old.valid != new.valid || old.refused != new.refused || old.maxIslands != new.maxIslands || old.reason != new.reason
  checkStale (if changed then notify s 2 0 (cap3 s) (licReasonWord s) else s)

/-- LICENCE_EXPIRY_CHECK: the comparison of every 1 ms; a licence that passed at the latest evaluation and has reached NOT_AFTER is an expiry found, which is an evaluation (R77). -/
def execLicenceExpiryCheck (s : State) : Ans :=
  .next (
    let found := s.lic.stored.any fun b => s.lic.passing.contains (leAt b 8 8) && leAt b 0x48 8 != 0 && decide (leAt b 0x48 8 ≤ evalTime s)
    if s.pins.d0Up ∧ s.lic.evaluated ∧ found then evaluate s else s)

/-- LICENCE_STORE: check 1, then a replacement, a free place, or UNSUPPORTED; a store starts an evaluation (R78, R477). -/
def execLicenceStore (ring : Nat) (index : BitVec 32) (buf : List Byte) (s : State) : Ans :=
  .next (serveJ ring index 0x11 buf s fun _ f args buf s =>
    let put (l : List (List Byte)) : State :=
      let s := putObject { s with lic := { s.lic with stored := l } } clsLicence (leAt buf 8 8) buf
      finish (evaluate s) ring f stOk
    if buf.length ≠ 256 ∨ !zeroAt args 0 40 ∨ !licWellFormed buf then finish s ring f stInvalid
    else if s.lic.stored.any fun b => leAt b 8 8 == leAt buf 8 8 then
      put (s.lic.stored.map fun b => if leAt b 8 8 = leAt buf 8 8 then buf else b)
    else if 64 ≤ s.lic.stored.length then finish s ring f stUnsupported
    else put (s.lic.stored ++ [buf]))

/-- LICENCE_REMOVE: removes the licence that SERIAL names, and starts an evaluation (R477). -/
def execLicenceRemove (ring : Nat) (index : BitVec 32) (s : State) : Ans :=
  .next (serveJ ring index 0x12 [] s fun _ f args _ s =>
    let n := leAt args 0 8
    if n = 0 ∨ !zeroAt args 8 32 ∨ !(s.lic.stored.any fun b => leAt b 8 8 == n) then finish s ring f stInvalid
    else
      let s := { s with lic := { s.lic with stored := s.lic.stored.filter fun b => leAt b 8 8 != n } }
      let s := journal s jObject [BitVec.ofNat 64 clsLicence, BitVec.ofNat 64 n, 0]
      let s := s.onNv fun v => { v with objects := v.objects.del (objKey clsLicence n) }
      finish (evaluate s) ring f stOk)

end Sys2Proof.Machine
end

