-- ==== Sys2Proof/Machine/TimeRef.lean ====
section
/-! DEFINITION. The time references: validity, qualification, the first lock, hold, slew and holdover (R273 to R276, R469). -/

namespace Sys2Proof.Machine

/-- The conditions of Table 8.11 hold; none does without HOLD_OSC on the backup oscillator (R469). -/
def refGood (s : State) (x : Side) : Bool :=
  let r := s.time.ref x
  r.ppsOk && r.syncOk && r.gradeOk && (!s.time.firstLock || decide (r.offset.natAbs ≤ 1000000)) && (s.pins.holdOsc || !s.pins.aonBackup)

/-- The other reference. -/
def Side.other : Side → Side
  | .a => .b
  | .b => .a

/-- The active or target reference has become invalid (Table 8.12, R276). -/
def lostTarget (s : State) : State :=
  match s.time.st with
  | .locked => if (s.time.ref s.time.target.other).qualified then setTime s .hold s.time.target.other else setTime s .holdover s.time.target
  | .hold | .slew => setTime s .holdover s.time.target
  | .unlocked | .holdover => s

/-- Leaving HOLDOVER clears TIME_HOLDOVER (Table 11.3). -/
def leftHoldover (s : State) : State := if s.time.st = .holdover then s else clearKind s 0x1C1

/-- The validity of a reference follows its conditions; an invalid moment sets its count back to zero (R273). -/
def refUpdate (s : State) (x : Side) : State :=
  let was := (s.time.ref x).valid
  let good := refGood s x
  let s := s.onTime fun t => t.onRef x fun r => { r with valid := good, qualS := if good then r.qualS else 0 }
  if was && !good && s.time.target == x then lostTarget s else s

/-- Changes the conditions of one reference. -/
def refChange (s : State) (x : Side) (f : TRef → TRef) : State := refUpdate (s.onTime fun t => t.onRef x f) x

/-- PPS_EDGE: a rising edge, its distance from the second that PTP indicates, and the reference minus fabric time, both in ns (R273). -/
def execPpsEdge (side : Side) (err offset : Int) (s : State) : Ans :=
  .next (if !s.pins.d0Up then s
    else
      let s := s.onPins fun p => match side with
        | .a => { p with ppsA := true }
        | .b => { p with ppsB := true }
      if 1000 < err.natAbs then s
      else
        let was := (s.time.ref side).valid
        let s := refChange s side fun r => { r with ppsOk := true, offset := offset }
        if was && (s.time.ref side).valid then s.onTime fun t => t.onRef side fun r => { r with qualS := satAdd 0xFFFF r.qualS 1 }
        else s)

/-- PPS_MISSING: two consecutive seconds lack a valid edge (R273). -/
def execPpsMissing (side : Side) (s : State) : Ans :=
  .next (let s := s.onPins fun p => match side with
           | .a => { p with ppsA := false }
           | .b => { p with ppsB := false }
         refChange s side fun r => { r with ppsOk := false })

/-- PTP_SYNC: a Sync of the selected grandmaster, and the reference minus fabric time that it gives (R273). -/
def execPtpSync (side : Side) (offset : Int) (s : State) : Ans :=
  .next (if s.pins.d0Up then refChange s side fun r => { r with syncOk := true, offset := offset } else s)

/-- SYNC_TIMEOUT: no Sync for 3 s (R273). -/
def execSyncTimeout (side : Side) (s : State) : Ans := .next (refChange s side fun r => { r with syncOk := false })

/-- PTP_ANNOUNCE: the grade condition: clockClass 6 or 7, timeTraceable and ptpTimescale (Table 8.11). -/
def execPtpAnnounce (side : Side) (clockClass : Nat) (traceable ptpScale : Bool) (s : State) : Ans :=
  .next (if s.pins.d0Up then
      refChange s side fun r => { r with gradeOk := (clockClass == 6 || clockClass == 7) && traceable && ptpScale }
    else s)

/-- What the counter is loaded with at the first lock: the reference without a live island, else the first copy of a live quay endpoint at or above the floor, else the counter as it stands; none where the reference lies below the floor (R275). -/
def firstTime (s : State) (x : Side) (copies : List Nat) : Option Nat :=
  if liveIslands s = [] then
    let t := Int.ofNat s.now + (s.time.ref x).offset
    if t < Int.ofNat s.time.floor then none else some t.toNat
  else some ((copies.find? fun c => decide (s.time.floor ≤ c)).getD (Nat.max s.now s.time.floor))

/-- The first lock after a power cycle: the counter is loaded unless a takeover has loaded it, the slew starts, and licences are evaluated again (R77, R275). -/
def firstLockOn (s : State) (x : Side) (copies : List Nat) : State :=
  match if s.time.taken then some s.now else firstTime s x copies with
  | none => s
  | some t =>
    let s := (loadTime s t).onTime fun y => { y with firstLock := true }
    let s := evaluate (setTime s .slew x)
    refUpdate (refUpdate s .a) .b

/-- REFERENCE_QUALIFIED: a reference has been valid for 10 s. `copies`: fabric time as the endpoints of the live quays hold it, in ascending quay number, from CNT_SAMPLE answers (R273 to R276). -/
def execReferenceQualified (side : Side) (copies : List Nat) (s : State) : Ans :=
  .next (if !(s.time.ref side).valid then s
    else
      let s := s.onTime fun t => t.onRef side fun r => { r with qualS := Nat.max r.qualS 10 }
      let best : Side := if s.time.a.qualified then .a else side
      match s.time.st with
      | .unlocked => if s.time.firstLock then setTime s .slew best else firstLockOn s best copies
      | .locked => if liveIslands s = [] then returnToA s else s
      | .hold | .slew => s
      | .holdover => leftHoldover (setTime s .hold best))

/-- HOLD_END: 1 s in HOLD has passed with the target valid (R274). -/
def execHoldEnd (s : State) : Ans :=
  .next (if s.time.st = .hold ∧ (s.time.ref s.time.target).valid then setTime s .slew s.time.target else s)

/-- The rate after a change toward a value: at most 0.1 ppm, 100 ppb, for each second since the last change (R275). -/
def rateToward (s : State) (ppb : Int) : Int :=
  let lim := Int.ofNat ((s.now - s.time.rateAt) / 10000000)
  max (s.time.ratePpb - lim) (min (s.time.ratePpb + lim) ppb)

/-- SLEW_LOCK: fabric time has come within 10 ns of the target for 1 s, at the rate given; the counter is not stepped, and the rate has moved no faster than its limit (R274, R275; log 107). -/
def execSlewLock (ratePpb : Int) (s : State) : Ans :=
  .next (if s.time.st = .slew ∧ (s.time.ref s.time.target).valid ∧ (s.time.ref s.time.target).offset.natAbs ≤ 10 then
      let s := s.onTime fun y => { y with ratePpb := rateToward s ratePpb, rateAt := y.now }
      let s := setTime s .locked s.time.target
      if liveIslands s = [] then returnToA s else s
    else s)

/-- HOLDOVER_LIMIT: HOLDOVER has lasted HOLDOVER_H; TIME_HOLDOVER is recorded and time runs on (R274). -/
def execHoldoverLimit (s : State) : Ans := .next (if s.time.st = .holdover then s.fault 0 0 0x1C1 .degraded else s)

end Sys2Proof.Machine
end

