-- ==== Sys2Proof/Machine/Power.lean ====
section
/-! DEFINITION. Feeds, power-on and power loss, domain wakes and power-down, clocks, pins of the portals, temperature and the test access port (chapters 2 and 15). -/

namespace Sys2Proof.Machine

/-! Feeds and power (R452, R463 to R465). -/

/-- One of the two feeds. -/
def Pins.feed (p : Pins) : Side → Feed
  | .a => p.feedA
  | .b => p.feedB

/-- Changes one of the two feeds. -/
def State.onFeed (s : State) (x : Side) (f : Feed → Feed) : State :=
  s.onPins fun p => match x with
    | .a => { p with feedA := f p.feedA }
    | .b => { p with feedB := f p.feedB }

/-- Number of a feed in records and claims. -/
def Side.num : Side → Nat
  | .a => 0
  | .b => 1

/-- VALID after a reading in mV: set from 10.8 V, cleared at 10.6 V and at 13.4 V (Table 15.5). -/
def feedValid (was : Bool) (mv : Nat) : Bool := decide (mv < 13400) && (decide (10800 ≤ mv) || (was && decide (10600 < mv)))

/-- POWER_ON: the first feed becomes VALID; D0 leaves its power-on reset with FAULT_L low, and a blown unlock takes effect (R464, R476). -/
def execPowerOn (feed : Side) (mv : BitVec 16) (s : State) : Ans :=
  .next (if s.pins.d0Up ∨ !feedValid false mv.toNat then s
    else
      (s.onFeed feed fun f => { f with valid := true, mv := mv }).onPins fun p =>
        { p with d0Up := true, faultLow := true, debugUnlocked := p.debugFuse })

/-- FEED_RANGE_CHANGE: a feed leaves or re-enters its range; FEED_LOST clears when it is valid again (R452). -/
def execFeedRangeChange (feed : Side) (mv : BitVec 16) (shareA : BitVec 8) (s : State) : Ans :=
  .next (if !s.pins.d0Up then s
    else
      let was := (s.pins.feed feed).valid
      let now := feedValid was mv.toNat
      let s := (s.onFeed feed fun f => { f with valid := now, mv := mv }).onPins fun p => { p with shareA := shareA }
      if was && !now then s.fault 0 0 0x285 .degraded (own := feed.num)
      else if !was && now then clearRecs s fun r => r.kind == 0x285 && r.own == feed.num
      else s)

/-- ORING_FAULT: an ORing element fails or reports good again (R452). -/
def execOringFault (feed : Side) (bad : Bool) (s : State) : Ans :=
  .next (if !s.pins.d0Up then s
    else
      let s := s.onFeed feed fun f => { f with oring := bad }
      if bad then s.fault 0 0 0x286 .degraded (own := feed.num)
      else clearRecs s fun r => r.kind == 0x286 && r.own == feed.num)

/-- What the store keeps over a loss of its power: what lies in NAND (R418, R424). -/
def Nv.afterLoss (n : Nv) : Nv :=
  { n with opn := [], ledgeOpn := [], waits := [], heldWrites := [], restarting := false, dressMib := 512, retSlcD := 180, retQlcD := 30
           flushUs := 50, singleCopy := false, refresh := [] }

/-- What the model's journal keeps of an agent over a power loss. -/
def Roster.afterLoss (r : Roster) : Roster :=
  { r with found := false, macs := [], manifest := false, sample := none, coarse := none, power := 0, powerAt := 0, powerCoarse := none
           staged := none, stage := r.bank, reported := false }

/-- The unpowered package after a power loss: NAND, fuses, pins driven from outside, and the agents remain (R418, R465). -/
def powerLost (s : State) : State :=
  { agents := s.agents, out := s.out, nonce := s.nonce, pending := s.pending
    pins := { part := s.pins.part, stepMajor := s.pins.stepMajor, stepMinor := s.pins.stepMinor, debugFuse := s.pins.debugFuse
              perstLow := s.pins.perstLow, leaseLow := s.pins.leaseLow, holdOsc := s.pins.holdOsc }
    power := { floor := s.power.floor, fwKeyRevoked := s.power.fwKeyRevoked, licKeyRevoked := s.power.licKeyRevoked, deviceId := s.power.deviceId }
    lic := { stored := s.lic.stored }
    fab := { s.fab with st := .booting, diffGen := 0, diffs := [], fwLoading := false, reqs := [], mboxes := [], eseq := []
                        deferTelemetry := false, roster := s.fab.roster.mapVals fun _ r => r.afterLoss }
    isles := { s.isles with
      islands := (resetIu (loseDomains s)).isles.islands, fyKey := 0, fyIsland := 0, fyEpoch := 0, fyPhase := .idle, fyResult := 0, fyAgents := 0
      fyAnswered := 0, fyBoundaryUs := 0, fyTotalUs := 0 }
    time := { floor := s.time.floor }
    nv := s.nv.afterLoss
    pair := {}
    integ := { history := s.integ.history, units := s.integ.units, library := s.integ.library, cper := s.integ.cper, nextCper := s.integ.nextCper } }

/-- BOTH_FEEDS_FAIL: both feeds are below 9.6 V; the outputs are released and every domain is reset (R465). -/
def execBothFeedsFail (s : State) : Ans := .next (if s.pins.d0Up then powerLost s else s)

/-- CHIP_RST_L_FIRST_RISE: the pin rises; the first rise after power-on starts boot step 1, a later one lets the boot go on from step 2, and an instruction that needs it low selects bypass (R464, R475). -/
def execChipRstLFirstRise (s : State) : Ans :=
  .next (if !s.pins.d0Up then s
    else s.onPins fun p =>
      { p with chipRstHigh := true, firstRise := true, wpLow := false
               tapReg := if p.tapIr = 0 then 2 else p.tapReg, tapPins := 0 })

/-! Domain wakes (R63 to R67). -/

/-- This boot goes from step 5 straight to step 8: the fast path or a takeover (R272, R450). -/
def warmBoot (s : State) : Bool := s.power.fastPath || s.pair.role == .takingOver

/-- A portal that is DOWN trains its link and is READY (R468, Table 3.5). -/
def trainPortal (s : State) (p : Nat) : State :=
  if s.hasPortal p && (s.portal p).st == .down then (s.onPortal p fun q => { q with st := .ready }).emit (.linkTraining p) else s

/-- PORTAL_RDY rises, and portals whose PERST_L is high train (R256, R468). -/
def portalsReady (s : State) : State :=
  let s := s.onPins fun p => { p with portalRdy := true }
  (List.range 8).foldl (fun t p =>
    if t.pins.perstLow.getLsbD p then t else trainPortal t p) s

/-- Boot step 5: D22, then D17 to D20, then D23; with step 4 also ended, PORTAL_RDY rises and the next step starts (Table 8.1, R256). -/
def bootDomains (s : State) : State :=
  if s.power.step ≠ 4 ∧ s.power.step ≠ 5 then s
  else
    let s := if s.domOn 22 then [17, 18, 19, 20].foldl wake s else s
    let settled := [17, 18, 19, 20].all fun d => !s.domPresent d || s.domOn d || s.domSt d == .fenced
    let s := if s.domOn 22 && settled then wake s 23 else s
    if s.domOn 23 && s.power.licDone then
      let s := portalsReady s
      s.onPower fun p => { p with step := if warmBoot s then 8 else 6, hbmSelfRefresh := false }
    else s

/-- What a domain that has reached ON takes up. -/
def takeUp (s : State) (d : Nat) : State :=
  if d = 17 then runWaitingCmds s
  else if d = 20 then deliverHeld s
  else if d = 21 then releaseWaits (s.onNv fun n => { n with restarting := false })
  else s

/-- WAKE_EVENT: a wake event reaches the sequencer (R62, R64, R72). -/
def execWakeEvent (domain : Nat) (s : State) : Ans := .next (if domain = 0 then s else wake s domain)

/-- DOMAIN_READY: a waking domain is ON; wakes that waited for it start, and boot step 5 goes on (R62, R63, R66). -/
def execDomainReady (domain : Nat) (s : State) : Ans :=
  .next (if s.domSt domain ≠ .waking ∨ domain = 0 then s
    else
      let s := s.onDom domain fun x => { x with st := .on, powerOff := false, wakePend := false, missed := 0 }
      bootDomains (startPending (takeUp s domain)))

/-- DOMAIN_WAKE_TIMEOUT: twice the wake latency has passed: DOMAIN_WAKE, a fence, and a bench leaves BENCH_USABLE (R66). -/
def execDomainWakeTimeout (domain : Nat) (s : State) : Ans :=
  .next (if s.domSt domain ≠ .waking ∨ domain = 0 then s
    else
      let s := fenceDom (s.fault domain 63 0x081 .degraded) domain
      let s := if domain ≤ 16 then setUsable s (domain - 1) false else s
      bootDomains s)

/-- A session of SPDM is live (PT_STATUS.SESSION). -/
def anySession (s : State) : Bool := s.portals.vals.any fun p => p.session.live

/-- The idle condition of a domain holds (R57, R60, Table 2.3). -/
def idleNow (s : State) (d : Nat) : Bool :=
  if d ≤ 16 then (ctxsOn s (d - 1)).all fun q => q.2.st != .running && q.2.st != .stopping
  else if d = 17 then s.eng.rings.vals.all fun g => g.st == .idle
  else if d = 18 then s.isles.installs == [] && s.fab.reqs == []
  else if d = 19 then !anySession s && liveIslands s == []
  else if d = 20 then s.integ.tests == [] && s.integ.held == []
  else if d = 21 then s.nv.opn == [] && s.nv.waits == [] && s.nv.dressStep == 0
  else false

/-- DOMAIN_IDLE_EXPIRY: the idle time has passed; the domain drains unless LH_PD_HOLD, a domain that needs it, or work keeps it (R57, R60, R62). -/
def execDomainIdleExpiry (domain : Nat) (s : State) : Ans :=
  .next (if domain = 0 ∨ !s.domOn domain ∨ s.power.hold.getLsbD domain ∨ !s.unneeded domain ∨ !idleNow s domain then s
    else s.onDom domain fun x => { x with st := .draining })

/-- DOMAIN_DRAINED: crossings are idle; a domain that another needs again, or that has work again, returns to ON; else, with every record of the domain acknowledged, it goes OFF, with a posting that cannot complete to FENCED (R60, R62, R64, R65). -/
def execDomainDrained (domain : Nat) (posted : Bool) (s : State) : Ans :=
  .next (if domain = 0 ∨ s.domSt domain ≠ .draining then s
    else if !s.power.draining ∧ (!s.unneeded domain ∨ !idleNow s domain) then takeUp (returnOn s domain) domain
    else if !posted then s.onDom domain fun x => { x with st := .fenced, powerOff := false }
    else if s.coll.posted.any (fun r => r.source == s.ctrlAddr && r.unit.toNat / 64 == domain) then s
    else startPending (s.onDom domain fun x => { x with st := .off, powerOff := true, missed := 0 }))

/-- LH_PD_HOLD takes a value: bits of absent domains stay 0, and the named domains wake (Table 2.7). -/
def setHold (s : State) (w : Word) : State :=
  let m := (List.range 24).foldl (fun n d => if d ≠ 0 ∧ s.domPresent d ∧ w.getLsbD d then n + 2 ^ d else n) 0
  let s := s.onPower fun p => { p with hold := BitVec.ofNat 24 m }
  (List.range 24).foldl (fun t d => if m.testBit d then wake t d else t) s

/-- LH_PD_HOLD_WRITE: a whole write by the steward; any other shape or role is dropped and recorded (R68, R85). -/
def execLhPdHoldWrite (portal size : Nat) (data : Word) (s : State) : Ans :=
  .next (if !s.portalOpen portal then s.emit (.unsupported portal)
    else match shapeOf 0x110 size with
      | .unsupported => s.emit (.unsupported portal)
      | .half _ | .narrow => accessSize s portal false size 0x110
      | .whole => if (s.portal portal).role ≠ .steward then regDenied s portal 0x110 else (setHold s data).emit (.writeDone portal))

/-! Clocks (R71, R469). -/

/-- PLL_LOCK_LOSS: every running domain that the PLL serves is recorded and fenced; the loss counts once (R71). -/
def execPllLockLoss (pll : Nat) (s : State) : Ans :=
  .next (
    let ds := (pllDomains pll).filter s.running
    if ds = [] then s
    else ds.foldl (fun t d => fenceDom (t.fault d 63 0x082 .degraded) d) (s.onPower fun p => { p with lockLoss := satAdd 0xFFFF p.lockLoss 1 }))

/-- AON_CLOCK_LOSS: D0 runs on its backup oscillator and asks for a power cycle; without HOLD_OSC both references are invalid (R469). -/
def execAonClockLoss (holdOsc : Bool) (s : State) : Ans :=
  .next (if !s.pins.d0Up ∨ s.pins.aonBackup then s
    else refUpdate (refUpdate (requestCycle (s.onPins fun p => { p with aonBackup := true, holdOsc := holdOsc }) 2) .a) .b)

/-! PERST_L (R468). -/

/-- PERST_RISE: with PORTAL_RDY high, the portal trains. -/
def execPerstRise (portal : Nat) (s : State) : Ans :=
  .next (if 8 ≤ portal then s
    else
      let s := s.onPins fun p => { p with perstLow := p.perstLow &&& ~~~(BitVec.ofNat 8 (2 ^ portal)) }
      if s.pins.portalRdy then trainPortal s portal else s)

/-- PERST_FALL: with PORTAL_RDY high, a partition reset of the portal starts. -/
def execPerstFall (portal : Nat) (s : State) : Ans :=
  .next (if 8 ≤ portal then s
    else
      let s := s.onPins fun p => { p with perstLow := p.perstLow ||| BitVec.ofNat 8 (2 ^ portal) }
      if s.pins.portalRdy && s.hasPortal portal then clearMsix (partitionReset s portal false .pin) portal else s)

/-! Temperature (R471, R472, R474). -/

/-- A throttle with its thresholds, in 0.125 °C. -/
def throttleAt (on : Bool) (t : BitVec 16) (hi lo : Int) : Bool := decide (hi ≤ t.toInt) || (on && decide (lo ≤ t.toInt))

/-- THROTTLE_CHANGE: the sensors are read; each change of a throttle counts. -/
def execThrottleChange (tj hbm : BitVec 16) (s : State) : Ans :=
  .next (if !s.pins.d0Up then s
    else s.onPins fun p =>
      let a := throttleAt p.throttleTj tj 800 760
      let b := throttleAt p.throttleHbm hbm 736 696
      let n := (if a = p.throttleTj then 0 else 1) + (if b = p.throttleHbm then 0 else 1)
      { p with tjMax := tj, hbmMax := hbm, tjPeak := if p.tjPeak.toInt < tj.toInt then tj else p.tjPeak
               throttleTj := a, throttleHbm := b, throttles := satAdd 0xFF p.throttles n })

/-- THERMAL_TRIP: a sensor reaches its trip: THERMTRIP_L falls, ACTIVE_L is released, D1 to D23 go off as in a power loss, the store too, and a power cycle is requested (R474, Table 15.6). -/
def execThermalTrip (tj hbm : BitVec 16) (s : State) : Ans :=
  .next (if !s.pins.d0Up ∨ s.pins.thermtripLow ∨ (tj.toInt < 944 ∧ hbm.toInt < 840) then s
    else
      let s := s.onPins fun p =>
        { p with thermtripLow := true, activeLow := false, portalRdy := false, tjMax := tj, hbmMax := hbm
                 tjPeak := if p.tjPeak.toInt < tj.toInt then tj else p.tjPeak }
      let s := (loseDomains s).onNv Nv.afterLoss
      requestCycle (s.onPower fun p => { p with hbmSelfRefresh := false }) 1)

/-! The test access port (R475, R476). -/

/-- The IDCODE of the part (R475). -/
def idcode (s : State) : BitVec 32 := BitVec.ofNat 32 (s.pins.stepMajor.toNat * 2 ^ 28 + s.pins.part.id * 2 ^ 12 + 0x43D * 2 + 1)

/-- The instruction register takes a code that selects a register and acts on the pins; 0 boundary scan, 1 identification, 2 bypass. -/
def tapLoad (s : State) (ir : Nat) (reg pins : Nat) : State :=
  s.onPins fun p => { p with tapIr := BitVec.ofNat 8 ir, tapReg := reg, tapPins := pins }

/-- TAP_RESET: IDCODE is selected and the pins are in functional use. -/
def execTapReset (s : State) : Ans := .next (tapLoad s 2 1 0)

/-- EXTEST: with CHIP_RST_L low, the boundary scan drives the pins; else bypass. -/
def execExtest (s : State) : Ans := .next (if s.pins.chipRstHigh then tapLoad s 0 2 0 else tapLoad s 0 0 1)

/-- SAMPLE_PRELOAD: the boundary scan register takes the cells sampled or shifted in; the pins are not touched. -/
def execSamplePreload (cells : List Bool) (s : State) : Ans := .next ((tapLoad s 1 0 0).onPins fun p => { p with tapBsr := cells })

/-- IDCODE: the identification register is selected. -/
def execIdcode (s : State) : Ans := .next ((tapLoad s 2 1 0).emit (.tdo 2 (idcode s)))

/-- CLAMP: with CHIP_RST_L low, the pins hold the boundary scan's values; bypass is selected. -/
def execClamp (s : State) : Ans := .next (tapLoad s 3 2 (if s.pins.chipRstHigh then 0 else 2))

/-- HIGHZ: with CHIP_RST_L low, the outputs float; bypass is selected. -/
def execHighz (s : State) : Ans := .next (tapLoad s 4 2 (if s.pins.chipRstHigh then 0 else 3))

/-- BYPASS: the 1-bit register is selected. -/
def execBypass (s : State) : Ans := .next (tapLoad s 0xFF 2 0)

/-- CASTIK_PRIVATE: a code that Table 15.14 gives to Castik: it selects bypass, and its effect with debug unlocked is not in the spec. -/
def execCastikPrivate (code : BitVec 8) (s : State) : Ans :=
  if code.toNat ≤ 4 ∨ code = 0xFF then .next s
  else if s.pins.debugUnlocked then .refused .castikPrivate
  else .next (tapLoad s code.toNat 2 0)

end Sys2Proof.Machine
end

