-- ==== Sys2Proof/Machine/Boot.lean ====
section
/-! DEFINITION. The boot steps: boot ROM, NV open, firmware, licences, memory and self-tests, model rebuild, plan check, discovery, agent firmware, base table set and topology agreement (chapter 8). -/

namespace Sys2Proof.Machine

/-- The keeper runs a boot step: D0 is up, CHIP_RST_L is high, and no drain or trip holds it. -/
def bootAt (s : State) (n : Nat) : Bool :=
  s.pins.d0Up && s.pins.chipRstHigh && !s.power.draining && !s.pins.thermtripLow && s.power.step == n

/-- Goes to a boot step. -/
def setStep (s : State) (n : Nat) : State := s.onPower fun p => { p with step := n }

/-- KEEPER_BOOT_ROM: step 1, fuses read; FAULT_L is released unless a record holds it (R254, R355). -/
def execKeeperBootRom (s : State) : Ans :=
  .next (if !bootAt s 1 then s
    else wake (driveFaultL ((setStep s 2).onPower fun p => { p with fusesRead := true })) 21)

/-! Step 2 (R421, R424). -/

/-- Readable anchor copies by die. -/
def goodAnchors (s : State) : List (Nat × Anchor) :=
  anchorDies.filterMap fun d => match s.nv.anchors.get d with
    | none => none
    | some a => if a.valid then some (d, a) else none

/-- The highest GEN among copies. -/
def topGen (l : List (Nat × Anchor)) : Nat := l.foldl (fun n q => Nat.max n q.2.gen) 0

/-- The anchor that wins, and whether copies are CONFLICTED (R421). -/
def anchorChoice (s : State) : Option Anchor × Bool :=
  let top := (goodAnchors s).filter fun q => q.2.gen == topGen (goodAnchors s)
  match top with
  | [] => (none, false)
  | q :: rest => if rest.all fun r => r.2 == q.2 then (some q.2, false) else (none, true)

/-- The anchor of a new generation after a scan, one above the highest GEN seen: the newest whole snapshot (R421). -/
def scanAnchor (s : State) : Anchor :=
  let gen := topGen (goodAnchors s) + 1
  if s.nv.dressStep = 4 then newAnchor s gen s.nv.dressJsn s.nv.snapJsn else newAnchor s gen s.nv.snapJsn s.nv.prevJsn

/-- An interrupted dressing ends as the winning anchor gives (Table 13.7). -/
def settleDressing (s : State) (a : Anchor) : State :=
  if s.nv.dressStep = 0 then s
  else
    let took := s.nv.dressStep = 4 ∧ a.snapJsn = s.nv.dressJsn
    let s := if took then
        let old := s.nv.snapJsn
        settleFull (s.onNv fun n =>
          { n with prevJsn := old, snapJsn := n.dressJsn, snapBad := false, dressings := satAdd 0xFFFF n.dressings 1
                   face := n.face.filter fun p => decide (old < p.last) })
      else nvFault s 4 0x24C .corrected 0
    let s := s.onNv fun n => { n with dressStep := 0 }
    match runningAct s 9 0 with
    | none => s
    | some r => endAct s r.id stFenced

/-- The code of a portal role. -/
def Role.ofCode (n : Nat) : Role :=
  match n with
  | 1 => .steward
  | 2 => .party
  | 3 => .auditor
  | _ => .none

/-- The portal policy of the plan in force takes effect (R81, Table 8.7). -/
def setPolicy (s : State) : State :=
  (List.range 8).foldl (fun t p => t.onPortal p fun q =>
    match t.fab.plan with
    | none => { q with role := .none, hewerLimit := 0, peerHash := 0 }
    | some pl =>
      let e := planPortal pl p
      { q with role := Role.ofCode (leAt e 0 1), hewerLimit := leAt e 2 2, peerHash := hashAt e 8 }) s

/-- An accepted plan that waits for this boot comes into force (R264). -/
def takeNextPlan (s : State) : State :=
  setPolicy (match s.fab.nextPlan with
    | none => s
    | some pl => s.onFab fun f => { f with plan := some pl, nextPlan := none })

/-- The pairing is read back: the unit joins as a standby, or as active where LEASE_L is low (R439, R449). -/
def takePairing (s : State) : State :=
  match s.nv.pairing, s.pair.paired with
  | some (unit, key, mac, arb), false =>
    let s := s.onPair fun p =>
      { p with paired := true, unit := unit, pairKey := key, peerMac := mac, arbiter := arb, role := if s.pins.leaseLow then .active else .standby }
    s.onPins fun p => { p with activeLow := p.leaseLow }
  | _, _ => s

/-- Losing copies of the anchor are rewritten, each recorded (R421). -/
def repairAnchors (s : State) (a : Anchor) : State :=
  let bad := anchorDies.filter fun d => s.nv.anchors.get d != some a
  let s := bad.foldl (fun t _ => nvFault t 4 0x24B .note 0) s
  s.onNv fun n => { n with anchorTodo := bad, gen := a.gen, anchorOk := BitVec.ofNat 3 ((anchorDies.filter fun d => !bad.contains d).foldl (fun w d => w + 2 ^ dieBit d) 0) }

/-- No bootable firmware: BOOT_FW is recorded and the boot stops at step 3 (R257). -/
def bootStops (s : State) : State := (s.fault 0 0 0x088 .fatal).onPower fun p => { p with stopped := true }

/-- No copy wins: a new generation from the scan is written on every anchor die (R421). -/
def newGeneration (s : State) (a : Anchor) : State := s.onNv fun n => { n with anchorTodo := anchorDies, gen := a.gen, anchorOk := 0 }

/-- The blocks that carry the factory marker are bad from the first opening of the store on, which no anchor copy has preceded (R411; log 200). -/
def factoryMarks (s : State) : State :=
  if s.nv.anchors ≠ [] then s
  else (Config.factoryBad.filter blockExists).foldl (fun t b => if (t.block b).bad then t else journalBlock (onBlock t b fun x => { x with bad := true }) b) s

/-- NV_OPEN: step 2: D21 wakes, and once it is ON the factory's bad blocks are marked at the first opening, the anchor is selected, and what the store keeps of time, keys, plan and pairing is read; with D21 FENCED no image can be read, and the boot stops at step 3 (R257, Table 8.1). -/
def execNvOpen (s : State) : Ans :=
  .next (if !bootAt s 2 then s
    else if s.domSt 21 = .fenced then bootStops (setStep s 3)
    else if !s.domOn 21 then wake s 21
    else
      let s := factoryMarks (s.onNv fun n => { n with restarting := false })
      let (win, conflict) := anchorChoice s
      let s := if conflict then (nvFault s 4 0x244 .degraded 0).onNv fun n => { n with conflicts := satAdd 0xFFFF n.conflicts 1 } else s
      let a := win.getD (scanAnchor s)
      let s := settleDressing s a
      let s := if win.isSome then repairAnchors s a else newGeneration s a
      let s := s.onTime fun t => { t with floor := Nat.max t.floor a.timeFloor }
      let s := if s.time.firstLock then s else s.onTime fun t => { t with now := Nat.max t.now t.floor }
      let s := if win.isSome then s.onFab fun f => { f with operatorKey := a.operatorKey } else s
      releaseWaits (takePairing (takeNextPlan (setStep s 3))))

/-! Step 3 (R257, R258, R272). -/

/-- The object of a controller firmware slot. -/
def slotImage (s : State) (n : Nat) : List Byte := ((s.nv.objects.get (objKey clsSlot n)).map (·.data)).getD []

/-- A controller manifest's fields are valid (R258). -/
def ctrlManifestFits (b : List Byte) : Bool :=
  let bytes := leAt b 8 4
  b.length == 192 && leAt b 0 4 == 0x584E4657 && decide (leAt b 6 1 ≤ 3) && decide (leAt b 7 1 ≤ 1) && zeroAt b 0x18 8 && zeroAt b 0x50 16 &&
    decide (8 ≤ bytes) && decide (bytes ≤ 67108864) && bytes % 8 == 0 && leAt b 0x0C 4 == 0 &&
    leAt b 0x10 4 % 8 == 0 && decide (leAt b 0x10 4 < bytes) && leAt b 0x14 4 % 8 == 0 && decide (leAt b 0x14 4 < bytes)

/-- A controller manifest and image pass, the floor apart: fields, key, signature, size and hash (R258). -/
def ctrlImagePasses (s : State) (b : List Byte) : Bool :=
  let m := b.take 192
  ctrlManifestFits m && !s.power.fwKeyRevoked.getLsbD (leAt m 6 1) &&
    Config.ecdsaVerify (Config.romKey 0 (leAt m 6 1)) (Config.sha384 (m.take 0x60)) (slice m 0x60 96) &&
    b.length == 192 + leAt m 8 4 && Config.sha384 (b.drop 192) == hashAt m 0x20

/-- SVN of an image with its manifest. -/
def imageSvn (b : List Byte) : Nat := leAt b 4 2

/-- A slot passes (R258, R260). -/
def slotPasses (s : State) (n : Nat) : Bool :=
  !s.nv.slotBad.getLsbD n && ctrlImagePasses s (slotImage s n) && decide (s.power.floor ≤ imageSvn (slotImage s n))

/-- The slot that boots: the passing one of the higher SVN, the lower number when equal. -/
def bootSlot (s : State) : Option Nat :=
  match slotPasses s 0, slotPasses s 1 with
  | true, true => some (if imageSvn (slotImage s 0) < imageSvn (slotImage s 1) then 1 else 0)
  | true, false => some 0
  | false, true => some 1
  | false, false => none

/-- This boot takes the fast path (R272). -/
def fastPathHolds (s : State) (slot : Nat) (hash : Hash) : Bool :=
  !s.power.cold && s.fab.lastOutcome == some (slot, hash) && s.fab.outcomeFw == s.fab.stagedFw && !s.fab.fatalSince && s.power.hbmSelfRefresh

/-- CONTROLLER_FW_VERIFY: step 3; no passing slot stops the boot with BOOT_FW (R257, R258). -/
def execControllerFwVerify (s : State) : Ans :=
  .next (if !bootAt s 3 then s
    else match bootSlot s with
      | none => if s.power.stopped then s else bootStops s
      | some n =>
        let b := slotImage s n
        let h := hashAt b 0x20
        let fast := fastPathHolds s n h
        let s := clearKind (s.onPower fun p =>
          { p with stopped := false, svn := imageSvn b, slot := n, imageHash := h, fastPath := fast
                   raisePending := (leAt b 7 1).testBit 0 && decide (p.floor < imageSvn b) }) 0x088
        let s := setStep s 4
        if s.pair.role = .standby ∨ s.pair.role = .relinquished then standbyRest s else wake s 22)

/-- LICENCE_EVALUATION: step 4, concurrent with step 5 (R8, Table 8.1). -/
def execLicenceEvaluation (s : State) : Ans :=
  .next (if !(bootAt s 4 || bootAt s 5) ∨ s.power.licDone then s
    else
      let s := (evaluate s).onPower fun p => { p with licDone := true, step := if s.pair.role = .standby ∨ s.pair.role = .relinquished then p.step else 5 }
      bootDomains s)

/-! Steps 6 to 8 (R255, R425). -/

/-- HBM_MEMORY_TEST: step 6; stacks that fail are recorded and fenced. -/
def execHbmMemoryTest (failed : List Nat) (s : State) : Ans :=
  .next (if !bootAt s 6 then s
    else
      let bad := failed.filter fun k => decide (k < s.pins.part.stacks)
      let s := bad.foldl (fun t k => (t.fault 22 k 0x084 .degraded).onPower fun p => { p with hbmFenced := p.hbmFenced ||| BitVec.ofNat 8 (2 ^ k) }) s
      setStep s 7)

/-- BRINGUP_SELF_TEST: step 7; units of D1 to D20 that fail are recorded, and the collector fences them. -/
def execBringupSelfTest (failed : List (Nat × Nat)) (s : State) : Ans :=
  .next (if !bootAt s 7 then s
    else
      let bad := failed.filter fun q => decide (1 ≤ q.1) && decide (q.1 ≤ 20) && s.domPresent q.1 && decide (q.2 < 64)
      setStep (bad.foldl (fun t q => t.fault q.1 q.2 0x084 .degraded) s) 8)

/-- Face pages that replay can read: pages before the first that has no unconflicted copy (R425). -/
def readablePages (l : List FPage) : List FPage := l.takeWhile fun p => !p.conflicted && (p.ok0 || p.ok1)

/-- The highest JSN of records. -/
def topJsn (n : Nat) (l : List JRec) : Nat := l.foldl (fun m r => Nat.max m r.jsn) n

/-- The model's replay: the snapshot or its predecessor, the readable face and the ledge; the last page's other copy is rewritten, and the counter goes on (R425). `snapOk`: SNAP passes its hash; a page of it found CONFLICTED also takes the predecessor. -/
def rebuild (s : State) (snapOk : Bool) : State :=
  let pages := readablePages s.nv.face
  let pages := match pages.getLast? with
    | none => pages
    | some p => pages.dropLast ++ [{ p with ok0 := true, ok1 := true }]
  let recs := pages.flatMap (·.recs) ++ s.nv.opn ++ s.nv.ledge ++ s.nv.ledgeOpn
  let bad := s.nv.snapBad || !snapOk
  let base := if bad then s.nv.prevJsn else s.nv.snapJsn
  s.onNv fun n => { n with face := pages, snapBad := bad, nextJsn := topJsn base recs + 1, durable := topJsn base (pages.flatMap (·.recs)) }

/-- MODEL_REBUILD: step 8, at boot or at a takeover, whose last JSN replayed is the unit's base JSN. `model`: the fabric model that the snapshot and the records yield, where it is another than the one held; on the fast path HBM holds the model, and only the face's tail is checked (R272, R425, R449, Table 8.1). -/
def execModelRebuild (snapOk : Bool) (model : Option (Fabric × Isles)) (s : State) : Ans :=
  .next (if !bootAt s 8 ∨ !s.domOn 22 ∨ !s.domOn 21 then s
    else
      let s := match if s.power.fastPath then none else model with
        | none => s
        | some m => { s with fab := { m.1 with st := s.fab.st, diffGen := s.fab.diffGen, diffs := s.fab.diffs, reqs := [] }, isles := m.2 }
      let s := rebuild s (snapOk || s.power.fastPath)
      let s := if s.pair.role = .takingOver then s.onPair fun p => { p with baseJsn := s.nv.nextJsn - 1 } else s
      setStep s 9)

/-! Step 9 (R264). -/

/-- PLAN_CHECK: step 9: the stored plan is in the model with its links; step 13 lists the limits that it breaks. `cables`: the switch port to which each quay's controller link is cabled (R34). -/
def execPlanCheck (cables : List (Nat × Nat)) (s : State) : Ans :=
  .next (if !bootAt s 9 then s
    else
      let s := s.onFab fun f => { f with cable := cables.foldl (fun m q => if q.1 < 4 then m.set q.1 q.2 else m) [] }
      let links := modelLinks s
      setStep (s.onFab fun f => { f with links := links }) 10)

/-! Step 10 (R265, R271). -/

/-- The roster's entry of an agent that has announced: a second MAC counts within the window of step 10 (R265, Table 7.2). -/
def announced (s : State) (r : Roster) (life : Life) (info fwStatus : Word) (mac : Nat) (idKey : Hash) (entry : Option Nat) : Roster :=
  { r with macs := if r.macs.contains mac then r.macs else if s.power.step = 10 ∨ 1 < r.macs.length then r.macs ++ [mac] else [mac], mac := mac, life := life, hcClass := fld info 55 48, memGib := fld info 47 32
           svn := fld fwStatus 47 32, idKey := idKey, entry := entry, fwFailed := false, fwMeas := 0, measKnown := false
           manifest := false, tenancy := if r.tenancy = .member then .member else .unscrubbed, slots := 0, debugSlots := 0, reported := false, leaving := false }

/-- LIFE of a code (Table 7.6). -/
def Life.ofCode (n : Nat) : Life :=
  match n with
  | 1 => .loading
  | 2 => .verifying
  | 3 => .running
  | 4 => .fwFault
  | 5 => .rejected
  | _ => .rom

/-- Step 13's outcome (R269). -/
def outcomeOf (l : List Diff) : FabState :=
  if l.any fun d => d.outcome == 2 then .held else if l.any fun d => d.outcome == 1 then .readyDegraded else .ready

/-- Positions whose agents are found and that no island holds, with their identities. -/
def baseMembers (s : State) : List (FAddr × Nat) :=
  match s.fab.plan with
  | none => []
  | some pl =>
    ((planPlaces pl 0x048).foldl (fun (m : FMap Unit) a => if present s a && islandOf s a == 0 then m.set a.toNat () else m) []).keys.filterMap fun k =>
      (s.agentAt (BitVec.ofNat 28 k)).map fun id => (BitVec.ofNat 28 k, id)

/-- An endpoint has a path over live links to every live quay endpoint (R281). -/
def reachesQuays (s : State) (a : FAddr) : Bool := (({ baseRegion s with members := [a] } : Region).quayGap s).isNone

/-- An installation over the unassigned endpoints that reach every quay endpoint and the switches whose circuits change, with the splices given (R38, R41, R45, R254, R281; log 183). -/
def baseInstall (s : State) (moves : List (Nat × Nat × Nat)) : State :=
  let s := moves.foldl (fun t m => sendAssign (t.onRoster m.2.2 fun r => { r with staged := some (BitVec.ofNat 28 m.1) }) m.2.2 (BitVec.ofNat 28 m.1)) s
  let t := asSpliced s moves
  let want := boundaryCircuits s 0 (wantCircuits t t.fab.spliced)
  let t := asJoined t want
  let ids := (baseMembers t).filter fun m => reachesQuays t m.1
  let g := baseRegion t
  let head : SetHead := { h := 0, epoch := 0, pkey := 0, sched := none, t0 := s.now }
  let banks := ids.map fun m => (m.2, false, g.bank t head (t.roster m.2) m.1)
  let sws := switchLoads s want fun _ => true
  startInstall s 0 { members := ids.map (·.2), switches := sws.map (·.1), circuits := want, moves := moves } (banks ++ sws)

/-- The floor has reached its goal: it is recorded, and the other slot is marked unusable when its SVN is below it (R260). -/
def floorRaised (s : State) : State :=
  let n := s.power.floor
  let other := 1 - s.power.slot
  let bad := decide (imageSvn (slotImage s other) < n)
  let s := s.onPower fun p => { p with raiseTo := 0 }
  let s := if bad then s.onNv fun v => { v with slotBad := v.slotBad ||| BitVec.ofNat 2 (2 ^ other) } else s
  journal s jFloor [BitVec.ofNat 64 n]

/-- The keeper blows one fuse of a raise that is due (R260; log 176). -/
def blowFuse (s : State) : State :=
  if s.power.raiseTo ≤ s.power.floor ∨ !s.pins.d0Up then s
  else
    let s := s.onPower fun p => { p with floor := p.floor + 1 }
    if s.power.floor = s.power.raiseTo then floorRaised s else s

/-- What an idle block does: fabric time counts on, and a due fuse is blown (R260; log 2, 176). -/
def idle (s : State) : State := blowFuse (tick s)

/-- The keeper starts to raise the anti-rollback floor to the running SVN, once (R260). -/
def raiseFloor (s : State) : State :=
  if !s.power.raisePending then s
  else s.onPower fun p => { p with raiseTo := Nat.min p.svn 128, raisePending := false }

/-- The words of a measurement. -/
def hashWords (h : Hash) : List Word := (List.range 6).map fun i => wordAt (hashBytes h) (8 * i)

/-- Endpoints found, spares included, that are in no island and not CLEAN are scrubbed (R315). -/
def scrubAll (s : State) : State :=
  (s.fab.roster.filter fun q => q.2.found && addrKind q.2.addr == 0 && (q.2.tenancy == .unscrubbed || q.2.tenancy == .quarantined)).foldl
    (fun t q => scrubEndpoint t q.1) s

/-- What an outcome leaves in the journal: time, outcome with slot and image hashes (R277, Table 13.4). -/
def recordOutcome (s : State) : State :=
  let good := s.fab.st == .ready || s.fab.st == .readyDegraded
  let s := (journal s jTime [BitVec.ofNat 64 s.now]).onTime fun t => { t with floor := Nat.max t.floor t.now }
  let s := if good then scrubAll s else s
  let s := journal s jOutcome ((at_ s.fab.st.code 0 ||| at_ s.power.slot 8) :: hashWords s.power.imageHash ++ s.fab.stagedFw.vals.flatMap hashWords)
  if good then s.onFab fun f => { f with lastOutcome := some (s.power.slot, s.power.imageHash), outcomeFw := f.stagedFw, fatalSince := false } else s

/-- A unit in TAKING_OVER whose outcome is set is ACTIVE, and moves the quay circuits to its own links without waiting for a boundary (R38, R450, Table 14.2). -/
def tookOver (s : State) : State :=
  if s.pair.role = .takingOver then
    let want := takeoverCircuits s (wantCircuits s s.fab.spliced)
    let sws := switchLoads s want fun _ => false
    let s := setRole s .active
    if sws = [] then s else startInstall s (singleKey 0) { switches := sws.map (·.1), circuits := want } sws
  else s

/-- The reset that this boot ends is over: LAST_US, and the record of a keeper watchdog clears (Tables 11.3, 11.11). -/
def endReset (s : State) : State :=
  if !s.power.resetting then s
  else
    let cold := s.power.cold
    let s := s.onPower fun p => { p with resetting := false }
    clearKind (if cold then s else setLastUs s s.power.chipAt) 0x089

/-- Step 13: the list is rewritten, the outcome set, and what a splice can cover is spliced as the fabric's first job boundary, while no island is live (R269). -/
def agree (s : State) : State :=
  let (diffs, moves) := agreement s
  let s := setFab s (outcomeOf diffs) (some diffs)
  if moves ≠ [] ∧ liveIslands s = [] ∧ (s.isles.installs.get 0).isNone then baseInstall s moves else s

/-- An outcome of step 13: the list and the state, the floor raised where nothing holds, and what the journal keeps of it (R260, R269, R277). -/
def outcome (s : State) : State :=
  let s := agree s
  recordOutcome (if s.fab.st = .held then s else raiseFloor s)

/-- An agent that announces after step 10: loaded, its difference removed, or step 13 run again where it held the fabric (R271). -/
def lateFound (s : State) (id : Nat) : State :=
  if s.power.step < 11 ∨ !(s.roster id).found then s
  else
    let s := loadAlone s id
    let s := if s.power.step = 14 ∧ (s.roster id).tenancy = .unscrubbed ∧ addrKind (placeAddr s id) = 0 then scrubEndpoint s id else s
    let mine (d : Diff) : Bool := (d.kind == 3 || d.kind == 4 || d.kind == 6 || d.kind == 7) && d.detail.toNat == id
    if s.power.step ≠ 14 then s
    else if s.fab.diffs.any fun d => mine d && d.outcome == 2 then outcome s
    else if s.fab.diffs.any mine then setFab s (outcomeOf (s.fab.diffs.filter fun d => !mine d)) (some (s.fab.diffs.filter fun d => !mine d))
    else s

/-- ANNOUNCE: the identity is looked up in the plan, assigned, held as a spare, retired, or listed as unexpected; a controller that is still before step 10 takes none (R265, R271). -/
def execAnnounce (agent life : Nat) (info fwStatus : Word) (mac : Nat) (idKey : Hash) (s : State) : Ans :=
  .next (if !s.domOn 23 ∨ s.power.step < 10 ∨ s.fab.st = .booting then s
    else
      let s := (heard s agent).onFab fun f =>
        { f with eseq := f.eseq.del agent, classFloor := f.classFloor.set (fld info 55 48) (Nat.max (f.classFloor.getD (fld info 55 48) 0) (fld fwStatus 31 16)) }
      let entry := s.fab.plan.bind fun pl => entryNumber pl agent
      let put (s : State) : State := s.onFab fun f =>
        { f with roster := f.roster.set agent (announced s (s.roster agent) (Life.ofCode life) info fwStatus mac idKey entry) }
      let s := match placeOf s agent with
        | .unknown => s.onFab fun f => { f with unexpected := if f.unexpected.contains agent then f.unexpected else f.unexpected ++ [agent] }
        | .retired =>
          let s := if (s.roster agent).addr = noAddr then s else clearRetired s (s.roster agent).addr
          (put s).onRoster agent fun r => { r with retired := true, found := false, addr := noAddr }
        | .spare pod slot => if (s.roster agent).retired then s else lateFound (assignFound (lifeKnown ((put s).onRoster agent fun r => { r with spare := some (pod, slot) }) agent) agent noAddr) agent
        | .at a => if (s.roster agent).retired then s else lateFound (assignFound (lifeKnown (put s) agent) agent a) agent
      discoveryCheck s)

/-- DISCOVERY: step 10 starts: D18 wakes, what was found before is forgotten, and agents that already have their place are queried (R265). -/
def execDiscovery (s : State) : Ans :=
  .next (if !bootAt s 10 ∨ s.fab.st = .discovering then s
    else
      let s := setFab (wake s 18) .discovering none
      let s := s.onFab fun f => { f with unexpected := [], roster := f.roster.mapVals fun _ r => { r with found := false, macs := [], manifest := false, measKnown := false, fwFailed := false } }
      let known := s.fab.roster.filter fun q => q.2.addr != noAddr || q.2.spare.isSome
      let s := if s.pair.timeLoad.isSome then s.quays.foldl (fun t q => match t.agentAt q.2.1 with
          | none => t
          | some id => toAgentOn t id .ordinary 0x22 0 0 0) s
        else s
      discoveryCheck (known.foldl (fun t q => sendRegs t q.1 (readItem 0x10 :: readItem 0x20 :: measItems)) s))

/-- DISCOVERY_WINDOW_END: DISCOVERY_MS has passed and step 10 ends (R265). -/
def execDiscoveryWindowEnd (s : State) : Ans := .next (if bootAt s 10 ∧ s.fab.st = .discovering then endDiscovery s else s)

/-! Steps 11 to 13. -/

/-- Agents that step 11 loads: found, with another image than the one staged, in no live island (R233, R266). -/
def loadList (s : State) : List (Nat × Roster) :=
  s.fab.roster.filter fun q => q.2.found && needsFirmware s q.1 && islandOf s (placeAddr s q.1) == 0

/-- AGENT_FW_LOAD: step 11: manifests by unicast, images with their FW_END to the groups in ascending row and class; agents whose measurement is still being read are loaded alone once it needs it (R266, R267). -/
def execAgentFwLoad (s : State) : Ans :=
  .next (if !bootAt s 11 ∨ s.fab.fwLoading then s
    else
      let l := loadList s
      if l = [] ∧ !measPending s then endFirmware s
      else
        let s := s.onFab fun f => { f with fwLoading := true, fwGaps := [], fwRepaired := false }
        let s := l.foldl (fun t q => sendManifest t q.1 0 false) s
        let groups := l.foldl (fun (m : FMap Nat) q =>
          let mac := fwGroup s (placeAddr s q.1) q.1
          m.set (mac % 64 * 2 ^ 48 + mac) q.2.hcClass) []
        let s := groups.foldl (fun t q => (t.emit (.fwGroup (q.1 % 2 ^ 48) q.2)).emit (.fwEnd (q.1 % 2 ^ 48) (chunkCount (stagedImage t q.2)))) s
        l.foldl (fun t q => sendRegs t q.1 (readItem 0x20 :: measItems)) s)

/-- FW_LOAD_TIMEOUT: 2 s after the first manifest, step 11 ends (R268). -/
def execFwLoadTimeout (s : State) : Ans := .next (if bootAt s 11 ∧ s.fab.fwLoading then endFirmware s else s)

/-- BASE_TABLE_SET: step 12, once the link reports are in: the base table set is installed; its end leads to step 13. -/
def execBaseTableSet (s : State) : Ans := .next (if !bootAt s 12 ∨ (s.isles.installs.get 0).isSome then s else baseInstall s [])

/-- TOPOLOGY_AGREEMENT: step 13: open installations are resolved, the outcome is set, the floor raised, and the boot or the takeover ends (R260, R269, R292). -/
def execTopologyAgreement (s : State) : Ans :=
  .next (if !bootAt s 13 then s
    else
      let s := s.isles.installs.foldl (fun t q => goOn (resolveInstall t q.1) q.1) s
      tookOver (endReset (outcome (setStep s 14))))

/-! Plans and images that arrive (R259, R263, R264). -/

/-- The policies of two plans are equal. -/
def samePortals (a b : List Byte) : Bool := slice a 0x110 512 == slice b 0x110 512

/-- An accepted plan is stored; a HELD fabric whose policy it keeps applies it at once and runs steps 9 to 13 again (R264). -/
def storePlan (s : State) (pl : List Byte) : State :=
  let s := putObject s clsPlan 0 pl
  if s.fab.st = .held ∧ (s.fab.plan.map (samePortals pl)) = some true then
    setStep (setFab (s.onFab fun f => { f with plan := some pl, nextPlan := none }) .booting none) 9
  else s.onFab fun f => { f with nextPlan := some pl }

/-- PLAN_LOAD: a plan from the steward (R263). -/
def execPlanLoad (ring : Nat) (index : BitVec 32) (buf : List Byte) (s : State) : Ans :=
  .next (serveJ ring index 0x10 buf s fun _ f args buf s =>
    if !zeroAt args 0 40 ∨ !planAccepted s buf then finish s ring f stInvalid
    else finish (storePlan s buf) ring f stOk)

/-- PLAN_ENROL: the first plan arrives through the tray controller channel and enrols its operator key in a new anchor generation (R263, R437). -/
def execPlanEnrol (fromArbiter : Bool) (plan : List Byte) (s : State) : Ans :=
  .next (if !s.pins.d0Up ∨ s.power.step < 3 ∨ !fromArbiter ∨ s.fab.operatorKey.isSome ∨ !planWellFormed plan ∨ !oneSteward plan ∨ !planSigned plan then s
    else
      let s := s.onFab fun f => { f with operatorKey := some (planKeyHash plan) }
      storePlan (s.onNv fun n => { n with gen := n.gen + 1, anchorTodo := anchorDies }) plan)

/-- A pattern set image keeps R399. -/
def patternFits (img : List Byte) (cls : Nat) : Bool :=
  let n := leAt img 4 4
  leAt img 0 2 != 0 && leAt img 2 1 == cls && decide (leAt img 3 1 < 16) && decide (1 ≤ n) && decide (n ≤ 340) && zeroAt img 8 8 &&
    img.length == 16 + 24 * n && (List.range n).all fun k => zeroAt img (16 + 24 * k + 1) 3 && leAt img (16 + 24 * k + 8) 8 % 64 == 0

/-- A manifest with its own MAGIC passes the checks of R227, signature over its own bytes. -/
def patternManifest (b : List Byte) : Bool :=
  leAt b 0 4 == 0x50415453 && manifestFits (leBytes 4 0x41474657 ++ b.drop 4) &&
    Config.ecdsaVerify (Config.romKey 2 (leAt b 6 1)) (Config.sha384 (b.take 0x60)) (slice b 0x60 96)

/-- The image behind a manifest has its size and hash. -/
def imageMatches (b : List Byte) : Bool := b.length == 192 + leAt b 8 4 && Config.sha384 (b.drop 192) == hashAt b 0x20

/-- FW_STAGE of a controller image (R259, R261). -/
def stageController (s : State) (buf : List Byte) : Nat × State :=
  if !ctrlImagePasses s buf ∨ imageSvn buf < s.power.floor then (stInvalid, s)
  else if 128 < imageSvn buf then (stFloor, s)
  else
    let n := 1 - s.power.slot
    (stOk, (putObject s clsSlot n buf).onNv fun v => { v with slotBad := v.slotBad &&& ~~~(BitVec.ofNat 2 (2 ^ n)) })

/-- FW_STAGE of an agent image (R259). -/
def stageAgent (s : State) (cls : Nat) (down : Bool) (buf : List Byte) : Nat × State :=
  let floor := s.fab.classFloor.getD cls 0
  let svn := imageSvn buf
  if manifestReason (buf.take 192) floor ≠ 0 ∨ !imageMatches buf ∨ (svn < s.fab.stagedSvn.getD cls 0 ∧ !down) then (stInvalid, s)
  else (stOk, (putObject s clsAgentFw cls buf).onFab fun f => { f with stagedFw := f.stagedFw.set cls (hashAt buf 0x20), stagedSvn := f.stagedSvn.set cls svn })

/-- Inserts a set into the library, sets of one class in ascending SET_ID. -/
def insertSet (p : PatSet) : List PatSet → List PatSet
  | [] => [p]
  | q :: l =>
    if q.hcClass = p.hcClass ∧ q.id = p.id then p :: l
    else if p.hcClass < q.hcClass ∨ (p.hcClass = q.hcClass ∧ p.id < q.id) then p :: q :: l
    else q :: insertSet p l

/-- FW_STAGE of a pattern set: stored, and sent to every running agent of its class (R399, R400); PATTERN_REJECTED (log 149). -/
def stagePattern (s : State) (cls : Nat) (down : Bool) (buf : List Byte) : Nat × State :=
  let img := buf.drop 192
  let p : PatSet := { id := leAt img 0 2, hcClass := cls, trigger := BitVec.ofNat 8 (leAt img 3 1), svn := imageSvn buf, image := img }
  let mine := s.integ.library.filter fun q => q.hcClass == cls
  let old := mine.find? fun q => q.id == p.id
  if !s.pins.part.hasIu then (stUnsupported, s)
  else if !patternManifest (buf.take 192) ∨ !imageMatches buf ∨ !patternFits img cls ∨ (((old.map (·.svn)).getD 0) > p.svn ∧ !down) then
    (stInvalid, s.fault 20 1 0x20B .note)
  else if old.isNone ∧ 256 ≤ mine.length then (stNoSpace, s)
  else
    let s := (putObject s clsPattern (cls * 65536 + p.id) buf).onInteg fun i => { i with library := insertSet p i.library }
    let ids := (s.fab.roster.filter fun q => q.2.hcClass == cls && q.2.life == .running).map (·.1)
    (stOk, ids.foldl (fun t id => (patternSlots t id).foldl (fun u q => sendPattern u id q.1 q.2) t) (wake s 18))

/-- FW_STAGE: a controller image, an agent image or a pattern set (R259, Table 8.2). -/
def execFwStage (ring : Nat) (index : BitVec 32) (buf : List Byte) (s : State) : Ans :=
  .next (serveJ ring index 0x13 buf s fun _ f args buf s =>
    let cls := leAt args 1 1
    let down := leAt args 2 1
    if 2 < leAt args 0 1 ∨ 1 < down ∨ !zeroAt args 3 29 ∨ (leAt args 0 1 = 0 ∧ (cls ≠ 0 ∨ down ≠ 0)) then finish s ring f stInvalid
    else
      let r := match leAt args 0 1 with
        | 0 => stageController s buf
        | 1 => stageAgent s cls (down == 1) buf
        | _ => stagePattern s cls (down == 1) buf
      finish r.2 ring f r.1)

end Sys2Proof.Machine
end

