-- ==== Sys2Proof/Machine/Maint.lean ====
section
/-! DEFINITION. Maintenance requests: claims and their redundancy groups, admission, cancellation, overrun and link retrains (R453 to R457). -/

namespace Sys2Proof.Machine

/-! Groups of Table 14.6. -/

/-- The group of a logical port. -/
def groupPort (a : FAddr) (p : Nat) : Nat := 1 * 2 ^ 68 + a.toNat * 16 + p
/-- The group DETOUR of a port. -/
def groupDetour (a : FAddr) (p : Nat) : Nat := 2 * 2 ^ 68 + a.toNat * 16 + p
/-- The group FEEDS. -/
abbrev groupFeeds : Nat := 4 * 2 ^ 68
/-- The group PAIR. -/
abbrev groupPair : Nat := 7 * 2 ^ 68

/-- The ports of a DETOUR word, up to the first 0xFF (R206). -/
def detourPorts (w : Word) : List Nat := ((List.range 8).map fun i => fld w (8 * i + 7) (8 * i)).takeWhile fun p => p != 0xFF

/-- The hops of the installed choices of a link of an endpoint. -/
def installedHops (s : State) (a : FAddr) (id l : Nat) : List (FAddr × Nat) :=
  [0, 1].flatMap fun k => pathHops s a (detourPorts (Bank.word (s.roster id).bank 3 l k))

/-- DETOUR groups of every port whose installed choice passes through one of the ports given. -/
def detourGroups (s : State) (ends : List (FAddr × Nat)) : List Nat :=
  s.fab.roster.flatMap fun q =>
    if q.2.addr = noAddr ∨ addrKind q.2.addr ≠ 0 then []
    else (List.range 16).filterMap fun l =>
      match (s.mlink q.2.addr l).port with
      | none => none
      | some p => if (installedHops s q.2.addr q.1 l).any ends.contains then some (groupDetour q.2.addr p) else none

/-- The ends of a link as logical ports. -/
def linkEnds (s : State) (a : FAddr) (l : Nat) : List (FAddr × Nat) :=
  let m := s.mlink a l
  (m.port.map fun p => (a, p)).toList ++ ((s.mlink m.nbr m.nbrLink).port.map fun p => (m.nbr, p)).toList

/-- The groups of a LINK claim. -/
def linkGroups (s : State) (a : FAddr) (l : Nat) : List Nat :=
  let ends := linkEnds s a l
  (ends.flatMap fun e => [groupPort e.1 e.2, groupDetour e.1 e.2]) ++ detourGroups s ends

/-- The link ends that the circuits of a switch carry. -/
def switchLinks (s : State) (sw : Nat) : List (FAddr × Nat) :=
  (s.fab.links.filter fun q => q.2.via == some sw).map fun q => (BitVec.ofNat 28 (q.1 / 16), q.1 % 16)

/-- The groups of a claim, none for a malformed one. -/
def claimGroups (s : State) (w : Word) : Option (List Nat) :=
  let id := fld w 59 0
  let addr : FAddr := BitVec.ofNat 28 id
  match fld w 63 60 with
  | 1 => if 2 ^ 32 ≤ id then none else some (linkGroups s (BitVec.ofNat 28 (id / 16)) (id % 16))
  | 2 => if 2 ^ 28 ≤ id then none else some ((List.range 16).flatMap (linkGroups s addr))
  | 3 => if 2 ^ 14 ≤ id then none else some ((switchLinks s id).flatMap fun q => linkGroups s q.1 q.2)
  | 4 => if 2 ≤ id then none else some [groupFeeds]
  | 5 => some [groupItem id]
  | 6 => if id ≠ 0 then none else some [groupAnchor]
  | 7 => if id = 1 ∨ id = 2 then some [groupPair] else none
  | _ => none

/-- The groups of a list of claims. -/
def claimsGroups (s : State) : List Word → Option (List Nat)
  | [] => some []
  | w :: ws =>
    match claimGroups s w, claimsGroups s ws with
    | some a, some b => some (a ++ b)
    | _, _ => none

/-- A claim word. -/
def claim (cls id : Nat) : Word := at_ cls 60 ||| at_ id 0

/-- The derived claims of an activity (Table 14.7), none for an unknown kind or a target out of range. -/
def derivedClaims (kind : Nat) (target : Word) : Option (List Word) :=
  let t := target.toNat
  match kind with
  | 1 => if t < 2 ^ 32 then some [claim 1 t] else none
  | 2 => if t < 2 ^ 28 then some [claim 2 t] else none
  | 3 => if t < 2 ^ 14 then some [claim 3 t] else none
  | 4 => if t < 2 then some [claim 4 t] else none
  | 5 => if t = 1 ∨ t = 2 then some [claim 7 t] else none
  | 6 => if t = 0 then some [claim 7 1, claim 7 2] else none
  | 7 => if t = 0 then some [] else none
  | _ => none

/-- Some circuit of a switch carries island traffic. -/
def carriesIsland (s : State) (sw : Nat) : Bool :=
  (switchLinks s sw).any fun q => islandOf s q.1 != 0 || islandOf s (s.mlink q.1 q.2).nbr != 0

/-- An activity is refused with INVALID (Table 14.7). -/
def activityBarred (s : State) (kind : Nat) (target : Word) (listed : List Word) : Bool :=
  let t := target.toNat
  match kind with
  | 1 => linkEnds s (BitVec.ofNat 28 (t / 16)) (t % 16) == []
  | 2 => islandOf s (BitVec.ofNat 28 t) != 0
  | 3 => carriesIsland s t
  | 4 => if t = 0 then !s.pins.feedB.valid else !s.pins.feedA.valid
  | 5 => !s.pair.paired || t == s.pair.unit + 1
  | 6 => !(s.pair.paired && s.pair.peerEligible && s.pair.role == .active)
  | 7 => listed == []
  | _ => true

/-- The claims that an entry lists. -/
def listedClaims (buf : List Byte) : List Word := (List.range (buf.length / 8)).map fun i => wordAt buf (8 * i)

/-- MAINT_REQUEST: an activity is admitted, queued or refused against its claims (R454). -/
def execMaintRequest (ring : Nat) (index : BitVec 32) (buf : List Byte) (s₀ : State) : Ans :=
  .next (serve ring index 0x60 buf s₀ fun _ f args buf s =>
    let kind := leAt args 0 1
    let target := wordAt args 8
    let maxS := leAt args 4 4
    let listed := listedClaims buf
    if (leAt args 1 1).testBit 0 then s₀
    else if leAt args 1 1 ≠ 0 ∨ leAt args 2 2 ≠ 0 ∨ maxS = 0 ∨ 86400 < maxS ∨ !zeroAt args 16 24 ∨ buf.length % 8 ≠ 0 ∨ 512 < buf.length then
      finish s ring f stInvalid
    else match derivedClaims kind target with
      | none => finish s ring f stInvalid
      | some own =>
        match claimsGroups s (own ++ listed) with
        | none => finish s ring f stInvalid
        | some groups =>
          if activityBarred s kind target listed then finish s ring f stInvalid
          else
            let waits := decide (64 ≤ s.pair.running.length) || (s.pair.running ++ s.pair.queued).any fun b => shareGroup groups b.groups
            if waits && decide (256 ≤ s.pair.queued.length) then finish s ring f stNoSpace
            else
              let (runs, s) := admitAct s { kind := kind, target := target, groups := groups, maxS := maxS }
              finish s ring f (if runs then stOk else stDeferred) (leBytes 2 s.pair.lastId))

/-- The activity that a steward's entry or a command may end: one of Table 14.7's numbered kinds. -/
def stewardAct (s : State) (id : Nat) : Option Activity :=
  (s.pair.running ++ s.pair.queued).find? fun a => a.id == id && decide (1 ≤ a.kind) && decide (a.kind ≤ 7)

/-- A steward's activity ends: its overrun clears, a boundary that waits for a retrain goes on, and with a switchover the unit acts on new records again. -/
def endSteward (s : State) (a : Activity) (status : Nat) : State :=
  let s := endAct s a.id status
  let s := clearRecs s fun r => r.kind == 0x289 && r.own == a.id
  if a.kind = 1 then waitDone s (4 * a.id)
  else if a.kind = 6 then s.onPair fun p => { p with switchJsn := none, switching := false }
  else s

/-- MAINT_CANCEL: a MAINT_REQUEST with CANCEL ends the activity that it names (R454). -/
def execMaintCancel (ring : Nat) (index : BitVec 32) (s₀ : State) : Ans :=
  .next (serve ring index 0x60 [] s₀ fun _ f args _ s =>
    if !(leAt args 1 1).testBit 0 then s₀
    else if leAt args 1 1 ≠ 1 then finish s ring f stInvalid
    else match stewardAct s (leAt args 2 2) with
      | none => finish s ring f stInvalid
      | some a => finish (endSteward s a stOk) ring f stOk (leBytes 2 a.id))

/-- MAINT_ACTIVITY_END: an activity's work has ended with a status; its claims go, MAINT_DONE is recorded and the queue is scanned (R454, R455). -/
def execMaintActivityEnd (activity status : Nat) (s : State) : Ans :=
  .next (match stewardAct s activity with
    | none => s
    | some a => if s.pair.running.contains a then endSteward s a status else s)

/-- MAINT_OVERRUN: a running activity has passed MAX_S; it keeps its claims (R457). -/
def execMaintOverrun (activity : Nat) (s : State) : Ans :=
  .next (match stewardAct s activity with
    | none => s
    | some a =>
      if a.overrun ∨ !s.pair.running.contains a then s
      else
        let s := s.onPair fun p => { p with running := p.running.map fun b => if b.id = a.id then { b with overrun := true } else b }
        s.fault 0 0 0x289 .degraded (own := a.id))

/-! Link retrains (R308, R456). -/

/-- An end of a link lies in an island. -/
def linkInIsland (s : State) (w : Word) : Bool :=
  let a : FAddr := BitVec.ofNat 28 (w.toNat / 16)
  islandOf s a != 0 || islandOf s (s.mlink a (w.toNat % 16)).nbr != 0

/-- A link has an end in one island. -/
def linkOfIsland (s : State) (w : Word) (h : Nat) : Bool :=
  let a : FAddr := BitVec.ofNat 28 (w.toNat / 16)
  islandOf s a == h || islandOf s (s.mlink a (w.toNat % 16)).nbr == h

/-- A running LINK_RETRAIN that may be at work: its boundary has started it, or no island has an end of its link. -/
def retrainWorks (s : State) (a : Activity) : Bool :=
  a.kind == 1 && s.pair.running.contains a && (s.pair.retrains.contains a.id || !linkInIsland s a.target)

/-- Writes one calibration record of an agent: element 4n + b, four words (R306, R308). -/
def takeCalib (s : State) (q : Nat × Nat × List Word) : State :=
  s.onRoster q.1 fun r => { r with
    calib := (List.range 4).foldl (fun m i => FMap.put m (4 * (q.2.1 % 64) + i) (q.2.2.getD i 0) 0) r.calib }

/-- Trains both ends of a link that its link id names (R27). -/
def trainBoth (s : State) (w : Word) : State :=
  let a : FAddr := BitVec.ofNat 28 (w.toNat / 16)
  let l := w.toNat % 16
  let m := s.mlink a l
  trainEnds s s [(a, l), (m.nbr, m.nbrLink)]

/-- LINK_RETRAIN: a retrain at work trains both ends of its link, so that dropped lanes are in use again, and writes the calibration records that it gathered; they take effect in the next table set (R27, R308, R456). -/
def execLinkRetrain (activity : Nat) (recs : List (Nat × Nat × List Word)) (s : State) : Ans :=
  .next (match stewardAct s activity with
    | none => s
    | some a => if !retrainWorks s a then s else recs.foldl takeCalib (trainBoth s a.target))

/-- RETRAIN_LIMIT: a retrain not finished 100 ms into the boundary is stopped and waits for the following one (R456). -/
def execRetrainLimit (activity : Nat) (s : State) : Ans :=
  .next (
    if s.pair.retrains.contains activity then
      waitDone (s.onPair fun p => { p with retrains := p.retrains.filter (· != activity) }) (4 * activity)
    else s)

/-- The retrains that an island's boundary starts (R456). -/
def dueRetrains (s : State) (h : Nat) : List Nat :=
  (s.pair.running.filter fun a => a.kind == 1 && !s.pair.retrains.contains a.id && linkOfIsland s a.target h).map (·.id)

end Sys2Proof.Machine
end

