-- ==== Sys2Proof/Machine/Pairing.lean ====
section
/-! DEFINITION. The pair: arbiter commands, the lease, journal shipping, takeover and relinquishing (R437 to R451). -/

namespace Sys2Proof.Machine

/-! The arbiter's commands (R437 to R440). -/

/-- A command of the arbiter is taken: from its address named at pairing (R437). -/
def fromArbiter (s : State) (src : Nat) : Bool := s.pins.d0Up && s.pair.paired && s.pair.arbiter == src

/-- A unit that has become a standby keeps only D0 and, on demand, D21: it resets as a relinquishing unit does. -/
def goCold (s : State) : State :=
  let s := fencePortals s
  let s := s.onFab fun f => { f with reqs := [] }
  startChip (if s.power.draining then s else s.onPower fun p => { p with resetting := false }) .tray

/-- PAIR: accepted on an unpaired unit; the pair key is derived and kept, and the role follows LEASE_L (R439, R440). -/
def execPair (src unit : Nat) (hashA hashB : Hash) (macA macB : Nat) (s : State) : Ans :=
  .next (if !s.pins.d0Up ∨ s.pair.paired ∨ s.pair.role ≠ .unpaired ∨ 1 < unit then s
    else
      let s := wake s 19
      let key := Config.pairKey hashA hashB + 1
      let mac := if unit = 0 then macB else macA
      let s := journal s jObject [0, 0, 0]
      let s := s.onNv fun n => { n with pairing := some (unit, key, mac, src) }
      let s := s.onPair fun p => { p with paired := true, unit := unit, pairKey := key, peerMac := mac, arbiter := src, txSeq := 0, rxSeq := 0, rejoined := false }
      if s.pins.leaseLow then setRole (s.onPins fun p => { p with activeLow := true }) .active
      else goCold (setRole s .standby))

/-- UNPAIR: the active unit becomes UNPAIRED (Table 14.2). -/
def execUnpair (src : Nat) (s : State) : Ans :=
  .next (if !fromArbiter s src ∨ s.pair.role ≠ .active then s
    else
      let s := journal (s.onPins fun p => { p with activeLow := false }) jObject [0, 0, 0]
      let s := s.onNv fun n => { n with pairing := none }
      setRole (s.onPair fun p =>
        { p with paired := false, unit := 0, pairKey := 0, peerMac := 0, arbiter := 0, txSeq := 0, rxSeq := 0, peerLost := false, peerEligible := false
                 arbiterOk := false, acked := 0, renewedJsn := 0, switchJsn := none, switching := false, rejoined := false }) .unpaired)

/-- The highest pair-durable JSN: durable here and acknowledged, or durable here while the peer is lost (R448). -/
def pairDurable (s : State) : Nat := if s.pair.peerLost then s.nv.durable else Nat.min s.nv.durable s.pair.acked

/-- The unit holds the lease: ACTIVE or TAKING_OVER. -/
def holdsLease (s : State) : Bool := s.pair.paired && (s.pair.role == .active || s.pair.role == .takingOver)

/-- LEASE_RENEW_TIMER: every 10 ms, through every reset below a power cycle (R442). -/
def execLeaseRenewTimer (s : State) : Ans :=
  .next (if !s.pins.d0Up ∨ !holdsLease s then s
    else
      let n := pairDurable s
      (s.onPair fun p => { p with renewedJsn := n }).emit (.pldm 3 (at_ s.pair.unit 0 ||| b1 s.pair.peerEligible 8) (BitVec.ofNat 64 n)))

/-- LEASE_ANSWER: the renewal is answered; ARBITER_LOST clears (R443). -/
def execLeaseAnswer (src remaining : Nat) (s : State) : Ans :=
  .next (if !fromArbiter s src ∨ !holdsLease s ∨ 2 ^ 64 ≤ remaining then s
    else clearKind (s.onPair fun p => { p with arbiterOk := true }) 0x281)

/-- ARBITER_SILENCE: 30 ms without an answer; the unit stays active while LEASE_L is low (R443). -/
def execArbiterSilence (s : State) : Ans :=
  .next (if !s.pins.d0Up ∨ !holdsLease s then s
    else (s.fault 0 5 0x281 .degraded).onPair fun p => { p with arbiterOk := false })

/-- FORCE_TAKEOVER: the takeover that the next grant starts is a forced one (R444). -/
def execForceTakeover (src : Nat) (s : State) : Ans :=
  .next (if fromArbiter s src ∧ s.pair.role = .standby then s.onPair fun p => { p with forced := true } else s)

/-- STANDBY_STATE: the standby tells the arbiter its highest written JSN and whether it has rejoined (R443, R444). -/
def execStandbyState (s : State) : Ans :=
  .next (if s.pins.d0Up ∧ s.pair.role = .standby then s.emit (.pldm 5 (BitVec.ofNat 64 s.nv.durable) (b1 s.pair.rejoined 0)) else s)

/-- A word arrives in one of the controller's own channels: stored with a mailbox wake event of D17 when the channel is empty, else dropped with the overflow bit (R110, Table 2.3; log 86). -/
def takeWord (s : State) (m : State → Mbox) (put : State → Mbox → State) (w : Word) : State :=
  if (m s).full then put s { m s with ovf := true } else wake (put s { m s with word := w, full := true }) 17

/-- TRAY_MB_WORD: MB_WORD of the tray controller (R438). -/
def execTrayMbWord (src : Nat) (word : Word) (s : State) : Ans :=
  .next (if fromArbiter s src then takeWord s (·.pair.trayIn) (fun t m => t.onPair fun p => { p with trayIn := m }) word else s)

/-- PLDM_FW_UPDATE: a boot that is stopped at step 3 takes a controller image, and step 3 starts again (R257). -/
def execPldmFwUpdate (image : List Byte) (s : State) : Ans :=
  .next (if !bootAt s 3 ∨ !s.power.stopped then s
    else (putObject s clsSlot 0 image).onNv fun v => { v with slotBad := v.slotBad &&& 2 })

/-! The lease line (R441, R450, R467). -/

/-- A takeover starts: ACTIVE_L, the record, steward activities ended, fabric time to load, and the domains of step 5 (R450, R457). -/
def takeover (s : State) : State :=
  let s := s.onPins fun p => { p with activeLow := true }
  let s := s.fault 0 5 0x283 .corrected (d1 := withBit0 (Config.openDetail 0x283 1 s.nonce []) s.pair.forced)
  let s := s.onPair fun p => { p with takeovers := satAdd 0xFFFF p.takeovers 1, forced := false, timeLoad := some [], peerLost := false, peerEligible := false, acked := 0 }
  let s := setRole s .takingOver
  let s := (s.pair.running ++ s.pair.queued).foldl (fun t a => if 1 ≤ a.kind ∧ a.kind ≤ 7 then endSteward t a stFenced else t) s
  let s := setFab s .booting none
  if 4 ≤ s.power.step then wake (s.onPower fun p => { p with step := if p.licDone then 5 else 4 }) 22 else s

/-- LEASE_L_FALL: the pin has held low for 160 ns; a standby takes over (R450, R467). -/
def execLeaseLFall (s : State) : Ans :=
  .next (
    let s := s.onPins fun p => { p with leaseLow := true }
    if s.pins.d0Up ∧ s.pair.role = .standby then takeover s else s)

/-- LEASE_L_RISE: the holder stops, fences its portals, releases ACTIVE_L, records LEASE_LOST and resets into standby (R441). -/
def execLeaseLRise (s : State) : Ans :=
  .next (
    let s := s.onPins fun p => { p with leaseLow := false }
    if !s.pins.d0Up ∨ !holdsLease s then s
    else
      let s := (s.onPins fun p => { p with activeLow := false }).fault 0 5 0x280 .degraded
      goCold ((setRole s .relinquished).onPair fun p => { p with rejoined := false, switchJsn := none, switching := false, timeLoad := none }))

/-! Journal shipping (R446 to R449). -/

/-- The landing port accepts a frame: EtherType, source, tag under the pair key, and a FRAME_SEQ above the last one; HELLO starts the sequence anew (R446). -/
def frameOk (s : State) (src etype ftype seq jsn : Nat) (payload : List Word) (tag : BitVec 128) : Bool :=
  s.pair.paired && etype == 0x88B6 && src == s.pair.peerMac && tag == Config.shipTag s.pair.pairKey ftype seq jsn payload &&
    (ftype == 5 || decide (s.pair.rxSeq < seq))

/-- A frame is taken and passed to D21, or dropped, counted and recorded; with D23 ON a frame of another EtherType is port 3's ordinary traffic, which the landing port leaves alone (R54, R61, R446). -/
def onFrame (s : State) (src etype ftype seq jsn : Nat) (payload : List Word) (tag : BitVec 128) (k : State → State) : State :=
  if !s.pins.d0Up ∨ (s.domOn 23 ∧ etype ≠ 0x88B6) then s
  else if frameOk s src etype ftype seq jsn payload tag then k (wake (s.onPair fun p => { p with rxSeq := seq }) 21)
  else (s.fault 0 8 0x284 .corrected).onPair fun p => { p with rejected := p.rejected + 1 }

/-- The first pending local record of a type, and the others. -/
def takeLocal (typ : Nat) : List JRec → Option JRec × List JRec
  | [] => (none, [])
  | r :: l => if r.typ = typ then (some r, l) else let q := takeLocal typ l; (q.1, r :: q.2)

/-- Record types that each unit writes for itself (R447). -/
def unitLocal (typ : Nat) : Bool := typ == jBlock || typ == jFloor || typ == jDressEnd

/-- What the standby writes under the JSN of a shipped record: the record, its own of a unit-local type or PAD, or for a PAD any record of its own (R447). -/
def ownRecord (l : List JRec) (r : JRec) : JRec × List JRec :=
  if unitLocal r.typ then
    match takeLocal r.typ l with
    | (some q, rest) => ({ q with jsn := r.jsn }, rest)
    | (none, rest) => ({ typ := jPad, jsn := r.jsn, time := r.time, body := [] }, rest)
  else if r.typ = jPad then
    match l with
    | [] => (r, [])
    | q :: rest => ({ q with jsn := r.jsn }, rest)
  else (r, l)

/-- The standby writes one shipped record into its own face; an OBJECT_DIR takes the object that came before it, and a controller image is staged with it (R447, R449). -/
def writeShipped (s : State) (r : JRec) : State :=
  if r.jsn ≠ s.nv.nextJsn then s
  else
    let q := ownRecord s.pair.localRecs r
    let s := if pagePayload < recBytes s.nv.opn + q.1.size + 24 then closePage s else s
    let s := s.onNv fun n => { n with opn := n.opn ++ [q.1], nextJsn := r.jsn + 1 }
    let s := s.onPair fun p => { p with localRecs := q.2 }
    if r.typ ≠ jObject then s
    else
      let cls := (r.body.getD 0 0).toNat
      let id := (r.body.getD 1 0).toNat
      let old := s.nv.objects.get (objKey cls id)
      let data := s.pair.objRecv
      let o : Obj := { version := (old.map (·.version)).getD 0 + 1, jsn := r.jsn, hash := Config.sha384 data, data := data, prev := old.map (·.data) }
      let s := s.onNv fun n => { n with
        objects := n.objects.set (objKey cls id) o
        slotBad := if cls = clsSlot then n.slotBad &&& ~~~(BitVec.ofNat 2 (2 ^ id)) else n.slotBad }
      s.onPair fun p => { p with objRecv := [] }

/-- SHIP_RECORDS: the standby writes each record under its JSN; the ACK follows when they are durable (R447). -/
def execShipRecords (src etype seq jsn : Nat) (recs : List JRec) (tag : BitVec 128) (s : State) : Ans :=
  .next (onFrame s src etype 1 seq jsn (recs.flatMap JRec.words) tag fun s =>
    if s.pair.role = .standby ∧ s.pair.rejoined then recs.foldl writeShipped s else s)

/-- A planned switchover has shipped everything: LEASE_RELEASE (R445). -/
def releaseLease (s : State) : State :=
  match s.pair.switchJsn with
  | none => s
  | some j => if j ≤ s.pair.acked then (s.emit (.pldm 6 0 0)).onPair fun p => { p with switchJsn := none } else s

/-- SHIP_ACK: the records it covers are pair-durable; a lost peer is eligible again once it covers what is durable here (R444, R448). -/
def execShipAck (src etype seq jsn : Nat) (tag : BitVec 128) (s : State) : Ans :=
  .next (onFrame s src etype 2 seq jsn [] tag fun s =>
    if !holdsLease s then s
    else
      let s := s.onPair fun p => { p with acked := Nat.max p.acked jsn }
      let s := if s.pair.peerLost ∧ s.nv.durable ≤ s.pair.acked then s.onPair fun p => { p with peerLost := false } else s
      let ok := !s.pair.peerLost && decide (s.pair.renewedJsn ≤ s.pair.acked)
      let s := s.onPair fun p => { p with peerEligible := ok }
      releaseLease (if ok then clearKind s 0x282 else s))

/-- PEER_ACK_TIMEOUT: 20 ms without a covering ACK: PEER_LOST, and the standby is declared ineligible (R448). -/
def execPeerAckTimeout (s : State) : Ans :=
  .next (if !s.pins.d0Up ∨ !holdsLease s ∨ s.pair.peerLost ∨ s.nv.durable ≤ s.pair.acked then s
    else
      let s := (s.fault 0 5 0x282 .degraded).onPair fun p => { p with peerLost := true, peerEligible := false }
      s.emit (.pldm 5 (BitVec.ofNat 64 s.pair.acked) 0))

/-- SHIP_SNAPSHOT: the standby takes a frame of the snapshot; after the last it writes its own snapshot and anchor generation (R447). -/
def execShipSnapshot (src etype seq jsn : Nat) (payload : List Word) (final : Bool) (tag : BitVec 128) (s : State) : Ans :=
  .next (onFrame s src etype 3 seq jsn payload tag fun s =>
    if s.pair.role ≠ .standby then s
    else
      let s := s.onPair fun p => { p with snapRecv := if final then 0 else p.snapRecv + 1 }
      if final then s.onNv fun n => { n with dressStep := 4, dressJsn := jsn, anchorTodo := anchorDies } else s)

/-- SHIP_OBJECT: the standby takes object data, which the next OBJECT_DIR names (R447). -/
def execShipObject (src etype seq jsn : Nat) (payload : List Word) (tag : BitVec 128) (s : State) : Ans :=
  .next (onFrame s src etype 4 seq jsn payload tag fun s =>
    if s.pair.role = .standby then s.onPair fun p => { p with objRecv := p.objRecv ++ payload.flatMap wordBytes } else s)

/-- The joining unit discards its records above the base JSN, records how many, and is a standby (R440, R449). -/
def rejoin (s : State) (base : Nat) : State :=
  let keep (l : List JRec) : List JRec := l.filter fun r => decide (r.jsn ≤ base)
  let all := s.nv.face.flatMap (·.recs) ++ s.nv.opn
  let gone := (all.filter fun r => decide (base < r.jsn)).length
  let s := s.onNv fun n =>
    { n with face := (n.face.map fun p => { p with recs := keep p.recs }).filter fun p => p.recs != [], opn := keep n.opn, nextJsn := base + 1, durable := Nat.min n.durable base }
  let s := (s.fault 0 5 0x28A .note (BitVec.ofNat 64 gone)).onPair fun p => { p with rejoined := true }
  if s.pair.role = .relinquished ∧ !s.power.resetting then setRole s .standby else s

/-- The face records above a JSN, in order. -/
def recordsAbove (s : State) (j : Nat) : List JRec := (s.nv.face.flatMap (·.recs) ++ s.nv.opn).filter fun r => decide (j < r.jsn)

/-- The active unit answers HELLO with its base JSN and ships what it holds above it, after its newest snapshot where the records do not reach back (R449). -/
def answerHello (s : State) : State :=
  let b := s.pair.baseJsn
  let s := shipFrame (s.onPair fun p => { p with txSeq := 0 }) 5 b []
  let l := recordsAbove s b
  let s := match l with
    | r :: _ => if r.jsn = b + 1 then s else shipFrame s 3 s.nv.snapJsn []
    | [] => s
  l.foldl (fun t r => shipFrame t 1 r.jsn r.words) s

/-- SHIP_HELLO: the active unit answers with its base JSN, the joining unit rejoins under it (R449). -/
def execShipHello (src etype seq jsn : Nat) (tag : BitVec 128) (s : State) : Ans :=
  .next (onFrame s src etype 5 seq jsn [] tag fun s =>
    if holdsLease s then answerHello s
    else if (s.pair.role = .standby ∨ s.pair.role = .relinquished) ∧ !s.pair.rejoined then rejoin s jsn
    else s)

/-- SHIP_MAILBOX: a word of the peer (R438). -/
def execShipMailbox (src etype seq jsn : Nat) (word : Word) (tag : BitVec 128) (s : State) : Ans :=
  .next (onFrame s src etype 6 seq jsn [word] tag fun s =>
    takeWord s (·.pair.peerIn) (fun t m => t.onPair fun p => { p with peerIn := m }) word)

/-- SWITCHOVER: an admitted switchover: the active unit stops acting on new records, ships up to its last JSN, and releases the lease once the standby has acknowledged it (R445). -/
def execSwitchover (s : State) : Ans :=
  .next (if !s.pins.d0Up ∨ s.pair.role ≠ .active ∨ !s.pair.paired ∨ (runningAct s 6 0).isNone then s
    else
      let s := closePage s
      releaseLease (s.onPair fun p => { p with switchJsn := some (s.nv.nextJsn - 1), switching := true }))

end Sys2Proof.Machine
end

