-- ==== Sys2Proof/Machine/Access.lean ====
section
/-! DEFINITION. The register map of a portal: what each register reads as, what a write does, and the cases of an access (R5, R13, R67, R68, R83 to R87, R119, R358, R404, R435). -/

namespace Sys2Proof.Machine

/-! The map (Table 3.2). -/

/-- An offset of BAR0 lies in a listed region. -/
def listed (off : Nat) : Bool :=
  decide (off < 0x1000) || (decide (0x10000 ≤ off) && decide (off < 0x10100)) || (decide (0x20000 ≤ off) && decide (off < 0x21000)) ||
    (decide (0x30000 ≤ off) && decide (off < 0x30040)) || (decide (0x40000 ≤ off) && decide (off < 0x42000)) ||
    (decide (0x100000 ≤ off) && decide (off < 0x900000))

/-- An offset belongs to an LH_ or PT_ register. -/
def lhPt (off : Nat) : Bool := decide (off < 0x30000)

/-- The domain of a register: D17 for the command interface, and that of a unit window CH_, FY_, TU_, IU_, NV_, MM_ or IO_; the HW_ window, whose registers the source does not list, names none (Tables 2.1, 3.2; log 134). -/
def windowDom (off : Nat) : Option Nat :=
  if 0x30000 ≤ off ∧ off < 0x30040 then some 17
  else if 0x200000 ≤ off ∧ off < 0x900000 then some (off / 0x100000 + 15)
  else none

/-- The register belongs to a unit that this part lacks (R5). -/
def absentAt (s : State) (off : Nat) : Bool :=
  match windowDom off with
  | none => false
  | some d => !s.domPresent d

/-! Values of LH_ registers. -/

/-- LH_CAP0 (Table 0.2). -/
def cap0 (s : State) : Word :=
  let p := s.pins.part
  at_ p.id 48 ||| at_ s.pins.stepMajor.toNat 44 ||| at_ s.pins.stepMinor.toNat 40 ||| at_ p.stacks 36 ||| at_ p.ioDies 34 |||
    at_ (2 ^ p.portals - 1) 24 ||| at_ (2 ^ p.benches - 1) 8

/-- LH_CAP2 (Table 0.4): 24 GiB a stack. -/
def cap2 (s : State) : Word :=
  let p := s.pins.part
  at_ (24 * p.stacks) 48 ||| at_ p.switchesK 32 ||| at_ 4 24 ||| at_ 4 16 ||| at_ 4 8

/-- Sixteen domain codes from domain `d` on; an absent domain reads 0 (Tables 2.5, 2.6). -/
def pdState (s : State) (d n : Nat) : Word :=
  (List.range n).foldl (fun w i => w ||| at_ (if s.domPresent (d + i) then (s.domSt (d + i)).code else 0) (4 * i)) 0

/-- LH_PD_IDLE (Table 2.8). -/
def pdIdle (s : State) : Word := at_ s.power.fyIdleMs.toNat 32 ||| at_ s.power.chIdleUs.toNat 16 ||| at_ s.power.benchIdleUs.toNat 0

/-- LH_CLK_STATUS (Table 2.11, log 34). -/
def clkStatus (s : State) : Word :=
  at_ s.power.lockLoss 32 ||| at_ 3 22 ||| b1 (s.pllLocked 20) 21 ||| b1 (s.pllLocked 19) 20 ||| b1 (s.pllLocked 18) 19 |||
    b1 (s.pllLocked 17) 18 ||| b1 (s.pllLocked 16) 17 |||
    (List.range 16).foldl (fun w n => w ||| b1 (decide (n < s.pins.part.benches) && s.pllLocked n) n) 0

/-- LH_BOOT_STATUS (Table 8.3). -/
def bootStatus (s : State) : Word :=
  let p := s.power
  at_ (p.svn % 65536) 48 ||| at_ p.floor 40 ||| b1 (p.floor == 128) 39 ||| b1 p.raisePending 38 ||| b1 p.fastPath 37 |||
    at_ (p.slot % 2) 36 ||| b1 p.cold 32 ||| at_ p.step 0

/-- Highest class among records, as its code. -/
def highestOf (l : List Rec) : Nat := l.foldl (fun m r => Nat.max m r.cls.code) 0

/-- LH_FAULT_STATUS (Table 11.8). -/
def faultStatus (s : State) : Word :=
  let c := s.coll
  at_ c.spoil 48 ||| at_ c.recoveries 32 ||| at_ (Nat.min (faultSources s).length 0xFFFF) 16 ||| at_ c.countOvf 8 |||
    b1 s.pins.faultLow 7 ||| at_ (highestOf c.uncleared) 4 ||| b1 c.first.isSome 0

/-- LH_SEV_CFG (Table 11.4). -/
def sevCfg (c : Coll) : Word :=
  at_ c.quietS.toNat 48 ||| at_ c.noteTMs.toNat 32 ||| at_ c.noteN.toNat 24 ||| at_ c.corrTMs.toNat 8 ||| at_ c.corrN.toNat 0

/-- LH_SEV_OVR_i (Table 11.5). -/
def SevOvr.word (o : SevOvr) : Word := b1 o.valid 63 ||| at_ o.kind.toNat 48 ||| at_ o.n.toNat 40 ||| at_ o.tMs.toNat 24

/-- LH_HANG_CFG (Table 11.12). -/
def hangCfg (e : Engine) : Word := at_ e.isletPortals.toNat 48 ||| at_ e.replayMs.toNat 32 ||| at_ e.hangs 0

/-- LH_RESET_STATUS (Table 11.11). -/
def resetStatus (p : Power) : Word :=
  at_ p.lastUs 32 ||| at_ p.cause.toNat 24 ||| at_ p.chipResets 16 ||| at_ p.escalations 8 ||| at_ p.lastLevel 0

/-- LH_FEED_STATUS (Table 14.5). -/
def feedStatus (p : Pins) : Word :=
  at_ p.feedB.mv.toNat 48 ||| at_ p.feedA.mv.toNat 32 ||| at_ p.shareA.toNat 24 ||| b1 p.feedB.oring 5 ||| b1 p.feedA.oring 4 |||
    b1 p.feedB.valid 1 ||| b1 p.feedA.valid 0

/-- LH_MAINT_STATUS (Table 14.9). -/
def maintStatus (p : PairSt) : Word := at_ p.deferrals 48 ||| at_ p.queued.length 32 ||| at_ p.running.length 24 ||| at_ (p.lastId % 65536) 0

/-- LH_THERM (Table 15.12). -/
def therm (p : Pins) : Word :=
  at_ p.tjMax.toNat 48 ||| at_ p.hbmMax.toNat 32 ||| at_ p.tjPeak.toNat 16 ||| at_ p.throttles 8 ||| b1 p.throttleHbm 1 ||| b1 p.throttleTj 0

/-- LH_PIN_STATUS (Table 15.13). -/
def pinStatus (p : Pins) : Word :=
  b1 p.debugUnlocked 15 ||| b1 p.portalRdy 14 ||| b1 p.activeLow 13 ||| b1 p.holdOsc 12 ||| b1 p.ppsB 11 ||| b1 p.ppsA 10 |||
    b1 p.aonBackup 8 ||| at_ p.perstLow.toNat 0

/-- A word of a fault record, zero where there is none. -/
def recWord (r : Option Rec) (i : Nat) : Word :=
  match r with
  | none => 0
  | some r => wordAt r.bytes (8 * i)

/-- The difference at a place of the list, in either register (Table 8.9). -/
def diffWord (s : State) (i : Nat) (hi : Bool) : Word :=
  match s.fab.diffs[i]? with
  | none => 0
  | some d => if hi then d.hi else d.lo

/-- An LH_ register by its offset; offsets that name none read zero. -/
def lhWord (s : State) (off : Nat) : Word :=
  if 0x800 ≤ off then diffWord s ((off - 0x800) / 16) (off % 16 == 8)
  else if 0x440 ≤ off ∧ off < 0x480 then recWord s.coll.first ((off - 0x440) / 8)
  else if 0x480 ≤ off ∧ off < 0x500 then (s.coll.ovr.getD ((off - 0x480) / 8) {}).word
  else if 0x500 ≤ off ∧ off < 0x540 then (s.power.fencedHw >>> (8 * (off - 0x500))).truncate 64
  else match off with
    | 0x000 => cap0 s
    | 0x008 => cap1 s
    | 0x010 => cap2 s
    | 0x018 => cap3 s
    | 0x100 => pdState s 0 16
    | 0x108 => pdState s 16 8
    | 0x110 => at_ s.power.hold.toNat 0
    | 0x118 => pdIdle s
    | 0x120 => clkStatus s
    | 0x128 => licReasonWord s
    | 0x200 => fabStatus s
    | 0x208 => bootStatus s
    | 0x300 => BitVec.ofNat 64 s.now
    | 0x308 => timeStatus s
    | 0x310 => timeOffset s
    | 0x318 => BitVec.ofNat 64 s.time.floor
    | 0x400 => faultStatus s
    | 0x408 => sevCfg s.coll
    | 0x410 => hangCfg s.eng
    | 0x420 => resetStatus s.power
    | 0x600 => pairStatus s
    | 0x608 => BitVec.ofNat 64 s.pair.acked
    | 0x620 => feedStatus s.pins
    | 0x640 => maintStatus s.pair
    | 0x700 => therm s.pins
    | 0x708 => pinStatus s.pins
    | _ => 0

/-! Values of PT_, CH_ and unit registers. -/

/-- Codes of PT_ID.ROLE (Table 3.1). -/
def Role.num : Role → Nat
  | .none => 0
  | .steward => 1
  | .party => 2
  | .auditor => 3

/-- Codes of PT_STATUS.STATE (Table 3.5). -/
def PtState.num : PtState → Nat
  | .down => 0
  | .resetting => 1
  | .ready => 2
  | .fenced => 3

/-- PT_ID (Table 3.3): POLICY_GEN is the GENERATION of the plan that carries the policy. -/
def ptId (s : State) (p : Nat) : Word :=
  at_ (((s.fab.plan.map fun b => leAt b 8 2).getD 0)) 32 ||| at_ (s.portal p).role.num 8 ||| at_ p 0

/-- PT_CTRL (Table 3.4). -/
def Portal.ctrl (q : Portal) : Word := b1 q.faultIrqEn 8 ||| b1 q.mbIrqEn 1 ||| b1 q.ringsEn 0

/-- PT_STATUS (Table 3.5). -/
def ptStatus (s : State) (p : Nat) : Word :=
  at_ (s.eng.rings.filter fun g => g.2.owner == p && g.2.st != .idle).length 32 ||| b1 (s.portal p).session.live 8 ||| at_ (s.portal p).st.num 0

/-- PT_FAULT_STATUS (Table 3.7). -/
def ptFaultStatus (q : Portal) : Word :=
  at_ q.spoil 48 ||| at_ (Nat.min q.queue.length 0xFFFF) 32 ||| at_ (highestOf (q.first.toList ++ q.next.toList ++ q.queue)) 4 |||
    b1 q.next.isSome 1 ||| b1 q.first.isSome 0

/-- PT_ACCESS_LOG (Table 3.8). -/
def Portal.accessLog (q : Portal) : Word :=
  at_ q.logCount 48 ||| at_ q.logEvent.toNat 34 ||| b1 q.logBar2 33 ||| b1 q.logWrite 32 ||| at_ q.logSize.toNat 28 ||| at_ q.logOffset.toNat 0

/-- PT_ registers and mailboxes; PT_MBO_DATA and PT_RESET are write-only. -/
def ptWord (s : State) (p off : Nat) : Word :=
  let q := s.portal p
  if 0x20400 ≤ off ∧ off < 0x20600 then
    let m := q.mbi.getD ((off - 0x20400) / 8) {}
    if m.full then m.word else 0
  else if 0x10040 ≤ off ∧ off < 0x10080 then recWord q.first ((off - 0x10040) / 8)
  else if 0x10080 ≤ off ∧ off < 0x100C0 then recWord q.next ((off - 0x10080) / 8)
  else match off with
    | 0x10000 => ptId s p
    | 0x10008 => q.ctrl
    | 0x10010 => ptStatus s p
    | 0x10020 => ptFaultStatus q
    | 0x10028 => q.accessLog
    | 0x10030 => if q.session.live then BitVec.ofNat 64 q.session.txSeq else 0
    | 0x10038 => if q.session.live then BitVec.ofNat 64 q.session.rxSeq else 0
    | 0x20800 => fullMask q.mbo
    | 0x20808 => fullMask q.mbi
    | 0x20810 => ovfMask q.mbo
    | 0x20818 => ovfMask q.mbi
    | _ => 0

/-- CH_ registers; CH_CMD is write-only (Tables 3.14 to 3.16). -/
def chWord (q : Portal) (off : Nat) : Word :=
  match off with
  | 0x30000 => q.arg0
  | 0x30008 => q.arg1
  | 0x30010 => q.arg2
  | 0x30018 => q.arg3
  | 0x30028 => at_ q.cmdStatus.toNat 32 ||| at_ q.cmdTag.toNat 16 ||| b1 q.cmdBusy 0
  | _ => 0

/-- FY_INSTALL, FY_INSTALL_PROGRESS and FY_INSTALL_TIME (Table 9.8). -/
def fyWord (i : Isles) (off : Nat) : Word :=
  match off with
  | 0x300000 => at_ i.fyIsland 48 ||| at_ i.fyEpoch 16 ||| at_ i.fyPhase.code 8 ||| at_ i.fyResult.toNat 0
  | 0x300008 => at_ i.fyAgents 32 ||| at_ i.fyAnswered 0
  | 0x300010 => at_ i.fyBoundaryUs 32 ||| at_ i.fyTotalUs 0
  | _ => 0

/-- Registers of the integrity unit for the island that the portal selects (Table 12.8). -/
def iuWord (s : State) (p off : Nat) : Word :=
  let c : IuCfg := match s.isles.islands.get (s.portal p).iuSel.toNat with
    | none => {}
    | some l => l.iuNext
  if off = 0x500000 then at_ (s.portal p).iuSel.toNat 0
  else if off = 0x500008 then c.cfg
  else if off = 0x500010 then c.plaus
  else if off = 0x500018 then c.limits
  else if 0x500020 ≤ off ∧ off < 0x5000A0 then c.desc.getD ((off - 0x500020) / 8) 0
  else 0

/-- Sum over the eight dies. -/
def overDies (f : Nat → Nat) : Nat := (List.range 8).foldl (fun n d => n + f d) 0

/-- Blocks retired or grown bad in the journal pool, or in bulk (Table 13.12). -/
def retiredBlocks (s : State) (slc : Bool) : Nat :=
  (s.nv.blocks.filter fun b => isSlc s b.1 == slc && (b.2.retired || b.2.bad)).length

/-- Highest erase count of a mode, per mille of its limit. -/
def wornest (s : State) (slc : Bool) : Nat :=
  s.nv.blocks.foldl (fun m b => if isSlc s b.1 = slc then Nat.max m (b.2.erases * 1000 / eraseLimit s b.1) else m) 0

/-- Registers of the NV store (Table 13.12). -/
def nvWord (s : State) (off : Nat) : Word :=
  let n := s.nv
  match off with
  | 0x600000 => BitVec.ofNat 64 n.durable
  | 0x600008 =>
    at_ (overDies (spareSlc s)) 48 ||| at_ (overDies (spareQlc s)) 32 ||| at_ (Nat.min (faceMib s) 0xFFF) 20 |||
      (List.range 4).foldl (fun w c => w ||| b1 (nvUnitUp s c) (16 + c)) 0 ||| at_ n.anchorOk.toNat 13 |||
      b1 (n.ledge != [] || n.ledgeOpn != []) 11 ||| b1 n.faceFull 10 ||| b1 n.singleCopy 9 ||| b1 (n.dressStep != 0) 8
  | 0x600010 => BitVec.ofNat 64 n.gen
  | 0x600018 => at_ n.dressMib.toNat 48 ||| at_ n.retSlcD.toNat 40 ||| at_ n.retQlcD.toNat 32 ||| at_ n.flushUs.toNat 0
  | 0x600020 =>
    at_ (Nat.min (retiredBlocks s true) 0xFFFF) 48 ||| at_ (Nat.min (retiredBlocks s false) 0xFFFF) 32 ||| at_ (wornest s true) 16 |||
      at_ (wornest s false) 0
  | 0x600028 => at_ n.repairs 32 ||| at_ n.conflicts 16 ||| at_ n.dressings 0
  | _ => 0

/-- What a whole register at an aligned offset of BAR0 reads as through a portal; reserved offsets read zero (R13). -/
def regWord (s : State) (p off : Nat) : Word :=
  if off < 0x1000 then lhWord s off
  else if off < 0x30000 then ptWord s p off
  else if off < 0x30040 then chWord (s.portal p) off
  else if off < 0x41000 then (s.portal p).words.getD off 0
  else if 0x300000 ≤ off ∧ off < 0x400000 then fyWord s.isles off
  else if 0x500000 ≤ off ∧ off < 0x600000 then iuWord s p off
  else if 0x600000 ≤ off ∧ off < 0x700000 then nvWord s off
  else 0

/-! Reads. -/

/-- The bytes of a register that a read of `size` bytes at `off` addresses. -/
def addressed (w : Word) (off size : Nat) : Word := (w >>> (8 * (off % 8))) &&& BitVec.ofNat 64 (2 ^ (8 * size) - 1)

/-- A read that covers all 8 bytes of PT_ACCESS_LOG or of an incoming mailbox clears it (Table 3.10, R110). -/
def clearRc (s : State) (p off : Nat) : State :=
  if off = 0x10028 then
    s.onPortal p fun q => { q with logCount := 0, logEvent := 0, logBar2 := false, logWrite := false, logSize := 0, logOffset := 0 }
  else if 0x20400 ≤ off ∧ off < 0x20600 then
    let n := (off - 0x20400) / 8
    s.onPortal p fun q => { q with mbi := q.mbi.set n { q.mbi.getD n {} with word := 0, full := false } }
  else s

/-- A read of at most 8 aligned bytes, its domain awake. -/
def readNow (s : State) (p off size : Nat) : State :=
  let w := regWord s p (off / 8 * 8)
  let s := if size = 8 then clearRc s p off else s
  s.emit (.readValue p (addressed w off size))

/-- A read of at most 8 aligned bytes (R5, R67). -/
def readPart (s : State) (p off size : Nat) : State :=
  match windowDom off with
  | none => readNow s p off size
  | some d => viaDomain s p d off size none fun s => readNow s p off size

/-- A doorbell reads as its ring's index of the host's side, zero for no ring, whatever the state of D17 (R97; log 160). -/
def doorbellWord (s : State) (p off : Nat) : Word :=
  match s.eng.rings.get (p * 2 ^ 19 + off / 8) with
  | none => 0
  | some g => at_ (if g.kind = .submit then g.prod else g.cons).toNat 0

/-- Offsets of the 8-byte units of a wide access. -/
def units (off size : Nat) : List Nat := (List.range (size / 8)).map fun i => off + 8 * i

/-- An access is wide: more than 8 bytes, 8-byte aligned, a multiple of 8 (Table 3.10). -/
def wide (off size : Nat) : Bool := decide (8 < size) && off % 8 == 0 && size % 8 == 0

/-- A part of an access completes other than as Unsupported Request; a doorbell written during a partition reset is dropped without a fault (R83, R119). -/
def partOk (s : State) (p : Nat) (bar2 write : Bool) (off : Nat) : Bool :=
  if bar2 then decide (off < 0x400000) && s.hasPortal p && (write || s.portalOpen p)
  else s.hasPortal p && listed off && (s.portalOpen p || (!write && lhPt off))

/-- A read performed, part by part for a wide one (R85, R86). -/
def readAccess (s : State) (p : Nat) (bar2 : Bool) (off size : Nat) : State :=
  let one (t : State) (o n : Nat) : State :=
    if bar2 then t.emit (.readValue p (addressed (doorbellWord t p o) o n)) else readPart t p o n
  if wide off size then
    if (units off size).all (partOk s p bar2 false) then (units off size).foldl (fun t o => one t o 8) s else s.emit (.unsupported p)
  else if shapeOf off size = .unsupported ∨ !partOk s p bar2 false off then s.emit (.unsupported p)
  else one s off size

/-- RC_REGISTER_READ: a read of a portal's registers by its shape; a read covering all 8 bytes of an RC register clears it (R85, R86). -/
def execRcRegisterRead (portal : Nat) (bar2 contiguous : Bool) (offset size : Nat) (s : State) : Ans :=
  .next (if !s.hasPortal portal then s
    else if !contiguous then s.emit (.unsupported portal)
    else readAccess s portal bar2 offset size)

/-! Writes. -/

/-- LH_SEV_CFG takes a value (Table 11.4). -/
def setSevCfg (s : State) (w : Word) : State :=
  s.onColl fun c =>
    { c with quietS := BitVec.ofNat 16 (fld w 63 48), noteTMs := BitVec.ofNat 16 (fld w 47 32), noteN := BitVec.ofNat 8 (fld w 31 24)
             corrTMs := BitVec.ofNat 16 (fld w 23 8), corrN := BitVec.ofNat 8 (fld w 7 0) }

/-- The override that a word spells (Table 11.5). -/
def sevOvrOf (w : Word) : SevOvr :=
  { valid := w.getLsbD 63, kind := BitVec.ofNat 12 (fld w 59 48), n := BitVec.ofNat 8 (fld w 47 40), tMs := BitVec.ofNat 16 (fld w 39 24) }

/-- LH_HANG_CFG takes a value; ISLET_PORTALS is settable only with its licence (R371, Table 11.12). -/
def setHangCfg (s : State) (w : Word) : State :=
  s.onEng fun e =>
    { e with isletPortals := if s.lic.valid.getLsbD 3 then BitVec.ofNat 8 (fld w 55 48) else 0, replayMs := BitVec.ofNat 16 (fld w 47 32)
             hangs := fld w 15 0 }

/-- LH_RESET: an engine reset, a chip reset, or REG_DENIED (Table 11.10). -/
def lhReset (s : State) (p : Nat) (w : Word) : State :=
  let d := fld w 12 8
  if fld w 2 0 = 4 then chipReset (s.emit (.writeDone p)) .software
  else if fld w 2 0 = 2 ∧ 1 ≤ d ∧ d ≤ 17 ∧ s.domPresent d then startEngine (s.emit (.writeDone p)) d .software
  else regDenied s p 0x418

/-- An LH_ register that only the steward writes: the power registers, the collector's, LH_THERM and LH_PIN_STATUS (R68, R358, chapter 15). -/
def stewardOnly (off : Nat) : Bool :=
  (decide (0x100 ≤ off) && decide (off < 0x120)) || (decide (0x400 ≤ off) && decide (off < 0x600)) || off == 0x700 || off == 0x708

/-- A whole write of an LH_ register; RO fields ignore it, and fields of type RS take it as RW ones do (R13, Table 0.7; log 148). -/
def lhWrite (s : State) (p off : Nat) (w : Word) : State :=
  if stewardOnly off ∧ (s.portal p).role ≠ .steward then regDenied s p off
  else if off = 0x418 then lhReset s p w
  else
    let s := s.emit (.writeDone p)
    if off = 0x110 then setHold s w
    else if off = 0x118 then s.onPower fun q =>
      { q with fyIdleMs := BitVec.ofNat 16 (fld w 47 32), chIdleUs := BitVec.ofNat 16 (fld w 31 16), benchIdleUs := BitVec.ofNat 16 (fld w 15 0) }
    else if off = 0x400 then setFaultStatus s w
    else if off = 0x408 then setSevCfg s w
    else if off = 0x410 then setHangCfg s w
    else if off = 0x120 then s.onPower fun q => { q with lockLoss := fld w 47 32 }
    else if off = 0x420 then s.onPower fun q =>
      { q with lastUs := fld w 63 32, cause := BitVec.ofNat 8 (fld w 31 24), chipResets := fld w 23 16, escalations := fld w 15 8, lastLevel := fld w 2 0 }
    else if off = 0x600 then s.onPair fun q => { q with takeovers := fld w 63 48, unit := fld w 36 36, paired := w.getLsbD 35 }
    else if off = 0x700 then s.onPins fun q => { q with tjPeak := BitVec.ofNat 16 (fld w 31 16), throttles := fld w 15 8 }
    else if off = 0x708 then s.onPins fun q => { q with aonBackup := w.getLsbD 8 }
    else if 0x480 ≤ off ∧ off < 0x500 then s.onColl fun c => { c with ovr := c.ovr.put ((off - 0x480) / 8) (sevOvrOf w) {} }
    else s

/-- PT_FAULT_STATUS: 1 frees the first-fault slot or the next-fault slot (Table 3.7). -/
def clearSlots (s : State) (p : Nat) (w : Word) : State :=
  let s := if w.getLsbD 0 then s.onPortal p fun q => { q with first := none } else s
  if w.getLsbD 1 then showNext (s.onPortal p fun q => { q with next := none }) p else s

/-- The state that an answer holds. -/
def landed (s : State) : Ans → State
  | .next t => t
  | .fault _ => s
  | .refused _ => s

/-- A whole write of a PT_ register or mailbox. -/
def ptWrite (s : State) (p off : Nat) (w : Word) : State :=
  if 0x20000 ≤ off ∧ off < 0x20200 then landed s (execPtMboDataWrite p ((off - 0x20000) / 8) w s)
  else
    let s := s.emit (.writeDone p)
    match off with
    | 0x10008 => setPtCtrl s p w
    | 0x10018 => if w.getLsbD 0 then partitionReset s p false .software else s
    | 0x10020 => clearSlots s p w
    | 0x20810 => s.onPortal p fun q => { q with mbo := clearOvf q.mbo w }
    | 0x20818 => s.onPortal p fun q => { q with mbi := clearOvf q.mbi w }
    | _ => s

/-- A CH_ register other than CH_CMD takes a whole write; an argument written while BUSY is 1 is dropped with CMD_BUSY (R92). -/
def chTake (s : State) (p off : Nat) (w : Word) : State :=
  if off < 0x30020 ∧ (s.portal p).cmdBusy then (s.portalFault p 0x003 .note 2 1 off).emit (.writeDone p)
  else
    (s.onPortal p fun q => match off with
      | 0x30000 => { q with arg0 := w }
      | 0x30008 => { q with arg1 := w }
      | 0x30010 => { q with arg2 := w }
      | 0x30018 => { q with arg3 := w }
      | _ => q).emit (.writeDone p)

/-- A whole write of a CH_ register: a command by R92; another register through D17, but dropped at once while a command runs (R67, R92). -/
def chWrite (s : State) (p off : Nat) (w : Word) : State :=
  if off = 0x30020 then chCmd s p (fld w 7 0) (BitVec.ofNat 16 (fld w 31 16))
  else if off < 0x30020 ∧ (s.portal p).cmdBusy then chTake s p off w
  else viaDomain s p 17 off 8 (some w) fun s => chTake s p off w

/-- A whole write of a register of the NV store: NV_CFG by the steward, each field at its nearest limit (R435). -/
def nvWrite (s : State) (p off : Nat) (w : Word) : State :=
  if off ≠ 0x600018 then s.emit (.writeDone p)
  else if (s.portal p).role ≠ .steward then regDenied s p off
  else (s.onNv fun n =>
    { n with dressMib := BitVec.ofNat 16 (clamp 64 768 (fld w 63 48)), retSlcD := BitVec.ofNat 8 (clamp 1 255 (fld w 47 40))
             retQlcD := BitVec.ofNat 8 (clamp 1 255 (fld w 39 32)), flushUs := BitVec.ofNat 16 (clamp 10 1000 (fld w 15 0)) }).emit (.writeDone p)

/-- A whole write of a register in a unit window, its domain awake. -/
def unitWrite (s : State) (p off : Nat) (w : Word) : State :=
  if off < 0x30040 then chTake s p off w
  else if off = 0x500100 then iuClear s p w
  else if 0x500000 ≤ off ∧ off < 0x600000 then iuWrite s p (off - 0x500000) w
  else if 0x600000 ≤ off ∧ off < 0x700000 then nvWrite s p off w
  else s.emit (.writeDone p)

/-- A whole write of an 8-byte register at an aligned offset of BAR0 (R5, R67, Table 3.10). -/
def writePart (s : State) (p off : Nat) (w : Word) : State :=
  if 0x30000 ≤ off ∧ off < 0x30040 then chWrite s p off w
  else match windowDom off with
  | some d => viaDomain s p d off 8 (some w) fun s => unitWrite s p off w
  | none =>
    if off < 0x1000 then lhWrite s p off w
    else if off < 0x30000 then ptWrite s p off w
    else if 0x40000 ≤ off ∧ off < 0x41000 then (s.onPortal p fun q => { q with words := q.words.put off w 0 }).emit (.writeDone p)
    else s.emit (.writeDone p)

/-- A write of one half of a split-writable register of BAR0: PT_CTRL and PT_FAULT_STATUS, whose writable bits all lie in the low half (Tables 3.4, 3.7). -/
def writeHalf (s : State) (p off : Nat) (hi : Bool) (w : Word) : State :=
  if off / 8 * 8 = 0x10008 ∨ off / 8 * 8 = 0x10020 then (if hi then s.emit (.writeDone p) else ptWrite s p (off / 8 * 8) w)
  else accessSize s p false 4 off

/-- A write performed by its shape; one of an aligned size to a unit that the part lacks is dropped and completes without a fault (R5, R83, R86, R87, Table 3.10). -/
def writeAccess (s : State) (p : Nat) (bar2 : Bool) (off : Nat) (data : List Byte) : State :=
  let size := data.length
  let part (t : State) (o : Nat) : State :=
    if bar2 then landed t (execDoorbellWrite p o 8 (wordAt data (o - off)) t) else writePart t p o (wordAt data (o - off))
  if wide off size then
    if (units off size).all (partOk s p bar2 true) then (units off size).foldl part s else s.emit (.unsupported p)
  else if shapeOf off size = .unsupported ∨ !partOk s p bar2 true off then s.emit (.unsupported p)
  else if bar2 then landed s (execDoorbellWrite p off size (BitVec.ofNat 64 (leAt data 0 size)) s)
  else if absentAt s off then s.emit (.writeDone p)
  else match shapeOf off size with
    | .whole => writePart s p off (wordAt data 0)
    | .half hi => writeHalf s p off hi (BitVec.ofNat 64 (leAt data 0 4))
    | .narrow | .unsupported => accessSize s p false size off

/-- REGISTER_WRITE: a write of a portal's registers is performed, or dropped under the access-size, role or reserved-value rules (R5, R68, R83 to R87). -/
def execRegisterWrite (portal : Nat) (bar2 contiguous : Bool) (offset : Nat) (data : List Byte) (s : State) : Ans :=
  .next (if !s.hasPortal portal then s
    else if !contiguous then s.emit (.unsupported portal)
    else writeAccess s portal bar2 offset data)

/-! Accesses held for a waking domain (R67). -/

/-- Takes the first held access of a portal that satisfies the test. -/
def takeHeld (s : State) (p : Nat) (f : HeldAccess → Bool) : Option HeldAccess × State :=
  match (s.portal p).held.find? f with
  | none => (none, s)
  | some h => (some h, s.onPortal p fun q => { q with held := q.held.erase h })

/-- PORTAL_ACCESS_RESUME: the oldest held access whose domain is ON is performed. -/
def execPortalAccessResume (portal : Nat) (s : State) : Ans :=
  .next (match takeHeld s portal fun h => s.domOn h.dom with
    | (none, s) => s
    | (some h, s) =>
      match h.write with
      | none => readNow s portal h.offset h.size
      | some w => unitWrite s portal h.offset w)

/-- PORTAL_ACCESS_TIMEOUT: the oldest held access whose domain is not ON ends at 100 µs, or where the domain is FENCED: a read returns zero, a write is dropped, and DOMAIN_ACCESS is recorded. -/
def execPortalAccessTimeout (portal : Nat) (s : State) : Ans :=
  .next (match takeHeld s portal fun h => !s.domOn h.dom with
    | (none, s) => s
    | (some h, s) =>
      (s.portalFault portal 0x002 .note (if h.write.isSome then 2 else 1) 1 h.offset).emit
        (if h.write.isSome then .writeDone portal else .readValue portal 0))

end Sys2Proof.Machine
end

