-- ==== Sys2Proof/Machine/SchedLoad.lean ====
section
/-! DEFINITION. SCHED_LOAD, the schedule cache, and the choice of a variant (R299 to R302). -/

namespace Sys2Proof.Machine

/-- A schedule that no island runs or awaits, and that is not cached, goes. -/
def gcScheds (s : State) : State :=
  let named := s.isles.islands.flatMap fun q => [q.2.sched, q.2.pendSched]
  s.onIsles fun e => { e with scheds := e.scheds.keep fun id q => q.cached || named.contains id }

/-- Stores an image under the next SCHED_ID; a cache that it would overfill evicts first (R302, R414). -/
def storeSched (s : State) (img : List Byte) (cached pin : Bool) : Nat × State :=
  let id := s.isles.nextSched
  let s := if cached then evictFor s 1 img.length (cachedScheds s).length else s
  let s := s.onIsles fun e => { e with scheds := e.scheds.set id { image := img, pin := pin, cached := cached }, nextSched := id + 1 }
  (id, if cached then putObject s clsSched id img else s)

/-- The image that an entry brings or names (R301). -/
def schedOf (s : State) (args buf : List Byte) : Option (List Byte) :=
  if buf ≠ [] then (if leAt args 8 8 = 0 ∧ imageHolds buf then some buf else none)
  else cachedImage s (leAt args 8 8)

/-- The status with which a SCHED_LOAD is refused, in the order of R301. -/
def schedRefusal (s : State) (args buf : List Byte) (img : List Byte) : Option Nat :=
  let h := leAt args 0 2
  let flags := leAt args 2 1
  let full := buf ≠ [] ∧ (flags.testBit 0 ∨ h = 0) ∧ cacheOver s ((cachedScheds s).filter (·.2.pin)) 1 img.length = true
  let rest (below : Bool) : Option Nat :=
    if schedUnlicensed s img then some stUnsupported
    else if below then some stSlip
    else if full then some stNoSpace
    else none
  if h = 0 then rest false
  else match s.isles.islands.get h with
    | none => some stInvalid
    | some l =>
      if !schedFits s img l.region || !wireFits s l.region img then some stInvalid
      else rest (belowFloor s l.region img)

/-- SCHED_LOAD: an image is stored, and pending for the island that the entry names; the completion carries SCHED_ID (R301, R302). -/
def execSchedLoad (ring : Nat) (index : BitVec 32) (buf : List Byte) (s : State) : Ans :=
  .next (serveJ ring index 0x30 buf s fun _ f args buf s =>
    let h := leAt args 0 2
    let flags := leAt args 2 1
    if s.domSt 18 = .fenced then finish s ring f stFenced
    else
      let s := wake s 18
      if 8 ≤ flags ∨ !zeroAt args 3 5 ∨ !zeroAt args 16 24 then finish s ring f stInvalid
      else match schedOf s args buf with
        | none => finish s ring f stInvalid
        | some img =>
          match schedRefusal s args buf img with
          | some st => finish s ring f st
          | none =>
            let (id, s) := if buf = [] then (leAt args 8 8, s) else storeSched s img (flags.testBit 0 || h == 0) (flags.testBit 1)
            let s := if buf = [] ∧ flags.testBit 1 then s.onIsles fun e => { e with scheds := e.scheds.upd id fun q => { q with pin := true } } else s
            let s := if h = 0 then s
              else
                let s := s.onIsland h fun l => { l with pendSched := id, autoVariant := flags.testBit 2 }
                journal s jModel [at_ 0x22 0 ||| at_ h 16, BitVec.ofNat 64 id]
            finish (gcScheds s) ring f stOk (leBytes 8 id))

/-! The variant of a boundary (R302). -/

/-- A cached image is a variant of another: PROGRAM, CLASS, SHAPE, CLOSED and member set are the same. -/
def isVariant (a b : List Byte) : Bool :=
  slice a 0x50 8 == slice b 0x50 8 && leAt a 6 1 == leAt b 6 1 && leAt a 8 4 == leAt b 8 4 && leAt a 0x0C 1 == leAt b 0x0C 1 &&
    leAt a 0x18 4 == leAt b 0x18 4 &&
    (match sectionsOf a (leAt a 0x18 4) 0x60, sectionsOf b (leAt b 0x18 4) 0x60 with
      | some (x, _), some (y, _) => (x.all fun q => y.any fun r => r.1 == q.1) && y.all fun q => x.any fun r => r.1 == q.1
      | _, _ => false)

/-- The better of two variants: the higher LANE_FLOOR, then the higher SCHED_ID. -/
def betterVariant (a b : Nat × Sched) : Nat × Sched :=
  let fa := leAt a.2.image 7 1
  let fb := leAt b.2.image 7 1
  if fa < fb ∨ (fa = fb ∧ a.1 < b.1) then b else a

/-- The variant that AUTO_VARIANT selects for an island as it will be, none where none qualifies (R302). -/
def pickVariant (s : State) (g : Region) (img : List Byte) : Option Nat :=
  let health := healthOf s g
  let lanes := lowestLanes s g
  let ok := (cachedScheds s).filter fun q =>
    isVariant q.2.image img && slice q.2.image 0x20 48 == health && decide (leAt q.2.image 7 1 ≤ lanes) && !schedUnlicensed s q.2.image
  match ok with
  | [] => none
  | q :: qs => some (qs.foldl betterVariant q).1

/-- The schedule of an island's next table set (R299, R301, R302, R309). -/
def nextSched (s : State) (l : Island) (g : Region) : Nat :=
  let base := if l.pendSched ≠ 0 then l.pendSched else l.sched
  let lapsed (id : Nat) : Bool := ((schedImage s id).map (schedUnlicensed s)).getD false
  let variant := if l.autoVariant then (schedImage s base).bind (pickVariant s g) else none
  match variant with
  | some id => id
  | none =>
    if lapsed base then 0
    else if ((schedImage s base).map fun i => schedFits s i g).getD false then base
    else 0

end Sys2Proof.Machine
end

