-- ==== Sys2Proof/Machine/Boundary.lean ====
section
/-! DEFINITION. Job boundaries: what waits for an island, and the installation that applies it (R12, R43 to R50, R302, R310 to R316, R397, R456). -/

namespace Sys2Proof.Machine

/-- States from which a boundary starts (R311). -/
def IslState.bounds : IslState → Bool
  | .opn => true
  | .keyed => true
  | .aborted => true
  | _ => false

/-- The box of the boundary: the island's own, or with RESHAPE the one given. -/
def boundaryBox (l : Island) (args : List Byte) : List Nat × List Nat :=
  if (leAt args 2 1).testBit 1 then (lowOf (leAt args 4 4), shapeOf4 (leAt args 8 4)) else (l.low, l.shape)

/-- The positions of the island under the boundary's box, before splices. -/
def boundaryPositions (s : State) (l : Island) (args : List Byte) : List FAddr :=
  if (leAt args 2 1).testBit 1 then boxMembers s (boundaryBox l args).1 (boundaryBox l args).2 else l.members

/-- The splices and losses of a boundary: failed members that stay in the box, and failed positions that a reshape takes in (R42, R43, R45, R312). -/
def boundaryMoves (s : State) (l : Island) (args : List Byte) : List (Nat × Nat × Nat) :=
  chooseMoves s true (failedIn s (leAt args 0 2) (boundaryPositions s l args)) []

/-- The members under the new epoch: lost positions are left out. -/
def boundaryMembers (s : State) (l : Island) (args : List Byte) : List FAddr :=
  withoutLost (boundaryMoves s l args) (boundaryPositions s l args)

/-- The status with which a boundary is refused, in the order of R311. -/
def boundaryRefusal (s : State) (h : Nat) (args buf : List Byte) : Option Nat :=
  let flags := leAt args 2 1
  if badParties s (leAt args 3 1) then some stDenied
  else if fabClosed s ∨ s.domSt 18 = .fenced then some stFenced
  else match s.isles.islands.get h with
    | none => some stInvalid
    | some l =>
      let box := boundaryBox l args
      let as := boundaryMembers s l args
      let stay := unmoved (boundaryMoves s l args) as
      if !l.st.bounds ∨ (flags ≠ 0 ∧ flags ≠ 2) ∨ leAt args 3 1 ≠ 0 ∨ 2 ^ 24 ≤ leAt args 4 4 ∨ !zeroAt args 0x0C 28 ∨ buf ≠ [] then some stInvalid
      else if badBox s box.1 box.2 ∨ as = [] ∨ membersBarred s h stay then some stInvalid
      else if membersScrubbing s h stay then some stBusy
      else if !admitted s h then some stUnsupported
      else none

/-- Targeted tests that wait for the boundary start (R397). -/
def startTests (s : State) (ids : List Nat) : List Nat × State :=
  let due := s.integ.waiting.filter fun t => ids.contains t.1
  let s := s.onInteg fun g => { g with waiting := g.waiting.filter fun t => !ids.contains t.1 }
  (due.map fun t => 4 * t.1 + 1, due.foldl (fun u t => sendTest u t.1 t.2.2 (BitVec.ofNat 12 t.2.1) 0 0) s)

/-- Link retrains that wait for the boundary start (R456). -/
def startRetrains (s : State) (h : Nat) : List Nat × State :=
  let due := dueRetrains s h
  (due.map fun k => 4 * k, s.onPair fun p => { p with retrains := p.retrains ++ due })

/-- JOB_BOUNDARY: ISLAND_CARVE that names an island starts its boundary, which applies everything that waits for it; at the last epoch the island is carved anew (R50, R311, R312). -/
def execJobBoundary (ring : Nat) (index : BitVec 32) (buf : List Byte) (s₀ : State) : Ans :=
  .next (serveJ ring index 0x20 buf s₀ fun _ f args buf s =>
    let h := leAt args 0 2
    if h = 0 then s₀
    else match boundaryRefusal s h args buf, s.isles.islands.get h, nextKey s with
      | some st, _, _ => finish s ring f st
      | none, some l, some key =>
        let last := l.epoch == 0xFFFFFFFF
        let box := boundaryBox l args
        let moves := boundaryMoves s l args
        let q : SetPlan :=
          { h := h, epoch := if last then 1 else l.epoch + 1, pkey := if last then key else l.pkey, low := box.1, shape := box.2
            members := boundaryMembers s l args, moves := moves, sched := 0, waits := [] }
        let q := { q with sched := nextSched (setState s q) l q.region }
        match setRefusal s q with
        | some (a, b) => finish s ring f stInvalid (List.replicate 8 0 ++ leBytes 4 a.toNat ++ leBytes 4 b.toNat)
        | none =>
          let s := wake s 18
          let s := setIsl (s.onIsland h fun x => { x with prev := x.st, entry := some (ring, index) }) h .boundary
          let stay := (withIds s q.members).map (·.2)
          let (tests, s) := startTests s stay
          let (trains, s) := startRetrains s h
          installSet s { q with waits := tests ++ trains } s.hasIu
      | none, _, _ => finish s ring f stNoSpace)

end Sys2Proof.Machine
end

