-- ==== Sys2Proof/Machine/FabricModel.lean ====
section
/-! DEFINITION. What a LINK_REPORT changes in the fabric model: lanes, neighbours and wrong circuits, and the table sets that follow the model (R34, R41, R224, R278, R294). -/

namespace Sys2Proof.Machine

/-- The lanes that the model holds of a reported link: a quay link's own while its circuit stands, none of the neighbour's end of one, else those of a link whose hello comes from the neighbour that the model holds (R34, R41). -/
def lanesOf (s : State) (a : FAddr) (l : Nat) (seen : Option (Nat × Nat)) (lanes : Nat) : Nat :=
  let m := s.mlink a l
  let right := match seen with
    | none => false
    | some (id, k) => s.agentAt m.nbr == some id && k == m.nbrLink
  match s.quayOf a l with
  | some n => if s.quayJoined n then lanes else 0
  | none => if right && !s.quayEnd a l then lanes else 0

/-- A hello from another neighbour than the model's over a link that a switch carries: the switch holds another map (R41; log 186). -/
def wrongMap (s : State) (a : FAddr) (l : Nat) (seen : Option (Nat × Nat)) : Option Nat :=
  let m := s.mlink a l
  match seen with
  | none => none
  | some (id, k) => if s.quayEnd a l ∨ (s.agentAt m.nbr = some id ∧ k = m.nbrLink) then none else m.via

/-- One item: lanes, margin and neighbour; a live link clears LINK_DEAD (R224). -/
def linkItem (s : State) (a : FAddr) (l : Nat) (nbr info : Word) : State :=
  let seen := if nbr.getLsbD 59 then some (fld nbr 55 0, fld nbr 63 60) else none
  let lanes := lanesOf s a l seen (fld info 2 0)
  let s := match wrongMap s a l seen with
    | none => s
    | some w => s.onFab fun f => { f with wrongMaps := insNat w f.wrongMaps }
  let s := s.onFab fun f => { f with links := f.links.upd (linkKey a l) fun m => { m with lanes := lanes, margin := fld info 15 8, seen := seen } }
  if lanes = 0 then s
  else clearRecs s fun r => r.source == a && r.kind == 0x101 && r.unit.toNat == 0x10 + l

/-- The time ports of the unassigned endpoints follow the fabric model: each whose TIME_PORT or TIME_ALT has changed gets an installation that names it alone; one that has an installation open is left to the next change (R278; log 180). -/
def retime (s : State) : State :=
  if s.power.step ≠ 14 then s
  else (s.fab.roster.filter fun q => q.2.found && q.2.addr != noAddr && addrKind q.2.addr == 0 && islandOf s q.2.addr == 0).foldl (fun t q =>
    if (t.isles.installs.get 0).isSome ∨ (t.isles.installs.get (singleKey q.1)).isSome ∨ Bank.word q.2.bank 6 0 5 = paramWord5 s q.2.addr then t
    else startInstall t (singleKey q.1) { members := [q.1] }
      [(q.1, false, (baseRegion t).bank t { h := 0, epoch := 0, pkey := 0, sched := none, t0 := t.now } q.2 q.2.addr)]) s

/-- What an island's open installation installs. -/
def Install.plan (x : Install) (h : Nat) : SetPlan :=
  { h := h, epoch := x.epoch, pkey := x.pkey, low := x.low, shape := x.shape, members := x.newMembers, moves := x.moves, sched := x.sched, waits := x.waits }

/-- A table set of the controller's own that is still being staged is built again from the new model; one that the model no longer allows fails (R47, R281, R294). -/
def rebuildSet (s : State) (h : Nat) (x : Install) : State :=
  if x.phase ≠ .staging ∨ x.ticket.isSome then s
  else
    let q := x.plan h
    if (setRefusal s q).isSome then failInstall s h stInvalid
    else
      let t := setState s q
      let head : SetHead := { h := h, epoch := x.epoch, pkey := x.pkey, sched := schedImage s x.sched, t0 := x.t1 }
      showAnswered ((withIds t q.members).foldl (fun u m => sendStage u m.2 h false (q.region.bank t head (t.roster m.2) m.1)) s) h

/-- The islands with an open installation whose members a change of the model touches (R294). -/
def rebuildSets (s : State) (a : FAddr) : State :=
  s.isles.installs.foldl (fun t q => if q.1 ≠ 0 ∧ q.1 < 1024 ∧ q.2.newMembers.contains a then rebuildSet t q.1 q.2 else t) s

/-- LINK_REPORT: neighbours and lanes of the agent's 16 links enter the model; a port that is live clears NO_DETOUR, and what is being built from the model follows it (R224, R278, R294). -/
def execLinkReport (agent : Nat) (items : List (Word × Word)) (s : State) : Ans :=
  .next (
    let s := heard s agent
    let a := (s.roster agent).addr
    if a = noAddr then s
    else
      let old := s.fab.links
      let s := s.onRoster agent fun r => { r with reported := true }
      let s := (List.range 16).foldl (fun t l => let q := items.getD l (0, 0); linkItem t a l q.1 q.2) s
      let s := if (List.range 8).all fun p => portSt s a p != 1 then clearAt s a 0x102 else s
      let s := if (List.range 16).any fun l => ((old.getD (linkKey a l) {}).lanes == 0) != ((s.mlink a l).lanes == 0) then rebuildSets s a else s
      retime (checkStale s))

end Sys2Proof.Machine
end

