-- ==== Sys2Proof/Machine/Spdm.lean ====
section
/-! DEFINITION. SPDM of the portals: negotiation, certificates, measurements, sessions, key updates and their end (R324 to R326, R476). PRESUMED: the response codes are those of DMTF DSP0274. -/

namespace Sys2Proof.Machine

/-- Changes a portal's session. -/
def State.onSession (s : State) (p : Nat) (f : Session → Session) : State := s.onPortal p fun q => { q with session := f q.session }

/-- The response that refuses a request: SPDM ERROR. -/
def spdmError (s : State) (p : Nat) : State := s.emit (.spdm p 0x7F [])

/-- A portal's link is up and it takes messages; the trust unit wakes to answer, and answers nothing but errors while it is FENCED. -/
def onSpdm (s : State) (p : Nat) (k : Session → State → State) : State :=
  if !s.hasPortal p ∨ (s.portal p).st = .down ∨ (s.portal p).st = .resetting ∨ !s.lic.evaluated then s
  else if s.domSt 19 = .fenced then spdmError s p
  else k (s.portal p).session (wake s 19)

/-- GET_VERSION: version 1.3; the negotiation starts again, and a live session goes on. -/
def execGetVersion (portal : Nat) (s : State) : Ans :=
  .next (onSpdm s portal fun _ s => (s.onSession portal fun x => { x with phase := if x.live then x.phase else 1 }).emit (.spdm portal 0x04 [0x13]))

/-- GET_CAPABILITIES: heartbeat of 30 s. -/
def execGetCapabilities (portal : Nat) (s : State) : Ans :=
  .next (onSpdm s portal fun x s =>
    if x.phase = 0 then spdmError s portal
    else (s.onSession portal fun x => { x with phase := Nat.max x.phase 2 }).emit (.spdm portal 0x61 [30]))

/-- NEGOTIATE_ALGORITHMS: SHA-384, ECDSA P-384 and AES-256-GCM, with the DHE group HYBRID_MLKEM1024_P384 (R325). -/
def execNegotiateAlgorithms (portal : Nat) (common : Bool) (group : BitVec 16) (s : State) : Ans :=
  .next (onSpdm s portal fun x s =>
    if x.phase < 2 ∨ !common ∨ group ≠ 1 then spdmError s portal
    else (s.onSession portal fun x => { x with phase := Nat.max x.phase 3, dheGroup := 1 }).emit (.spdm portal 0x63 (leBytes 2 1)))

/-- GET_DIGESTS: the digest of slot 0's chain. -/
def execGetDigests (portal : Nat) (s : State) : Ans :=
  .next (onSpdm s portal fun x s =>
    if x.phase < 3 then spdmError s portal else s.emit (.spdm portal 0x01 (hashBytes (Config.sha384 Config.certChain))))

/-- GET_CERTIFICATE: a part of slot 0's chain; no other slot exists. -/
def execGetCertificate (portal slot offset length : Nat) (s : State) : Ans :=
  .next (onSpdm s portal fun x s =>
    if x.phase < 3 ∨ slot ≠ 0 ∨ Config.certChain.length ≤ offset then spdmError s portal
    else s.emit (.spdm portal 0x02 ((Config.certChain.drop offset).take length)))

/-- CHALLENGE: the chain's digest and the nonce, signed by the device identity key; no report is signed with debug unlocked. -/
def execChallenge (portal slot : Nat) (nonce : List Byte) (s : State) : Ans :=
  .next (onSpdm s portal fun x s =>
    if x.phase < 3 ∨ slot ≠ 0 then spdmError s portal
    else
      let body := hashBytes (Config.sha384 Config.certChain) ++ slice nonce 0 32
      s.emit (.spdm portal 0x03 (body ++ Config.ecdsaSign (Config.sha384 body))))

/-- A measurement block: 1 IMAGE_HASH, inverted with debug unlocked, 2 SVN and floor, 3 LH_CAP3 and LH_LIC_REASON, 4 the portal policy's hash (R324, R476). -/
def measBlock (s : State) (n : Nat) : List Byte :=
  match n with
  | 1 => hashBytes (if s.pins.debugUnlocked then ~~~s.power.imageHash else s.power.imageHash)
  | 2 => leBytes 2 s.power.svn ++ leBytes 2 s.power.floor
  | 3 => wordBytes (cap3 s) ++ wordBytes (licReasonWord s)
  | _ => hashBytes (Config.sha384 (((s.fab.plan.map fun pl => slice pl 0x110 512)).getD (List.replicate 512 0)))

/-- GET_MEASUREMENTS: one block, or all four for 0xFF, signed with the nonce when asked. -/
def execGetMeasurements (portal block : Nat) (signed : Bool) (nonce : List Byte) (s : State) : Ans :=
  .next (onSpdm s portal fun x s =>
    if x.phase < 3 ∨ (block ≠ 0xFF ∧ (block = 0 ∨ 4 < block)) then spdmError s portal
    else
      let data := (if block = 0xFF then [1, 2, 3, 4] else [block]).flatMap (measBlock s)
      let body := data ++ slice nonce 0 32
      s.emit (.spdm portal 0x60 (if signed then body ++ Config.ecdsaSign (Config.sha384 body) else data)))

/-- KEY_EXCHANGE: refused where PEER_HASH is zero, a session is live, or the share is not a P-384 key and an ML-KEM key (R324, R325). -/
def execKeyExchange (portal : Nat) (half : BitVec 16) (share : List Byte) (s : State) : Ans :=
  .next (onSpdm s portal fun x s =>
    if x.phase < 3 ∨ x.dheGroup ≠ 1 ∨ x.live ∨ (s.portal portal).peerHash = 0 ∨ share.length ≠ 1664 ∨
        !Config.validPoint ([0x04] ++ share.take 96 ++ List.replicate 7 0) then spdmError s portal
    else
      let n := s.nonce
      let s := { s with nonce := n + 1 }
      let s := s.onSession portal fun x =>
        { x with phase := 4, draw := n, id := BitVec.ofNat 32 (half.toNat + 65536 * (n % 65536)), rxUpdates := 0, txUpdates := 0 }
      s.emit (.spdm portal 0x64 (leBytes 4 (s.portal portal).session.id.toNat ++ slice (Config.keyExchangeShare n share) 0 1664)))

/-- FINISH: mutual authentication: the leaf key hashes to PEER_HASH and the message verifies; the session is live with SEQ 1 in both directions (R115, R324). -/
def execFinish (portal : Nat) (leafKey auth : List Byte) (s : State) : Ans :=
  .next (onSpdm s portal fun x s =>
    if x.phase ≠ 4 then spdmError s portal
    else if Config.sha384 leafKey ≠ (s.portal portal).peerHash ∨ !Config.finishVerifies x.draw leafKey auth then
      spdmError (s.onSession portal fun x => { x with phase := 3 }) portal
    else
      (s.onSession portal fun x =>
        { x with phase := 5, live := true, rxKeyGen := Config.sessionKey x.draw 0 0, txKeyGen := Config.sessionKey x.draw 1 0, txSeq := 0, rxSeq := 1, rxSeen := [] }).emit
        (.spdm portal 0x65 []))

/-- HEARTBEAT: the session is kept. -/
def execHeartbeat (portal : Nat) (s : State) : Ans :=
  .next (onSpdm s portal fun x s => if x.live then s.emit (.spdm portal 0x68 []) else spdmError s portal)

/-- KEY_UPDATE: operation 1 renews the host-to-controller key, 2 both, each restarting SEQ; 3 verifies (R117, R326). -/
def execKeyUpdate (portal op : Nat) (s : State) : Ans :=
  .next (onSpdm s portal fun x s =>
    if !x.live ∨ op = 0 ∨ 3 < op then spdmError s portal
    else
      let s := if op = 3 then s else s.onSession portal fun x =>
        { x with rxUpdates := x.rxUpdates + 1, rxKeyGen := Config.sessionKey x.draw 0 (x.rxUpdates + 1), rxSeq := 1, rxSeen := [] }
      let s := if op = 2 then s.onSession portal fun x =>
          { x with txUpdates := x.txUpdates + 1, txKeyGen := Config.sessionKey x.draw 1 (x.txUpdates + 1), txSeq := 0 }
        else s
      s.emit (.spdm portal 0x69 [BitVec.ofNat 8 op]))

/-- A session ends: PT_STATUS.SESSION reads 0, and the portal's CONFIDENTIAL rings go to ERROR with SEAL_FAILED (R326, Table 3.13). -/
def endSession (s : State) (p : Nat) : State :=
  if !(s.portal p).session.live then s
  else
    let s := s.onSession p fun x => { phase := 3, dheGroup := x.dheGroup }
    (s.eng.rings.filter fun q => q.2.owner == p && q.2.confidential && (q.2.st == .idle || q.2.st == .active || q.2.st == .fenced)).foldl
      (fun t q => errorRing t q.1 stSeal q.2.cons) s

/-- END_SESSION: the host ends the session. -/
def execEndSession (portal : Nat) (s : State) : Ans :=
  .next (onSpdm s portal fun x s => if x.live then (endSession s portal).emit (.spdm portal 0x6C []) else spdmError s portal)

/-- HEARTBEAT_LOSS: a heartbeat period of 30 s has lapsed (R324, R326). -/
def execHeartbeatLoss (portal : Nat) (s : State) : Ans := .next (endSession s portal)

end Sys2Proof.Machine
end

