-- ==== Sys2Proof/Machine/Dispatch.lean ====
section
/-! DEFINITION. What each command does: one arm per constructor, each a call of its meaning. -/

namespace Sys2Proof.Machine

def exec (i : Instr) (s : State) : Host.Outcome State Fault Refusal :=
  match i with
  | .powerOn feed mv => Sys2Proof.Machine.execPowerOn feed mv s
  | .feedRangeChange feed mv shareA => Sys2Proof.Machine.execFeedRangeChange feed mv shareA s
  | .oringFault feed bad => Sys2Proof.Machine.execOringFault feed bad s
  | .bothFeedsFail => Sys2Proof.Machine.execBothFeedsFail s
  | .chipRstLFirstRise => Sys2Proof.Machine.execChipRstLFirstRise s
  | .chipReset => Sys2Proof.Machine.execChipReset s
  | .chipResetDrainEnd => Sys2Proof.Machine.execChipResetDrainEnd s
  | .keeperBootRom => Sys2Proof.Machine.execKeeperBootRom s
  | .nvOpen => Sys2Proof.Machine.execNvOpen s
  | .controllerFwVerify => Sys2Proof.Machine.execControllerFwVerify s
  | .licenceEvaluation => Sys2Proof.Machine.execLicenceEvaluation s
  | .licenceExpiryCheck => Sys2Proof.Machine.execLicenceExpiryCheck s
  | .hbmMemoryTest failed => Sys2Proof.Machine.execHbmMemoryTest failed s
  | .bringupSelfTest failed => Sys2Proof.Machine.execBringupSelfTest failed s
  | .modelRebuild snapOk model => Sys2Proof.Machine.execModelRebuild snapOk model s
  | .planCheck cables => Sys2Proof.Machine.execPlanCheck cables s
  | .discovery => Sys2Proof.Machine.execDiscovery s
  | .discoveryWindowEnd => Sys2Proof.Machine.execDiscoveryWindowEnd s
  | .agentFwLoad => Sys2Proof.Machine.execAgentFwLoad s
  | .fwLoadTimeout => Sys2Proof.Machine.execFwLoadTimeout s
  | .baseTableSet => Sys2Proof.Machine.execBaseTableSet s
  | .topologyAgreement => Sys2Proof.Machine.execTopologyAgreement s
  | .wakeEvent domain => Sys2Proof.Machine.execWakeEvent domain s
  | .domainReady domain => Sys2Proof.Machine.execDomainReady domain s
  | .domainWakeTimeout domain => Sys2Proof.Machine.execDomainWakeTimeout domain s
  | .domainIdleExpiry domain => Sys2Proof.Machine.execDomainIdleExpiry domain s
  | .domainDrained domain posted => Sys2Proof.Machine.execDomainDrained domain posted s
  | .pllLockLoss pll => Sys2Proof.Machine.execPllLockLoss pll s
  | .aonClockLoss holdOsc => Sys2Proof.Machine.execAonClockLoss holdOsc s
  | .pcieConfigRequest portal => Sys2Proof.Machine.execPcieConfigRequest portal s
  | .perstRise portal => Sys2Proof.Machine.execPerstRise portal s
  | .perstFall portal => Sys2Proof.Machine.execPerstFall portal s
  | .pcieResetEvent portal => Sys2Proof.Machine.execPcieResetEvent portal s
  | .ptResetGo portal => Sys2Proof.Machine.execPtResetGo portal s
  | .partitionResetDone portal => Sys2Proof.Machine.execPartitionResetDone portal s
  | .registerWrite portal bar2 contiguous offset data => Sys2Proof.Machine.execRegisterWrite portal bar2 contiguous offset data s
  | .rcRegisterRead portal bar2 contiguous offset size => Sys2Proof.Machine.execRcRegisterRead portal bar2 contiguous offset size s
  | .portalAccessResume portal => Sys2Proof.Machine.execPortalAccessResume portal s
  | .portalAccessTimeout portal => Sys2Proof.Machine.execPortalAccessTimeout portal s
  | .ptCtrlWrite portal offset size data => Sys2Proof.Machine.execPtCtrlWrite portal offset size data s
  | .ptFaultFirstClear portal => Sys2Proof.Machine.execPtFaultFirstClear portal s
  | .ptFaultNextClear portal => Sys2Proof.Machine.execPtFaultNextClear portal s
  | .lhFaultFirstClear portal data => Sys2Proof.Machine.execLhFaultFirstClear portal data s
  | .lhPdHoldWrite portal size data => Sys2Proof.Machine.execLhPdHoldWrite portal size data s
  | .lhResetEngine portal domain => Sys2Proof.Machine.execLhResetEngine portal domain s
  | .lhResetChip portal => Sys2Proof.Machine.execLhResetChip portal s
  | .iuRegisterWrite portal offset size data => Sys2Proof.Machine.execIuRegisterWrite portal offset size data s
  | .iuClear portal data => Sys2Proof.Machine.execIuClear portal data s
  | .doorbellWrite portal offset size data => Sys2Proof.Machine.execDoorbellWrite portal offset size data s
  | .ptMboDataWrite portal channel word => Sys2Proof.Machine.execPtMboDataWrite portal channel word s
  | .ptMbiDataRead portal channel => Sys2Proof.Machine.execPtMbiDataRead portal channel s
  | .ringCreate portal tag => Sys2Proof.Machine.execRingCreate portal tag s
  | .ringDestroy portal tag => Sys2Proof.Machine.execRingDestroy portal tag s
  | .ringFence portal tag => Sys2Proof.Machine.execRingFence portal tag s
  | .ringResume portal tag => Sys2Proof.Machine.execRingResume portal tag s
  | .ringReset portal tag => Sys2Proof.Machine.execRingReset portal tag s
  | .ringQuery portal tag => Sys2Proof.Machine.execRingQuery portal tag s
  | .ringRetarget portal tag => Sys2Proof.Machine.execRingRetarget portal tag s
  | .entryFetch ring read => Sys2Proof.Machine.execEntryFetch ring read s
  | .submitResume ring => Sys2Proof.Machine.execSubmitResume ring s
  | .nop ring index buf => Sys2Proof.Machine.execNop ring index buf s
  | .ctxStart ring index buf => Sys2Proof.Machine.execCtxStart ring index buf s
  | .ctxStop ring index buf => Sys2Proof.Machine.execCtxStop ring index buf s
  | .ctxReset ring index buf => Sys2Proof.Machine.execCtxReset ring index buf s
  | .mbBind ring index buf incoming channel ctx => Sys2Proof.Machine.execMbBind ring index buf incoming channel ctx s
  | .planLoad ring index buf => Sys2Proof.Machine.execPlanLoad ring index buf s
  | .licenceStore ring index buf => Sys2Proof.Machine.execLicenceStore ring index buf s
  | .licenceRemove ring index => Sys2Proof.Machine.execLicenceRemove ring index s
  | .fwStage ring index buf => Sys2Proof.Machine.execFwStage ring index buf s
  | .islandCarve ring index buf => Sys2Proof.Machine.execIslandCarve ring index buf s
  | .jobBoundary ring index buf => Sys2Proof.Machine.execJobBoundary ring index buf s
  | .islandRelease ring index => Sys2Proof.Machine.execIslandRelease ring index s
  | .islandReleaseResume island => Sys2Proof.Machine.execIslandReleaseResume island s
  | .islandStateScrubDone island => Sys2Proof.Machine.execIslandStateScrubDone island s
  | .islandMeasure ring index buf => Sys2Proof.Machine.execIslandMeasure ring index buf s
  | .islandAbort ring index buf => Sys2Proof.Machine.execIslandAbort ring index buf s
  | .abortResend island => Sys2Proof.Machine.execAbortResend island s
  | .schedLoad ring index buf => Sys2Proof.Machine.execSchedLoad ring index buf s
  | .dataKey ring index buf => Sys2Proof.Machine.execDataKey ring index buf s
  | .weightShare ring index buf => Sys2Proof.Machine.execWeightShare ring index buf s
  | .accept ring index buf => Sys2Proof.Machine.execAccept ring index buf s
  | .withdraw ring index buf => Sys2Proof.Machine.execWithdraw ring index buf s
  | .consent ring index buf => Sys2Proof.Machine.execConsent ring index buf s
  | .consentLapse island party => Sys2Proof.Machine.execConsentLapse island party s
  | .telemetryRead ring index buf => Sys2Proof.Machine.execTelemetryRead ring index buf s
  | .maintRequest ring index buf => Sys2Proof.Machine.execMaintRequest ring index buf s
  | .maintCancel ring index => Sys2Proof.Machine.execMaintCancel ring index s
  | .maintActivityEnd activity status => Sys2Proof.Machine.execMaintActivityEnd activity status s
  | .maintOverrun activity => Sys2Proof.Machine.execMaintOverrun activity s
  | .linkRetrain activity recs => Sys2Proof.Machine.execLinkRetrain activity recs s
  | .retrainLimit activity => Sys2Proof.Machine.execRetrainLimit activity s
  | .switchover => Sys2Proof.Machine.execSwitchover s
  | .placement => Sys2Proof.Machine.execPlacement s
  | .stopGraceExpiry c => Sys2Proof.Machine.execStopGraceExpiry c s
  | .faultedTimeout c => Sys2Proof.Machine.execFaultedTimeout c s
  | .wakeCause c cause => Sys2Proof.Machine.execWakeCause c cause s
  | .timeWake who => Sys2Proof.Machine.execTimeWake who s
  | .benchPrewake b => Sys2Proof.Machine.execBenchPrewake b s
  | .ticketComplete ctx ticket => Sys2Proof.Machine.execTicketComplete ctx ticket s
  | .add who ins => Sys2Proof.Machine.execAdd who ins s
  | .sub who ins => Sys2Proof.Machine.execSub who ins s
  | .mul who ins => Sys2Proof.Machine.execMul who ins s
  | .mulh who ins => Sys2Proof.Machine.execMulh who ins s
  | .div who ins => Sys2Proof.Machine.execDiv who ins s
  | .rem who ins => Sys2Proof.Machine.execRem who ins s
  | .and who ins => Sys2Proof.Machine.execAnd who ins s
  | .or who ins => Sys2Proof.Machine.execOr who ins s
  | .xor who ins => Sys2Proof.Machine.execXor who ins s
  | .shl who ins => Sys2Proof.Machine.execShl who ins s
  | .shr who ins => Sys2Proof.Machine.execShr who ins s
  | .rot who ins => Sys2Proof.Machine.execRot who ins s
  | .cmp who ins => Sys2Proof.Machine.execCmp who ins s
  | .sel who ins => Sys2Proof.Machine.execSel who ins s
  | .bit who ins => Sys2Proof.Machine.execBit who ins s
  | .minmax who ins => Sys2Proof.Machine.execMinmax who ins s
  | .addi who ins => Sys2Proof.Machine.execAddi who ins s
  | .muli who ins => Sys2Proof.Machine.execMuli who ins s
  | .andi who ins => Sys2Proof.Machine.execAndi who ins s
  | .ori who ins => Sys2Proof.Machine.execOri who ins s
  | .xori who ins => Sys2Proof.Machine.execXori who ins s
  | .shli who ins => Sys2Proof.Machine.execShli who ins s
  | .shri who ins => Sys2Proof.Machine.execShri who ins s
  | .roti who ins => Sys2Proof.Machine.execRoti who ins s
  | .cmpi who ins => Sys2Proof.Machine.execCmpi who ins s
  | .kmov who ins => Sys2Proof.Machine.execKmov who ins s
  | .movi who ins => Sys2Proof.Machine.execMovi who ins s
  | .kop who ins => Sys2Proof.Machine.execKop who ins s
  | .br who ins => Sys2Proof.Machine.execBr who ins s
  | .jal who ins => Sys2Proof.Machine.execJal who ins s
  | .jr who ins => Sys2Proof.Machine.execJr who ins s
  | .jrl who ins => Sys2Proof.Machine.execJrl who ins s
  | .loop who ins => Sys2Proof.Machine.execLoop who ins s
  | .ld who ins => Sys2Proof.Machine.execLd who ins s
  | .st who ins => Sys2Proof.Machine.execSt who ins s
  | .ldx who ins => Sys2Proof.Machine.execLdx who ins s
  | .stx who ins => Sys2Proof.Machine.execStx who ins s
  | .amo who ins => Sys2Proof.Machine.execAmo who ins s
  | .cas who ins => Sys2Proof.Machine.execCas who ins s
  | .vadd who ins => Sys2Proof.Machine.execVadd who ins s
  | .vsub who ins => Sys2Proof.Machine.execVsub who ins s
  | .vmul who ins => Sys2Proof.Machine.execVmul who ins s
  | .vfma who ins => Sys2Proof.Machine.execVfma who ins s
  | .vand who ins => Sys2Proof.Machine.execVand who ins s
  | .vor who ins => Sys2Proof.Machine.execVor who ins s
  | .vxor who ins => Sys2Proof.Machine.execVxor who ins s
  | .vshl who ins => Sys2Proof.Machine.execVshl who ins s
  | .vshr who ins => Sys2Proof.Machine.execVshr who ins s
  | .vminmax who ins => Sys2Proof.Machine.execVminmax who ins s
  | .vcmp who ins => Sys2Proof.Machine.execVcmp who ins s
  | .vsel who ins => Sys2Proof.Machine.execVsel who ins s
  | .vbcast who ins => Sys2Proof.Machine.execVbcast who ins s
  | .vext who ins => Sys2Proof.Machine.execVext who ins s
  | .vins who ins => Sys2Proof.Machine.execVins who ins s
  | .vcvt who ins => Sys2Proof.Machine.execVcvt who ins s
  | .vld who ins => Sys2Proof.Machine.execVld who ins s
  | .vst who ins => Sys2Proof.Machine.execVst who ins s
  | .vgather who ins => Sys2Proof.Machine.execVgather who ins s
  | .vscatter who ins => Sys2Proof.Machine.execVscatter who ins s
  | .vred who ins => Sys2Proof.Machine.execVred who ins s
  | .vperm who ins => Sys2Proof.Machine.execVperm who ins s
  | .viota who ins => Sys2Proof.Machine.execViota who ins s
  | .vcompress who ins => Sys2Proof.Machine.execVcompress who ins s
  | .srd who ins => Sys2Proof.Machine.execSrd who ins s
  | .swr who ins => Sys2Proof.Machine.execSwr who ins s
  | .trap who ins => Sys2Proof.Machine.execTrap who ins s
  | .glink who ins => Sys2Proof.Machine.execGlink who ins s
  | .gnbr who ins => Sys2Proof.Machine.execGnbr who ins s
  | .gcoord who ins => Sys2Proof.Machine.execGcoord who ins s
  | .gpath who ins => Sys2Proof.Machine.execGpath who ins s
  | .tld who ins => Sys2Proof.Machine.execTld who ins s
  | .tst who ins => Sys2Proof.Machine.execTst who ins s
  | .tvld who ins => Sys2Proof.Machine.execTvld who ins s
  | .tvst who ins => Sys2Proof.Machine.execTvst who ins s
  | .tamo who ins => Sys2Proof.Machine.execTamo who ins s
  | .tnew who ins => Sys2Proof.Machine.execTnew who ins s
  | .tfree who ins => Sys2Proof.Machine.execTfree who ins s
  | .tpush who ins => Sys2Proof.Machine.execTpush who ins s
  | .msend who ins => Sys2Proof.Machine.execMsend who ins s
  | .mrecv who ins => Sys2Proof.Machine.execMrecv who ins s
  | .mbwr who ins => Sys2Proof.Machine.execMbwr who ins s
  | .mbrd who ins => Sys2Proof.Machine.execMbrd who ins s
  | .rpop who ins host => Sys2Proof.Machine.execRpop who ins host s
  | .rpush who ins => Sys2Proof.Machine.execRpush who ins s
  | .tnow who ins => Sys2Proof.Machine.execTnow who ins s
  | .haltUntil who ins => Sys2Proof.Machine.execHaltUntil who ins s
  | .haltEvent who ins => Sys2Proof.Machine.execHaltEvent who ins s
  | .haltEnd who ins => Sys2Proof.Machine.execHaltEnd who ins s
  | .tkwait who ins => Sys2Proof.Machine.execTkwait who ins s
  | .tkpoll who ins => Sys2Proof.Machine.execTkpoll who ins s
  | .ecommit who ins => Sys2Proof.Machine.execEcommit who ins s
  | .equery who ins => Sys2Proof.Machine.execEquery who ins s
  | .thash who ins => Sys2Proof.Machine.execThash who ins s
  | .tverify who ins => Sys2Proof.Machine.execTverify who ins s
  | .trand who ins => Sys2Proof.Machine.execTrand who ins s
  | .tmeasure who ins => Sys2Proof.Machine.execTmeasure who ins s
  | .tkeyrel who ins => Sys2Proof.Machine.execTkeyrel who ins s
  | .icrc who ins => Sys2Proof.Machine.execIcrc who ins s
  | .idigest who ins host => Sys2Proof.Machine.execIdigest who ins host s
  | .ireport who ins => Sys2Proof.Machine.execIreport who ins s
  | .iadj who ins => Sys2Proof.Machine.execIadj who ins s
  | .itest who ins => Sys2Proof.Machine.execItest who ins s
  | .ihist who ins => Sys2Proof.Machine.execIhist who ins s
  | .packetHeader agent input link hdr => Sys2Proof.Machine.execPacketHeader agent input link hdr s
  | .packetTail agent input link vc payload bad flips => Sys2Proof.Machine.execPacketTail agent input link vc payload bad flips s
  | .ackDelay agent src cls => Sys2Proof.Machine.execAckDelay agent src cls s
  | .ack agent peer cls seq => Sys2Proof.Machine.execAck agent peer cls seq s
  | .e2eTimeout agent dst cls => Sys2Proof.Machine.execE2eTimeout agent dst cls s
  | .moved agent src cls => Sys2Proof.Machine.execMoved agent src cls s
  | .message hdr => Sys2Proof.Machine.execMessage hdr s
  | .injectionRequest agent hdr payload => Sys2Proof.Machine.execInjectionRequest agent hdr payload s
  | .blockReread agent payload => Sys2Proof.Machine.execBlockReread agent payload s
  | .heldInjectionStart agent cycles => Sys2Proof.Machine.execHeldInjectionStart agent cycles s
  | .slotEnd agent overrun => Sys2Proof.Machine.execSlotEnd agent overrun s
  | .flitSend agent link vc => Sys2Proof.Machine.execFlitSend agent link vc s
  | .flitReceive agent link vc => Sys2Proof.Machine.execFlitReceive agent link vc s
  | .creditReturn agent link vc arrives => Sys2Proof.Machine.execCreditReturn agent link vc arrives s
  | .creditResync agent link arrives counts => Sys2Proof.Machine.execCreditResync agent link arrives counts s
  | .xoff agent link vc => Sys2Proof.Machine.execXoff agent link vc s
  | .xon agent link vc => Sys2Proof.Machine.execXon agent link vc s
  | .codewordEnd agent link lane symbols => Sys2Proof.Machine.execCodewordEnd agent link lane symbols s
  | .marginWindow agent => Sys2Proof.Machine.execMarginWindow agent s
  | .codewordTimeout agent link lanes => Sys2Proof.Machine.execCodewordTimeout agent link lanes s
  | .linkDown agent link => Sys2Proof.Machine.execLinkDown agent link s
  | .detourApply agent port => Sys2Proof.Machine.execDetourApply agent port s
  | .keepalive agent link lane => Sys2Proof.Machine.execKeepalive agent link lane s
  | .linkHello agent link nbr nbrLink depths => Sys2Proof.Machine.execLinkHello agent link nbr nbrLink depths s
  | .timeSymbol agent link time delay => Sys2Proof.Machine.execTimeSymbol agent link time delay s
  | .timeSymbolSend agent link => Sys2Proof.Machine.execTimeSymbolSend agent link s
  | .timeParentSilent agent => Sys2Proof.Machine.execTimeParentSilent agent s
  | .calibSelect agent temp => Sys2Proof.Machine.execCalibSelect agent temp s
  | .agentResetRelease agent hc cabled => Sys2Proof.Machine.execAgentResetRelease agent hc cabled s
  | .announceTimer agent => Sys2Proof.Machine.execAnnounceTimer agent s
  | .announce agent life info fwStatus mac idKey => Sys2Proof.Machine.execAnnounce agent life info fwStatus mac idKey s
  | .assign agent req body => Sys2Proof.Machine.execAssign agent req body s
  | .linkReport agent items => Sys2Proof.Machine.execLinkReport agent items s
  | .linkReportHoldoff agent => Sys2Proof.Machine.execLinkReportHoldoff agent s
  | .ethernetFrame agent frame => Sys2Proof.Machine.execEthernetFrame agent frame s
  | .regReq agent req count items => Sys2Proof.Machine.execRegReq agent req count items s
  | .regRsp agent tag items => Sys2Proof.Machine.execRegRsp agent tag items s
  | .mgAck agent status arg => Sys2Proof.Machine.execMgAck agent status arg s
  | .mgmtResend agent tag => Sys2Proof.Machine.execMgmtResend agent tag s
  | .mbWord agent req word => Sys2Proof.Machine.execMbWord agent req word s
  | .mbWordToController agent tag word => Sys2Proof.Machine.execMbWordToController agent tag word s
  | .agMbOutResend agent => Sys2Proof.Machine.execAgMbOutResend agent s
  | .hcEvt agent rec => Sys2Proof.Machine.execHcEvt agent rec s
  | .eventsFlush agent => Sys2Proof.Machine.execEventsFlush agent s
  | .events agent eseq recs => Sys2Proof.Machine.execEvents agent eseq recs s
  | .evtAck agent arg => Sys2Proof.Machine.execEvtAck agent arg s
  | .eventsResend agent => Sys2Proof.Machine.execEventsResend agent s
  | .evtSpoil agent => Sys2Proof.Machine.execEvtSpoil agent s
  | .cntSample agent req => Sys2Proof.Machine.execCntSample agent req s
  | .counters agent time words => Sys2Proof.Machine.execCounters agent time words s
  | .telemetrySample deferred => Sys2Proof.Machine.execTelemetrySample deferred s
  | .ping agent req arg => Sys2Proof.Machine.execPing agent req arg s
  | .reset agent req level => Sys2Proof.Machine.execReset agent req level s
  | .agResetGo agent level => Sys2Proof.Machine.execAgResetGo agent level s
  | .rstAck agent => Sys2Proof.Machine.execRstAck agent s
  | .rstFail agent => Sys2Proof.Machine.execRstFail agent s
  | .endpointResetTimeout agent => Sys2Proof.Machine.execEndpointResetTimeout agent s
  | .scrub agent req => Sys2Proof.Machine.execScrub agent req s
  | .agScrubGo agent => Sys2Proof.Machine.execAgScrubGo agent s
  | .scrubDone agent => Sys2Proof.Machine.execScrubDone agent s
  | .scrubFail agent => Sys2Proof.Machine.execScrubFail agent s
  | .scrubRegionTimeout agent => Sys2Proof.Machine.execScrubRegionTimeout agent s
  | .scrubReport agent status => Sys2Proof.Machine.execScrubReport agent status s
  | .scrubUnreachable agent => Sys2Proof.Machine.execScrubUnreachable agent s
  | .quarantineRescrub agent => Sys2Proof.Machine.execQuarantineRescrub agent s
  | .fwManifest agent req body => Sys2Proof.Machine.execFwManifest agent req body s
  | .fwChunk agent k bytes => Sys2Proof.Machine.execFwChunk agent k bytes s
  | .fwEnd agent => Sys2Proof.Machine.execFwEnd agent s
  | .fwMissingTimer agent => Sys2Proof.Machine.execFwMissingTimer agent s
  | .fwMissing agent chunks missing => Sys2Proof.Machine.execFwMissing agent chunks missing s
  | .loadingTimeout agent => Sys2Proof.Machine.execLoadingTimeout agent s
  | .fwVerifyDone agent => Sys2Proof.Machine.execFwVerifyDone agent s
  | .keyDeliver agent req arg body => Sys2Proof.Machine.execKeyDeliver agent req arg body s
  | .kpAck agent => Sys2Proof.Machine.execKpAck agent s
  | .kpErr agent => Sys2Proof.Machine.execKpErr agent s
  | .keyPortTimeout agent => Sys2Proof.Machine.execKeyPortTimeout agent s
  | .dbgStateChange agent value => Sys2Proof.Machine.execDbgStateChange agent value s
  | .hcMeasValid agent meas => Sys2Proof.Machine.execHcMeasValid agent meas s
  | .agStepWrite agent n value => Sys2Proof.Machine.execAgStepWrite agent n value s
  | .pmAck agent => Sys2Proof.Machine.execPmAck agent s
  | .pmFail agent => Sys2Proof.Machine.execPmFail agent s
  | .tsData agent req table first count bytes => Sys2Proof.Machine.execTsData agent req table first count bytes s
  | .tsPrepare agent req epoch => Sys2Proof.Machine.execTsPrepare agent req epoch s
  | .tsReady agent context status crc => Sys2Proof.Machine.execTsReady agent context status crc s
  | .tsQuiesce agent req epoch => Sys2Proof.Machine.execTsQuiesce agent req epoch s
  | .flowsDrained agent => Sys2Proof.Machine.execFlowsDrained agent s
  | .drainLimit agent => Sys2Proof.Machine.execDrainLimit agent s
  | .tsCommit agent req epoch => Sys2Proof.Machine.execTsCommit agent req epoch s
  | .tsRelease agent req epoch => Sys2Proof.Machine.execTsRelease agent req epoch s
  | .tsAbandon agent req epoch restart => Sys2Proof.Machine.execTsAbandon agent req epoch restart s
  | .tsAck agent context status arg => Sys2Proof.Machine.execTsAck agent context status arg s
  | .stagingRefillDone agent => Sys2Proof.Machine.execStagingRefillDone agent s
  | .installResend key => Sys2Proof.Machine.execInstallResend key s
  | .switchSettle key => Sys2Proof.Machine.execSwitchSettle key s
  | .detourRecompute island => Sys2Proof.Machine.execDetourRecompute island s
  | .islandAbortPacket agent copy => Sys2Proof.Machine.execIslandAbortPacket agent copy s
  | .agentSilence agent => Sys2Proof.Machine.execAgentSilence agent s
  | .recordAccept => Sys2Proof.Machine.execRecordAccept s
  | .severityWindowEnd src isCtx kind => Sys2Proof.Machine.execSeverityWindowEnd src isCtx kind s
  | .quietPeriodEnd source unit => Sys2Proof.Machine.execQuietPeriodEnd source unit s
  | .engineResetComplete domain => Sys2Proof.Machine.execEngineResetComplete domain s
  | .resetTimeout level target => Sys2Proof.Machine.execResetTimeout level target s
  | .domainHeartbeatMiss domain => Sys2Proof.Machine.execDomainHeartbeatMiss domain s
  | .keeperWatchdog => Sys2Proof.Machine.execKeeperWatchdog s
  | .hangDetect ring => Sys2Proof.Machine.execHangDetect ring s
  | .suspectReplay => Sys2Proof.Machine.execSuspectReplay s
  | .replayWatchdog => Sys2Proof.Machine.execReplayWatchdog s
  | .checkerSelfTest agent port primaryPass shadowPass => Sys2Proof.Machine.execCheckerSelfTest agent port primaryPass shadowPass s
  | .compareQuiet agent port => Sys2Proof.Machine.execCompareQuiet agent port s
  | .digestStep agent arg => Sys2Proof.Machine.execDigestStep agent arg s
  | .digestComplete agent data => Sys2Proof.Machine.execDigestComplete agent data s
  | .digestReport agent tag body => Sys2Proof.Machine.execDigestReport agent tag body s
  | .adjTimeout island epoch step desc group => Sys2Proof.Machine.execAdjTimeout island epoch step desc group s
  | .repeatTimeout island epoch step desc group => Sys2Proof.Machine.execRepeatTimeout island epoch step desc group s
  | .testReq agent req arg => Sys2Proof.Machine.execTestReq agent req arg s
  | .testDone agent arg data => Sys2Proof.Machine.execTestDone agent arg data s
  | .testRunTimeout agent => Sys2Proof.Machine.execTestRunTimeout agent s
  | .testResult agent context arg => Sys2Proof.Machine.execTestResult agent context arg s
  | .testBoundaryLimit agent => Sys2Proof.Machine.execTestBoundaryLimit agent s
  | .patData agent req slot set offset bytes => Sys2Proof.Machine.execPatData agent req slot set offset bytes s
  | .journalWrite typ body entry => Sys2Proof.Machine.execJournalWrite typ body entry s
  | .faceFlush => Sys2Proof.Machine.execFaceFlush s
  | .pageProgrammed page second block pass => Sys2Proof.Machine.execPageProgrammed page second block pass s
  | .faceFullTimeout ring index => Sys2Proof.Machine.execFaceFullTimeout ring index s
  | .nvRead block page item found => Sys2Proof.Machine.execNvRead block page item found s
  | .retentionAge block => Sys2Proof.Machine.execRetentionAge block s
  | .relocation block target verified => Sys2Proof.Machine.execRelocation block target verified s
  | .dressing => Sys2Proof.Machine.execDressing s
  | .snapshotVerified pass => Sys2Proof.Machine.execSnapshotVerified pass s
  | .anchorGeneration die verified => Sys2Proof.Machine.execAnchorGeneration die verified s
  | .sparesLowDaily => Sys2Proof.Machine.execSparesLowDaily s
  | .ledgeWrite pass => Sys2Proof.Machine.execLedgeWrite pass s
  | .ledgeMerge => Sys2Proof.Machine.execLedgeMerge s
  | .objectCommit cls id data verified => Sys2Proof.Machine.execObjectCommit cls id data verified s
  | .timeFloorRecord => Sys2Proof.Machine.execTimeFloorRecord s
  | .ppsEdge side err offset => Sys2Proof.Machine.execPpsEdge side err offset s
  | .ppsMissing side => Sys2Proof.Machine.execPpsMissing side s
  | .ptpSync side offset => Sys2Proof.Machine.execPtpSync side offset s
  | .syncTimeout side => Sys2Proof.Machine.execSyncTimeout side s
  | .ptpAnnounce side clockClass traceable ptpScale => Sys2Proof.Machine.execPtpAnnounce side clockClass traceable ptpScale s
  | .referenceQualified side copies => Sys2Proof.Machine.execReferenceQualified side copies s
  | .holdEnd => Sys2Proof.Machine.execHoldEnd s
  | .slewLock ratePpb => Sys2Proof.Machine.execSlewLock ratePpb s
  | .holdoverLimit => Sys2Proof.Machine.execHoldoverLimit s
  | .pair src unit hashA hashB macA macB => Sys2Proof.Machine.execPair src unit hashA hashB macA macB s
  | .unpair src => Sys2Proof.Machine.execUnpair src s
  | .leaseRenewTimer => Sys2Proof.Machine.execLeaseRenewTimer s
  | .leaseAnswer src remaining => Sys2Proof.Machine.execLeaseAnswer src remaining s
  | .arbiterSilence => Sys2Proof.Machine.execArbiterSilence s
  | .forceTakeover src => Sys2Proof.Machine.execForceTakeover src s
  | .planEnrol fromArbiter plan => Sys2Proof.Machine.execPlanEnrol fromArbiter plan s
  | .trayMbWord src word => Sys2Proof.Machine.execTrayMbWord src word s
  | .pldmFwUpdate image => Sys2Proof.Machine.execPldmFwUpdate image s
  | .leaseLFall => Sys2Proof.Machine.execLeaseLFall s
  | .leaseLRise => Sys2Proof.Machine.execLeaseLRise s
  | .shipRecords src etype seq jsn recs tag => Sys2Proof.Machine.execShipRecords src etype seq jsn recs tag s
  | .shipAck src etype seq jsn tag => Sys2Proof.Machine.execShipAck src etype seq jsn tag s
  | .peerAckTimeout => Sys2Proof.Machine.execPeerAckTimeout s
  | .shipSnapshot src etype seq jsn payload final tag => Sys2Proof.Machine.execShipSnapshot src etype seq jsn payload final tag s
  | .shipObject src etype seq jsn payload tag => Sys2Proof.Machine.execShipObject src etype seq jsn payload tag s
  | .shipHello src etype seq jsn tag => Sys2Proof.Machine.execShipHello src etype seq jsn tag s
  | .shipMailbox src etype seq jsn word tag => Sys2Proof.Machine.execShipMailbox src etype seq jsn word tag s
  | .heartbeatLoss portal => Sys2Proof.Machine.execHeartbeatLoss portal s
  | .getVersion portal => Sys2Proof.Machine.execGetVersion portal s
  | .getCapabilities portal => Sys2Proof.Machine.execGetCapabilities portal s
  | .negotiateAlgorithms portal common group => Sys2Proof.Machine.execNegotiateAlgorithms portal common group s
  | .getDigests portal => Sys2Proof.Machine.execGetDigests portal s
  | .getCertificate portal slot offset length => Sys2Proof.Machine.execGetCertificate portal slot offset length s
  | .challenge portal slot nonce => Sys2Proof.Machine.execChallenge portal slot nonce s
  | .getMeasurements portal block signed nonce => Sys2Proof.Machine.execGetMeasurements portal block signed nonce s
  | .keyExchange portal half share => Sys2Proof.Machine.execKeyExchange portal half share s
  | .finish portal leafKey auth => Sys2Proof.Machine.execFinish portal leafKey auth s
  | .heartbeat portal => Sys2Proof.Machine.execHeartbeat portal s
  | .keyUpdate portal op => Sys2Proof.Machine.execKeyUpdate portal op s
  | .endSession portal => Sys2Proof.Machine.execEndSession portal s
  | .throttleChange tj hbm => Sys2Proof.Machine.execThrottleChange tj hbm s
  | .thermalTrip tj hbm => Sys2Proof.Machine.execThermalTrip tj hbm s
  | .tapReset => Sys2Proof.Machine.execTapReset s
  | .extest => Sys2Proof.Machine.execExtest s
  | .samplePreload cells => Sys2Proof.Machine.execSamplePreload cells s
  | .idcode => Sys2Proof.Machine.execIdcode s
  | .clamp => Sys2Proof.Machine.execClamp s
  | .highz => Sys2Proof.Machine.execHighz s
  | .bypass => Sys2Proof.Machine.execBypass s
  | .castikPrivate code => Sys2Proof.Machine.execCastikPrivate code s
  | .blockErase block pass => Sys2Proof.Machine.execBlockErase block pass s
  | .mgAckAtAgent agent tag status => Sys2Proof.Machine.execMgAckAtAgent agent tag status s
  | .digestReportResend agent tag => Sys2Proof.Machine.execDigestReportResend agent tag s
  | .agRstLAssert agent => Sys2Proof.Machine.execAgRstLAssert agent s
  | .trayChipReset => Sys2Proof.Machine.execTrayChipReset s
  | .standbyState => Sys2Proof.Machine.execStandbyState s

end Sys2Proof.Machine
end

