-- ==== Sys2Proof/Safety.lean ====
section
/-! DEFINITION. The terms that claims use: a command that completes, an instruction that may run, and the rows of the Aglek tables. -/

namespace Sys2Proof.Safety

open Sys2Proof.Machine

/-- The command completes: it answers a next state, neither a fault nor a refusal. -/
def Completes (i : Instr) (s : State) : Prop := ∃ t, exec i s = .next t

/-- The word at pc carries no single-bit error that its fetch would correct (R133). -/
abbrev fetchClean (c : Core) : Prop := c.eccSoft.contains (c.pc.toNat / 8) = false

/-- What runs an instruction executes, its fetch meets no single-bit error to correct (R133), no exception stands before the predicate, and the predicate holds: the instruction has its own effect on the core `c` (R125, R126). -/
abbrev Runs (s : State) (who : Who) (c : Core) (i : Ins) (r : Row) : Prop :=
  coreOf s who = some c ∧ s.executes who = true ∧ fetchClean c ∧ preExc who c r i none = none ∧ (c.mask i).getLsbD 0 = true

/-- A row of three g registers (Table 4.6). -/
def rowG (op : Nat) (mods : List Nat) : Row := { op := op, mods := mods }

/-- A row of two g registers and an immediate of the given bits (Table 4.6). -/
def rowGI (op : Nat) (mods : List Nat) (imm : BitVec 32) : Row := { op := op, mods := mods, srcb := .unused, imm := imm }

/-- The end of an instruction that changes only registers of its core: the core `c`, retired. -/
def Retired (s : State) (who : Who) (c : Core) (hewer agent : Nat) : State := setCore s who (c.retire (who.cost hewer agent))

/-- The end of a taken branch. -/
def Branched (s : State) (who : Who) (c : Core) (t : Word) (hewer agent : Nat) : State := setCore s who (c.retireTo t (who.cost hewer agent))

/-- A context has a free ticket number (R163). -/
abbrev HasTicket (s : State) (n tk : Nat) : Prop := (s.eng.ctxs.get n).bind freeTicket = some tk

/-- A ticket-issuing instruction of a context has completed: the ticket is recorded and g[d] holds its number (R163). -/
def Ticketed (s : State) (n tk : Nat) (t : Ticket) (c : Core) (i : Ins) (cost : Nat) : State :=
  setCore (setTicket s n tk t) (.ctx n) ((c.setG i.dst.toNat (BitVec.ofNat 64 tk)).retire cost)

/-- The controller serves an entry of a ring now: fetched by the engine, not sealed, and not held back by FENCE (R99, Table 3.18). -/
abbrev Serves (s : State) (r : Nat) (idx : BitVec 32) (op : Nat) (g : Ring) (f : Fetched) : Prop :=
  s.eng.rings.get r = some g ∧ g.find idx = some f ∧ f.entry.opcode.toNat = op ∧ f.ctx = 0 ∧
    f.entry.flags.getLsbD 0 = false ∧ f.entry.flags.getLsbD 1 = false

/-- The controller serves a sealed entry of a ring now: fetched by the engine, and not held back by FENCE (R99, R103, Table 3.18). -/
abbrev ServesSealed (s : State) (r : Nat) (idx : BitVec 32) (op : Nat) (g : Ring) (f : Fetched) : Prop :=
  s.eng.rings.get r = some g ∧ g.find idx = some f ∧ f.entry.opcode.toNat = op ∧ f.ctx = 0 ∧
    f.entry.flags.getLsbD 0 = true ∧ f.entry.flags.getLsbD 1 = false

/-- The ARGS of a served entry (Table 3.18). -/
def argsOf (f : Fetched) : List Byte := slice f.entry.args 0 40

/-- The buffer of a served entry, LENGTH bytes. -/
def bufOf (f : Fetched) (buf : List Byte) : List Byte := slice buf 0 f.entry.length.toNat

/-- An entry whose effect is journalled is served at once: no planned switchover runs, the face has room and D21 is not fenced (R419, R433, R445). -/
abbrev Journals (s : State) : Prop := s.pair.switching = false ∧ s.nv.faceFull = false ∧ s.domSt 21 ≠ .fenced

/-- An agent is out of reset (Table 7.6). -/
abbrev Live (s : State) (id : Nat) (a : Agent) : Prop := s.agents.get id = some a ∧ a.inReset = false

/-- An agent out of reset takes a request whose TAG it has neither answered nor kept open (R221). -/
abbrev Asks (s : State) (id : Nat) (a : Agent) (q : Req) : Prop :=
  Live s id a ∧ (a.answers.getD q.ctrl []).find? (fun p => p.1 == q.tag && q.tag != 0) = none ∧
    (openReqs a).any (fun r => r.tag == q.tag && r.ctrl == q.ctrl && q.tag != 0) = false

/-! Rows of the Aglek core, and what a run of them keeps. -/

/-- What an instruction of the Aglek core (chapter 4) names: what runs it, its fields, and the kinds of state that it may change. -/
structure CoreRow where
  /-- What runs the instruction -/
  who : Who
  /-- Its fields -/
  ins : Ins
  /-- The file of its destination register -/
  dst : Use := .g
  /-- It reaches memory -/
  mem : Bool := false
  /-- It may set fpflags -/
  flags : Bool := false
  /-- It may move pc elsewhere than to the next word -/
  branch : Bool := false
  /-- It writes only active lanes of its destination -/
  lanes : Bool := true

/-- The row of a command that is an instruction of the Aglek core (chapter 4). -/
def coreRow : Instr → Option CoreRow
  | .add w i => some { who := w, ins := i }
  | .sub w i => some { who := w, ins := i }
  | .mul w i => some { who := w, ins := i }
  | .mulh w i => some { who := w, ins := i }
  | .div w i => some { who := w, ins := i }
  | .rem w i => some { who := w, ins := i }
  | .and w i => some { who := w, ins := i }
  | .or w i => some { who := w, ins := i }
  | .xor w i => some { who := w, ins := i }
  | .shl w i => some { who := w, ins := i }
  | .shr w i => some { who := w, ins := i }
  | .rot w i => some { who := w, ins := i }
  | .cmp w i => some { who := w, ins := i, dst := .k }
  | .sel w i => some { who := w, ins := i }
  | .bit w i => some { who := w, ins := i }
  | .minmax w i => some { who := w, ins := i }
  | .addi w i => some { who := w, ins := i }
  | .muli w i => some { who := w, ins := i }
  | .andi w i => some { who := w, ins := i }
  | .ori w i => some { who := w, ins := i }
  | .xori w i => some { who := w, ins := i }
  | .shli w i => some { who := w, ins := i }
  | .shri w i => some { who := w, ins := i }
  | .roti w i => some { who := w, ins := i }
  | .cmpi w i => some { who := w, ins := i, dst := .k }
  | .kmov w i => some { who := w, ins := i, dst := if i.mod = 1 then .k else .g }
  | .movi w i => some { who := w, ins := i }
  | .kop w i => some { who := w, ins := i, dst := .k }
  | .br w i => some { who := w, ins := i, dst := .unused, branch := true }
  | .jal w i => some { who := w, ins := i, branch := true }
  | .jr w i => some { who := w, ins := i, dst := .unused, branch := true }
  | .jrl w i => some { who := w, ins := i, branch := true }
  | .loop w i => some { who := w, ins := i, branch := true }
  | .ld w i => some { who := w, ins := i, mem := true }
  | .st w i => some { who := w, ins := i, dst := .unused, mem := true }
  | .ldx w i => some { who := w, ins := i, mem := true }
  | .stx w i => some { who := w, ins := i, dst := .unused, mem := true }
  | .amo w i => some { who := w, ins := i, mem := true }
  | .cas w i => some { who := w, ins := i, mem := true }
  | .vadd w i => some { who := w, ins := i, dst := .v, flags := true }
  | .vsub w i => some { who := w, ins := i, dst := .v, flags := true }
  | .vmul w i => some { who := w, ins := i, dst := .v, flags := true }
  | .vfma w i => some { who := w, ins := i, dst := .v, flags := true }
  | .vand w i => some { who := w, ins := i, dst := .v }
  | .vor w i => some { who := w, ins := i, dst := .v }
  | .vxor w i => some { who := w, ins := i, dst := .v }
  | .vshl w i => some { who := w, ins := i, dst := .v }
  | .vshr w i => some { who := w, ins := i, dst := .v }
  | .vminmax w i => some { who := w, ins := i, dst := .v, flags := true }
  | .vcmp w i => some { who := w, ins := i, dst := .k, flags := true }
  | .vsel w i => some { who := w, ins := i, dst := .v }
  | .vbcast w i => some { who := w, ins := i, dst := .v }
  | .vext w i => some { who := w, ins := i }
  | .vins w i => some { who := w, ins := i, dst := .v, lanes := false }
  | .vcvt w i => some { who := w, ins := i, dst := .v, flags := true }
  | .vld w i => some { who := w, ins := i, dst := .v, mem := true }
  | .vst w i => some { who := w, ins := i, dst := .unused, mem := true }
  | .vgather w i => some { who := w, ins := i, dst := .v, mem := true }
  | .vscatter w i => some { who := w, ins := i, dst := .unused, mem := true }
  | .vred w i => some { who := w, ins := i, flags := true }
  | .vperm w i => some { who := w, ins := i, dst := .v }
  | .viota w i => some { who := w, ins := i, dst := .v }
  | .vcompress w i => some { who := w, ins := i, dst := .v, lanes := false }
  | .srd w i => some { who := w, ins := i }
  | .swr w i => some { who := w, ins := i, dst := .unused, flags := true }
  | .trap w i => some { who := w, ins := i, dst := .unused }
  | _ => none

/-- What runs a command that is an Aglek instruction, and its fields (chapters 4 and 5). -/
def aglekRow : Instr → Option (Who × Ins)
  | .add w i => some (w, i)
  | .sub w i => some (w, i)
  | .mul w i => some (w, i)
  | .mulh w i => some (w, i)
  | .div w i => some (w, i)
  | .rem w i => some (w, i)
  | .and w i => some (w, i)
  | .or w i => some (w, i)
  | .xor w i => some (w, i)
  | .shl w i => some (w, i)
  | .shr w i => some (w, i)
  | .rot w i => some (w, i)
  | .cmp w i => some (w, i)
  | .sel w i => some (w, i)
  | .bit w i => some (w, i)
  | .minmax w i => some (w, i)
  | .addi w i => some (w, i)
  | .muli w i => some (w, i)
  | .andi w i => some (w, i)
  | .ori w i => some (w, i)
  | .xori w i => some (w, i)
  | .shli w i => some (w, i)
  | .shri w i => some (w, i)
  | .roti w i => some (w, i)
  | .cmpi w i => some (w, i)
  | .kmov w i => some (w, i)
  | .movi w i => some (w, i)
  | .kop w i => some (w, i)
  | .br w i => some (w, i)
  | .jal w i => some (w, i)
  | .jr w i => some (w, i)
  | .jrl w i => some (w, i)
  | .loop w i => some (w, i)
  | .ld w i => some (w, i)
  | .st w i => some (w, i)
  | .ldx w i => some (w, i)
  | .stx w i => some (w, i)
  | .amo w i => some (w, i)
  | .cas w i => some (w, i)
  | .vadd w i => some (w, i)
  | .vsub w i => some (w, i)
  | .vmul w i => some (w, i)
  | .vfma w i => some (w, i)
  | .vand w i => some (w, i)
  | .vor w i => some (w, i)
  | .vxor w i => some (w, i)
  | .vshl w i => some (w, i)
  | .vshr w i => some (w, i)
  | .vminmax w i => some (w, i)
  | .vcmp w i => some (w, i)
  | .vsel w i => some (w, i)
  | .vbcast w i => some (w, i)
  | .vext w i => some (w, i)
  | .vins w i => some (w, i)
  | .vcvt w i => some (w, i)
  | .vld w i => some (w, i)
  | .vst w i => some (w, i)
  | .vgather w i => some (w, i)
  | .vscatter w i => some (w, i)
  | .vred w i => some (w, i)
  | .vperm w i => some (w, i)
  | .viota w i => some (w, i)
  | .vcompress w i => some (w, i)
  | .srd w i => some (w, i)
  | .swr w i => some (w, i)
  | .trap w i => some (w, i)
  | .glink w i => some (w, i)
  | .gnbr w i => some (w, i)
  | .gcoord w i => some (w, i)
  | .gpath w i => some (w, i)
  | .tld w i => some (w, i)
  | .tst w i => some (w, i)
  | .tvld w i => some (w, i)
  | .tvst w i => some (w, i)
  | .tamo w i => some (w, i)
  | .tnew w i => some (w, i)
  | .tfree w i => some (w, i)
  | .tpush w i => some (w, i)
  | .msend w i => some (w, i)
  | .mrecv w i => some (w, i)
  | .mbwr w i => some (w, i)
  | .mbrd w i => some (w, i)
  | .rpop w i _ => some (w, i)
  | .rpush w i => some (w, i)
  | .tnow w i => some (w, i)
  | .haltUntil w i => some (w, i)
  | .haltEvent w i => some (w, i)
  | .haltEnd w i => some (w, i)
  | .tkwait w i => some (w, i)
  | .tkpoll w i => some (w, i)
  | .ecommit w i => some (w, i)
  | .equery w i => some (w, i)
  | .thash w i => some (w, i)
  | .tverify w i => some (w, i)
  | .trand w i => some (w, i)
  | .tmeasure w i => some (w, i)
  | .tkeyrel w i => some (w, i)
  | .icrc w i => some (w, i)
  | .idigest w i _ => some (w, i)
  | .ireport w i => some (w, i)
  | .iadj w i => some (w, i)
  | .itest w i => some (w, i)
  | .ihist w i => some (w, i)
  | _ => none

/-- Registers and memory are in their one form: g0 and k0 are never listed, keys rise, and no byte listed is zero. -/
def CoreCanonical (c : Core) : Prop :=
  FMap.wf c.g = true ∧ c.g.get 0 = none ∧ FMap.wf c.k = true ∧ c.k.get 0 = none ∧ FMap.wf c.v = true ∧ memWf c.mem = true

/-- The tables of contexts, agents and benches have rising keys, and every core and every bench is in its one form. -/
def Canonical (s : State) : Prop :=
  FMap.wf s.eng.ctxs = true ∧ FMap.wf s.agents = true ∧ FMap.wf s.eng.benches = true ∧
    (∀ n x, s.eng.ctxs.get n = some x → CoreCanonical x.core) ∧
    (∀ id a, s.agents.get id = some a → CoreCanonical a.core) ∧ ∀ b x, s.eng.benches.get b = some x → memWf x.mem = true

/-- The queue holds instructions of the Aglek core only, and every core and bench is in its one form. -/
def CoreRun (s : State) : Prop := (∀ c ∈ s.pending, (coreRow c).isSome = true) ∧ Canonical s

/-- A place of one byte lies among the n bytes at a place that `who` stores to; scratch and SRAM belong to one core each. -/
def touches (who : Who) (at_ : Loc) (n : Nat) (v : Who) (l : Loc) : Bool :=
  match at_, l with
  | .own a, .own b => decide (who = v) && decide (a ≤ b) && decide (b < a + n)
  | .bench k a, .bench j b => decide (k = j) && decide (a ≤ b) && decide (b < a + n)
  | _, _ => false

/-- Every byte of every memory outside the bytes that `hit` picks reads as before. -/
def SameBytes (s t : State) (hit : Who → Loc → Bool) : Prop :=
  ∀ (v : Who) (l : Loc), hit v l = false → readLoc t v 1 l = readLoc s v 1 l

/-- What an instruction that reaches no memory may change of its core: its destination register, fpflags where it sets them, pc and the counters. -/
def CoreFrame (r : CoreRow) (c d : Core) : Prop :=
  d.mem = c.mem ∧ d.eccBad = c.eccBad ∧ d.eccSoft = c.eccSoft ∧ d.causes = c.causes ∧ d.awaits = c.awaits ∧ d.untilT = c.untilT ∧ d.msgs = c.msgs ∧
    d.instret = c.instret + 1 ∧ (r.flags = false → d.fpflags = c.fpflags) ∧ (r.branch = false → d.pc = c.pc + 8) ∧
    (∀ n, (r.dst = .g → n ≠ r.ins.dst.toNat) → d.getG n = c.getG n) ∧
    (∀ n, (r.dst = .k → n ≠ r.ins.dst.toNat) → d.getK n = c.getK n) ∧
    (∀ n l, l < 16 → (r.dst = .v → n = r.ins.dst.toNat → r.lanes = true ∧ (c.mask r.ins).getLsbD l = false) → d.getV n l = c.getV n l)

end Sys2Proof.Safety
end

