-- ==== Sys2Proof/Certificates/Slice0/Obligations.lean ====
section
/-! DEFINITION. The statements for the provers. -/

open Sys2Proof Sys2Proof.Machine Sys2Proof.Safety

/-! Aglek instructions. -/

/-- Results of the scalar ALU on two registers, with the whole next state: g[d] or k[d] is written, the instruction retires, nothing else changes (R136, Tables 4.6, 4.7). -/
def Obligations.ScalarRegisterResults : Prop :=
  ∀ (s : State) (who : Who) (c : Core) (i : Ins),
    let d := i.dst.toNat
    let a := c.opA i
    let b := c.opB i
    (Runs s who c i (rowG 0x00 [0]) → exec (.add who i) s = .next (Retired s who (c.setG d (a + b)) 1 1)) ∧
    (Runs s who c i (rowG 0x01 [0]) → exec (.sub who i) s = .next (Retired s who (c.setG d (a - b)) 1 1)) ∧
    (Runs s who c i (rowG 0x02 [0]) → exec (.mul who i) s = .next (Retired s who (c.setG d (a * b)) 3 4)) ∧
    (Runs s who c i (rowG 0x03 [0, 1]) → exec (.mulh who i) s = .next (Retired s who (c.setG d (if i.mod = 0 then mulhS a b else mulhU a b)) 3 4)) ∧
    (Runs s who c i (rowG 0x04 [0, 1]) → exec (.div who i) s = .next (Retired s who (c.setG d (if i.mod = 0 then divS a b else divU a b)) 36 66)) ∧
    (Runs s who c i (rowG 0x05 [0, 1]) → exec (.rem who i) s = .next (Retired s who (c.setG d (if i.mod = 0 then remS a b else remU a b)) 36 66)) ∧
    (Runs s who c i (rowG 0x06 [0]) → exec (.and who i) s = .next (Retired s who (c.setG d (a &&& b)) 1 1)) ∧
    (Runs s who c i (rowG 0x07 [0]) → exec (.or who i) s = .next (Retired s who (c.setG d (a ||| b)) 1 1)) ∧
    (Runs s who c i (rowG 0x08 [0]) → exec (.xor who i) s = .next (Retired s who (c.setG d (a ^^^ b)) 1 1)) ∧
    (Runs s who c i (rowG 0x09 [0]) → exec (.shl who i) s = .next (Retired s who (c.setG d (a <<< (b.toNat % 64))) 1 1)) ∧
    (Runs s who c i (rowG 0x0A [0, 1]) → exec (.shr who i) s = .next (Retired s who (c.setG d (shiftR (i.mod == 1) a (b.toNat % 64))) 1 1)) ∧
    (Runs s who c i (rowG 0x0B [0]) → exec (.rot who i) s = .next (Retired s who (c.setG d (a.rotateRight (b.toNat % 64))) 1 1)) ∧
    (Runs s who c i { rowG 0x0C [0, 1, 2, 3, 4, 5] with dst := .k } →
      exec (.cmp who i) s = .next (Retired s who (c.setK d (if condHolds i.mod.toNat a b then 0xFFFF else 0)) 1 1)) ∧
    (Runs s who c i (rowG 0x0D [0, 1, 2, 3, 4, 5, 6, 7]) →
      exec (.sel who i) s = .next (Retired s who (c.setG d (if (c.getK i.mod.toNat).getLsbD 0 then a else b)) 1 1)) ∧
    (Runs s who c i { rowG 0x0E [0, 1, 2, 3, 4] with srcb := .unused } →
      exec (.bit who i) s = .next (Retired s who (c.setG d (bitFn i.mod.toNat a)) 1 1)) ∧
    (Runs s who c i (rowG 0x0F [0, 1, 2, 3]) → exec (.minmax who i) s = .next (Retired s who (c.setG d (minMax i.mod.toNat a b)) 1 1))

/-- Results of the scalar ALU with an immediate and of the predicate moves, with the whole next state (R136, Tables 4.6, 4.8). -/
def Obligations.ScalarImmediateResults : Prop :=
  ∀ (s : State) (who : Who) (c : Core) (i : Ins),
    let d := i.dst.toNat
    let a := c.opA i
    let n := i.imm.toNat % 64
    (Runs s who c i (rowGI 0x10 [0] 0xFFFFFFFF) → exec (.addi who i) s = .next (Retired s who (c.setG d (a + i.simm)) 1 1)) ∧
    (Runs s who c i (rowGI 0x12 [0] 0xFFFFFFFF) → exec (.muli who i) s = .next (Retired s who (c.setG d (a * i.simm)) 3 4)) ∧
    (Runs s who c i (rowGI 0x16 [0] 0xFFFFFFFF) → exec (.andi who i) s = .next (Retired s who (c.setG d (a &&& i.simm)) 1 1)) ∧
    (Runs s who c i (rowGI 0x17 [0] 0xFFFFFFFF) → exec (.ori who i) s = .next (Retired s who (c.setG d (a ||| i.simm)) 1 1)) ∧
    (Runs s who c i (rowGI 0x18 [0] 0xFFFFFFFF) → exec (.xori who i) s = .next (Retired s who (c.setG d (a ^^^ i.simm)) 1 1)) ∧
    (Runs s who c i (rowGI 0x19 [0] 0x3F) → exec (.shli who i) s = .next (Retired s who (c.setG d (a <<< n)) 1 1)) ∧
    (Runs s who c i (rowGI 0x1A [0, 1] 0x3F) → exec (.shri who i) s = .next (Retired s who (c.setG d (shiftR (i.mod == 1) a n)) 1 1)) ∧
    (Runs s who c i (rowGI 0x1B [0] 0x3F) → exec (.roti who i) s = .next (Retired s who (c.setG d (a.rotateRight n)) 1 1)) ∧
    (Runs s who c i { rowGI 0x1C [0, 1, 2, 3, 4, 5] 0xFFFFFFFF with dst := .k } →
      exec (.cmpi who i) s = .next (Retired s who (c.setK d (if condHolds i.mod.toNat a i.simm then 0xFFFF else 0)) 1 1)) ∧
    (Runs s who c i { rowG 0x1D [0, 1] with srca := .k, srcb := .unused } → i.mod = 0 →
      exec (.kmov who i) s = .next (Retired s who (c.setG d ((c.getK i.srca.toNat).zeroExtend 64)) 1 1)) ∧
    (Runs s who c i { rowG 0x1D [0, 1] with dst := .k, srcb := .unused } → i.mod = 1 →
      exec (.kmov who i) s = .next (Retired s who (c.setK d (a.truncate 16)) 1 1)) ∧
    (Runs s who c i { rowGI 0x1E [0, 1, 2] 0xFFFFFFFF with srca := .unused } → exec (.movi who i) s = .next (Retired s who (c.setG d (moviFn i (c.opD i))) 1 1)) ∧
    (Runs s who c i { op := 0x1F, mods := [0, 1, 2, 3, 4, 5, 6], dst := .k, srca := .k, srcb := if i.mod.toNat < 4 then .k else .unused } →
      exec (.kop who i) s = .next (Retired s who (c.setK d (kop i.mod.toNat (c.getK i.srca.toNat) (c.getK i.srcb.toNat))) 1 1))

/-- The branch group: the target, the link register and the loop count, with the whole next state (R138 to R140, Table 4.9). -/
def Obligations.BranchResults : Prop :=
  ∀ (s : State) (who : Who) (c : Core) (i : Ins),
    let d := i.dst.toNat
    let t := c.pc + 8 * i.simm
    let ind := c.opA i + i.simm
    (Runs s who c i { op := 0x20, dst := .unused, srca := .unused, srcb := .unused, imm := 0xFFFFFFFF } →
      exec (.br who i) s = .next (Branched s who c t 3 2)) ∧
    (Runs s who c i { op := 0x21, srca := .unused, srcb := .unused, imm := 0xFFFFFFFF } →
      exec (.jal who i) s = .next (Branched s who (c.setG d (c.pc + 8)) t 3 2)) ∧
    (Runs s who c i { op := 0x22, dst := .unused, srcb := .unused, imm := 0xFFFFFFFF } →
      exec (.jr who i) s = .next (Branched s who c ind 4 3)) ∧
    (Runs s who c i { op := 0x23, srcb := .unused, imm := 0xFFFFFFFF } →
      exec (.jrl who i) s = .next (Branched s who (c.setG d (c.pc + 8)) ind 4 3)) ∧
    (Runs s who c i { op := 0x24, srca := .unused, srcb := .unused, imm := 0xFFFFFFFF } → d ≠ 0 → c.opD i ≠ 1 →
      exec (.loop who i) s = .next (Branched s who (c.setG d (c.opD i - 1)) t 3 2)) ∧
    (Runs s who c i { op := 0x24, srca := .unused, srcb := .unused, imm := 0xFFFFFFFF } → d = 0 ∨ c.opD i = 1 →
      exec (.loop who i) s = .next (setCore s who ((c.setG d (c.opD i - 1)).retire 1)))

/-- Scalar loads, stores and atomics that meet no exception: the value read or written, the register results, and pc (R141, R142, Tables 4.10, 4.11). A single-bit error at the place is corrected first, so the core differs from `c` in its error marks alone. The model's own choices within it: log 6, 9, 165. -/
def Obligations.ScalarMemoryResults : Prop :=
  ∀ (s : State) (who : Who) (c : Core) (i : Ins) (l : Loc) (bs : List Byte),
    let d := i.dst.toNat
    let a := c.opA i + i.simm
    let loads (j : Instr) : Prop :=
      ∃ t n e, exec j s = .next t ∧ coreOf t who = some ((Core.setG { c with eccSoft := e } d (extend i bs)).retire n)
    let stores (j : Instr) (v : Word) : Prop :=
      ∃ t n d', exec j s = .next t ∧ coreOf t who = some (Core.retire d' n) ∧ d'.g = c.g ∧ d'.k = c.k ∧ d'.v = c.v ∧ d'.pc = c.pc ∧
        readLoc t who (sizeOfMod i) l = (wordBytes v).take (sizeOfMod i)
    let updates (j : Instr) (v : Word) : Prop :=
      ∃ t n d', exec j s = .next t ∧ coreOf t who = some (Core.retire (Core.setG d' d (BitVec.ofNat 64 (leVal (readLoc s who 8 l)))) n) ∧
        d'.g = c.g ∧ d'.k = c.k ∧ d'.v = c.v ∧ d'.pc = c.pc ∧ readLoc t who 8 l = wordBytes v
    (∀ n x, who = .ctx n → s.eng.ctxs.get n = some x → memWf x.core.mem = true) →
    (∀ id x, who = .agent id → s.agents.get id = some x → memWf x.core.mem = true) →
    (∀ b, memWf (s.eng.benches.getD b {}).mem = true) →
    (Runs s who c i { op := 0x30, mods := [0, 1, 2, 3, 4, 5, 6], srcb := .unused, imm := 0xFFFFFFFF } →
      loadMem s who a (sizeOfMod i) 0 = .ok (bs, l) → loads (.ld who i)) ∧
    (Runs s who c i { op := 0x32, mods := [0, 1, 2, 3, 4, 5, 6], imm := 0xFFFFFFFF } →
      loadMem s who (indexed c i) (sizeOfMod i) 0 = .ok (bs, l) → loads (.ldx who i)) ∧
    (Runs s who c i { op := 0x31, mods := [0, 1, 2, 3], dst := .unused, imm := 0xFFFFFFFF } →
      storePlace s who a (sizeOfMod i) 0 = .ok l → stores (.st who i) (c.opB i)) ∧
    (Runs s who c i { op := 0x33, mods := [0, 1, 2, 3], imm := 0xFFFFFFFF } →
      storePlace s who (indexed c i) (sizeOfMod i) 0 = .ok l → stores (.stx who i) (c.opD i)) ∧
    (Runs s who c i { op := 0x34, mods := [0, 1, 2, 3, 4, 5, 6, 7, 8], imm := 0xFFFFFFFF } →
      locate s who a 8 0 true = .ok l → locBad s who l = false →
      updates (.amo who i) (amoFn i.mod.toNat (BitVec.ofNat 64 (leVal (readLoc s who 8 l))) (c.opB i))) ∧
    (Runs s who c i { op := 0x35, imm := 0xFFFFFFFF } →
      locate s who a 8 0 true = .ok l → locBad s who l = false →
      updates (.cas who i) (if BitVec.ofNat 64 (leVal (readLoc s who 8 l)) = c.opD i then c.opB i else BitVec.ofNat 64 (leVal (readLoc s who 8 l))))

/-- The system group: SRD reads a special register, SWR writes fpflags, TRAP raises its exception: on a hewer the context is FAULTED with code 0x08 (R148, R149, R181, Table 4.5). -/
def Obligations.SystemInstructionResults : Prop :=
  ∀ (s : State) (who : Who) (c : Core) (i : Ins) (v : Word) (n : Nat),
    (Runs s who c i { op := 0xF0, srca := .unused, srcb := .unused, imm := 0xFFF } → specialOf s who (i.imm.toNat % 4096) = some v →
      exec (.srd who i) s = .next (setCore s who ((c.setG i.dst.toNat v).retire 2))) ∧
    (Runs s (.ctx n) c i { op := 0xF1, dst := .unused, srcb := .unused, imm := 0xFFF } → i.imm.toNat % 4096 = 5 →
      exec (.swr (.ctx n) i) s = .next (setCore s (.ctx n) (Core.retire { c with fpflags := (c.opA i).truncate 4 } 2))) ∧
    (Runs s (.ctx n) c i { op := 0xF2, dst := .unused, srca := .unused, srcb := .unused, imm := 0xFFFFFFFF } →
      ∃ t x, exec (.trap (.ctx n) i) s = .next t ∧ t.eng.ctxs.get n = some x ∧ x.st = .faulted ∧ x.exc = 0x08)

/-- Results of the vector ALU: each active lane of v[d], and the float flags where the form is a float one, with the whole next state (R143 to R146, Table 4.12). The model's own choices within it: log 9, 12, 164. -/
def Obligations.VectorResults : Prop :=
  ∀ (s : State) (who : Who) (c : Core) (i : Ins),
    let la := c.laneA i
    let lb := c.laneB i
    (Runs s who c i (rowV 0x40 [0, 1]) → i.mod = 0 → exec (.vadd who i) s = .next (Retired s who (c.mapLanes i fun n => la n + lb n) 2 0)) ∧
    (Runs s who c i (rowV 0x40 [0, 1]) → i.mod = 1 → exec (.vadd who i) s = .next (Retired s who (c.mapFlt i fun n => fAdd (la n) (lb n)) 5 0)) ∧
    (Runs s who c i (rowV 0x41 [0, 1]) → i.mod = 0 → exec (.vsub who i) s = .next (Retired s who (c.mapLanes i fun n => la n - lb n) 2 0)) ∧
    (Runs s who c i (rowV 0x41 [0, 1]) → i.mod = 1 → exec (.vsub who i) s = .next (Retired s who (c.mapFlt i fun n => fSub (la n) (lb n)) 5 0)) ∧
    (Runs s who c i (rowV 0x42 [0, 1]) → i.mod = 0 → exec (.vmul who i) s = .next (Retired s who (c.mapLanes i fun n => la n * lb n) 4 0)) ∧
    (Runs s who c i (rowV 0x42 [0, 1]) → i.mod = 1 → exec (.vmul who i) s = .next (Retired s who (c.mapFlt i fun n => fMul (la n) (lb n)) 5 0)) ∧
    (Runs s who c i (rowV 0x43 [0]) → exec (.vfma who i) s = .next (Retired s who (c.mapFlt i fun n => fFma (c.laneD i n) (la n) (lb n)) 5 0)) ∧
    (Runs s who c i (rowV 0x44 [0]) → exec (.vand who i) s = .next (Retired s who (c.mapLanes i fun n => la n &&& lb n) 2 0)) ∧
    (Runs s who c i (rowV 0x45 [0]) → exec (.vor who i) s = .next (Retired s who (c.mapLanes i fun n => la n ||| lb n) 2 0)) ∧
    (Runs s who c i (rowV 0x46 [0]) → exec (.vxor who i) s = .next (Retired s who (c.mapLanes i fun n => la n ^^^ lb n) 2 0)) ∧
    (Runs s who c i (rowV 0x47 [0]) → exec (.vshl who i) s = .next (Retired s who (c.mapLanes i fun n => la n <<< ((lb n).toNat % 64)) 2 0)) ∧
    (Runs s who c i (rowV 0x48 [0, 1]) →
      exec (.vshr who i) s = .next (Retired s who (c.mapLanes i fun n => shiftR (i.mod == 1) (la n) ((lb n).toNat % 64)) 2 0)) ∧
    (Runs s who c i (rowV 0x49 [0, 1, 2, 3, 4, 5]) → i.mod.toNat < 4 →
      exec (.vminmax who i) s = .next (Retired s who (c.mapLanes i fun n => minMax i.mod.toNat (la n) (lb n)) 2 0)) ∧
    (Runs s who c i (rowV 0x49 [0, 1, 2, 3, 4, 5]) → 4 ≤ i.mod.toNat →
      exec (.vminmax who i) s = .next (Retired s who (c.mapFlt i fun n => fMinMax (i.mod == 5) (la n) (lb n)) 2 0)) ∧
    (Runs s who c i { rowV 0x4A [0, 1, 2, 3, 4, 5, 8, 9, 10, 11] with dst := .k } →
      let r (n : Nat) : Bool × BitVec 4 := vCond i.mod.toNat (la n) (lb n)
      exec (.vcmp who i) s = .next (Retired s who
        { c.setK i.dst.toNat ((c.active i).foldl (fun k n => if (r n).1 then k ||| BitVec.ofNat 16 (2 ^ n) else k) 0) with
          fpflags := (c.active i).foldl (fun f n => f ||| (r n).2) c.fpflags } 2 0)) ∧
    (Runs s who c i (rowV 0x4B [0, 1, 2, 3, 4, 5, 6, 7]) →
      exec (.vsel who i) s = .next (Retired s who (c.mapLanes i fun n => if (c.getK i.mod.toNat).getLsbD n then la n else lb n) 2 0)) ∧
    (Runs s who c i { rowV 0x4C [0] with srca := .g, srcb := .unused } →
      exec (.vbcast who i) s = .next (Retired s who (c.mapLanes i fun _ => c.opA i) 2 0)) ∧
    (Runs s who c i { rowV 0x4D [0] with dst := .g, srcb := .unused, imm := 0xF } →
      exec (.vext who i) s = .next (Retired s who (c.setG i.dst.toNat (la (i.imm.toNat % 16))) 2 0)) ∧
    (Runs s who c i { rowV 0x4E [0] with srca := .g, srcb := .unused, imm := 0xF } →
      exec (.vins who i) s = .next (Retired s who (c.setV i.dst.toNat (i.imm.toNat % 16) (c.opA i)) 2 0)) ∧
    (Runs s who c i { rowV 0x4F [0, 1, 2, 3] with srcb := .unused } →
      exec (.vcvt who i) s = .next (Retired s who (c.mapFlt i fun n => convert i.mod.toNat (la n)) 4 0)) ∧
    (Runs s who c i { rowV 0x54 [0, 1, 2, 3, 4, 5, 6, 7, 8, 9, 10] with dst := .g, srcb := .unused } →
      let r := reduce i.mod.toNat ((c.active i).map la)
      exec (.vred who i) s = .next (Retired s who { c.setG i.dst.toNat r.1 with fpflags := c.fpflags ||| r.2 } (if i.mod = 8 then 20 else 6) 0)) ∧
    (Runs s who c i (rowV 0x55 [0]) → exec (.vperm who i) s = .next (Retired s who (c.mapLanes i fun n => la ((lb n).toNat % 16)) 3 0)) ∧
    (Runs s who c i { rowV 0x56 [0] with srca := .g, srcb := .unused, imm := 0xFFFFFFFF } →
      exec (.viota who i) s = .next (Retired s who (c.mapLanes i fun n => c.opA i + i.simm * BitVec.ofNat 64 n) 2 0)) ∧
    (Runs s who c i { rowV 0x57 [0] with srcb := .unused } →
      exec (.vcompress who i) s = .next (Retired s who (lanes.foldl (fun d n => d.setV i.dst.toNat n (((c.active i).map la).getD n 0)) c) 3 0))

/-- Vector loads and stores whose active lanes meet no exception: the lanes loaded, with every other register as before; and the words stored, lane by lane in ascending order, with every byte of memory as those stores leave it (R135, R147). The model's own choices within it: log 6, 9, 163. -/
def Obligations.VectorMemoryResults : Prop :=
  ∀ (s : State) (who : Who) (c : Core) (i : Ins),
    let row (op : Nat) (b : Use) : Row := { op := op, dst := .v, srca := .g, srcb := b, imm := 0xFFFFFFFF, profile := false }
    let clear (as : List (Nat × Word)) (store : Bool) : Prop := ∀ p ∈ as, laneExc s who store p.2 p.1 = none
    let value (p : Nat × Word) : Word := match loadMem s who p.2 8 p.1 with
      | .error _ => 0
      | .ok (bs, _) => BitVec.ofNat 64 (leVal bs)
    let loads (j : Instr) (as : List (Nat × Word)) : Prop :=
      ∃ t n e, exec j s = .next t ∧
        coreOf t who = some (Core.retire ((as.map fun p => (p.1, value p)).foldl (fun d p => Core.setV d i.dst.toNat p.1 p.2) { c with eccSoft := e }) n)
    let stores (j : Instr) (as : List (Nat × Word)) : Prop :=
      ∃ t n d', exec j s = .next t ∧ coreOf t who = some (Core.retire d' n) ∧ d'.g = c.g ∧ d'.v = c.v ∧ d'.k = c.k ∧ d'.pc = c.pc ∧
        ∀ m, readLoc t who 1 m = readLoc (as.foldl (fun u p => match locate u who p.2 8 p.1 true with
          | .error _ => u
          | .ok l => writeLoc u who (wordBytes (c.laneD i p.1)) l) s) who 1 m
    (Runs s who c i (row 0x50 .unused) → clear (seqAddrs c i) false → loads (.vld who i) (seqAddrs c i)) ∧
    (Runs s who c i (row 0x52 .v) → clear (offAddrs c i) false → loads (.vgather who i) (offAddrs c i)) ∧
    (Runs s who c i (row 0x51 .unused) → clear (seqAddrs c i) true → stores (.vst who i) (seqAddrs c i)) ∧
    (Runs s who c i (row 0x53 .v) → clear (offAddrs c i) true → stores (.vscatter who i) (offAddrs c i))

/-- The graph group on sound operands: records of links and ports, neighbours, coordinates, distances, and the shortest usable path (R165 to R167). The model's own choices within it: log 9. -/
def Obligations.GraphResults : Prop :=
  ∀ (s : State) (who : Who) (c : Core) (i : Ins) (a b : FAddr) (bs : List Byte) (q : PathReq),
    let row (op : Nat) : Row := { op := op, mods := [0, 1], srcb := .unused, profile := false }
    let id := fld (c.opA i) 31 0
    let d := i.dst.toNat
    (Runs s who c i (row 0x60) → vertexOf s (BitVec.ofNat 28 (id / 16)) = .ok a →
      exec (.glink who i) s = .next (doneCached who s 8 1 fun c => c.setG d (if i.mod = 0 then linkRecord s a (id % 16) else portRecord s a (id % 16)))) ∧
    (Runs s who c i { row 0x61 with dst := .v } → vertexW s (c.opA i) = .ok a →
      exec (.gnbr who i) s = .next (doneCached who s 12 16 fun c =>
        c.mapLanes i fun n => if i.mod = 0 then linkRecord s a n else if n < 8 then portRecord s a n else 0)) ∧
    (Runs s who c i { row 0x62 with srcb := .g } → i.mod = 0 → vertexW s (c.opA i) = .ok a →
      let dir := (c.opB i).toNat % 8
      let k := 3 - dir / 2
      exec (.gcoord who i) s = .next (setCore s who
        ((c.setG d ((withCoord a k (stepCoord (s.dim k) (coordOf a k) (dir % 2 == 1))).zeroExtend 64)).retire 2))) ∧
    (Runs s who c i { row 0x62 with srcb := .g } → i.mod = 1 → vertexW s (c.opA i) = .ok a → vertexW s (c.opB i) = .ok b →
      let f (k : Nat) : Word := at_ (distField (s.dim k) (coordOf a k) (coordOf b k)) (16 * k)
      exec (.gcoord who i) s = .next (setCore s who ((c.setG d (f 3 ||| f 2 ||| f 1 ||| f 0)).retire 2))) ∧
    (Runs s who c i { row 0x63 with mods := [0] } → paramBlock s who (c.opA i) 56 = .ok bs → pathReq bs = some q →
      (wordAt bs 0x28).toNat % 8 = 0 → storeRangeOk s who (wordAt bs 0x28) 32 = none → vertexOf s q.src = .ok a → vertexOf s q.dst = .ok b →
      let r := q.search s q.hops [(q.src, [])] { seen := [q.src] }
      let path := ((r.found.getD []).reverse).map (BitVec.ofNat 8)
      exec (.gpath who i) s = .next (correctRange (doneCached who (storeRange s who (wordAt bs 0x28) (path ++ List.replicate (32 - path.length) 0xFF)) (40 + 6 * r.e) (r.e + 1)
        fun c => c.setG d (if r.found.isSome then BitVec.ofNat 64 path.length else -1)) who (c.opA i) 56))

/-- The table group on handles that pass the check: words read and written, the old word of TAMO, a new table, a freed one, and a ticket for TPUSH (R163, R168 to R170). The model's own choices within it: log 9, 77, 150, 166. -/
def Obligations.TableResults : Prop :=
  ∀ (s : State) (n : Nat) (c : Core) (i : Ins) (t : Table) (id tk : Nat) (bs : List Byte) (dests : List (Option Nat × List Word)),
    let who := Who.ctx n
    let row (op : Nat) : Row := { op := op, imm := 0x3F, profile := false }
    let h := c.opA i
    let w := i.imm.toNat % 64
    let d := i.dst.toNat
    (Runs s who c i { row 0x70 with srcb := .unused, profile := true } → tableCheck s n h [w] false = .ok t →
      exec (.tld who i) s = .next (doneCached who s 6 1 fun c => c.setG d (t.word (handleIndex h) w))) ∧
    (Runs s who c i { row 0x71 with dst := .unused, profile := true } → tableCheck s n h [w] true = .ok t →
      exec (.tst who i) s = .next (doneCached who (s.onTable (handleId h) fun u => u.setWord (handleIndex h) w (c.opB i)) 6 1 fun c => c)) ∧
    (Runs s who c i { row 0x72 with dst := .v, srcb := .unused } → tableCheck s n h (laneWords c i) false = .ok t →
      exec (.tvld who i) s = .next (doneCached who s 12 16 fun c => c.mapLanes i fun l => t.word (handleIndex h) (w + l))) ∧
    (Runs s who c i { row 0x73 with dst := .v, srcb := .unused } → tableCheck s n h (laneWords c i) true = .ok t →
      exec (.tvst who i) s = .next (doneCached who (s.onTable (handleId h) fun u =>
        (c.active i).foldl (fun u l => u.setWord (handleIndex h) (w + l) (c.laneD i l)) u) 12 16 fun c => c)) ∧
    (Runs s who c i { row 0x74 with mods := [0, 1, 2, 3, 4, 5, 6, 7, 8] } → tableCheck s n h [w] true = .ok t →
      exec (.tamo who i) s = .next (doneCached who (s.onTable (handleId h) fun u =>
        u.setWord (handleIndex h) w (amoFn i.mod.toNat (t.word (handleIndex h) w) (c.opB i))) 10 1 fun c => c.setG d (t.word (handleIndex h) w))) ∧
    (Runs s who c i { row 0x75 with mods := [0, 1, 2, 3, 4, 5, 6], srcb := .unused, imm := 0 } →
      findFrom (fun id => (s.eng.tables.get id).isNone) 65280 0x100 = some id →
      let owner := if isSystem n then systemOwner else ctxPortal n
      let u : Table := { portal := owner, es := i.mod.toNat, count := h.toNat
                         island := ((s.eng.ctxs.get n).map fun x => if x.confidential then x.island else 0).getD 0 }
      (s.eng.tables.filter fun q => q.2.portal == owner && decide (0x100 ≤ q.1)).length < 4096 →
      s.eng.tables.foldl (fun k q => k + q.2.bytes) 0 + u.bytes ≤ Config.tableSpace →
      exec (.tnew who i) s = .next (setCore (s.onEng fun e => { e with tables := e.tables.set id u }) who ((c.setG d (at_ id 48)).retire 200))) ∧
    (Runs s who c i { row 0x76 with dst := .unused, srcb := .unused, imm := 0 } → tableFor s n (handleId h) = some t →
      ¬(handleId h < 0x100 ∧ handleId h ≠ 0 ∧ isSystem n = false) →
      exec (.tfree who i) s = .next (setCore (s.onEng fun e => { e with tables := e.tables.del (handleId h) }) who (c.retire 200))) ∧
    (Runs s who c i { row 0x77 with srcb := .unused, imm := 0 } → paramBlock s who h 40 = .ok bs → pushBlockOk bs = true →
      tableCheck s n (wordAt bs 0) [0] false = .ok t → pushPlan s n bs = .ok dests → HasTicket s n tk →
      let tb := fld (wordAt bs 0x10) 15 0
      let first := fld (wordAt bs 0x10) 47 16
      tb < 16 → tblCount tb ≠ 0 → tb ≠ 7 → tblWords tb = 2 ^ t.es → s.domSt 18 ≠ .fenced → (∃ x ∈ dests, x.2 ≠ []) →
      (∀ x ∈ dests, x.1.isSome = true ∧ first + x.2.length / tblWords tb ≤ tblCount tb) →
      exec (.tpush who i) s = .next (correctRange (dests.foldl (fun u x => match x.1 with
        | none => u
        | some id => pushTo u id tb first x.2 (n, tk)) (wake (Ticketed s n tk { op := 0x77, dom := 18 } c i 20) 18)) who h 40))

/-- The message group: a packet sent and a queued one received, mailbox words both ways, and an entry or completion moved between a ring and memory (R171 to R174). The model's own choices within it: log 13, 23, 24, 43, 44, 46, 166, 171, 174. -/
def Obligations.MessageResults : Prop :=
  ∀ (s : State) (n : Nat) (c : Core) (i : Ins) (bs host : List Byte) (rest : List (List Byte)) (x : Ctx) (w : Word) (r k : Nat) (g b : Ring) (f : Fetched),
    let who := Who.ctx n
    let d := i.dst.toNat
    let ch := i.imm.toNat % 64
    let row (op : Nat) (mods : List Nat) : Row := { op := op, mods := mods }
    (Runs s who c i { row 0x80 [0, 1] with imm := if i.mod = 1 then 3 else 0 } → (c.opA i).toNat % 32 = 0 → loadRange s who (c.opA i) 32 = .ok bs →
      mayReach s n ((c.opB i).truncate 28) = true → fld (c.opB i) 63 28 = 0 → s.ctrlValid ((c.opB i).truncate 28) = true →
      exec (.msend who i) s = .next (correctRange (finG ((ctxTargets s n i ((c.opB i).truncate 28)).foldl (fun t a => t.emit (.ctrlPkt
        ({ hdr := msendHdr { i with mod := 0 } bs a s.ctrlAddr (isSystem n) } : Pkt).sealed)) s) who i 8 stOk) who (c.opA i) 32)) ∧
    (Runs s who c i { row 0x81 [0, 1] with srcb := .unused } → c.msgs = bs :: rest → (c.opA i).toNat % 32 = 0 → storeRangeOk s who (c.opA i) 32 = none →
      exec (.mrecv who i) s = .next (fin (storeRange s who (c.opA i) bs) who 6 fun e =>
        let u := if i.mod = 1 then e.clearCauses 0x08 else e
        Core.setG { u with msgs := rest } d 1)) ∧
    (Runs s who c i { row 0x81 [0, 1] with srcb := .unused } → c.msgs = [] → i.mod = 0 →
      exec (.mrecv who i) s = .next (finG s who i 6 0)) ∧
    (Runs s who c i { row 0x82 [0] with srcb := .unused, imm := 0x3F } → s.eng.ctxs.get n = some x →
      ((s.portal x.portal).mbi.getD ch {}).ctx = n → ((s.portal x.portal).mbi.getD ch {}).full = false → (s.portal x.portal).mbIrqEn = false →
      exec (.mbwr who i) s = .next (finG (s.onPortal x.portal fun p =>
        { p with mbi := p.mbi.set ch { p.mbi.getD ch {} with word := c.opA i, full := true } }) who i 4 stOk)) ∧
    (Runs s who c i { row 0x83 [0, 1] with srca := .unused, srcb := .k, imm := 0x3F } → mboxRead s who ch = .ok (some w) → i.mod = 0 →
      exec (.mbrd who i) s = .next (fin (mboxClear s who ch) who 4 fun e => (e.setG d w).setK i.srcb.toNat 0xFFFF)) ∧
    (Runs s who c i { row 0x84 [0, 1] with profile := false } → (c.opA i).toNat % 64 = 0 → storeRangeOk s who (c.opA i) 64 = none →
      s.eng.ctxs.get n = some x → x.ring = some k → s.eng.rings.get k = some b → c.opB i = BitVec.ofNat 64 r → c.opB i ≠ 0 → r < 2 ^ 64 →
      s.eng.rings.get r = some g → g.owner = b.owner → g.kind = .complete → g.stopped = false → g.occ ≠ 0 →
      exec (.rpop who i host) s = .next (finRing (storeRange (wakeBlocked (settleRing (s.onRing r fun y => { y with cons := y.cons + 1 }) r) r) who (c.opA i)
        (slice host 0 64)) who i (i.mod == 1) 40 stOk)) ∧
    (Runs s who c i { row 0x85 [0, 1, 2, 3] with profile := false } → (c.opA i).toNat % 64 = 0 → loadRange s who (c.opA i) 64 = .ok bs →
      s.eng.ctxs.get n = some x → x.ring = some r → s.eng.rings.get r = some g → i.mod.getLsbD 0 = true → c.opB i = BitVec.ofNat 64 r → r < 2 ^ 64 →
      g.kind = .submit → g.stopped = false → g.occ < g.size →
      exec (.rpush who i) s = .next
        (correctRange (finRing (doorbellAccept (wake (s.emit (.submitEntry r g.prod bs)) 17) r g (g.prod + 1)) who i (i.mod.getLsbD 1) 40 stOk) who (c.opA i) 64)) ∧
    (Runs s who c i { row 0x85 [0, 1, 2, 3] with profile := false } → (c.opA i).toNat % 64 = 0 → loadRange s who (c.opA i) 64 = .ok bs →
      s.eng.ctxs.get n = some x → x.ring = some r → s.eng.rings.get r = some g → i.mod.getLsbD 0 = false → g.stopped = false →
      g.fetched.find? (fun f => f.index.toNat == leAt bs 8 4) = some f → completeFull s g = false → f.entry.flags.getLsbD 0 = false →
      exec (.rpush who i) s = .next
        (correctRange (finRing (finish s r f (leAt bs 4 2) (slice bs 0x18 40)) who i (i.mod.getLsbD 1) 40 stOk) who (c.opA i) 64))

/-- Time and sleep: fabric time read; a HALT that finds an awaited cause delivers and clears it; one that finds none waits HALTED; HALT.END frees the context; tickets waited for and polled (R157, R161, R163, R175). The model's own choices within it: log 9, 13, 26, 172. -/
def Obligations.TimeAndSleepResults : Prop :=
  ∀ (s : State) (n : Nat) (c : Core) (i : Ins) (x : Ctx) (t : Ticket) (st : BitVec 16),
    let who := Who.ctx n
    let d := i.dst.toNat
    let row (op : Nat) (m : Nat) : Row := { op := op, mods := [m], srcb := .unused }
    (Runs s who c i { row 0x90 0 with mods := [0, 1], srca := .unused } →
      exec (.tnow who i) s = .next (setCore s who ((c.setG d (BitVec.ofNat 64 (if i.mod = 0 then s.now else s.time.st.num))).retire 4))) ∧
    (Runs s who c i { row 0x91 0 with imm := 0x3F } → s.now < (c.opA i).toNat → c.causes &&& (i.imm.truncate 6 ||| 0x21) = 0 →
      exec (.haltUntil who i) s = .next (waitFor (setCore s who c) who (i.imm.truncate 6 ||| 1) (some (c.opA i).toNat) none)) ∧
    (Runs s who c i { row 0x91 1 with srca := .unused, imm := 0x3F } →
      let m := c.causes &&& (i.imm.truncate 6 ||| 0x20)
      m ≠ 0 → exec (.haltEvent who i) s = .next (setCore s who (((c.clearCauses m).setG d (m.zeroExtend 64)).retire 2))) ∧
    (Runs s who c i { row 0x91 1 with srca := .unused, imm := 0x3F } → c.causes &&& (i.imm.truncate 6 ||| 0x20) = 0 →
      exec (.haltEvent who i) s = .next (waitFor s who (i.imm.truncate 6) none none)) ∧
    (Runs s who c i { row 0x91 2 with dst := .unused, srca := .unused } → s.eng.ctxs.get n = some x →
      exec (.haltEnd who i) s = .next (haltEnded (endCtx s n stOk) n)) ∧
    (Runs s who c i { row 0x92 0 with profile := false } → s.eng.ctxs.get n = some x → x.tickets.get (c.opA i).toNat = some t → t.status = some st →
      exec (.tkwait who i) s = .next (setCore (s.onCtx n fun y => { y with tickets := y.tickets.del (c.opA i).toNat }).draw.2 who
        ((c.setG d (st.zeroExtend 64)).retire (2 + s.draw.1.toNat)))) ∧
    (Runs s who c i { row 0x93 0 with profile := false } → s.eng.ctxs.get n = some x → x.tickets.get (c.opA i).toNat = some t → t.status = some st →
      exec (.tkpoll who i) s = .next (setCore (s.onCtx n fun y => { y with tickets := y.tickets.del (c.opA i).toNat }) who
        ((c.setG d (st.zeroExtend 64)).retire 2))) ∧
    (Runs s who c i { row 0x93 0 with profile := false } → s.eng.ctxs.get n = some x → x.tickets.get (c.opA i).toNat = some t → t.status = none →
      exec (.tkpoll who i) s = .next (setCore s who ((c.setG d (-1)).retire 2)))

/-- Epoch, trust and integrity instructions of a hewer on sound operands: what is read at once, and the ticket that each long operation issues (R162, R163, R176 to R179, R392, R395, R398, R432). The model's own choices within it: log 9, 10, 27, 45, 96, 97, 166. -/
def Obligations.TrustAndIntegrityInstructionResults : Prop :=
  ∀ (s : State) (n tk : Nat) (c : Core) (i : Ins) (bs data : List Byte) (l : Island),
    let who := Who.ctx n
    let row (op : Nat) : Row := { op := op, srcb := .unused, profile := false }
    let block (k : Nat) : Prop := paramBlock s who (c.opA i) k = .ok bs
    let ends (t : State) (k : Nat) : State := correctRange t who (c.opA i) k
    (Runs s who c i (row 0xA1) → isSystem n = true → s.isles.islands.get (fld (c.opA i) 15 0) = some l → l.st ≠ .free →
      exec (.equery who i) s = .next (setCore s who ((c.setG i.dst.toNat (at_ l.epoch 0 ||| at_ l.pkey 32)).retire 20))) ∧
    (Runs s who c i (row 0xB0) → block 24 → (wordAt bs 16).toNat % 8 = 0 → loadRange s who (wordAt bs 0) (wordAt bs 8).toNat = .ok data →
      storeRangeOk s who (wordAt bs 16) 48 = none → HasTicket s n tk →
      exec (.thash who i) s = .next (ends (correctRange (wake (Ticketed s n tk { op := 0xB0, out := (wordAt bs 16).toNat, data := data, dom := 19 } c i 20) 19)
        who (wordAt bs 0) (wordAt bs 8).toNat) 24)) ∧
    (Runs s who c i (row 0xB1) → block 24 → HasTicket s n tk →
      let input := rangeOr s who (wordAt bs 0) 48 ++ rangeOr s who (wordAt bs 8) 97 ++ rangeOr s who (wordAt bs 16) 96
      let t := wake (Ticketed s n tk { op := 0xB1, data := input, dom := 19 } c i 20) 19
      exec (.tverify who i) s = .next
        (ends (correctRange (correctRange (correctRange t who (wordAt bs 0) 48) who (wordAt bs 8) 97) who (wordAt bs 16) 96) 24)) ∧
    (Runs s who c i { row 0xB2 with srca := .unused } → s.domOn 19 = true →
      ∃ t, exec (.trand who i) s = .next t ∧ coreOf t who = some ((c.setG i.dst.toNat (Config.freeWord s.nonce)).retire 60)) ∧
    (Runs s who c i (row 0xB3) → block 16 → fld (wordAt bs 0) 63 16 = 0 → isSystem n = true → HasTicket s n tk →
      exec (.tmeasure who i) s = .next (ends (wake (Ticketed s n tk { op := 0xB3, out := (wordAt bs 8).toNat, args := [wordAt bs 0], dom := 19 } c i 20) 19) 16)) ∧
    (Runs s who c i (row 0xB4) → block 16 → fld (wordAt bs 0) 63 16 = 0 → fld (wordAt bs 8) 63 32 = 0 → isSystem n = true → HasTicket s n tk →
      exec (.tkeyrel who i) s = .next (ends (wake (Ticketed s n tk { op := 0xB4, args := [wordAt bs 0, wordAt bs 8], dom := 19 } c i 20) 19) 16)) ∧
    (Runs s who c i { op := 0xC0 } → (c.opA i).toNat % 8 = 0 → (c.opB i).toNat % 8 = 0 → loadRange s who (c.opA i) (c.opB i).toNat = .ok data →
      exec (.icrc who i) s = .next (correctRange (setCore s who ((c.setG i.dst.toNat (crc64 data)).retire (8 + data.length / 8))) who (c.opA i) (c.opB i).toNat)) ∧
    (Runs s who c i { op := 0xC1 } → loadRange s who (c.opA i) (c.opB i).toNat = .ok data →
      exec (.idigest who i []) s = .next
        (correctRange (setCore s who ((c.setG i.dst.toNat (digest64 data)).retire (8 + (c.opB i).toNat / 8))) who (c.opA i) (c.opB i).toNat)) ∧
    (Runs s who c i { op := 0xC2 } → fld (c.opB i) 63 43 = 0 → s.hasIu = true → s.domSt 20 ≠ .fenced →
      exec (.ireport who i) s = .next (finG (ctxReport (wake s 20) n (fld (c.opB i) 42 40) (fld (c.opB i) 39 0) (c.opA i)) who i 10 stOk)) ∧
    (Runs s who c i (row 0xC3) → block 16 → fld (wordAt bs 0) 63 16 = 0 → fld (wordAt bs 8) 63 43 = 0 → isSystem n = true → HasTicket s n tk →
      s.hasIu = true → s.domSt 20 ≠ .fenced →
      let u := wake (Ticketed s n tk { op := 0xC3, args := [wordAt bs 0, wordAt bs 8], dom := 20 } c i 20) 20
      let ks := s.integ.keys.filter fun k => k.island == leAt bs 0 2 && k.step == fld (wordAt bs 8) 39 0 && k.desc == fld (wordAt bs 8) 42 40 && !k.tie && !k.done
      ks ≠ [] → exec (.iadj who i) s = .next (ends (finishTicket (adjudicateAll u ks).2 n tk (if (adjudicateAll u ks).1 then stOk else stInvalid)) 16)) ∧
    (∀ id, Runs s who c i { op := 0xC4 } → HasTicket s n tk → s.hasIu = true → s.domSt 20 ≠ .fenced → s.agentAt (BitVec.ofNat 28 (fld (c.opB i) 39 12)) = some id →
      (s.roster id).life = .running → (∀ t ∈ s.integ.tests, t.1 ≠ id) →
      exec (.itest who i) s = .next (sendTest (wake (Ticketed s n tk { op := 0xC4, args := [c.opA i, c.opB i], dom := 20 } c i 20) 20) id (fld (c.opA i) 15 0)
        (BitVec.ofNat 12 (fld (c.opB i) 11 0)) n tk)) ∧
    (Runs s who c i (row 0xC5) → block 24 → fld (wordAt bs 0) 63 56 = 0 → fld (wordAt bs 8) 15 12 = 0 → fld (wordAt bs 8) 63 32 = 0 → HasTicket s n tk →
      s.hasIu = true → s.domSt 20 ≠ .fenced →
      exec (.ihist who i) s = .next (ends (wake (Ticketed s n tk { op := 0xC5, out := (wordAt bs 16).toNat, args := [wordAt bs 0, wordAt bs 8], dom := 20 } c i 20) 20) 24))

/-- ECOMMIT of a system context issues its ticket and, where the island, epoch and key are admitted and every push ticket it names is OK or open, starts the installation of the island's members and of the switches whose staged circuits differ (R176, R177). The model's own choices within it: log 75, 76, 166, 186. -/
def Obligations.EpochCommitStarts : Prop :=
  ∀ (s : State) (n tk : Nat) (c : Core) (i : Ins) (bs lst : List Byte) (x : Ctx) (l : Island),
    let who := Who.ctx n
    let cnt := leAt bs 0x20 8
    let tks := (List.range cnt).map fun j => (wordAt lst (8 * j)).toNat
    let h := leAt bs 0 2
    let u := Ticketed s n tk { op := 0xA0, dom := 18 } c i 30
    let ids := (withIds u l.members).map (·.2)
    Runs s who c i { op := 0xA0, srcb := .unused, profile := false } → isSystem n = true → paramBlock s who (c.opA i) 40 = .ok bs →
    zeroAt bs 2 6 = true → zeroAt bs 0x0C 4 = true → zeroAt bs 0x12 6 = true → 1 ≤ cnt → cnt ≤ 16 →
    loadRange s who (wordAt bs 0x18) (8 * cnt) = .ok lst → s.eng.ctxs.get n = some x → freeTicket x = some tk →
    (∀ t ∈ tks, ∃ k, x.tickets.get t = some k ∧ (k.status = none ∨ k.status = some 0)) →
    commitRefusal u h (leAt bs 8 4) (leAt bs 0x10 2) false = none → u.isles.islands.get h = some l →
    exec (.ecommit who i) s = .next (correctRange (correctRange (startInstall (wake u 18) h
      { epoch := leAt bs 8 4, pkey := leAt bs 0x10 2, members := ids, switches := stagedSwitches u, circuits := stagedCircuits u, ticket := some (n, tk)
        pushes := (tks.filter fun t => ((x.tickets.get t).map (·.status)).getD none == none).map fun t => (n, t)
        newMembers := l.members, low := l.low, shape := l.shape, sched := l.sched }
      (ids.map fun id => (id, false, Bank.setWord (u.roster id).stage 6 0 4 (at_ h 48 ||| at_ (leAt bs 8 4) 16 ||| at_ (leAt bs 0x10 2) 0))))
        who (wordAt bs 0x18) (8 * cnt)) who (c.opA i) 40)

/-! Power, clocks, pins and resets. -/

/-- Feeds and the power sequence: the first valid feed brings D0 up with FAULT_L low; a feed that leaves its range records FEED_LOST and one that returns clears it; an ORing failure; the loss of both feeds; and the first rise of CHIP_RST_L (R452, R463 to R465, R476). The model's own choices within it: log 11, 60, 111, 199. -/
def Obligations.FeedAndPowerCommands : Prop :=
  ∀ (s : State) (x : Side) (mv : BitVec 16) (share : BitVec 8),
    let up := s.pins.d0Up = true
    let good := 10800 ≤ mv.toNat ∧ mv.toNat < 13400
    let new (v : Bool) : State := (s.onFeed x fun f => { f with valid := v, mv := mv }).onPins fun p => { p with shareA := share }
    (¬up → good → exec (.powerOn x mv) s = .next ((s.onFeed x fun f => { f with valid := true, mv := mv }).onPins fun p =>
      { p with d0Up := true, faultLow := true, debugUnlocked := p.debugFuse })) ∧
    (up → (s.pins.feed x).valid = true → mv.toNat ≤ 10600 ∨ 13400 ≤ mv.toNat →
      exec (.feedRangeChange x mv share) s = .next ((new false).fault 0 0 0x285 .degraded (own := x.num))) ∧
    (up → (s.pins.feed x).valid = false → good →
      exec (.feedRangeChange x mv share) s = .next (clearRecs (new true) fun r => r.kind == 0x285 && r.own == x.num)) ∧
    (up → exec (.oringFault x true) s = .next ((s.onFeed x fun f => { f with oring := true }).fault 0 0 0x286 .degraded (own := x.num))) ∧
    (up → exec (.bothFeedsFail) s = .next (powerLost s)) ∧
    (up → exec (.chipRstLFirstRise) s = .next (s.onPins fun p =>
      { p with chipRstHigh := true, firstRise := true, wpLow := false, tapReg := if p.tapIr = 0 then 2 else p.tapReg, tapPins := 0 }))

/-- The power sequencer: a wake of a domain whose required domains are ON, the end of a wake, its timeout, the start and the two ends of draining, and LH_PD_HOLD (R57, R60, R62 to R67, Tables 2.4, 2.7). The model's own choices within it: log 34, 109. -/
def Obligations.DomainCommands : Prop :=
  ∀ (s : State) (d p : Nat) (data : Word),
    (d ≠ 0 → s.domPresent d = true → s.mayWake d = true → s.domSt d = .off → (∀ e ∈ bringUp d, s.domOn e = true) →
      exec (.wakeEvent d) s = .next (s.onDom d fun x => { x with st := .waking, wakePend := false, powerOff := false })) ∧
    (d ≠ 0 → s.domSt d = .waking →
      exec (.domainReady d) s =
        .next (bootDomains (startPending (takeUp (s.onDom d fun x => { x with st := .on, powerOff := false, wakePend := false, missed := 0 }) d)))) ∧
    (16 < d → s.domSt d = .waking →
      exec (.domainWakeTimeout d) s =
        .next (bootDomains ((s.fault d 63 0x081 .degraded).onDom d fun x => { x with st := .fenced, powerOff := true, wakePend := true }))) ∧
    (1 ≤ d → d ≤ 16 → s.domSt d = .waking →
      exec (.domainWakeTimeout d) s =
        .next (bootDomains (setUsable ((s.fault d 63 0x081 .degraded).onDom d fun x =>
          { x with st := .fenced, powerOff := true, wakePend := true }) (d - 1) false))) ∧
    (d ≠ 0 → s.domOn d = true → s.power.hold.getLsbD d = false → s.unneeded d = true → idleNow s d = true →
      exec (.domainIdleExpiry d) s = .next (s.onDom d fun x => { x with st := .draining })) ∧
    (d ≠ 0 → s.domSt d = .draining → s.power.draining = true ∨ (s.unneeded d = true ∧ idleNow s d = true) →
      (∀ r ∈ s.coll.posted, ¬(r.source = s.ctrlAddr ∧ r.unit.toNat / 64 = d)) →
      exec (.domainDrained d true) s = .next (startPending (s.onDom d fun x => { x with st := .off, powerOff := true, missed := 0 }))) ∧
    (d ≠ 0 → s.domSt d = .draining → s.power.draining = true ∨ (s.unneeded d = true ∧ idleNow s d = true) →
      exec (.domainDrained d false) s = .next (s.onDom d fun x => { x with st := .fenced, powerOff := false })) ∧
    (d ≠ 0 → s.domSt d = .draining → s.power.draining = false → s.unneeded d = false ∨ idleNow s d = false →
      exec (.domainDrained d true) s = .next (takeUp (returnOn s d) d)) ∧
    (s.portalOpen p = true → (s.portal p).role = .steward →
      exec (.lhPdHoldWrite p 8 data) s = .next ((setHold s data).emit (.writeDone p)))

/-- Clocks, PERST_L and temperature: a PLL that loses lock fences what it serves and counts once; the backup oscillator; a portal that trains and one that is reset; throttles with their count; and the thermal trip (R71, R468, R469, R471, R472, R474). The model's own choices within it: log 47, 112, 168, 169. -/
def Obligations.ClockPinAndTemperatureCommands : Prop :=
  ∀ (s : State) (n p : Nat) (osc : Bool) (tj hbm : BitVec 16),
    let up := s.pins.d0Up = true
    let peak (q : Pins) : BitVec 16 := if q.tjPeak.toInt < tj.toInt then tj else q.tjPeak
    (∀ d, (pllDomains n).filter s.running = [d] →
      exec (.pllLockLoss n) s =
        .next (fenceDom ((s.onPower fun q => { q with lockLoss := satAdd 0xFFFF q.lockLoss 1 }).fault d 63 0x082 .degraded) d)) ∧
    (up → s.pins.aonBackup = false →
      exec (.aonClockLoss osc) s =
        .next (refUpdate (refUpdate (requestCycle (s.onPins fun q => { q with aonBackup := true, holdOsc := osc }) 2) .a) .b)) ∧
    (p < s.pins.part.portals → s.pins.portalRdy = true → (s.portal p).st = .down → p < 8 →
      exec (.perstRise p) s = .next (((s.onPins fun q => { q with perstLow := q.perstLow &&& ~~~(BitVec.ofNat 8 (2 ^ p)) }).onPortal p fun q =>
        { q with st := .ready }).emit (.linkTraining p))) ∧
    (p < s.pins.part.portals → s.pins.portalRdy = true → p < 8 →
      exec (.perstFall p) s = .next ((partitionReset (s.onPins fun q => { q with perstLow := q.perstLow ||| BitVec.ofNat 8 (2 ^ p) }) p false .pin).onPortal p
        fun x => { x with words := [] })) ∧
    (up → s.pins.throttleTj = false → s.pins.throttleHbm = true → 800 ≤ tj.toInt → 696 ≤ hbm.toInt →
      exec (.throttleChange tj hbm) s = .next (s.onPins fun q =>
        { q with tjMax := tj, hbmMax := hbm, tjPeak := peak q, throttleTj := true, throttleHbm := true, throttles := satAdd 0xFF q.throttles 1 })) ∧
    (up → s.pins.throttleTj = true → s.pins.throttleHbm = true → tj.toInt < 760 → hbm.toInt < 696 →
      exec (.throttleChange tj hbm) s = .next (s.onPins fun q =>
        { q with tjMax := tj, hbmMax := hbm, tjPeak := peak q, throttleTj := false, throttleHbm := false, throttles := satAdd 0xFF q.throttles 2 })) ∧
    (up → s.pins.thermtripLow = false → 944 ≤ tj.toInt ∨ 840 ≤ hbm.toInt →
      let u := (loseDomains (s.onPins fun q =>
        { q with thermtripLow := true, activeLow := false, portalRdy := false, tjMax := tj, hbmMax := hbm, tjPeak := peak q })).onNv Nv.afterLoss
      exec (.thermalTrip tj hbm) s = .next (requestCycle (u.onPower fun q => { q with hbmSelfRefresh := false }) 1))

/-- The test access port: each instruction selects its register, and EXTEST, CLAMP and HIGHZ act on the pins only while CHIP_RST_L is low (R475, R476). The model's own choices within it: log 113. -/
def Obligations.TestPortCommands : Prop :=
  ∀ (s : State) (cells : List Bool) (code : BitVec 8),
    let load (ir : BitVec 8) (reg pins : Nat) : State := s.onPins fun p => { p with tapIr := ir, tapReg := reg, tapPins := pins }
    let low := s.pins.chipRstHigh = false
    exec .tapReset s = .next (load 0x02 1 0) ∧
    (low → exec .extest s = .next (load 0x00 0 1)) ∧
    (¬low → exec .extest s = .next (load 0x00 2 0)) ∧
    exec (.samplePreload cells) s = .next ((load 0x01 0 0).onPins fun p => { p with tapBsr := cells }) ∧
    exec .idcode s = .next ((load 0x02 1 0).emit
      (.tdo 2 (BitVec.ofNat 32 (s.pins.stepMajor.toNat * 2 ^ 28 + s.pins.part.id * 2 ^ 12 + 0x43D * 2 + 1)))) ∧
    (low → exec .clamp s = .next (load 0x03 2 2)) ∧
    (low → exec .highz s = .next (load 0x04 2 3)) ∧
    (¬low → exec .clamp s = .next (load 0x03 2 0) ∧ exec .highz s = .next (load 0x04 2 0)) ∧
    exec .bypass s = .next (load 0xFF 2 0) ∧
    (4 < code.toNat → code ≠ 0xFF → s.pins.debugUnlocked = false → exec (.castikPrivate code) s = .next (load code 2 0))

/-- Resets: of the chip by pin, software, tray controller, watchdog and escalation; of an engine with its completion; the end of the drain; heartbeats missed; hangs found, suspects placed and judged (R359 to R371). The model's own choices within it: log 11, 16, 30, 31, 32, 38, 39, 40, 153, 170, 197. -/
def Obligations.ResetCommands : Prop :=
  ∀ (s : State) (p d r : Nat) (h : Hang) (x : Ctx) (l : List Nat),
    let up := s.pins.d0Up = true
    let steward := s.portalOpen p = true ∧ (s.portal p).role = .steward
    let missed (n : Nat) : State := s.onDom d fun y => { y with missed := n }
    (up → s.pins.firstRise = true → s.pins.chipRstHigh = true → 1 < s.power.step →
      exec .chipReset s = .next (chipReset (s.onPins fun q => { q with chipRstHigh := false }) .pin)) ∧
    (s.power.draining = true → (∀ x ∈ s.coll.posted, ¬(x.source = s.ctrlAddr ∧ 64 ≤ x.unit.toNat)) →
      let u := rebootFab ((resetRegisters (loseDomains s)).onFab fun f => { f with fwLoading := false })
      exec .chipResetDrainEnd s = .next (u.onPower fun q =>
        { q with draining := false, hbmSelfRefresh := s.domSt 22 != .off, hbmFenced := q.hbmFenced ||| q.hbmDue, hbmDue := 0, step := 2
                 licDone := false, cold := false, fastPath := false, stopped := false })) ∧
    (steward → 1 ≤ d → d ≤ 17 → s.domPresent d = true →
      exec (.lhResetEngine p d) s = .next (startEngine (s.emit (.writeDone p)) d .software)) ∧
    (steward → exec (.lhResetChip p) s = .next (chipReset (s.emit (.writeDone p)) .software)) ∧
    (up → exec .trayChipReset s = .next (chipReset s .tray)) ∧
    (1 ≤ d → d ≤ 16 → (s.dom d).engineReset = true → (∀ x ∈ s.coll.uncleared, ¬(x.source = s.ctrlAddr ∧ x.unit = unitNo d 63 ∧ x.kind = 0x082)) →
      let u := ((ctxsOn (setLastUs s (s.dom d).resetAt) (d - 1)).foldl (fun t q => replayCtx t q.1 q.2) (setLastUs s (s.dom d).resetAt)).onEng fun e =>
        { e with benches := e.benches.del (d - 1) }
      exec (.engineResetComplete d) s = .next (chipDue (returnOn (u.onDom d fun y => { y with engineReset := false }) d))) ∧
    (d ≤ 17 → (s.dom d).engineReset = true →
      exec (.resetTimeout 2 d) s = .next (startChip (escalated (s.fault d 63 0x087 .degraded)) .escalation)) ∧
    ((s.portal p).st = .resetting → s.power.draining = false →
      exec (.resetTimeout 3 p) s = .next (startChip (escalated (s.fault 23 p 0x087 .degraded)) .escalation)) ∧
    (s.power.resetting = true → exec (.resetTimeout 4 0) s = .next (requestCycle (escalated (s.fault 0 2 0x087 .degraded)) 0)) ∧
    (d ≠ 0 → s.domPresent d = true → s.domOn d = true → (s.dom d).missed < 2 →
      exec (.domainHeartbeatMiss d) s = .next (missed ((s.dom d).missed + 1))) ∧
    (d ≠ 0 → s.domPresent d = true → s.domOn d = true → (s.dom d).missed = 2 →
      exec (.domainHeartbeatMiss d) s = .next ((missed 0).fault d 63 0x083 .degraded)) ∧
    (up → s.power.lastWatchdog = none →
      exec .keeperWatchdog s = .next (chipReset ((s.fault 0 2 0x089 .fatal).onPower fun q => { q with lastWatchdog := some s.now }) .watchdog)) ∧
    (cycleFrom s r = some l → (∀ b ∈ benchesOf (boundTo s l), (s.dom (b + 1)).engineReset = false) →
      exec (.hangDetect r) s = .next (judgeCycle (hangRecord s l) l r)) ∧
    (s.eng.hang = some h → h.resumed = none → (∀ b, b < 17 → (s.dom b).engineReset = false) → h.running = 0 →
      exec .suspectReplay s = .next (nextSuspect s h)) ∧
    (s.eng.hang = some h → s.eng.ctxs.get h.running = some x → x.st = .running →
      exec .replayWatchdog s = .next (raiseExc s (.ctx h.running) x.core.pc { code := xWatchdog }))

/-! Boot, plans, images and licences. -/

/-- Boot steps 1 to 5 and the licences: fuses read, the anchor selected, the passing slot started or the boot stopped, the evaluation of step 4; and licences stored, removed and found expired (R8, R77, R78, R254, R257, R258, R421, R477). The signature checks are Config's, so that of step 3 both outcomes are stated. The model's own choices within it: log 10, 114, 115, 116, 119, 129. -/
def Obligations.BootAndLicenceCommands : Prop :=
  ∀ (s : State) (a : Anchor) (r : Nat) (idx : BitVec 32) (buf : List Byte) (g : Ring) (f : Fetched),
    let lic := bufOf f buf
    let n := leAt (argsOf f) 0 8
    (bootAt s 1 = true → exec .keeperBootRom s = .next (wake (driveFaultL ((setStep s 2).onPower fun p => { p with fusesRead := true })) 21)) ∧
    (bootAt s 2 = true → s.domSt 21 = .fenced →
      exec .nvOpen s = .next (((setStep s 3).fault 0 0 0x088 .fatal).onPower fun p => { p with stopped := true })) ∧
    (let u := s.onNv fun v => { v with restarting := false }
     let w := (repairAnchors u a).onTime fun t => { t with floor := Nat.max t.floor a.timeFloor }
     let x := if w.time.firstLock then w else w.onTime fun t => { t with now := Nat.max t.now t.floor }
     bootAt s 2 = true → s.domOn 21 = true → anchorChoice u = (some a, false) → s.nv.dressStep = 0 →
       exec .nvOpen s = .next (releaseWaits (takePairing (takeNextPlan (setStep (x.onFab fun y => { y with operatorKey := a.operatorKey }) 3))))) ∧
    (bootAt s 3 = true → s.power.stopped = false →
      exec .controllerFwVerify s = .next (match bootSlot s with
        | none => (s.fault 0 0 0x088 .fatal).onPower fun p => { p with stopped := true }
        | some k =>
          let b := slotImage s k
          let h := hashAt b 0x20
          let u := setStep (clearKind (s.onPower fun p =>
            { p with stopped := false, svn := imageSvn b, slot := k, imageHash := h, fastPath := fastPathHolds s k h
                     raisePending := (leAt b 7 1).testBit 0 && decide (p.floor < imageSvn b) }) 0x088) 4
          if u.pair.role = .standby ∨ u.pair.role = .relinquished then standbyRest u else wake u 22)) ∧
    (bootAt s 4 = true → s.power.licDone = false → s.pair.role = .unpaired →
      exec .licenceEvaluation s = .next (bootDomains ((evaluate s).onPower fun p => { p with licDone := true, step := 5 }))) ∧
    (∀ b, b ∈ s.lic.stored → s.pins.d0Up = true → s.lic.evaluated = true → leAt b 8 8 ∈ s.lic.passing → leAt b 0x48 8 ≠ 0 →
      leAt b 0x48 8 ≤ evalTime s → exec .licenceExpiryCheck s = .next (evaluate s)) ∧
    (Serves s r idx 0x11 g f → Journals s → lic.length = 256 → zeroAt (argsOf f) 0 40 = true → licWellFormed lic = true →
      (∀ b ∈ s.lic.stored, leAt b 8 8 ≠ leAt lic 8 8) → s.lic.stored.length < 64 →
      exec (.licenceStore r idx buf) s =
        .next (finish (evaluate (putObject { s with lic := { s.lic with stored := s.lic.stored ++ [lic] } } clsLicence (leAt lic 8 8) lic)) r f stOk)) ∧
    (Serves s r idx 0x12 g f → Journals s → n ≠ 0 → zeroAt (argsOf f) 8 32 = true → (∃ b ∈ s.lic.stored, leAt b 8 8 = n) →
      let u := journal { s with lic := { s.lic with stored := s.lic.stored.filter fun b => leAt b 8 8 != n } } jObject [BitVec.ofNat 64 clsLicence, BitVec.ofNat 64 n, 0]
      exec (.licenceRemove r idx) s =
        .next (finish (evaluate (u.onNv fun v => { v with objects := v.objects.del (objKey clsLicence n) })) r f stOk))

/-- Boot steps 6 to 13: memory and self-tests, the model rebuilt, the plan's limits, discovery and its end, agent firmware and its end, the base table set, and the outcome (R254, R255, R264 to R269, R425). The model's own choices within it: log 73, 118, 120, 121, 130, 152, 175, 176, 178, 183. -/
def Obligations.BringUpCommands : Prop :=
  ∀ (s : State) (k d u : Nat) (ok : Bool) (m : Fabric × Isles) (cables : List (Nat × Nat)),
    (bootAt s 6 = true → k < s.pins.part.stacks →
      exec (.hbmMemoryTest [k]) s =
        .next (setStep ((s.fault 22 k 0x084 .degraded).onPower fun p => { p with hbmFenced := p.hbmFenced ||| BitVec.ofNat 8 (2 ^ k) }) 7)) ∧
    (bootAt s 7 = true → 1 ≤ d → d ≤ 20 → s.domPresent d = true → u < 64 →
      exec (.bringupSelfTest [(d, u)]) s = .next (setStep (s.fault d u 0x084 .degraded) 8)) ∧
    (bootAt s 8 = true → s.domOn 22 = true → s.domOn 21 = true → s.pair.role ≠ .takingOver →
      exec (.modelRebuild ok none) s = .next (setStep (rebuild s (ok || s.power.fastPath)) 9)) ∧
    (bootAt s 8 = true → s.domOn 22 = true → s.domOn 21 = true → s.pair.role ≠ .takingOver → s.power.fastPath = true →
      exec (.modelRebuild ok (some m)) s = .next (setStep (rebuild s true) 9)) ∧
    (bootAt s 8 = true → s.domOn 22 = true → s.domOn 21 = true → s.pair.role ≠ .takingOver → s.power.fastPath = false →
      exec (.modelRebuild ok (some m)) s = .next (setStep (rebuild
        { s with fab := { m.1 with st := s.fab.st, diffGen := s.fab.diffGen, diffs := s.fab.diffs, reqs := [] }, isles := m.2 } ok) 9)) ∧
    (bootAt s 9 = true →
      let v := s.onFab fun f => { f with cable := cables.foldl (fun m q => if q.1 < 4 then m.set q.1 q.2 else m) [] }
      exec (.planCheck cables) s = .next (setStep (v.onFab fun f => { f with links := modelLinks v }) 10)) ∧
    (let v := (setFab (wake s 18) .discovering none).onFab fun f =>
        { f with unexpected := [], roster := f.roster.mapVals fun _ r =>
          { r with found := false, macs := [], manifest := false, measKnown := false, fwFailed := false } }
     bootAt s 10 = true → s.fab.st ≠ .discovering → v.pair.timeLoad = none →
      exec .discovery s = .next (discoveryCheck ((v.fab.roster.filter fun q => q.2.addr != noAddr || q.2.spare.isSome).foldl
        (fun t q => sendRegs t q.1 (readItem 0x10 :: readItem 0x20 :: measItems)) v))) ∧
    (bootAt s 10 = true → s.fab.st = .discovering →
      let warm := s.power.fastPath = true ∨ s.pair.role = .takingOver
      let v := assignMatched (s.onPower fun p => { p with step := if p.fastPath ∨ s.pair.role = .takingOver then 13 else 11 })
      (warm → exec .discoveryWindowEnd s = .next (v.fab.roster.foldl (fun t q => loadAlone t q.1) v)) ∧
      (¬ warm → exec .discoveryWindowEnd s = .next v)) ∧
    (bootAt s 11 = true → s.fab.fwLoading = false → loadList s = [] → measPending s = false → exec .agentFwLoad s = .next (endFirmware s)) ∧
    (bootAt s 11 = true → s.fab.fwLoading = false → loadList s ≠ [] ∨ measPending s = true →
      let l := loadList s
      let v := l.foldl (fun t q => sendManifest t q.1 0 false) (s.onFab fun f => { f with fwLoading := true, fwGaps := [], fwRepaired := false })
      let mac (q : Nat × Roster) : Nat := fwGroup v (placeAddr v q.1) q.1
      let groups : FMap Nat := l.foldl (fun (m : FMap Nat) q => m.set (mac q % 64 * 2 ^ 48 + mac q) q.2.hcClass) []
      exec .agentFwLoad s = .next (l.foldl (fun t q => sendRegs t q.1 (readItem 0x20 :: measItems))
        (groups.foldl (fun t q => (t.emit (.fwGroup (q.1 % 2 ^ 48) q.2)).emit (.fwEnd (q.1 % 2 ^ 48) (chunkCount (stagedImage t q.2)))) v))) ∧
    (bootAt s 11 = true → s.fab.fwLoading = true → exec .fwLoadTimeout s = .next (endFirmware s)) ∧
    (bootAt s 12 = true → s.isles.installs.get 0 = none → exec .baseTableSet s = .next (baseInstall s [])) ∧
    (bootAt s 13 = true → s.isles.installs = [] →
      let v := agree (setStep s 14)
      exec .topologyAgreement s = .next (tookOver (endReset (recordOutcome (if v.fab.st = .held then v else raiseFloor v)))))

/-- Plans, staged images and announcements: the effect with every check that Config's signatures leave open in the result (R225, R259, R263 to R265, R271, R437). The model's own choices within it: log 117, 120, 121, 124, 133, 177. -/
def Obligations.PlanAndAnnounceCommands : Prop :=
  ∀ (s : State) (r : Nat) (idx : BitVec 32) (buf : List Byte) (g : Ring) (f : Fetched) (id life mac : Nat) (info fw : Word) (key : Hash) (a : FAddr),
    let kind := leAt (argsOf f) 0 1
    let cls := leAt (argsOf f) 1 1
    let down := leAt (argsOf f) 2 1
    (Serves s r idx 0x10 g f → Journals s → zeroAt (argsOf f) 0 40 = true →
      exec (.planLoad r idx buf) s = .next (if planAccepted s (bufOf f buf) then finish (storePlan s (bufOf f buf)) r f stOk else finish s r f stInvalid)) ∧
    (Serves s r idx 0x13 g f → Journals s → kind = 0 → cls = 0 → down = 0 → zeroAt (argsOf f) 3 29 = true →
      exec (.fwStage r idx buf) s = .next (finish (stageController s (bufOf f buf)).2 r f (stageController s (bufOf f buf)).1)) ∧
    (Serves s r idx 0x13 g f → Journals s → kind = 1 → down ≤ 1 → zeroAt (argsOf f) 3 29 = true →
      exec (.fwStage r idx buf) s = .next (finish (stageAgent s cls (down == 1) (bufOf f buf)).2 r f (stageAgent s cls (down == 1) (bufOf f buf)).1)) ∧
    (Serves s r idx 0x13 g f → Journals s → kind = 2 → down ≤ 1 → zeroAt (argsOf f) 3 29 = true →
      exec (.fwStage r idx buf) s = .next (finish (stagePattern s cls (down == 1) (bufOf f buf)).2 r f (stagePattern s cls (down == 1) (bufOf f buf)).1)) ∧
    (s.pins.d0Up = true → 3 ≤ s.power.step → s.fab.operatorKey = none →
      let u := s.onFab fun y => { y with operatorKey := some (planKeyHash buf) }
      exec (.planEnrol true buf) s = .next (if planWellFormed buf && oneSteward buf && planSigned buf
        then storePlan (u.onNv fun n => { n with gen := n.gen + 1, anchorTodo := anchorDies }) buf else s)) ∧
    (s.domOn 23 = true → 10 ≤ s.power.step → s.fab.st ≠ .booting →
      let u := (heard s id).onFab fun y =>
        { y with eseq := y.eseq.del id, classFloor := y.classFloor.set (fld info 55 48) (Nat.max (y.classFloor.getD (fld info 55 48) 0) (fld fw 31 16)) }
      let e := announced u (u.roster id) (Life.ofCode life) info fw mac key (u.fab.plan.bind fun pl => entryNumber pl id)
      let v := u.onFab fun y => { y with roster := y.roster.set id e }
      (placeOf u id = .unknown → u.fab.unexpected.contains id = false →
        exec (.announce id life info fw mac key) s = .next (discoveryCheck (u.onFab fun y => { y with unexpected := y.unexpected ++ [id] }))) ∧
      (placeOf u id = .at a → (u.roster id).retired = false →
        exec (.announce id life info fw mac key) s = .next (discoveryCheck (lateFound (assignFound (lifeKnown v id) id a) id))))

/-! Portals, registers and rings. -/

/-- Portals: configuration requests, resets of the partition and their end, PT_CTRL, the fault slots, the mailboxes, and register accesses performed, held, resumed and ended (R7, R67, R68, R85, R110, R112, R118, R119, R350, R352). The model's own choices within it: log 30, 134, 136, 139, 140, 142, 160, 168, 169. -/
def Obligations.PortalCommands : Prop :=
  ∀ (s : State) (p n : Nat) (w : Word) (h : HeldAccess),
    let q := s.portal p
    let opened := s.portalOpen p = true
    let box := q.mbo.getD n {}
    let inbox := q.mbi.getD n {}
    let rest : State := s.onPortal p fun x => { x with held := x.held.erase h }
    (s.hasPortal p = true → exec (.pcieConfigRequest p) s = .next (s.emit (.cfg p (!s.lic.evaluated || q.st == .resetting)))) ∧
    (s.hasPortal p = true → q.st ≠ .resetting →
      let u := dropCtxs (dropRings (endHeld s p) p) p
      exec (.pcieResetEvent p) s =
        .next ((setLast (u.onPortal p fun x => x.afterReset false u.now) 3 .software).onPortal p fun x => { x with words := [] })) ∧
    (opened → exec (.ptResetGo p) s = .next (partitionReset (s.emit (.writeDone p)) p false .software)) ∧
    (q.st = .resetting → s.power.draining = false →
      exec (.partitionResetDone p) s =
        .next (chipDue (setLastUs (s.onPortal p fun x => { x with st := if x.fenceAfter then .fenced else .ready }) q.resetAt))) ∧
    (opened → w.getLsbD 1 = false →
      exec (.ptCtrlWrite p 0x10008 8 w) s = .next ((s.onPortal p fun x =>
        { x with faultIrqEn := w.getLsbD 8, mbIrqEn := false, ringsEn := w.getLsbD 0 }).emit (.writeDone p))) ∧
    (opened → exec (.ptFaultFirstClear p) s = .next ((s.onPortal p fun x => { x with first := none }).emit (.writeDone p))) ∧
    (opened → exec (.ptFaultNextClear p) s = .next ((showNext (s.onPortal p fun x => { x with next := none }) p).emit (.writeDone p))) ∧
    (opened → q.role = .steward → exec (.lhFaultFirstClear p w) s = .next ((s.emit (.writeDone p)).onColl fun c =>
      { c with first := if w.getLsbD 0 then none else c.first, spoil := fld w 63 48, recoveries := fld w 47 32 })) ∧
    (opened → n < 64 → box.full = false → box.ctx = 0 →
      exec (.ptMboDataWrite p n w) s = .next (wake ((s.onPortal p fun x =>
        { x with mbo := x.mbo.set n { box with word := w, full := true } }).emit (.writeDone p)) 17)) ∧
    (s.hasPortal p = true → n < 64 → inbox.full = true →
      exec (.ptMbiDataRead p n) s = .next ((s.onPortal p fun x =>
        { x with mbi := x.mbi.set n { inbox with word := 0, full := false } }).emit (.readValue p inbox.word))) ∧
    (opened → q.role = .steward →
      exec (.registerWrite p false true 0x118 (wordBytes w)) s = .next ((s.emit (.writeDone p)).onPower fun x =>
        { x with fyIdleMs := BitVec.ofNat 16 (fld w 47 32), chIdleUs := BitVec.ofNat 16 (fld w 31 16), benchIdleUs := BitVec.ofNat 16 (fld w 15 0) })) ∧
    (s.hasPortal p = true →
      exec (.rcRegisterRead p false true 0x10028 8) s = .next ((s.onPortal p fun x =>
        { x with logCount := 0, logEvent := 0, logBar2 := false, logWrite := false, logSize := 0, logOffset := 0 }).emit
          (.readValue p (addressed (regWord s p 0x10028) 0x10028 8)))) ∧
    (q.held.find? (fun x => s.domOn x.dom) = some h → h.write = none →
      exec (.portalAccessResume p) s = .next (readNow rest p h.offset h.size)) ∧
    (q.held.find? (fun x => s.domOn x.dom) = some h → h.write = some w →
      exec (.portalAccessResume p) s = .next (unitWrite rest p h.offset w)) ∧
    (q.held.find? (fun x => !s.domOn x.dom) = some h →
      exec (.portalAccessTimeout p) s = .next ((rest.portalFault p 0x002 .note (if h.write.isSome then 2 else 1) 1 h.offset).emit
        (if h.write.isSome then .writeDone p else .readValue p 0)))

/-- Rings: the seven commands of the channel engine with D17 ON, a doorbell that is ahead and within the ring, the fetch of an entry, resumption after a full completion ring, and NOP (R88 to R102, Table 3.17). The model's own choices within it: log 15, 35, 37, 41, 46, 48, 65, 155, 156, 157, 158, 159, 161, 167. -/
def Obligations.RingCommands : Prop :=
  ∀ (s : State) (p r n : Nat) (tag : BitVec 16) (g c : Ring) (data : Word) (raw buf : List Byte) (idx : BitVec 32) (f : Fetched),
    let ready := s.portalOpen p = true ∧ (s.portal p).cmdBusy = false ∧ s.domSt 17 = .on
    let t := (s.onPortal p fun q => { q with cmdTag := tag }).emit (.writeDone p)
    let named := r < 2 ^ 22 ∧ fld (s.portal p).arg0 21 0 = r ∧ r / 2 ^ 19 = p ∧ s.eng.rings.get r = some g
    let ends (u : State) : State := u.onPortal p fun q => { q with cmdStatus := 0, cmdBusy := false, cmdOp := 0 }
    let a := s.portal p
    let flags := fld a.arg1 31 16
    (∀ k, ready → RingKind.ofCode (fld a.arg1 15 8) = some k → 6 ≤ fld a.arg1 7 0 → fld a.arg1 7 0 ≤ 16 → fld a.arg0 11 0 = 0 → fld a.arg3 2 0 = 0 →
      flags < 4 → (k = .submit → ringPortal (fld a.arg2 63 32) = p ∧ (s.eng.rings.get (fld a.arg2 63 32)).map (·.kind) = some .complete) →
      islandDenied s p (fld a.arg1 47 32) = false → (flags % 2 = 1 → a.session.live = true ∧ a.role ≠ .auditor) →
      findFrom (fun i => (s.eng.rings.get (p * 2 ^ 19 + i)).isNone) 524288 0 = some n →
      let new : Ring :=
        { base := a.arg0, log2 := fld a.arg1 7 0, kind := k, owner := p, island := fld a.arg1 47 32, confidential := flags % 2 == 1
          shadowEn := flags / 2 % 2 == 1, wakeTarget := a.arg2.truncate 32, paired := if k = .submit then fld a.arg2 63 32 else 0
          shadow := a.arg3, changed := s.now }
      exec (.ringCreate p tag) s = .next (ends ((t.onEng fun e => { e with rings := e.rings.set (p * 2 ^ 19 + n) new }).onPortal p fun q =>
        { q with arg0 := BitVec.ofNat 64 (p * 2 ^ 19 + n) }))) ∧
    (ready → named → g.st ≠ .active → (g.kind = .complete → ∀ q ∈ s.eng.rings, ¬(q.2.kind = .submit ∧ q.2.paired = r)) →
      exec (.ringDestroy p tag) s = .next (ends (dropRing t r))) ∧
    (ready → named → g.st ≠ .error → exec (.ringFence p tag) s = .next (ends (fenceRing t r))) ∧
    (ready → named → g.st = .fenced → exec (.ringResume p tag) s = .next (ends (settleRing (setRingSt t r .idle) r))) ∧
    (ready → named → g.st = .error ∨ g.st = .fenced →
      exec (.ringReset p tag) s = .next (ends (drainWaiting ((setRingSt t r .idle).onRing r fun y =>
        { y with prod := 0, cons := 0, fetched := [], stalled := false, lost := 0, errStatus := 0, errIndex := 0 }) r g.size))) ∧
    (ready → named → exec (.ringQuery p tag) s = .next (ends (t.onPortal p fun x =>
      { x with arg0 := at_ g.prod.toNat 0 ||| at_ g.cons.toNat 32, arg1 := at_ g.st.code 0 ||| at_ g.waitsWord 32
               arg2 := at_ g.errIndex.toNat 0 ||| at_ g.errStatus.toNat 32, arg3 := g.done }))) ∧
    (ready → named → exec (.ringRetarget p tag) s = .next (ends (t.onRing r fun y => { y with wakeTarget := a.arg1.truncate 32 }))) ∧
    (s.hasPortal p = true → (s.portal p).st ≠ .resetting → n < 524288 → s.domOn 17 = true → s.eng.rings.get (p * 2 ^ 19 + n) = some g → g.kind = .submit →
      g.st ≠ .error → (data.truncate 32 - g.prod).toNat < 2 ^ 31 → (data.truncate 32 - g.cons).toNat ≤ g.size →
      exec (.doorbellWrite p (8 * n) 8 data) s =
        .next (doorbellAccept (wake (s.emit (.writeDone p)) 17) (p * 2 ^ 19 + n) g (data.truncate 32))) ∧
    (s.portalOpen p = true → n < 524288 → s.eng.rings.get (p * 2 ^ 19 + n) = some g → g.kind = .submit → g.st ≠ .error →
      (data.truncate 32 - g.prod).toNat < 2 ^ 31 → 2 ^ g.log2 < (data.truncate 32 - g.cons).toNat →
      exec (.doorbellWrite p (8 * n) 8 data) s =
        .next (errorRing ((wake (s.emit (.writeDone p)) 17).portalFault p 0x005 .note 2 2 (8 * n)) (p * 2 ^ 19 + n) stInvalid (data.truncate 32))) ∧
    (s.eng.rings.get r = some g → g.kind = .submit → g.st = .active → g.occ ≠ 0 → g.ctx = 0 → (s.portal g.owner).ringsEn = true → s.domOn 17 = true →
      completeFull s g = false → malformedEntry (subEntryOf raw) = false → roleMay (s.portal g.owner).role (subEntryOf raw).opcode.toNat = true →
      sealRefusal g (subEntryOf raw) = none →
      exec (.entryFetch r (.entry raw)) s = .next (takeEntry s r g raw 0).2 ∧
      ∃ u, exec (.entryFetch r (.entry raw)) s = .next u ∧ ∃ y, u.eng.rings.get r = some y ∧ y.cons = g.cons + 1 ∧
        y.fetched = g.fetched ++ [{ index := g.cons, entry := subEntryOf raw }]) ∧
    (s.eng.rings.get r = some g → completeFull (drainWaiting s g.paired g.size) g = false →
      exec (.submitResume r) s = .next (wakeBlocked ((drainWaiting s g.paired g.size).onRing r fun y => { y with stalled := false }) r)) ∧
    (Serves s r idx 0x00 g f → s.eng.rings.get g.paired = some c → exec (.nop r idx buf) s = .next (answer s r idx stOk))

/-! Contexts, islands, trust, schedules, telemetry and maintenance. -/

/-- The life of contexts: start, the stop of one that is PENDING or FAULTED and of one that runs, its end by force, the FAULTED limit, a reset, placement, wake causes, the time of HALT.UNTIL, and mailbox bindings (R109, R152 to R159, R161, R361). The model's own choices within it: log 7, 14, 42, 143, 162, 172. -/
def Obligations.ContextCommands : Prop :=
  ∀ (s : State) (r : Nat) (idx : BitVec 32) (buf : List Byte) (g : Ring) (f : Fetched) (n b k : Nat) (x : Ctx) (inc : Bool),
    let c := leAt (argsOf f) 0 4
    let start := startCtx s g.owner g (argsOf f) (bufOf f buf)
    let new := g.owner * 2 ^ 21 + n
    (Serves s r idx 0x01 g f → startRefusal s g.owner (argsOf f) (bufOf f buf) = none → freeLocal s g.owner = some n → start.ring = none →
      exec (.ctxStart r idx buf) s =
        .next (finish (s.onEng fun e => { e with ctxs := e.ctxs.set new start, nextOrder := e.nextOrder + 1 }) r f stOk (leBytes 4 new))) ∧
    (Serves s r idx 0x01 g f → startRefusal s g.owner (argsOf f) (bufOf f buf) = none → freeLocal s g.owner = some n → start.ring = some k →
      exec (.ctxStart r idx buf) s =
        .next (finish ((s.onEng fun e => { e with ctxs := e.ctxs.set new start, nextOrder := e.nextOrder + 1 }).onRing k fun y => { y with ctx := new })
          r f stOk (leBytes 4 new))) ∧
    (Serves s r idx 0x02 g f → zeroAt (argsOf f) 6 34 = true → s.eng.ctxs.get c = some x → x.portal = g.owner → isSystem c = false →
      x.st = .pending ∨ x.st = .faulted → exec (.ctxStop r idx buf) s = .next (finish (endCtx s c stOk) r f stOk)) ∧
    (Serves s r idx 0x02 g f → zeroAt (argsOf f) 6 34 = true → s.eng.ctxs.get c = some x → x.portal = g.owner → isSystem c = false →
      x.st = .running ∨ x.st = .halted ∨ x.st = .blocked →
      exec (.ctxStop r idx buf) s = .next (setCause (s.onCtx c fun y =>
        { y with stopEntry := some (r, f.index), graceUs := if leAt (argsOf f) 4 2 = 0 then 1000 else leAt (argsOf f) 4 2
                 st := .stopping }) c causeStop)) ∧
    (Serves s r idx 0x02 g f → zeroAt (argsOf f) 6 34 = true → s.eng.ctxs.get c = none → endedNow s c = true → ctxPortal c = g.owner → isSystem c = false →
      exec (.ctxStop r idx buf) s = .next (finish s r f stOk)) ∧
    (s.eng.ctxs.get n = some x → x.st = .stopping → exec (.stopGraceExpiry n) s = .next (endCtx s n stFenced)) ∧
    (s.eng.ctxs.get n = some x → x.st = .faulted → exec (.faultedTimeout n) s = .next (endCtx s n stOk)) ∧
    (Serves s r idx 0x03 g f → zeroAt (argsOf f) 4 36 = true → s.eng.ctxs.get c = some x → x.portal = g.owner → isSystem c = false → x.st = .faulted →
      exec (.ctxReset r idx buf) s = .next (finish (toPending (zeroWindow s c x) c) r f stOk)) ∧
    ((placeOrder s).findSome? (fun q => (placeFor s q.2).map fun w => (q, w)) = some ((n, x), (b, k)) →
      exec .placement s = .next (putOn s n x b k)) ∧
    (k < 6 → s.eng.ctxs.get n = some x → exec (.wakeCause n k) s = .next (setCause s n k) ∧
      ∃ t y, exec (.wakeCause n k) s = .next t ∧ t.eng.ctxs.get n = some y ∧ y.core.causes.getLsbD k = true) ∧
    (s.eng.ctxs.get n = some x → x.core.untilT = some k → k ≤ s.now → exec (.timeWake (.ctx n)) s = .next (setCause s n causeTime)) ∧
    (earliestWake s b = some k → s.domSt (b + 1) = .off → k ≤ s.now + 30000 → exec (.benchPrewake b) s = .next (wake s (b + 1))) ∧
    (Serves s r idx 0x04 g f → n < 64 → k ≠ 0 → ctxPortal k = g.owner → isSystem k = false → s.eng.ctxs.get k = some x →
      inc = true ∨ ((s.portal g.owner).mbo.getD n {}).full = false →
      exec (.mbBind r idx buf inc n k) s = .next (finish (s.onPortal g.owner fun p => bindChannel p inc n k) r f stOk)) ∧
    (Serves s r idx 0x04 g f → n < 64 → k ≠ 0 → ctxPortal k = g.owner → isSystem k = false → s.eng.ctxs.get k = some x →
      ((s.portal g.owner).mbo.getD n {}).full = true →
      exec (.mbBind r idx buf false n k) s = .next (finish (setCause (s.onPortal g.owner fun p => bindChannel p false n k) k causeMailbox) r f stOk))

/-- Islands: carved, bounded, released at once or after an ECOMMIT, measured, aborted, and the resends of an abort; schedules loaded (R301, R302, R310 to R316, R320, R327, R372 to R376). The model's own choices within it: log 7, 28, 68, 69, 79, 81, 82, 90, 100, 101, 152, 179, 182, 186. -/
def Obligations.IslandCommands : Prop :=
  ∀ (s : State) (r : Nat) (idx : BitVec 32) (buf : List Byte) (g : Ring) (f : Fetched) (n key : Nat) (l : Island) (img : List Byte),
    let a := argsOf f
    let b := bufOf f buf
    let h := leAt a 0 2
    let low := lowOf (leAt a 4 4)
    let shape := shapeOf4 (leAt a 8 4)
    let conf := (leAt a 2 1).testBit 0
    let isl := s.isles.islands.get h
    (let q : SetPlan := { h := n, epoch := 1, pkey := key, low := low, shape := shape, members := carveMembers s low shape
                          moves := (carveMoves s low shape).filter fun m => m.2.2 != 0, sched := leAt a 0x10 8, waits := [] }
     let new : Island := { pkey := key, confidential := conf, parties := BitVec.ofNat 8 (leAt a 3 1), low := low, shape := shape, members := q.members
                           policy := b, order := s.isles.nextOrder, entry := some (r, idx), xts := if conf then s.isles.xtsGen + 2 else 0
                           broker := { keyGen := s.isles.xtsGen + 1 } }
     let t := s.onIsles fun e => { e with islands := e.islands.set n new, lastHandle := n, nextOrder := e.nextOrder + 1, xtsGen := e.xtsGen + 2 }
     Serves s r idx 0x20 g f → Journals s → h = 0 → carveRefusal s a b = none → nextHandle s = some n → nextKey s = some key → setRefusal t q = none →
       exec (.islandCarve r idx buf) s = .next (installSet (wake (setIsl t n .carving) 18) q s.hasIu)) ∧
    (let last := l.epoch == 0xFFFFFFFF
     let q₀ : SetPlan := { h := h, epoch := if last then 1 else l.epoch + 1, pkey := if last then key else l.pkey, low := (boundaryBox l a).1, shape := (boundaryBox l a).2
                           members := boundaryMembers s l a, moves := boundaryMoves s l a, sched := 0, waits := [] }
     let q := { q₀ with sched := nextSched (setState s q₀) l q₀.region }
     let t := setIsl ((wake s 18).onIsland h fun x => { x with prev := x.st, entry := some (r, idx) }) h .boundary
     let tests := startTests t ((withIds t q.members).map (·.2))
     let trains := startRetrains tests.2 h
     Serves s r idx 0x20 g f → Journals s → h ≠ 0 → boundaryRefusal s h a b = none → isl = some l → nextKey s = some key →
       setRefusal s q = none →
       exec (.jobBoundary r idx buf) s = .next (installSet trains.2 { q with waits := tests.1 ++ trains.1 } trains.2.hasIu)) ∧
    (Serves s r idx 0x21 g f → Journals s → isl = some l → zeroAt a 2 38 = true → l.release = none → l.st.releases = true →
      exec (.islandRelease r idx) s = .next (startRelease (s.onIsland h fun y => { y with release := some (r, idx) }) h)) ∧
    (Serves s r idx 0x21 g f → Journals s → isl = some l → zeroAt a 2 38 = true → l.release = none → l.st = .boundary →
      exec (.islandRelease r idx) s = .next (s.onIsland h fun y => { y with release := some (r, idx) })) ∧
    (s.isles.islands.get n = some l → l.release ≠ none → l.st.releases = true → exec (.islandReleaseResume n) s = .next (startRelease s n)) ∧
    (exec (.islandStateScrubDone n) s = .next (releaseCheck (s.onIsland n fun y => { y with ownScrub := false }) n)) ∧
    (let t := brokerPair s h
     Serves s r idx 0x22 g f → strangeParty s g.owner h = false → s.pins.debugUnlocked = false → isl = some l → zeroAt a 2 6 = true → l.st ≠ .carving →
      s.domSt 19 ≠ .fenced →
      exec (.islandMeasure r idx buf) s =
        .next (finish (wake t 19) r f stOk [] (islandReport t h ((t.isles.islands.get h).getD l) (slice a 8 32)))) ∧
    (Serves s r idx 0x23 g f → Journals s → strangeParty s g.owner h = false → isl = some l → leAt a 2 1 = 1 → zeroAt a 3 37 = true → l.st.aborts = true →
      exec (.islandAbort r idx buf) s = .next (abortIsland s h 1 (some (r, idx)))) ∧
    (Serves s r idx 0x23 g f → Journals s → strangeParty s g.owner h = false → isl = some l → leAt a 2 1 = 1 → zeroAt a 3 37 = true → l.st = .aborted →
      exec (.islandAbort r idx buf) s = .next (finish s r f stOk)) ∧
    (s.isles.islands.get n = some l → l.abortWait ≠ [] → l.abortSends < 8 →
      exec (.abortResend n) s = .next (l.abortWait.foldl (fun t x => sendAbort t n l.abortReason x)
        (s.onIsland n fun x => { x with abortSends := x.abortSends + 1 }))) ∧
    (s.isles.islands.get n = some l → l.abortWait ≠ [] → 8 ≤ l.abortSends →
      let t := l.abortWait.foldl (fun t x => t.post { t.mkRec 0 0 0x1C4 .degraded with source := x, unit := 0x008, island := n }) s
      exec (.abortResend n) s = .next (answerAt (t.onIsland n fun x => { x with abortWait := [], abortEntry := none }) l.abortEntry stOk
        (leBytes 4 l.abortWait.length))) ∧
    (let t := wake s 18
     let pin := (leAt a 2 1).testBit 1
     let id := t.isles.nextSched
     let old := leAt a 8 8
     let pends (u : State) (k : Nat) : State := finish (gcScheds (journal (u.onIsland h fun y =>
       { y with pendSched := k, autoVariant := (leAt a 2 1).testBit 2 }) jModel [at_ 0x22 0 ||| at_ h 16, BitVec.ofNat 64 k])) r f stOk (leBytes 8 k)
     let checked (k : List Byte → State) : State := match schedOf t a b with
       | none => finish t r f stInvalid
       | some i => match schedRefusal t a b i with
         | some st => finish t r f st
         | none => k i
     Serves s r idx 0x30 g f → Journals s → s.domSt 18 ≠ .fenced → leAt a 2 1 < 8 → zeroAt a 3 5 = true → zeroAt a 16 24 = true →
       (b ≠ [] → h ≠ 0 → exec (.schedLoad r idx buf) s =
         .next (checked fun i => pends (storeSched t i ((leAt a 2 1).testBit 0) pin).2 id)) ∧
       (b ≠ [] → h = 0 → exec (.schedLoad r idx buf) s =
         .next (checked fun i => finish (gcScheds (storeSched t i true pin).2) r f stOk (leBytes 8 id))) ∧
       (b = [] → h ≠ 0 → schedOf t a b = some img → schedRefusal t a b img = none → exec (.schedLoad r idx buf) s =
         .next (pends (if pin then t.onIsles fun e => { e with scheds := e.scheds.upd old fun y => { y with pin := true } } else t) old)))

/-- Trust and telemetry. What a party submits sealed, as it must on every ring: each kind of KEY_SHARE, and CONSENT. The record is opened, the entry judged in the order of R329, and then the broker takes the item and releases what it now may, a withdrawal acts at once, or the token waits for the next boundary; a record that does not open, or an entry that the checks refuse, completes with that status. Which it is, Config's cryptography leaves open, so the result says both (R115, R329, R330, R333, R339). Then the lapse of a consent token, which ends its grants at once and erases every slot that was delivered with DEBUG_OK, and telemetry reads on rings that do not seal (R337, R338, R340). The model's own choices within it: log 9, 10, 103, 193, 194. -/
def Obligations.TrustAndTelemetryCommands : Prop :=
  (∀ (s : State) (r : Nat) (idx : BitVec 32) (buf : List Byte) (g : Ring) (f : Fetched),
     let o := openRecord s g.owner r idx buf f.entry.length.toNat
     let opened (k : List Byte → List Byte → State → State) : State := match o with
       | (none, t) => sealRejected t g.owner r idx
       | (some plain, t) => k (slice plain 0 40) (plain.drop 40) t
     let share (kind : Nat) (k : Nat → Island → Nat → BitVec 256 → List Byte → State → State) : State := opened fun a env t =>
       let h := leAt a 0 2
       if leAt a 2 1 ≠ kind ∧ 1 ≤ leAt a 2 1 ∧ leAt a 2 1 ≤ 4 then s
       else if t.domSt 19 = .fenced then finish t r f stFenced
       else match shareRefusal t g a env with
         | some st => finish (wake t 19) r f st
         | none => match t.isles.islands.get h with
           | none => t
           | some l => finish (k h l (leAt a 3 1) ((shareSecret l a env).getD 0) a (wake t 19)) r f stOk
     let broker (h : Nat) (t : State) (w : Broker → Broker) : State := tryRelease (t.onIsland h fun y => { y with broker := w y.broker }) h
     (ServesSealed s r idx 0x40 g f →
       exec (.dataKey r idx buf) s = .next (share 1 fun h _ party secret _ t => broker h t fun w => { w with dataKeys := w.dataKeys.set party secret }) ∧
       exec (.weightShare r idx buf) s = .next (share 2 fun h _ party secret _ t => broker h t fun w => { w with shares := w.shares.set party secret }) ∧
       exec (.accept r idx buf) s = .next (share 3 fun h _ party _ _ t => broker h t fun w => { w with accepted := w.accepted ||| BitVec.ofNat 16 (2 ^ party) }) ∧
       exec (.withdraw r idx buf) s = .next (share 4 fun h l party _ a t => withdraw t h l party (leAt a 4 4))) ∧
     (ServesSealed s r idx 0x41 g f → Journals s → exec (.consent r idx buf) s = .next (opened fun a env t =>
       let h := leAt a 0 2
       if t.domSt 19 = .fenced then finish t r f stFenced
       else match partyRefusal t g a env (leAt a 2 1) 48 with
         | some st => finish (wake t 19) r f st
         | none =>
           if env.length ≠ 144 ∨ 8 ≤ leAt a 3 1 ∨ zeroAt a 5 3 = false ∨ 2 ^ 28 ≤ leAt a 0x18 4 ∨ zeroAt a 0x1C 12 = false then finish t r f stInvalid
           else finish (journal (wake (t.onIsland h fun y => { y with tokens := takeTokens y.tokens [tokenOf a] }) 19) jModel [at_ 0x21 0 ||| at_ h 16]) r f stOk))) ∧
  (∀ (s : State) (r : Nat) (idx : BitVec 32) (buf : List Byte) (g : Ring) (f : Fetched) (n p : Nat) (l : Island) (x : TelRead),
     let a := argsOf f
     let room := Nat.min 65536 f.entry.length.toNat
     (s.isles.islands.get n = some l → (∃ k ∈ l.consent, k.party = p ∧ k.lapsed = false ∧ k.notAfter < s.now) →
       let u := s.onIsland n fun y => { y with consent := y.consent.map fun k => if k.party = p ∧ k.notAfter < s.now then { k with lapsed := true } else k }
       exec (.consentLapse n p) s = .next ((withIds s l.members).foldl (fun t m =>
         (slotsOf (t.roster m.2).debugSlots).foldl (fun v slot => keyErase v m.2 slot l.epoch l.pkey n) t) u)) ∧
     (Serves s r idx 0x50 g f → telemetryDenied s g.owner (leAt a 0 2) (leAt a 2 1) = false → leAt a 2 1 ≤ 4 → leAt a 3 1 ≤ 1 →
       (leAt a 3 1 = 1 → leAt a 2 1 = 3) → leAt a 4 4 < 2 ^ 28 → zeroAt a 16 24 = true → (leAt a 2 1 = 4 → s.hasIu = true) →
       telemetry s g.owner room a = some x →
       let data := x.data.take room
       exec (.telemetryRead r idx buf) s = .next (finish s r f stOk (leBytes 4 data.length ++ leBytes 8 x.time ++ [if x.coarse then 1 else 0]) data)))

/-- Maintenance: an activity admitted against its claims, ended by its work or by the steward, overrun, and a link retrain at work or stopped (R308, R453 to R457). The model's own choices within it: log 28, 105, 106. -/
def Obligations.MaintenanceCommands : Prop :=
  ∀ (s : State) (r : Nat) (idx : BitVec 32) (buf : List Byte) (g : Ring) (f : Fetched) (own : List Word) (groups : List Nat) (x : Activity) (n st : Nat)
    (recs : List (Nat × Nat × List Word)),
    let a := argsOf f
    let b := bufOf f buf
    let kind := leAt a 0 1
    let ws := listedClaims b
    let act : Activity := { kind := kind, target := wordAt a 8, groups := groups, maxS := leAt a 4 4 }
    (Serves s r idx 0x60 g f → leAt a 1 1 = 0 → leAt a 2 2 = 0 → 1 ≤ leAt a 4 4 → leAt a 4 4 ≤ 86400 → zeroAt a 16 24 = true → b.length % 8 = 0 →
      b.length ≤ 512 → derivedClaims kind (wordAt a 8) = some own → claimsGroups s (own ++ ws) = some groups →
      activityBarred s kind (wordAt a 8) ws = false → s.pair.queued.length < 256 →
      exec (.maintRequest r idx buf) s =
        .next (finish (admitAct s act).2 r f (if (admitAct s act).1 then stOk else stDeferred) (leBytes 2 (admitAct s act).2.pair.lastId))) ∧
    (Serves s r idx 0x60 g f → leAt a 1 1 = 1 → stewardAct s (leAt a 2 2) = some x →
      exec (.maintCancel r idx) s = .next (finish (endSteward s x stOk) r f stOk (leBytes 2 x.id))) ∧
    (stewardAct s n = some x → s.pair.running.contains x = true → exec (.maintActivityEnd n st) s = .next (endSteward s x st)) ∧
    (stewardAct s n = some x → s.pair.running.contains x = true → x.overrun = false →
      exec (.maintOverrun n) s = .next ((s.onPair fun p => { p with running := p.running.map fun y => if y.id = x.id then { y with overrun := true } else y }).fault
        0 0 0x289 .degraded (own := x.id))) ∧
    (stewardAct s n = some x → retrainWorks s x = true → exec (.linkRetrain n recs) s = .next (recs.foldl takeCalib (trainBoth s x.target))) ∧
    (s.pair.retrains.contains n = true →
      exec (.retrainLimit n) s = .next (waitDone (s.onPair fun p => { p with retrains := p.retrains.filter (· != n) }) (4 * n)))

/-- The time references: edges and their absence, Sync, Announce, qualification with the first load of the counter, and the end of hold, slew and holdover (R273 to R276, R469). The model's own choices within it: log 107, 108. -/
def Obligations.TimeReferenceCommands : Prop :=
  ∀ (s : State) (x : Side) (err off rate : Int) (n : Nat) (tr sc : Bool) (copies : List Nat) (t : Nat),
    let pin (v : Bool) : State := s.onPins fun p => match x with
      | .a => { p with ppsA := v }
      | .b => { p with ppsB := v }
    (s.pins.d0Up = true → 1000 < err.natAbs → exec (.ppsEdge x err off) s = .next (pin true)) ∧
    (s.pins.d0Up = true → err.natAbs ≤ 1000 →
      let u := refChange (pin true) x fun r => { r with ppsOk := true, offset := off }
      exec (.ppsEdge x err off) s = .next (if ((pin true).time.ref x).valid && (u.time.ref x).valid then
        u.onTime fun y => y.onRef x fun r => { r with qualS := satAdd 0xFFFF r.qualS 1 } else u)) ∧
    exec (.ppsMissing x) s = .next (refChange (pin false) x fun r => { r with ppsOk := false }) ∧
    (s.pins.d0Up = true → exec (.ptpSync x off) s = .next (refChange s x fun r => { r with syncOk := true, offset := off })) ∧
    exec (.syncTimeout x) s = .next (refChange s x fun r => { r with syncOk := false }) ∧
    (s.pins.d0Up = true → exec (.ptpAnnounce x n tr sc) s =
      .next (refChange s x fun r => { r with gradeOk := (n == 6 || n == 7) && tr && sc })) ∧
    ((s.time.ref x).valid = true → s.time.st = .unlocked → s.time.firstLock = false → s.time.a.qualified = false →
      let u := s.onTime fun y => y.onRef x fun r => { r with qualS := Nat.max r.qualS 10 }
      (u.time.a.qualified = false ∨ x = .a) → (if u.time.taken then some u.now else firstTime u x copies) = some t →
        exec (.referenceQualified x copies) s = .next (refUpdate (refUpdate (evaluate (setTime ((loadTime u t).onTime fun y =>
          { y with firstLock := true }) .slew x)) .a) .b)) ∧
    ((s.time.ref x).valid = true → s.time.st = .hold ∨ s.time.st = .slew →
      exec (.referenceQualified x copies) s = .next (s.onTime fun y => y.onRef x fun r => { r with qualS := Nat.max r.qualS 10 })) ∧
    (s.time.st = .hold → (s.time.ref s.time.target).valid = true → exec .holdEnd s = .next (setTime s .slew s.time.target)) ∧
    (s.time.st = .slew → (s.time.ref s.time.target).valid = true → (s.time.ref s.time.target).offset.natAbs ≤ 10 →
      let step := Int.ofNat ((s.now - s.time.rateAt) / 10000000)
      let ppb := max (s.time.ratePpb - step) (min (s.time.ratePpb + step) rate)
      let u := setTime (s.onTime fun y => { y with ratePpb := ppb, rateAt := y.now }) .locked s.time.target
      exec (.slewLock rate) s = .next (if liveIslands u = [] then returnToA u else u)) ∧
    (s.time.st = .holdover → exec .holdoverLimit s = .next (s.fault 0 0 0x1C1 .degraded))

/-- The pair: the arbiter's commands, the lease and its line, switchover and takeover (R437 to R445, R448, R450, R467). The model's own choices within it: log 122, 123, 124, 125, 126, 131, 197, 198. -/
def Obligations.PairCommands : Prop :=
  ∀ (s : State) (src unit rem : Nat) (hashA hashB : Hash) (macA macB : Nat) (w : Word) (img : List Byte),
    let held := s.pair.paired = true ∧ (s.pair.role = .active ∨ s.pair.role = .takingOver)
    let arbiter := s.pins.d0Up = true ∧ s.pair.paired = true ∧ s.pair.arbiter = src
    (s.pins.d0Up = true → s.pair.paired = false → s.pair.role = .unpaired → unit ≤ 1 →
      let key := Config.pairKey hashA hashB + 1
      let mac := if unit = 0 then macB else macA
      let t := (((journal (wake s 19) jObject [0, 0, 0]).onNv fun v => { v with pairing := some (unit, key, mac, src) }).onPair fun p =>
        { p with paired := true, unit := unit, pairKey := key, peerMac := mac, arbiter := src, txSeq := 0, rxSeq := 0, rejoined := false })
      exec (.pair src unit hashA hashB macA macB) s = .next (if t.pins.leaseLow then setRole (t.onPins fun p => { p with activeLow := true }) .active
        else goCold (setRole t .standby))) ∧
    (arbiter → s.pair.role = .active →
      exec (.unpair src) s = .next (setRole (((journal (s.onPins fun p => { p with activeLow := false }) jObject [0, 0, 0]).onNv fun v =>
        { v with pairing := none }).onPair fun p =>
          { p with paired := false, unit := 0, pairKey := 0, peerMac := 0, arbiter := 0, txSeq := 0, rxSeq := 0, peerLost := false, peerEligible := false
                   arbiterOk := false, acked := 0, renewedJsn := 0, switchJsn := none, switching := false, rejoined := false }) .unpaired)) ∧
    (s.pins.d0Up = true → held →
      let n := if s.pair.peerLost then s.nv.durable else Nat.min s.nv.durable s.pair.acked
      exec .leaseRenewTimer s = .next ((s.onPair fun p => { p with renewedJsn := n }).emit
        (.pldm 3 (at_ s.pair.unit 0 ||| b1 s.pair.peerEligible 8) (BitVec.ofNat 64 n)))) ∧
    (arbiter → held → rem < 2 ^ 64 → exec (.leaseAnswer src rem) s = .next (clearKind (s.onPair fun p => { p with arbiterOk := true }) 0x281)) ∧
    (s.pins.d0Up = true → held → exec .arbiterSilence s = .next ((s.fault 0 5 0x281 .degraded).onPair fun p => { p with arbiterOk := false })) ∧
    (arbiter → s.pair.role = .standby → exec (.forceTakeover src) s = .next (s.onPair fun p => { p with forced := true })) ∧
    (s.pins.d0Up = true → s.pair.role = .standby →
      exec .standbyState s = .next (s.emit (.pldm 5 (BitVec.ofNat 64 s.nv.durable) (b1 s.pair.rejoined 0)))) ∧
    (arbiter → exec (.trayMbWord src w) s = .next (if s.pair.trayIn.full then s.onPair fun p => { p with trayIn := { p.trayIn with ovf := true } }
      else wake (s.onPair fun p => { p with trayIn := { p.trayIn with word := w, full := true } }) 17)) ∧
    (bootAt s 3 = true → s.power.stopped = true →
      exec (.pldmFwUpdate img) s = .next ((putObject s clsSlot 0 img).onNv fun v => { v with slotBad := v.slotBad &&& 2 })) ∧
    (s.pins.d0Up = true → s.pair.role = .standby → exec .leaseLFall s = .next (takeover (s.onPins fun p => { p with leaseLow := true }))) ∧
    (s.pins.d0Up = true → held → exec .leaseLRise s =
      .next (goCold ((setRole ((s.onPins fun p => { p with leaseLow := false, activeLow := false }).fault 0 5 0x280 .degraded) .relinquished).onPair fun p =>
        { p with rejoined := false, switchJsn := none, switching := false, timeLoad := none }))) ∧
    (s.pins.d0Up = true → held → s.pair.peerLost = false → s.pair.acked < s.nv.durable →
      exec .peerAckTimeout s = .next (((s.fault 0 5 0x282 .degraded).onPair fun p => { p with peerLost := true, peerEligible := false }).emit
        (.pldm 5 (BitVec.ofNat 64 (s.fault 0 5 0x282 .degraded).pair.acked) 0))) ∧
    (s.pins.d0Up = true → s.pair.role = .active → s.pair.paired = true → runningAct s 6 0 ≠ none →
      exec .switchover s = .next (releaseLease ((closePage s).onPair fun p => { p with switchJsn := some ((closePage s).nv.nextJsn - 1), switching := true })))

/-- Journal shipping: a frame that the landing port accepts is passed to D21 and has its type's effect; any other frame is dropped, counted and recorded, but for port 3's ordinary traffic while D23 is ON (R54, R438, R446 to R449). The model's own choices within it: log 88, 125, 127, 198. -/
def Obligations.ShippingFrames : Prop :=
  ∀ (s : State) (src etype seq jsn : Nat) (recs : List JRec) (payload : List Word) (last : Bool) (tag : BitVec 128),
    let got (ftype : Nat) (p : List Word) (k : State → State) : State :=
      if s.pair.paired = true ∧ etype = 0x88B6 ∧ src = s.pair.peerMac ∧ tag = Config.shipTag s.pair.pairKey ftype seq jsn p ∧ (ftype = 5 ∨ s.pair.rxSeq < seq)
      then k (wake (s.onPair fun q => { q with rxSeq := seq }) 21)
      else if s.domOn 23 = true ∧ etype ≠ 0x88B6 then s
      else (s.fault 0 8 0x284 .corrected).onPair fun q => { q with rejected := q.rejected + 1 }
    let held := s.pair.paired = true ∧ (s.pair.role = .active ∨ s.pair.role = .takingOver)
    s.pins.d0Up = true →
    (s.pair.role = .standby → s.pair.rejoined = true →
      exec (.shipRecords src etype seq jsn recs tag) s = .next (got 1 (recs.flatMap JRec.words) fun t => recs.foldl writeShipped t)) ∧
    (held → exec (.shipAck src etype seq jsn tag) s = .next (got 2 [] fun t =>
      let t := t.onPair fun p => { p with acked := Nat.max p.acked jsn, peerLost := p.peerLost && !decide (s.nv.durable ≤ Nat.max p.acked jsn) }
      let ok := !t.pair.peerLost && decide (t.pair.renewedJsn ≤ t.pair.acked)
      let u := t.onPair fun p => { p with peerEligible := ok }
      releaseLease (if ok then clearKind u 0x282 else u))) ∧
    (s.pair.role = .standby → exec (.shipSnapshot src etype seq jsn payload last tag) s = .next (got 3 payload fun t =>
      let u := t.onPair fun p => { p with snapRecv := if last then 0 else p.snapRecv + 1 }
      if last then u.onNv fun v => { v with dressStep := 4, dressJsn := jsn, anchorTodo := anchorDies } else u)) ∧
    (s.pair.role = .standby → exec (.shipObject src etype seq jsn payload tag) s =
      .next (got 4 payload fun t => t.onPair fun p => { p with objRecv := p.objRecv ++ payload.flatMap wordBytes })) ∧
    (held → exec (.shipHello src etype seq jsn tag) s = .next (got 5 [] answerHello)) ∧
    (s.pair.role = .standby ∨ s.pair.role = .relinquished → s.pair.rejoined = false →
      exec (.shipHello src etype seq jsn tag) s = .next (got 5 [] fun t => rejoin t jsn)) ∧
    exec (.shipMailbox src etype seq jsn (payload.getD 0 0) tag) s = .next (got 6 [payload.getD 0 0] fun t =>
      if t.pair.peerIn.full then t.onPair fun p => { p with peerIn := { p.peerIn with ovf := true } }
      else wake (t.onPair fun p => { p with peerIn := { p.peerIn with word := payload.getD 0 0, full := true } }) 17)

/-- SPDM of a portal whose trust unit is not fenced: the negotiation in its order, certificates and measurements, the key exchange and its end, key updates, and what ends a session (R324 to R326, R476). The model's own choices within it: log 10, 132. -/
def Obligations.SpdmCommands : Prop :=
  ∀ (s : State) (p slot off len blk op : Nat) (common signed : Bool) (group half : BitVec 16) (nonce share leaf auth : List Byte),
    let x := (s.portal p).session
    let t := wake s 19
    let pt := t.portal p
    let err := t.emit (.spdm p 0x7F [])
    let sign (l : List Byte) : List Byte := l ++ Config.ecdsaSign (Config.sha384 l)
    let data := (if blk = 0xFF then [1, 2, 3, 4] else [blk]).flatMap (measBlock t)
    let digest := hashBytes (Config.sha384 Config.certChain)
    s.hasPortal p = true → (s.portal p).st = .ready ∨ (s.portal p).st = .fenced → s.lic.evaluated = true → s.domSt 19 ≠ .fenced →
    exec (.getVersion p) s = .next ((t.onSession p fun y => { y with phase := if y.live then y.phase else 1 }).emit (.spdm p 0x04 [0x13])) ∧
    (x.phase ≠ 0 → exec (.getCapabilities p) s = .next ((t.onSession p fun y => { y with phase := Nat.max y.phase 2 }).emit (.spdm p 0x61 [30]))) ∧
    (2 ≤ x.phase → common = true → group = 1 → exec (.negotiateAlgorithms p common group) s =
      .next ((t.onSession p fun y => { y with phase := Nat.max y.phase 3, dheGroup := 1 }).emit (.spdm p 0x63 (leBytes 2 1)))) ∧
    (3 ≤ x.phase → exec (.getDigests p) s = .next (t.emit (.spdm p 0x01 digest))) ∧
    (3 ≤ x.phase → slot = 0 → exec (.getCertificate p slot off len) s =
      .next (if off < Config.certChain.length then t.emit (.spdm p 0x02 ((Config.certChain.drop off).take len)) else err)) ∧
    (3 ≤ x.phase → slot = 0 → exec (.challenge p slot nonce) s = .next (t.emit (.spdm p 0x03 (sign (digest ++ slice nonce 0 32))))) ∧
    (3 ≤ x.phase → (1 ≤ blk ∧ blk ≤ 4) ∨ blk = 0xFF → exec (.getMeasurements p blk signed nonce) s =
      .next (t.emit (.spdm p 0x60 (if signed then sign (data ++ slice nonce 0 32) else data)))) ∧
    (3 ≤ x.phase → x.dheGroup = 1 → x.live = false → pt.peerHash ≠ 0 → share.length = 1664 → exec (.keyExchange p half share) s =
      .next (if Config.validPoint ([0x04] ++ share.take 96 ++ List.replicate 7 0) then
          let n := t.nonce
          let u := ({ t with nonce := n + 1 }).onSession p fun y =>
            { y with phase := 4, draw := n, id := BitVec.ofNat 32 (half.toNat + 65536 * (n % 65536)), rxUpdates := 0, txUpdates := 0 }
          u.emit (.spdm p 0x64 (leBytes 4 (u.portal p).session.id.toNat ++ slice (Config.keyExchangeShare n share) 0 1664))
        else err)) ∧
    (x.phase = 4 → exec (.finish p leaf auth) s =
      .next (if Config.sha384 leaf = pt.peerHash ∧ Config.finishVerifies x.draw leaf auth = true then
          (t.onSession p fun y =>
            { y with phase := 5, live := true, rxKeyGen := Config.sessionKey y.draw 0 0, txKeyGen := Config.sessionKey y.draw 1 0
                     txSeq := 0, rxSeq := 1, rxSeen := [] }).emit (.spdm p 0x65 [])
        else (t.onSession p fun y => { y with phase := 3 }).emit (.spdm p 0x7F []))) ∧
    (x.live = true → exec (.heartbeat p) s = .next (t.emit (.spdm p 0x68 []))) ∧
    (x.live = true → 1 ≤ op → op ≤ 3 → exec (.keyUpdate p op) s =
      .next ((t.onSession p fun y =>
        let a : Session := if op = 3 then y else
          { y with rxUpdates := y.rxUpdates + 1, rxKeyGen := Config.sessionKey y.draw 0 (y.rxUpdates + 1), rxSeq := 1, rxSeen := [] }
        if op = 2 then { a with txUpdates := a.txUpdates + 1, txKeyGen := Config.sessionKey a.draw 1 (a.txUpdates + 1), txSeq := 0 } else a).emit
        (.spdm p 0x69 [BitVec.ofNat 8 op]))) ∧
    (x.live = true → exec (.endSession p) s = .next ((endSession t p).emit (.spdm p 0x6C []))) ∧
    (x.live = true → exec (.heartbeatLoss p) s = .next (((s.eng.rings.filter fun q =>
        q.2.owner == p && q.2.confidential && (q.2.st == .idle || q.2.st == .active || q.2.st == .fenced)).foldl
          (fun u q => errorRing u q.1 stSeal q.2.cons) (s.onSession p fun y => { phase := 3, dheGroup := y.dheGroup }))))

/-- The fault collector: a cycle of accepted records, the end of a severity window and of a quiet period (R345, R349 to R357). The model's own choices within it: log 11, 50, 62. -/
def Obligations.CollectorCommands : Prop :=
  ∀ (s : State) (src : Nat) (isCtx : Bool) (kind unit : BitVec 12) (a : FAddr),
    (s.pins.d0Up = true → exec .recordAccept s = .next ((acceptPosted s).1.foldl reactRec (acceptPosted s).2)) ∧
    exec (.severityWindowEnd src isCtx kind) s = .next (s.onColl fun c =>
      { c with pairs := c.pairs.filter fun p => !(p.src == src && p.isCtx == isCtx && p.kind == kind && !p.raisedHigh) }) ∧
    exec (.quietPeriodEnd a unit) s = .next (settleSingle (clearRecs s fun r => r.source == a && r.unit == unit && r.quiet))

/-- The persistent store: face pages, the ledge, reads and their repairs, blocks and their moves, dressing, the anchor and objects (R277, R408 to R431). The model's own choices within it: log 29, 59, 61, 88, 114, 196, 198. -/
def Obligations.StoreCommands : Prop :=
  ∀ (s : State) (typ b page to_ die cls id k : Nat) (body : List Word) (e : Nat × BitVec 32) (second : Bool) (item : NvItem) (data : List Byte) (u : State),
    let up := nvDown s = false
    let copied (x : NvFound) : State :=
      let t := onBlock (wake s 21) b fun y => { y with reads := y.reads + 1 }
      let t := if readLimit t b ≤ (t.block b).reads then askRefresh t b else t
      let at_ : Nat := pageAddr b page
      let conflict (v : State) : State := fallBack (v.onNv fun n => { n with conflicts := satAdd 0xFFFF n.conflicts 1 }) item
      match x with
      | .good => t
      | .retried => askRefresh (nvFault t 5 0x240 .corrected at_) b
      | .checkBad => (nvFault t 4 0x242 .note at_).onNv fun n => { n with repairs := satAdd 0xFFFFFFFF n.repairs 1 }
      | .copyBad => (nvFault t 4 0x241 .corrected at_).onNv fun n => { n with repairs := satAdd 0xFFFFFFFF n.repairs 1 }
      | .lost => conflict (nvFault t 4 0x243 .uncorrected at_)
      | .conflicted => conflict (nvFault t 4 0x244 .degraded at_)
    (8 * body.length ≤ 16296 →
      exec (.journalWrite typ body none) s = .next (journal s typ body) ∧
      (s.nv.faceFull = true → typ ≠ jFault → exec (.journalWrite typ body (some e)) s =
        .next ((journal s typ body).onNv fun n => { n with heldWrites := n.heldWrites ++ [e] }))) ∧
    (up → exec .faceFlush s = .next (closePage (settleSingle s))) ∧
    (up → b < 16384 → (s.block b).bad = false → ((settleSingle s).nv.face[page]?).bind (fun p => copyChannel (settleSingle s) p.num second) = some (blockDie b / 2) →
      exec (.pageProgrammed page second b true) s =
      .next (settleDurable ((onBlock (settleSingle s) b fun x => { x with programmed := (settleSingle s).now, blank := false }).onNv fun n =>
        { n with face := onNth (fun p => if second then { p with ok1 := true } else { p with ok0 := true }) page n.face }))) ∧
    (up → b < 16384 → (s.block b).bad = false → exec (.pageProgrammed page second b false) s = .next (growBad (settleSingle s) b 0x245)) ∧
    (s.nv.heldWrites.contains e = true → exec (.faceFullTimeout e.1 e.2) s =
      .next (answer (s.onNv fun n => { n with heldWrites := n.heldWrites.filter (· != e) }) e.1 e.2 stBusy)) ∧
    exec .timeFloorRecord s = .next ((journal s jTime [BitVec.ofNat 64 s.now]).onTime fun t => { t with floor := s.now }) ∧
    (b < 16384 → page < blockPages s b → ∀ x, exec (.nvRead b page item x) s = .next (copied x)) ∧
    (b < 16384 → retentionNs s b ≤ s.now - (s.block b).programmed → exec (.retentionAge b) s = .next (askRefresh s b)) ∧
    (b < 16384 → to_ < 16384 → internalAct s 8 (BitVec.ofNat 64 b) [groupItem b] = (some id, u) →
      exec (.relocation b to_ false) s = .next (growBad u to_ 0x245) ∧
      (let t := journal (onBlock u to_ fun x => { x with programmed := u.now, blank := false }) jBlock [BitVec.ofNat 64 b, BitVec.ofNat 64 to_, b1 true 3]
       let t := if nvUnitUp t (blockDie b / 2) then t else nvFault t 4 0x241 .corrected (pageAddr b 0)
       exec (.relocation b to_ true) s = .next (endAct (retireWorn (t.onNv fun n => { n with refresh := n.refresh.filter (· != b) }) b) id stOk))) ∧
    (die < 8 → spareSlc s die < 8 ∨ spareQlc s die < 8 → exec .sparesLowDaily s = .next (nvFault s 4 0x248 .corrected 0)) ∧
    (s.nv.anchorTodo.head? = some die → s.nv.dressStep = 4 →
      let gen := if die = 0 then s.nv.gen + 1 else s.nv.gen
      let t := s.onNv fun n =>
        { n with anchors := n.anchors.set die (newAnchor s gen s.nv.dressJsn s.nv.snapJsn), gen := gen, anchorTodo := n.anchorTodo.drop 1
                 anchorOk := (if n.gen = gen then n.anchorOk else 0) ||| BitVec.ofNat 3 (2 ^ dieBit die) }
      exec (.anchorGeneration die true) s = .next (if t.nv.anchorTodo = [] then endDressing t else t)) ∧
    (s.nv.anchorTodo.head? = some die → exec (.anchorGeneration die false) s = .next (s.onNv fun n =>
      { n with anchors := n.anchors.set die { n.anchors.getD die {} with valid := false } })) ∧
    (up → s.pair.role ≠ .standby → s.nv.dressMib.toNat < faceMib s → s.nv.dressStep < 2 → internalAct s 9 0 [groupAnchor] = (some id, u) →
      exec .dressing s = .next ((appendRec u jDressBegin []).onNv fun n => { n with dressStep := 2, dressJsn := n.nextJsn - 1 })) ∧
    (s.nv.dressStep = 2 → exec (.snapshotVerified true) s = .next ((if s.ships then shipFrame s 3 s.nv.dressJsn [] else s).onNv fun n => { n with dressStep := 4, anchorTodo := anchorDies })) ∧
    (s.nv.ledgeOpn ≠ [] → ledgeRoom s = true → exec (.ledgeWrite true) s =
      .next (s.onNv fun n => { n with ledge := n.ledge ++ n.ledgeOpn, ledgeOpn := [], ledgePages := n.ledgePages + 1 })) ∧
    (up → s.nv.ledgeOpn = [] → exec .ledgeMerge s =
      .next (releaseWaits (closePage (s.onNv fun n => 
        { n with opn := n.opn ++ n.ledge.filter (fun x => !(n.face.any fun p => p.recs.contains x)), ledge := [], ledgePages := 0 })))) ∧
    exec (.objectCommit cls id data true) s = .next (putObject s cls id data) ∧
    (b < 16384 → (s.block b).bad = false → (s.block b).retired = false →
      exec (.blockErase b true) s = .next (levelRegion (retireWorn (onBlock s b fun x => { x with erases := x.erases + 1, reads := 0, blank := true }) b) (isSlc s b)) ∧
      exec (.blockErase b false) s = .next (growBad (onBlock s b fun x => { x with erases := x.erases + 1 }) b 0x246)) ∧
    (16384 ≤ b → exec (.blockErase b true) s = .fault .noSuchFlashPlace ∧ exec (.retentionAge b) s = .fault .noSuchFlashPlace ∧
      exec (.nvRead b k item .good) s = .fault .noSuchFlashPlace ∧ exec (.pageProgrammed k second b true) s = .fault .noSuchFlashPlace)

/-- Installations at the controller: answers that move a phase on or fail it, members that drain, repeats, the settling of circuits and the training of their links, and recomputed detours (R39, R286, R287, R289, R291, R292, R297). The model's own choices within it: log 71, 75, 77, 183, 184, 185, 191. -/
def Obligations.InstallationCommands : Prop :=
  ∀ (s : State) (id context k tag : Nat) (status : BitVec 8) (crc arg : BitVec 32) (x : Install) (q : MgReq),
    let t := heard s id
    (instOf t id context = some (k, x) → x.phase = .prepare → x.waiting.contains id = true → exec (.tsReady id context status crc) s =
      .next (if status = 0 ∧ crc = crc32c (memberImage (x.switches.contains id) (t.roster id).stage) then phaseAnswered t k id else failInstall t k stInvalid)) ∧
    (arg.toNat % 65536 = tag → tag ≠ 0 → t.req id tag = some q → q.kind = 0x0050 →
      exec (.tsAck id context status arg) s = .next (elemsDone t q status.toNat)) ∧
    (arg.toNat % 65536 = 0 → instOf t id context = some (k, x) → x.waiting.contains id = true → x.phase ≠ .prepare → x.phase ≠ .staging →
      exec (.tsAck id context status arg) s =
        .next (if status ≠ 0 ∧ x.phase ≠ .abandon ∧ releasedAlready x status = false then failInstall t k stInvalid
          else if undrainedYet t x arg = true then onInst t k fun y => { y with draining := y.draining.filter (· != id) ++ [id] }
          else phaseAnswered t k id)) ∧
    (s.isles.installs.get k = some x → x.waiting ≠ [] →
      let silent := x.waiting.filter fun i => !x.draining.contains i
      (silent = [] → exec (.installResend k) s =
        .next (if x.drainOver s = true then goOn (showAnswered (onInst s k fun y => { y with waiting := [], draining := [] }) k) k else s)) ∧
      (silent ≠ [] → x.sends < 17 → exec (.installResend k) s = .next (sendPhase (onInst s k fun y => { y with sends := y.sends + 1 }) k x silent)) ∧
      (silent ≠ [] → 17 ≤ x.sends → exec (.installResend k) s =
        .next (if x.phase = .abandon then goOn (onInst s k fun y => { y with waiting := [] }) k else failInstall s k stInvalid))) ∧
    (s.isles.installs.get k = some x → x.phase = .switches → x.waiting = [] →
      let t := asSpliced s x.moves
      exec (.switchSettle k) s = .next (goOn (enterPhase (trainEnds s t (newEnds s t.fab.spliced s.fab.circuits x.circuits)) k .commit) k)) ∧
    exec (.detourRecompute k) s = .next (s.onIsland k fun l => { l with detoursDue := true })

/-- The integrity unit: its registers, reports of digests, times that are up, results of tests, and the tickets that end later (R163, R392 to R404, R432). The model's own choices within it: log 11, 91, 92, 93, 94, 95, 96, 97, 138, 188. -/
def Obligations.IntegrityUnitCommands : Prop :=
  ∀ (s : State) (p off id context h epoch step desc n tk : Nat) (group : FAddr) (data : Word) (arg tag : BitVec 32) (body : List Byte) (k : DKey) (l : Island)
    (t : Ticket),
    (s.portalOpen p = true → off < 0x100000 → shapeOf off 8 = .whole →
      exec (.iuRegisterWrite p off 8 data) s = .next (viaDomain s p 20 (0x500000 + off) 8 (some data) fun u => iuWrite u p off data) ∧
      (off = 0 → iuWrite s p off data = (s.onPortal p fun y => { y with iuSel := data.truncate 16 }).emit (.writeDone p))) ∧
    (s.portalOpen p = true → exec (.iuClear p data) s = .next (viaDomain s p 20 0x500100 8 (some data) fun u =>
      if (u.portal p).role = .steward then (clearUnits u (fld data 55 0)).emit (.writeDone p) else regDenied u p 0x500100)) ∧
    (let t := heard s id
     let code := bits arg.toNat 7 0
     let u := BitVec.ofNat 12 desc
     let a := (t.roster id).addr
     let h := islandOf t a
     let hist (v : State) (r : Nat) : State := addHist v id { unit := u, verdict := r, pattern := BitVec.ofNat 16 n, island := h, time := v.now }
     let st := if code = 0 then stOk else if code = 1 ∨ code = 2 then stInvalid else stBusy
     let noted (v : State) : State := if code = 0 then hist v 6 else if code = 1 then memberFault (hist v 7) a h u 0x207 .degraded (own := n)
       else if code = 2 then memberFault v a h u 0x208 .degraded (own := n) else v
     let judged (v : State) : State := if code ≤ 4 then testVerdict v h (limitsFor v h) id u code else v
     t.integ.tests.find? (fun y => y.1 == id && y.2.2.2.1 == context) = some (id, n, desc, step, tk) →
       let v := t.onInteg fun g => { g with tests := g.tests.erase (id, n, desc, step, tk) }
       (step = 0 → exec (.testResult id context arg) s = .next (waitDone (judged (noted v)) (4 * id + 1))) ∧
       (step ≠ 0 → exec (.testResult id context arg) s = .next (judged (noted (finishTicket v step tk st))))) ∧
    (s.isles.installs.vals.any (fun x => x.waits.contains (4 * id + 1)) = true →
      exec (.testBoundaryLimit id) s = .next (waitDone (s.onInteg fun g => { g with
        tests := g.tests.filter fun y => !(y.1 == id && y.2.2.2.1 == 0)
        waiting := g.waiting ++ (s.integ.tests.filter fun y => y.1 == id && y.2.2.2.1 == 0).map fun y => (y.1, y.2.2.1, y.2.1) }) (4 * id + 1))) ∧
    (let t := toAgent (heard s id) id 0x20 stOk 0 tag
     (heard s id).hasIu = true → body.length = 104 → (heard s id).domSt 20 ≠ .fenced →
      exec (.digestReport id tag body) s = .next (if (heard s id).running 20 then readReport t id body
        else (wake t 20).onInteg fun g => { g with held := g.held ++ [(id, tag, body)] })) ∧
    (findKey s h epoch step desc group = some k → k.tie = false →
      exec (.adjTimeout h epoch step desc group) s = .next (adjudicate s k).2) ∧
    (findKey s h epoch step desc group = some k → s.isles.islands.get h = some l → k.tie = true →
      let u := unresolved (dropKey s k) k l
      exec (.repeatTimeout h epoch step desc group) s = .next ((u.integ.repeats.filter fun q =>
        q.island == h && q.epoch == epoch && q.step == step && q.desc == desc && q.member == group).foldl (fun v q => settleRepeat v q true) u)) ∧
    ((s.eng.ctxs.get n).bind (fun x => x.tickets.get tk) = some t → t.status = none → t.op ∈ [0xB0, 0xB1, 0xB3, 0xB4, 0xC5] →
      exec (.ticketComplete n tk) s = .next (if s.domSt t.dom = .fenced then finishTicket s n tk stFenced
        else finishTicket (storeRange (ticketWork s t).2.2 (.ctx n) (BitVec.ofNat 64 t.out) (ticketWork s t).2.1) n tk (ticketWork s t).1))

/-- What agents send to the controller: messages, reports, answers, repeats that a request is due, and silence (R110, R172, R216, R220 to R238, R319 to R323, R381). The model's own choices within it: log 11, 28, 80, 83, 85, 86, 87, 144, 175, 180, 184, 186, 188. -/
def Obligations.AgentMessagesAtController : Prop :=
  ∀ (s : State) (id n tag : Nat) (hdr : Hdr) (x : Ctx) (items : List (Word × Word)) (regs : List RegItem) (q : MgReq) (word : Word) (ws : List Word)
    (recs : List Rec) (tag32 : BitVec 32) (m : Mbox),
    let t := heard s id
    (s.answersTo hdr.dst = true → s.eng.ctxs.get hdr.context = some x → x.core.msgs.length < 64 → exec (.message hdr) s =
      .next (setCause (s.onCtx hdr.context fun y => { y with core := { y.core with msgs := y.core.msgs ++ [hdr.bytes] } }) hdr.context causeMessage)) ∧
    (s.answersTo hdr.dst = true → s.eng.ctxs.get hdr.context = some x → x.core.msgs.length = 64 → x.hewer = none →
      exec (.message hdr) s = .next (s.fault 17 63 0x041 .note)) ∧
    (s.answersTo hdr.dst = false → exec (.message hdr) s = .next s) ∧
    ((t.roster id).addr ≠ noAddr →
      let a := (t.roster id).addr
      let u := (List.range 16).foldl (fun v l => linkItem v a l (items.getD l (0, 0)).1 (items.getD l (0, 0)).2) (t.onRoster id fun r => { r with reported := true })
      let v := if (List.range 8).all fun p => portSt u a p != 1 then clearAt u a 0x102 else u
      let moved := (List.range 16).any fun l => ((t.fab.links.getD (linkKey a l) {}).lanes == 0) != ((v.mlink a l).lanes == 0)
      exec (.linkReport id items) s = .next (retime (checkStale (if moved then rebuildSets v a else v)))) ∧
    (t.req id tag32.toNat = some q → q.ctl = false → q.kind = 0x0001 →
      let old := t.roster id
      let u := regs.foldl (fun v i => if i.op = 1 ∧ i.status = 0 then v.onRoster id fun r => r.take i.offset.toNat i.value else v) (dropReq t id q.tag)
      let new := u.roster id
      let k := if regs.any (fun i => i.op == 1 && i.status == 0 && i.offset.toNat == 0x20) then lifeKnown u id else u
      let v := if (new.fwMeas != old.fwMeas || new.hcMeas != old.hcMeas || new.dbgWord != old.dbgWord) ∧ q.island ≠ 0 then remeasure k q.island else k
      let w := if old.life ≠ .running ∧ new.life = .running then firmwareStarted v id else v
      let y := if old.measKnown = false ∧ new.measKnown = true then loadAlone w id else w
      exec (.regRsp id tag32 regs) s = .next (firmwareCheck (discoveryCheck (firmwareStep y id q.island)) id)) ∧
    (tag32.getLsbD 31 = true → exec (.mgAck id 0 tag32) s =
      .next (abortCheck (t.onIsland (tag32.toNat % 65536) fun l => { l with abortWait := l.abortWait.filter (· != (t.roster id).addr) }) (tag32.toNat % 65536))) ∧
    (tag32.getLsbD 31 = false → t.req id tag32.toNat = some q → q.ctl = false → q.kind = 0x0040 →
      exec (.mgAck id 0 tag32) s = .next (keyAnswered (dropReq t id q.tag) q true) ∧
      exec (.mgAck id 5 tag32) s = .next (keyAnswered (dropReq t id q.tag) q false)) ∧
    (tag32.getLsbD 31 = false → t.req id tag32.toNat = some q → q.ctl = true → q.kind = 0x23 →
      exec (.mgAck id 0 tag32) s = .next (resetEnded (dropReq t id q.tag) q)) ∧
    (tag32.getLsbD 31 = false → t.req id tag32.toNat = some q → q.ctl = false → q.kind = 0x21 →
      exec (.mgAck id 0 tag32) s = .next (assigned (dropReq t id q.tag) q)) ∧
    (s.req id tag = some q → q.sends ≤ (if q.kind = 0x0050 ∧ q.ctl = false then 16 else 8) → exec (.mgmtResend id tag) s =
      .next (emitReq (s.onFab fun f => { f with reqs := f.reqs.set (reqKey id tag) { q with sends := q.sends + 1 } }) q)) ∧
    (t.fab.mboxes.getD id {} = m →
      (m.full = false → exec (.mbWordToController id tag32 word) s =
        .next (wake (toAgent (t.onFab fun f => { f with mboxes := f.mboxes.set id { m with word := word, full := true } }) id 0x20 stOk 0 tag32) 17)) ∧
      (m.full = true → exec (.mbWordToController id tag32 word) s =
        .next (toAgent (t.onFab fun f => { f with mboxes := f.mboxes.set id { m with ovf := true } }) id 0x20 stBusy 0 tag32))) ∧
    (t.fab.eseq.get id = some n → exec (.events id (n + 1) recs) s =
      .next (toAgent ((recs.foldl (fun u r => (takePower u id r).post { r with portal := none, serial := 0 }) t).onFab fun f =>
        { f with eseq := f.eseq.set id (n + recs.length) }) id 0x21 0 0 (BitVec.ofNat 32 (n + recs.length)))) ∧
    (exec (.counters id n ws) s = .next ((takeoverTime t id n).onRoster id fun r =>
      { r with sample := some (n, ws)
               coarse := if ((r.coarse.map (·.1)).getD 0) / 100000000 < n / 100000000 ∨ r.coarse = none then some (n, ws) else r.coarse })) ∧
    (exec (.telemetrySample true) s = .next (wake (s.onFab fun f => { f with deferTelemetry := true }) 18) ∧
      exec (.telemetrySample false) s = .next (
        let u := wake (s.onFab fun f => { f with deferTelemetry := false }) 18
        (u.fab.roster.filter fun y => y.2.found).foldl (fun u y => toAgentOn u y.1 .ordinary 0x22 0 0 0) u)) ∧
    (fld word 3 0 = 2 →
      let a := (t.roster id).addr
      let u := clearRecs (clearAt t a 0x182) fun y => y.source == a && decide (0x800 ≤ y.kind.toNat) && y.cls == .fatal
      let budget := 40000 * Nat.max 192 (t.roster id).memGib / 192
      let gives := [(t.roster id).hcClass, budget, fld word 63 32]
      exec (.scrubReport id word) s = .next (scrubEnded (if budget < fld word 63 32 then
        u.fault 0 0 0x183 .degraded (Config.openDetail 0x183 0 0 gives) (Config.openDetail 0x183 1 0 gives) else u) id true)) ∧
    (fld word 3 0 = 3 → exec (.scrubReport id word) s = .next (scrubEnded t id false)) ∧
    ((s.roster id).tenancy = .scrubbing → exec (.scrubUnreachable id) s = .next (scrubEnded s id false)) ∧
    ((s.roster id).tenancy = .quarantined → exec (.quarantineRescrub id) s = .next (sendScrub s id)) ∧
    (n ≠ 0 → exec (.fwMissing id [n] n) s = .next (if t.power.step = 11 ∧ t.fab.fwLoading ∧ t.fab.fwRepaired = false
      then repairPass (t.onFab fun f => { f with fwGaps := f.fwGaps.set id [n] }) else sendChunks t id [n])) ∧
    ((s.roster id).addr ≠ noAddr → exec (.agentSilence id) s = .next (s.post { s.mkRec 0 0 0x1C4 .degraded with
      source := (s.roster id).addr, unit := 0x008, island := islandOf s (s.roster id).addr }))

/-- Packets at an agent: the decision on a header, detours applied, and the checks of a tail with what follows them (R22, R189, R195, R196, R206, R207, R215). The model's own choices within it: log 11, 17, 21, 53, 151, 189, 190. -/
def Obligations.PacketCommands : Prop :=
  ∀ (s : State) (id i n vc : Nat) (bad : Bool) (a : Agent) (h : Hdr) (payload : List Byte) (flips : BitVec 4) (q : Passing),
    let quay := a.quayValid && a.quayLink == n
    let port := if quay then a.countPort n else i
    let entry := if quay then 9 else i
    Live s id a →
    (let u := s.onAgent id fun x => (x.bump port 13).bump port 45 (if !h.isControl && h.poison then 1 else 0)
     i < 8 → n < 16 → a.hc.isSwitch = false →
      exec (.packetHeader id i n h) s = .next (
        if malformed a.addr h then countDrop (u.emit (.dec id i (.drop 47))) id port 47 h
        else if u.valid h.dst = false then countDrop (u.emit (.dec id i (.drop 29))) id port 29 h
        else match a.partition h quay with
          | .keyBad => sendMoved (countDrop (u.emit (.dec id i (.drop 27))) id port 27 h) id h
          | .epochBad => sendMoved (countDrop (u.emit (.dec id i (.drop 28))) id port 28 h) id h
          | .ok => routeHeader u id entry n a h)) ∧
    (i < 8 → n < 16 → a.hc.isSwitch = true → exec (.packetHeader id i n h) s = .next (
      if s.valid h.dst = false then countDrop (s.emit (.dec id i (.drop 29))) id i 29 h
      else if h.isControl ∧ h.dst = a.addr then notePassing (s.emit (.dec id i .deliver)) id n h true none
      else s.emit (.dec id i .discard))) ∧
    (a.deadPorts.getLsbD i = true → a.detoured.getLsbD i = false → exec (.detourApply id i) s =
      .next ((a.waiting.filter fun w => w.1 == i).foldl (fun t w => release t id w.2) (s.onAgent id fun x =>
        { x with detoured := x.detoured ||| BitVec.ofNat 8 (2 ^ i), waiting := x.waiting.filter fun w => w.1 != i }.bump i 32))) ∧
    (a.passing.get (8 * n + vc) = some q →
      let p : Pkt := { hdr := q.hdr, payload := payload }
      let own := decide (n = 16)
      let at_ := if own then 8 else if quay then a.countPort n else i
      let c := if own ∨ bad = true then (true, true, none) else checkTail (a.integ.chk.getD at_ .primary) p flips
      let good := c.1 && c.2.1 && c.2.2.isNone && !bad
      let v := if own then s.onAgent id fun x => { x with slots := if vc < 2 then x.slots.drop 1 else x.slots } else s
      let t := recordCheck (v.onAgent id fun x => { x with passing := x.passing.del (8 * n + vc) }) id at_ c.1 c.2.1 c.2.2
      let w := t.onAgent id fun x => x.markTail q.hdr n
      let u := if good then t else match q.fwd with
        | none => w
        | some out => w.emit (.markBad id out)
      exec (.packetTail id i n vc payload bad flips) s = .next (if q.deliver then arrive u id p good else u))

/-- Flows and injection at an agent: acknowledgements, time-outs, MOVED, and what an injection request, its second read and a held packet bring about (R184, R190, R198 to R202, R214, R215, R289). The model's own choices within it: log 11, 52, 151, 189, 190. -/
def Obligations.FlowCommands : Prop :=
  ∀ (s : State) (id cls n cyc : Nat) (a : Agent) (h : Hdr) (payload : List Byte) (src : FAddr) (seq : BitVec 16) (f : TxFlow) (r : RxFlow) (j : Inj)
    (p : Pkt × Nat) (more : List (Pkt × Nat)) (l1 l2 : List (Nat × Bool)),
    Live s id a →
    (a.rx.get (flowKey src cls) = some r → r.unacked ≠ 0 → exec (.ackDelay id src cls) s =
      .next (sendAck (s.onAgent id fun x => { x with rx := x.rx.set (flowKey src cls) { r with unacked := 0 } }) id src cls r.expected)) ∧
    exec (.ack id src cls seq) s = .next (s.onAgent id fun x => { x with tx := x.tx.upd (flowKey src cls) fun g =>
      { g with out := g.out.filter fun p => !(decide (1 ≤ (seq - p.1.hdr.seq).toNat) && decide ((seq - p.1.hdr.seq).toNat ≤ 32767)) } }) ∧
    (a.tx.get (flowKey src cls) = some f → f.out = p :: more → f.ended = false →
      (p.2 < fld (a.param 0) 39 36 → exec (.e2eTimeout id src cls) s = .next (f.out.foldl (fun t q => launch t id q.1)
        ((s.onAgent id fun x => x.bump 8 40).onAgent id fun x =>
          { x with tx := x.tx.set (flowKey src cls) { f with out := f.out.map fun (q : Pkt × Nat) => (q.1, q.2 + 1) } }.bump 8 39 f.out.length))) ∧
      (fld (a.param 0) 39 36 ≤ p.2 → exec (.e2eTimeout id src cls) s = .next (endFlow
        (agentFault (s.onAgent id fun x => x.bump 8 40) id 0 0x140 .uncorrected) id (flowKey src cls) f .flowFailed))) ∧
    exec (.moved id src cls) s = .next (endFlow s id (flowKey src cls) (a.tx.getD (flowKey src cls) {}) .moved) ∧
    (a.fenced = true ∨ a.abortFence = true → exec (.injectionRequest id h payload) s = .next (s.emit (.inj id .reject))) ∧
    (a.fenced = false → a.abortFence = false →
      (h.typ = 0 → a.assigned = false →
        exec (.injectionRequest id h payload) s = .next (countDrop (s.emit (.dec id 8 (.drop 27))) id 8 27 (a.stamp h))) ∧
      (h.typ ≠ 0 ∨ a.assigned = true → exec (.injectionRequest id h payload) s = .next (if h.hasBcv = true ∧ h.bcv ≠ crc64 payload then
        (s.onAgent id fun x => { x with reread := some { hdr := h, payload := payload } }.bump 8 26).emit (.inj id .reread)
      else takeInj s id a { hdr := h, payload := payload }))) ∧
    (a.reread = some j → exec (.blockReread id payload) s = .next (
      let t := s.onAgent id fun x => { x with reread := none }
      let u := agentFault (t.onAgent id fun x => x.bump 8 26) id 0 0x104 .uncorrected
      if j.hdr.bcv = crc64 payload then takeInj t id { a with reread := none } { j with payload := payload }
      else match u.agents.get id with
        | none => u
        | some x => takeInj u id x { hdr := { j.hdr with h12 := j.hdr.h12 ||| 8 }, payload := payload })) ∧
    (a.fenced = false → a.abortFence = false → a.heldInj.find? (fun k => a.mayStart s k.hdr) = some j → (a.flowOf j.hdr).ended = false →
      let t := s.onAgent id fun x => { x with heldInj := x.heldInj.erase j }.bump 8 42 (if a.scheduled (a.stamp j.hdr) then cyc else 0)
      exec (.heldInjectionStart id cyc) s = .next (match t.agents.get id with
        | none => t
        | some x => inject t id x j)) ∧
    (a.slots = l1 ++ (n, false) :: l2 → l1.all (·.2) = true → exec (.slotEnd id cyc) s =
      .next (agentFault (s.onAgent id fun x => { x with slots := l1 ++ (n, true) :: l2 }.bump 8 41) id 0 0x142 .note
        (BitVec.ofNat 64 (n % (fld (a.param 3) 31 16 + 1))) (BitVec.ofNat 64 cyc)))

/-- Links of an agent: flits and credits, lanes and their windows, hello, time symbols, reports, calibration and the checkers' self-tests (R26 to R33, R193, R205, R210, R211, R224, R278, R306, R307, R384, R385). The model's own choices within it: log 11, 181, 187, 188, 189, 191. -/
def Obligations.LinkCommands : Prop :=
  ∀ (s : State) (id n vc lane k w : Nat) (p : Queued) (rest : List Queued) (depths : List Nat) (counts : List (BitVec 16)) (mask : BitVec 4) (a : Agent)
    (why : Option Bool) (pp sp : Bool),
    let l := a.link n
    Live s id a → n < 16 →
    (let o := a.outq.getD n {}
     o.q.getD vc [] = p :: rest → l.live = true → vc < 6 →
      (a.vcOpen l vc = false → exec (.flitSend id n vc) s = .next (s.onAgent id fun x => x.bump (a.countPort n) (14 + vcPair vc))) ∧
      (a.vcOpen l vc = true → a.mayServe l o vc = true →
        let last := decide (p.left ≤ 1)
        let o := { o with q := o.q.set vc (if last then rest else { p with left := p.left - 1 } :: rest), last := if last ∧ vcPair vc ≠ 1 then vcPair vc else o.last
                          mid := if vcPair vc = 1 then o.mid else if last then none else some vc }
        exec (.flitSend id n vc) s = .next ((s.onAgent id fun x =>
          ((({ x with outq := x.outq.set n o }.onVc n vc fun v => { v with credits := v.credits - 1, sent := v.sent + 1 }).onLink n
            fun y => { y with total := y.total + 1 }).bump (a.countPort n) vc).bump (a.countPort n) 12 (if last then 1 else 0)).emit (.flit id n vc)))) ∧
    (l.live = true → vc < 6 →
      let free := (l.vc vc).free - 1
      let off := a.regimeB && decide (free ≤ fld (a.param 1) 15 0) && !(l.vc vc).xoffSent
      let t := s.onAgent id fun x => ((x.onVc n vc fun v => { v with free := free, xoffSent := v.xoffSent || off }).bump (a.countPort n) (6 + vc)).bump
        (a.countPort n) 46 (if off then 1 else 0)
      exec (.flitReceive id n vc) s = .next (if off then t.emit (.xoff id n vc true) else t)) ∧
    (l.live = true → vc < 6 → exec (.creditReturn id n vc true) s =
      .next (s.onAgent id fun x => x.onVc n vc fun v => { v with credits := Nat.min v.depth (v.credits + 1) })) ∧
    (l.live = true → vc < 6 →
      let free := Nat.min (a.hc.depths.getD vc 0) ((l.vc vc).free + 1)
      let on := a.regimeB && (l.vc vc).xoffSent && decide (fld (a.param 1) 31 16 ≤ free)
      let t := s.onAgent id fun x => x.onVc n vc fun v => { v with free := free, freed := v.freed + 1, xoffSent := v.xoffSent && !on }
      exec (.creditReturn id n vc false) s =
        .next (if on then t.emit (.xoff id n vc false) else if a.regimeB then t else t.emit (.credit id n vc))) ∧
    (l.live = true → a.regimeB = false →
      exec (.creditResync id n true counts) s = .next (s.onAgent id fun x => (List.range 6).foldl (fun y v => y.onVc n v fun z =>
        match counts[v]? with
        | none => z
        | some c => { z with credits := z.depth - (z.sent - c).toNat }) x) ∧
      exec (.creditResync id n false counts) s = .next (s.emits ((List.range 6).map fun v => Out.freed id n v (l.vc v).freed))) ∧
    (vc < 6 → exec (.xoff id n vc) s = .next (s.onAgent id fun x => x.onVc n vc fun v => { v with stopped := true }) ∧
      exec (.xon id n vc) s = .next (s.onAgent id fun x => x.onVc n vc fun v => { v with stopped := false })) ∧
    (lane < 4 → k ≤ 15 → exec (.codewordEnd id n lane k) s =
      .next (s.onAgent id fun x => (x.onLane n lane fun y => { y with most := Nat.max y.most k }).bump (a.countPort n) 22 (if k = 0 then 0 else 1))) ∧
    (lane < 4 → exec (.codewordEnd id n lane 31) s =
      .next (s.onAgent id fun x => (x.onLane n lane fun y => { y with unc := true }).bump (a.countPort n) 23)) ∧
    exec (.codewordTimeout id n mask) s = .next (dropLanes s id n ((List.range 4).filter fun y => mask.getLsbD y)) ∧
    exec (.linkDown id n) s = .next (killLink s id n) ∧
    (l.live = true → (l.lane lane).inUse = true → exec (.keepalive id n lane) s = .next (s.emit (.keepalive id n lane))) ∧
    (l.live = true ∨ a.mayTrain n = true → exec (.linkHello id n k w depths) s = .next (linkChanged ((if l.live then s else trainLink s id n).onAgent id fun x => x.onLink n fun y =>
      { y with nbrValid := true, nbr := k % 2 ^ 56, nbrLink := w % 16
               vcs := (List.range 6).map fun v => (v, { y.vc v with depth := depths.getD v 0, credits := depths.getD v 0, sent := 0 }) }) id)) ∧
    (l.live = true → (a.parentLinks a.timeParent).contains n = true → 
      let off := Int.ofNat k + Int.ofNat w + l.asym / 2000 - Int.ofNat s.now
      exec (.timeSymbol id n k w) s = .next ((s.onAgent id fun x => { x with ftOff := off, ftValid := true, parentSilent := false }).emit
        (.fabricTime id (Int.ofNat s.now + off).toNat true))) ∧
    (l.live = true → exec (.timeSymbolSend id n) s = .next (
      let t := s.emit (.timeSymbol id n (a.ft s))
      match drivenQuay t id n with
      | none => t
      | some k => t.emit (.quaySymbol k t.now))) ∧
    exec (.timeParentSilent id) s = .next (s.onAgent id fun x => { x with parentSilent := true }) ∧
    (a.reportDue = true → a.assigned = true → exec (.linkReportHoldoff id) s =
      .next ((agentMgmt s id (if (List.range 8).any (fun q => (Bank.word a.bank 4 q 0).getLsbD 20) then agentNet s id .ordinary else .ordinary) 0 0x0022 0 0 0 (reportBody a)).onAgent id
        fun x => { x with reportDue := false, reportAt := some s.now })) ∧
    (a.integ.selfTest.get k = some why →
      let t := s.onAgent id fun x => { x with integ := { x.integ with selfTest := x.integ.selfTest.del k } }
      let failures := (a.integ.bcvOnly.getD k []).filter fun y => decide (s.now < y + 10000000000)
      exec (.checkerSelfTest id k pp sp) s = .next (
        if pp = false ∧ sp = false then (a.portLinks k).foldl (fun v y => killLink v id y) (chkResult t id k .dead 0x202 .uncorrected 2)
        else if pp = false ∨ (sp = true ∧ why = some true) then chkResult t id k .shadow 0x202 .degraded 0
        else if sp = false ∨ why = some false then chkResult t id k .primary 0x202 .degraded 1
        else if a.integ.chk.getD k .primary = .primary ∧ 3 ≤ failures.length then chkResult t id k .compare 0x201 .corrected 0
        else t)) ∧
    (a.integ.chk.getD k .primary = .compare → a.integ.selfTest.get k = none → exec (.compareQuiet id k) s =
      .next (s.onAgent id fun x => { x with integ := { x.integ with chk := x.integ.chk.put k .primary .primary } }))

/-- What an agent does on all its live links at once: the end of a margin window, and the choice of calibration records (R205, R306, R307). -/
def Obligations.LinkSweepCommands : Prop :=
  ∀ (s : State) (id : Nat) (a : Agent) (temp : BitVec 16),
    Live s id a →
    (let dm := fld (a.param 5) 3 0
     let used (n : Nat) : List Nat := (List.range 4).filter fun k => ((a.link n).lane k).inUse
     let low (n : Nat) : Nat := (used n).foldl (fun m k => Nat.min m (15 - ((a.link n).lane k).most)) 15
     exec (.marginWindow id) s = .next ((List.range 16).foldl (fun t n =>
       if (a.link n).live then
         dropLanes ((t.onAgent id fun x => (used n).foldl (fun y k => y.onLane n k fun l => (l.window dm).1) x).onAgent id fun x =>
           if low n < (x.count (x.countPort n) 24).toNat then x.setCount (x.countPort n) 24 (BitVec.ofNat 64 (low n)) else x)
           id n ((used n).filter fun k => (((a.link n).lane k).window dm).2)
       else t) s)) ∧
    (let pick (n : Nat) : Option Nat := a.calibFor n (a.link n).bucket temp
     exec (.calibSelect id temp) s = .next ((List.range 16).foldl (fun t n =>
       if (a.link n).live then
         let u := t.onAgent id fun x => x.onLink n fun k =>
           { k with calib := pick n, calibStale := (pick n).isNone, asym := approach k.asym (a.asymOf (pick n)) 10000
                    readings := (k.total :: k.readings).take 10 }
         if (pick n).isNone && !(a.link n).calibStale then agentFault u id (0x010 + n) 0x108 .note else u
       else t) (s.onAgent id fun x => { x with temp := temp })))

/-- An agent's life, identity and registers: reset, announcement, assignment, register requests, mailbox words, frames, counters, PING, and a repeated TAG (R217, R220 to R225, R234 to R236). The model's own choices within it: log 17, 57, 84, 145, 187, 188, 191. -/
def Obligations.AgentManagementCommands : Prop :=
  ∀ (s : State) (id k : Nat) (a : Agent) (q : Req) (hc : Straps) (cabled : BitVec 16) (body : List Byte) (items : List RegItem) (word : Word)
    (tag : BitVec 32) (st : BitVec 8) (an : BitVec 32 × Answer),
    (s.agents.get id = some a → exec (.agRstLAssert id) s = .next { s with agents := s.agents.set id { hc := a.hc } }) ∧
    (s.agents.get id = some a → a.inReset = true → exec (.agentResetRelease id hc cabled) s =
      .next ((List.range 16).foldl (fun t n => if cabled.getLsbD n then trainLink t id n else t)
        (kpEraseAll { s with agents := s.agents.set id { hc := hc, inReset := false } } id false))) ∧
    (Live s id a → a.assigned = false → a.spare = false → exec (.announceTimer id) s =
      .next (s.emit (.agFrame id (etherFrame 0xFFFFFFFFFFFF a.hc.mac a.net (mgmtPkt (ctrlUnit 0) a.addr a.epoch
        (mgmtPayload 0x0020 0 0 (BitVec.ofNat 64 a.life.code)
          (leBytes 8 id ++ wordBytes a.info ++ leBytes 8 a.hc.mac ++ wordBytes a.fwStatus ++ hashBytes a.hc.idKey))).sealed)))) ∧
    (Asks s id a q → leAt body 0 8 % 2 ^ 56 ≠ id ∨ 2 ^ 28 ≤ leAt body 8 4 ∨ 2 ≤ leAt body 8 4 / 2 ^ 24 →
      exec (.assign id q body) s = .next (mgAck (asksNow s id q) id q stInvalid)) ∧
    (Asks s id a q → leAt body 0 8 % 2 ^ 56 = id → leAt body 8 4 < 2 ^ 25 → exec (.assign id q body) s = .next (
      let t := (mgAck (asksNow s id q) id q stOk).onAgent id fun x =>
        { x.assign (BitVec.ofNat 28 (leAt body 8 4)) with net := netOfBody body, fwGroup := leAt body 0x10 6, ctrlMac1 := leAt body 0x18 6, ctrlMac2 := leAt body 0x20 6 }
      if ((t.agents.get id).map (·.assigned)).getD false && !a.assigned then sendReport t id else t)) ∧
    (Live s id a → (a.answers.getD q.ctrl []).find? (fun p => p.1 == q.tag && q.tag != 0) = some an →
      let t := emitAnswer (asksNow s id q) id q an.2
      exec (.assign id q body) s = .next t ∧ exec (.regReq id q k items) s = .next t ∧ exec (.mbWord id q word) s = .next t) ∧
    (Asks s id a q → 1 ≤ k → k ≤ 255 → k ≤ items.length → exec (.regReq id q k items) s = .next (
      let done := regItems (asksNow s id q) id (items.take k)
      let net := ((done.2.agents.get id).map (·.net)).getD 0
      (answerReq (done.2.onAgent id fun x => { x with net := a.net }) id q (.regRsp done.1)).onAgent id fun x => { x with net := net })) ∧
    (Asks s id a q → k = 0 ∨ 255 < k ∨ items.length < k → exec (.regReq id q k items) s = .next (mgAck (asksNow s id q) id q stInvalid)) ∧
    (Asks s id a q → a.inFull = false → exec (.mbWord id q word) s =
      .next (mgAck (agentCause ((asksNow s id q).onAgent id fun x => { x with mbIn := word, inFull := true }) id causeMailbox) id q stOk)) ∧
    (Asks s id a q → a.inFull = true → exec (.mbWord id q word) s = .next (mgAck ((asksNow s id q).onAgent id fun x => { x with inOvf := true }) id q stBusy)) ∧
    (Live s id a → a.outFull = true → exec (.agMbOutResend id) s = .next (agentMgmt s id (agentNet s id .ordinary) 0 0x0003 0 a.outTag 1 (wordBytes a.mbOut))) ∧
    (Live s id a → a.outFull = true → a.outTag = tag → exec (.mgAckAtAgent id tag st) s =
      .next (s.onAgent id fun x => { x with outFull := false, outOvf := x.outOvf || st.toNat == stBusy })) ∧
    (Live s id a → a.outFull = false → exec (.mgAckAtAgent id tag st) s =
      .next (s.onAgent id fun x => { x with integ := { x.integ with reports := x.integ.reports.filter fun r => r.tag != tag } })) ∧
    (Live s id a → exec (.cntSample id q) s =
      .next ((agentMgmt (asksNow s id q) id .ordinary q.ctrl 0x0011 0 q.tag (BitVec.ofNat 64 (a.ft s)) (a.counterWords.flatMap wordBytes)).onAgent id Agent.restartMarks)) ∧
    (Live s id a → exec (.ping id q tag) s = .next (agentCtrl (asksNow s id q) id q.net q.ctrl 0x25 0 q.context tag)) ∧
    (Live s id a →
      let tagged := beAt body 12 2 == 0x8100
      let off := if tagged then 16 else 12
      let rest := body.drop (off + 6)
      let len := leAt body (off + 4) 2
      let p : Pkt := { hdr := hdrOf rest, payload := (rest.drop 32).take (len - 32) }
      let vlanOk := if a.net.getLsbD 13 then tagged && beAt body 14 2 % 4096 == fld a.net 11 0 else !tagged
      let good := vlanOk && beAt body off 2 == fld a.net 47 32 && leAt body (off + 2) 1 == 1 && leAt body (off + 3) 1 == 0 && decide (32 ≤ len) &&
        (decide (len + 4 = rest.length) || (decide (len + 4 < rest.length) && body.length == 64)) && p.hdr.size == len && p.hdr.typ != 0
      let c := checkTail (a.integ.chk.getD 8 .primary) p 0
      exec (.ethernetFrame id body) s = .next (if good = false then s.onAgent id fun x => x.bump 8 47
        else if (c.1 && c.2.1) = false then recordCheck s id 8 c.1 c.2.1 none
        else if malformed a.addr p.hdr then countDrop s id 8 47 p.hdr
        else if p.hdr.dst ≠ a.addr ∧ s.valid p.hdr.dst = false then countDrop s id 8 29 p.hdr
        else if controllerTraffic p.hdr = false then countDrop s id 8 27 p.hdr
        else if a.refuses p.hdr then s else handOver s id p))

/-- The event buffer of an agent, and its firmware: records taken, sent, acknowledged and sent again, and an image from its manifest to its verdict (R226 to R229, R237 to R239, R344, R378 to R380). The model's own choices within it: log 11, 19, 57, 187, 188. -/
def Obligations.EventAndFirmwareCommands : Prop :=
  ∀ (s : State) (id k e : Nat) (a : Agent) (q : Req) (r : Rec) (arg : BitVec 32) (bytes body : List Byte),
    let missing := (List.range a.manifest.chunks).filter fun n => !a.chunks.contains n
    let asked := agentMgmt s id .ordinary 0 0x0033 (Nat.min 1020 missing.length) 0 (BitVec.ofNat 64 missing.length) ((missing.take 1020).flatMap (leBytes 4))
    (Live s id a →
      let x := { r with source := a.addr, island := a.handle, kind := hostKind r.kind, cls := if r.kind = 0x188 then .note else r.cls, portal := none, ctx := none }
      exec (.hcEvt id r) s = .next ((flushDue (s.onAgent id fun y => { y with evt := y.evt.take x }) id 4).emit (.hcEvtAck id))) ∧
    (Live s id a → exec (.eventsFlush id) s = .next (sendEvents s id)) ∧
    (Live s id a → extendAck a.evt.next arg = some e → a.evt.acked < e →
      exec (.evtAck id arg) s = .next (flushDue (s.onAgent id fun x => { x with evt := x.evt.ackTo e }) id 4)) ∧
    (Live s id a → exec (.eventsResend id) s = .next (match a.eventsNet id s.now with
      | none => s
      | some net => resendPackets s id net a.evt a.evt.acked a.evt.packets)) ∧
    (Live s id a → a.evt.spoilPosted < a.evt.spoil → a.evt.spoilTime = none → exec (.evtSpoil id) s = .next (agentFault
      (s.onAgent id fun x => { x with evt := { x.evt with spoilPosted := x.evt.spoil, spoilTime := some s.now } }) id 3 0x187 .note (BitVec.ofNat 64 a.evt.spoil))) ∧
    (Asks s id a q → exec (.fwManifest id q body) s = .next (
      let t := asksNow s id q
      if manifestReason body a.hc.floor ≠ 0 then mgAck (t.onAgent id fun x => { x with reason := manifestReason body a.hc.floor }) id q stInvalid
      else if a.life = .verifying then mgAck t id q stInvalid
      else mgAck (t.onAgent id fun x =>
        { x with reason := 0, life := .loading, manifest := manifestOf body, chunks := [], fwMeas := 0
                 core := { x.core with mem := x.core.mem.filter fun c => !inImage c.1, awaits := none, untilT := none, msgs := [] } }) id q stOk)) ∧
    (Live s id a → a.life = .loading → k < a.manifest.chunks → bytes.length = Nat.min 4080 (a.manifest.bytes - 4080 * k) → a.chunks.contains k = false →
      exec (.fwChunk id k bytes) s = .next (s.onAgent id fun x =>
        { x with core := { x.core with mem := memStore x.core.mem (0x80000 + 4080 * k) bytes }, chunks := insertAsc k x.chunks
                 life := if x.chunks.length + 1 = x.manifest.chunks then .verifying else .loading })) ∧
    (Live s id a → a.life = .loading → a.manifest.chunks ≤ k → exec (.fwChunk id k bytes) s = .next (s.onAgent id fun x => x.bump 8 47)) ∧
    (Live s id a → a.life = .loading → exec (.fwEnd id) s = .next asked ∧ exec (.fwMissingTimer id) s = .next asked ∧
      exec (.loadingTimeout id) s = .next (s.onAgent id fun x => { x with life := .rom, reason := 5 })) ∧
    (Live s id a → a.life = .verifying → exec (.fwVerifyDone id) s = .next (
      let hash := Config.sha384 (memBytes a.core.mem 0x80000 a.manifest.bytes)
      if hash = a.manifest.hash then digestServe (s.onAgent id fun x =>
        { x with life := .running, fwMeas := hash, svn := x.manifest.svn, excTimes := []
                 core := { mem := x.core.mem.filter fun c => inImage c.1, pc := BitVec.ofNat 64 (0x80000 + x.manifest.entry), causes := x.core.causes } }) id 4
      else agentFault (s.onAgent id fun x => { x with life := .rejected, reason := 1 }) id 2 0x180 .uncorrected))

/-- Endpoint resets, scrubs, the key port, debug and measurement signals, and the steps of the power manager (R240 to R249, R331, R332). The model's own choices within it: log 9, 11, 18, 56, 57, 188, 192. -/
def Obligations.ResetScrubAndKeyCommands : Prop :=
  ∀ (s : State) (id n level : Nat) (a : Agent) (q : Req) (o : KOp) (word : Word) (body : List Byte) (dbg : BitVec 8) (meas : Hash),
    let failed (u : State) : State :=
      let l := a.rst.level + 1
      raiseReset (agentFault (u.onAgent id fun x => { x with fenced := x.fenced || decide (3 ≤ l), integ := { x.integ with reading := x.integ.reading && decide (l < 3) }
                                                             rst := { x.rst with level := l, result := 2 } }) id 6 0x181 .degraded) id
    let last (u : State) : State :=
      let t := pmStart (mgAcks (agentFault (u.onAgent id fun x =>
        { x with rst := { x.rst with level := 0, asked := 0, asks := [], lastLevel := 4, lastUs := microsSince u x.rst.started, result := 3 } })
          id 6 0x181 .uncorrected) id a.rst.asks stFenced) id
      if a.scrub.step = 1 then failScrub t id 0 true else digestServe (afterReset t id) id 4
    let held : State := s.onAgent id fun x => { x with rst := { x.rst with late := true } }
    let closed : State := raiseReset (s.onAgent id fun x => { x with rst := { x.rst with late := false } }) id
    let scrubHeld : State := s.onAgent id fun x => { x with scrub := { x.scrub with late := true } }
    let scrubClosed : State :=
      let t := s.onAgent id fun x => { x with scrub := { x.scrub with late := false } }
      if a.scrub.step < 3 then t else scrubRegion t id (a.scrub.step - 3)
    let timed (us : Nat) : State := s.onAgent id fun x =>
      { x with scrub := { x.scrub with regionUs := (x.scrub.regionUs &&& ~~~at_ 0xFFFF (16 * (a.scrub.step - 3))) ||| at_ us (16 * (a.scrub.step - 3)) } }
    let took := Nat.min 0xFFFF (microsSince s a.scrub.regionStart)
    (Asks s id a q → exec (.reset id q level) s = .next (requestReset (asksNow s id q) id level (some q)) ∧
      exec (.scrub id q) s = .next (startScrub (asksNow s id q) id (some q)) ∧
      exec (.keyDeliver id q word body) s = .next (match keyDeliverOp id a q word body with
        | none => mgAck (asksNow s id q) id q stInvalid
        | some k => kpQueue (asksNow s id q) id k)) ∧
    (Live s id a → exec (.agResetGo id level) s = .next (requestReset s id level none) ∧ exec (.agScrubGo id) s = .next (startScrub s id none)) ∧
    (Live s id a → a.rst.late = true → exec (.rstAck id) s = .next closed ∧ exec (.rstFail id) s = .next closed) ∧
    (Live s id a → a.rst.late = false → a.rst.level ≠ 0 →
      let t := pmStart (mgAcks (s.onAgent id fun x =>
        { x with fenced := x.fenced && decide (a.scrub.step ≠ 0 ∨ a.scrub.result = 3)
                 rst := { x.rst with level := 0, asked := 0, asks := [], lastLevel := x.rst.level, lastUs := microsSince s x.rst.started
                                     result := if x.rst.asked = x.rst.level then 1 else 2 } }) id a.rst.asks stOk) id
      exec (.rstAck id) s = .next (if a.scrub.step = 1 then
        kpEraseAll (t.onAgent id fun x => { x with scrub := { x.scrub with step := 2 } }) id true else digestServe (afterReset t id) id 4)) ∧
    (Live s id a → a.rst.level ≠ 0 → a.rst.level < 4 → (a.rst.late = false → exec (.rstFail id) s = .next (failed s)) ∧
      exec (.endpointResetTimeout id) s = .next (failed held)) ∧
    (Live s id a → a.rst.level = 4 → (a.rst.late = false → exec (.rstFail id) s = .next (last s)) ∧ exec (.endpointResetTimeout id) s = .next (last held)) ∧
    (Live s id a → a.scrub.late = true → exec (.scrubDone id) s = .next scrubClosed ∧ exec (.scrubFail id) s = .next scrubClosed) ∧
    (Live s id a → 3 ≤ a.scrub.step → (a.scrub.late = false → exec (.scrubFail id) s = .next (failScrub s id (a.scrub.step - 3) false)) ∧
      exec (.scrubRegionTimeout id) s = .next (failScrub scrubHeld id (a.scrub.step - 3) false)) ∧
    (Live s id a → a.scrub.late = false → 3 ≤ a.scrub.step → a.scrub.step < 6 → exec (.scrubDone id) s = .next (scrubRegion (timed took) id (a.scrub.step - 2))) ∧
    (Live s id a → a.scrub.late = false → a.scrub.step = 6 → exec (.scrubDone id) s = .next (endScrub (mgAcks ((timed took).draw.2.onAgent id fun x =>
      { x.scrubOwn with scrub := { x.scrub with agentNs := (timed took).draw.1.toNat % 65536 } }) id a.stagedAsks stInvalid) id 2)) ∧
    (Live s id a → a.keys.running = some o → a.keys.late = false →
      let t := s.onAgent id fun x => { x with keys := x.keys.done o }
      exec (.kpAck id) s = .next (kpNext (match o.ask with
        | none => t
        | some r => mgAck t id r stOk) id (o.scrub && a.scrub.step == 2)) ∧
      exec (.kpErr id) s = .next (kpNext (kpFails s id a o false) id false) ∧
      exec (.keyPortTimeout id) s = .next (kpFails (s.onAgent id fun x =>
        { x with keys := { x.keys with late := true, running := some { o with ask := none, scrub := false } } }) id a o true)) ∧
    (Live s id a → a.keys.running = some o → a.keys.late = true →
      exec (.kpAck id) s = .next (kpNext (s.onAgent id fun x =>
        { x with keys := if o.op = .load then { x.keys with queue := { op := .erase, slot := o.slot } :: x.keys.queue } else x.keys.done o }) id false) ∧
      exec (.kpErr id) s = .next (kpNext s id false)) ∧
    (Live s id a → exec (.dbgStateChange id dbg) s = .next (
      let t := s.onAgent id fun x => { x with dbg := dbg, dbgSeen := x.dbgSeen || dbg != 0 }
      if a.dbg = 0 ∧ dbg ≠ 0 ∧ a.keys.noDebug ≠ 0 then kpEraseAll (agentFault t id 4 0x186 .degraded) id false else t)) ∧
    (Live s id a → a.hcLatched = false → exec (.hcMeasValid id meas) s = .next (s.onAgent id fun x => { x with hcMeas := meas, hcLatched := true })) ∧
    (Live s id a → n < 16 → exec (.agStepWrite id n word) s = .next (
      let v := limitStep (word.extractLsb' 16 8) (bits a.hc.pmLimit.toNat 7 0)
      let f := limitStep (word.extractLsb' 24 8) (bits a.hc.pmLimit.toNat 15 8)
      let x : AgStep := { unit := word.truncate 12, vstep := v, fstep := f, clamped := word.extractLsb' 16 8 != v || word.extractLsb' 24 8 != f }
      pmStart (s.onAgent id fun y => { y with steps := y.steps.put n x {}, stepQueue := insertAsc n y.stepQueue }) id)) ∧
    (Live s id a → a.stepRun = some n → a.stepQueue.contains n = false →
      exec (.pmAck id) s = .next (pmStart (s.onAgent id fun x =>
        { x with stepRun := none, steps := if x.stepQueue.contains n then x.steps else x.steps.put n { x.steps.getD n {} with applied := true } {} }) id) ∧
      exec (.pmFail id) s = .next (pmDone (agentFault s id 7 0x185 .degraded) id fun x => { x with refused := true }))

/-- An installation at an agent: staging, the phases of Table 9.5 with their answers, the drain, and an island's abort (R225, R284 to R290, R373 to R375). The model's own choices within it: log 20, 21, 57, 181, 188. -/
def Obligations.AgentInstallationCommands : Prop :=
  ∀ (s : State) (id table first count epoch : Nat) (restart : Bool) (a : Agent) (q r : Req) (bytes : List Byte) (net : Net) (hdr : Hdr),
    let u := asksNow s id q
    Live s id a →
    (a.ts.refill = false → exec (.tsData id q table first count bytes) s = .next (tsData u id q table first count bytes)) ∧
    (a.ts.refill = true →
      exec (.tsData id q table first count bytes) s =
        .next (u.onAgent id fun x => { x with ts := { x.ts with held := x.ts.held ++ [(q, table, first, count, bytes)] } }) ∧
      exec (.stagingRefillDone id) s = .next (a.ts.held.foldl (fun t h => tsData t id h.1 h.2.1 h.2.2.1 h.2.2.2.1 h.2.2.2.2)
        (s.onAgent id fun x => { x with stage := x.bank, ts := { x.ts with refill := false, held := [] } }))) ∧
    (a.hc.isSwitch = false → a.tsEpochOk epoch = false →
      exec (.tsPrepare id q epoch) s = .next (tsReady s id q stInvalid 0) ∧ exec (.tsQuiesce id q epoch) s = .next (tsAck s id q stInvalid 0) ∧
      exec (.tsCommit id q epoch) s = .next (tsAck s id q stInvalid 0) ∧ exec (.tsRelease id q epoch) s = .next (tsAck s id q stInvalid 0) ∧
      exec (.tsAbandon id q epoch restart) s = .next (tsAck s id q stInvalid 0)) ∧
    (a.tsEpochOk epoch = true →
      (a.ts.st = .opn → exec (.tsPrepare id q epoch) s = .next (if stagingFits s a then
          tsReady (s.onAgent id fun x => { x with ts := { x.ts with st := .prepared, prep := epoch } }) id q stOk (crc32c (memberImage a.hc.isSwitch a.stage))
        else tsReady s id q stInvalid 0) ∧ exec (.tsRelease id q epoch) s = .next (tsAck s id q stOk 0)) ∧
      (a.ts.st = .prepared → a.hc.isSwitch = true ∨ a.undrained = 0 → exec (.tsQuiesce id q epoch) s =
        .next (tsAck (s.onAgent id fun x => { x with ts := { x.ts with st := .held, quiesce := none } }) id q stOk 0)) ∧
      (a.ts.st = .prepared → a.hc.isSwitch = false → 0 < a.undrained → exec (.tsQuiesce id q epoch) s =
        .next (s.onAgent id fun x => { x with ts := { x.ts with st := .held, quiesce := some q } })) ∧
      (a.ts.st = .held → exec (.tsCommit id q epoch) s =
        .next (tsAck (swapBanks (s.onAgent id fun x => { x with ts := { x.ts with quiesce := none } }) id a) id q stOk 0)) ∧
      (a.ts.st = .committed → exec (.tsCommit id q epoch) s = .next (tsAck s id q stOk 0) ∧ exec (.tsRelease id q epoch) s =
        .next (tsAck (s.onAgent id fun x =>
          { x with abortFence := false, ts := { x.ts with st := .opn, old := none, back := none, refill := true } }) id q stOk 0)) ∧
      (a.ts.st = .opn ∨ a.ts.st = .prepared → exec (.tsCommit id q epoch) s = .next (tsAck s id q stInvalid 0)) ∧
      exec (.tsAbandon id q epoch restart) s = .next (tsAck (abandon s id a restart) id q stOk 0)) ∧
    (a.ts.quiesce = some r →
      let t := tsAck (s.onAgent id fun x => { x with ts := { x.ts with quiesce := none } }) id r stOk (drainArg a.undrained)
      exec (.drainLimit id) s = .next t ∧ (a.undrained = 0 → exec (.flowsDrained id) s = .next t)) ∧
    (a.handle ≠ 0 → hdr.arg.toNat % 65536 = a.handle →
      let answered (v : State) : State := agentCtrl v id net 0 0x20 10 (BitVec.ofNat 24 hdr.context) (0x80000000 ||| (hdr.arg &&& 0xFFFF))
      (a.abortFence = true → exec (.islandAbortPacket id { hdr := hdr, net := net }) s = .next (answered s)) ∧
      (a.abortFence = false →
        let t := s.onAgent id fun x => { x with abortFence := true }
        let v := cutFlows (if a.ts.st = .opn then t else abandon t id a false) id a
        exec (.islandAbortPacket id { hdr := hdr, net := net }) s = .next (answered ((relayDims hdr).foldl (fun v k =>
          (relayEnds v a k).foldl (fun w d => launch w id (relayPkt a hdr k d)) v) v)))) ∧
    (a.handle = 0 ∨ hdr.arg.toNat % 65536 ≠ a.handle → exec (.islandAbortPacket id { hdr := hdr, net := net }) s = .next s)

/-- The digest engine and targeted tests of an agent (R388 to R392, R398 to R400). The model's own choices within it: log 9, 22, 54, 55, 97, 98, 154, 188. -/
def Obligations.AgentIntegrityCommands : Prop :=
  ∀ (s : State) (id i slot set off : Nat) (is : List Nat) (rest : List DStep) (a : Agent) (q : Req) (d : DStep) (t : AgTest) (rep : AgReport) (arg tag : BitVec 32)
    (data bytes : List Byte),
    (Live s id a → a.life = .running → a.integ.queue.length < 4 →
      let again := arg.getLsbD 8
      let f := a.integ.fig
      let step := if again then bits arg.toNat 31 9 else (a.integ.step + 1) % 2 ^ 40
      let u := s.onAgent id fun x => { x with integ := { x.integ with
        step := if again then x.integ.step else step, fig := if again then x.integ.fig else {}
        queue := x.integ.queue ++ [{ descs := a.descsOf (bits arg.toNat 7 0), rep := again, step := step, fig := if again then {} else f }] } }
      let v := if again = false ∧ 0 < f.violations then
        agentFault u id 1 0x200 .note (BitVec.ofNat 64 f.violations) (BitVec.ofNat 64 (f.firstFmt.getD 0)) else u
      exec (.digestStep id arg) s = .next (digestServe v id 4)) ∧
    (Live s id a → a.life = .running → 4 ≤ a.integ.queue.length → arg.getLsbD 8 = false → a.integ.fig.violations = 0 →
      exec (.digestStep id arg) s = .next (agentFault (s.onAgent id fun x => { x with integ := { x.integ with
        step := (a.integ.step + 1) % 2 ^ 40, fig := {} } }) id 2 0x041 .note)) ∧
    (Live s id a → a.life ≠ .running → exec (.digestStep id arg) s = .next (agentFault s id 2 0x041 .note)) ∧
    (Live s id a → a.integ.queue = d :: rest → a.busyReset = false → a.life = .running → d.descs = i :: is →
      exec (.digestComplete id data) s = .next (digestServe (sendDigest (s.onAgent id fun x => { x with integ := { x.integ with
        queue := { d with descs := is, fig := { poisoned := d.fig.poisoned } } :: rest, reading := false } }) id
          (reportBytes a i d.rep d.fig.poisoned d.step (digest64 data) d.fig)) id 4)) ∧
    (Live s id a → a.integ.reports.find? (fun r => r.tag == tag) = some rep →
      (rep.sends < 9 → exec (.digestReportResend id tag) s = .next ((agentMgmt s id (agentNet s id .ordinary) 0 0x0060 0 tag 0 rep.body).onAgent id fun x =>
        { x with integ := { x.integ with reports := x.integ.reports.map fun r => if r.tag = tag then { r with sends := r.sends + 1 } else r } })) ∧
      (9 ≤ rep.sends → exec (.digestReportResend id tag) s =
        .next (s.onAgent id fun x => { x with integ := { x.integ with reports := x.integ.reports.filter fun r => r.tag != tag } }))) ∧
    (Live s id a → a.life = .running → exec (.testReq id q arg) s =
      .next (testStart s id a { set := bits arg.toNat 15 0, unit := bits arg.toNat 27 16, ask := q })) ∧
    (Live s id a → a.life ≠ .running → exec (.testReq id q arg) s = .next (agentFault s id 2 0x041 .note) ∧
      exec (.testDone id arg data) s = .next (agentFault s id 2 0x041 .note)) ∧
    (Live s id a → a.integ.test = some t → exec (.testRunTimeout id) s = .next (testEnd s id t 2) ∧
      (a.life = .running → exec (.testDone id 0 data) s = .next (testEnd s id t 3))) ∧
    (Live s id a → a.life = .running → a.integ.test = some t → arg ≠ 0 →
      let len := memLoad a.core.mem (entryAt t + 8) 8
      let good := digest64 (slice data 0 len) = BitVec.ofNat 64 (memLoad a.core.mem (entryAt t + 16) 8)
      let u := s.emit (.hostRead id (arg.zeroExtend 64 <<< 12) len)
      (good → t.entry + 1 < a.setCountOf t → exec (.testDone id arg data) s = .next (testRun u id a { t with entry := t.entry + 1 })) ∧
      (good → a.setCountOf t ≤ t.entry + 1 → exec (.testDone id arg data) s = .next (testEnd u id t 0)) ∧
      (¬good → exec (.testDone id arg data) s = .next (testEnd u id t 1))) ∧
    (Asks s id a q → slot < 8 → bytes ≠ [] → bytes.length ≤ 4080 → off + bytes.length ≤ 8192 → a.integ.test = none →
      exec (.patData id q slot set off bytes) s = .next (mgAck ((asksNow s id q).onAgent id fun x =>
        { x with core := { x.core with mem := memStore x.core.mem (storeAt slot + off) bytes } }) id q stOk)) ∧
    (Asks s id a q → slot < 8 → bytes ≠ [] → bytes.length ≤ 4080 → off + bytes.length ≤ 8192 → a.integ.test = some t → t.slot = slot →
      exec (.patData id q slot set off bytes) s = .next ((asksNow s id q).onAgent id fun x =>
        { x with integ := { x.integ with patHeld := x.integ.patHeld ++ [(q, slot, set, off, bytes)] } }))

/-! The machine as a whole. -/

/-- A step takes the command at the front of the queue and is that command's effect with the rest of the queue. -/
def Obligations.StepRunsFrontCommand : Prop :=
  ∀ (s : State) (c : Instr) (rest : List Instr), s.pending = c :: rest → step s = exec c { s with pending := rest }

/-- With no command waiting, fabric time counts one nanosecond while D0 is up, and a fuse of a floor raise that is due is blown; nothing else changes (the model's choices, log 2 and 176). -/
def Obligations.IdleBlockTicks : Prop :=
  ∀ s : State, s.pending = [] →
    (s.pins.d0Up = true → s.power.raiseTo ≤ s.power.floor → step s = .next { s with time := { s.time with now := s.time.now + 1 } }) ∧
    (s.pins.d0Up = true → s.power.floor < s.power.raiseTo →
      let t : State := { s with time := { s.time with now := s.time.now + 1 }, power := { s.power with floor := s.power.floor + 1 } }
      step s = .next (if s.power.floor + 1 = s.power.raiseTo then floorRaised t else t)) ∧
    (s.pins.d0Up = false → step s = .next s)

/-- What the unpowered package holds: the reset values of the registers that the spec gives one, every domain off, no ring, no context, no agent, and no command waiting (Tables 2.7, 2.8, 3.3 to 3.5, 11.4, 11.12, 12.8, 13.12). The model's own choices within it: log 3, 4. -/
def Obligations.ResetValues : Prop :=
  (∀ p, p < 8 →
    regWord State.reset p 0x110 = 0 ∧ regWord State.reset p 0x118 = 0x000A00640064 ∧ regWord State.reset p 0x400 = 0 ∧
    regWord State.reset p 0x408 = 0x001E271000271010 ∧ regWord State.reset p 0x410 = 0x0000000A00000000 ∧
    regWord State.reset p 0x10008 = 0 ∧ regWord State.reset p 0x10020 = 0 ∧ regWord State.reset p 0x10028 = 0 ∧
    regWord State.reset p 0x500008 = 0x00000FFFFFF00000 ∧ regWord State.reset p 0x500018 = 0x006403E8021E0202 ∧
    regWord State.reset p 0x600018 = 0x0200B41E00000032 ∧ (State.reset.portal p).role = .none) ∧
  (∀ d, d ≠ 0 → State.reset.domSt d = .off) ∧ State.reset.eng.rings = [] ∧ State.reset.eng.ctxs = [] ∧ State.reset.agents = [] ∧
  State.reset.pending = [] ∧ State.reset.out = []

/-- The fields of an instruction word lie where Table 4.2 puts them and fill it: the word of an opcode and its fields spells them again, and every word is the word of what it spells; the word of an assigned opcode spells a command with those fields, and exactly the words of reserved opcodes spell none (R122, R123). -/
def Obligations.AglekWordRoundTrip : Prop :=
  (∀ (op : Nat) (i : Ins), op < 256 → decodeWord (encodeWord op i) = (op, i)) ∧
    (∀ w : Word, encodeWord (decodeWord w).1 (decodeWord w).2 = w ∧ (decodeWord w).1 < 256) ∧
    (∀ (who : Who) (host : List Byte) (op : Nat) (i : Ins), op < 256 → opReserved op = false →
      ∃ x, aglekInstr who host (encodeWord op i) = some x ∧ aglekRow x = some (who, i)) ∧
    ∀ (who : Who) (host : List Byte) (w : Word), aglekInstr who host w = none ↔ opReserved (decodeWord w).1 = true

/-- Words written out from Table 4.2: the example of R126, its canonical NOP, LD.BS g1, [g2 + 8] and VSEL v3, v4, v5 under k6 picking by k7. -/
def Obligations.SampleAglekWords : Prop :=
  decodeWord 0x1028C0A0FFFFFFF0 = (0x10, { dst := 5, srca := 3, pred := 2, neg := true, imm := 0xFFFFFFF0 }) ∧
    decodeWord 0 = (0x00, {}) ∧
    decodeWord 0x3008800400000008 = (0x30, { dst := 1, srca := 2, mod := 4, imm := 8 }) ∧
    decodeWord 0x4B190B8700000000 = (0x4B, { dst := 3, srca := 4, srcb := 5, pred := 6, mod := 7 })

/-- A skipped Aglek instruction, of any row, only retires in 1 cycle, unless one of the conditions that stand before the predicate raises; its fetch corrects a single-bit error (R125, R126, R133). The model's own choices within it: log 173. -/
def Obligations.SkippedInstructionOnlyRetires : Prop :=
  ∀ (x : Instr) (s : State) (who : Who) (i : Ins) (b c : Core), aglekRow x = some (who, i) → coreOf s who = some b → s.executes who = true →
    let u := correctLoc s who (.own b.pc.toNat)
    coreOf u who = some c → (c.mask i).getLsbD 0 = false →
      exec x s = .next (setCore u who (c.retire 1)) ∨
        ∃ e, (e.code = xFetch ∨ e.code = xIllegal ∨ e.code = xProfile ∨ e.code = xSpecial ∨ e.code = xMemUnc) ∧ exec x s = .next (raiseExc u who c.pc e)

/-- The frame of every core instruction that reaches no memory: after a fetch that corrects a single-bit error, either it raises an exception, or it changes its own core alone, and of that only its destination, its flags, pc and the counters (R120, R125, R133, R136, R143). The model's own choices within it: log 173. -/
def Obligations.RegisterInstructionFrame : Prop :=
  ∀ (x : Instr) (r : CoreRow) (s t : State) (b c : Core), coreRow x = some r → r.mem = false → coreOf s r.who = some b → s.executes r.who = true →
    let u := correctLoc s r.who (.own b.pc.toNat)
    coreOf u r.who = some c → (c.mask r.ins).getLsbD 0 = true → exec x s = .next t →
      (∃ e, t = raiseExc u r.who c.pc e) ∨ ∃ d, t = setCore u r.who d ∧ CoreFrame r c d

/-- The frame of the memory instructions over every byte of every scratch, SRAM and bench: a load changes none, a store or an atomic only the bytes at the place it stores to, a vector store only the words of its active lanes (R127, R141, R142, R147). The model's own choices within it: log 6, 9, 163, 165, 173. -/
def Obligations.MemoryInstructionFrame : Prop :=
  ∀ (s t : State) (who : Who) (i : Ins) (c : Core), coreOf s who = some c →
    let at_ (addr : Word) (n : Nat) (v : Who) (l : Loc) : Bool :=
      match storePlace s who addr n 0 with
      | .ok p => touches who p n v l
      | .error _ => false
    let lanesAt (as : List (Nat × Word)) (v : Who) (l : Loc) : Bool :=
      as.any fun p => match locate s who p.2 8 p.1 true with
        | .ok q => touches who q 8 v l
        | .error _ => false
    (exec (.ld who i) s = .next t ∨ exec (.ldx who i) s = .next t ∨ exec (.vld who i) s = .next t ∨ exec (.vgather who i) s = .next t →
      SameBytes s t fun _ _ => false) ∧
    (exec (.st who i) s = .next t → SameBytes s t (at_ (c.opA i + i.simm) (sizeOfMod i))) ∧
    (exec (.stx who i) s = .next t → SameBytes s t (at_ (indexed c i) (sizeOfMod i))) ∧
    (exec (.amo who i) s = .next t ∨ exec (.cas who i) s = .next t → SameBytes s t (at_ (c.opA i + i.simm) 8)) ∧
    (exec (.vst who i) s = .next t → SameBytes s t (lanesAt (seqAddrs c i))) ∧
    (exec (.vscatter who i) s = .next t → SameBytes s t (lanesAt (offAddrs c i)))

/-- The corners of DIV and REM give their results and raise nothing; a signed remainder is zero or has the sign of a; and quotient and remainder always rebuild a (R137). -/
def Obligations.DivisionCorners : Prop :=
  (∀ (s : State) (who : Who) (c : Core) (i : Ins),
    let d := i.dst.toNat
    let a := c.opA i
    let b := c.opB i
    (Runs s who c i (rowG 0x04 [0, 1]) → b = 0 → exec (.div who i) s = .next (Retired s who (c.setG d 0xFFFFFFFFFFFFFFFF) 36 66)) ∧
    (Runs s who c i (rowG 0x05 [0, 1]) → b = 0 → exec (.rem who i) s = .next (Retired s who (c.setG d a) 36 66)) ∧
    (Runs s who c i (rowG 0x04 [0, 1]) → i.mod = 0 → a = 0x8000000000000000 → b = -1 →
      exec (.div who i) s = .next (Retired s who (c.setG d 0x8000000000000000) 36 66)) ∧
    (Runs s who c i (rowG 0x05 [0, 1]) → i.mod = 0 → a = 0x8000000000000000 → b = -1 →
      exec (.rem who i) s = .next (Retired s who (c.setG d 0) 36 66)) ∧
    (Runs s who c i (rowG 0x05 [0, 1]) → i.mod = 0 →
      ∃ r : Word, exec (.rem who i) s = .next (Retired s who (c.setG d r) 36 66) ∧ (r = 0 ∨ r.msb = a.msb))) ∧
  ∀ a b : Word, divS a b * b + remS a b = a ∧ divU a b * b + remU a b = a

/-- The power registers of Tables 2.5 to 2.8: read from every portal, written by the steward alone, a write from another role dropped with a NOTE fault, and none split-writable (R68). -/
def Obligations.PowerRegisterAccess : Prop :=
  ∀ (s : State) (p off : Nat) (w : Word) (half : List Byte), off = 0x100 ∨ off = 0x108 ∨ off = 0x110 ∨ off = 0x118 →
    let done := s.emit (.writeDone p)
    (s.hasPortal p = true → exec (.rcRegisterRead p false true off 8) s = .next (s.emit (.readValue p (regWord s p off)))) ∧
    (s.portalOpen p = true → (s.portal p).role ≠ .steward →
      exec (.registerWrite p false true off (wordBytes w)) s = .next ((s.portalFault p 0x006 .note 2 1 off).emit (.writeDone p))) ∧
    (s.portalOpen p = true → (s.portal p).role = .steward →
      exec (.registerWrite p false true off (wordBytes w)) s = .next
        (if off = 0x110 then setHold done w
        else if off = 0x118 then done.onPower fun q =>
          { q with fyIdleMs := BitVec.ofNat 16 (fld w 47 32), chIdleUs := BitVec.ofNat 16 (fld w 31 16), benchIdleUs := BitVec.ofNat 16 (fld w 15 0) }
        else done)) ∧
    (s.portalOpen p = true → half.length = 4 →
      exec (.registerWrite p false true off half) s = .next (accessSize s p false 4 off) ∧
      exec (.registerWrite p false true (off + 4) half) s = .next (accessSize s p false 4 (off + 4)))

/-- The engine's checks of a doorbell, the first that matches applied: the full write or the low half, against the ring's current indexes (R98). -/
def Obligations.DoorbellRules : Prop :=
  ∀ (s : State) (p n size : Nat) (w : Word) (g : Ring), s.portalOpen p = true → n < 2 ^ 19 → size = 8 ∨ size = 4 →
    let r := p * 2 ^ 19 + n
    let t := wake (s.emit (.writeDone p)) 17
    let idx : BitVec 32 := w.truncate 32
    let stale := logAccess (t.portalFault p 0x004 .note 2 2 (8 * n)) p 1 true true size (8 * n)
    let overrun (at' : BitVec 32) := errorRing (t.portalFault p 0x005 .note 2 2 (8 * n)) r stInvalid at'
    let host := if g.kind = .submit then g.prod else g.cons
    let ahead := (idx - host).toNat < 2 ^ 31
    let past := (g.kind = .submit ∧ 2 ^ g.log2 < (idx - g.cons).toNat) ∨ (g.kind ≠ .submit ∧ (g.prod - g.cons).toNat < (idx - g.cons).toNat)
    (s.eng.rings.get r = none → exec (.doorbellWrite p (8 * n) size w) s = .next stale) ∧
    (s.eng.rings.get r = some g → g.st = .error ∨ ¬ahead → exec (.doorbellWrite p (8 * n) size w) s = .next stale) ∧
    (s.eng.rings.get r = some g → g.st ≠ .error → ahead → past → ∃ at', exec (.doorbellWrite p (8 * n) size w) s = .next (overrun at')) ∧
    (s.eng.rings.get r = some g → g.st ≠ .error → ahead → ¬past →
      exec (.doorbellWrite p (8 * n) size w) s = .next (doorbellAccept t r g idx) ∧
      ((doorbellAccept t r g idx).eng.rings.get r).map (fun h => if g.kind = .submit then h.prod else h.cons) = some idx)

/-- An entry that the portal's role may not submit, and a KEY_SHARE or CONSENT that is not sealed, leaves the SUBMIT ring with status DENIED and no other effect (R82, R104). -/
def Obligations.RoleRefusal : Prop :=
  ∀ (s : State) (r : Nat) (raw : List Byte) (g : Ring), s.eng.rings.get r = some g → g.kind = .submit → g.st = .active → g.occ ≠ 0 → g.ctx = 0 →
    (s.portal g.owner).ringsEn = true → s.domOn 17 = true → completeFull s g = false → malformedEntry (subEntryOf raw) = false →
      let e := subEntryOf raw
      let op := e.opcode.toNat
      let role := (s.portal g.owner).role
      let taken := wakeBlocked (writeShadow (s.onRing r fun y =>
        { y with cons := y.cons + 1, stalled := false, fetched := y.fetched ++ [{ index := g.cons, entry := e, ctx := 0 }] }) r) r
      ((role = .none ∧ op ≠ 0) ∨ (role = .steward ∧ (op = 0x40 ∨ op = 0x41)) ∨
        (role = .party ∧ [0x10, 0x11, 0x12, 0x13, 0x20, 0x21, 0x30, 0x60].contains op = true) ∨
        (role = .auditor ∧ [0x00, 0x04, 0x22, 0x50].contains op = false) ∨ ((op = 0x40 ∨ op = 0x41) ∧ e.flags.getLsbD 0 = false)) →
      exec (.entryFetch r (.entry raw)) s = .next (answer taken r g.cons stDenied)

/-- What happens at one portal changes no register, mailbox, link or session of another: its link and function resets, its partition reset, its register reads, its fault slots, its mailboxes and its doorbells (R80, R118). The table of contexts has its one form, as CoreRunStaysCanonical keeps it. The model's own choices within it: log 140, 142, 160, 168, 169. -/
def Obligations.PortalIndependence : Prop :=
  ∀ (s t : State) (p q n off size : Nat) (w : Word) (a b : Bool), FMap.wf s.eng.ctxs = true → p ≠ q →
    exec (.pcieConfigRequest p) s = .next t ∨ exec (.pcieResetEvent p) s = .next t ∨ exec (.ptResetGo p) s = .next t ∨
      (s.power.chipWait = none ∧ exec (.partitionResetDone p) s = .next t) ∨ exec (.ptCtrlWrite p off size w) s = .next t ∨ exec (.ptFaultFirstClear p) s = .next t ∨
      exec (.ptFaultNextClear p) s = .next t ∨ exec (.ptMboDataWrite p n w) s = .next t ∨ exec (.ptMbiDataRead p n) s = .next t ∨
      exec (.rcRegisterRead p a b off size) s = .next t ∨ exec (.doorbellWrite p off size w) s = .next t →
    t.portal q = s.portal q

/-- A run of instructions of the Aglek core keeps every register file and memory in its one form: g0 and k0 hold nothing, and equal contents are equal data (R120, R127; the form is the model's). -/
def Obligations.CoreRunStaysCanonical : Prop :=
  ∀ s t : State, CoreRun s → step s = .next t → CoreRun t

/-- The unpowered package is in that form. -/
def Obligations.ResetIsCanonical : Prop := CoreRun State.reset
end

