-- ==== Sys2Proof/Laws/Map.lean ====
section
/-! SUPPORT. Laws of sparse tables: reading after writing, and the canonical form kept by every operation. -/

namespace Sys2Proof.Machine

variable {α : Type}

/-- Every key of a table is above `k`. -/
def FMap.above (k : Nat) : FMap α → Bool
  | [] => true
  | (j, _) :: _ => decide (k < j)

theorem FMap.wf_cons (j : Nat) (b : α) (m : FMap α) : FMap.wf ((j, b) :: m) = (FMap.above j m && FMap.wf m) := by
  cases m with
  | nil => simp [FMap.wf, FMap.above]
  | cons q m => obtain ⟨i, c⟩ := q; simp [FMap.wf, FMap.above]

theorem FMap.above_trans {i j : Nat} (h : i < j) (m : FMap α) (ha : FMap.above j m = true) : FMap.above i m = true := by
  cases m with
  | nil => rfl
  | cons q m => obtain ⟨k, c⟩ := q; simp [FMap.above] at *; omega

theorem FMap.get_above {k : Nat} (m : FMap α) (hw : FMap.wf m = true) (ha : FMap.above k m = true) : FMap.get m k = none := by
  induction m with
  | nil => rfl
  | cons q m ih =>
    obtain ⟨j, b⟩ := q
    rw [FMap.wf_cons] at hw
    simp only [FMap.above, decide_eq_true_eq, Bool.and_eq_true] at *
    have : k ≠ j := by omega
    simp only [FMap.get, this, if_false]
    exact ih hw.2 (FMap.above_trans ha m hw.1)

@[simp] theorem FMap.get_nil (k : Nat) : FMap.get ([] : FMap α) k = none := rfl

@[simp] theorem FMap.get_set_same (m : FMap α) (k : Nat) (a : α) : FMap.get (FMap.set m k a) k = some a := by
  induction m with
  | nil => simp [FMap.set, FMap.get]
  | cons q m ih =>
    obtain ⟨j, b⟩ := q
    simp only [FMap.set]
    split
    · simp [FMap.get]
    · split
      · simp [FMap.get]
      · simp [FMap.get, *]

theorem FMap.get_set_ne (m : FMap α) (k i : Nat) (a : α) (h : i ≠ k) : FMap.get (FMap.set m k a) i = FMap.get m i := by
  induction m with
  | nil => simp [FMap.set, FMap.get, h]
  | cons q m ih =>
    obtain ⟨j, b⟩ := q
    simp only [FMap.set]
    split
    · simp [FMap.get, h]
    · split
      · rename_i hk; subst hk; simp [FMap.get, h]
      · simp only [FMap.get]; split <;> simp [*]

theorem FMap.get_del_ne (m : FMap α) (k i : Nat) (h : i ≠ k) : FMap.get (FMap.del m k) i = FMap.get m i := by
  induction m with
  | nil => rfl
  | cons q m ih =>
    obtain ⟨j, b⟩ := q
    simp only [FMap.del]
    split
    · rename_i hk; subst hk; simp [FMap.get, h, ih]
    · simp only [FMap.get]; split <;> simp [*]

@[simp] theorem FMap.get_del_same (m : FMap α) (k : Nat) : FMap.get (FMap.del m k) k = none := by
  induction m with
  | nil => rfl
  | cons q m ih =>
    obtain ⟨j, b⟩ := q
    simp only [FMap.del]
    split
    · exact ih
    · simp [FMap.get, *]

theorem FMap.above_set {i k : Nat} (m : FMap α) (a : α) (hi : i < k) (ha : FMap.above i m = true) : FMap.above i (FMap.set m k a) = true := by
  cases m with
  | nil => simp [FMap.set, FMap.above, hi]
  | cons q m =>
    obtain ⟨j, b⟩ := q
    simp only [FMap.set]
    split
    · simp [FMap.above, hi]
    · split
      · simp [FMap.above, hi]
      · simpa [FMap.above] using ha

/-- Listing an entry keeps the canonical form. -/
theorem FMap.wf_set (m : FMap α) (k : Nat) (a : α) (h : FMap.wf m = true) : FMap.wf (FMap.set m k a) = true := by
  induction m with
  | nil => rfl
  | cons q m ih =>
    obtain ⟨j, b⟩ := q
    have hw := h
    rw [FMap.wf_cons, Bool.and_eq_true] at hw
    simp only [FMap.set]
    split
    · rename_i hk
      rw [FMap.wf_cons, Bool.and_eq_true]
      exact ⟨by simpa [FMap.above] using hk, h⟩
    · split
      · rename_i hk
        subst hk
        rw [FMap.wf_cons, Bool.and_eq_true]
        exact hw
      · rename_i h1 h2
        rw [FMap.wf_cons, Bool.and_eq_true]
        exact ⟨FMap.above_set m a (by omega) hw.1, ih hw.2⟩

theorem FMap.del_above {k : Nat} (m : FMap α) (hw : FMap.wf m = true) (ha : FMap.above k m = true) : FMap.del m k = m := by
  induction m with
  | nil => rfl
  | cons q m ih =>
    obtain ⟨j, b⟩ := q
    rw [FMap.wf_cons, Bool.and_eq_true] at hw
    simp only [FMap.above, decide_eq_true_eq] at ha
    have : k ≠ j := by omega
    simp only [FMap.del, this, if_false]
    rw [ih hw.2 (FMap.above_trans ha m hw.1)]

theorem FMap.above_del {i k : Nat} (m : FMap α) (hw : FMap.wf m = true) (ha : FMap.above i m = true) : FMap.above i (FMap.del m k) = true := by
  induction m with
  | nil => rfl
  | cons q m ih =>
    obtain ⟨j, b⟩ := q
    rw [FMap.wf_cons, Bool.and_eq_true] at hw
    simp only [FMap.above, decide_eq_true_eq] at ha
    simp only [FMap.del]
    split
    · exact ih hw.2 (FMap.above_trans ha m hw.1)
    · simpa [FMap.above] using ha

/-- Taking an entry out keeps the canonical form. -/
theorem FMap.wf_del (m : FMap α) (k : Nat) (h : FMap.wf m = true) : FMap.wf (FMap.del m k) = true := by
  induction m with
  | nil => rfl
  | cons q m ih =>
    obtain ⟨j, b⟩ := q
    rw [FMap.wf_cons, Bool.and_eq_true] at h
    simp only [FMap.del]
    split
    · exact ih h.2
    · rw [FMap.wf_cons, Bool.and_eq_true]
      exact ⟨FMap.above_del m h.2 h.1, ih h.2⟩

/-- Writing an entry of a table with a default keeps the canonical form. -/
theorem FMap.wf_put [DecidableEq α] (m : FMap α) (k : Nat) (a d : α) (h : FMap.wf m = true) : FMap.wf (FMap.put m k a d) = true := by
  unfold FMap.put; split
  · exact FMap.wf_del m k h
  · exact FMap.wf_set m k a h

/-- Changing an entry keeps the canonical form. -/
theorem FMap.wf_upd (m : FMap α) (k : Nat) (f : α → α) (h : FMap.wf m = true) : FMap.wf (FMap.upd m k f) = true := by
  unfold FMap.upd; split
  · exact h
  · exact FMap.wf_set m k _ h

@[simp] theorem FMap.getD_put_same [DecidableEq α] (m : FMap α) (k : Nat) (a d : α) : FMap.getD (FMap.put m k a d) k d = a := by
  unfold FMap.put FMap.getD; split
  · rename_i h; simp [h]
  · simp

theorem FMap.getD_put_ne [DecidableEq α] (m : FMap α) (k i : Nat) (a d e : α) (h : i ≠ k) :
    FMap.getD (FMap.put m k a d) i e = FMap.getD m i e := by
  unfold FMap.put FMap.getD; split
  · rw [FMap.get_del_ne m k i h]
  · rw [FMap.get_set_ne m k i a h]

theorem FMap.get_upd_same (m : FMap α) (k : Nat) (f : α → α) : FMap.get (FMap.upd m k f) k = (FMap.get m k).map f := by
  unfold FMap.upd; split <;> simp [*]

theorem FMap.get_upd_ne (m : FMap α) (k i : Nat) (f : α → α) (h : i ≠ k) : FMap.get (FMap.upd m k f) i = FMap.get m i := by
  unfold FMap.upd; split
  · rfl
  · exact FMap.get_set_ne m k i _ h

end Sys2Proof.Machine
end

