-- ==== Sys2Proof/Laws/State.lean ====
section
/-! SUPPORT. One lemma per field per update of the state, each true by unfolding the update alone. -/

namespace Sys2Proof.Machine

@[simp] theorem State.onEng_pins (s : State) (f : Engine → Engine) : (s.onEng f).pins = s.pins := rfl
@[simp] theorem State.onEng_power (s : State) (f : Engine → Engine) : (s.onEng f).power = s.power := rfl
@[simp] theorem State.onEng_lic (s : State) (f : Engine → Engine) : (s.onEng f).lic = s.lic := rfl
@[simp] theorem State.onEng_portals (s : State) (f : Engine → Engine) : (s.onEng f).portals = s.portals := rfl
@[simp] theorem State.onEng_eng (s : State) (f : Engine → Engine) : (s.onEng f).eng = f s.eng := rfl
@[simp] theorem State.onEng_coll (s : State) (f : Engine → Engine) : (s.onEng f).coll = s.coll := rfl
@[simp] theorem State.onEng_fab (s : State) (f : Engine → Engine) : (s.onEng f).fab = s.fab := rfl
@[simp] theorem State.onEng_isles (s : State) (f : Engine → Engine) : (s.onEng f).isles = s.isles := rfl
@[simp] theorem State.onEng_time (s : State) (f : Engine → Engine) : (s.onEng f).time = s.time := rfl
@[simp] theorem State.onEng_nv (s : State) (f : Engine → Engine) : (s.onEng f).nv = s.nv := rfl
@[simp] theorem State.onEng_pair (s : State) (f : Engine → Engine) : (s.onEng f).pair = s.pair := rfl
@[simp] theorem State.onEng_integ (s : State) (f : Engine → Engine) : (s.onEng f).integ = s.integ := rfl
@[simp] theorem State.onEng_agents (s : State) (f : Engine → Engine) : (s.onEng f).agents = s.agents := rfl
@[simp] theorem State.onEng_out (s : State) (f : Engine → Engine) : (s.onEng f).out = s.out := rfl
@[simp] theorem State.onEng_nonce (s : State) (f : Engine → Engine) : (s.onEng f).nonce = s.nonce := rfl
@[simp] theorem State.onEng_pending (s : State) (f : Engine → Engine) : (s.onEng f).pending = s.pending := rfl

@[simp] theorem State.onPower_pins (s : State) (f : Power → Power) : (s.onPower f).pins = s.pins := rfl
@[simp] theorem State.onPower_power (s : State) (f : Power → Power) : (s.onPower f).power = f s.power := rfl
@[simp] theorem State.onPower_lic (s : State) (f : Power → Power) : (s.onPower f).lic = s.lic := rfl
@[simp] theorem State.onPower_portals (s : State) (f : Power → Power) : (s.onPower f).portals = s.portals := rfl
@[simp] theorem State.onPower_eng (s : State) (f : Power → Power) : (s.onPower f).eng = s.eng := rfl
@[simp] theorem State.onPower_coll (s : State) (f : Power → Power) : (s.onPower f).coll = s.coll := rfl
@[simp] theorem State.onPower_fab (s : State) (f : Power → Power) : (s.onPower f).fab = s.fab := rfl
@[simp] theorem State.onPower_isles (s : State) (f : Power → Power) : (s.onPower f).isles = s.isles := rfl
@[simp] theorem State.onPower_time (s : State) (f : Power → Power) : (s.onPower f).time = s.time := rfl
@[simp] theorem State.onPower_nv (s : State) (f : Power → Power) : (s.onPower f).nv = s.nv := rfl
@[simp] theorem State.onPower_pair (s : State) (f : Power → Power) : (s.onPower f).pair = s.pair := rfl
@[simp] theorem State.onPower_integ (s : State) (f : Power → Power) : (s.onPower f).integ = s.integ := rfl
@[simp] theorem State.onPower_agents (s : State) (f : Power → Power) : (s.onPower f).agents = s.agents := rfl
@[simp] theorem State.onPower_out (s : State) (f : Power → Power) : (s.onPower f).out = s.out := rfl
@[simp] theorem State.onPower_nonce (s : State) (f : Power → Power) : (s.onPower f).nonce = s.nonce := rfl
@[simp] theorem State.onPower_pending (s : State) (f : Power → Power) : (s.onPower f).pending = s.pending := rfl

@[simp] theorem State.onPins_pins (s : State) (f : Pins → Pins) : (s.onPins f).pins = f s.pins := rfl
@[simp] theorem State.onPins_power (s : State) (f : Pins → Pins) : (s.onPins f).power = s.power := rfl
@[simp] theorem State.onPins_lic (s : State) (f : Pins → Pins) : (s.onPins f).lic = s.lic := rfl
@[simp] theorem State.onPins_portals (s : State) (f : Pins → Pins) : (s.onPins f).portals = s.portals := rfl
@[simp] theorem State.onPins_eng (s : State) (f : Pins → Pins) : (s.onPins f).eng = s.eng := rfl
@[simp] theorem State.onPins_coll (s : State) (f : Pins → Pins) : (s.onPins f).coll = s.coll := rfl
@[simp] theorem State.onPins_fab (s : State) (f : Pins → Pins) : (s.onPins f).fab = s.fab := rfl
@[simp] theorem State.onPins_isles (s : State) (f : Pins → Pins) : (s.onPins f).isles = s.isles := rfl
@[simp] theorem State.onPins_time (s : State) (f : Pins → Pins) : (s.onPins f).time = s.time := rfl
@[simp] theorem State.onPins_nv (s : State) (f : Pins → Pins) : (s.onPins f).nv = s.nv := rfl
@[simp] theorem State.onPins_pair (s : State) (f : Pins → Pins) : (s.onPins f).pair = s.pair := rfl
@[simp] theorem State.onPins_integ (s : State) (f : Pins → Pins) : (s.onPins f).integ = s.integ := rfl
@[simp] theorem State.onPins_agents (s : State) (f : Pins → Pins) : (s.onPins f).agents = s.agents := rfl
@[simp] theorem State.onPins_out (s : State) (f : Pins → Pins) : (s.onPins f).out = s.out := rfl
@[simp] theorem State.onPins_nonce (s : State) (f : Pins → Pins) : (s.onPins f).nonce = s.nonce := rfl
@[simp] theorem State.onPins_pending (s : State) (f : Pins → Pins) : (s.onPins f).pending = s.pending := rfl

@[simp] theorem State.onColl_pins (s : State) (f : Coll → Coll) : (s.onColl f).pins = s.pins := rfl
@[simp] theorem State.onColl_power (s : State) (f : Coll → Coll) : (s.onColl f).power = s.power := rfl
@[simp] theorem State.onColl_lic (s : State) (f : Coll → Coll) : (s.onColl f).lic = s.lic := rfl
@[simp] theorem State.onColl_portals (s : State) (f : Coll → Coll) : (s.onColl f).portals = s.portals := rfl
@[simp] theorem State.onColl_eng (s : State) (f : Coll → Coll) : (s.onColl f).eng = s.eng := rfl
@[simp] theorem State.onColl_coll (s : State) (f : Coll → Coll) : (s.onColl f).coll = f s.coll := rfl
@[simp] theorem State.onColl_fab (s : State) (f : Coll → Coll) : (s.onColl f).fab = s.fab := rfl
@[simp] theorem State.onColl_isles (s : State) (f : Coll → Coll) : (s.onColl f).isles = s.isles := rfl
@[simp] theorem State.onColl_time (s : State) (f : Coll → Coll) : (s.onColl f).time = s.time := rfl
@[simp] theorem State.onColl_nv (s : State) (f : Coll → Coll) : (s.onColl f).nv = s.nv := rfl
@[simp] theorem State.onColl_pair (s : State) (f : Coll → Coll) : (s.onColl f).pair = s.pair := rfl
@[simp] theorem State.onColl_integ (s : State) (f : Coll → Coll) : (s.onColl f).integ = s.integ := rfl
@[simp] theorem State.onColl_agents (s : State) (f : Coll → Coll) : (s.onColl f).agents = s.agents := rfl
@[simp] theorem State.onColl_out (s : State) (f : Coll → Coll) : (s.onColl f).out = s.out := rfl
@[simp] theorem State.onColl_nonce (s : State) (f : Coll → Coll) : (s.onColl f).nonce = s.nonce := rfl
@[simp] theorem State.onColl_pending (s : State) (f : Coll → Coll) : (s.onColl f).pending = s.pending := rfl

@[simp] theorem State.onFab_pins (s : State) (f : Fabric → Fabric) : (s.onFab f).pins = s.pins := rfl
@[simp] theorem State.onFab_power (s : State) (f : Fabric → Fabric) : (s.onFab f).power = s.power := rfl
@[simp] theorem State.onFab_lic (s : State) (f : Fabric → Fabric) : (s.onFab f).lic = s.lic := rfl
@[simp] theorem State.onFab_portals (s : State) (f : Fabric → Fabric) : (s.onFab f).portals = s.portals := rfl
@[simp] theorem State.onFab_eng (s : State) (f : Fabric → Fabric) : (s.onFab f).eng = s.eng := rfl
@[simp] theorem State.onFab_coll (s : State) (f : Fabric → Fabric) : (s.onFab f).coll = s.coll := rfl
@[simp] theorem State.onFab_fab (s : State) (f : Fabric → Fabric) : (s.onFab f).fab = f s.fab := rfl
@[simp] theorem State.onFab_isles (s : State) (f : Fabric → Fabric) : (s.onFab f).isles = s.isles := rfl
@[simp] theorem State.onFab_time (s : State) (f : Fabric → Fabric) : (s.onFab f).time = s.time := rfl
@[simp] theorem State.onFab_nv (s : State) (f : Fabric → Fabric) : (s.onFab f).nv = s.nv := rfl
@[simp] theorem State.onFab_pair (s : State) (f : Fabric → Fabric) : (s.onFab f).pair = s.pair := rfl
@[simp] theorem State.onFab_integ (s : State) (f : Fabric → Fabric) : (s.onFab f).integ = s.integ := rfl
@[simp] theorem State.onFab_agents (s : State) (f : Fabric → Fabric) : (s.onFab f).agents = s.agents := rfl
@[simp] theorem State.onFab_out (s : State) (f : Fabric → Fabric) : (s.onFab f).out = s.out := rfl
@[simp] theorem State.onFab_nonce (s : State) (f : Fabric → Fabric) : (s.onFab f).nonce = s.nonce := rfl
@[simp] theorem State.onFab_pending (s : State) (f : Fabric → Fabric) : (s.onFab f).pending = s.pending := rfl

@[simp] theorem State.onIsles_pins (s : State) (f : Isles → Isles) : (s.onIsles f).pins = s.pins := rfl
@[simp] theorem State.onIsles_power (s : State) (f : Isles → Isles) : (s.onIsles f).power = s.power := rfl
@[simp] theorem State.onIsles_lic (s : State) (f : Isles → Isles) : (s.onIsles f).lic = s.lic := rfl
@[simp] theorem State.onIsles_portals (s : State) (f : Isles → Isles) : (s.onIsles f).portals = s.portals := rfl
@[simp] theorem State.onIsles_eng (s : State) (f : Isles → Isles) : (s.onIsles f).eng = s.eng := rfl
@[simp] theorem State.onIsles_coll (s : State) (f : Isles → Isles) : (s.onIsles f).coll = s.coll := rfl
@[simp] theorem State.onIsles_fab (s : State) (f : Isles → Isles) : (s.onIsles f).fab = s.fab := rfl
@[simp] theorem State.onIsles_isles (s : State) (f : Isles → Isles) : (s.onIsles f).isles = f s.isles := rfl
@[simp] theorem State.onIsles_time (s : State) (f : Isles → Isles) : (s.onIsles f).time = s.time := rfl
@[simp] theorem State.onIsles_nv (s : State) (f : Isles → Isles) : (s.onIsles f).nv = s.nv := rfl
@[simp] theorem State.onIsles_pair (s : State) (f : Isles → Isles) : (s.onIsles f).pair = s.pair := rfl
@[simp] theorem State.onIsles_integ (s : State) (f : Isles → Isles) : (s.onIsles f).integ = s.integ := rfl
@[simp] theorem State.onIsles_agents (s : State) (f : Isles → Isles) : (s.onIsles f).agents = s.agents := rfl
@[simp] theorem State.onIsles_out (s : State) (f : Isles → Isles) : (s.onIsles f).out = s.out := rfl
@[simp] theorem State.onIsles_nonce (s : State) (f : Isles → Isles) : (s.onIsles f).nonce = s.nonce := rfl
@[simp] theorem State.onIsles_pending (s : State) (f : Isles → Isles) : (s.onIsles f).pending = s.pending := rfl

@[simp] theorem State.onNv_pins (s : State) (f : Nv → Nv) : (s.onNv f).pins = s.pins := rfl
@[simp] theorem State.onNv_power (s : State) (f : Nv → Nv) : (s.onNv f).power = s.power := rfl
@[simp] theorem State.onNv_lic (s : State) (f : Nv → Nv) : (s.onNv f).lic = s.lic := rfl
@[simp] theorem State.onNv_portals (s : State) (f : Nv → Nv) : (s.onNv f).portals = s.portals := rfl
@[simp] theorem State.onNv_eng (s : State) (f : Nv → Nv) : (s.onNv f).eng = s.eng := rfl
@[simp] theorem State.onNv_coll (s : State) (f : Nv → Nv) : (s.onNv f).coll = s.coll := rfl
@[simp] theorem State.onNv_fab (s : State) (f : Nv → Nv) : (s.onNv f).fab = s.fab := rfl
@[simp] theorem State.onNv_isles (s : State) (f : Nv → Nv) : (s.onNv f).isles = s.isles := rfl
@[simp] theorem State.onNv_time (s : State) (f : Nv → Nv) : (s.onNv f).time = s.time := rfl
@[simp] theorem State.onNv_nv (s : State) (f : Nv → Nv) : (s.onNv f).nv = f s.nv := rfl
@[simp] theorem State.onNv_pair (s : State) (f : Nv → Nv) : (s.onNv f).pair = s.pair := rfl
@[simp] theorem State.onNv_integ (s : State) (f : Nv → Nv) : (s.onNv f).integ = s.integ := rfl
@[simp] theorem State.onNv_agents (s : State) (f : Nv → Nv) : (s.onNv f).agents = s.agents := rfl
@[simp] theorem State.onNv_out (s : State) (f : Nv → Nv) : (s.onNv f).out = s.out := rfl
@[simp] theorem State.onNv_nonce (s : State) (f : Nv → Nv) : (s.onNv f).nonce = s.nonce := rfl
@[simp] theorem State.onNv_pending (s : State) (f : Nv → Nv) : (s.onNv f).pending = s.pending := rfl

@[simp] theorem State.onTime_pins (s : State) (f : Time → Time) : (s.onTime f).pins = s.pins := rfl
@[simp] theorem State.onTime_power (s : State) (f : Time → Time) : (s.onTime f).power = s.power := rfl
@[simp] theorem State.onTime_lic (s : State) (f : Time → Time) : (s.onTime f).lic = s.lic := rfl
@[simp] theorem State.onTime_portals (s : State) (f : Time → Time) : (s.onTime f).portals = s.portals := rfl
@[simp] theorem State.onTime_eng (s : State) (f : Time → Time) : (s.onTime f).eng = s.eng := rfl
@[simp] theorem State.onTime_coll (s : State) (f : Time → Time) : (s.onTime f).coll = s.coll := rfl
@[simp] theorem State.onTime_fab (s : State) (f : Time → Time) : (s.onTime f).fab = s.fab := rfl
@[simp] theorem State.onTime_isles (s : State) (f : Time → Time) : (s.onTime f).isles = s.isles := rfl
@[simp] theorem State.onTime_time (s : State) (f : Time → Time) : (s.onTime f).time = f s.time := rfl
@[simp] theorem State.onTime_nv (s : State) (f : Time → Time) : (s.onTime f).nv = s.nv := rfl
@[simp] theorem State.onTime_pair (s : State) (f : Time → Time) : (s.onTime f).pair = s.pair := rfl
@[simp] theorem State.onTime_integ (s : State) (f : Time → Time) : (s.onTime f).integ = s.integ := rfl
@[simp] theorem State.onTime_agents (s : State) (f : Time → Time) : (s.onTime f).agents = s.agents := rfl
@[simp] theorem State.onTime_out (s : State) (f : Time → Time) : (s.onTime f).out = s.out := rfl
@[simp] theorem State.onTime_nonce (s : State) (f : Time → Time) : (s.onTime f).nonce = s.nonce := rfl
@[simp] theorem State.onTime_pending (s : State) (f : Time → Time) : (s.onTime f).pending = s.pending := rfl

@[simp] theorem State.onPair_pins (s : State) (f : PairSt → PairSt) : (s.onPair f).pins = s.pins := rfl
@[simp] theorem State.onPair_power (s : State) (f : PairSt → PairSt) : (s.onPair f).power = s.power := rfl
@[simp] theorem State.onPair_lic (s : State) (f : PairSt → PairSt) : (s.onPair f).lic = s.lic := rfl
@[simp] theorem State.onPair_portals (s : State) (f : PairSt → PairSt) : (s.onPair f).portals = s.portals := rfl
@[simp] theorem State.onPair_eng (s : State) (f : PairSt → PairSt) : (s.onPair f).eng = s.eng := rfl
@[simp] theorem State.onPair_coll (s : State) (f : PairSt → PairSt) : (s.onPair f).coll = s.coll := rfl
@[simp] theorem State.onPair_fab (s : State) (f : PairSt → PairSt) : (s.onPair f).fab = s.fab := rfl
@[simp] theorem State.onPair_isles (s : State) (f : PairSt → PairSt) : (s.onPair f).isles = s.isles := rfl
@[simp] theorem State.onPair_time (s : State) (f : PairSt → PairSt) : (s.onPair f).time = s.time := rfl
@[simp] theorem State.onPair_nv (s : State) (f : PairSt → PairSt) : (s.onPair f).nv = s.nv := rfl
@[simp] theorem State.onPair_pair (s : State) (f : PairSt → PairSt) : (s.onPair f).pair = f s.pair := rfl
@[simp] theorem State.onPair_integ (s : State) (f : PairSt → PairSt) : (s.onPair f).integ = s.integ := rfl
@[simp] theorem State.onPair_agents (s : State) (f : PairSt → PairSt) : (s.onPair f).agents = s.agents := rfl
@[simp] theorem State.onPair_out (s : State) (f : PairSt → PairSt) : (s.onPair f).out = s.out := rfl
@[simp] theorem State.onPair_nonce (s : State) (f : PairSt → PairSt) : (s.onPair f).nonce = s.nonce := rfl
@[simp] theorem State.onPair_pending (s : State) (f : PairSt → PairSt) : (s.onPair f).pending = s.pending := rfl

@[simp] theorem State.onInteg_pins (s : State) (f : Integ → Integ) : (s.onInteg f).pins = s.pins := rfl
@[simp] theorem State.onInteg_power (s : State) (f : Integ → Integ) : (s.onInteg f).power = s.power := rfl
@[simp] theorem State.onInteg_lic (s : State) (f : Integ → Integ) : (s.onInteg f).lic = s.lic := rfl
@[simp] theorem State.onInteg_portals (s : State) (f : Integ → Integ) : (s.onInteg f).portals = s.portals := rfl
@[simp] theorem State.onInteg_eng (s : State) (f : Integ → Integ) : (s.onInteg f).eng = s.eng := rfl
@[simp] theorem State.onInteg_coll (s : State) (f : Integ → Integ) : (s.onInteg f).coll = s.coll := rfl
@[simp] theorem State.onInteg_fab (s : State) (f : Integ → Integ) : (s.onInteg f).fab = s.fab := rfl
@[simp] theorem State.onInteg_isles (s : State) (f : Integ → Integ) : (s.onInteg f).isles = s.isles := rfl
@[simp] theorem State.onInteg_time (s : State) (f : Integ → Integ) : (s.onInteg f).time = s.time := rfl
@[simp] theorem State.onInteg_nv (s : State) (f : Integ → Integ) : (s.onInteg f).nv = s.nv := rfl
@[simp] theorem State.onInteg_pair (s : State) (f : Integ → Integ) : (s.onInteg f).pair = s.pair := rfl
@[simp] theorem State.onInteg_integ (s : State) (f : Integ → Integ) : (s.onInteg f).integ = f s.integ := rfl
@[simp] theorem State.onInteg_agents (s : State) (f : Integ → Integ) : (s.onInteg f).agents = s.agents := rfl
@[simp] theorem State.onInteg_out (s : State) (f : Integ → Integ) : (s.onInteg f).out = s.out := rfl
@[simp] theorem State.onInteg_nonce (s : State) (f : Integ → Integ) : (s.onInteg f).nonce = s.nonce := rfl
@[simp] theorem State.onInteg_pending (s : State) (f : Integ → Integ) : (s.onInteg f).pending = s.pending := rfl

@[simp] theorem State.onAgent_pins (s : State) (id : Nat) (f : Agent → Agent) : (s.onAgent id f).pins = s.pins := rfl
@[simp] theorem State.onAgent_power (s : State) (id : Nat) (f : Agent → Agent) : (s.onAgent id f).power = s.power := rfl
@[simp] theorem State.onAgent_lic (s : State) (id : Nat) (f : Agent → Agent) : (s.onAgent id f).lic = s.lic := rfl
@[simp] theorem State.onAgent_portals (s : State) (id : Nat) (f : Agent → Agent) : (s.onAgent id f).portals = s.portals := rfl
@[simp] theorem State.onAgent_eng (s : State) (id : Nat) (f : Agent → Agent) : (s.onAgent id f).eng = s.eng := rfl
@[simp] theorem State.onAgent_coll (s : State) (id : Nat) (f : Agent → Agent) : (s.onAgent id f).coll = s.coll := rfl
@[simp] theorem State.onAgent_fab (s : State) (id : Nat) (f : Agent → Agent) : (s.onAgent id f).fab = s.fab := rfl
@[simp] theorem State.onAgent_isles (s : State) (id : Nat) (f : Agent → Agent) : (s.onAgent id f).isles = s.isles := rfl
@[simp] theorem State.onAgent_time (s : State) (id : Nat) (f : Agent → Agent) : (s.onAgent id f).time = s.time := rfl
@[simp] theorem State.onAgent_nv (s : State) (id : Nat) (f : Agent → Agent) : (s.onAgent id f).nv = s.nv := rfl
@[simp] theorem State.onAgent_pair (s : State) (id : Nat) (f : Agent → Agent) : (s.onAgent id f).pair = s.pair := rfl
@[simp] theorem State.onAgent_integ (s : State) (id : Nat) (f : Agent → Agent) : (s.onAgent id f).integ = s.integ := rfl
@[simp] theorem State.onAgent_agents (s : State) (id : Nat) (f : Agent → Agent) : (s.onAgent id f).agents = s.agents.upd id f := rfl
@[simp] theorem State.onAgent_out (s : State) (id : Nat) (f : Agent → Agent) : (s.onAgent id f).out = s.out := rfl
@[simp] theorem State.onAgent_nonce (s : State) (id : Nat) (f : Agent → Agent) : (s.onAgent id f).nonce = s.nonce := rfl
@[simp] theorem State.onAgent_pending (s : State) (id : Nat) (f : Agent → Agent) : (s.onAgent id f).pending = s.pending := rfl

@[simp] theorem State.onPortal_pins (s : State) (p : Nat) (f : Portal → Portal) : (s.onPortal p f).pins = s.pins := rfl
@[simp] theorem State.onPortal_power (s : State) (p : Nat) (f : Portal → Portal) : (s.onPortal p f).power = s.power := rfl
@[simp] theorem State.onPortal_lic (s : State) (p : Nat) (f : Portal → Portal) : (s.onPortal p f).lic = s.lic := rfl
@[simp] theorem State.onPortal_portals (s : State) (p : Nat) (f : Portal → Portal) : (s.onPortal p f).portals = s.portals.set p (f (s.portal p)) := rfl
@[simp] theorem State.onPortal_eng (s : State) (p : Nat) (f : Portal → Portal) : (s.onPortal p f).eng = s.eng := rfl
@[simp] theorem State.onPortal_coll (s : State) (p : Nat) (f : Portal → Portal) : (s.onPortal p f).coll = s.coll := rfl
@[simp] theorem State.onPortal_fab (s : State) (p : Nat) (f : Portal → Portal) : (s.onPortal p f).fab = s.fab := rfl
@[simp] theorem State.onPortal_isles (s : State) (p : Nat) (f : Portal → Portal) : (s.onPortal p f).isles = s.isles := rfl
@[simp] theorem State.onPortal_time (s : State) (p : Nat) (f : Portal → Portal) : (s.onPortal p f).time = s.time := rfl
@[simp] theorem State.onPortal_nv (s : State) (p : Nat) (f : Portal → Portal) : (s.onPortal p f).nv = s.nv := rfl
@[simp] theorem State.onPortal_pair (s : State) (p : Nat) (f : Portal → Portal) : (s.onPortal p f).pair = s.pair := rfl
@[simp] theorem State.onPortal_integ (s : State) (p : Nat) (f : Portal → Portal) : (s.onPortal p f).integ = s.integ := rfl
@[simp] theorem State.onPortal_agents (s : State) (p : Nat) (f : Portal → Portal) : (s.onPortal p f).agents = s.agents := rfl
@[simp] theorem State.onPortal_out (s : State) (p : Nat) (f : Portal → Portal) : (s.onPortal p f).out = s.out := rfl
@[simp] theorem State.onPortal_nonce (s : State) (p : Nat) (f : Portal → Portal) : (s.onPortal p f).nonce = s.nonce := rfl
@[simp] theorem State.onPortal_pending (s : State) (p : Nat) (f : Portal → Portal) : (s.onPortal p f).pending = s.pending := rfl

@[simp] theorem State.onCtx_pins (s : State) (c : Nat) (f : Ctx → Ctx) : (s.onCtx c f).pins = s.pins := rfl
@[simp] theorem State.onCtx_power (s : State) (c : Nat) (f : Ctx → Ctx) : (s.onCtx c f).power = s.power := rfl
@[simp] theorem State.onCtx_lic (s : State) (c : Nat) (f : Ctx → Ctx) : (s.onCtx c f).lic = s.lic := rfl
@[simp] theorem State.onCtx_portals (s : State) (c : Nat) (f : Ctx → Ctx) : (s.onCtx c f).portals = s.portals := rfl
@[simp] theorem State.onCtx_eng (s : State) (c : Nat) (f : Ctx → Ctx) : (s.onCtx c f).eng = { s.eng with ctxs := s.eng.ctxs.upd c f } := rfl
@[simp] theorem State.onCtx_coll (s : State) (c : Nat) (f : Ctx → Ctx) : (s.onCtx c f).coll = s.coll := rfl
@[simp] theorem State.onCtx_fab (s : State) (c : Nat) (f : Ctx → Ctx) : (s.onCtx c f).fab = s.fab := rfl
@[simp] theorem State.onCtx_isles (s : State) (c : Nat) (f : Ctx → Ctx) : (s.onCtx c f).isles = s.isles := rfl
@[simp] theorem State.onCtx_time (s : State) (c : Nat) (f : Ctx → Ctx) : (s.onCtx c f).time = s.time := rfl
@[simp] theorem State.onCtx_nv (s : State) (c : Nat) (f : Ctx → Ctx) : (s.onCtx c f).nv = s.nv := rfl
@[simp] theorem State.onCtx_pair (s : State) (c : Nat) (f : Ctx → Ctx) : (s.onCtx c f).pair = s.pair := rfl
@[simp] theorem State.onCtx_integ (s : State) (c : Nat) (f : Ctx → Ctx) : (s.onCtx c f).integ = s.integ := rfl
@[simp] theorem State.onCtx_agents (s : State) (c : Nat) (f : Ctx → Ctx) : (s.onCtx c f).agents = s.agents := rfl
@[simp] theorem State.onCtx_out (s : State) (c : Nat) (f : Ctx → Ctx) : (s.onCtx c f).out = s.out := rfl
@[simp] theorem State.onCtx_nonce (s : State) (c : Nat) (f : Ctx → Ctx) : (s.onCtx c f).nonce = s.nonce := rfl
@[simp] theorem State.onCtx_pending (s : State) (c : Nat) (f : Ctx → Ctx) : (s.onCtx c f).pending = s.pending := rfl

@[simp] theorem State.onRing_pins (s : State) (r : Nat) (f : Ring → Ring) : (s.onRing r f).pins = s.pins := rfl
@[simp] theorem State.onRing_power (s : State) (r : Nat) (f : Ring → Ring) : (s.onRing r f).power = s.power := rfl
@[simp] theorem State.onRing_lic (s : State) (r : Nat) (f : Ring → Ring) : (s.onRing r f).lic = s.lic := rfl
@[simp] theorem State.onRing_portals (s : State) (r : Nat) (f : Ring → Ring) : (s.onRing r f).portals = s.portals := rfl
@[simp] theorem State.onRing_eng (s : State) (r : Nat) (f : Ring → Ring) : (s.onRing r f).eng = { s.eng with rings := s.eng.rings.upd r f } := rfl
@[simp] theorem State.onRing_coll (s : State) (r : Nat) (f : Ring → Ring) : (s.onRing r f).coll = s.coll := rfl
@[simp] theorem State.onRing_fab (s : State) (r : Nat) (f : Ring → Ring) : (s.onRing r f).fab = s.fab := rfl
@[simp] theorem State.onRing_isles (s : State) (r : Nat) (f : Ring → Ring) : (s.onRing r f).isles = s.isles := rfl
@[simp] theorem State.onRing_time (s : State) (r : Nat) (f : Ring → Ring) : (s.onRing r f).time = s.time := rfl
@[simp] theorem State.onRing_nv (s : State) (r : Nat) (f : Ring → Ring) : (s.onRing r f).nv = s.nv := rfl
@[simp] theorem State.onRing_pair (s : State) (r : Nat) (f : Ring → Ring) : (s.onRing r f).pair = s.pair := rfl
@[simp] theorem State.onRing_integ (s : State) (r : Nat) (f : Ring → Ring) : (s.onRing r f).integ = s.integ := rfl
@[simp] theorem State.onRing_agents (s : State) (r : Nat) (f : Ring → Ring) : (s.onRing r f).agents = s.agents := rfl
@[simp] theorem State.onRing_out (s : State) (r : Nat) (f : Ring → Ring) : (s.onRing r f).out = s.out := rfl
@[simp] theorem State.onRing_nonce (s : State) (r : Nat) (f : Ring → Ring) : (s.onRing r f).nonce = s.nonce := rfl
@[simp] theorem State.onRing_pending (s : State) (r : Nat) (f : Ring → Ring) : (s.onRing r f).pending = s.pending := rfl

@[simp] theorem State.onIsland_pins (s : State) (h : Nat) (f : Island → Island) : (s.onIsland h f).pins = s.pins := rfl
@[simp] theorem State.onIsland_power (s : State) (h : Nat) (f : Island → Island) : (s.onIsland h f).power = s.power := rfl
@[simp] theorem State.onIsland_lic (s : State) (h : Nat) (f : Island → Island) : (s.onIsland h f).lic = s.lic := rfl
@[simp] theorem State.onIsland_portals (s : State) (h : Nat) (f : Island → Island) : (s.onIsland h f).portals = s.portals := rfl
@[simp] theorem State.onIsland_eng (s : State) (h : Nat) (f : Island → Island) : (s.onIsland h f).eng = s.eng := rfl
@[simp] theorem State.onIsland_coll (s : State) (h : Nat) (f : Island → Island) : (s.onIsland h f).coll = s.coll := rfl
@[simp] theorem State.onIsland_fab (s : State) (h : Nat) (f : Island → Island) : (s.onIsland h f).fab = s.fab := rfl
@[simp] theorem State.onIsland_isles (s : State) (h : Nat) (f : Island → Island) : (s.onIsland h f).isles = { s.isles with islands := s.isles.islands.upd h f } := rfl
@[simp] theorem State.onIsland_time (s : State) (h : Nat) (f : Island → Island) : (s.onIsland h f).time = s.time := rfl
@[simp] theorem State.onIsland_nv (s : State) (h : Nat) (f : Island → Island) : (s.onIsland h f).nv = s.nv := rfl
@[simp] theorem State.onIsland_pair (s : State) (h : Nat) (f : Island → Island) : (s.onIsland h f).pair = s.pair := rfl
@[simp] theorem State.onIsland_integ (s : State) (h : Nat) (f : Island → Island) : (s.onIsland h f).integ = s.integ := rfl
@[simp] theorem State.onIsland_agents (s : State) (h : Nat) (f : Island → Island) : (s.onIsland h f).agents = s.agents := rfl
@[simp] theorem State.onIsland_out (s : State) (h : Nat) (f : Island → Island) : (s.onIsland h f).out = s.out := rfl
@[simp] theorem State.onIsland_nonce (s : State) (h : Nat) (f : Island → Island) : (s.onIsland h f).nonce = s.nonce := rfl
@[simp] theorem State.onIsland_pending (s : State) (h : Nat) (f : Island → Island) : (s.onIsland h f).pending = s.pending := rfl

@[simp] theorem State.emit_pins (s : State) (o : Out) : (s.emit o).pins = s.pins := rfl
@[simp] theorem State.emit_power (s : State) (o : Out) : (s.emit o).power = s.power := rfl
@[simp] theorem State.emit_lic (s : State) (o : Out) : (s.emit o).lic = s.lic := rfl
@[simp] theorem State.emit_portals (s : State) (o : Out) : (s.emit o).portals = s.portals := rfl
@[simp] theorem State.emit_eng (s : State) (o : Out) : (s.emit o).eng = s.eng := rfl
@[simp] theorem State.emit_coll (s : State) (o : Out) : (s.emit o).coll = s.coll := rfl
@[simp] theorem State.emit_fab (s : State) (o : Out) : (s.emit o).fab = s.fab := rfl
@[simp] theorem State.emit_isles (s : State) (o : Out) : (s.emit o).isles = s.isles := rfl
@[simp] theorem State.emit_time (s : State) (o : Out) : (s.emit o).time = s.time := rfl
@[simp] theorem State.emit_nv (s : State) (o : Out) : (s.emit o).nv = s.nv := rfl
@[simp] theorem State.emit_pair (s : State) (o : Out) : (s.emit o).pair = s.pair := rfl
@[simp] theorem State.emit_integ (s : State) (o : Out) : (s.emit o).integ = s.integ := rfl
@[simp] theorem State.emit_agents (s : State) (o : Out) : (s.emit o).agents = s.agents := rfl
@[simp] theorem State.emit_out (s : State) (o : Out) : (s.emit o).out = o :: s.out := rfl
@[simp] theorem State.emit_nonce (s : State) (o : Out) : (s.emit o).nonce = s.nonce := rfl
@[simp] theorem State.emit_pending (s : State) (o : Out) : (s.emit o).pending = s.pending := rfl

@[simp] theorem State.emits_pins (s : State) (os : List Out) : (s.emits os).pins = s.pins := rfl
@[simp] theorem State.emits_power (s : State) (os : List Out) : (s.emits os).power = s.power := rfl
@[simp] theorem State.emits_lic (s : State) (os : List Out) : (s.emits os).lic = s.lic := rfl
@[simp] theorem State.emits_portals (s : State) (os : List Out) : (s.emits os).portals = s.portals := rfl
@[simp] theorem State.emits_eng (s : State) (os : List Out) : (s.emits os).eng = s.eng := rfl
@[simp] theorem State.emits_coll (s : State) (os : List Out) : (s.emits os).coll = s.coll := rfl
@[simp] theorem State.emits_fab (s : State) (os : List Out) : (s.emits os).fab = s.fab := rfl
@[simp] theorem State.emits_isles (s : State) (os : List Out) : (s.emits os).isles = s.isles := rfl
@[simp] theorem State.emits_time (s : State) (os : List Out) : (s.emits os).time = s.time := rfl
@[simp] theorem State.emits_nv (s : State) (os : List Out) : (s.emits os).nv = s.nv := rfl
@[simp] theorem State.emits_pair (s : State) (os : List Out) : (s.emits os).pair = s.pair := rfl
@[simp] theorem State.emits_integ (s : State) (os : List Out) : (s.emits os).integ = s.integ := rfl
@[simp] theorem State.emits_agents (s : State) (os : List Out) : (s.emits os).agents = s.agents := rfl
@[simp] theorem State.emits_out (s : State) (os : List Out) : (s.emits os).out = os.reverse ++ s.out := rfl
@[simp] theorem State.emits_nonce (s : State) (os : List Out) : (s.emits os).nonce = s.nonce := rfl
@[simp] theorem State.emits_pending (s : State) (os : List Out) : (s.emits os).pending = s.pending := rfl

@[simp] theorem State.post_pins (s : State) (r : Rec) : (s.post r).pins = s.pins := rfl
@[simp] theorem State.post_power (s : State) (r : Rec) : (s.post r).power = s.power := rfl
@[simp] theorem State.post_lic (s : State) (r : Rec) : (s.post r).lic = s.lic := rfl
@[simp] theorem State.post_portals (s : State) (r : Rec) : (s.post r).portals = s.portals := rfl
@[simp] theorem State.post_eng (s : State) (r : Rec) : (s.post r).eng = s.eng := rfl
@[simp] theorem State.post_coll (s : State) (r : Rec) : (s.post r).coll = { s.coll with posted := s.coll.posted ++ [r] } := rfl
@[simp] theorem State.post_fab (s : State) (r : Rec) : (s.post r).fab = s.fab := rfl
@[simp] theorem State.post_isles (s : State) (r : Rec) : (s.post r).isles = s.isles := rfl
@[simp] theorem State.post_time (s : State) (r : Rec) : (s.post r).time = s.time := rfl
@[simp] theorem State.post_nv (s : State) (r : Rec) : (s.post r).nv = s.nv := rfl
@[simp] theorem State.post_pair (s : State) (r : Rec) : (s.post r).pair = s.pair := rfl
@[simp] theorem State.post_integ (s : State) (r : Rec) : (s.post r).integ = s.integ := rfl
@[simp] theorem State.post_agents (s : State) (r : Rec) : (s.post r).agents = s.agents := rfl
@[simp] theorem State.post_out (s : State) (r : Rec) : (s.post r).out = s.out := rfl
@[simp] theorem State.post_nonce (s : State) (r : Rec) : (s.post r).nonce = s.nonce + 1 := rfl
@[simp] theorem State.post_pending (s : State) (r : Rec) : (s.post r).pending = s.pending := rfl

@[simp] theorem State.fault_pins (s : State) (dom unit kind : Nat) (cls : Cls) (d0 d1 : Word) (own : Nat) : (s.fault dom unit kind cls d0 d1 own).pins = s.pins := rfl
@[simp] theorem State.fault_power (s : State) (dom unit kind : Nat) (cls : Cls) (d0 d1 : Word) (own : Nat) : (s.fault dom unit kind cls d0 d1 own).power = s.power := rfl
@[simp] theorem State.fault_lic (s : State) (dom unit kind : Nat) (cls : Cls) (d0 d1 : Word) (own : Nat) : (s.fault dom unit kind cls d0 d1 own).lic = s.lic := rfl
@[simp] theorem State.fault_portals (s : State) (dom unit kind : Nat) (cls : Cls) (d0 d1 : Word) (own : Nat) : (s.fault dom unit kind cls d0 d1 own).portals = s.portals := rfl
@[simp] theorem State.fault_eng (s : State) (dom unit kind : Nat) (cls : Cls) (d0 d1 : Word) (own : Nat) : (s.fault dom unit kind cls d0 d1 own).eng = s.eng := rfl
@[simp] theorem State.fault_coll (s : State) (dom unit kind : Nat) (cls : Cls) (d0 d1 : Word) (own : Nat) : (s.fault dom unit kind cls d0 d1 own).coll = { s.coll with posted := s.coll.posted ++ [s.mkRec dom unit kind cls d0 d1 own] } := rfl
@[simp] theorem State.fault_fab (s : State) (dom unit kind : Nat) (cls : Cls) (d0 d1 : Word) (own : Nat) : (s.fault dom unit kind cls d0 d1 own).fab = s.fab := rfl
@[simp] theorem State.fault_isles (s : State) (dom unit kind : Nat) (cls : Cls) (d0 d1 : Word) (own : Nat) : (s.fault dom unit kind cls d0 d1 own).isles = s.isles := rfl
@[simp] theorem State.fault_time (s : State) (dom unit kind : Nat) (cls : Cls) (d0 d1 : Word) (own : Nat) : (s.fault dom unit kind cls d0 d1 own).time = s.time := rfl
@[simp] theorem State.fault_nv (s : State) (dom unit kind : Nat) (cls : Cls) (d0 d1 : Word) (own : Nat) : (s.fault dom unit kind cls d0 d1 own).nv = s.nv := rfl
@[simp] theorem State.fault_pair (s : State) (dom unit kind : Nat) (cls : Cls) (d0 d1 : Word) (own : Nat) : (s.fault dom unit kind cls d0 d1 own).pair = s.pair := rfl
@[simp] theorem State.fault_integ (s : State) (dom unit kind : Nat) (cls : Cls) (d0 d1 : Word) (own : Nat) : (s.fault dom unit kind cls d0 d1 own).integ = s.integ := rfl
@[simp] theorem State.fault_agents (s : State) (dom unit kind : Nat) (cls : Cls) (d0 d1 : Word) (own : Nat) : (s.fault dom unit kind cls d0 d1 own).agents = s.agents := rfl
@[simp] theorem State.fault_out (s : State) (dom unit kind : Nat) (cls : Cls) (d0 d1 : Word) (own : Nat) : (s.fault dom unit kind cls d0 d1 own).out = s.out := rfl
@[simp] theorem State.fault_nonce (s : State) (dom unit kind : Nat) (cls : Cls) (d0 d1 : Word) (own : Nat) : (s.fault dom unit kind cls d0 d1 own).nonce = s.nonce + 1 := rfl
@[simp] theorem State.fault_pending (s : State) (dom unit kind : Nat) (cls : Cls) (d0 d1 : Word) (own : Nat) : (s.fault dom unit kind cls d0 d1 own).pending = s.pending := rfl

/-- A portal that was changed reads as changed. -/
@[simp] theorem State.onPortal_portal (s : State) (p : Nat) (f : Portal → Portal) : (s.onPortal p f).portal p = f (s.portal p) := by
  simp [State.portal, FMap.getD]

/-- Every other portal reads as before. -/
theorem State.onPortal_other (s : State) (p q : Nat) (f : Portal → Portal) (h : q ≠ p) : (s.onPortal p f).portal q = s.portal q := by
  simp [State.portal, FMap.getD, FMap.get_set_ne s.portals p q _ h]

@[simp] theorem State.emit_portal (s : State) (o : Out) (p : Nat) : (s.emit o).portal p = s.portal p := rfl

@[simp] theorem State.post_portal (s : State) (r : Rec) (p : Nat) : (s.post r).portal p = s.portal p := rfl

/-- A context that exists reads as changed. -/
theorem State.onCtx_get (s : State) (c : Nat) (f : Ctx → Ctx) : (s.onCtx c f).eng.ctxs.get c = (s.eng.ctxs.get c).map f := by
  simp [FMap.get_upd_same]

/-- Every other context reads as before. -/
theorem State.onCtx_other (s : State) (c d : Nat) (f : Ctx → Ctx) (h : d ≠ c) : (s.onCtx c f).eng.ctxs.get d = s.eng.ctxs.get d := by
  simp [FMap.get_upd_ne _ _ _ _ h]

/-- An agent that exists reads as changed. -/
theorem State.onAgent_get (s : State) (id : Nat) (f : Agent → Agent) : (s.onAgent id f).agents.get id = (s.agents.get id).map f := by
  simp [FMap.get_upd_same]

/-- Every other agent reads as before. -/
theorem State.onAgent_other (s : State) (id d : Nat) (f : Agent → Agent) (h : d ≠ id) : (s.onAgent id f).agents.get d = s.agents.get d := by
  simp [FMap.get_upd_ne _ _ _ _ h]

/-- A domain that was changed reads as changed. -/
theorem State.onPower_doms (s : State) (f : Power → Power) : (s.onPower f).power.doms = (f s.power).doms := rfl

end Sys2Proof.Machine
end

