-- ==== Sys2Proof/Laws/Core.lean ====
section
/-! SUPPORT. The prologue of an Aglek instruction, registers, and the core that it writes back. -/

namespace Sys2Proof.Machine

open Sys2Proof.Safety

@[simp] theorem Core.getG_zero (c : Core) : c.getG 0 = 0 := rfl

@[simp] theorem Core.getK_zero (c : Core) : c.getK 0 = 0xFFFF := rfl

/-- g[n] reads as written, g0 apart. -/
theorem Core.getG_setG_same (c : Core) (n : Nat) (v : Word) (h : n ≠ 0) : (c.setG n v).getG n = v := by
  simp [Core.getG, Core.setG, h]

theorem Core.getG_setG_ne (c : Core) (n m : Nat) (v : Word) (h : m ≠ n) : (c.setG n v).getG m = c.getG m := by
  unfold Core.getG Core.setG
  split
  · rfl
  · split
    · rfl
    · exact FMap.getD_put_ne _ _ _ _ _ _ h

@[simp] theorem Core.setG_pc (c : Core) (n : Nat) (v : Word) : (c.setG n v).pc = c.pc := by unfold Core.setG; split <;> rfl
@[simp] theorem Core.setG_mem (c : Core) (n : Nat) (v : Word) : (c.setG n v).mem = c.mem := by unfold Core.setG; split <;> rfl
@[simp] theorem Core.setG_v (c : Core) (n : Nat) (v : Word) : (c.setG n v).v = c.v := by unfold Core.setG; split <;> rfl
@[simp] theorem Core.setG_k (c : Core) (n : Nat) (v : Word) : (c.setG n v).k = c.k := by unfold Core.setG; split <;> rfl
@[simp] theorem Core.setG_fpflags (c : Core) (n : Nat) (v : Word) : (c.setG n v).fpflags = c.fpflags := by unfold Core.setG; split <;> rfl
@[simp] theorem Core.setK_g (c : Core) (n : Nat) (v : BitVec 16) : (c.setK n v).g = c.g := by unfold Core.setK; split <;> rfl
@[simp] theorem Core.setK_pc (c : Core) (n : Nat) (v : BitVec 16) : (c.setK n v).pc = c.pc := by unfold Core.setK; split <;> rfl
@[simp] theorem Core.setK_mem (c : Core) (n : Nat) (v : BitVec 16) : (c.setK n v).mem = c.mem := by unfold Core.setK; split <;> rfl

@[simp] theorem Core.retire_g (c : Core) (n : Nat) : (c.retire n).g = c.g := rfl
@[simp] theorem Core.retire_k (c : Core) (n : Nat) : (c.retire n).k = c.k := rfl
@[simp] theorem Core.retire_v (c : Core) (n : Nat) : (c.retire n).v = c.v := rfl
@[simp] theorem Core.retire_mem (c : Core) (n : Nat) : (c.retire n).mem = c.mem := rfl
@[simp] theorem Core.retire_pc (c : Core) (n : Nat) : (c.retire n).pc = c.pc + 8 := rfl

/-- The fetch of a word without a single-bit error corrects nothing. -/
theorem correctLoc_clean {s : State} {who : Who} {c : Core} (hc : coreOf s who = some c) (a : Nat) (h : c.eccSoft.contains (a / 8) = false) :
    correctLoc s who (.own a) = s := by
  simp only [correctLoc, hc, h]; rfl

/-- An instruction that runs has the effect of its own operation. -/
theorem runIns_runs {s : State} {who : Who} {c : Core} {i : Ins} {r : Row} (h : Runs s who c i r) (body : State → Core → State) :
    runIns who i r none s body = body s c := by
  obtain ⟨hc, he, hf, hp, hm⟩ := h
  simp [runIns, correctLoc_clean hc _ hf, hc, he, hp, hm]

/-- A register instruction that runs writes its core back, retired. -/
theorem runReg_runs {s : State} {who : Who} {c : Core} {i : Ins} {r : Row} (h : Runs s who c i r) (hw ag : Nat) (f : Core → Core) :
    runReg who i r hw ag s f = setCore s who ((f c).retire (who.cost hw ag)) := by
  unfold runReg; exact runIns_runs h _

/-- A skipped instruction only retires, in one cycle, after its fetch has corrected what it meets (R125, R133). -/
theorem runIns_skipped {s : State} {who : Who} {b c : Core} {i : Ins} {r : Row} {sp : Option Nat} (body : State → Core → State)
    (hb : coreOf s who = some b) (he : s.executes who = true) (hc : coreOf (correctLoc s who (.own b.pc.toNat)) who = some c)
    (hp : preExc who c r i sp = none) (hm : (c.mask i).getLsbD 0 = false) :
    runIns who i r sp s body = setCore (correctLoc s who (.own b.pc.toNat)) who (c.retire 1) := by
  unfold runIns
  rw [hb]
  simp only [he, hc, hp, hm]
  rfl

/-- What does not execute runs no instruction (log 1). -/
theorem runIns_idle {s : State} {who : Who} (i : Ins) (r : Row) (sp : Option Nat) (body : State → Core → State) (he : s.executes who = false) :
    runIns who i r sp s body = s := by
  unfold runIns
  split
  · rfl
  · simp [he]

/-- The core written back is read again. -/
theorem coreOf_setCore {s : State} {who : Who} {c : Core} (c' : Core) (h : coreOf s who = some c) : coreOf (setCore s who c') who = some c' := by
  cases who with
  | ctx n =>
    simp only [coreOf, setCore, State.onCtx_eng, FMap.get_upd_same, Option.map_map] at *
    cases hx : FMap.get s.eng.ctxs n with
    | none => simp [hx] at h
    | some x => rfl
  | agent id =>
    simp only [coreOf, setCore, State.onAgent_agents, FMap.get_upd_same, Option.map_map] at *
    cases hx : FMap.get s.agents id with
    | none => simp [hx] at h
    | some x => rfl

end Sys2Proof.Machine
end

