-- ==== Sys2Proof/Laws/Memory.lean ====
section
/-! SUPPORT. Laws of memory: reading after writing, other bytes left alone, and the canonical form kept. -/

namespace Sys2Proof.Machine

/-- Every address of a memory is above `k`. -/
def memAbove (k : Nat) : List Host.Cell → Bool
  | [] => true
  | (j, _) :: _ => decide (k < j)

theorem memWf_cons (j : Nat) (b : Byte) (m : List Host.Cell) : memWf ((j, b) :: m) = (memAbove j m && (b != 0 && memWf m)) := by
  cases m with
  | nil => simp [memWf, memAbove]
  | cons q m => obtain ⟨i, c⟩ := q; simp [memWf, memAbove, Bool.and_assoc]

theorem memAbove_trans {i j : Nat} (h : i < j) (m : List Host.Cell) (ha : memAbove j m = true) : memAbove i m = true := by
  cases m with
  | nil => rfl
  | cons q m => obtain ⟨k, c⟩ := q; simp [memAbove] at *; omega

theorem memRead_above {k : Nat} (m : List Host.Cell) (hw : memWf m = true) (ha : memAbove k m = true) : memRead m k = 0 := by
  induction m with
  | nil => rfl
  | cons q m ih =>
    obtain ⟨j, b⟩ := q
    rw [memWf_cons] at hw
    simp only [memAbove, decide_eq_true_eq, Bool.and_eq_true] at *
    have : k ≠ j := by omega
    simp only [memRead, this, if_false]
    exact ih hw.2.2 (memAbove_trans ha m hw.1)

/-- The byte written is read back. -/
theorem memRead_memWrite_same (m : List Host.Cell) (k : Nat) (v : Byte) (h : memWf m = true) : memRead (memWrite m k v) k = v := by
  induction m with
  | nil => simp only [memWrite]; split <;> simp_all [memRead]
  | cons q m ih =>
    obtain ⟨j, b⟩ := q
    have hw := h
    rw [memWf_cons] at hw
    simp only [Bool.and_eq_true] at hw
    simp only [memWrite]
    split
    · rename_i hk
      split
      · rename_i hv
        rw [hv]
        exact memRead_above _ h (by simpa [memAbove] using hk)
      · simp [memRead]
    · split
      · rename_i hk
        subst hk
        split
        · rename_i hv
          rw [hv]
          exact memRead_above m hw.2.2 hw.1
        · simp [memRead]
      · rename_i h1 h2
        simp only [memRead, h2, if_false]
        exact ih hw.2.2

/-- Every other byte reads as before. -/
theorem memRead_memWrite_ne (m : List Host.Cell) (k i : Nat) (v : Byte) (h : i ≠ k) : memRead (memWrite m k v) i = memRead m i := by
  induction m with
  | nil => simp only [memWrite]; split <;> simp [memRead, h]
  | cons q m ih =>
    obtain ⟨j, b⟩ := q
    simp only [memWrite]
    split
    · split
      · rfl
      · simp [memRead, h]
    · split
      · rename_i hk
        subst hk
        split <;> simp [memRead, h]
      · simp only [memRead]; split <;> simp [*]

theorem memAbove_memWrite {i k : Nat} (m : List Host.Cell) (v : Byte) (hw : memWf m = true) (hi : i < k) (ha : memAbove i m = true) :
    memAbove i (memWrite m k v) = true := by
  cases m with
  | nil => simp only [memWrite]; split <;> simp [memAbove, hi]
  | cons q m =>
    obtain ⟨j, b⟩ := q
    rw [memWf_cons] at hw
    simp only [Bool.and_eq_true] at hw
    simp only [memWrite]
    split
    · split
      · exact ha
      · simp [memAbove, hi]
    · split
      · rename_i hk
        subst hk
        split
        · exact memAbove_trans (by simpa [memAbove] using ha) m hw.1
        · simp [memAbove, hi]
      · simpa [memAbove] using ha

/-- A write keeps the canonical form. -/
theorem memWf_memWrite (m : List Host.Cell) (k : Nat) (v : Byte) (h : memWf m = true) : memWf (memWrite m k v) = true := by
  induction m with
  | nil => simp only [memWrite]; split <;> simp_all [memWf]
  | cons q m ih =>
    obtain ⟨j, b⟩ := q
    have hw := h
    rw [memWf_cons] at hw
    simp only [Bool.and_eq_true] at hw
    simp only [memWrite]
    split
    · rename_i hk
      split
      · exact h
      · rename_i hv
        rw [memWf_cons]
        simp only [Bool.and_eq_true]
        exact ⟨by simpa [memAbove] using hk, by simpa using hv, h⟩
    · split
      · rename_i hk
        subst hk
        split
        · exact hw.2.2
        · rename_i hv
          rw [memWf_cons]
          simp only [Bool.and_eq_true]
          exact ⟨hw.1, by simpa using hv, hw.2.2⟩
      · rename_i h1 h2
        rw [memWf_cons]
        simp only [Bool.and_eq_true]
        exact ⟨memAbove_memWrite m v hw.2.2 (by omega) hw.1, hw.2.1, ih hw.2.2⟩

/-- Consecutive writes keep the canonical form. -/
theorem memWf_memStore (m : List Host.Cell) (a : Nat) (bs : List Byte) (h : memWf m = true) : memWf (memStore m a bs) = true := by
  induction bs generalizing m a with
  | nil => exact h
  | cons b bs ih => exact ih _ _ (memWf_memWrite m a b h)

/-- A byte outside the range stored reads as before. -/
theorem memRead_memStore_out (m : List Host.Cell) (a i : Nat) (bs : List Byte) (h : i < a ∨ a + bs.length ≤ i) :
    memRead (memStore m a bs) i = memRead m i := by
  induction bs generalizing m a with
  | nil => rfl
  | cons b bs ih =>
    simp only [memStore, List.length_cons] at *
    rw [ih _ _ (by omega), memRead_memWrite_ne m a i b (by omega)]

/-- A byte of the range stored reads as stored. -/
theorem memRead_memStore_in (m : List Host.Cell) (a : Nat) (bs : List Byte) (hw : memWf m = true) (k : Nat) (h : k < bs.length) :
    memRead (memStore m a bs) (a + k) = bs.getD k 0 := by
  induction bs generalizing m a k with
  | nil => simp at h
  | cons b bs ih =>
    cases k with
    | zero =>
      simp only [memStore, Nat.add_zero, List.getD_cons_zero]
      rw [memRead_memStore_out _ _ _ _ (by omega)]
      exact memRead_memWrite_same m a b hw
    | succ k =>
      simp only [memStore, List.getD_cons_succ, List.length_cons] at *
      have := ih (memWrite m a b) (a + 1) (memWf_memWrite m a b hw) k (by omega)
      rw [← this]; congr 1; omega

end Sys2Proof.Machine
end

