-- ==== Sys2Proof/WellFormed.lean ====
section
/-! DEFINITION. Well-formed commands: every number that names a thing is one that the wire or the register map can carry. -/

namespace Sys2Proof

open Sys2Proof.Machine

/-- A portal number, 0 to 7 (Table 3.3). -/
def okPortal (n : Nat) : Bool := decide (n < 8)
/-- A ring identifier: portal and local ring number (R88). -/
def okRing (n : Nat) : Bool := decide (n < 2 ^ 22)
/-- An AGENT_ID of 56 bits (Table 6.11). -/
def okAgent (n : Nat) : Bool := decide (n < 2 ^ 56)
/-- A power domain that can change state, D1 to D23 (Table 2.1). -/
def okDomain (n : Nat) : Bool := decide (1 ≤ n) && decide (n ≤ 23)
/-- An island handle; 0 names none (R314). -/
def okIsland (n : Nat) : Bool := decide (1 ≤ n) && decide (n < 65536)
/-- A tensor link of an agent, 0 to 15 (Table 8.9). -/
def okLink (n : Nat) : Bool := decide (n < 16)
/-- A logical port of an endpoint, 0 to 7 (R29). -/
def okPort (n : Nat) : Bool := decide (n < 8)
/-- A lane of a link, 0 to 3. -/
def okLane (n : Nat) : Bool := decide (n < 4)
/-- A mailbox channel, 0 to 63 (R108). -/
def okChannel (n : Nat) : Bool := decide (n < 64)
/-- A context number of 24 bits (R152). -/
def okCtx (n : Nat) : Bool := decide (n < 2 ^ 24)
/-- A bench, 0 to 15 (R57). -/
def okBench (n : Nat) : Bool := decide (n < 16)
/-- A PLL of Table 2.10, in the model's numbering. -/
def okPll (n : Nat) : Bool := decide (n < 21)
/-- A NAND block: eight dies of 2,048 (Table 13.1). -/
def okBlock (n : Nat) : Bool := decide (n < 16384)
/-- A page of a block (R408). -/
def okPage (n : Nat) : Bool := decide (n < 1024)
/-- A die that holds an anchor copy (R420). -/
def okDie (n : Nat) : Bool := n == 0 || n == 3 || n == 6
/-- A submission entry of 64 bytes (Table 3.18). -/
def okEntry (l : List Byte) : Bool := l.length == 64
/-- What the host bus answers at a ring: an entry of 64 bytes, or an error. -/
def okRead : EntryRead → Bool
  | .entry raw => okEntry raw
  | .baseError | .shadowError => true
/-- A host buffer of at most 256 KiB (Table 3.11). -/
def okBuf (l : List Byte) : Bool := decide (l.length ≤ 262144)
/-- A party of an island, by its portal. -/
def okParty (n : Nat) : Bool := decide (n < 8)
/-- An activity identifier of 16 bits (R454). -/
def okActivity (n : Nat) : Bool := decide (n < 65536)
/-- What executes an Aglek instruction: a context number or an AGENT_ID. -/
def okWho : Who → Bool
  | .ctx c => okCtx c
  | .agent a => okAgent a

/-- The command is well formed. -/
def Instr.wf : Instr → Bool
  | .powerOn _ _ => true
  | .feedRangeChange _ _ _ => true
  | .oringFault _ _ => true
  | .bothFeedsFail => true
  | .chipRstLFirstRise => true
  | .chipReset => true
  | .chipResetDrainEnd => true
  | .keeperBootRom => true
  | .nvOpen => true
  | .controllerFwVerify => true
  | .licenceEvaluation => true
  | .licenceExpiryCheck => true
  | .hbmMemoryTest _ => true
  | .bringupSelfTest _ => true
  | .modelRebuild _ _ => true
  | .planCheck _ => true
  | .discovery => true
  | .discoveryWindowEnd => true
  | .agentFwLoad => true
  | .fwLoadTimeout => true
  | .baseTableSet => true
  | .topologyAgreement => true
  | .wakeEvent domain => okDomain domain
  | .domainReady domain => okDomain domain
  | .domainWakeTimeout domain => okDomain domain
  | .domainIdleExpiry domain => okDomain domain
  | .domainDrained domain _ => okDomain domain
  | .pllLockLoss pll => okPll pll
  | .aonClockLoss _ => true
  | .pcieConfigRequest portal => okPortal portal
  | .perstRise portal => okPortal portal
  | .perstFall portal => okPortal portal
  | .pcieResetEvent portal => okPortal portal
  | .ptResetGo portal => okPortal portal
  | .partitionResetDone portal => okPortal portal
  | .registerWrite portal _ _ _ _ => okPortal portal
  | .rcRegisterRead portal _ _ _ _ => okPortal portal
  | .portalAccessResume portal => okPortal portal
  | .portalAccessTimeout portal => okPortal portal
  | .ptCtrlWrite portal _ _ _ => okPortal portal
  | .ptFaultFirstClear portal => okPortal portal
  | .ptFaultNextClear portal => okPortal portal
  | .lhFaultFirstClear portal _ => okPortal portal
  | .lhPdHoldWrite portal _ _ => okPortal portal
  | .lhResetEngine portal domain => okPortal portal && okDomain domain
  | .lhResetChip portal => okPortal portal
  | .iuRegisterWrite portal _ _ _ => okPortal portal
  | .iuClear portal _ => okPortal portal
  | .doorbellWrite portal _ _ _ => okPortal portal
  | .ptMboDataWrite portal channel _ => okPortal portal && okChannel channel
  | .ptMbiDataRead portal channel => okPortal portal && okChannel channel
  | .ringCreate portal _ => okPortal portal
  | .ringDestroy portal _ => okPortal portal
  | .ringFence portal _ => okPortal portal
  | .ringResume portal _ => okPortal portal
  | .ringReset portal _ => okPortal portal
  | .ringQuery portal _ => okPortal portal
  | .ringRetarget portal _ => okPortal portal
  | .entryFetch ring read => okRing ring && okRead read
  | .submitResume ring => okRing ring
  | .nop ring _ buf => okRing ring && okBuf buf
  | .ctxStart ring _ buf => okRing ring && okBuf buf
  | .ctxStop ring _ buf => okRing ring && okBuf buf
  | .ctxReset ring _ buf => okRing ring && okBuf buf
  | .mbBind ring _ buf _ channel ctx => okRing ring && okBuf buf && okChannel channel && okCtx ctx
  | .planLoad ring _ buf => okRing ring && okBuf buf
  | .licenceStore ring _ buf => okRing ring && okBuf buf
  | .licenceRemove ring _ => okRing ring
  | .fwStage ring _ buf => okRing ring && okBuf buf
  | .islandCarve ring _ buf => okRing ring && okBuf buf
  | .jobBoundary ring _ buf => okRing ring && okBuf buf
  | .islandRelease ring _ => okRing ring
  | .islandReleaseResume island => okIsland island
  | .islandStateScrubDone island => okIsland island
  | .islandMeasure ring _ buf => okRing ring && okBuf buf
  | .islandAbort ring _ buf => okRing ring && okBuf buf
  | .abortResend island => okIsland island
  | .schedLoad ring _ buf => okRing ring && okBuf buf
  | .dataKey ring _ buf => okRing ring && okBuf buf
  | .weightShare ring _ buf => okRing ring && okBuf buf
  | .accept ring _ buf => okRing ring && okBuf buf
  | .withdraw ring _ buf => okRing ring && okBuf buf
  | .consent ring _ buf => okRing ring && okBuf buf
  | .consentLapse island party => okIsland island && okParty party
  | .telemetryRead ring _ buf => okRing ring && okBuf buf
  | .maintRequest ring _ buf => okRing ring && okBuf buf
  | .maintCancel ring _ => okRing ring
  | .maintActivityEnd activity _ => okActivity activity
  | .maintOverrun activity => okActivity activity
  | .linkRetrain activity _ => okActivity activity
  | .retrainLimit activity => okActivity activity
  | .switchover => true
  | .placement => true
  | .stopGraceExpiry c => okCtx c
  | .faultedTimeout c => okCtx c
  | .wakeCause c _ => okCtx c
  | .timeWake who => okWho who
  | .benchPrewake b => okBench b
  | .ticketComplete ctx _ => okCtx ctx
  | .add who _ => okWho who
  | .sub who _ => okWho who
  | .mul who _ => okWho who
  | .mulh who _ => okWho who
  | .div who _ => okWho who
  | .rem who _ => okWho who
  | .and who _ => okWho who
  | .or who _ => okWho who
  | .xor who _ => okWho who
  | .shl who _ => okWho who
  | .shr who _ => okWho who
  | .rot who _ => okWho who
  | .cmp who _ => okWho who
  | .sel who _ => okWho who
  | .bit who _ => okWho who
  | .minmax who _ => okWho who
  | .addi who _ => okWho who
  | .muli who _ => okWho who
  | .andi who _ => okWho who
  | .ori who _ => okWho who
  | .xori who _ => okWho who
  | .shli who _ => okWho who
  | .shri who _ => okWho who
  | .roti who _ => okWho who
  | .cmpi who _ => okWho who
  | .kmov who _ => okWho who
  | .movi who _ => okWho who
  | .kop who _ => okWho who
  | .br who _ => okWho who
  | .jal who _ => okWho who
  | .jr who _ => okWho who
  | .jrl who _ => okWho who
  | .loop who _ => okWho who
  | .ld who _ => okWho who
  | .st who _ => okWho who
  | .ldx who _ => okWho who
  | .stx who _ => okWho who
  | .amo who _ => okWho who
  | .cas who _ => okWho who
  | .vadd who _ => okWho who
  | .vsub who _ => okWho who
  | .vmul who _ => okWho who
  | .vfma who _ => okWho who
  | .vand who _ => okWho who
  | .vor who _ => okWho who
  | .vxor who _ => okWho who
  | .vshl who _ => okWho who
  | .vshr who _ => okWho who
  | .vminmax who _ => okWho who
  | .vcmp who _ => okWho who
  | .vsel who _ => okWho who
  | .vbcast who _ => okWho who
  | .vext who _ => okWho who
  | .vins who _ => okWho who
  | .vcvt who _ => okWho who
  | .vld who _ => okWho who
  | .vst who _ => okWho who
  | .vgather who _ => okWho who
  | .vscatter who _ => okWho who
  | .vred who _ => okWho who
  | .vperm who _ => okWho who
  | .viota who _ => okWho who
  | .vcompress who _ => okWho who
  | .srd who _ => okWho who
  | .swr who _ => okWho who
  | .trap who _ => okWho who
  | .glink who _ => okWho who
  | .gnbr who _ => okWho who
  | .gcoord who _ => okWho who
  | .gpath who _ => okWho who
  | .tld who _ => okWho who
  | .tst who _ => okWho who
  | .tvld who _ => okWho who
  | .tvst who _ => okWho who
  | .tamo who _ => okWho who
  | .tnew who _ => okWho who
  | .tfree who _ => okWho who
  | .tpush who _ => okWho who
  | .msend who _ => okWho who
  | .mrecv who _ => okWho who
  | .mbwr who _ => okWho who
  | .mbrd who _ => okWho who
  | .rpop who _ _ => okWho who
  | .rpush who _ => okWho who
  | .tnow who _ => okWho who
  | .haltUntil who _ => okWho who
  | .haltEvent who _ => okWho who
  | .haltEnd who _ => okWho who
  | .tkwait who _ => okWho who
  | .tkpoll who _ => okWho who
  | .ecommit who _ => okWho who
  | .equery who _ => okWho who
  | .thash who _ => okWho who
  | .tverify who _ => okWho who
  | .trand who _ => okWho who
  | .tmeasure who _ => okWho who
  | .tkeyrel who _ => okWho who
  | .icrc who _ => okWho who
  | .idigest who _ _ => okWho who
  | .ireport who _ => okWho who
  | .iadj who _ => okWho who
  | .itest who _ => okWho who
  | .ihist who _ => okWho who
  | .packetHeader agent _ _ _ => okAgent agent
  | .packetTail agent _ _ _ _ _ _ => okAgent agent
  | .ackDelay agent _ _ => okAgent agent
  | .ack agent _ _ _ => okAgent agent
  | .e2eTimeout agent _ _ => okAgent agent
  | .moved agent _ _ => okAgent agent
  | .message _ => true
  | .injectionRequest agent _ _ => okAgent agent
  | .blockReread agent _ => okAgent agent
  | .heldInjectionStart agent _ => okAgent agent
  | .slotEnd agent _ => okAgent agent
  | .flitSend agent link _ => okAgent agent && okLink link
  | .flitReceive agent link _ => okAgent agent && okLink link
  | .creditReturn agent link _ _ => okAgent agent && okLink link
  | .creditResync agent link _ _ => okAgent agent && okLink link
  | .xoff agent link _ => okAgent agent && okLink link
  | .xon agent link _ => okAgent agent && okLink link
  | .codewordEnd agent link lane _ => okAgent agent && okLink link && okLane lane
  | .marginWindow agent => okAgent agent
  | .codewordTimeout agent link _ => okAgent agent && okLink link
  | .linkDown agent link => okAgent agent && okLink link
  | .detourApply agent port => okAgent agent && okPort port
  | .keepalive agent link lane => okAgent agent && okLink link && okLane lane
  | .linkHello agent link _ nbrLink _ => okAgent agent && okLink link && okLink nbrLink
  | .timeSymbol agent link _ _ => okAgent agent && okLink link
  | .timeSymbolSend agent link => okAgent agent && okLink link
  | .timeParentSilent agent => okAgent agent
  | .calibSelect agent _ => okAgent agent
  | .agentResetRelease agent _ _ => okAgent agent
  | .announceTimer agent => okAgent agent
  | .announce agent _ _ _ _ _ => okAgent agent
  | .assign agent _ _ => okAgent agent
  | .linkReport agent _ => okAgent agent
  | .linkReportHoldoff agent => okAgent agent
  | .ethernetFrame agent _ => okAgent agent
  | .regReq agent _ _ _ => okAgent agent
  | .regRsp agent _ _ => okAgent agent
  | .mgAck agent _ _ => okAgent agent
  | .mgmtResend agent _ => okAgent agent
  | .mbWord agent _ _ => okAgent agent
  | .mbWordToController agent _ _ => okAgent agent
  | .agMbOutResend agent => okAgent agent
  | .hcEvt agent _ => okAgent agent
  | .eventsFlush agent => okAgent agent
  | .events agent _ _ => okAgent agent
  | .evtAck agent _ => okAgent agent
  | .eventsResend agent => okAgent agent
  | .evtSpoil agent => okAgent agent
  | .cntSample agent _ => okAgent agent
  | .counters agent _ _ => okAgent agent
  | .telemetrySample _ => true
  | .ping agent _ _ => okAgent agent
  | .reset agent _ _ => okAgent agent
  | .agResetGo agent _ => okAgent agent
  | .rstAck agent => okAgent agent
  | .rstFail agent => okAgent agent
  | .endpointResetTimeout agent => okAgent agent
  | .scrub agent _ => okAgent agent
  | .agScrubGo agent => okAgent agent
  | .scrubDone agent => okAgent agent
  | .scrubFail agent => okAgent agent
  | .scrubRegionTimeout agent => okAgent agent
  | .scrubReport agent _ => okAgent agent
  | .scrubUnreachable agent => okAgent agent
  | .quarantineRescrub agent => okAgent agent
  | .fwManifest agent _ _ => okAgent agent
  | .fwChunk agent _ _ => okAgent agent
  | .fwEnd agent => okAgent agent
  | .fwMissingTimer agent => okAgent agent
  | .fwMissing agent _ _ => okAgent agent
  | .loadingTimeout agent => okAgent agent
  | .fwVerifyDone agent => okAgent agent
  | .keyDeliver agent _ _ _ => okAgent agent
  | .kpAck agent => okAgent agent
  | .kpErr agent => okAgent agent
  | .keyPortTimeout agent => okAgent agent
  | .dbgStateChange agent _ => okAgent agent
  | .hcMeasValid agent _ => okAgent agent
  | .agStepWrite agent _ _ => okAgent agent
  | .pmAck agent => okAgent agent
  | .pmFail agent => okAgent agent
  | .tsData agent _ _ _ _ _ => okAgent agent
  | .tsPrepare agent _ _ => okAgent agent
  | .tsReady agent context _ _ => okAgent agent && okCtx context
  | .tsQuiesce agent _ _ => okAgent agent
  | .flowsDrained agent => okAgent agent
  | .drainLimit agent => okAgent agent
  | .tsCommit agent _ _ => okAgent agent
  | .tsRelease agent _ _ => okAgent agent
  | .tsAbandon agent _ _ _ => okAgent agent
  | .tsAck agent context _ _ => okAgent agent && okCtx context
  | .stagingRefillDone agent => okAgent agent
  | .installResend _ => true
  | .switchSettle _ => true
  | .detourRecompute island => okIsland island
  | .islandAbortPacket agent _ => okAgent agent
  | .agentSilence agent => okAgent agent
  | .recordAccept => true
  | .severityWindowEnd _ _ _ => true
  | .quietPeriodEnd _ _ => true
  | .engineResetComplete domain => okDomain domain
  | .resetTimeout _ _ => true
  | .domainHeartbeatMiss domain => okDomain domain
  | .keeperWatchdog => true
  | .hangDetect ring => okRing ring
  | .suspectReplay => true
  | .replayWatchdog => true
  | .checkerSelfTest agent port _ _ => okAgent agent && okPort port
  | .compareQuiet agent port => okAgent agent && okPort port
  | .digestStep agent _ => okAgent agent
  | .digestComplete agent _ => okAgent agent
  | .digestReport agent _ _ => okAgent agent
  | .adjTimeout island _ _ _ _ => okIsland island
  | .repeatTimeout island _ _ _ _ => okIsland island
  | .testReq agent _ _ => okAgent agent
  | .testDone agent _ _ => okAgent agent
  | .testRunTimeout agent => okAgent agent
  | .testResult agent context _ => okAgent agent && okCtx context
  | .testBoundaryLimit agent => okAgent agent
  | .patData agent _ _ _ _ _ => okAgent agent
  | .journalWrite _ _ _ => true
  | .faceFlush => true
  | .pageProgrammed _ _ block _ => okBlock block
  | .faceFullTimeout ring _ => okRing ring
  | .nvRead block page _ _ => okBlock block && okPage page
  | .retentionAge block => okBlock block
  | .relocation block target _ => okBlock block && okBlock target
  | .dressing => true
  | .snapshotVerified _ => true
  | .anchorGeneration die _ => okDie die
  | .sparesLowDaily => true
  | .ledgeWrite _ => true
  | .ledgeMerge => true
  | .objectCommit _ _ _ _ => true
  | .timeFloorRecord => true
  | .ppsEdge _ _ _ => true
  | .ppsMissing _ => true
  | .ptpSync _ _ => true
  | .syncTimeout _ => true
  | .ptpAnnounce _ _ _ _ => true
  | .referenceQualified _ _ => true
  | .holdEnd => true
  | .slewLock _ => true
  | .holdoverLimit => true
  | .pair _ _ _ _ _ _ => true
  | .unpair _ => true
  | .leaseRenewTimer => true
  | .leaseAnswer _ _ => true
  | .arbiterSilence => true
  | .forceTakeover _ => true
  | .planEnrol _ _ => true
  | .trayMbWord _ _ => true
  | .pldmFwUpdate _ => true
  | .leaseLFall => true
  | .leaseLRise => true
  | .shipRecords _ _ _ _ _ _ => true
  | .shipAck _ _ _ _ _ => true
  | .peerAckTimeout => true
  | .shipSnapshot _ _ _ _ _ _ _ => true
  | .shipObject _ _ _ _ _ _ => true
  | .shipHello _ _ _ _ _ => true
  | .shipMailbox _ _ _ _ _ _ => true
  | .heartbeatLoss portal => okPortal portal
  | .getVersion portal => okPortal portal
  | .getCapabilities portal => okPortal portal
  | .negotiateAlgorithms portal _ _ => okPortal portal
  | .getDigests portal => okPortal portal
  | .getCertificate portal _ _ _ => okPortal portal
  | .challenge portal _ _ => okPortal portal
  | .getMeasurements portal block _ _ => okPortal portal && okBlock block
  | .keyExchange portal _ _ => okPortal portal
  | .finish portal _ _ => okPortal portal
  | .heartbeat portal => okPortal portal
  | .keyUpdate portal _ => okPortal portal
  | .endSession portal => okPortal portal
  | .throttleChange _ _ => true
  | .thermalTrip _ _ => true
  | .tapReset => true
  | .extest => true
  | .samplePreload _ => true
  | .idcode => true
  | .clamp => true
  | .highz => true
  | .bypass => true
  | .castikPrivate _ => true
  | .blockErase block _ => okBlock block
  | .mgAckAtAgent agent _ _ => okAgent agent
  | .digestReportResend agent _ => okAgent agent
  | .agRstLAssert agent => okAgent agent
  | .trayChipReset => true
  | .standbyState => true

end Sys2Proof
end

