-- ==== Sys2Proof/Tests/Slice0.lean ====
section
/-! SUPPORT. Small tests of the model, and a witness of the hypotheses of every statement. -/

set_option Elab.async false

namespace Sys2Proof.Tests

open Sys2Proof.Machine Sys2Proof.Safety

/-- A controller that is up, all domains ON, portal 0 the steward's and portal 1 a party's. -/
def base : State :=
  { pins := { d0Up := true, firstRise := true, chipRstHigh := true, portalRdy := true }
    power := { doms := (List.range 23).map fun d => (d + 1, { st := .on }), step := 15, resetting := false }
    portals := [(0, { st := .ready, role := .steward }), (1, { st := .ready, role := .party })] }

/-- `base` with one domain in a state. -/
def dom (d : Nat) (st : DomState) : State := base.onDom d fun x => { x with st := st }

/-! Witnesses: a state and operands that meet the hypotheses of each clause of each statement. -/

theorem witness_FeedAndPowerCommands :
    ¬State.reset.pins.d0Up = true ∧ 10800 ≤ (10800 : BitVec 16).toNat ∧ (10800 : BitVec 16).toNat < 13400 ∧ base.pins.d0Up = true ∧
    ((base.onFeed .a fun f => { f with valid := true }).pins.feed .a).valid = true ∧ (10600 : BitVec 16).toNat ≤ 10600 ∧
    13400 ≤ (13400 : BitVec 16).toNat ∧ (base.pins.feed .a).valid = false := by decide

theorem witness_DomainCommands :
    ((dom 23 .off).domPresent 23 = true ∧ (dom 23 .off).mayWake 23 = true ∧ (dom 23 .off).domSt 23 = .off ∧
      ∀ e ∈ bringUp 23, (dom 23 .off).domOn e = true) ∧
    (dom 17 .waking).domSt 17 = .waking ∧ (dom 1 .waking).domSt 1 = .waking ∧ (dom 16 .waking).domSt 16 = .waking ∧
    (base.domOn 18 = true ∧ base.power.hold.getLsbD 18 = false ∧ base.unneeded 18 = true ∧ idleNow base 18 = true) ∧
    ((dom 17 .draining).domSt 17 = .draining ∧ (dom 17 .draining).power.draining = false ∧ (dom 17 .draining).unneeded 17 = false) ∧
    ((dom 18 .draining).domSt 18 = .draining ∧ (dom 18 .draining).unneeded 18 = true ∧ idleNow (dom 18 .draining) 18 = true ∧ ∀ r ∈ (dom 18 .draining).coll.posted, ¬(r.source = (dom 18 .draining).ctrlAddr ∧ r.unit.toNat / 64 = 18)) ∧
    base.portalOpen 0 = true ∧ (base.portal 0).role = .steward := by decide

/-- `base` with both throttles as given. -/
def hot (tj hbm : Bool) : State := base.onPins fun p => { p with throttleTj := tj, throttleHbm := hbm }

theorem witness_ClockPinAndTemperatureCommands :
    (pllDomains 17).filter base.running = [18] ∧ base.pins.aonBackup = false ∧
    (7 < base.pins.part.portals ∧ base.pins.portalRdy = true ∧ (base.portal 7).st = .down) ∧
    ((hot false true).pins.throttleTj = false ∧ (hot false true).pins.throttleHbm = true ∧ 800 ≤ (800 : BitVec 16).toInt ∧ 696 ≤ (696 : BitVec 16).toInt) ∧
    ((hot true true).pins.throttleTj = true ∧ (759 : BitVec 16).toInt < 760 ∧ (695 : BitVec 16).toInt < 696) ∧
    (base.pins.d0Up = true ∧ base.pins.thermtripLow = false ∧ 944 ≤ (944 : BitVec 16).toInt ∧ 840 ≤ (840 : BitVec 16).toInt) := by decide

theorem witness_TestPortCommands :
    State.reset.pins.chipRstHigh = false ∧ ¬base.pins.chipRstHigh = false ∧ 4 < (5 : BitVec 8).toNat ∧ (5 : BitVec 8) ≠ 0xFF ∧
    State.reset.pins.debugUnlocked = false := by decide

/-- `base` with one domain that has missed heartbeats. -/
def missing (d n : Nat) : State := base.onDom d fun x => { x with missed := n }

/-- Two rings that wait on each other, and a context bound to one of them. -/
def cyclic : State := base.onEng fun e =>
  { e with rings := [(1, { waitsOn := some 2, waitCtx := 5 }), (2, { waitsOn := some 1 })]
           ctxs := [(5, { st := .running, ring := some 1, hewer := some (0, 0) })] }

/-- A guilt finding that runs. -/
def finding (n : Nat) : State := cyclic.onEng fun e => { e with hang := some { rings := [1, 2], queue := [5], running := n } }

theorem witness_ResetCommands :
    (base.pins.d0Up = true ∧ base.pins.firstRise = true ∧ base.pins.chipRstHigh = true ∧ 1 < base.power.step) ∧
    ((base.onPower fun p => { p with draining := true }).power.draining = true ∧
      ∀ x ∈ (base.onPower fun p => { p with draining := true }).coll.posted, ¬(x.source = base.ctrlAddr ∧ 64 ≤ x.unit.toNat)) ∧
    (base.portalOpen 0 = true ∧ (base.portal 0).role = .steward ∧ base.domPresent 17 = true ∧ base.domPresent 1 = true) ∧
    (((base.onDom 16 fun x => { x with engineReset := true }).dom 16).engineReset = true ∧
      ∀ x ∈ (base.onDom 16 fun x => { x with engineReset := true }).coll.uncleared, ¬(x.source = base.ctrlAddr ∧ x.unit = unitNo 16 63 ∧ x.kind = 0x082)) ∧
    ((base.onPortal 0 fun q => { q with st := .resetting }).portal 0).st = .resetting ∧ base.power.draining = false ∧
    (base.onPower fun p => { p with resetting := true }).power.resetting = true ∧
    (base.domOn 20 = true ∧ (base.dom 20).missed < 2) ∧
    ((missing 20 2).domPresent 20 = true ∧ (missing 20 2).domOn 20 = true ∧ ((missing 20 2).dom 20).missed = 2) ∧
    ((missing 17 2).domPresent 17 = true ∧ (missing 17 2).domOn 17 = true ∧ ((missing 17 2).dom 17).missed = 2) ∧
    base.power.lastWatchdog = none ∧
    (cycleFrom cyclic 2 = some [2, 1] ∧ ∀ b ∈ benchesOf (boundTo cyclic [2, 1]), (cyclic.dom (b + 1)).engineReset = false) ∧
    (∀ b, b < 17 → ((finding 0).dom b).engineReset = false) ∧ (finding 0).eng.hang = some { rings := [1, 2], queue := [5], running := 0 } ∧
    ((finding 5).eng.hang = some { rings := [1, 2], queue := [5], running := 5 } ∧
      (finding 5).eng.ctxs.get 5 = some { st := .running, ring := some 1, hewer := some (0, 0) }) := by decide

/-- `base` at a boot step. -/
def boot (n : Nat) : State := base.onPower fun p => { p with step := n }

/-- An entry of an opcode with ARGS and LENGTH, fetched at index 0. -/
def fetched (op : Nat) (args : List Byte) (len : Nat) : Fetched := { entry := { opcode := BitVec.ofNat 8 op, args := args, length := BitVec.ofNat 32 len } }

/-- Its ring. -/
def entryRing (op : Nat) (args : List Byte) (len : Nat) : Ring := { st := .active, fetched := [fetched op args len] }

/-- `base` with ring 7 of portal 0, from which that entry has been fetched. -/
def entry (op : Nat) (args : List Byte) (len : Nat) : State := base.onEng fun e => { e with rings := [(7, entryRing op args len)] }

/-- A licence of feature 0 and serial 1 with all fields in range, unsigned. -/
def licence : List Byte := leBytes 4 0x4C49434E ++ [1, 0, 0, 0, 1] ++ List.replicate 71 0 ++ [1] ++ List.replicate 175 0

/-- A state that has evaluated a licence which has since expired. -/
def expired : State :=
  { base with
    lic := { evaluated := true, valid := 1, passing := [0], stored := [List.replicate 0x48 0 ++ [1]] }
    time := { firstLock := true, now := 1 } }

set_option maxRecDepth 20000 in
theorem witness_BootAndLicenceCommands :
    bootAt (boot 1) 1 = true ∧
    (let s := (boot 2).onDom 21 fun x => { x with st := .fenced }
     bootAt s 2 = true ∧ s.domSt 21 = .fenced) ∧
    (let s := ((boot 2).onDom 21 fun x => { x with st := .on }).onNv fun n => { n with anchors := [(0, {}), (3, {}), (6, {})] }
     let u := s.onNv fun v => { v with restarting := false }
     bootAt s 2 = true ∧ s.domOn 21 = true ∧ anchorChoice u = (some {}, false) ∧ s.nv.dressStep = 0) ∧
    (bootAt (boot 3) 3 = true ∧ (boot 3).power.stopped = false) ∧
    (bootAt (boot 4) 4 = true ∧ (boot 4).power.licDone = false ∧ (boot 4).pair.role = .unpaired) ∧
    (∃ b, b ∈ expired.lic.stored ∧ expired.pins.d0Up = true ∧ expired.lic.evaluated = true ∧ leAt b 8 8 ∈ expired.lic.passing ∧
      leAt b 0x48 8 ≠ 0 ∧ leAt b 0x48 8 ≤ evalTime expired) ∧
    (let s := entry 0x11 [] 256
     Serves s 7 0 0x11 (entryRing 0x11 [] 256) (fetched 0x11 [] 256) ∧ Journals s ∧ (bufOf (fetched 0x11 [] 256) licence).length = 256 ∧
       licWellFormed (bufOf (fetched 0x11 [] 256) licence) = true ∧ s.lic.stored.length < 64) ∧
    (let s := { entry 0x12 [1] 0 with lic := { stored := [licence] } }
     Serves s 7 0 0x12 (entryRing 0x12 [1] 0) (fetched 0x12 [1] 0) ∧ Journals s ∧ leAt (argsOf (fetched 0x12 [1] 0)) 0 8 = 1 ∧
       zeroAt (argsOf (fetched 0x12 [1] 0)) 8 32 = true ∧ ∃ b ∈ s.lic.stored, leAt b 8 8 = 1) := by
  refine ⟨by decide, by decide, by decide, by decide, by decide, ⟨List.replicate 0x48 0 ++ [1], by decide⟩, by decide, by decide⟩

/-- A roster with one endpoint that was found. -/
def found : FMap Roster := [(9, { found := true, addr := 0 })]

theorem witness_BringUpCommands :
    (bootAt (boot 6) 6 = true ∧ 7 < (boot 6).pins.part.stacks) ∧ (bootAt (boot 7) 7 = true ∧ (boot 7).domPresent 20 = true) ∧
    (bootAt (boot 8) 8 = true ∧ (boot 8).domOn 22 = true ∧ (boot 8).domOn 21 = true ∧ (boot 8).pair.role ≠ .takingOver) ∧
    ((boot 8).power.fastPath = false ∧ ((boot 8).onPower fun p => { p with fastPath := true }).power.fastPath = true) ∧ bootAt (boot 9) 9 = true ∧
    (bootAt (boot 10) 10 = true ∧ (boot 10).fab.st ≠ .discovering ∧ (setFab (wake (boot 10) 18) .discovering none).pair.timeLoad = none) ∧
    ((boot 10).onFab fun f => { f with st := .discovering }).fab.st = .discovering ∧
    ((boot 10).power.fastPath = false ∧ (boot 10).pair.role ≠ .takingOver ∧ ((boot 10).onPower fun p => { p with fastPath := true }).power.fastPath = true) ∧
    (bootAt (boot 11) 11 = true ∧ (boot 11).fab.fwLoading = false ∧ loadList (boot 11) = [] ∧ measPending (boot 11) = false) ∧
    loadList ((boot 11).onFab fun f => { f with roster := found, stagedFw := [(0, 1)] }) ≠ [] ∧
    ((boot 11).onFab fun f => { f with fwLoading := true }).fab.fwLoading = true ∧
    (bootAt (boot 12) 12 = true ∧ (boot 12).isles.installs.get 0 = none) ∧ (bootAt (boot 13) 13 = true ∧ (boot 13).isles.installs = []) := by decide

theorem witness_PlanAndAnnounceCommands :
    (Serves (entry 0x10 [] 0) 7 0 0x10 (entryRing 0x10 [] 0) (fetched 0x10 [] 0) ∧ Journals (entry 0x10 [] 0) ∧
      zeroAt (argsOf (fetched 0x10 [] 0)) 0 40 = true) ∧
    (Serves (entry 0x13 [] 0) 7 0 0x13 (entryRing 0x13 [] 0) (fetched 0x13 [] 0) ∧ Journals (entry 0x13 [] 0)) ∧
    leAt (argsOf (fetched 0x13 [1, 2, 1] 0)) 0 1 = 1 ∧ leAt (argsOf (fetched 0x13 [1, 2, 1] 0)) 2 1 ≤ 1 ∧ leAt (argsOf (fetched 0x13 [2] 0)) 0 1 = 2 ∧
    zeroAt (argsOf (fetched 0x13 [1, 2, 1] 0)) 3 29 = true ∧ (base.pins.d0Up = true ∧ 3 ≤ base.power.step ∧ base.fab.operatorKey = none) ∧
    (let s := base.onFab fun f => { f with st := .ready }
     s.domOn 23 = true ∧ 10 ≤ s.power.step ∧ s.fab.st ≠ .booting ∧ placeOf (heard s 9) 9 = .unknown ∧ s.fab.unexpected.contains 9 = false) ∧
    (let s := base.onFab fun f => { f with st := .ready, plan := some [], spliced := [(5, 9)] }
     placeOf (heard s 9) 9 = .at 5 ∧ (s.roster 9).retired = false) := by decide

/-- `base` with portal 0 changed. -/
def port (f : Portal → Portal) : State := base.onPortal 0 f

/-- A held read and a held write, the one's domain ON and the other's OFF. -/
def holding : State := (dom 19 .off).onPortal 0 fun q => { q with held := [{ offset := 0x600000, dom := 21 }, { offset := 0x400000, write := some 1, dom := 19 }] }

theorem witness_PortalCommands :
    base.hasPortal 0 = true ∧ (base.portal 0).st ≠ .resetting ∧ base.portalOpen 0 = true ∧ (base.portal 0).role = .steward ∧
    (((port fun q => { q with st := .resetting }).portal 0).st = .resetting ∧ base.power.draining = false) ∧
    (1 : Word).getLsbD 1 = false ∧ (((base.portal 0).mbo.getD 63 {}).full = false ∧ ((base.portal 0).mbo.getD 63 {}).ctx = 0) ∧
    (((port fun q => { q with mbi := [(63, { full := true })] }).portal 0).mbi.getD 63 {}).full = true ∧
    (holding.portal 0).held.find? (fun x => holding.domOn x.dom) = some { offset := 0x600000, dom := 21 } ∧
    (((port fun q => { q with held := [{ write := some 1, dom := 21 }] }).portal 0).held.find? fun x =>
      (port fun q => { q with held := [{ write := some 1, dom := 21 }] }).domOn x.dom) = some { write := some 1, dom := 21 } ∧
    (holding.portal 0).held.find? (fun x => !holding.domOn x.dom) = some { offset := 0x400000, write := some 1, dom := 19 } := by decide

/-- `base` with one ring, number 7, that portal 0 names in CH_CMD_ARG0. -/
def ring (g : Ring) : State := (port fun q => { q with arg0 := 7, ringsEn := true }).onEng fun e => { e with rings := [(7, g)] }

/-- The state after RING_CREATE's arguments are written: a SUBMIT ring of 64 entries, paired with ring 7. -/
def creating : State := (port fun q => { q with arg1 := 6, arg2 := 7 * 2 ^ 32 }).onEng fun e => { e with rings := [(7, { kind := .complete })] }

theorem witness_RingCommands :
    (creating.portalOpen 0 = true ∧ (creating.portal 0).cmdBusy = false ∧ creating.domSt 17 = .on ∧
      RingKind.ofCode (fld (creating.portal 0).arg1 15 8) = some .submit ∧ fld (creating.portal 0).arg1 7 0 = 6 ∧ fld (creating.portal 0).arg0 11 0 = 0 ∧
      fld (creating.portal 0).arg3 2 0 = 0 ∧ fld (creating.portal 0).arg1 31 16 < 4 ∧ ringPortal (fld (creating.portal 0).arg2 63 32) = 0 ∧
      (creating.eng.rings.get (fld (creating.portal 0).arg2 63 32)).map (·.kind) = some .complete ∧ islandDenied creating 0 0 = false ∧
      findFrom (fun i => (creating.eng.rings.get (0 * 2 ^ 19 + i)).isNone) 524288 0 = some 0) ∧
    ((ring {}).portalOpen 0 = true ∧ ((ring {}).portal 0).cmdBusy = false ∧ (ring {}).domSt 17 = .on ∧ fld ((ring {}).portal 0).arg0 21 0 = 7 ∧
      7 / 2 ^ 19 = 0 ∧ (ring {}).eng.rings.get 7 = some {} ∧ (ring { st := .fenced }).eng.rings.get 7 = some { st := .fenced } ∧
      (ring { st := .error }).eng.rings.get 7 = some { st := .error }) ∧
    ((ring {}).domOn 17 = true ∧ (ring {}).eng.rings.get (0 * 2 ^ 19 + 7) = some {} ∧ ((64 : Word).truncate 32 - (0 : BitVec 32)).toNat < 2 ^ 31 ∧
      ((64 : Word).truncate 32 - (0 : BitVec 32)).toNat ≤ ({} : Ring).size) ∧
    ((ring {}).portalOpen 0 = true ∧ ((65 : Word).truncate 32 - (0 : BitVec 32)).toNat < 2 ^ 31 ∧ 2 ^ ({} : Ring).log2 < ((65 : Word).truncate 32 - (0 : BitVec 32)).toNat) ∧
    (let g : Ring := { st := .active, prod := 1 }
     (ring g).eng.rings.get 7 = some g ∧ g.occ ≠ 0 ∧ ((ring g).portal g.owner).ringsEn = true ∧ (ring g).domOn 17 = true ∧
       completeFull (ring g) g = false ∧ malformedEntry (subEntryOf []) = false ∧ roleMay ((ring g).portal g.owner).role (subEntryOf []).opcode.toNat = true ∧
       sealRefusal g (subEntryOf []) = none) ∧
    completeFull (drainWaiting (ring {}) 0 64) {} = false ∧
    (let g : Ring := { entryRing 0 [] 0 with paired := 7 }
     Serves (ring g) 7 0 0 g (fetched 0 [] 0) ∧ (ring g).eng.rings.get g.paired = some g) := by decide

/-- A state with an entry fetched and one context of number 1. -/
def withCtx (op : Nat) (args : List Byte) (x : Ctx) : State := (entry op args 0).onEng fun e => { e with ctxs := [(1, x)] }

/-- The same ring and context with a second SUBMIT ring, number 8. -/
def twoRings (args : List Byte) (len : Nat) : State := (entry 1 args len).onEng fun e => { e with rings := e.rings.set 8 {} }

/-- CTX_START's ARGS that bind ring 8. -/
def bindArgs : List Byte := List.replicate 8 0 ++ leBytes 4 (2 ^ 31 + 8)

/-- A portal that may use hewers, and a PENDING context of it. -/
def placeable : State := (port fun q => { q with hewerLimit := 1 }).onEng fun e => { e with ctxs := [(1, {})] }

theorem witness_ContextCommands :
    (Serves (entry 1 [] 8) 7 0 1 (entryRing 1 [] 8) (fetched 1 [] 8) ∧
      startRefusal (entry 1 [] 8) 0 (argsOf (fetched 1 [] 8)) (bufOf (fetched 1 [] 8) []) = none ∧ freeLocal (entry 1 [] 8) 0 = some 1 ∧
      (startCtx (entry 1 [] 8) 0 (entryRing 1 [] 8) (argsOf (fetched 1 [] 8)) (bufOf (fetched 1 [] 8) [])).ring = none) ∧
    (Serves (twoRings bindArgs 8) 7 0 1 (entryRing 1 bindArgs 8) (fetched 1 bindArgs 8) ∧
      startRefusal (twoRings bindArgs 8) 0 (argsOf (fetched 1 bindArgs 8)) (bufOf (fetched 1 bindArgs 8) []) = none ∧
      freeLocal (twoRings bindArgs 8) 0 = some 1 ∧
      (startCtx (twoRings bindArgs 8) 0 (entryRing 1 bindArgs 8) (argsOf (fetched 1 bindArgs 8)) (bufOf (fetched 1 bindArgs 8) [])).ring = some 8) ∧
    (Serves (withCtx 2 [1] {}) 7 0 2 (entryRing 2 [1] 0) (fetched 2 [1] 0) ∧ zeroAt (argsOf (fetched 2 [1] 0)) 6 34 = true ∧
      leAt (argsOf (fetched 2 [1] 0)) 0 4 = 1 ∧ (withCtx 2 [1] {}).eng.ctxs.get 1 = some {} ∧ isSystem 1 = false) ∧
    (withCtx 2 [1] { st := .halted }).eng.ctxs.get 1 = some { st := .halted } ∧
    (withCtx 2 [1] { st := .stopping }).eng.ctxs.get 1 = some { st := .stopping } ∧
    (let s := (entry 2 [1] 0).onEng fun e => { e with haltEnds := [(1, (entry 2 [1] 0).now)] }
     Serves s 7 0 2 (entryRing 2 [1] 0) (fetched 2 [1] 0) ∧ s.eng.ctxs.get 1 = none ∧ endedNow s 1 = true ∧ ctxPortal 1 = (entryRing 2 [1] 0).owner) ∧
    (Serves (withCtx 3 [1] { st := .faulted }) 7 0 3 (entryRing 3 [1] 0) (fetched 3 [1] 0) ∧ zeroAt (argsOf (fetched 3 [1] 0)) 4 36 = true ∧
      leAt (argsOf (fetched 3 [1] 0)) 0 4 = 1 ∧ (withCtx 3 [1] { st := .faulted }).eng.ctxs.get 1 = some { st := .faulted }) ∧
    (placeOrder placeable).findSome? (fun q => (placeFor placeable q.2).map fun w => (q, w)) = some ((1, {}), (0, 0)) ∧
    (let x : Ctx := { hewer := some (0, 0), core := { untilT := some 0 } }
     let s := (withCtx 0 [] x).onDom 1 fun y => { y with st := .off }
     s.eng.ctxs.get 1 = some x ∧ x.core.untilT = some 0 ∧ 0 ≤ s.now ∧ earliestWake s 0 = some 0 ∧ s.domSt (0 + 1) = .off) ∧
    (Serves (withCtx 4 [] {}) 7 0 4 (entryRing 4 [] 0) (fetched 4 [] 0) ∧ ctxPortal 1 = (entryRing 4 [] 0).owner ∧
      (((withCtx 4 [] {}).portal 0).mbo.getD 63 {}).full = false) ∧
    ((((withCtx 4 [] {}).onPortal 0 fun p => { p with mbo := [(63, { full := true })] }).portal 0).mbo.getD 63 {}).full = true := by
  and_intros <;> decide +kernel

/-- A fabric of one position, whose CLEAN agent is number 9. -/
def oneAgent (s : State) : State := (s.onTime fun t => { t with firstLock := true }).onFab fun f =>
  { f with st := .ready, plan := some (List.replicate 16 0 ++ [1, 1, 1, 1]), spliced := [(0, 9)], roster := [(9, { addr := 0, tenancy := .clean, found := true })] }

/-- ARGS that carve or bound the whole of it. -/
def carveArgs (h : Nat) : List Byte := leBytes 8 h ++ [1, 1, 1, 1]

/-- The fabric with an island, number 3. -/
def isle (l : Island) (s : State) : State := (oneAgent s).onIsles fun e => { e with islands := [(3, l)] }

/-- An open island of the one position. -/
def openIsle : Island := { st := .opn, pkey := 2, epoch := 1, low := [0, 0, 0, 0], shape := [1, 1, 1, 1], members := [0] }

/-- An image for the one position, of no slot, held in the cache as SCHED_ID 5. -/
def image : List Byte := List.replicate 8 0 ++ [1, 1, 1, 1, 15] ++ List.replicate 11 0 ++ [1] ++ List.replicate 75 0 ++ [1] ++ List.replicate 27 0

/-- The fabric with that image. -/
def cached (s : State) : State := s.onIsles fun e => { e with scheds := [(5, { image := image })] }

set_option maxRecDepth 20000 in
theorem witness_IslandCommands :
    (let s := oneAgent (entry 0x20 (carveArgs 0) 0)
     let a := argsOf (fetched 0x20 (carveArgs 0) 0)
     let q : SetPlan := { h := 1, epoch := 1, pkey := 1, low := lowOf 0, shape := shapeOf4 0x01010101, members := carveMembers s (lowOf 0) (shapeOf4 0x01010101)
                          moves := (carveMoves s (lowOf 0) (shapeOf4 0x01010101)).filter fun m => m.2.2 != 0, sched := 0, waits := [] }
     Serves s 7 0 0x20 (entryRing 0x20 (carveArgs 0) 0) (fetched 0x20 (carveArgs 0) 0) ∧ Journals s ∧ leAt a 0 2 = 0 ∧ leAt a 4 4 = 0 ∧
       leAt a 8 4 = 0x01010101 ∧ carveRefusal s a [] = none ∧ nextHandle s = some 1 ∧ nextKey s = some 1 ∧
       setRefusal (s.onIsles fun e => { e with islands := e.islands.set 1 {} }) q = none) ∧
    (let s := isle openIsle (entry 0x20 [3] 0)
     let a := argsOf (fetched 0x20 [3] 0)
     Serves s 7 0 0x20 (entryRing 0x20 [3] 0) (fetched 0x20 [3] 0) ∧ leAt a 0 2 = 3 ∧ boundaryRefusal s 3 a [] = none ∧
       s.isles.islands.get 3 = some openIsle ∧ nextKey s = some 1 ∧ boundaryMembers s openIsle a = [0] ∧
       setRefusal s { h := 3, epoch := 2, pkey := 2, low := [0, 0, 0, 0], shape := [1, 1, 1, 1], members := [0], moves := [], sched := 0, waits := [] } = none) ∧
    (let s := isle openIsle (entry 0x21 [3] 0)
     Serves s 7 0 0x21 (entryRing 0x21 [3] 0) (fetched 0x21 [3] 0) ∧ Journals s ∧ s.isles.islands.get 3 = some openIsle ∧
       zeroAt (argsOf (fetched 0x21 [3] 0)) 2 38 = true ∧ openIsle.release = none ∧ openIsle.st.releases = true ∧
       ({ openIsle with st := .boundary } : Island).st = .boundary ∧ ({ openIsle with release := some (7, 0) } : Island).release ≠ none) ∧
    (let s := isle openIsle (entry 0x22 [3] 0)
     Serves s 7 0 0x22 (entryRing 0x22 [3] 0) (fetched 0x22 [3] 0) ∧ strangeParty s 0 3 = false ∧ s.pins.debugUnlocked = false ∧ openIsle.st ≠ .carving ∧
       s.domSt 19 ≠ .fenced ∧ zeroAt (argsOf (fetched 0x22 [3] 0)) 2 6 = true) ∧
    (let s := isle openIsle (entry 0x23 [3, 0, 1] 0)
     Serves s 7 0 0x23 (entryRing 0x23 [3, 0, 1] 0) (fetched 0x23 [3, 0, 1] 0) ∧ strangeParty s 0 3 = false ∧ leAt (argsOf (fetched 0x23 [3, 0, 1] 0)) 2 1 = 1 ∧
       zeroAt (argsOf (fetched 0x23 [3, 0, 1] 0)) 3 37 = true ∧ openIsle.st.aborts = true) ∧
    ({ openIsle with abortWait := [0], abortSends := 7 } : Island).abortWait ≠ [] ∧
    (let a : List Byte := leBytes 8 3 ++ leBytes 8 5
     let s := cached (isle openIsle (entry 0x30 a 0))
     Serves s 7 0 0x30 (entryRing 0x30 a 0) (fetched 0x30 a 0) ∧ Journals s ∧ s.domSt 18 ≠ .fenced ∧ leAt (argsOf (fetched 0x30 a 0)) 2 1 < 8 ∧
       zeroAt (argsOf (fetched 0x30 a 0)) 3 5 = true ∧ zeroAt (argsOf (fetched 0x30 a 0)) 16 24 = true ∧ leAt (argsOf (fetched 0x30 a 0)) 0 2 = 3 ∧
       schedOf (wake s 18) (argsOf (fetched 0x30 a 0)) [] = some image ∧ schedRefusal (wake s 18) (argsOf (fetched 0x30 a 0)) [] image = none) ∧
    bufOf (fetched 0x30 [] 1) [] ≠ [] := by
  and_intros <;> decide +kernel

/-- An island of the one position with a lapsing token of party 2. -/
def consenting : State := (isle { openIsle with consent := [{ party := 2, notAfter := 4 }] } base).onTime fun t => { t with now := 5 }

/-- A sealed entry of an opcode, fetched at index 0 of ring 7 of portal 0. -/
def sealedEntry (op : Nat) : Fetched := { entry := { opcode := BitVec.ofNat 8 op, flags := 1, length := 2048 } }

/-- Its ring. -/
def sealedRing (op : Nat) : Ring := { st := .active, confidential := true, fetched := [sealedEntry op] }

/-- `base` with that ring. -/
def sealedState (op : Nat) : State := base.onEng fun e => { e with rings := [(7, sealedRing op)] }

theorem witness_TrustAndTelemetryCommands :
    (ServesSealed (sealedState 0x40) 7 0 0x40 (sealedRing 0x40) (sealedEntry 0x40) ∧
      ServesSealed (sealedState 0x41) 7 0 0x41 (sealedRing 0x41) (sealedEntry 0x41) ∧ Journals (sealedState 0x41)) ∧
    (∃ l, consenting.isles.islands.get 3 = some l ∧ ∃ k ∈ l.consent, k.party = 2 ∧ k.lapsed = false ∧ k.notAfter < consenting.now) ∧
    (let a := argsOf (fetched 0x50 [0, 0, 4] 0)
     let s := entry 0x50 [0, 0, 4] 0
     Serves s 7 0 0x50 (entryRing 0x50 [0, 0, 4] 0) (fetched 0x50 [0, 0, 4] 0) ∧ telemetryDenied s 0 (leAt a 0 2) (leAt a 2 1) = false ∧ leAt a 2 1 = 4 ∧
       leAt a 3 1 = 0 ∧ leAt a 4 4 < 2 ^ 28 ∧ zeroAt a 16 24 = true ∧ s.hasIu = true ∧ telemetry s 0 0 a = some (readCper s 0 0 0 0)) := by
  refine ⟨?_, ⟨_, rfl, ⟨_, List.mem_singleton.2 rfl, by decide +kernel⟩⟩, ?_⟩
  · and_intros <;> decide +kernel
  · and_intros <;> decide +kernel

/-- A running link retrain of the maintenance arbiter, number 4. -/
def retraining (a : Activity) : State := base.onPair fun p => { p with running := [a], retrains := [4] }

theorem witness_MaintenanceCommands :
    (let a : List Byte := [7, 0, 0, 0, 1]
     let s := entry 0x60 a 8
     let x := argsOf (fetched 0x60 a 8)
     Serves s 7 0 0x60 (entryRing 0x60 a 8) (fetched 0x60 a 8) ∧ leAt x 1 1 = 0 ∧ leAt x 2 2 = 0 ∧ leAt x 4 4 = 1 ∧ zeroAt x 16 24 = true ∧
       (bufOf (fetched 0x60 a 8) [0, 0, 0, 0, 0, 0, 0, 0x60]).length = 8 ∧ derivedClaims (leAt x 0 1) (wordAt x 8) = some [] ∧
       claimsGroups s ([] ++ listedClaims (bufOf (fetched 0x60 a 8) [0, 0, 0, 0, 0, 0, 0, 0x60])) = some [groupAnchor] ∧
       activityBarred s (leAt x 0 1) (wordAt x 8) (listedClaims (bufOf (fetched 0x60 a 8) [0, 0, 0, 0, 0, 0, 0, 0x60])) = false ∧ s.pair.queued.length < 256) ∧
    (let s := (entry 0x60 [0, 1, 4] 0).onPair fun p => { p with running := [{ id := 4, kind := 1 }] }
     Serves s 7 0 0x60 (entryRing 0x60 [0, 1, 4] 0) (fetched 0x60 [0, 1, 4] 0) ∧ leAt (argsOf (fetched 0x60 [0, 1, 4] 0)) 1 1 = 1 ∧
       stewardAct s (leAt (argsOf (fetched 0x60 [0, 1, 4] 0)) 2 2) = some { id := 4, kind := 1 }) ∧
    (stewardAct (retraining { id := 4, kind := 1 }) 4 = some { id := 4, kind := 1 } ∧
      (retraining { id := 4, kind := 1 }).pair.running.contains { id := 4, kind := 1 } = true ∧
      retrainWorks (retraining { id := 4, kind := 1 }) { id := 4, kind := 1 } = true ∧ (retraining {}).pair.retrains.contains 4 = true) := by
  and_intros <;> decide +kernel


/-- `base` with reference A valid, and the given state of the servo. -/
def timed (st : TimeState) : State :=
  base.onTime fun t => { t with st := st, a := { t.a with valid := true, ppsOk := true, syncOk := true, gradeOk := true, qualS := 3 } }

theorem witness_TimeReferenceCommands :
    (1000 < (1001 : Int).natAbs ∧ (-1000 : Int).natAbs ≤ 1000 ∧ base.pins.d0Up = true) ∧
    (let s := timed .unlocked
     let u := s.onTime fun y => y.onRef .a fun r => { r with qualS := Nat.max r.qualS 10 }
     (s.time.ref .a).valid = true ∧ s.time.st = .unlocked ∧ s.time.firstLock = false ∧ s.time.a.qualified = false ∧
       (u.time.a.qualified = false ∨ (Side.a : Side) = .a) ∧ firstTime u .a [] = some 0) ∧
    (((timed .hold).time.ref .a).valid = true ∧ (timed .hold).time.st = .hold ∧ (timed .hold).time.target = .a) ∧
    (let s := isle openIsle (timed .slew)
     s.time.st = .slew ∧ (s.time.ref s.time.target).valid = true ∧ (s.time.ref s.time.target).offset.natAbs ≤ 10) ∧
    (timed .holdover).time.st = .holdover := by
  and_intros <;> decide +kernel

/-- `base` paired with a peer at MAC 9 by the arbiter 5. -/
def paired (r : PairRole) : State :=
  base.onPair fun p => { p with paired := true, role := r, arbiter := 5, peerMac := 9, running := [{ id := 1, kind := 6 }] }

theorem witness_PairCommands :
    (base.pins.d0Up = true ∧ base.pair.paired = false ∧ base.pair.role = .unpaired) ∧
    (let s := (paired .active).onNv fun n => { n with durable := 4 }
     s.pins.d0Up = true ∧ s.pair.paired = true ∧ s.pair.arbiter = 5 ∧ s.pair.role = .active ∧ s.pair.peerLost = false ∧ s.pair.acked < s.nv.durable ∧
       runningAct s 6 0 ≠ none) ∧
    ((paired .standby).pair.arbiter = 5 ∧ (paired .standby).pair.paired = true ∧ (paired .standby).pair.role = .standby ∧ (paired .standby).pins.d0Up = true) ∧
    (let s := (boot 3).onPower fun p => { p with stopped := true }
     bootAt s 3 = true ∧ s.power.stopped = true) := by
  and_intros <;> decide +kernel

theorem witness_ShippingFrames :
    (let s := (paired .standby).onPair fun p => { p with rejoined := true }
     s.pins.d0Up = true ∧ s.pair.role = .standby ∧ s.pair.rejoined = true) ∧
    ((paired .active).pins.d0Up = true ∧ (paired .active).pair.paired = true ∧ (paired .active).pair.role = .active) ∧
    ((paired .standby).pair.role = .standby ∧ (paired .standby).pair.rejoined = false) ∧
    (let s := paired .standby
     s.pair.paired = true ∧ 0x88B6 = 0x88B6 ∧ 9 = s.pair.peerMac ∧ s.pair.rxSeq < 1) := by
  and_intros <;> decide +kernel

/-- A session of portal 0 at a phase of the negotiation. -/
def talking (k : Nat) (live : Bool) : State :=
  { base.onPortal 0 fun p => { p with peerHash := 1, session := { p.session with phase := k, live := live, dheGroup := 1 } } with lic := { evaluated := true } }

theorem witness_SpdmCommands :
    (∀ s ∈ [talking 3 false, talking 4 false, talking 5 true],
      s.hasPortal 0 = true ∧ (s.portal 0).st = .ready ∧ s.lic.evaluated = true ∧ s.domSt 19 ≠ .fenced ∧ 3 ≤ (s.portal 0).session.phase) ∧
    ((talking 3 false).portal 0).session.dheGroup = 1 ∧ ((talking 3 false).portal 0).session.live = false ∧
    ((wake (talking 3 false) 19).portal 0).peerHash ≠ 0 ∧ (List.replicate 1664 (0 : Byte)).length = 1664 ∧
    ((talking 4 false).portal 0).session.phase = 4 ∧ ((talking 5 true).portal 0).session.live = true := by
  refine ⟨by decide +kernel, ?_⟩
  and_intros <;> decide +kernel

theorem witness_CollectorCommands : base.pins.d0Up = true := by decide +kernel

/-- `base` with the persistent store changed. -/
def nv (f : Nv → Nv) : State := base.onNv f

theorem witness_StoreCommands :
    (nvDown base = false ∧ base.nv.ledgeOpn = [] ∧ blockPages base 0 = 256 ∧ (base.block 0).bad = false ∧ (base.block 0).retired = false ∧
      8 * ([] : List Word).length ≤ 16296) ∧
    ((nv fun n => { n with faceFull := true }).nv.faceFull = true ∧ (nv fun n => { n with heldWrites := [(7, 0)] }).nv.heldWrites.contains (7, 0) = true) ∧
    (let s := { base with time := { base.time with now := 2 ^ 64 } }
     retentionNs s 0 ≤ s.now - (s.block 0).programmed) ∧
    (∃ k u, internalAct base 8 (BitVec.ofNat 64 3) [groupItem 3] = (some k, u)) ∧
    (let s := nv fun n => { n with blocks := (List.range 26).map fun k => (k, { bad := true }) }
     spareSlc s 0 < 8) ∧
    ((nv fun n => { n with dressStep := 4, anchorTodo := [0, 3, 6] }).nv.anchorTodo.head? = some 0 ∧
      (nv fun n => { n with dressStep := 4, anchorTodo := [0, 3, 6] }).nv.dressStep = 4) ∧
    (let s := nv fun n => { n with dressMib := 0, face := List.replicate 64 { recs := [{ typ := 1, jsn := 9 }] } }
     nvDown s = false ∧ s.pair.role ≠ .standby ∧ s.nv.dressMib.toNat < faceMib s ∧ s.nv.dressStep < 2) ∧
    (∃ k u, internalAct (nv fun n => { n with dressMib := 0, face := List.replicate 64 { recs := [{ typ := 1, jsn := 9 }] } }) 9 0 [groupAnchor] = (some k, u)) ∧
    (let s := nv fun n => { n with face := [{ num := 5, recs := [{ typ := 1, jsn := 9 }] }] }
     nvDown s = false ∧ ((settleSingle s).nv.face[0]?).bind (fun p => copyChannel (settleSingle s) p.num true) = some (blockDie 12288 / 2)) ∧
    ((nv fun n => { n with dressStep := 2 }).nv.dressStep = 2 ∧ (nv fun n => { n with ledgeOpn := [{ typ := jFault }] }).nv.ledgeOpn ≠ [] ∧
      ledgeRoom (nv fun n => { n with ledgeOpn := [{ typ := jFault }] }) = true) := by
  refine ⟨?_, ?_, ?_, ⟨_, _, rfl⟩, ?_, ?_, ?_, ⟨_, _, rfl⟩, ?_, ?_⟩ <;> and_intros <;> decide +kernel

/-- An installation as island 3 with agent 5, in a phase, with an open TS_DATA under TAG 2. -/
def installing (ph : Phase) (waits : List Nat) (sends : Nat) : State :=
  (base.onIsles fun e => { e with installs := [(3, { phase := ph, members := [5], waiting := waits, sends := sends })] }).onFab fun f =>
    { f with reqs := [(reqKey 5 2, { agent := 5, tag := 2, kind := 0x0050 })] }

theorem witness_InstallationCommands :
    (∃ x, instOf (heard (installing .prepare [5] 1) 5) 5 (2 ^ 20 + 3) = some (3, x) ∧ x.phase = .prepare ∧ x.waiting.contains 5 = true) ∧
    (∃ x, instOf (heard (installing .commit [5] 1) 5) 5 (2 ^ 20 + 3) = some (3, x) ∧ x.waiting.contains 5 = true ∧ x.phase = .commit ∧
      (0 : BitVec 32).toNat % 65536 = 0) ∧
    (∃ q, (heard (installing .staging [] 1) 5).req 5 2 = some q ∧ q.kind = 0x0050 ∧ (2 : BitVec 32).toNat % 65536 = 2) ∧
    (∃ x, (installing .commit [5] 1).isles.installs.get 3 = some x ∧ x.waiting ≠ [] ∧ (x.waiting.filter fun i => !x.draining.contains i) ≠ [] ∧ x.sends < 17) ∧
    (∃ x, (installing .commit [5] 17).isles.installs.get 3 = some x ∧ x.waiting ≠ [] ∧ (x.waiting.filter fun i => !x.draining.contains i) ≠ [] ∧ 17 ≤ x.sends) ∧
    (∃ x, (onInst (installing .quiesce [5] 1) 3 fun y => { y with draining := [5] }).isles.installs.get 3 = some x ∧ x.waiting ≠ [] ∧
      (x.waiting.filter fun i => !x.draining.contains i) = []) ∧
    (∃ x, (installing .switches [] 1).isles.installs.get 3 = some x ∧ x.phase = .switches ∧ x.waiting = []) := by
  refine ⟨⟨_, rfl, ?_⟩, ⟨_, rfl, ?_⟩, ⟨_, rfl, ?_⟩, ⟨_, rfl, ?_⟩, ⟨_, rfl, ?_⟩, ⟨_, rfl, ?_⟩, ⟨_, rfl, ?_⟩⟩ <;> and_intros <;> decide +kernel

/-- A key of island 3, epoch 1, step 9, descriptor 2. -/
def key (tie : Bool) : DKey := { island := 3, epoch := 1, step := 9, desc := 2, group := 0, tie := tie }

/-- `base` with a test of agent 5 under a ticket of a context (0: the unit's own), a key, and a boundary that waits for a test of agent 5. -/
def judging (ctx : Nat) (tie : Bool) : State :=
  ((isle openIsle base).onInteg fun g => { g with tests := [(5, 1, 64, ctx, 1)], keys := [key tie] }).onIsles fun e =>
    { e with installs := [(3, { waits := [21] })] }

theorem witness_IntegrityUnitCommands :
    ((judging 0 false).portalOpen 0 = true ∧ shapeOf 8 8 = .whole ∧ shapeOf 0 8 = .whole) ∧
    ((heard (judging 0 false) 5).integ.tests.find? (fun y => y.1 == 5 && y.2.2.2.1 == 0) = some (5, 1, 64, 0, 1)) ∧
    ((heard (judging 7 false) 5).integ.tests.find? (fun y => y.1 == 5 && y.2.2.2.1 == 7) = some (5, 1, 64, 7, 1)) ∧
    ((judging 0 false).isles.installs.vals.any (fun x => x.waits.contains (4 * 5 + 1)) = true) ∧
    ((heard (judging 0 false) 5).hasIu = true ∧ (List.replicate 104 (0 : Byte)).length = 104 ∧ (heard (judging 0 false) 5).domSt 20 ≠ .fenced) ∧
    (findKey (judging 0 false) 3 1 9 2 0 = some (key false)) ∧
    (findKey (judging 0 true) 3 1 9 2 0 = some (key true) ∧ (judging 0 true).isles.islands.get 3 = some openIsle) ∧
    (let t : Ticket := { op := 0xB3, dom := 19 }
     let s := withCtx 1 [] { tickets := [(1, t)] }
     (s.eng.ctxs.get 1).bind (fun x => x.tickets.get 1) = some t) := by
  and_intros <;> decide +kernel

/-- `base` with agent 5 assigned, and a request of it open. -/
def asked (q : MgReq) : State :=
  base.onFab fun f => { f with roster := [(5, { addr := 9 })], reqs := [(reqKey 5 2, q)], eseq := [(5, 7)] }

theorem witness_AgentMessagesAtController :
    (let s := withCtx 1 [] {}
     ∃ x, s.eng.ctxs.get ({ w0 := 0x12000000, bcv := 1 } : Hdr).context = some x ∧ x.core.msgs.length < 64 ∧
       s.answersTo ({ w0 := 0x12000000, bcv := 1 } : Hdr).dst = true ∧ s.answersTo ({ w0 := 0x12000002, bcv := 1 } : Hdr).dst = false) ∧
    (let s := withCtx 1 [] { core := { msgs := List.replicate 64 [] } }
     ∃ x, s.eng.ctxs.get ({ w0 := 0x12000001, bcv := 1 } : Hdr).context = some x ∧ x.core.msgs.length = 64 ∧ x.hewer = none ∧
       s.answersTo ({ w0 := 0x12000001, bcv := 1 } : Hdr).dst = true) ∧
    (∀ q ∈ ([{ agent := 5, tag := 2, kind := 0x0001 }, { agent := 5, tag := 2, kind := 0x0040 }, { agent := 5, tag := 2, kind := 0x23, ctl := true },
        { agent := 5, tag := 2, kind := 0x21 }] : List MgReq),
      (heard (asked q) 5).req 5 (2 : BitVec 32).toNat = some q ∧ (asked q).req 5 2 = some q ∧ q.sends ≤ 8) ∧
    (((heard (asked {}) 5).roster 5).addr ≠ noAddr ∧ ((asked {}).roster 5).addr ≠ noAddr ∧ (0x80000000 : BitVec 32).getLsbD 31 = true ∧
      (2 : BitVec 32).getLsbD 31 = false) ∧
    ((heard (asked {}) 5).fab.mboxes.getD 5 {} = {} ∧ (heard (asked {}) 5).fab.eseq.get 5 = some 7 ∧ fld (2 : Word) 3 0 = 2 ∧ fld (3 : Word) 3 0 = 3) ∧
    ((heard ((asked {}).onFab fun f => { f with mboxes := [(5, { full := true })] }) 5).fab.mboxes.getD 5 {} = { full := true }) ∧
    ((((asked {}).onRoster 5 fun r => { r with tenancy := .scrubbing }).roster 5).tenancy = .scrubbing ∧
      (((asked {}).onRoster 5 fun r => { r with tenancy := .quarantined }).roster 5).tenancy = .quarantined) := by
  refine ⟨⟨_, rfl, by decide +kernel⟩, ⟨_, rfl, by decide +kernel⟩, ?_⟩
  and_intros <;> decide +kernel

/-- A trained link with one lane in use. -/
def trained : Link := { live := true, lanes := [(0, { inUse := true })], vcs := [(0, { credits := 1, depth := 1, free := 1 })] }

/-- An endpoint agent out of reset: link 0 trained, a flit waiting, a packet passing at input 0, port 3 dead, two flows, a held packet and a block read again. -/
def someAgent : Agent :=
  { inReset := false, links := [(0, trained)], outq := [(0, { q := [(0, [{}])] })], passing := [(0, {})], deadPorts := 8, slots := [(3, false)], assigned := true
    tx := [(flowKey 9 0, { out := [({}, 0)] })], rx := [(flowKey 9 0, { unacked := 1 })], heldInj := [{}], reread := some {}, reportDue := true
    integ := { selfTest := [(0, none)], chk := [(1, .compare)] }, bank := [(bankKey 4 0 0, at_ 1 20 ||| at_ 1 0), (bankKey 6 0 0, at_ 4 5 ||| at_ 3 36)] }

/-- `base` with one agent, number 5. -/
def withAgent (a : Agent) : State := { base with agents := [(5, a)] }

theorem witness_PacketCommands :
    (Live (withAgent someAgent) 5 someAgent ∧ someAgent.hc.isSwitch = false ∧ someAgent.deadPorts.getLsbD 3 = true ∧ someAgent.detoured.getLsbD 3 = false ∧
      someAgent.passing.get (8 * 0 + 0) = some {}) ∧
    (let a : Agent := { inReset := false, hc := { isSwitch := true } }
     Live (withAgent a) 5 a ∧ a.hc.isSwitch = true ∧ a.passing.get (8 * 16 + 0) = none) ∧
    (let a : Agent := { inReset := false, passing := [(128, { deliver := true })], slots := [(3, false)] }
     Live (withAgent a) 5 a ∧ a.passing.get (8 * 16 + 0) = some { deliver := true }) := by
  and_intros <;> decide +kernel

theorem witness_FlowCommands :
    (Live (withAgent someAgent) 5 someAgent ∧ someAgent.rx.get (flowKey 9 0) = some { unacked := 1 } ∧
      someAgent.tx.get (flowKey 9 0) = some { out := [({}, 0)] } ∧ 0 < fld (someAgent.param 0) 39 36 ∧ someAgent.fenced = false ∧ someAgent.abortFence = false ∧
      someAgent.assigned = true ∧ someAgent.reread = some {} ∧ someAgent.heldInj.find? (fun k => someAgent.mayStart (withAgent someAgent) k.hdr) = some {} ∧
      (someAgent.flowOf ({} : Hdr)).ended = false ∧ someAgent.slots = [] ++ (3, false) :: []) ∧
    (let a := { someAgent with tx := [(flowKey 9 0, { out := [({}, 4)] })] }
     Live (withAgent a) 5 a ∧ fld (a.param 0) 39 36 ≤ 4) ∧
    (let a := { someAgent with fenced := true, assigned := false }
     Live (withAgent a) 5 a ∧ a.fenced = true) ∧
    (let a := { someAgent with assigned := false }
     Live (withAgent a) 5 a ∧ ({} : Hdr).typ = 0 ∧ a.assigned = false) := by
  and_intros <;> decide +kernel

theorem witness_LinkCommands :
    (let a := someAgent
     let l := a.link 0
     Live (withAgent a) 5 a ∧ (a.outq.getD 0 {}).q.getD 0 [] = {} :: [] ∧ l.live = true ∧ a.vcOpen l 0 = true ∧
       a.mayServe l (a.outq.getD 0 {}) 0 = true ∧ (l.lane 0).inUse = true ∧ a.regimeB = false ∧ (a.parentLinks a.timeParent).contains 0 = true ∧
       a.reportDue = true ∧ a.assigned = true ∧ a.integ.selfTest.get 0 = some none ∧ a.integ.chk.getD 1 .primary = .compare ∧ a.integ.selfTest.get 1 = none) ∧
    (let a := { someAgent with links := [(0, { trained with vcs := [] })] }
     Live (withAgent a) 5 a ∧ (a.link 0).live = true ∧ a.vcOpen (a.link 0) 0 = false ∧ (a.outq.getD 0 {}).q.getD 0 [] = {} :: []) ∧
    (let a : Agent := { inReset := false }
     Live (withAgent a) 5 a ∧ (a.link 0).live = false ∧ a.mayTrain 0 = true) := by
  and_intros <;> decide +kernel

theorem witness_LinkSweepCommands : Live (withAgent someAgent) 5 someAgent := by and_intros <;> decide +kernel

/-- A request of controller unit 1 with TAG 3. -/
def ask : Req := { tag := 3 }

theorem witness_AgentManagementCommands :
    (let a : Agent := {}
     (withAgent a).agents.get 5 = some a ∧ a.inReset = true) ∧
    (let a : Agent := { inReset := false, outFull := true, outTag := 7 }
     Live (withAgent a) 5 a ∧ Asks (withAgent a) 5 a ask ∧ a.assigned = false ∧ a.spare = false ∧ a.inFull = false ∧ a.outFull = true ∧ a.outTag = 7) ∧
    (let a : Agent := { inReset := false, inFull := true }
     Asks (withAgent a) 5 a ask ∧ a.inFull = true ∧ a.outFull = false) ∧
    (let a : Agent := { inReset := false, answers := [(1, [(3, .mgAck 0)])] }
     Live (withAgent a) 5 a ∧ (a.answers.getD ask.ctrl []).find? (fun p => p.1 == ask.tag && ask.tag != 0) = some (3, .mgAck 0)) ∧
    (leAt (leBytes 8 5 ++ leBytes 4 9) 0 8 % 2 ^ 56 = 5 ∧ leAt (leBytes 8 5 ++ leBytes 4 9) 8 4 < 2 ^ 25 ∧ leAt (leBytes 8 6) 0 8 % 2 ^ 56 ≠ 5 ∧
      1 ≤ ([{}] : List RegItem).length) := by
  and_intros <;> decide +kernel

/-- An agent whose firmware is in a state, with one chunk due and an event sent. -/
def loadingAgent (l : Life) : Agent :=
  { inReset := false, life := l, manifest := { chunks := 1, bytes := 8 }, evt := { next := 3, acked := 1, spoil := 2 } }

theorem witness_EventAndFirmwareCommands :
    (let a := loadingAgent .loading
     Live (withAgent a) 5 a ∧ Asks (withAgent a) 5 a ask ∧ extendAck a.evt.next 2 = some 2 ∧ a.evt.acked < 2 ∧ a.evt.spoilPosted < a.evt.spoil ∧
       a.evt.spoilTime = none ∧ a.life = .loading ∧ 0 < a.manifest.chunks ∧
       (List.replicate 8 (0 : Byte)).length = Nat.min 4080 (a.manifest.bytes - 4080 * 0) ∧ a.chunks.contains 0 = false ∧ a.manifest.chunks ≤ 1) ∧
    (let a := loadingAgent .verifying
     Live (withAgent a) 5 a ∧ a.life = .verifying) := by
  and_intros <;> decide +kernel

theorem witness_ResetScrubAndKeyCommands :
    (let a : Agent := { inReset := false, rst := { level := 3 }, scrub := { step := 3 }, keys := { running := some {} }, stepRun := some 2 }
     Live (withAgent a) 5 a ∧ Asks (withAgent a) 5 a ask ∧ a.rst.level ≠ 0 ∧ a.rst.level < 4 ∧ a.scrub.step = 3 ∧ a.keys.running = some {} ∧
       a.keys.late = false ∧ a.hcLatched = false ∧ a.stepRun = some 2 ∧ a.stepQueue.contains 2 = false) ∧
    (let a : Agent := { inReset := false, rst := { level := 4 }, scrub := { step := 6 }, keys := { running := some {}, late := true } }
     Live (withAgent a) 5 a ∧ a.rst.level = 4 ∧ a.rst.late = false ∧ a.scrub.late = false ∧ a.scrub.step = 6 ∧ a.keys.running = some {} ∧ a.keys.late = true) ∧
    (let a : Agent := { inReset := false, rst := { level := 2, late := true }, scrub := { late := true, step := 3 } }
     Live (withAgent a) 5 a ∧ a.rst.late = true ∧ a.scrub.late = true ∧ 3 ≤ a.scrub.step) := by
  and_intros <;> decide +kernel

/-- An endpoint agent of island 3 at epoch 1 in an installation state. -/
def installed (st : TsState) (refill : Bool) (q : Option Req) : Agent :=
  { inReset := false, ts := { st := st, refill := refill, quiesce := q }
    bank := [(bankKey 6 0 4, at_ 3 48 ||| at_ 1 16)], stage := [(bankKey 6 0 4, at_ 3 48 ||| at_ 2 16)] }

theorem witness_AgentInstallationCommands :
    (∀ st ∈ [TsState.opn, .prepared, .held, .committed],
      (installed st false none).inReset = false ∧ (installed st false none).tsEpochOk 2 = true ∧ (installed st false none).tsEpochOk 3 = false ∧
        (installed st false none).hc.isSwitch = false ∧ (installed st false none).undrained = 0 ∧ (installed st false none).ts.st = st ∧
        (installed st false none).ts.refill = false ∧ (installed st true none).ts.refill = true) ∧
    (Live (withAgent (installed .held false (some ask))) 5 (installed .held false (some ask)) ∧ (installed .held false (some ask)).ts.quiesce = some ask ∧
      (installed .held false (some ask)).handle = 3 ∧ (3 : BitVec 32).toNat % 65536 = 3 ∧ (installed .held false none).abortFence = false) ∧
    (let a := { installed .prepared false none with tx := [(0, { out := [({}, 0)] })], abortFence := true }
     Live (withAgent a) 5 a ∧ a.ts.st = .prepared ∧ 0 < a.undrained ∧ a.tsEpochOk 2 = true ∧ a.abortFence = true) := by
  and_intros <;> decide +kernel

/-- A running test of slot 1. -/
def aTest : AgTest := { slot := 1, set := 9 }

/-- A RUNNING agent with a digest request, a report that awaits its answer, and a test of an entry without output. -/
def digesting (reset : Nat) : Agent :=
  { inReset := false, life := .running, rst := { level := reset }
    core := { mem := memStore (memStore [] (storeAt 1 + 4) (leBytes 4 1)) (entryAt aTest + 16) (wordBytes (digest64 [])) }
    integ := { queue := [{ descs := [2] }], reports := [{ tag := 4 }], test := some aTest } }

theorem witness_AgentIntegrityCommands :
    (let a := digesting 0
     Live (withAgent a) 5 a ∧ Asks (withAgent a) 5 a ask ∧ a.life = .running ∧ a.integ.queue.length < 4 ∧ a.busyReset = false ∧
       a.integ.queue = { descs := [2] } :: [] ∧ a.integ.reports.find? (fun r => r.tag == 4) = some { tag := 4 } ∧ a.integ.test = some aTest ∧
       digest64 (slice [] 0 (memLoad a.core.mem (entryAt aTest + 8) 8)) = BitVec.ofNat 64 (memLoad a.core.mem (entryAt aTest + 16) 8) ∧
       a.setCountOf aTest ≤ aTest.entry + 1 ∧ aTest.slot = 1) ∧
    (let a := { digesting 0 with core := { mem := memStore (digesting 0).core.mem (storeAt 1 + 4) (leBytes 4 2) } }
     Live (withAgent a) 5 a ∧ a.life = .running ∧ aTest.entry + 1 < a.setCountOf aTest ∧
       digest64 (slice [] 0 (memLoad a.core.mem (entryAt aTest + 8) 8)) = BitVec.ofNat 64 (memLoad a.core.mem (entryAt aTest + 16) 8)) ∧
    (let a : Agent := { inReset := false, integ := { reports := [{ tag := 4, sends := 9 }] } }
     Asks (withAgent a) 5 a ask ∧ a.life ≠ .running ∧ a.integ.test = none ∧ a.integ.reports.find? (fun r => r.tag == 4) = some { tag := 4, sends := 9 }) ∧
    (let a := { digesting 0 with core := { mem := memStore [] (entryAt aTest + 16) [1] } }
     Live (withAgent a) 5 a ∧ a.life = .running ∧ a.integ.test = some aTest ∧
       digest64 (slice [] 0 (memLoad a.core.mem (entryAt aTest + 8) 8)) ≠ BitVec.ofNat 64 (memLoad a.core.mem (entryAt aTest + 16) 8)) ∧
    (let a : Agent := { inReset := false, life := .running, integ := { queue := [{}, {}, {}, {}] } }
     Live (withAgent a) 5 a ∧ a.life = .running ∧ 4 ≤ a.integ.queue.length ∧ (0 : BitVec 32).getLsbD 8 = false ∧ a.integ.fig.violations = 0) ∧
    (([1] : List Byte) ≠ [] ∧ 0 + ([1] : List Byte).length ≤ 8192) := by
  and_intros <;> decide +kernel

/-! Aglek instructions: a context that runs at pc 0. -/

/-- `base` with context n running on hewer 0 of bench 0. -/
def running (n : Nat) (x : Ctx) : State := base.onEng fun e => { e with ctxs := [(n, { x with st := .running, hewer := some (0, 0) })] }

/-- Context 1 runs with the core `c`. -/
def run1 (c : Core) : State := running 1 { core := c }

/-- Every row of a list may run as the first instruction of context 1 with the fields `i`. -/
def AllRun (c : Core) (i : Ins) (rs : List Row) : Prop := ∀ r ∈ rs, Runs (run1 c) (.ctx 1) c i r

theorem witness_ScalarRegisterResults :
    AllRun {} {} [rowG 0x00 [0], rowG 0x01 [0], rowG 0x02 [0], rowG 0x03 [0, 1], rowG 0x04 [0, 1], rowG 0x05 [0, 1], rowG 0x06 [0], rowG 0x07 [0],
      rowG 0x08 [0], rowG 0x09 [0], rowG 0x0A [0, 1], rowG 0x0B [0], { rowG 0x0C [0, 1, 2, 3, 4, 5] with dst := .k }, rowG 0x0D [0, 1, 2, 3, 4, 5, 6, 7],
      { rowG 0x0E [0, 1, 2, 3, 4] with srcb := .unused }, rowG 0x0F [0, 1, 2, 3]] := by
  unfold AllRun; decide +kernel

theorem witness_ScalarImmediateResults :
    AllRun {} {} [rowGI 0x10 [0] 0xFFFFFFFF, rowGI 0x12 [0] 0xFFFFFFFF, rowGI 0x16 [0] 0xFFFFFFFF, rowGI 0x17 [0] 0xFFFFFFFF, rowGI 0x18 [0] 0xFFFFFFFF,
      rowGI 0x19 [0] 0x3F, rowGI 0x1A [0, 1] 0x3F, rowGI 0x1B [0] 0x3F, { rowGI 0x1C [0, 1, 2, 3, 4, 5] 0xFFFFFFFF with dst := .k },
      { rowG 0x1D [0, 1] with srca := .k, srcb := .unused }, { rowGI 0x1E [0, 1, 2] 0xFFFFFFFF with srca := .unused },
      { op := 0x1F, mods := [0, 1, 2, 3, 4, 5, 6], dst := .k, srca := .k, srcb := .k }] ∧
    AllRun {} { mod := 1 } [{ rowG 0x1D [0, 1] with dst := .k, srcb := .unused }] := by
  unfold AllRun; decide +kernel

theorem witness_BranchResults :
    AllRun { g := [(1, 2)] } { dst := 1 } [{ op := 0x21, srca := .unused, srcb := .unused, imm := 0xFFFFFFFF }, { op := 0x23, srcb := .unused, imm := 0xFFFFFFFF },
      { op := 0x24, srca := .unused, srcb := .unused, imm := 0xFFFFFFFF }] ∧
    AllRun {} {} [{ op := 0x20, dst := .unused, srca := .unused, srcb := .unused, imm := 0xFFFFFFFF }, { op := 0x22, dst := .unused, srcb := .unused, imm := 0xFFFFFFFF },
      { op := 0x24, srca := .unused, srcb := .unused, imm := 0xFFFFFFFF }] ∧
    (1 : BitVec 5).toNat ≠ 0 ∧ Core.opD { g := [(1, 2)] } { dst := 1 } ≠ 1 := by
  unfold AllRun; decide +kernel

theorem witness_ScalarMemoryResults :
    AllRun {} {} [{ op := 0x30, mods := [0, 1, 2, 3, 4, 5, 6], srcb := .unused, imm := 0xFFFFFFFF }, { op := 0x32, mods := [0, 1, 2, 3, 4, 5, 6], imm := 0xFFFFFFFF },
      { op := 0x31, mods := [0, 1, 2, 3], dst := .unused, imm := 0xFFFFFFFF }, { op := 0x33, mods := [0, 1, 2, 3], imm := 0xFFFFFFFF },
      { op := 0x34, mods := [0, 1, 2, 3, 4, 5, 6, 7, 8], imm := 0xFFFFFFFF }, { op := 0x35, imm := 0xFFFFFFFF }] ∧
    (∃ bs l, loadMem (run1 {}) (.ctx 1) 0 (sizeOfMod {}) 0 = .ok (bs, l)) ∧ (∃ l, storePlace (run1 {}) (.ctx 1) 0 (sizeOfMod {}) 0 = .ok l) ∧
    (∃ l, locate (run1 {}) (.ctx 1) 0 8 0 true = .ok l ∧ locBad (run1 {}) (.ctx 1) l = false) ∧ memWf ({} : Core).mem = true ∧
    memWf ((run1 {}).eng.benches.getD 3 {}).mem = true := by
  refine ⟨by unfold AllRun; decide +kernel, ⟨_, _, rfl⟩, ⟨_, rfl⟩, ⟨_, rfl, ?_⟩, ?_, ?_⟩ <;> decide +kernel

theorem witness_SystemInstructionResults :
    AllRun {} {} [{ op := 0xF0, srca := .unused, srcb := .unused, imm := 0xFFF }, { op := 0xF2, dst := .unused, srca := .unused, srcb := .unused, imm := 0xFFFFFFFF }] ∧
    AllRun {} { imm := 5 } [{ op := 0xF1, dst := .unused, srcb := .unused, imm := 0xFFF }] ∧
    (specialOf (run1 {}) (.ctx 1) 5).isSome = true ∧ ({ imm := 5 } : Ins).imm.toNat % 4096 = 5 := by
  unfold AllRun; decide +kernel

theorem witness_VectorResults :
    AllRun {} {} ([0x40, 0x41, 0x42].map (fun k => rowV k [0, 1]) ++ [0x43, 0x44, 0x45, 0x46, 0x47, 0x55].map (fun k => rowV k [0]) ++
      [rowV 0x48 [0, 1], rowV 0x49 [0, 1, 2, 3, 4, 5], { rowV 0x4A [0, 1, 2, 3, 4, 5, 8, 9, 10, 11] with dst := .k }, rowV 0x4B [0, 1, 2, 3, 4, 5, 6, 7],
        { rowV 0x4C [0] with srca := .g, srcb := .unused }, { rowV 0x4D [0] with dst := .g, srcb := .unused, imm := 0xF },
        { rowV 0x4E [0] with srca := .g, srcb := .unused, imm := 0xF }, { rowV 0x4F [0, 1, 2, 3] with srcb := .unused },
        { rowV 0x54 [0, 1, 2, 3, 4, 5, 6, 7, 8, 9, 10] with dst := .g, srcb := .unused }, { rowV 0x56 [0] with srca := .g, srcb := .unused, imm := 0xFFFFFFFF },
        { rowV 0x57 [0] with srcb := .unused }]) ∧
    AllRun {} { mod := 1 } ([0x40, 0x41, 0x42].map fun k => rowV k [0, 1]) ∧ AllRun {} { mod := 4 } [rowV 0x49 [0, 1, 2, 3, 4, 5]] := by
  unfold AllRun; decide +kernel

/-- Index offsets 0, 8, … of the lanes, and a data register apart from them. -/
def offsets : Core := { v := (List.range 16).map fun n => (16 + n, BitVec.ofNat 64 (8 * n)) }

theorem witness_VectorMemoryResults :
    AllRun offsets { srcb := 1 } ([0x52, 0x53].map fun k => { op := k, dst := .v, srca := .g, srcb := .v, imm := 0xFFFFFFFF, profile := false }) ∧
    AllRun offsets {} ([0x50, 0x51].map fun k => { op := k, dst := .v, srca := .g, srcb := .unused, imm := 0xFFFFFFFF, profile := false }) ∧
    (∀ p ∈ seqAddrs offsets {}, laneExc (run1 offsets) (.ctx 1) false p.2 p.1 = none ∧ laneExc (run1 offsets) (.ctx 1) true p.2 p.1 = none) ∧
    (∀ p ∈ offAddrs offsets { srcb := 1 }, laneExc (run1 offsets) (.ctx 1) false p.2 p.1 = none ∧ laneExc (run1 offsets) (.ctx 1) true p.2 p.1 = none) := by
  unfold AllRun; decide +kernel

/-- A parameter block of GPATH at address 0 with source 0, destination 1 and a limit of one hop, its output at 64. -/
def pathBlock : List Byte := leBytes 8 0 ++ leBytes 8 1 ++ leBytes 16 0 ++ leBytes 8 1 ++ leBytes 8 64 ++ leBytes 8 0

/-- A core with bytes at address 0. -/
def holdingBytes (bs : List Byte) : Core := { mem := memStore [] 0 bs }

/-- Context n runs under a plan of extents 2 × 2 × 2 × 2. -/
def planned (n : Nat) (c : Core) : State := (running n { core := c }).onFab fun f => { f with plan := some (List.replicate 16 0 ++ [2, 2, 2, 2]) }

theorem witness_GraphResults :
    (let s := planned 1 {}
     (∀ r ∈ ([{ op := 0x60, mods := [0, 1], srcb := .unused, profile := false }, { op := 0x61, mods := [0, 1], dst := .v, srcb := .unused, profile := false },
        { op := 0x62, mods := [0, 1], profile := false }] : List Row), Runs s (.ctx 1) {} {} r) ∧
     Runs s (.ctx 1) {} { mod := 1 } { op := 0x62, mods := [0, 1], profile := false } ∧ (vertexOf s 0).toOption = some 0 ∧ (vertexW s 0).toOption = some 0) ∧
    (let c := holdingBytes pathBlock
     let s := planned 1 c
     Runs s (.ctx 1) c {} { op := 0x63, mods := [0], srcb := .unused, profile := false } ∧ (paramBlock s (.ctx 1) 0 56).toOption = some pathBlock ∧
       (pathReq pathBlock).isSome = true ∧ (wordAt pathBlock 0x28).toNat % 8 = 0 ∧ storeRangeOk s (.ctx 1) (wordAt pathBlock 0x28) 32 = none ∧
       (vertexOf s 1).toOption = some 1) := by
  and_intros <;> decide +kernel

/-- Context n of an island with tickets runs with a core that holds bytes at address 0; table 0x100 has one element of one word, agent 4 is at address 0. -/
def withTable (n : Nat) (bs : List Byte) (es : Nat) : State :=
  ((planned n (holdingBytes bs)).onEng fun e => { e with tables := [(0x100, { portal := 0, es := es, count := 1 })] }).onFab fun f =>
    { f with roster := [(4, { addr := 0, life := .running })] }

/-- g0 reads zero; g1 names element 0 of table 0x100. -/
def handle1 : FMap Word := [(1, 0x100 <<< 48)]

/-- TPUSH's block: one element of table 0x100 to table 1 of the agent at address 0, by system context 2^20. -/
def pushBlock : List Byte := leBytes 8 (0x100 * 2 ^ 48) ++ leBytes 8 1 ++ leBytes 8 1 ++ leBytes 8 0 ++ leBytes 8 0

theorem witness_TableResults :
    (let c : Core := { g := handle1 }
     let s := (withTable 1 [] 4).onCtx 1 fun x => { x with core := c }
     let i : Ins := { srca := 1 }
     (∀ r ∈ ([{ op := 0x70, imm := 0x3F, srcb := .unused }, { op := 0x71, imm := 0x3F, dst := .unused }, { op := 0x72, imm := 0x3F, dst := .v, srcb := .unused, profile := false },
        { op := 0x73, imm := 0x3F, dst := .v, srcb := .unused, profile := false }, { op := 0x74, imm := 0x3F, mods := [0, 1, 2, 3, 4, 5, 6, 7, 8], profile := false },
        { op := 0x76, dst := .unused, srcb := .unused, profile := false }] : List Row), Runs s (.ctx 1) c i r) ∧
     (tableCheck s 1 (c.opA i) [0] true).toOption = some { es := 4, count := 1 } ∧ (tableCheck s 1 (c.opA i) (laneWords c i) true).toOption.isSome = true ∧
     tableFor s 1 (handleId (c.opA i)) = some { es := 4, count := 1 } ∧ handleId (c.opA i) = 0x100) ∧
    (let s := run1 {}
     Runs s (.ctx 1) {} {} { op := 0x75, mods := [0, 1, 2, 3, 4, 5, 6], srcb := .unused, profile := false } ∧
       findFrom (fun id => (s.eng.tables.get id).isNone) 65280 0x100 = some 0x100 ∧
       s.eng.tables.foldl (fun k q => k + q.2.bytes) 0 + ({ count := 0 } : Table).bytes = 0) ∧
    (let c := holdingBytes pushBlock
     let n := 2 ^ 20
     let s := withTable n pushBlock 0
     Runs s (.ctx n) c {} { op := 0x77, srcb := .unused, profile := false } ∧ (paramBlock s (.ctx n) 0 40).toOption = some pushBlock ∧ pushBlockOk pushBlock = true ∧
       (tableCheck s n (wordAt pushBlock 0) [0] false).toOption = some { count := 1 } ∧
       (pushPlan s n pushBlock).toOption = some [(some 4, [0])] ∧ (∃ tk, HasTicket s n tk) ∧ fld (wordAt pushBlock 0x10) 15 0 = 1 ∧
       tblCount 1 ≠ 0 ∧ tblWords 1 = 2 ^ 0 ∧ s.domSt 18 ≠ .fenced) := by
  refine ⟨?_, ?_, ?_, ?_, ?_, ?_, ?_, ⟨_, rfl⟩, ?_⟩ <;> and_intros <;> decide +kernel

theorem witness_MessageResults :
    (let s := planned 1 {}
     (∀ r ∈ ([{ op := 0x80, mods := [0, 1] }, { op := 0x81, mods := [0, 1], srcb := .unused }, { op := 0x82, srcb := .unused, imm := 0x3F },
        { op := 0x83, mods := [0, 1], srca := .unused, srcb := .k, imm := 0x3F }] : List Row), Runs s (.ctx 1) {} {} r) ∧
     (loadRange s (.ctx 1) 0 32).toOption.isSome = true ∧ storeRangeOk s (.ctx 1) 0 32 = none ∧ ({} : Core).msgs = []) ∧
    (let c : Core := { g := [(1, 0x2000000)] }
     let s := planned 1 c
     Runs s (.ctx 1) c { srcb := 1 } { op := 0x80, mods := [0, 1] } ∧ mayReach s 1 ((c.opB { srcb := 1 }).truncate 28) = true ∧
       fld (c.opB { srcb := 1 }) 63 28 = 0 ∧ s.ctrlValid ((c.opB { srcb := 1 }).truncate 28) = true) ∧
    (let c : Core := { msgs := [[1]] }
     Runs (run1 c) (.ctx 1) c {} { op := 0x81, mods := [0, 1], srcb := .unused } ∧ c.msgs = [1] :: []) ∧
    (let s := (run1 {}).onPortal 0 fun p => { p with mbi := [(0, { ctx := 1 })], mbo := [(0, { ctx := 1, full := true, word := 9 })] }
     ((s.portal 0).mbi.getD 0 {}).ctx = 1 ∧ ((s.portal 0).mbi.getD 0 {}).full = false ∧ (s.portal 0).mbIrqEn = false ∧
       (mboxRead s (.ctx 1) 0).toOption = some (some 9)) ∧
    (let c : Core := { g := [(1, 7)] }
     let i : Ins := { srcb := 1 }
     let g : Ring := { kind := .complete, prod := 1, st := .active }
     let s := (running 1 { core := c, ring := some 8 }).onEng fun e => { e with rings := [(7, g), (8, {})] }
     (s.eng.ctxs.get 1).bind (·.ring) = some 8 ∧ s.eng.rings.get 8 = some {} ∧ ({} : Ring).owner = g.owner ∧
     Runs s (.ctx 1) c i { op := 0x84, mods := [0, 1], profile := false } ∧ storeRangeOk s (.ctx 1) 0 64 = none ∧ c.opB i = BitVec.ofNat 64 7 ∧
       s.eng.rings.get 7 = some g ∧ g.owner = 0 ∧ g.kind = .complete ∧ g.stopped = false ∧ g.occ ≠ 0) ∧
    (let c : Core := { g := [(1, 7)] }
     let i : Ins := { srcb := 1, mod := 1 }
     let g : Ring := { st := .active }
     let s := (running 1 { core := c, ring := some 7 }).onEng fun e => { e with rings := [(7, g)] }
     Runs s (.ctx 1) c i { op := 0x85, mods := [0, 1, 2, 3], profile := false } ∧ (loadRange s (.ctx 1) 0 64).toOption.isSome = true ∧ i.mod.getLsbD 0 = true ∧
       s.eng.rings.get 7 = some g ∧ g.kind = .submit ∧ g.stopped = false ∧ g.occ < g.size) ∧
    (let g : Ring := { st := .active, paired := 9, fetched := [fetched 0 [] 0] }
     let s := (running 1 { core := {}, ring := some 7 }).onEng fun e => { e with rings := [(7, g), (9, { kind := .complete })] }
     Runs s (.ctx 1) {} {} { op := 0x85, mods := [0, 1, 2, 3], profile := false } ∧ s.eng.rings.get 7 = some g ∧ g.stopped = false ∧
       (g.fetched.find? fun f => f.index.toNat == leAt (List.replicate 64 0) 8 4) = some (fetched 0 [] 0) ∧ completeFull s g = false ∧
       (fetched 0 [] 0).entry.flags.getLsbD 0 = false ∧ ({} : Ins).mod.getLsbD 0 = false) := by
  and_intros <;> decide +kernel

/-- A ticket instruction of a context whose ticket 0 has a status. -/
abbrev TkRuns (st : Option Nat) (op : Nat) : Prop :=
  Runs (running 1 { tickets := [(0, { status := st })] }) (.ctx 1) {} {} { op := op, mods := [0], srcb := .unused, profile := false } ∧
    (((running 1 { tickets := [(0, { status := st })] }).eng.ctxs.get 1).bind fun y => y.tickets.get 0) = some { status := st }

theorem witness_TimeAndSleepResults :
    AllRun {} {} [{ op := 0x90, mods := [0, 1], srca := .unused, srcb := .unused }] ∧
    AllRun { g := [(1, 5)] } { srca := 1 } [{ op := 0x91, mods := [0], srcb := .unused, imm := 0x3F }] ∧
    AllRun { causes := 0x20 } { mod := 1 } [{ op := 0x91, mods := [1], srca := .unused, srcb := .unused, imm := 0x3F }] ∧
    AllRun {} { mod := 1 } [{ op := 0x91, mods := [1], srca := .unused, srcb := .unused, imm := 0x3F }] ∧
    AllRun {} { mod := 2 } [{ op := 0x91, mods := [2], dst := .unused, srca := .unused, srcb := .unused }] ∧
    TkRuns none 0x92 ∧ TkRuns none 0x93 ∧ TkRuns (some 0) 0x92 ∧ TkRuns (some 0) 0x93 ∧
    ((run1 { g := [(1, 5)] }).now < 5 ∧ (0x20 : BitVec 6) &&& ((0 : BitVec 32).truncate 6 ||| 0x20) ≠ 0) := by
  unfold AllRun; and_intros <;> decide +kernel

/-- The system context 2^20 with zeros in memory. -/
def sys (c : Core) : State := ((isle openIsle (running (2 ^ 20) { core := c })).onFab fun f => { f with roster := [(4, { addr := 0, life := .running })] })

theorem witness_TrustAndIntegrityInstructionResults :
    (let who := Who.ctx (2 ^ 20)
     let s := sys {}
     (∀ k ∈ [0xB0, 0xB1, 0xB3, 0xB4, 0xC3, 0xC5], Runs s who {} {} { op := k, srcb := .unused, profile := false }) ∧
     (∀ k ∈ [0xC0, 0xC1, 0xC2, 0xC4], Runs s who {} {} { op := k }) ∧ Runs s who {} {} { op := 0xB2, srca := .unused, srcb := .unused, profile := false } ∧
     (paramBlock s who 0 24).toOption = some (List.replicate 24 0) ∧ (paramBlock s who 0 16).toOption = some (List.replicate 16 0) ∧
     (loadRange s who 0 0).toOption = some [] ∧ storeRangeOk s who 0 48 = none ∧ isSystem (2 ^ 20) = true ∧ (∃ tk, HasTicket s (2 ^ 20) tk) ∧
     s.domOn 19 = true ∧ s.hasIu = true ∧ s.domSt 20 ≠ .fenced ∧ s.agentAt 0 = some 4 ∧ (s.roster 4).life = .running ∧ s.integ.tests = [] ∧
     (({ s with integ := { s.integ with keys := [{}] } } : State).integ.keys.filter fun k => k.island == 0 && k.step == 0 && k.desc == 0 && !k.tie) ≠ []) ∧
    (let c : Core := { g := [(1, 3)] }
     Runs (sys c) (.ctx (2 ^ 20)) c { srca := 1 } { op := 0xA1, srcb := .unused, profile := false } ∧ (sys c).isles.islands.get (fld (c.opA { srca := 1 }) 15 0) = some openIsle ∧
       openIsle.st ≠ .free) := by
  refine ⟨⟨?_, ?_, ?_, ?_, ?_, ?_, ?_, ?_, ⟨_, rfl⟩, ?_⟩, ?_⟩ <;> and_intros <;> decide +kernel

/-- ECOMMIT's block: island 3, the epoch after its present one, key 9, and a list of one ticket at address 64. -/
def commitBlock : List Byte :=
  leBytes 8 3 ++ leBytes 8 (openIsle.epoch + 1) ++ leBytes 8 9 ++ leBytes 8 64 ++ leBytes 8 1 ++ List.replicate 24 0 ++ leBytes 8 1

theorem witness_EpochCommitStarts :
    (let c := holdingBytes commitBlock
     let n := 2 ^ 20
     let s := { isle openIsle (running n { core := c, tickets := [(1, { status := some 0 })] }) with lic := { maxIslands := 2 } }
     let bs := commitBlock.take 40
     Runs s (.ctx n) c {} { op := 0xA0, srcb := .unused, profile := false } ∧ (paramBlock s (.ctx n) 0 40).toOption = some bs ∧
       zeroAt bs 2 6 = true ∧ zeroAt bs 0x0C 4 = true ∧ zeroAt bs 0x12 6 = true ∧ leAt bs 0x20 8 = 1 ∧
       (loadRange s (.ctx n) (wordAt bs 0x18) 8).toOption = some (leBytes 8 1) ∧ (∃ tk, (s.eng.ctxs.get n).bind freeTicket = some tk ∧
         commitRefusal (Ticketed s n tk { op := 0xA0, dom := 18 } c {} 30) 3 (leAt bs 8 4) (leAt bs 0x10 2) false = none)) := by
  and_intros <;> decide +kernel

/-! Witnesses of the statements about the machine as a whole. -/

theorem witness_StepRunsFrontCommand : ({ base with pending := [.idcode, .bypass] } : State).pending = [.idcode, .bypass] := by decide +kernel

theorem witness_IdleBlockTicks : base.pending = [] ∧ base.pins.d0Up = true ∧ base.power.raiseTo ≤ base.power.floor ∧
    (base.onPower fun p => { p with raiseTo := p.floor + 2 }).power.floor < (base.onPower fun p => { p with raiseTo := p.floor + 2 }).power.raiseTo ∧ State.reset.pending = [] ∧ State.reset.pins.d0Up = false := by
  decide +kernel

theorem witness_ResetValues : (7 : Nat) < 8 ∧ (23 : Nat) ≠ 0 := by decide

theorem witness_AglekWordRoundTrip : (255 : Nat) < 256 ∧ opReserved 0xF2 = false ∧ opReserved 0x57 = false ∧ opReserved 0x11 = true ∧ opReserved 0xFF = true ∧
    (aglekInstr (.ctx 1) [] 0x1028C0A0FFFFFFF0).isSome = true ∧ aglekInstr (.ctx 1) [] 0x5800000000000000 = none := by decide +kernel

theorem witness_SkippedInstructionOnlyRetires :
    (let i : Ins := { neg := true }
     aglekRow (.idigest (.ctx 1) i []) = some (.ctx 1, i) ∧ coreOf (run1 {}) (.ctx 1) = some {} ∧ (run1 {}).executes (.ctx 1) = true ∧
       (({} : Core).mask i).getLsbD 0 = false) := by
  decide +kernel

theorem witness_RegisterInstructionFrame :
    (∀ p ∈ [((.add (.ctx 1) { dst := 5 } : Instr), Use.g), (.cmp (.ctx 1) { dst := 5 }, .k), (.vadd (.ctx 1) { dst := 5 }, .v), (.swr (.ctx 1) { imm := 5 }, .unused)],
      (coreRow p.1).any (fun r => r.who == .ctx 1 && r.dst == p.2 && !r.mem && (({} : Core).mask r.ins).getLsbD 0) = true) ∧
    coreOf (run1 {}) (.ctx 1) = some {} ∧ (run1 {}).executes (.ctx 1) = true := by
  decide +kernel

/-- g1 holds the address of the last byte of scratch that a word reaches, and v0 lane 0 the distance to it. -/
def topWord : Core := { g := [(1, 0x3FFF8)], v := [(0, 0x3FFF8)] }

theorem witness_MemoryInstructionFrame :
    let s := run1 topWord
    coreOf s (.ctx 1) = some topWord ∧
      (storePlace s (.ctx 1) (topWord.opA { srca := 1 } + ({} : Ins).simm) 8 0).toOption = some (.own 0x3FFF8) ∧
      (storePlace s (.ctx 1) (indexed topWord { srca := 1, mod := 3 }) 8 0).toOption = some (.own 0x3FFF8) ∧
      touches (.ctx 1) (.own 0x3FFF8) 8 (.ctx 1) (.own 0x3FFFF) = true ∧ touches (.ctx 1) (.own 0x3FFF8) 8 (.ctx 1) (.own 0x3FFF7) = false ∧
      (seqAddrs topWord {}).length = 16 ∧ (offAddrs topWord {}).head? = some (0, 0x3FFF8) ∧
      (locate s (.ctx 1) 0x3FFF8 8 0 true).toOption = some (.own 0x3FFF8) := by
  and_intros <;> decide +kernel

theorem witness_DivisionCorners :
    let c : Core := { g := [(1, 0x8000000000000000), (2, -1), (3, 7)] }
    Runs (run1 c) (.ctx 1) c { srca := 1 } (rowG 0x04 [0, 1]) ∧ Runs (run1 c) (.ctx 1) c { srca := 1, srcb := 2 } (rowG 0x05 [0, 1]) ∧
      c.opB { srca := 1 } = 0 ∧ c.opA { srca := 1 } = 0x8000000000000000 ∧ c.opB { srcb := 2 } = -1 := by
  and_intros <;> decide +kernel

theorem witness_PowerRegisterAccess :
    base.hasPortal 0 = true ∧ base.portalOpen 0 = true ∧ (base.portal 0).role = .steward ∧ base.portalOpen 1 = true ∧ (base.portal 1).role ≠ .steward ∧
      ([0, 0, 0, 0] : List Byte).length = 4 := by
  decide +kernel

theorem witness_DoorbellRules :
    (let g : Ring := { st := .active, log2 := 6, prod := 0xFFFFFFFF, cons := 0xFFFFFFFF }
     let s := ring g
     s.portalOpen 0 = true ∧ s.eng.rings.get 7 = some g ∧ s.eng.rings.get 8 = none ∧ g.st ≠ .error ∧
       ((0 : BitVec 32) - g.prod).toNat < 2 ^ 31 ∧ ¬2 ^ g.log2 < ((0x3F : BitVec 32) - g.cons).toNat ∧ 2 ^ g.log2 < ((0x40 : BitVec 32) - g.cons).toNat ∧
       ¬((0xFFFFFFFE : BitVec 32) - g.prod).toNat < 2 ^ 31) ∧
    (let g : Ring := { kind := .complete, st := .active, prod := 5 }
     (ring g).eng.rings.get 7 = some g ∧ (g.prod - g.cons).toNat < ((6 : BitVec 32) - g.cons).toNat ∧ ¬(g.prod - g.cons).toNat < ((5 : BitVec 32) - g.cons).toNat) := by
  decide +kernel

theorem witness_RoleRefusal :
    let g : Ring := { st := .active, prod := 1, owner := 1 }
    let raw (op : Byte) : List Byte := op :: List.replicate 63 0
    let s := { ring g with portals := [(1, { st := .ready, role := .party, ringsEn := true })] }
    s.eng.rings.get 7 = some g ∧ g.occ ≠ 0 ∧ g.ctx = 0 ∧ (s.portal g.owner).ringsEn = true ∧ s.domOn 17 = true ∧ completeFull s g = false ∧
      (∀ op ∈ [0x10, 0x40], malformedEntry (subEntryOf (raw op)) = false) ∧ (s.portal g.owner).role = .party ∧
      (subEntryOf (raw 0x10)).opcode.toNat = 0x10 ∧ (subEntryOf (raw 0x40)).flags.getLsbD 0 = false := by
  decide +kernel

theorem witness_PortalIndependence :
    FMap.wf (run1 {}).eng.ctxs = true ∧ (∃ t, exec (.ptResetGo 0) (run1 {}) = .next t) ∧ (∃ t, exec (.doorbellWrite 0 56 8 1) (run1 {}) = .next t) :=
  ⟨by decide +kernel, ⟨_, rfl⟩, ⟨_, rfl⟩⟩

theorem witness_CoreRunStaysCanonical : CoreRun { base with pending := [.add (.ctx 1) {}, .vst (.ctx 1) {}] } := by
  refine ⟨by decide, by decide, by decide, by decide, ?_, ?_, ?_⟩ <;> intro n x h <;> cases h

/-! Tests of decoding, stepping and well-formedness. -/

theorem test_step_front : step { base with pending := [.idcode, .bypass] } = exec .idcode { base with pending := [.bypass] } := rfl

theorem test_no_table_word : decodeTableWord 64 0 = none ∧ State.withFetchWord base 64 0 = base := ⟨rfl, rfl⟩

/-- An ill-formed command for each check. -/
theorem test_wf_refuses :
    [Instr.pcieConfigRequest 8, .entryFetch (2 ^ 22) (.entry (List.replicate 64 0)), .entryFetch 0 (.entry []), .wakeEvent 0, .wakeEvent 24, .islandReleaseResume 0,
      .flitSend 5 16 0, .flitSend (2 ^ 56) 0 0, .detourApply 5 8, .codewordEnd 5 0 4 0, .ptMboDataWrite 0 64 0, .add (.ctx (2 ^ 24)) {},
      .add (.agent (2 ^ 56)) {}, .benchPrewake 16, .pllLockLoss 21, .blockErase 16384 true, .nvRead 0 1024 .snapshot .good, .anchorGeneration 1 true,
      .consentLapse 3 8, .maintActivityEnd 65536 0].all (fun i => !i.wf) = true := by
  decide +kernel

theorem test_wf_accepts : (Instr.entryFetch (2 ^ 22 - 1) (.entry (List.replicate 64 0))).wf = true ∧ (Instr.entryFetch 0 .shadowError).wf = true ∧ (Instr.wakeEvent 23).wf = true := by decide +kernel

/-! Examples of the spec. -/

/-- The core of context 1 after a command, where it completes. -/
def after (a : Ans) : Option Core :=
  match a with
  | .next t => coreOf t (.ctx 1)
  | .fault _ => none
  | .refused _ => none

/-- R126: (!k2) ADDI g5, g3, −16 with k2 zero adds −16 to g3. -/
theorem test_addi_example :
    (after (exec (.addi (.ctx 1) { dst := 5, srca := 3, pred := 2, neg := true, imm := 0xFFFFFFF0 }) (run1 { g := [(3, 20)] }))).map (·.getG 5) = some 4 := by
  decide +kernel

/-- R138: CMPI.LTU g4, −1 is false only for all ones. -/
theorem test_cmpi_example :
    [(0xFFFFFFFFFFFFFFFF : Word), 0xFFFFFFFFFFFFFFFE].map (fun v =>
      (after (exec (.cmpi (.ctx 1) { dst := 1, srca := 4, mod := 4, imm := 0xFFFFFFFF }) (run1 { g := [(4, v)] }))).map (·.getK 1)) =
      [some 0, some 0xFFFF] := by
  decide +kernel

/-- R142: AMO.ADD of 1 to a word holding 10 reads 10 and leaves 11. -/
theorem test_amo_example :
    (after (exec (.amo (.ctx 1) { dst := 3, srca := 1, srcb := 2 }) (run1 { g := [(1, 64), (2, 1)], mem := [(64, 10)] }))).map (fun c => (c.getG 3, memLoad c.mem 64 8)) =
      some (10, 11) := by
  decide +kernel

/-- R135: lane 12 meets MEM_SPACE, lane 3 MISALIGNED; lane 5, inactive, holds an address outside every space. MISALIGNED of lane 3 is raised. -/
theorem test_vgather_example :
    (let c : Core := { v := [(3, 1), (5, 0xFFFFFFFF00000000), (12, 0x1000000)], k := [(1, 0xFDDF)] }
     let s := run1 c
     let i : Ins := { dst := 1, pred := 1 }
     worstExc ((offAddrs c i).filterMap fun p => laneExc s (.ctx 1) false p.2 p.1) = some { code := xMisaligned, info := 1, lane := 3 }) := by
  decide +kernel
end Sys2Proof.Tests
end

