-- ==== Sys2Proof/Proofs/PowerRegisters.lean ====
section
/-! PROOF. Access to the LH_ registers by shape and role, and the power registers of Tables 2.5 to 2.8 among them (R68, R85). -/

namespace Sys2Proof.Machine

/-! Words and their bytes. -/

@[simp] theorem length_leBytes (n v : Nat) : (leBytes n v).length = n := by
  induction n generalizing v with
  | zero => rfl
  | succ n ih => simp [leBytes, ih]

theorem leVal_leBytes (n v : Nat) : leVal (leBytes n v) = v % 256 ^ n := by
  induction n generalizing v with
  | zero => simp [leBytes, leVal, Nat.mod_one]
  | succ n ih => simp [leBytes, leVal, ih, Nat.pow_succ', Nat.mod_mul]

@[simp] theorem length_wordBytes (w : Word) : (wordBytes w).length = 8 := length_leBytes 8 _

theorem leVal_wordBytes (w : Word) : leVal (wordBytes w) = w.toNat := by
  rw [wordBytes, leVal_leBytes]
  exact Nat.mod_eq_of_lt w.isLt

@[simp] theorem wordAt_wordBytes (w : Word) : wordAt (wordBytes w) 0 = w := by
  rw [wordAt, leAt, List.drop_zero, List.take_of_length_le (by simp), leVal_wordBytes, BitVec.ofNat_toNat, BitVec.setWidth_eq]

/-! Shapes of an access (Table 3.10). -/

theorem shapeOf_eight {off : Nat} (ha : off % 8 = 0) : shapeOf off 8 = .whole := by simp [shapeOf, ha]

theorem shapeOf_four {off : Nat} (ha : off % 4 = 0) : shapeOf off 4 = .half (off % 8 == 4) := by simp [shapeOf, ha]

theorem wide_eq_false {size : Nat} (off : Nat) (h : size ≤ 8) : wide off size = false := by
  simp [wide, Nat.not_lt.mpr h]

/-- A read of all 8 bytes takes the whole register. -/
theorem addressed_eight (w : Word) {off : Nat} (ha : off % 8 = 0) : addressed w off 8 = w := by
  have hones : BitVec.ofNat 64 (2 ^ (8 * 8) - 1) = BitVec.allOnes 64 := rfl
  rw [addressed, ha, hones, BitVec.and_allOnes]
  exact BitVec.ushiftRight_zero w

/-! The LH_ page of the map: the offsets below 0x1000 (Table 3.2). It lies in no unit window, so an access meets no sleeping, fenced or absent domain. -/

section
variable {s : State} {p off : Nat}

theorem hasPortal_of_portalOpen (ho : s.portalOpen p = true) : s.hasPortal p = true := (Bool.and_eq_true_iff.mp ho).1

theorem windowDom_lh (hl : off < 0x1000) : windowDom off = none := by
  rw [windowDom, if_neg (by omega), if_neg (by omega)]

theorem absentAt_lh (s : State) (hl : off < 0x1000) : absentAt s off = false := by rw [absentAt, windowDom_lh hl]

theorem listed_lh (hl : off < 0x1000) : listed off = true := by simp [listed, hl]

theorem lhPt_lh (hl : off < 0x1000) : lhPt off = true := decide_eq_true (by omega)

/-- LH_ registers are read in a partition reset too (R119). -/
theorem partOk_read_lh (hp : s.hasPortal p = true) (hl : off < 0x1000) : partOk s p false false off = true := by
  simp [partOk, hp, listed_lh hl, lhPt_lh hl]

theorem partOk_write_lh (ho : s.portalOpen p = true) (hl : off < 0x1000) : partOk s p false true off = true := by
  simp [partOk, ho, hasPortal_of_portalOpen ho, listed_lh hl]

theorem clearRc_lh (s : State) (p : Nat) (hl : off < 0x1000) : clearRc s p off = s := by
  rw [clearRc, if_neg (by omega), if_neg (by omega)]

/-- A whole read of an LH_ register gives its word and changes nothing. -/
theorem readPart_lh_whole (s : State) (p : Nat) (hl : off < 0x1000) (ha : off % 8 = 0) :
    readPart s p off 8 = s.emit (.readValue p (regWord s p off)) := by
  have hfloor : off / 8 * 8 = off := by omega
  simp only [readPart, windowDom_lh hl, readNow, if_true, clearRc_lh s p hl, hfloor, addressed_eight _ ha]

theorem readAccess_lh_whole (hp : s.hasPortal p = true) (hl : off < 0x1000) (ha : off % 8 = 0) :
    readAccess s p false off 8 = s.emit (.readValue p (regWord s p off)) := by
  simp [readAccess, wide_eq_false off (Nat.le_refl 8), shapeOf_eight ha, partOk_read_lh hp hl, readPart_lh_whole s p hl ha]

theorem writePart_lh (s : State) (p : Nat) (w : Word) (hl : off < 0x1000) : writePart s p off w = lhWrite s p off w := by
  simp only [writePart, windowDom_lh hl, if_pos hl]
  exact if_neg (by omega)

/-- A whole write of an LH_ register is the register's own. -/
theorem writeAccess_lh_whole (w : Word) (ho : s.portalOpen p = true) (hl : off < 0x1000) (ha : off % 8 = 0) :
    writeAccess s p false off (wordBytes w) = lhWrite s p off w := by
  simp [writeAccess, wide_eq_false off (Nat.le_refl 8), shapeOf_eight ha, partOk_write_lh ho hl, absentAt_lh s hl, writePart_lh s p w hl]

/-- No LH_ register is among the split-writable ones, PT_CTRL and PT_FAULT_STATUS. -/
theorem writeHalf_lh (s : State) (p : Nat) (hi : Bool) (w : Word) (hl : off < 0x1000) :
    writeHalf s p off hi w = accessSize s p false 4 off := by
  rw [writeHalf, if_neg (by omega)]

/-- Whatever the role, a write of half an LH_ register is an access-size fault (R85; log 139). -/
theorem writeAccess_lh_half {half : List Byte} (ho : s.portalOpen p = true) (hl : off < 0x1000) (ha : off % 4 = 0) (hh : half.length = 4) :
    writeAccess s p false off half = accessSize s p false 4 off := by
  simp [writeAccess, hh, wide_eq_false off (show 4 ≤ 8 by decide), shapeOf_four ha, partOk_write_lh ho hl, absentAt_lh s hl, writeHalf_lh s p _ _ hl]

/-! The instructions, where the access reaches the map. -/

theorem exec_rcRegisterRead_bar0 (off size : Nat) (hp : s.hasPortal p = true) :
    exec (.rcRegisterRead p false true off size) s = .next (readAccess s p false off size) := by
  simp [exec, execRcRegisterRead, hp]

theorem exec_registerWrite_bar0 (off : Nat) (data : List Byte) (ho : s.portalOpen p = true) :
    exec (.registerWrite p false true off data) s = .next (writeAccess s p false off data) := by
  simp [exec, execRegisterWrite, hasPortal_of_portalOpen ho]

end

/-! The power registers. -/

/-- The offset of LH_PD_STATE, LH_PD_STATE_HI, LH_PD_HOLD or LH_PD_IDLE (Tables 2.5 to 2.8). -/
def PowerOffset (off : Nat) : Prop := off = 0x100 ∨ off = 0x108 ∨ off = 0x110 ∨ off = 0x118

theorem PowerOffset.aligned {off : Nat} (h : PowerOffset off) : off % 8 = 0 := by unfold PowerOffset at h; omega

theorem PowerOffset.le {off : Nat} (h : PowerOffset off) : off ≤ 0x118 := by unfold PowerOffset at h; omega

theorem PowerOffset.stewardOnly {off : Nat} (h : PowerOffset off) : stewardOnly off = true := by
  obtain rfl | rfl | rfl | rfl := h <;> rfl

theorem lhWrite_of_not_steward {s : State} {p off : Nat} (w : Word) (hs : stewardOnly off = true) (hr : (s.portal p).role ≠ .steward) :
    lhWrite s p off w = regDenied s p off := if_pos ⟨hs, hr⟩

/-- What the steward's whole write does: the state registers ignore it, LH_PD_HOLD wakes what it names, and LH_PD_IDLE stores the value as written (log 137). -/
theorem lhWrite_power_of_steward {s : State} {p off : Nat} (w : Word) (h : PowerOffset off) (hr : (s.portal p).role = .steward) :
    lhWrite s p off w =
      (let done := s.emit (.writeDone p)
       if off = 0x110 then setHold done w
       else if off = 0x118 then done.onPower fun q =>
         { q with fyIdleMs := BitVec.ofNat 16 (fld w 47 32), chIdleUs := BitVec.ofNat 16 (fld w 31 16), benchIdleUs := BitVec.ofNat 16 (fld w 15 0) }
       else done) := by
  have hrole : ¬(stewardOnly off = true ∧ (s.portal p).role ≠ .steward) := fun hd => hd.2 hr
  simp only [lhWrite, if_neg hrole]
  obtain rfl | rfl | rfl | rfl := h <;> rfl

/-- Settles O55: the four registers lie in the LH_ page, so a whole access reaches them and a half one is dropped; the role is asked by `stewardOnly`. -/
theorem powerRegisterAccess : Obligations.PowerRegisterAccess := by
  intro s p off w half (hoff : PowerOffset off)
  have ha := hoff.aligned
  have hle := hoff.le
  have hl : off < 0x1000 := by omega
  refine ⟨fun hp => ?read, fun ho hr => ?denied, fun ho hr => ?steward, fun ho hh => ⟨?low, ?high⟩⟩
  case read => rw [exec_rcRegisterRead_bar0 off 8 hp, readAccess_lh_whole hp hl ha]
  case denied =>
    rw [exec_registerWrite_bar0 off _ ho, writeAccess_lh_whole w ho hl ha, lhWrite_of_not_steward w hoff.stewardOnly hr, regDenied]
  case steward => rw [exec_registerWrite_bar0 off _ ho, writeAccess_lh_whole w ho hl ha, lhWrite_power_of_steward w hoff hr]
  case low => rw [exec_registerWrite_bar0 off _ ho, writeAccess_lh_half ho hl (by omega) hh]
  case high => rw [exec_registerWrite_bar0 (off + 4) _ ho, writeAccess_lh_half ho (by omega) (by omega) hh]

end Sys2Proof.Machine
end

