-- ==== Sys2Proof/Proofs/Doorbells.lean ====
section
/-! PROOF. The checks of a doorbell in the order of R98, and the indexes of a ring, which settling and waking leave as they are (R97, R98). -/

namespace Sys2Proof.Machine

/-! A wake event touches the domains alone. -/

@[simp] theorem State.onDom_eng (s : State) (d : Nat) (f : Dom → Dom) : (s.onDom d f).eng = s.eng := rfl

@[simp] theorem wakeOne_eng (s : State) (d : Nat) : (wakeOne s d).eng = s.eng := by
  unfold wakeOne
  repeat' split
  all_goals rfl

@[simp] theorem wake_eng (s : State) (d : Nat) : (wake s d).eng = s.eng := by
  unfold wake
  refine List.foldlRecOn (motive := fun t : State => t.eng = s.eng) _ _ rfl fun t ht d' _ => ?_
  rw [wakeOne_eng, ht]

/-! The indexes of a ring. -/

/-- PROD and CONS of a ring that exists. -/
def State.indexes (s : State) (r : Nat) : Option (BitVec 32 × BitVec 32) := (s.eng.rings.get r).map fun g => (g.prod, g.cons)

/-- A change of a ring that leaves its PROD and CONS as they are. -/
def KeepsIndexes (f : Ring → Ring) : Prop := ∀ g, (f g).prod = g.prod ∧ (f g).cons = g.cons

section
variable (s : State) (r i : Nat)

theorem indexes_of_rings {s u : State} (h : u.eng.rings = s.eng.rings) (r : Nat) : u.indexes r = s.indexes r := by
  rw [State.indexes, h, State.indexes]

@[simp] theorem indexes_wake (d : Nat) : (wake s d).indexes r = s.indexes r := indexes_of_rings (by rw [wake_eng]) r

@[simp] theorem indexes_onCtx (c : Nat) (f : Ctx → Ctx) : (s.onCtx c f).indexes r = s.indexes r := rfl

/-- A change of any ring that keeps its indexes keeps those of every ring. -/
theorem indexes_onRing {f : Ring → Ring} (hf : KeepsIndexes f) : (s.onRing i f).indexes r = s.indexes r := by
  by_cases hr : r = i
  · subst hr
    simp [State.indexes, FMap.get_upd_same, Function.comp_def, hf _]
  · simp [State.indexes, FMap.get_upd_ne _ _ _ _ hr]

@[simp] theorem indexes_setRingSt (st : RingState) : (setRingSt s i st).indexes r = s.indexes r :=
  indexes_onRing s r i fun g => by split <;> exact ⟨rfl, rfl⟩

@[simp] theorem indexes_settleRing : (settleRing s i).indexes r = s.indexes r := by
  unfold settleRing
  split
  · rfl
  · split
    · exact indexes_setRingSt ..
    · split
      · exact indexes_setRingSt ..
      · rfl

@[simp] theorem indexes_resumeCtx (c : Nat) (x : Ctx) : (resumeCtx s c x).indexes r = s.indexes r := by
  unfold resumeCtx
  cases x.ring with
  | none => exact indexes_onCtx ..
  | some j =>
    refine (indexes_onRing _ r j ?_).trans (indexes_onCtx ..)
    exact fun _ => ⟨rfl, rfl⟩

@[simp] theorem indexes_setCause (c bit : Nat) : (setCause s c bit).indexes r = s.indexes r := by
  unfold setCause
  repeat' split
  all_goals simp

@[simp] theorem indexes_wakeBlocked : (wakeBlocked s i).indexes r = s.indexes r := by
  unfold wakeBlocked
  refine List.foldlRecOn (motive := fun t : State => t.indexes r = s.indexes r) _ _ rfl fun t ht q _ => ?_
  split
  · exact (indexes_setCause ..).trans ht
  · exact ht

end

/-- The host's index of a ring: PROD of a SUBMIT ring, CONS of any other (R95). -/
def hostIndex (k : RingKind) (i : BitVec 32 × BitVec 32) : BitVec 32 := if k = .submit then i.1 else i.2

/-- An accepted doorbell moves the host's index of its ring to the index that it carries; what it settles and wakes moves no index. -/
theorem hostIndex_doorbellAccept {s : State} {r : Nat} {g : Ring} (idx : BitVec 32) (hr : s.eng.rings.get r = some g) :
    ((doorbellAccept s r g idx).indexes r).map (hostIndex g.kind) = some idx := by
  unfold doorbellAccept
  by_cases hk : g.kind = .submit
  · have hmoved : (s.onRing r fun y => { y with prod := idx }).indexes r = some (idx, g.cons) := by
      simp [State.indexes, FMap.get_upd_same, hr]
    rw [if_pos hk]
    repeat' split
    all_goals simp [hmoved, hostIndex, hk]
  · have hmoved : (s.onRing r fun y => { y with cons := idx }).indexes r = some (g.prod, idx) := by
      simp [State.indexes, FMap.get_upd_same, hr]
    rw [if_neg hk]
    split
    all_goals simp [hmoved, hostIndex, hk]

/-! The checks of R98, one equation per outcome. -/

/-- The new index is ahead of the host's current one (R98 rule 2). -/
def Ring.ahead (g : Ring) (idx : BitVec 32) : Prop := (idx - if g.kind = .submit then g.prod else g.cons).toNat < 2 ^ 31

/-- The new index asks for more entries than a SUBMIT ring holds, or passes PROD of any other ring (R98 rules 3 and 4). -/
def Ring.past (g : Ring) (idx : BitVec 32) : Prop :=
  (g.kind = .submit ∧ g.size < (idx - g.cons).toNat) ∨ (g.kind ≠ .submit ∧ (g.prod - g.cons).toNat < (idx - g.cons).toNat)

section
variable {s : State} {r : Nat} {g : Ring} {idx : BitVec 32} (p off size : Nat)

theorem doorbell_of_none (idx : BitVec 32) (hr : s.eng.rings.get r = none) : doorbell s p r off size idx = doorbellStale s p off size := by
  simp only [doorbell, hr]

theorem doorbell_of_stale (hr : s.eng.rings.get r = some g) (h : g.st = .error ∨ ¬g.ahead idx) :
    doorbell s p r off size idx = doorbellStale s p off size := by
  simp only [doorbell, hr]
  by_cases he : g.st = .error
  · rw [if_pos he]
  · have hstale := Nat.le_of_not_lt (h.resolve_left he)
    rw [if_neg he, if_pos hstale]

theorem doorbell_of_past (hr : s.eng.rings.get r = some g) (he : g.st ≠ .error) (ha : g.ahead idx) (hp : g.past idx) :
    doorbell s p r off size idx = ringOverrun s p r off idx := by
  simp only [doorbell, hr]
  rw [if_neg he, if_neg (Nat.not_le_of_lt ha)]
  obtain hsub | ⟨hk, hcons⟩ := hp
  · exact if_pos hsub
  · rw [if_neg fun h => hk h.1, if_neg hk, if_pos ⟨hk, hcons⟩]

theorem doorbell_of_within (hr : s.eng.rings.get r = some g) (he : g.st ≠ .error) (ha : g.ahead idx) (hp : ¬g.past idx) :
    doorbell s p r off size idx = doorbellAccept s r g idx := by
  obtain ⟨hsub, hcons⟩ := not_or.mp hp
  simp only [doorbell, hr]
  rw [if_neg he, if_neg (Nat.not_le_of_lt ha), if_neg hsub, if_neg]
  rintro ⟨hk, hlt⟩
  rw [if_neg hk] at hlt
  exact hcons ⟨hk, hlt⟩

end

/-- The doorbell of local ring `n`, written whole or in its low half, reaches the engine's checks, with the wake of D17 (R97). -/
theorem exec_doorbellWrite_checks {s : State} {p n size : Nat} (w : Word) (ho : s.portalOpen p = true) (hn : n < 2 ^ 19) (hsize : size = 8 ∨ size = 4) :
    exec (.doorbellWrite p (8 * n) size w) s =
      .next (doorbell (wake (s.emit (.writeDone p)) 17) p (p * 2 ^ 19 + n) (8 * n) size (w.truncate 32)) := by
  obtain ⟨hp, hst⟩ := Bool.and_eq_true_iff.mp ho
  have hin : ¬(!s.hasPortal p ∨ 0x400000 ≤ 8 * n) := by simp [hp]; omega
  have hring : 8 * n / 8 = n := by omega
  have ha : 8 * n % 8 = 0 := by omega
  simp only [exec, execDoorbellWrite, if_neg hin, if_neg (bne_iff_ne.mp hst), hring]
  obtain rfl | rfl := hsize
  · simp only [shapeOf_eight ha]
  · simp [shapeOf_four (show 8 * n % 4 = 0 by omega), ha]

/-- Settles O56: the write reaches `doorbell`, whose outcomes are one equation each, and nothing after the acceptance moves the host's index. -/
theorem doorbellRules : Obligations.DoorbellRules := by
  intro s p n size w g ho hn hsize r t idx stale overrun host ahead past
  have hchecks : exec (.doorbellWrite p (8 * n) size w) s = .next (doorbell t p r (8 * n) size idx) := exec_doorbellWrite_checks w ho hn hsize
  have hrings : t.eng.rings = s.eng.rings := by rw [wake_eng, State.emit_eng]
  rw [hchecks, ← hrings]
  refine ⟨fun hr => ?missing, fun hr h => ?stale, fun hr he ha hp => ?overrun, fun hr he ha hp => ⟨?accepted, ?index⟩⟩
  case missing => rw [doorbell_of_none p _ size idx hr, doorbellStale]
  case stale => rw [doorbell_of_stale p _ size hr h, doorbellStale]
  case overrun => exact ⟨idx, by rw [doorbell_of_past p _ size hr he ha hp, ringOverrun]⟩
  case accepted => rw [doorbell_of_within p _ size hr he ha hp]
  case index => simpa [State.indexes, hostIndex, Function.comp_def] using hostIndex_doorbellAccept idx hr

end Sys2Proof.Machine
end

