-- ==== Sys2Proof/Proofs/Division.lean ====
section
/-! PROOF. Division and remainder at their corners, the sign of a signed remainder, and the identity that rebuilds the dividend (R137). -/

namespace Sys2Proof.Machine

open Sys2Proof.Safety

/-! A zero divisor. -/

theorem divS_zero (a : Word) : divS a 0 = -1 := if_pos rfl

theorem divU_zero (a : Word) : divU a 0 = -1 := if_pos rfl

theorem remS_zero (a : Word) : remS a 0 = a := if_pos rfl

theorem remU_zero (a : Word) : remU a 0 = a := if_pos rfl

/-! Any other divisor. -/

theorem divS_of_ne {b : Word} (a : Word) (hb : b ≠ 0) : divS a b = BitVec.ofInt 64 (a.toInt.tdiv b.toInt) := if_neg hb

theorem remS_of_ne {b : Word} (a : Word) (hb : b ≠ 0) : remS a b = BitVec.ofInt 64 (a.toInt.tmod b.toInt) := if_neg hb

theorem divU_of_ne {b : Word} (a : Word) (hb : b ≠ 0) : divU a b = BitVec.ofNat 64 (a.toNat / b.toNat) := if_neg hb

theorem remU_of_ne {b : Word} (a : Word) (hb : b ≠ 0) : remU a b = BitVec.ofNat 64 (a.toNat % b.toNat) := if_neg hb

/-- The least signed word over −1 overflows to itself. -/
theorem divS_intMin_neg_one : divS 0x8000000000000000 (-1) = 0x8000000000000000 := by decide

theorem remS_neg_one (a : Word) : remS a (-1) = 0 := by
  have hne : (-1 : Word) ≠ 0 := by decide
  have hint : (-1 : Word).toInt = -1 := by decide
  rw [remS_of_ne a hne, hint, Int.tmod_neg, Int.tmod_one]
  rfl

/-! The sign of a signed remainder. -/

/-- The library's signed remainder gives the dividend for a zero divisor too. -/
theorem remS_eq_srem (a b : Word) : remS a b = a.srem b := by
  by_cases hb : b = 0
  · subst hb
    exact (remS_zero a).trans BitVec.srem_zero.symm
  · rw [remS_of_ne a hb, ← BitVec.toInt_srem, BitVec.ofInt_toInt]

theorem remS_eq_zero_or_msb_eq (a b : Word) : remS a b = 0 ∨ (remS a b).msb = a.msb := by
  rw [remS_eq_srem]
  by_cases hr : a.srem b = 0
  · exact .inl hr
  · exact .inr (by rw [BitVec.msb_srem, decide_eq_true hr, Bool.and_true])

/-! Quotient and remainder rebuild the dividend: as numbers they do, and reduction to a word keeps sums and products. -/

/-- A zero divisor leaves the remainder alone, whatever the quotient. -/
theorem mul_zero_add_word (q a : Word) : q * 0 + a = a := (congrArg (· + a) BitVec.mul_zero).trans (BitVec.zero_add a)

theorem divS_mul_add_remS (a b : Word) : divS a b * b + remS a b = a := by
  by_cases hb : b = 0
  · rw [hb, remS_zero, mul_zero_add_word]
  · calc divS a b * b + remS a b
        = BitVec.ofInt 64 (a.toInt.tdiv b.toInt * b.toInt + a.toInt.tmod b.toInt) := by
          rw [divS_of_ne a hb, remS_of_ne a hb, BitVec.ofInt_add, BitVec.ofInt_mul, BitVec.ofInt_toInt]
      _ = a := by rw [Int.tdiv_mul_add_tmod, BitVec.ofInt_toInt]

theorem divU_mul_add_remU (a b : Word) : divU a b * b + remU a b = a := by
  by_cases hb : b = 0
  · rw [hb, remU_zero, mul_zero_add_word]
  · calc divU a b * b + remU a b
        = BitVec.ofNat 64 (a.toNat / b.toNat * b.toNat + a.toNat % b.toNat) := by
          rw [divU_of_ne a hb, remU_of_ne a hb, BitVec.ofNat_add, BitVec.ofNat_mul, BitVec.ofNat_toNat, BitVec.setWidth_eq]
      _ = a := by rw [Nat.div_add_mod', BitVec.ofNat_toNat, BitVec.setWidth_eq]

/-! The instructions. -/

section
variable {s : State} {who : Who} {c : Core} {i : Ins}

theorem exec_div_runs (h : Runs s who c i (rowG 0x04 [0, 1])) :
    exec (.div who i) s =
      .next (Retired s who (c.setG i.dst.toNat (if i.mod = 0 then divS (c.opA i) (c.opB i) else divU (c.opA i) (c.opB i))) 36 66) :=
  congrArg Host.Outcome.next (runReg_runs h 36 66 _)

theorem exec_rem_runs (h : Runs s who c i (rowG 0x05 [0, 1])) :
    exec (.rem who i) s =
      .next (Retired s who (c.setG i.dst.toNat (if i.mod = 0 then remS (c.opA i) (c.opB i) else remU (c.opA i) (c.opB i))) 36 66) :=
  congrArg Host.Outcome.next (runReg_runs h 36 66 _)

end

/-- Settles O54: each corner is the value of the quotient or remainder there, and the identity is that of the integers reduced to a word. -/
theorem divisionCorners : Obligations.DivisionCorners := by
  refine ⟨?_, fun a b => ⟨divS_mul_add_remS a b, divU_mul_add_remU a b⟩⟩
  intro s who c i d a b
  refine ⟨fun hr hb => ?divZero, fun hr hb => ?remZero, fun hr hm ha hb => ?divOverflow, fun hr hm ha hb => ?remOverflow, fun hr hm => ?remSign⟩
  case divZero =>
    rw [exec_div_runs hr, show c.opB i = 0 from hb, divS_zero, divU_zero, ite_self]
    rfl
  case remZero => rw [exec_rem_runs hr, show c.opB i = 0 from hb, remS_zero, remU_zero, ite_self]
  case divOverflow =>
    rw [exec_div_runs hr, if_pos hm, show c.opA i = 0x8000000000000000 from ha, show c.opB i = -1 from hb, divS_intMin_neg_one]
  case remOverflow => rw [exec_rem_runs hr, if_pos hm, show c.opB i = -1 from hb, remS_neg_one]
  case remSign => exact ⟨remS a b, by rw [exec_rem_runs hr, if_pos hm], remS_eq_zero_or_msb_eq a b⟩

end Sys2Proof.Machine
end

