-- ==== Sys2Proof/Proofs/AglekWords.lean ====
section
/-! PROOF. The instruction word of Table 4.2: its fields fill it, and its opcode is either reserved or spells one command (R122, R123). -/

namespace Sys2Proof.Machine

open Sys2Proof.Safety

/-- Which field each bit of an instruction word belongs to (Table 4.2). -/
theorem getLsbD_encodeWord (op : Nat) (i : Ins) (j : Nat) :
    (encodeWord op i).getLsbD j =
      if j < 32 then i.imm.getLsbD j else if j < 37 then i.mod.getLsbD (j - 32) else if j < 38 then i.neg
      else if j < 41 then i.pred.getLsbD (j - 38) else if j < 46 then i.srcb.getLsbD (j - 41)
      else if j < 51 then i.srca.getLsbD (j - 46) else if j < 56 then i.dst.getLsbD (j - 51)
      else (BitVec.ofNat 8 op).getLsbD (j - 56) := by
  refine BitVec.getLsbD_append.trans ?_
  simp only [BitVec.getLsbD_append, BitVec.getLsbD_ofBool, Nat.sub_sub]
  grind

/-- The fields of a word lie where they were put. -/
theorem decodeWord_encodeWord {op : Nat} (i : Ins) (h : op < 256) : decodeWord (encodeWord op i) = (op, i) := by
  have hop : (encodeWord op i).extractLsb' 56 8 = BitVec.ofNat 8 op := by
    ext j hj
    simp [getLsbD_encodeWord]
    grind
  obtain ⟨dst, srca, srcb, pred, neg, mod, imm⟩ := i
  simp only [decodeWord, hop, BitVec.toNat_ofNat, Nat.mod_eq_of_lt h, Prod.mk.injEq, Ins.mk.injEq, true_and]
  refine ⟨?dst, ?srca, ?srcb, ?pred, ?neg, ?mod, ?imm⟩
  case neg => exact getLsbD_encodeWord ..
  all_goals
    ext j hj
    simp [getLsbD_encodeWord]
    grind

/-- A word is the word of what it spells. -/
theorem encodeWord_decodeWord (w : Word) : encodeWord (decodeWord w).1 (decodeWord w).2 = w := by
  apply BitVec.eq_of_getLsbD_eq
  intro j hj
  rw [getLsbD_encodeWord]
  simp only [decodeWord, BitVec.getLsbD_extractLsb', BitVec.ofNat_toNat, BitVec.setWidth_eq]
  grind

theorem decodeWord_opcode_lt (w : Word) : (decodeWord w).1 < 256 := (w.extractLsb' 56 8).isLt

section
variable (who : Who) (i : Ins) (host : List Byte)

/-- Whether an opcode has a command does not depend on what the command carries. -/
theorem opcodeInstr_isNone_congr (who' : Who) (i' : Ins) (host' : List Byte) (op : Nat) :
    (opcodeInstr who i host op).isNone = (opcodeInstr who' i' host' op).isNone := by
  unfold opcodeInstr
  split <;> rfl

/-- The assigned opcodes of Table 4.3's groups are those with a command. -/
theorem opcodeInstr_isNone {op : Nat} (h : op < 256) : (opcodeInstr who i host op).isNone = opReserved op :=
  have hall : ∀ op < 256, (opcodeInstr (.ctx 0) {} [] op).isNone = opReserved op := by decide +kernel
  (opcodeInstr_isNone_congr ..).trans (hall op h)

variable {who i host}

/-- The command of an opcode carries the fields that it was given. -/
theorem aglekRow_of_opcodeInstr {op : Nat} {x : Instr} (h : opcodeInstr who i host op = some x) : aglekRow x = some (who, i) := by
  unfold opcodeInstr at h
  split at h
  case h_83 =>
    cases h
    repeat' split
    all_goals rfl
  all_goals cases h <;> rfl

end

/-- Settles O49: bit by bit, each field lies in its own place of the word, and the commands stand at the assigned opcodes. -/
theorem aglekWordRoundTrip : Obligations.AglekWordRoundTrip := by
  refine ⟨fun op i h => decodeWord_encodeWord i h, fun w => ⟨encodeWord_decodeWord w, decodeWord_opcode_lt w⟩, ?_, ?_⟩
  · intro who host op i h hassigned
    have hsome := opcodeInstr_isNone who i host h
    rw [hassigned, Option.isNone_eq_false_iff, Option.isSome_iff_exists] at hsome
    obtain ⟨x, hx⟩ := hsome
    refine ⟨x, ?_, aglekRow_of_opcodeInstr hx⟩
    rw [aglekInstr, decodeWord_encodeWord i h, hx]
  · intro who host w
    rw [← opcodeInstr_isNone who (decodeWord w).2 host (decodeWord_opcode_lt w), Option.isNone_iff_eq_none, aglekInstr]

end Sys2Proof.Machine
end

