-- ==== Sys2Proof/Proofs/Bookkeeping.lean ====
section
/-! PROOF. What bookkeeping leaves alone: fault records, wakes, the journal, what agents send, completions and wake causes change no queue of commands, no portal, and no memory of a core or bench. -/

namespace Sys2Proof.Machine

open Sys2Proof.Safety

/-- Nothing of the portals, the engine, the command queue or any core has changed. -/
structure Aside (s t : State) : Prop where
  pending : t.pending = s.pending
  portals : t.portals = s.portals
  eng : t.eng = s.eng
  agents : ∀ id, (t.agents.get id).map (·.core) = (s.agents.get id).map (·.core)
  agentsWf : FMap.wf s.agents = true → FMap.wf t.agents = true

/-- A core has kept its memory, and its one form if it had it. -/
def Noted (c d : Core) : Prop := d.mem = c.mem ∧ (CoreCanonical c → CoreCanonical d)

/-- No command queue, portal or memory has changed, and every core and every table of cores and benches has kept its one form. -/
structure Keeps (s t : State) : Prop where
  pending : t.pending = s.pending
  portals : t.portals = s.portals
  benchMem : ∀ b, (t.eng.benches.getD b {}).mem = (s.eng.benches.getD b {}).mem
  benchesWf : FMap.wf s.eng.benches = true → FMap.wf t.eng.benches = true
  ctxs : ∀ n, Option.Rel Noted ((s.eng.ctxs.get n).map (·.core)) ((t.eng.ctxs.get n).map (·.core))
  ctxsWf : FMap.wf s.eng.ctxs = true → FMap.wf t.eng.ctxs = true
  agents : ∀ id, Option.Rel Noted ((s.agents.get id).map (·.core)) ((t.agents.get id).map (·.core))
  agentsWf : FMap.wf s.agents = true → FMap.wf t.agents = true

theorem Noted.refl (c : Core) : Noted c c := ⟨rfl, id⟩

theorem Noted.trans {c d e : Core} (h : Noted c d) (k : Noted d e) : Noted c e := ⟨k.1.trans h.1, k.2 ∘ h.2⟩

theorem Noted.rel_refl (o : Option Core) : Option.Rel Noted o o := by
  cases o
  · exact .none
  · exact .some (Noted.refl _)

theorem Noted.rel_trans {a b c : Option Core} (h : Option.Rel Noted a b) (k : Option.Rel Noted b c) : Option.Rel Noted a c := by
  cases h with
  | none => exact k
  | some h =>
    cases k with
    | some k => exact .some (h.trans k)

theorem Aside.refl (s : State) : Aside s s := ⟨rfl, rfl, rfl, fun _ => rfl, id⟩

theorem Aside.trans {s t u : State} (h : Aside s t) (k : Aside t u) : Aside s u where
  pending := k.pending.trans h.pending
  portals := k.portals.trans h.portals
  eng := k.eng.trans h.eng
  agents id := (k.agents id).trans (h.agents id)
  agentsWf := k.agentsWf ∘ h.agentsWf

theorem Keeps.refl (s : State) : Keeps s s := ⟨rfl, rfl, fun _ => rfl, id, fun _ => Noted.rel_refl _, id, fun _ => Noted.rel_refl _, id⟩

theorem Keeps.trans {s t u : State} (h : Keeps s t) (k : Keeps t u) : Keeps s u where
  pending := k.pending.trans h.pending
  portals := k.portals.trans h.portals
  benchMem b := (k.benchMem b).trans (h.benchMem b)
  benchesWf := k.benchesWf ∘ h.benchesWf
  ctxs n := Noted.rel_trans (h.ctxs n) (k.ctxs n)
  ctxsWf := k.ctxsWf ∘ h.ctxsWf
  agents id := Noted.rel_trans (h.agents id) (k.agents id)
  agentsWf := k.agentsWf ∘ h.agentsWf

theorem Keeps.ite {s t u : State} {p : Prop} [Decidable p] (h : Keeps s t) (k : Keeps s u) : Keeps s (if p then t else u) := by
  split
  · exact h
  · exact k

theorem Aside.ite {s t u : State} {p : Prop} [Decidable p] (h : Aside s t) (k : Aside s u) : Aside s (if p then t else u) := by
  split
  · exact h
  · exact k

theorem Aside.keeps {s t : State} (h : Aside s t) : Keeps s t where
  pending := h.pending
  portals := h.portals
  benchMem b := by rw [h.eng]
  benchesWf := by rw [h.eng]; exact id
  ctxs n := by rw [h.eng]; exact Noted.rel_refl _
  ctxsWf := by rw [h.eng]; exact id
  agents id := by rw [h.agents]; exact Noted.rel_refl _
  agentsWf := h.agentsWf

theorem Keeps.aside {s t u : State} (h : Keeps s t) (k : Aside t u) : Keeps s u := h.trans k.keeps

/-- A change of other parts of the state alone. -/
theorem Aside.of_eq {s t : State} (hp : t.pending = s.pending) (hq : t.portals = s.portals) (he : t.eng = s.eng) (ha : t.agents = s.agents) : Aside s t :=
  ⟨hp, hq, he, fun id => by rw [ha], by rw [ha]; exact id⟩

theorem Aside.coreOf {s t : State} (h : Aside s t) (who : Who) : coreOf t who = coreOf s who := by
  cases who with
  | ctx n => simp only [Machine.coreOf, h.eng]
  | agent id => exact h.agents id

section
variable {α : Type} {s : State}

/-- A loop whose every turn keeps them keeps them. -/
theorem Aside.foldl {f : State → α → State} (hf : ∀ t a, Aside t (f t a)) (l : List α) (s : State) : Aside s (l.foldl f s) :=
  List.foldlRecOn (motive := fun t => Aside s t) l f (Aside.refl s) fun t ht a _ => ht.trans (hf t a)

theorem Keeps.foldl {f : State → α → State} (hf : ∀ t a, Keeps t (f t a)) (l : List α) (s : State) : Keeps s (l.foldl f s) :=
  List.foldlRecOn (motive := fun t => Keeps s t) l f (Keeps.refl s) fun t ht a _ => ht.trans (hf t a)

end

/-! Changes of the agents and contexts beside their cores. -/

theorem aside_onAgent (s : State) (id : Nat) {f : Agent → Agent} (hf : ∀ a, (f a).core = a.core) : Aside s (s.onAgent id f) where
  pending := rfl
  portals := rfl
  eng := rfl
  agents i := by
    by_cases h : i = id
    · subst h
      rw [State.onAgent_get, Option.map_map]
      exact congrFun (congrArg Option.map (funext hf)) _
    · rw [State.onAgent_other _ _ _ _ h]
  agentsWf := FMap.wf_upd _ _ _

theorem keeps_onAgent {s : State} {k : Nat} {f : Agent → Agent} (hf : ∀ a, s.agents.get k = some a → Noted a.core (f a).core) : Keeps s (s.onAgent k f) where
  pending := rfl
  portals := rfl
  benchMem _ := rfl
  benchesWf := id
  ctxs _ := Noted.rel_refl _
  ctxsWf := id
  agents i := by
    by_cases h : i = k
    · subst h
      rw [State.onAgent_get, Option.map_map]
      cases ha : s.agents.get i with
      | none => exact .none
      | some a => exact .some (hf a ha)
    · rw [State.onAgent_other _ _ _ _ h]
      exact Noted.rel_refl _
  agentsWf := FMap.wf_upd _ _ _

theorem keeps_onCtx {s : State} {n : Nat} {f : Ctx → Ctx} (hf : ∀ x, s.eng.ctxs.get n = some x → Noted x.core (f x).core) : Keeps s (s.onCtx n f) where
  pending := rfl
  portals := rfl
  benchMem _ := rfl
  benchesWf := id
  ctxs i := by
    by_cases h : i = n
    · subst h
      rw [State.onCtx_get, Option.map_map]
      cases hx : s.eng.ctxs.get i with
      | none => exact .none
      | some x => exact .some (hf x hx)
    · rw [State.onCtx_other _ _ _ _ h]
      exact Noted.rel_refl _
  ctxsWf := FMap.wf_upd _ _ _
  agents _ := Noted.rel_refl _
  agentsWf := id

theorem keeps_onRing (s : State) (r : Nat) (f : Ring → Ring) : Keeps s (s.onRing r f) :=
  ⟨rfl, rfl, fun _ => rfl, id, fun _ => Noted.rel_refl _, id, fun _ => Noted.rel_refl _, id⟩

theorem aside_emit (s : State) (o : Out) : Aside s (s.emit o) := .of_eq rfl rfl rfl rfl

theorem aside_post (s : State) (r : Rec) : Aside s (s.post r) := .of_eq rfl rfl rfl rfl

theorem aside_onDom (s : State) (d : Nat) (f : Dom → Dom) : Aside s (s.onDom d f) := .of_eq rfl rfl rfl rfl

theorem aside_onPower (s : State) (f : Power → Power) : Aside s (s.onPower f) := .of_eq rfl rfl rfl rfl

theorem aside_onNv (s : State) (f : Nv → Nv) : Aside s (s.onNv f) := .of_eq rfl rfl rfl rfl

theorem aside_nonce (s : State) (n : Nat) : Aside s { s with nonce := n } := .of_eq rfl rfl rfl rfl

theorem aside_onPair (s : State) (f : PairSt → PairSt) : Aside s (s.onPair f) := .of_eq rfl rfl rfl rfl

/-! Wakes of domains. -/

theorem aside_wakeOne (s : State) (d : Nat) : Aside s (wakeOne s d) := by
  unfold wakeOne
  split
  · exact .refl s
  · split
    · split
      · exact .refl s
      · exact aside_onDom ..
    · split
      case h_1 | h_2 => exact .refl s
      case h_3 | h_4 => exact aside_onDom ..
      case h_5 => split <;> exact aside_onDom ..

theorem aside_wake (s : State) (d : Nat) : Aside s (wake s d) := Aside.foldl aside_wakeOne _ s

/-! The journal. -/

theorem aside_stampRec (s : State) (typ : Nat) (body : List Word) : Aside s (stampRec s typ body).2 := .of_eq rfl rfl rfl rfl

theorem aside_shipOpen (s : State) : Aside s (shipOpen s) := by
  unfold shipOpen
  split
  · exact Aside.refl s
  · split
    · exact Aside.refl s
    · exact .of_eq rfl rfl rfl rfl

theorem aside_closePage (s : State) : Aside s (closePage s) := by
  unfold closePage
  refine (aside_shipOpen s).trans ?_
  simp only
  split
  · exact Aside.refl _
  · split
    · exact (aside_onNv ..).trans ((aside_onNv ..).trans (aside_post ..))
    · exact aside_onNv ..

theorem aside_appendRec (s : State) (typ : Nat) (body : List Word) : Aside s (appendRec s typ body) :=
  (Aside.trans (Aside.ite (aside_shipOpen s) (Aside.refl s)) (Aside.ite (aside_closePage _) (Aside.refl _))).trans
    (.of_eq rfl rfl rfl rfl)

theorem aside_journal (s : State) (typ : Nat) (body : List Word) : Aside s (journal s typ body) :=
  (aside_wake s 21).trans <| .ite (aside_onPair ..) <|
    .ite (.ite ((aside_stampRec _ typ body).trans (aside_onNv ..)) (aside_onNv ..)) (.ite (aside_onNv ..) (aside_appendRec ..))

/-! What an agent sends, and the records that it posts. -/

@[simp] theorem Agent.bump_core (a : Agent) (port w n : Nat) : (a.bump port w n).core = a.core := rfl

@[simp] theorem Agent.highest_core (a : Agent) (port w v : Nat) : (a.highest port w v).core = a.core := by
  unfold Agent.highest
  split <;> rfl

@[simp] theorem Agent.enqueue_core (a : Agent) (out : Nat) (h : Hdr) (q : Queued) : (a.enqueue out h q).core = a.core := by
  unfold Agent.enqueue
  split
  · rfl
  · exact Agent.highest_core ..

@[simp] theorem Agent.forwarded_core (a : Agent) (out : Nat) (h : Hdr) (q : Queued) : (a.forwarded out h q).core = a.core := by
  unfold Agent.forwarded
  simp only
  split
  · exact Agent.enqueue_core ..
  · split
    all_goals exact Agent.enqueue_core ..

theorem aside_launchQuiet (s : State) (id : Nat) (p : Pkt) : Aside s (launchQuiet s id p) := by
  unfold launchQuiet
  split
  · exact Aside.refl s
  · split
    · exact aside_emit ..
    · split
      case h_4 => exact (aside_emit ..).trans (aside_onAgent _ id fun a => Agent.forwarded_core ..)
      all_goals exact aside_onAgent s id fun _ => rfl

theorem aside_agentSend (s : State) (id : Nat) (net : Net) (unit : Nat) (p : Pkt) : Aside s (agentSend s id net unit p) := by
  unfold agentSend
  split
  · exact Aside.refl s
  · split
    · exact aside_emit ..
    · split
      · exact aside_launchQuiet ..
      · exact Aside.refl s

theorem aside_agentMgmt (s : State) (id : Nat) (net : Net) (unit mtype count : Nat) (tag : BitVec 32) (arg : Word) (body : List Byte) :
    Aside s (agentMgmt s id net unit mtype count tag arg body) := by
  unfold agentMgmt
  split
  · exact Aside.refl s
  · exact aside_agentSend ..

theorem aside_sendEvents (s : State) (id : Nat) : Aside s (sendEvents s id) := by
  unfold sendEvents
  split
  · exact Aside.refl s
  · simp only
    split
    · exact Aside.refl s
    · split
      · exact Aside.refl s
      · exact (aside_agentMgmt ..).trans (aside_onAgent _ id fun _ => rfl)

theorem aside_flushDue (s : State) (id n : Nat) : Aside s (flushDue s id n) := by
  induction n generalizing s with
  | zero => exact Aside.refl s
  | succ n ih =>
    unfold flushDue
    split
    · exact Aside.refl s
    · split
      · exact (aside_sendEvents s id).trans (ih _)
      · exact Aside.refl s

theorem aside_agentPost (s : State) (id : Nat) (r : Rec) : Aside s (agentPost s id r) := by
  unfold agentPost
  split
  · exact Aside.refl s
  · refine Aside.trans (Aside.trans ?_ (aside_nonce _ _)) (aside_flushDue _ id 4)
    exact aside_onAgent s id fun _ => rfl

theorem aside_agentFault (s : State) (id unit kind : Nat) (cls : Cls) (d0 d1 : Word) : Aside s (agentFault s id unit kind cls d0 d1) :=
  aside_agentPost ..

/-! Wake causes, and entries answered. -/

/-- A core that differs in its wake causes alone. -/
theorem Noted.of_causes (c : Core) (causes : BitVec 6) (awaits : Option (BitVec 6)) (t : Option Nat) :
    Noted c { c with causes := causes, awaits := awaits, untilT := t } := ⟨rfl, id⟩

theorem keeps_resumeCtx (s : State) (n : Nat) (x : Ctx) : Keeps s (resumeCtx s n x) := by
  unfold resumeCtx
  cases x.ring with
  | none => exact keeps_onCtx fun _ _ => Noted.of_causes ..
  | some r =>
    refine Keeps.trans ?_ (keeps_onRing ..)
    exact keeps_onCtx fun _ _ => Noted.of_causes ..

theorem keeps_setCause (s : State) (n bit : Nat) : Keeps s (setCause s n bit) := by
  unfold setCause
  cases s.eng.ctxs.get n with
  | none => exact Keeps.refl s
  | some x =>
    have hlatch : Keeps s (s.onCtx n fun y => { y with core := { y.core with causes := y.core.causes ||| BitVec.ofNat 6 (2 ^ bit) } }) :=
      keeps_onCtx fun _ _ => Noted.of_causes ..
    refine Keeps.trans ?_ (Keeps.ite (keeps_resumeCtx ..) (Keeps.refl _))
    cases x.hewer with
    | none => exact hlatch
    | some h => exact hlatch.trans (aside_wake ..).keeps

theorem keeps_setRingSt (s : State) (r : Nat) (st : RingState) : Keeps s (setRingSt s r st) := keeps_onRing ..

theorem keeps_settleRing (s : State) (r : Nat) : Keeps s (settleRing s r) := by
  unfold settleRing
  split
  · exact Keeps.refl s
  · exact .ite (keeps_setRingSt ..) (.ite (keeps_setRingSt ..) (Keeps.refl s))

theorem aside_writeShadow (s : State) (r : Nat) : Aside s (writeShadow s r) := by
  unfold writeShadow
  split
  · exact Aside.refl s
  · split
    · exact aside_emit ..
    · exact Aside.refl s

theorem keeps_wakeTarget (s : State) (g : Ring) : Keeps s (wakeTarget s g) :=
  .ite (keeps_setCause ..) (.ite (.ite (aside_emit ..).keeps (Keeps.refl s)) (Keeps.refl s))

theorem keeps_wakeBlocked (s : State) (r : Nat) : Keeps s (wakeBlocked s r) :=
  Keeps.foldl (fun t _ => .ite (keeps_setCause ..) (Keeps.refl t)) _ s

theorem keeps_produced (s : State) (r : Nat) : Keeps s (produced s r) := by
  unfold produced
  split
  · exact Keeps.refl s
  · exact ((((keeps_onRing ..).trans (keeps_settleRing ..)).trans (aside_writeShadow ..).keeps).trans (keeps_wakeTarget ..)).trans (keeps_wakeBlocked ..)

theorem keeps_putCompletion (s : State) (r : Nat) (c : Completion) : Keeps s (putCompletion s r c) := by
  unfold putCompletion
  split
  · exact Keeps.refl s
  · split
    · exact keeps_onRing ..
    · exact (aside_emit ..).keeps.trans (keeps_produced ..)

theorem keeps_answer (s : State) (r : Nat) (idx : BitVec 32) (status : Nat) (result : List Byte) (asSealed : Bool) :
    Keeps s (answer s r idx status result asSealed) := by
  unfold answer
  split
  · exact Keeps.refl s
  · split
    · exact Keeps.refl s
    · refine Keeps.trans ?_ (keeps_settleRing ..)
      split
      · exact keeps_onRing ..
      · exact (keeps_onRing ..).trans (keeps_putCompletion ..)

/-! Exceptions. -/

theorem keeps_answerTaken (s : State) (n : Nat) (x : Ctx) (status : Nat) : Keeps s (answerTaken s n x status) := by
  unfold answerTaken
  split
  · exact Keeps.refl s
  · split
    · exact Keeps.refl s
    · refine Keeps.foldl (fun t f => ?_) _ s
      split
      · exact keeps_answer ..
      · exact Keeps.refl t

theorem keeps_ctxException (s : State) (n : Nat) (e : Exc) : Keeps s (ctxException s n e) := by
  unfold ctxException
  split
  · exact Keeps.refl s
  · exact ((aside_post ..).keeps.trans (keeps_answerTaken ..)).trans (keeps_onCtx fun _ _ => Noted.refl _)

end Sys2Proof.Machine
end

