-- ==== Sys2Proof/Proofs/CoreForms.lean ====
section
/-! PROOF. The one form of cores, kept by register writes, exceptions, corrections and accesses (R120, R127, R133). -/

namespace Sys2Proof.Machine

open Sys2Proof.Safety

theorem FMap.get_put_ne {α : Type} [DecidableEq α] (m : FMap α) (k i : Nat) (a d : α) (h : i ≠ k) : FMap.get (FMap.put m k a d) i = FMap.get m i := by
  unfold FMap.put
  split
  · exact FMap.get_del_ne m k i h
  · exact FMap.get_set_ne m k i a h

/-! Register writes keep the one form of a core. -/

section
variable {c : Core}

theorem coreCanonical_putG {k : Nat} (v : Word) (hk : k ≠ 0) (h : CoreCanonical c) : CoreCanonical { c with g := c.g.put k v 0 } := by
  obtain ⟨hg, hg0, hrest⟩ := h
  exact ⟨FMap.wf_put _ _ _ _ hg, (FMap.get_put_ne _ _ _ _ _ hk.symm).trans hg0, hrest⟩

theorem coreCanonical_setG (n : Nat) (v : Word) (h : CoreCanonical c) : CoreCanonical (c.setG n v) := by
  unfold Core.setG
  split
  · exact h
  · exact coreCanonical_putG v ‹_› h

theorem coreCanonical_setK (n : Nat) (v : BitVec 16) (h : CoreCanonical c) : CoreCanonical (c.setK n v) := by
  obtain ⟨hg, hg0, hk, hk0, hrest⟩ := h
  unfold Core.setK
  split
  · exact ⟨hg, hg0, hk, hk0, hrest⟩
  · exact ⟨hg, hg0, FMap.wf_put _ _ _ _ hk, (FMap.get_put_ne _ _ _ _ _ (Ne.symm ‹_›)).trans hk0, hrest⟩

theorem coreCanonical_setV (n l : Nat) (v : Word) (h : CoreCanonical c) : CoreCanonical (c.setV n l v) := by
  obtain ⟨hg, hg0, hk, hk0, hv, hm⟩ := h
  exact ⟨hg, hg0, hk, hk0, FMap.wf_put _ _ _ _ hv, hm⟩

theorem coreCanonical_store {m : List Host.Cell} (hm : memWf c.mem = true → memWf m = true) (bad : List Nat) (h : CoreCanonical c) :
    CoreCanonical { c with mem := m, eccBad := bad } := by
  obtain ⟨hg, hg0, hk, hk0, hv, hw⟩ := h
  exact ⟨hg, hg0, hk, hk0, hv, hm hw⟩

end

/-! Cores written back. -/

section
variable {s : State} {who : Who} {c : Core}

theorem ctx_core_of_coreOf {n : Nat} {x : Ctx} (hc : coreOf s (.ctx n) = some c) (hx : s.eng.ctxs.get n = some x) : x.core = c := by
  simpa [coreOf, hx] using hc

theorem agent_core_of_coreOf {id : Nat} {a : Agent} (hc : coreOf s (.agent id) = some c) (ha : s.agents.get id = some a) : a.core = c := by
  simpa [coreOf, ha] using hc

theorem keeps_setCore {d : Core} (hc : coreOf s who = some c) (h : Noted c d) : Keeps s (setCore s who d) := by
  cases who with
  | ctx n => exact keeps_onCtx fun x hx => ctx_core_of_coreOf hc hx ▸ h
  | agent id => exact keeps_onAgent fun a ha => agent_core_of_coreOf hc ha ▸ h

theorem keeps_agentException (s : State) (id code : Nat) (pc info : Word) : Keeps s (agentException s id code pc info) := by
  unfold agentException
  cases s.agents.get id with
  | none => exact Keeps.refl s
  | some a =>
    refine Keeps.ite (Keeps.ite ?high ?low) ?recovers
    case high =>
      refine Keeps.aside ?_ (aside_agentFault ..)
      refine Keeps.aside ?_ (aside_agentPost ..)
      refine Keeps.trans ?_ (keeps_onAgent fun _ _ => Noted.of_causes ..)
      exact Aside.keeps (aside_onAgent s id fun _ => rfl)
    case low =>
      refine Keeps.aside ?_ (aside_agentPost ..)
      refine Keeps.aside ?_ (aside_agentFault ..)
      refine Keeps.trans ?_ (keeps_onAgent fun _ _ => Noted.of_causes ..)
      exact Aside.keeps (aside_onAgent s id fun _ => rfl)
    case recovers =>
      refine Keeps.trans ?_ (keeps_onAgent fun x _ => ⟨rfl, fun h => ?_⟩)
      · refine Keeps.aside ?_ (aside_agentPost ..)
        exact Aside.keeps (aside_onAgent s id fun _ => rfl)
      · exact coreCanonical_putG _ (by decide) (coreCanonical_putG _ (by decide) (coreCanonical_putG _ (by decide) h))

theorem keeps_raiseExc (s : State) (who : Who) (pc : Word) (e : Exc) : Keeps s (raiseExc s who pc e) := by
  cases who with
  | ctx n => exact keeps_ctxException ..
  | agent id => exact keeps_agentException ..

end

/-! Corrections, and the costs of accesses (R131, R133). -/

theorem keeps_onBench (s : State) (b : Nat) {f : Bench → Bench} (hf : ∀ x, (f x).mem = x.mem) : Keeps s (s.onBench b f) where
  pending := rfl
  portals := rfl
  benchMem k := by
    by_cases h : k = b
    · subst h
      simp [State.onBench, FMap.getD, hf]
    · simp [State.onBench, FMap.getD, FMap.get_set_ne _ _ _ _ h]
  benchesWf := FMap.wf_set _ _ _
  ctxs _ := Noted.rel_refl _
  ctxsWf := id
  agents _ := Noted.rel_refl _
  agentsWf := id

section
variable {s : State} {who : Who} {c : Core}

/-- A correction in scratch or SRAM rewrites the error marks of the core, and posts its record. -/
theorem correctLoc_own_soft {a : Nat} (hc : coreOf s who = some c) (h : c.eccSoft.contains (a / 8) = true) :
    Aside (setCore s who { c with eccSoft := c.eccSoft.filter (· != a / 8) }) (correctLoc s who (.own a)) := by
  simp only [correctLoc, hc, h, if_true]
  cases who with
  | ctx n => exact aside_post ..
  | agent id => exact aside_agentPost ..

/-- A correction in a bench rewrites the error marks of the bench, and posts its record. -/
theorem correctLoc_bench (s : State) (who : Who) (b a : Nat) :
    correctLoc s who (.bench b a) = s ∨
      Aside (s.onBench b fun x => { x with eccSoft := x.eccSoft.filter (· != a / 8) }) (correctLoc s who (.bench b a)) := by
  simp only [correctLoc]
  split
  · exact .inr (aside_post ..)
  · exact .inl rfl

theorem correctLoc_of_none (a : Nat) (hc : coreOf s who = none) : correctLoc s who (.own a) = s := by
  simp only [correctLoc, hc]

theorem keeps_correctLoc (s : State) (who : Who) (l : Loc) : Keeps s (correctLoc s who l) := by
  cases l with
  | own a =>
    cases hc : coreOf s who with
    | none => rw [correctLoc_of_none a hc]; exact Keeps.refl s
    | some c =>
      cases h : c.eccSoft.contains (a / 8) with
      | false => rw [correctLoc_clean hc a h]; exact Keeps.refl s
      | true =>
        refine Keeps.aside ?_ (correctLoc_own_soft hc h)
        exact keeps_setCore hc ⟨rfl, fun h => h⟩
  | bench b a =>
    obtain h | h := correctLoc_bench s who b a
    · rw [h]; exact Keeps.refl s
    · refine Keeps.aside ?_ h
      exact keeps_onBench s b fun _ => rfl

/-- A correction changes only the error marks of the core that meets it. -/
theorem coreOf_correctLoc (l : Loc) (hc : coreOf s who = some c) : ∃ e, coreOf (correctLoc s who l) who = some { c with eccSoft := e } := by
  cases l with
  | own a =>
    cases h : c.eccSoft.contains (a / 8) with
    | false => exact ⟨c.eccSoft, by rw [correctLoc_clean hc a h, hc]⟩
    | true => exact ⟨_, by rw [(correctLoc_own_soft hc h).coreOf, coreOf_setCore _ hc]⟩
  | bench b a =>
    obtain h | h := correctLoc_bench s who b a
    · exact ⟨c.eccSoft, by rw [h, hc]⟩
    · exact ⟨c.eccSoft, by rw [h.coreOf, ← hc]; cases who <;> rfl⟩

end

theorem aside_drawWait (s : State) : Aside s (drawWait s).2 := aside_nonce ..

theorem aside_accessCost (s : State) (who : Who) (l : Loc) (scratch bench agent : Nat) : Aside s (accessCost s who l scratch bench agent).2 := by
  cases who with
  | agent _ => exact Aside.refl s
  | ctx _ =>
    unfold accessCost
    simp only
    split
    · exact aside_drawWait s
    · exact Aside.refl s

theorem aside_vecCost (s : State) (ls : List Loc) (scratch bench : Nat) : Aside s (vecCost s ls scratch bench).2 := by
  unfold vecCost
  split
  · exact aside_drawWait s
  · exact Aside.refl s

/-! What memories read as. -/

theorem Keeps.cores {s t : State} (h : Keeps s t) (who : Who) : Option.Rel Noted (coreOf s who) (coreOf t who) := by
  cases who with
  | ctx n => exact h.ctxs n
  | agent id => exact h.agents id

theorem Keeps.readLoc {s t : State} (h : Keeps s t) (who : Who) (n : Nat) (l : Loc) : readLoc t who n l = readLoc s who n l := by
  cases l with
  | own a =>
    have hcores := h.cores who
    simp only [Machine.readLoc]
    generalize Machine.coreOf s who = c at hcores
    generalize Machine.coreOf t who = d at hcores
    cases hcores with
    | none => rfl
    | some hn => simp [hn.1]
  | bench b a => simp only [Machine.readLoc, h.benchMem]

end Sys2Proof.Machine
end

