-- ==== Sys2Proof/Proofs/CoreRows.lean ====
section
/-! PROOF. What each row of the Aglek core does to its core: register rows write only their destination, their flags, pc and the counters, and the other rows are loads, stores, updates or a trap (R120, R133, R136, R143). -/

namespace Sys2Proof.Machine

open Sys2Proof.Safety

/-! A write of registers of a row. -/

/-- Of the registers only the destination of the row has changed, of a vector destination only lanes that the mask `m` picks unless the row names lanes itself, and the flags only where the row sets them. -/
structure RegUpdate (r : CoreRow) (m : BitVec 16) (c d : Core) : Prop where
  mem : d.mem = c.mem
  eccBad : d.eccBad = c.eccBad
  eccSoft : d.eccSoft = c.eccSoft
  causes : d.causes = c.causes
  awaits : d.awaits = c.awaits
  untilT : d.untilT = c.untilT
  msgs : d.msgs = c.msgs
  instret : d.instret = c.instret
  pc : d.pc = c.pc
  flags : r.flags = false → d.fpflags = c.fpflags
  g : ∀ n, (r.dst = .g → n ≠ r.ins.dst.toNat) → d.getG n = c.getG n
  k : ∀ n, (r.dst = .k → n ≠ r.ins.dst.toNat) → d.getK n = c.getK n
  v : ∀ n l, l < 16 → (r.dst = .v → n = r.ins.dst.toNat → r.lanes = true ∧ m.getLsbD l = false) → d.getV n l = c.getV n l
  canonical : CoreCanonical c → CoreCanonical d

section
variable {r : CoreRow} {m : BitVec 16} {c d e : Core}

theorem RegUpdate.refl (r : CoreRow) (m : BitVec 16) (c : Core) : RegUpdate r m c c := by
  refine ⟨rfl, rfl, rfl, rfl, rfl, rfl, rfl, rfl, rfl, fun _ => rfl, fun _ _ => rfl, fun _ _ => rfl, fun _ _ _ _ => rfl, id⟩

theorem RegUpdate.trans (h : RegUpdate r m c d) (k : RegUpdate r m d e) : RegUpdate r m c e where
  mem := k.mem.trans h.mem
  eccBad := k.eccBad.trans h.eccBad
  eccSoft := k.eccSoft.trans h.eccSoft
  causes := k.causes.trans h.causes
  awaits := k.awaits.trans h.awaits
  untilT := k.untilT.trans h.untilT
  msgs := k.msgs.trans h.msgs
  instret := k.instret.trans h.instret
  pc := k.pc.trans h.pc
  flags hf := (k.flags hf).trans (h.flags hf)
  g n hn := (k.g n hn).trans (h.g n hn)
  k n hn := (k.k n hn).trans (h.k n hn)
  v n l hl hn := (k.v n l hl hn).trans (h.v n l hl hn)
  canonical := k.canonical ∘ h.canonical

theorem RegUpdate.setG (c : Core) (v : Word) (hr : r.dst = .g) : RegUpdate r m c (c.setG r.ins.dst.toNat v) := by
  have hg (n : Nat) (hn : n ≠ r.ins.dst.toNat) : (c.setG r.ins.dst.toNat v).getG n = c.getG n := Core.getG_setG_ne c _ n v hn
  have hcanonical := coreCanonical_setG (c := c) r.ins.dst.toNat v
  unfold Core.setG at *
  split
  · exact RegUpdate.refl r m c
  · rw [if_neg ‹_›] at hg hcanonical
    constructor
    case g => exact fun n hn => hg n (hn hr)
    case canonical => exact hcanonical
    all_goals intros; rfl

theorem Core.getK_setK_ne (c : Core) (n k : Nat) (v : BitVec 16) (h : k ≠ n) : (c.setK n v).getK k = c.getK k := by
  unfold Core.getK Core.setK
  split
  · rfl
  · split
    · rfl
    · exact FMap.getD_put_ne _ _ _ _ _ _ h

theorem RegUpdate.setK (c : Core) (v : BitVec 16) (hr : r.dst = .k) : RegUpdate r m c (c.setK r.ins.dst.toNat v) := by
  have hk (n : Nat) (hn : n ≠ r.ins.dst.toNat) : (c.setK r.ins.dst.toNat v).getK n = c.getK n := Core.getK_setK_ne c _ n v hn
  have hcanonical := coreCanonical_setK (c := c) r.ins.dst.toNat v
  unfold Core.setK at *
  split
  · exact RegUpdate.refl r m c
  · rw [if_neg ‹_›] at hk hcanonical
    constructor
    case k => exact fun n hn => hk n (hn hr)
    case canonical => exact hcanonical
    all_goals intros; rfl

/-- Lanes of v registers lie apart. -/
theorem Core.getV_setV_ne (c : Core) {n l i j : Nat} (v : Word) (hl : l < 16) (hj : j < 16) (h : ¬(i = n ∧ j = l)) : (c.setV n l v).getV i j = c.getV i j :=
  FMap.getD_put_ne _ _ _ _ _ _ (by omega)

theorem RegUpdate.setV (c : Core) {l : Nat} (v : Word) (hr : r.dst = .v) (hl : l < 16) (hm : r.lanes = false ∨ m.getLsbD l = true) :
    RegUpdate r m c (c.setV r.ins.dst.toNat l v) := by
  constructor
  case v =>
    intro n j hj hn
    refine Core.getV_setV_ne c v hl hj ?_
    rintro ⟨rfl, rfl⟩
    obtain ⟨hlanes, hoff⟩ := hn hr rfl
    simp [hlanes, hoff] at hm
  case canonical => exact coreCanonical_setV _ _ _
  all_goals intros; rfl

theorem RegUpdate.setFlags (c : Core) (f : BitVec 4) (hr : r.flags = true) : RegUpdate r m c { c with fpflags := f } := by
  constructor
  case flags => simp [hr]
  case canonical => exact fun h => h
  all_goals intros; rfl

/-- A loop of register updates is one. -/
theorem RegUpdate.foldl {α : Type} {f : Core → α → Core} {l : List α} (hf : ∀ d, ∀ a ∈ l, RegUpdate r m d (f d a)) (c : Core) :
    RegUpdate r m c (l.foldl f c) :=
  List.foldlRecOn (motive := fun d => RegUpdate r m c d) l f (RegUpdate.refl r m c) fun d hd a ha => hd.trans (hf d a ha)

theorem mem_active {i : Ins} {n : Nat} (h : n ∈ c.active i) : n < 16 ∧ (c.mask i).getLsbD n = true := by
  simpa [Core.active, lanes] using h

theorem RegUpdate.mapLanes (c : Core) (f : Nat → Word) (hr : r.dst = .v) : RegUpdate r (c.mask r.ins) c (c.mapLanes r.ins f) :=
  RegUpdate.foldl (fun d _ hn => .setV d _ hr (mem_active hn).1 (.inr (mem_active hn).2)) c

theorem RegUpdate.mapFlt (c : Core) (f : Nat → Word × BitVec 4) (hr : r.dst = .v) (hf : r.flags = true) :
    RegUpdate r (c.mask r.ins) c (c.mapFlt r.ins f) :=
  RegUpdate.foldl (fun d _ hn => (RegUpdate.setV d _ hr (mem_active hn).1 (.inr (mem_active hn).2)).trans (.setFlags _ _ hf)) c

end

/-! What a row does. -/

/-- The frame of a register row, and the one form kept. -/
def RegEffect (r : CoreRow) (c d : Core) : Prop := CoreFrame r c d ∧ (CoreCanonical c → CoreCanonical d)

section
variable {r : CoreRow} {c d : Core}

theorem RegUpdate.retire (h : RegUpdate r (c.mask r.ins) c d) (cost : Nat) : RegEffect r c (d.retire cost) := by
  obtain ⟨hmem, hbad, hsoft, hcauses, hawaits, huntil, hmsgs, hinst, hpc, hflags, hg, hk, hv, hcanonical⟩ := h
  exact ⟨⟨hmem, hbad, hsoft, hcauses, hawaits, huntil, hmsgs, congrArg (· + 1) hinst, hflags, fun _ => congrArg (· + 8) hpc, hg, hk, hv⟩, hcanonical⟩

theorem RegUpdate.retireTo (h : RegUpdate r (c.mask r.ins) c d) (hr : r.branch = true) (t : Word) (cost : Nat) : RegEffect r c (d.retireTo t cost) := by
  obtain ⟨hmem, hbad, hsoft, hcauses, hawaits, huntil, hmsgs, hinst, hpc, hflags, hg, hk, hv, hcanonical⟩ := h
  exact ⟨⟨hmem, hbad, hsoft, hcauses, hawaits, huntil, hmsgs, congrArg (· + 1) hinst, hflags, fun hb => absurd (hb.symm.trans hr) (by decide), hg, hk, hv⟩,
    hcanonical⟩

end

/-- What a row of the core does once its fetch and its predicate are past. -/
inductive RowBody (r : CoreRow) (body : State → Core → State) : Prop where
  | registers (f : State → Core → Core) (hmem : r.mem = false) (hf : ∀ u c, RegEffect r c (f u c)) (hbody : ∀ u c, body u c = setCore u r.who (f u c))
  | trap (e : Exc) (hmem : r.mem = false) (hbody : ∀ u c, body u c = raiseExc u r.who c.pc e)
  | load (addr : Core → Word) (hmem : r.mem = true) (hbody : ∀ u c, body u c = loadTo r.who r.ins u c (addr c))
  | store (addr v : Core → Word) (hmem : r.mem = true) (hbody : ∀ u c, body u c = storeFrom r.who r.ins u c (addr c) (v c))
  | update (addr : Core → Word) (f : Core → Word → Option Word) (hmem : r.mem = true)
      (hbody : ∀ u c, body u c = rmw r.who r.ins u c (addr c) (f c))
  | vecLoad (as : Core → List (Nat × Word)) (sc : Nat) (be : State → Core → Nat) (hmem : r.mem = true)
      (hbody : ∀ u c, body u c = Machine.vecLoad r.who r.ins u c (as c) sc (be u c))
  | vecStore (as : Core → List (Nat × Word)) (sc : Nat) (be : State → Core → Nat) (hmem : r.mem = true)
      (hbody : ∀ u c, body u c = Machine.vecStore r.who r.ins u c (as c) sc (be u c))

section
variable {r : CoreRow}

theorem rowBody_of_update {f : State → Core → Core} (cost : Nat) (hmem : r.mem = false) (hf : ∀ u c, RegUpdate r (c.mask r.ins) c (f u c)) :
    RowBody r fun u c => setCore u r.who ((f u c).retire cost) :=
  .registers (fun u c => (f u c).retire cost) hmem (fun u c => (hf u c).retire cost) fun _ _ => rfl

theorem rowBody_setG (v : State → Core → Word) (cost : Nat) (hmem : r.mem = false) (hr : r.dst = .g) :
    RowBody r fun u c => setCore u r.who ((c.setG r.ins.dst.toNat (v u c)).retire cost) :=
  rowBody_of_update cost hmem fun _ c => .setG c _ hr

theorem rowBody_setK (v : Core → BitVec 16) (cost : Nat) (hmem : r.mem = false) (hr : r.dst = .k) :
    RowBody r fun u c => setCore u r.who ((c.setK r.ins.dst.toNat (v c)).retire cost) :=
  rowBody_of_update cost hmem fun _ c => .setK c _ hr

theorem rowBody_mapLanes (f : Core → Nat → Word) (cost : Nat) (hmem : r.mem = false) (hr : r.dst = .v) :
    RowBody r fun u c => setCore u r.who ((c.mapLanes r.ins (f c)).retire cost) :=
  rowBody_of_update cost hmem fun _ c => .mapLanes c _ hr

theorem rowBody_branch {f : Core → Core} (t : Core → Word) (cost : Nat) (hmem : r.mem = false) (hb : r.branch = true)
    (hf : ∀ c, RegUpdate r (c.mask r.ins) c (f c)) : RowBody r fun u c => setCore u r.who ((f c).retireTo (t c) cost) :=
  .registers (fun _ c => (f c).retireTo (t c) cost) hmem (fun _ c => (hf c).retireTo hb _ cost) fun _ _ => rfl

/-- A row whose lanes are integer or float by its MOD. -/
theorem rowBody_lanes {p : Prop} [Decidable p] (f : Core → Nat → Word) (g : Core → Nat → Word × BitVec 4) (cost : Nat)
    (hmem : r.mem = false) (hr : r.dst = .v) (hf : r.flags = true) :
    RowBody r fun u c => setCore u r.who ((if p then c.mapLanes r.ins (f c) else c.mapFlt r.ins (g c)).retire cost) :=
  rowBody_of_update cost hmem fun _ c => by
    split
    · exact .mapLanes c _ hr
    · exact .mapFlt c _ hr hf

end

/-- Every instruction of the core runs behind the common prologue, with a body of its kind. -/
theorem coreRow_body {x : Instr} {r : CoreRow} (h : coreRow x = some r) (s : State) :
    ∃ row sp body, exec x s = .next (runIns r.who r.ins row sp s body) ∧ RowBody r body := by
  cases x with
  | add who i | sub who i | mul who i | mulh who i | div who i | rem who i | and who i | or who i | xor who i | shl who i | shr who i | rot who i
  | sel who i | bit who i | minmax who i | addi who i | muli who i | andi who i | ori who i | xori who i | shli who i | shri who i | roti who i
  | movi who i | vext who i | srd who i =>
    cases h
    exact ⟨_, _, _, rfl, rowBody_setG _ _ rfl rfl⟩
  | cmp who i | cmpi who i | kop who i =>
    cases h
    exact ⟨_, _, _, rfl, rowBody_setK _ _ rfl rfl⟩
  | vand who i | vor who i | vxor who i | vshl who i | vshr who i | vsel who i | vbcast who i | vperm who i | viota who i =>
    cases h
    exact ⟨_, _, _, rfl, rowBody_mapLanes _ _ rfl rfl⟩
  | vadd who i | vsub who i | vmul who i | vminmax who i =>
    cases h
    exact ⟨_, _, _, rfl, rowBody_lanes _ _ _ rfl rfl rfl⟩
  | vfma who i | vcvt who i =>
    cases h
    exact ⟨_, _, _, rfl, rowBody_of_update _ rfl fun _ c => .mapFlt c _ rfl rfl⟩
  | kmov who i =>
    cases h
    refine ⟨_, _, _, rfl, rowBody_of_update (f := fun _ c =>
      if i.mod = 1 then c.setK i.dst.toNat ((c.opA i).truncate 16) else c.setG i.dst.toNat ((c.getK i.srca.toNat).zeroExtend 64)) _ rfl fun _ c => ?_⟩
    split
    · exact .setK c _ rfl
    · exact .setG c _ rfl
  | vcmp who i =>
    cases h
    exact ⟨_, _, _, rfl, rowBody_of_update _ rfl fun _ c => (RegUpdate.setK c _ rfl).trans (.setFlags _ _ rfl)⟩
  | vred who i =>
    cases h
    exact ⟨_, _, _, rfl, rowBody_of_update _ rfl fun _ c => (RegUpdate.setG c _ rfl).trans (.setFlags _ _ rfl)⟩
  | vins who i =>
    cases h
    exact ⟨_, _, _, rfl, rowBody_of_update _ rfl fun _ c => .setV c _ rfl (Nat.mod_lt _ (by decide)) (.inl rfl)⟩
  | vcompress who i =>
    cases h
    exact ⟨_, _, _, rfl, rowBody_of_update _ rfl fun _ c => .foldl (fun d n hn => .setV d _ rfl (List.mem_range.mp hn) (.inl rfl)) c⟩
  | swr who i =>
    cases h
    exact ⟨_, _, _, rfl, rowBody_of_update _ rfl fun _ c => .setFlags c _ rfl⟩
  | trap who i =>
    cases h
    exact ⟨_, _, _, rfl, .trap _ rfl fun _ _ => rfl⟩
  | br who i | jr who i => 
    cases h
    exact ⟨_, _, _, rfl, rowBody_branch _ _ rfl rfl fun c => .refl ..⟩
  | jal who i | jrl who i =>
    cases h
    exact ⟨_, _, _, rfl, rowBody_branch _ _ rfl rfl fun c => .setG c _ rfl⟩
  | loop who i =>
    cases h
    have hset (c : Core) : RegUpdate { who := who, ins := i, branch := true } (c.mask i) c (c.setG i.dst.toNat (c.opD i - 1)) := .setG c _ rfl
    refine ⟨_, _, _, rfl, .registers (fun _ c => if (c.setG i.dst.toNat (c.opD i - 1)).getG i.dst.toNat ≠ 0
      then (c.setG i.dst.toNat (c.opD i - 1)).retireTo (relTarget c i) (who.cost 3 2) else (c.setG i.dst.toNat (c.opD i - 1)).retire 1)
      rfl (fun _ c => ?_) fun u c => (apply_ite (setCore u who) _ _ _).symm⟩
    split
    · exact (hset c).retireTo rfl _ _
    · exact (hset c).retire 1
  | ld who i | ldx who i =>
    cases h
    exact ⟨_, _, _, rfl, .load _ rfl fun _ _ => rfl⟩
  | st who i | stx who i =>
    cases h
    exact ⟨_, _, _, rfl, .store _ _ rfl fun _ _ => rfl⟩
  | amo who i | cas who i =>
    cases h
    exact ⟨_, _, _, rfl, .update _ _ rfl fun _ _ => rfl⟩
  | vld who i | vgather who i =>
    cases h
    exact ⟨_, _, _, rfl, .vecLoad _ _ _ rfl fun _ _ => rfl⟩
  | vst who i | vscatter who i =>
    cases h
    exact ⟨_, _, _, rfl, .vecStore _ _ _ rfl fun _ _ => rfl⟩
  | _ => cases h

end Sys2Proof.Machine
end

