-- ==== Sys2Proof/Proofs/Skips.lean ====
section
/-! PROOF. The common prologue of Aglek instructions: what a skipped one does, and the frame of those that reach no memory (R120, R125, R126, R133, R143). -/

namespace Sys2Proof.Machine

open Sys2Proof.Safety

/-- Every Aglek instruction runs behind the common prologue. -/
theorem aglekRow_body {x : Instr} {who : Who} {i : Ins} (h : aglekRow x = some (who, i)) (s : State) :
    ∃ row sp body, exec x s = .next (runIns who i row sp s body) := by
  cases x <;> cases h <;> exact ⟨_, _, _, rfl⟩

/-- The exceptions that stand before the predicate. -/
theorem code_of_preExc {who : Who} {c : Core} {r : Row} {i : Ins} {sp : Option Nat} {e : Exc} (h : preExc who c r i sp = some e) :
    e.code = xFetch ∨ e.code = xIllegal ∨ e.code = xProfile ∨ e.code = xSpecial ∨ e.code = xMemUnc := by
  unfold preExc reservedExc at h
  split at h
  · cases h; simp
  · split at h
    · cases h; simp
    · split at h
      · cases h
        split <;> simp
      · split at h
        · cases h; simp
        · split at h
          · cases h; simp
          · cases sp with
            | none => cases h
            | some n => cases h; simp

section
variable {s : State} {who : Who} {b c : Core} {i : Ins} {row : Row} {sp : Option Nat}

/-- After the fetch, the prologue raises, skips, or runs the row's own operation. -/
theorem runIns_fetched (body : State → Core → State) (hb : coreOf s who = some b) (he : s.executes who = true)
    (hc : coreOf (correctLoc s who (.own b.pc.toNat)) who = some c) :
    (∃ e, preExc who c row i sp = some e ∧ runIns who i row sp s body = raiseExc (correctLoc s who (.own b.pc.toNat)) who c.pc e) ∨
      runIns who i row sp s body = if (c.mask i).getLsbD 0 then body (correctLoc s who (.own b.pc.toNat)) c
        else setCore (correctLoc s who (.own b.pc.toNat)) who (c.retire 1) := by
  unfold runIns
  simp only [hb, he, hc]
  cases hp : preExc who c row i sp with
  | some e => exact .inl ⟨e, rfl, rfl⟩
  | none => exact .inr rfl

end

/-- Settles O51: the prologue is common to every row, and what it raises before the predicate has one of five codes. -/
theorem skippedInstructionOnlyRetires : Obligations.SkippedInstructionOnlyRetires := by
  intro x s who i b c hx hb he u hc hm
  obtain ⟨row, sp, body, hexec⟩ := aglekRow_body hx s
  rw [hexec]
  obtain ⟨e, hpre, hraise⟩ | hrun := runIns_fetched (i := i) (row := row) (sp := sp) body hb he hc
  · exact .inr ⟨e, code_of_preExc hpre, congrArg _ hraise⟩
  · exact .inl (by rw [hrun, hm]; rfl)

/-- Settles O52: a row without memory is a register row, whose update has the frame, or the trap. -/
theorem registerInstructionFrame : Obligations.RegisterInstructionFrame := by
  intro x r s t b c hx hmem hb he u hc hm hexec
  obtain ⟨row, sp, body, hrun, hbody⟩ := coreRow_body hx s
  rw [hrun] at hexec
  injection hexec with ht
  obtain ⟨e, -, hraise⟩ | hstep := runIns_fetched (i := r.ins) (row := row) (sp := sp) body hb he hc
  · exact .inl ⟨e, ht.symm.trans hraise⟩
  · rw [hm, if_pos rfl] at hstep
    have hu : t = body u c := ht.symm.trans hstep
    cases hbody with
    | registers f _ hf hset => exact .inr ⟨f u c, hu.trans (hset u c), (hf u c).1⟩
    | trap e _ htrap => exact .inl ⟨e, hu.trans (htrap u c)⟩
    | load _ h _ | store _ _ h _ | update _ _ h _ | vecLoad _ _ _ h _ | vecStore _ _ _ h _ => exact absurd (hmem.symm.trans h) (by decide)

end Sys2Proof.Machine
end

