-- ==== Sys2Proof/Proofs/MemoryRows.lean ====
section
/-! PROOF. What the memory rows of the core do, one equation per outcome (R133, R141, R142, R147). -/

namespace Sys2Proof.Machine

/-- The core of what runs the instruction is changed, where there is one. -/
def writeBack (s : State) (who : Who) (f : Core → Core) : State :=
  match coreOf s who with
  | none => s
  | some c => setCore s who (f c)

section
variable {s : State} {who : Who} {c d : Core} {i : Ins} {addr : Word} {l : Loc}

theorem writeBack_of_core (hc : coreOf s who = some c) (f : Core → Core) : writeBack s who f = setCore s who (f c) := by
  simp only [writeBack, hc]

theorem coreOf_writeBack (hc : coreOf s who = some c) (f : Core → Core) : coreOf (writeBack s who f) who = some (f c) := by
  rw [writeBack_of_core hc, coreOf_setCore _ hc]

theorem loadTo_error {e : Exc} (c : Core) (h : loadMem s who addr (sizeOfMod i) 0 = .error e) : loadTo who i s c addr = raiseExc s who c.pc e := by
  simp only [loadTo, h]

theorem loadTo_ok {bs : List Byte} (c : Core) (h : loadMem s who addr (sizeOfMod i) 0 = .ok (bs, l)) :
    loadTo who i s c addr =
      writeBack (accessCost (correctLoc s who l) who l 2 16 3).2 who fun c =>
        (c.setG i.dst.toNat (extend i bs)).retire (accessCost (correctLoc s who l) who l 2 16 3).1 := by
  simp only [loadTo, h]
  rfl

theorem storeFrom_error {e : Exc} (c : Core) (v : Word) (h : storePlace s who addr (sizeOfMod i) 0 = .error e) :
    storeFrom who i s c addr v = raiseExc s who c.pc e := by
  simp only [storeFrom, h]

theorem storeFrom_ok (c : Core) (v : Word) (h : storePlace s who addr (sizeOfMod i) 0 = .ok l) :
    storeFrom who i s c addr v =
      (let t := writeLoc (correctLoc s who l) who ((wordBytes v).take (sizeOfMod i)) l
       writeBack (accessCost t who l 2 16 3).2 who fun c => c.retire (accessCost t who l 2 16 3).1) := by
  simp only [storeFrom, h]
  rfl

/-- The state after the write of a read-modify-write: none where its function gives none (R142). -/
def written (s : State) (who : Who) (l : Loc) : Option Word → State
  | none => s
  | some v => writeLoc s who (wordBytes v) l

theorem rmw_error {e : Exc} (c : Core) (f : Word → Option Word) (h : locate s who addr 8 0 true = .error e) :
    rmw who i s c addr f = raiseExc s who c.pc e := by
  simp only [rmw, h]

theorem rmw_bad (c : Core) (f : Word → Option Word) (h : locate s who addr 8 0 true = .ok l) (hb : locBad s who l = true) :
    rmw who i s c addr f = raiseExc s who c.pc { code := xMemUnc, info := addr } := by
  simp only [rmw, h, hb, if_true]

theorem rmw_ok (c : Core) (f : Word → Option Word) (h : locate s who addr 8 0 true = .ok l) (hb : locBad s who l = false) :
    rmw who i s c addr f =
      (let old := BitVec.ofNat 64 (leVal (readLoc s who 8 l))
       let t := written (correctLoc s who l) who l (f old)
       writeBack (accessCost t who l 3 20 4).2 who fun c => (c.setG i.dst.toNat old).retire (accessCost t who l 3 20 4).1) := by
  simp only [rmw, h, hb]
  rfl

/-- The word that a lane of a vector load reads (R147). -/
def laneWord (s : State) (who : Who) (p : Nat × Word) : Word :=
  match loadMem s who p.2 8 p.1 with
  | .error _ => 0
  | .ok (bs, _) => BitVec.ofNat 64 (leVal bs)

/-- The store of one lane of a vector store: nothing where the place does not exist. -/
def storeLane (c : Core) (i : Ins) (who : Who) (s : State) (p : Nat × Word) : State :=
  match locate s who p.2 8 p.1 true with
  | .error _ => s
  | .ok l => writeLoc (correctLoc s who l) who (wordBytes (c.laneD i p.1)) l

variable {as : List (Nat × Word)} {sc be : Nat}

theorem vecLoad_error {e : Exc} (h : worstExc (as.filterMap fun p => laneExc s who false p.2 p.1) = some e) :
    vecLoad who i s c as sc be = raiseExc s who c.pc e := by
  simp only [vecLoad, h]

theorem vecLoad_ok (h : worstExc (as.filterMap fun p => laneExc s who false p.2 p.1) = none) :
    vecLoad who i s c as sc be =
      (let ls := lanePlaces s who as false
       let t := ls.foldl (fun t l => correctLoc t who l) s
       writeBack (vecCost t ls sc be).2 who fun c =>
        ((as.map fun p => (p.1, laneWord s who p)).foldl (fun d p => d.setV i.dst.toNat p.1 p.2) c).retire (vecCost t ls sc be).1) := by
  simp only [vecLoad, h]
  rfl

theorem vecStore_error {e : Exc} (h : worstExc (as.filterMap fun p => laneExc s who true p.2 p.1) = some e) :
    vecStore who i s c as sc be = raiseExc s who c.pc e := by
  simp only [vecStore, h]

theorem vecStore_ok (h : worstExc (as.filterMap fun p => laneExc s who true p.2 p.1) = none) :
    vecStore who i s c as sc be =
      (let t := as.foldl (storeLane c i who) s
       let k := vecCost t (lanePlaces s who as true) sc be
       writeBack k.2 who fun c => c.retire k.1) := by
  simp only [vecStore, h]
  rfl

end

end Sys2Proof.Machine
end

