-- ==== Sys2Proof/Proofs/CoreRuns.lean ====
section
/-! PROOF. The one form of the whole state, kept by every instruction of the core (R120, R127). -/

namespace Sys2Proof.Machine

open Sys2Proof.Safety

/-- The queue is the same, and the one form of the state is kept. -/
structure Tame (s t : State) : Prop where
  pending : t.pending = s.pending
  canonical : Canonical s → Canonical t

theorem Tame.trans {s t u : State} (h : Tame s t) (k : Tame t u) : Tame s u := ⟨k.pending.trans h.pending, k.canonical ∘ h.canonical⟩

theorem Tame.refl (s : State) : Tame s s := ⟨rfl, id⟩

/-- A core that is related to one of before has kept its form. -/
theorem canonical_of_rel {a b : Option Core} (h : Option.Rel Noted a b) (ha : ∀ c, a = some c → CoreCanonical c) {d : Core} (hd : b = some d) :
    CoreCanonical d := by
  cases h with
  | none => cases hd
  | some hn =>
    cases hd
    exact hn.2 (ha _ rfl)

theorem Keeps.tame {s t : State} (h : Keeps s t) : Tame s t where
  pending := h.pending
  canonical := by
    rintro ⟨hctxs, hagents, hbenches, hctx, hagent, hbench⟩
    refine ⟨h.ctxsWf hctxs, h.agentsWf hagents, h.benchesWf hbenches, fun n x hx => ?ctx, fun id a ha => ?agent, fun b x hx => ?bench⟩
    case ctx =>
      refine canonical_of_rel (h.ctxs n) (fun c hc => ?_) (congrArg (Option.map _) hx)
      obtain ⟨y, hy, rfl⟩ := Option.map_eq_some_iff.mp hc
      exact hctx n y hy
    case agent =>
      refine canonical_of_rel (h.agents id) (fun c hc => ?_) (congrArg (Option.map _) ha)
      obtain ⟨y, hy, rfl⟩ := Option.map_eq_some_iff.mp hc
      exact hagent id y hy
    case bench =>
      have hmem := h.benchMem b
      simp only [FMap.getD, hx, Option.getD_some] at hmem
      rw [hmem]
      cases hb : s.eng.benches.get b with
      | none => rfl
      | some y => exact hbench b y hb

theorem Tame.keeps {s t u : State} (h : Tame s t) (k : Keeps t u) : Tame s u := h.trans k.tame

theorem Aside.tame {s t : State} (h : Aside s t) : Tame s t := h.keeps.tame

section
variable {s : State} {who : Who} {c d : Core}

/-- A core written back in its one form keeps that of the state. -/
theorem tame_setCore (hc : coreOf s who = some c) (h : CoreCanonical c → CoreCanonical d) : Tame s (setCore s who d) where
  pending := by cases who <;> rfl
  canonical := by
    rintro ⟨hctxs, hagents, hbenches, hctx, hagent, hbench⟩
    cases who with
    | ctx n =>
      refine ⟨FMap.wf_upd _ _ _ hctxs, hagents, hbenches, fun m x hx => ?_, hagent, hbench⟩
      by_cases hm : m = n
      · subst hm
        rw [setCore, State.onCtx_get] at hx
        obtain ⟨y, hy, rfl⟩ := Option.map_eq_some_iff.mp hx
        exact h (ctx_core_of_coreOf hc hy ▸ hctx m y hy)
      · rw [setCore, State.onCtx_other _ _ _ _ hm] at hx
        exact hctx m x hx
    | agent id =>
      refine ⟨hctxs, FMap.wf_upd _ _ _ hagents, hbenches, hctx, fun m a ha => ?_, hbench⟩
      by_cases hm : m = id
      · subst hm
        rw [setCore, State.onAgent_get] at ha
        obtain ⟨y, hy, rfl⟩ := Option.map_eq_some_iff.mp ha
        exact h (agent_core_of_coreOf hc hy ▸ hagent m y hy)
      · rw [setCore, State.onAgent_other _ _ _ _ hm] at ha
        exact hagent m a ha

theorem tame_writeLoc (s : State) (who : Who) (bs : List Byte) (l : Loc) : Tame s (writeLoc s who bs l) := by
  cases l with
  | own a =>
    simp only [writeLoc]
    cases hc : coreOf s who with
    | none => exact Tame.refl s
    | some c => exact tame_setCore hc (coreCanonical_store (memWf_memStore _ _ _) _)
  | bench b a =>
    refine ⟨rfl, ?_⟩
    rintro ⟨hctxs, hagents, hbenches, hctx, hagent, hbench⟩
    refine ⟨hctxs, hagents, FMap.wf_set _ _ _ hbenches, hctx, hagent, fun k x hx => ?_⟩
    by_cases hk : k = b
    · subst hk
      simp only [writeLoc, State.onBench, State.onEng_eng, FMap.get_set_same, Option.some.injEq] at hx
      subst hx
      refine memWf_memStore _ _ _ ?_
      unfold FMap.getD
      cases hb : s.eng.benches.get k with
      | none => rfl
      | some y => exact hbench k y hb
    · simp only [writeLoc, State.onBench, State.onEng_eng, FMap.get_set_ne _ _ _ _ hk] at hx
      exact hbench k x hx

/-! What the rows of the core keep. -/

theorem noted_setG (c : Core) (n : Nat) (v : Word) : Noted c (c.setG n v) := ⟨Core.setG_mem .., coreCanonical_setG n v⟩

theorem noted_setLanes (vals : List (Nat × Word)) (n : Nat) (c : Core) : Noted c (vals.foldl (fun d p => d.setV n p.1 p.2) c) :=
  List.foldlRecOn (motive := fun d => Noted c d) vals _ (Noted.refl c) fun _ hd _ _ => hd.trans ⟨rfl, coreCanonical_setV _ _ _⟩

end

theorem keeps_writeBack (s : State) (who : Who) {f : Core → Core} (hf : ∀ c, Noted c (f c)) : Keeps s (writeBack s who f) := by
  unfold writeBack
  split
  · exact Keeps.refl s
  · exact keeps_setCore ‹_› (hf _)

theorem keeps_loadTo (who : Who) (i : Ins) (s : State) (c : Core) (addr : Word) : Keeps s (loadTo who i s c addr) := by
  cases h : loadMem s who addr (sizeOfMod i) 0 with
  | error e => rw [loadTo_error c h]; exact keeps_raiseExc ..
  | ok p =>
    rw [loadTo_ok c h]
    refine Keeps.trans ?_ (keeps_writeBack _ who fun c => noted_setG c _ _)
    exact (keeps_correctLoc ..).aside (aside_accessCost ..)

theorem keeps_vecLoad (who : Who) (i : Ins) (s : State) (c : Core) (as : List (Nat × Word)) (sc be : Nat) : Keeps s (vecLoad who i s c as sc be) := by
  cases h : worstExc (as.filterMap fun p => laneExc s who false p.2 p.1) with
  | some e => rw [vecLoad_error h]; exact keeps_raiseExc ..
  | none =>
    rw [vecLoad_ok h]
    refine Keeps.trans ?_ (keeps_writeBack _ who fun c => noted_setLanes _ _ c)
    exact (Keeps.foldl (fun t l => keeps_correctLoc t who l) _ s).aside (aside_vecCost ..)

theorem tame_storeFrom (who : Who) (i : Ins) (s : State) (c : Core) (addr v : Word) : Tame s (storeFrom who i s c addr v) := by
  cases h : storePlace s who addr (sizeOfMod i) 0 with
  | error e => rw [storeFrom_error c v h]; exact (keeps_raiseExc ..).tame
  | ok l =>
    rw [storeFrom_ok c v h]
    refine Tame.keeps ?_ (keeps_writeBack _ who fun _ => ⟨rfl, fun h => h⟩)
    exact ((keeps_correctLoc ..).tame.trans (tame_writeLoc ..)).trans (aside_accessCost ..).tame

theorem tame_written (s : State) (who : Who) (l : Loc) (v : Option Word) : Tame s (written s who l v) := by
  cases v with
  | none => exact Tame.refl s
  | some v => exact tame_writeLoc ..

theorem tame_rmw (who : Who) (i : Ins) (s : State) (c : Core) (addr : Word) (f : Word → Option Word) : Tame s (rmw who i s c addr f) := by
  cases h : locate s who addr 8 0 true with
  | error e => rw [rmw_error c f h]; exact (keeps_raiseExc ..).tame
  | ok l =>
    cases hb : locBad s who l with
    | true => rw [rmw_bad c f h hb]; exact (keeps_raiseExc ..).tame
    | false =>
      rw [rmw_ok c f h hb]
      refine Tame.keeps ?_ (keeps_writeBack _ who fun c => noted_setG c _ _)
      exact ((keeps_correctLoc ..).tame.trans (tame_written ..)).trans (aside_accessCost ..).tame

theorem tame_storeLane (c : Core) (i : Ins) (who : Who) (s : State) (p : Nat × Word) : Tame s (storeLane c i who s p) := by
  unfold storeLane
  split
  · exact Tame.refl s
  · exact (keeps_correctLoc ..).tame.trans (tame_writeLoc ..)

theorem tame_vecStore (who : Who) (i : Ins) (s : State) (c : Core) (as : List (Nat × Word)) (sc be : Nat) : Tame s (vecStore who i s c as sc be) := by
  cases h : worstExc (as.filterMap fun p => laneExc s who true p.2 p.1) with
  | some e => rw [vecStore_error h]; exact (keeps_raiseExc ..).tame
  | none =>
    rw [vecStore_ok h]
    refine Tame.keeps ?_ (keeps_writeBack _ who fun _ => ⟨rfl, fun h => h⟩)
    refine Tame.trans ?_ (aside_vecCost ..).tame
    exact List.foldlRecOn (motive := fun t => Tame s t) as _ (Tame.refl s) fun t ht p _ => ht.trans (tame_storeLane c i who t p)

theorem noted_of_regEffect {r : CoreRow} {c d : Core} (h : RegEffect r c d) : Noted c d := ⟨h.1.1, h.2⟩

/-- The operation of a row of the core keeps the one form. -/
theorem tame_rowBody {r : CoreRow} {body : State → Core → State} (hbody : RowBody r body) {s : State} {c : Core} (hc : coreOf s r.who = some c) :
    Tame s (body s c) := by
  cases hbody with
  | registers f _ hf h => rw [h]; exact (keeps_setCore hc (noted_of_regEffect (hf s c))).tame
  | trap e _ h => rw [h]; exact (keeps_raiseExc ..).tame
  | load addr _ h => rw [h]; exact (keeps_loadTo ..).tame
  | store addr v _ h => rw [h]; exact tame_storeFrom ..
  | update addr f _ h => rw [h]; exact tame_rmw ..
  | vecLoad as sc be _ h => rw [h]; exact (keeps_vecLoad ..).tame
  | vecStore as sc be _ h => rw [h]; exact tame_vecStore ..

/-- What an instruction does: nothing, or after its fetch an exception, a skip or the row's own operation. -/
theorem runIns_outcome (who : Who) (i : Ins) (row : Row) (sp : Option Nat) (s : State) (body : State → Core → State) :
    runIns who i row sp s body = s ∨
      ∃ b c, coreOf s who = some b ∧ coreOf (correctLoc s who (.own b.pc.toNat)) who = some c ∧
        ((∃ e, runIns who i row sp s body = raiseExc (correctLoc s who (.own b.pc.toNat)) who c.pc e) ∨
          runIns who i row sp s body = setCore (correctLoc s who (.own b.pc.toNat)) who (c.retire 1) ∨
          runIns who i row sp s body = body (correctLoc s who (.own b.pc.toNat)) c) := by
  cases he : s.executes who with
  | false => exact .inl (runIns_idle i row sp body he)
  | true =>
    cases hb : coreOf s who with
    | none => exact .inl (by unfold runIns; rw [hb])
    | some b =>
      obtain ⟨soft, hc⟩ := coreOf_correctLoc (.own b.pc.toNat) hb
      refine .inr ⟨b, _, rfl, hc, ?_⟩
      obtain ⟨e, -, hraise⟩ | hrun := runIns_fetched (i := i) (row := row) (sp := sp) body hb he hc
      · exact .inl ⟨e, hraise⟩
      · split at hrun
        · exact .inr (.inr hrun)
        · exact .inr (.inl hrun)

theorem tame_runIns {r : CoreRow} {body : State → Core → State} (hbody : RowBody r body) (row : Row) (sp : Option Nat) (s : State) :
    Tame s (runIns r.who r.ins row sp s body) := by
  obtain h | ⟨b, c, -, hc, h⟩ := runIns_outcome r.who r.ins row sp s body
  · rw [h]; exact Tame.refl s
  · obtain ⟨e, h⟩ | h | h := h
    all_goals
      rw [h]
      refine (keeps_correctLoc s r.who (.own b.pc.toNat)).tame.trans ?_
    · exact (keeps_raiseExc ..).tame
    · exact tame_setCore hc fun h => h
    · exact tame_rowBody hbody hc

/-! An idle block. -/

theorem aside_floorRaised (s : State) : Aside s (floorRaised s) := by
  refine Aside.trans ?_ (aside_journal ..)
  exact .ite (.of_eq rfl rfl rfl rfl) (aside_onPower ..)

theorem aside_idle (s : State) : Aside s (idle s) := by
  have htick : Aside s (tick s) := .ite (.of_eq rfl rfl rfl rfl) (Aside.refl s)
  refine htick.trans (.ite (Aside.refl _) (.ite ?_ (aside_onPower ..)))
  exact (aside_onPower ..).trans (aside_floorRaised ..)

/-- Settles O59: every instruction of the core keeps the form and leaves the rest of the queue, and an idle block touches neither. -/
theorem coreRunStaysCanonical : Obligations.CoreRunStaysCanonical := by
  rintro s t ⟨hqueue, hcanonical⟩ hstep
  unfold step at hstep
  cases hp : s.pending with
  | nil =>
    simp only [hp, Host.Outcome.next.injEq] at hstep
    obtain ⟨hpending, hform⟩ := (aside_idle s).tame
    subst hstep
    exact ⟨by rw [hpending]; exact hqueue, hform hcanonical⟩
  | cons x rest =>
    simp only [hp] at hstep
    rw [hp] at hqueue
    obtain ⟨r, hr⟩ := Option.isSome_iff_exists.mp (hqueue x List.mem_cons_self)
    obtain ⟨row, sp, body, hexec, hbody⟩ := coreRow_body hr { s with pending := rest }
    rw [hexec, Host.Outcome.next.injEq] at hstep
    obtain ⟨hpending, hform⟩ := tame_runIns hbody row sp { s with pending := rest }
    subst hstep
    exact ⟨by rw [hpending]; exact fun y hy => hqueue y (List.mem_cons_of_mem x hy), hform hcanonical⟩

/-- Settles O60: the unpowered package holds no core, no bench and no command. -/
theorem resetIsCanonical : Obligations.ResetIsCanonical := by
  refine ⟨fun x h => (List.not_mem_nil h).elim, rfl, rfl, rfl, fun n x h => ?_, fun id a h => ?_, fun b x h => ?_⟩
  all_goals cases h

end Sys2Proof.Machine
end

