-- ==== Sys2Proof/Proofs/MemoryFrames.lean ====
section
/-! PROOF. The places of accesses, which no correction moves, and the bytes that the memory rows leave alone (R127, R133, R141, R142, R147). -/

namespace Sys2Proof.Machine

open Sys2Proof.Safety

/-! Places. -/

section
variable {s t : State} {who : Who} {c : Core}

theorem windowOf_setCore (s : State) (v who : Who) (d : Core) : windowOf (setCore s v d) who = windowOf s who := by
  cases who with
  | agent id => rfl
  | ctx n =>
    cases v with
    | agent id => rfl
    | ctx m =>
      simp only [windowOf, setCore]
      by_cases h : n = m
      · subst h
        rw [State.onCtx_get]
        cases s.eng.ctxs.get n <;> rfl
      · rw [State.onCtx_other _ _ _ _ h]

theorem Aside.windowOf (h : Aside s t) (who : Who) : windowOf t who = windowOf s who := by
  cases who with
  | agent id => rfl
  | ctx n => simp only [Machine.windowOf, h.eng]

theorem windowOf_correctLoc (s : State) (who : Who) (l : Loc) : windowOf (correctLoc s who l) who = windowOf s who := by
  cases l with
  | own a =>
    cases hc : coreOf s who with
    | none => rw [correctLoc_of_none a hc]
    | some c =>
      cases h : c.eccSoft.contains (a / 8) with
      | false => rw [correctLoc_clean hc a h]
      | true => rw [(correctLoc_own_soft hc h).windowOf, windowOf_setCore]
  | bench b a =>
    obtain h | h := correctLoc_bench s who b a
    · rw [h]
    · rw [h.windowOf]
      cases who <;> rfl

theorem windowOf_writeLoc (s : State) (who : Who) (bs : List Byte) (l : Loc) : windowOf (writeLoc s who bs l) who = windowOf s who := by
  cases l with
  | own a =>
    simp only [writeLoc]
    cases coreOf s who with
    | none => rfl
    | some c => exact windowOf_setCore ..
  | bench b a => cases who <;> rfl

/-- A place depends on the window alone. -/
theorem locate_congr (h : windowOf t who = windowOf s who) (addr : Word) (n lane : Nat) (store : Bool) :
    locate t who addr n lane store = locate s who addr n lane store := by
  simp only [locate, h]

theorem locate_correctLoc (s : State) (who : Who) (l : Loc) (addr : Word) (n lane : Nat) (store : Bool) :
    locate (correctLoc s who l) who addr n lane store = locate s who addr n lane store :=
  locate_congr (windowOf_correctLoc ..) ..

theorem Aside.locBad (h : Aside s t) (who : Who) (l : Loc) : locBad t who l = locBad s who l := by
  cases l with
  | own a => simp only [Machine.locBad, h.coreOf]
  | bench b a => simp only [Machine.locBad, h.eng]

/-- A correction leaves every uncorrectable word as it is. -/
theorem locBad_correctLoc (s : State) (who : Who) (l m : Loc) : locBad (correctLoc s who l) who m = locBad s who m := by
  cases l with
  | own a =>
    cases hc : coreOf s who with
    | none => rw [correctLoc_of_none a hc]
    | some c =>
      cases h : c.eccSoft.contains (a / 8) with
      | false => rw [correctLoc_clean hc a h]
      | true =>
        rw [(correctLoc_own_soft hc h).locBad]
        cases m with
        | own k => simp only [locBad, hc, coreOf_setCore _ hc]; rfl
        | bench k j => cases who <;> rfl
  | bench b a =>
    obtain h | h := correctLoc_bench s who b a
    · rw [h]
    · rw [h.locBad]
      cases m with
      | own k => cases who <;> rfl
      | bench k j =>
        by_cases hk : k = b
        · subst hk
          simp [locBad, State.onBench, FMap.getD]
        · simp [locBad, State.onBench, FMap.getD, FMap.get_set_ne _ _ _ _ hk]

theorem storePlace_correctLoc (s : State) (who : Who) (l : Loc) (addr : Word) (n lane : Nat) :
    storePlace (correctLoc s who l) who addr n lane = storePlace s who addr n lane := by
  simp only [storePlace, locate_correctLoc, locBad_correctLoc]

/-- A store of whole words needs no readable word. -/
theorem storePlace_eight (s : State) (who : Who) (addr : Word) : storePlace s who addr 8 0 = locate s who addr 8 0 true := by
  unfold storePlace
  cases locate s who addr 8 0 true with
  | error e => rfl
  | ok l => simp

/-! Bytes left alone. -/

theorem coreOf_setCore_ne {v : Who} (h : v ≠ who) (d : Core) : coreOf (setCore s who d) v = coreOf s v := by
  cases who with
  | ctx n =>
    cases v with
    | agent id => rfl
    | ctx m =>
      have hm : m ≠ n := fun hmn => h (by rw [hmn])
      simp only [coreOf, setCore, State.onCtx_other _ _ _ _ hm]
  | agent n =>
    cases v with
    | ctx m => rfl
    | agent m =>
      have hm : m ≠ n := fun hmn => h (by rw [hmn])
      simp only [coreOf, setCore, State.onAgent_other _ _ _ _ hm]

theorem memBytes_memStore_out {m : List Host.Cell} {a k : Nat} {bs : List Byte} (h : k < a ∨ a + bs.length ≤ k) :
    memBytes (memStore m a bs) k 1 = memBytes m k 1 := by
  simp [memBytes, memRead_memStore_out _ _ _ _ h]

/-- A write leaves the bytes that it does not touch. -/
theorem readLoc_writeLoc_untouched {v : Who} {l p : Loc} {bs : List Byte} (h : touches who p bs.length v l = false) :
    readLoc (writeLoc s who bs p) v 1 l = readLoc s v 1 l := by
  cases p with
  | own a =>
    simp only [writeLoc]
    cases hc : coreOf s who with
    | none => rfl
    | some c =>
      cases l with
      | bench b k => cases who <;> rfl
      | own k =>
        by_cases hv : v = who
        · subst hv
          simp only [readLoc, hc, coreOf_setCore _ hc, Option.map_some, Option.getD_some]
          refine memBytes_memStore_out ?_
          simp [touches] at h
          omega
        · simp only [readLoc, coreOf_setCore_ne hv]
  | bench b a =>
    cases l with
    | own k => cases v <;> rfl
    | bench j k =>
      by_cases hj : j = b
      · subst hj
        simp only [readLoc, writeLoc, State.onBench, State.onEng_eng, FMap.getD, FMap.get_set_same, Option.getD_some]
        refine memBytes_memStore_out ?_
        simp [touches] at h
        omega
      · simp [readLoc, writeLoc, State.onBench, FMap.getD, FMap.get_set_ne _ _ _ _ hj]

end

/-- Every byte at which nothing was stored reads as before: a state that keeps its memories keeps every byte. -/
theorem Keeps.sameBytes {s t : State} (h : Keeps s t) (hit : Who → Loc → Bool) : SameBytes s t hit := fun v l _ => h.readLoc v 1 l

theorem sameBytes_trans {s t u : State} {hit : Who → Loc → Bool} (h : SameBytes s t hit) (k : SameBytes t u hit) : SameBytes s u hit :=
  fun v l hl => (k v l hl).trans (h v l hl)

/-- What keeps every memory may stand before or after. -/
theorem sameBytes_keeps {s t u : State} {hit : Who → Loc → Bool} (h : SameBytes s t hit) (k : Keeps t u) : SameBytes s u hit := sameBytes_trans h (k.sameBytes hit)

theorem Keeps.then {s t u : State} {hit : Who → Loc → Bool} (h : Keeps s t) (k : SameBytes t u hit) : SameBytes s u hit := sameBytes_trans (h.sameBytes hit) k

theorem sameBytes_writeLoc (s : State) (who : Who) (bs : List Byte) (p : Loc) : SameBytes s (writeLoc s who bs p) (touches who p bs.length) :=
  fun _ _ h => readLoc_writeLoc_untouched h

/-- The bytes of a store of n bytes at an address: none where it has no place. -/
def storedAt (s : State) (who : Who) (addr : Word) (n : Nat) (v : Who) (l : Loc) : Bool :=
  match storePlace s who addr n 0 with
  | .ok p => touches who p n v l
  | .error _ => false

/-- The bytes of the words of lanes. -/
def lanesStoredAt (s : State) (who : Who) (as : List (Nat × Word)) (v : Who) (l : Loc) : Bool :=
  as.any fun p => match locate s who p.2 8 p.1 true with
    | .ok q => touches who q 8 v l
    | .error _ => false

theorem length_take_wordBytes (v : Word) (i : Ins) : ((wordBytes v).take (sizeOfMod i)).length = sizeOfMod i := by
  have hsize : sizeOfMod i ≤ 2 ^ 3 := Nat.pow_le_pow_right (by decide) (by omega)
  rw [List.length_take, length_wordBytes]
  omega

section
variable {s : State} {who : Who} {i : Ins}

theorem sameBytes_storeFrom (c : Core) (addr v : Word) : SameBytes s (storeFrom who i s c addr v) (storedAt s who addr (sizeOfMod i)) := by
  cases h : storePlace s who addr (sizeOfMod i) 0 with
  | error e => rw [storeFrom_error c v h]; exact (keeps_raiseExc ..).sameBytes _
  | ok p =>
    have hhit : storedAt s who addr (sizeOfMod i) = touches who p (sizeOfMod i) := by
      funext v l
      simp only [storedAt, h]
    rw [storeFrom_ok c v h, hhit]
    refine sameBytes_keeps ?_ (keeps_writeBack _ who fun _ => ⟨rfl, fun h => h⟩)
    refine sameBytes_keeps ?_ (aside_accessCost ..).keeps
    refine (keeps_correctLoc s who p).then ?_
    have hwrite := sameBytes_writeLoc (correctLoc s who p) who ((wordBytes v).take (sizeOfMod i)) p
    rwa [length_take_wordBytes] at hwrite

theorem sameBytes_rmw (c : Core) (addr : Word) (f : Word → Option Word) : SameBytes s (rmw who i s c addr f) (storedAt s who addr 8) := by
  cases h : locate s who addr 8 0 true with
  | error e => rw [rmw_error c f h]; exact (keeps_raiseExc ..).sameBytes _
  | ok p =>
    cases hb : locBad s who p with
    | true => rw [rmw_bad c f h hb]; exact (keeps_raiseExc ..).sameBytes _
    | false =>
      have hhit : storedAt s who addr 8 = touches who p 8 := by
        funext v l
        simp only [storedAt, storePlace_eight, h]
      rw [rmw_ok c f h hb, hhit]
      refine sameBytes_keeps ?_ (keeps_writeBack _ who fun c => noted_setG c _ _)
      refine sameBytes_keeps ?_ (aside_accessCost ..).keeps
      refine (keeps_correctLoc s who p).then ?_
      cases f (BitVec.ofNat 64 (leVal (readLoc s who 8 p))) with
      | none => exact (Keeps.refl _).sameBytes _
      | some v =>
        have hwrite := sameBytes_writeLoc (correctLoc s who p) who (wordBytes v) p
        rwa [length_wordBytes] at hwrite

theorem windowOf_storeLane (c : Core) (s : State) (p : Nat × Word) : windowOf (storeLane c i who s p) who = windowOf s who := by
  unfold storeLane
  split
  · rfl
  · rw [windowOf_writeLoc, windowOf_correctLoc]

theorem sameBytes_vecStore (c : Core) (as : List (Nat × Word)) (sc be : Nat) : SameBytes s (vecStore who i s c as sc be) (lanesStoredAt s who as) := by
  cases h : worstExc (as.filterMap fun p => laneExc s who true p.2 p.1) with
  | some e => rw [vecStore_error h]; exact (keeps_raiseExc ..).sameBytes _
  | none =>
    rw [vecStore_ok h]
    refine sameBytes_keeps ?_ (keeps_writeBack _ who fun _ => ⟨rfl, fun h => h⟩)
    refine sameBytes_keeps ?_ (aside_vecCost ..).keeps
    intro v l hl
    refine (List.foldlRecOn (motive := fun t => windowOf t who = windowOf s who ∧ readLoc t v 1 l = readLoc s v 1 l) as _ ⟨rfl, rfl⟩ ?_).2
    rintro t ⟨hwindow, hread⟩ p hp
    refine ⟨(windowOf_storeLane c t p).trans hwindow, ?_⟩
    have hmiss := List.any_eq_false.mp hl p hp
    unfold storeLane
    rw [locate_congr hwindow]
    cases hq : locate s who p.2 8 p.1 true with
    | error e => exact hread
    | ok q =>
      simp only [hq, Bool.not_eq_true] at hmiss
      rw [← length_wordBytes (c.laneD i p.1)] at hmiss
      exact ((readLoc_writeLoc_untouched hmiss).trans ((keeps_correctLoc t who q).readLoc v 1 l)).trans hread

/-! The rows. -/

/-- A row that stores nothing, at whatever its fetch leaves. -/
theorem keeps_runIns_load {row : Row} {body : State → Core → State} (hbody : ∀ u c, Keeps u (body u c)) : Keeps s (runIns who i row none s body) := by
  obtain h | ⟨b, c, -, hc, h⟩ := runIns_outcome who i row none s body
  · rw [h]; exact Keeps.refl s
  · obtain ⟨e, h⟩ | h | h := h
    all_goals
      rw [h]
      refine (keeps_correctLoc s who (.own b.pc.toNat)).trans ?_
    · exact keeps_raiseExc ..
    · exact keeps_setCore hc ⟨rfl, fun h => h⟩
    · exact hbody ..

/-- A row that stores: its fetch moves neither its operands nor its places. -/
theorem sameBytes_runIns {row : Row} {body : State → Core → State} {b : Core} {hit : Who → Loc → Bool} (hb : coreOf s who = some b)
    (hbody : ∀ soft, SameBytes (correctLoc s who (.own b.pc.toNat)) (body (correctLoc s who (.own b.pc.toNat)) { b with eccSoft := soft }) hit) :
    SameBytes s (runIns who i row none s body) hit := by
  obtain h | ⟨b', c, hb', hc, h⟩ := runIns_outcome who i row none s body
  · rw [h]; exact (Keeps.refl s).sameBytes _
  · obtain rfl : b = b' := Option.some.inj (hb.symm.trans hb')
    obtain ⟨e, h⟩ | h | h := h
    all_goals
      rw [h]
      refine (keeps_correctLoc s who (.own b.pc.toNat)).then ?_
    · exact (keeps_raiseExc ..).sameBytes _
    · refine Keeps.sameBytes ?_ hit
      exact keeps_setCore hc ⟨rfl, fun h => h⟩
    · obtain ⟨soft, hsoft⟩ := coreOf_correctLoc (.own b.pc.toNat) hb
      rw [Option.some.inj (hc.symm.trans hsoft)]
      exact hbody soft

theorem storedAt_correctLoc (s : State) (who : Who) (l : Loc) (addr : Word) (n : Nat) : storedAt (correctLoc s who l) who addr n = storedAt s who addr n := by
  funext v m
  simp only [storedAt, storePlace_correctLoc]

theorem lanesStoredAt_correctLoc (s : State) (who : Who) (l : Loc) (as : List (Nat × Word)) :
    lanesStoredAt (correctLoc s who l) who as = lanesStoredAt s who as := by
  funext v m
  simp only [lanesStoredAt, locate_correctLoc]

end

/-- Settles O53: loads keep every memory, and what stores touch lies at the places that the state before had for them. -/
theorem memoryInstructionFrame : Obligations.MemoryInstructionFrame := by
  intro s t who i c hc at' lanesAt
  have hat : at' = storedAt s who := rfl
  have hlanesAt : lanesAt = lanesStoredAt s who := rfl
  have hstore (addr v : Core → Word) {row : Row} (haddr : ∀ soft, addr { c with eccSoft := soft } = addr c) :
      SameBytes s (runIns who i row none s fun u c => storeFrom who i u c (addr c) (v c)) (at' (addr c) (sizeOfMod i)) :=
    sameBytes_runIns hc fun soft => by
      rw [haddr, hat, ← storedAt_correctLoc s who (.own c.pc.toNat)]
      exact sameBytes_storeFrom _ _ _
  have hupdate (f : Core → Word → Option Word) {row : Row} :
      SameBytes s (runIns who i row none s fun u c => rmw who i u c (c.opA i + i.simm) (f c)) (at' (c.opA i + i.simm) 8) :=
    sameBytes_runIns hc fun soft => by
      rw [hat, ← storedAt_correctLoc s who (.own c.pc.toNat)]
      exact sameBytes_rmw _ _ _
  have hlanes (as : Core → List (Nat × Word)) (be : State → Core → Nat) (sc : Nat) {row : Row} (has : ∀ soft, as { c with eccSoft := soft } = as c) :
      SameBytes s (runIns who i row none s fun u c => vecStore who i u c (as c) sc (be u c)) (lanesAt (as c)) :=
    sameBytes_runIns hc fun soft => by
      rw [has, hlanesAt, ← lanesStoredAt_correctLoc s who (.own c.pc.toNat)]
      exact sameBytes_vecStore _ _ _ _
  refine ⟨fun h => ?loads, fun h => ?st, fun h => ?stx, fun h => ?updates, fun h => ?vst, fun h => ?vscatter⟩
  case loads =>
    obtain h | h | h | h := h
    all_goals
      cases h
      refine (keeps_runIns_load fun u c => ?_).sameBytes _
    · exact keeps_loadTo ..
    · exact keeps_loadTo ..
    · exact keeps_vecLoad ..
    · exact keeps_vecLoad ..
  case st => cases h; exact hstore (fun c => c.opA i + i.simm) _ fun _ => rfl
  case stx => cases h; exact hstore (fun c => indexed c i) _ fun _ => rfl
  case updates =>
    obtain h | h := h
    all_goals
      cases h
      exact hupdate _
  case vst => cases h; exact hlanes (fun c => seqAddrs c i) _ _ fun _ => rfl
  case vscatter => cases h; exact hlanes (fun c => offAddrs c i) _ _ fun _ => rfl

end Sys2Proof.Machine
end

