-- ==== Sys2Proof/Proofs/MemoryResults.lean ====
section
/-! PROOF. Loads, stores and atomics that meet no exception: the values read and written, and the registers (R133, R135, R141, R142, R147). -/

namespace Sys2Proof.Machine

open Sys2Proof.Safety

/-! What a store leaves in memory. -/

theorem memBytes_memStore_same {m : List Host.Cell} (hm : memWf m = true) (a : Nat) (bs : List Byte) : memBytes (memStore m a bs) a bs.length = bs := by
  refine List.ext_getElem (by simp [memBytes]) fun k hk hk' => ?_
  simp [memBytes, memRead_memStore_in m a bs hm k hk', hk']

theorem length_memBytes (m : List Host.Cell) (a n : Nat) : (memBytes m a n).length = n := by simp [memBytes]

theorem leBytes_leVal (bs : List Byte) : leBytes bs.length (leVal bs) = bs := by
  induction bs with
  | nil => rfl
  | cons b bs ih =>
    have hlow : BitVec.ofNat 8 (b.toNat + 256 * leVal bs) = b := by
      apply BitVec.eq_of_toNat_eq
      have := b.isLt
      simp; omega
    have hhigh : (b.toNat + 256 * leVal bs) / 256 = leVal bs := by
      have := b.isLt
      omega
    rw [List.length_cons, leBytes, leVal, hlow, hhigh, ih]

theorem leVal_lt (bs : List Byte) : leVal bs < 256 ^ bs.length := by
  induction bs with
  | nil => simp [leVal]
  | cons b bs ih =>
    have := b.isLt
    rw [leVal, List.length_cons, Nat.pow_succ]
    omega

/-- Eight bytes are the bytes of the word that they spell. -/
theorem wordBytes_leVal {bs : List Byte} (h : bs.length = 8) : wordBytes (BitVec.ofNat 64 (leVal bs)) = bs := by
  have hlt := leVal_lt bs
  rw [h] at hlt
  have hval : (BitVec.ofNat 64 (leVal bs)).toNat = leVal bs := Nat.mod_eq_of_lt hlt
  rw [wordBytes, hval, ← h, leBytes_leVal]

/-- The registers and pc are the same: only memory and error marks may differ. -/
def SameRegs (c d : Core) : Prop := d.g = c.g ∧ d.k = c.k ∧ d.v = c.v ∧ d.pc = c.pc

theorem SameRegs.refl (c : Core) : SameRegs c c := ⟨rfl, rfl, rfl, rfl⟩

theorem SameRegs.trans {c d e : Core} (h : SameRegs c d) (k : SameRegs d e) : SameRegs c e :=
  ⟨k.1.trans h.1, k.2.1.trans h.2.1, k.2.2.1.trans h.2.2.1, k.2.2.2.trans h.2.2.2⟩

section
variable {s t : State} {who : Who} {c d : Core} {i : Ins} {l : Loc}

/-- The memory that holds a place is in its one form. -/
def locWf (s : State) (who : Who) : Loc → Prop
  | .own _ => ∀ c, coreOf s who = some c → memWf c.mem = true
  | .bench b _ => memWf (s.eng.benches.getD b {}).mem = true

theorem Keeps.locWf (h : Keeps s t) (hl : locWf s who l) : locWf t who l := by
  cases l with
  | own a =>
    intro d hd
    have hrel := h.cores who
    rw [hd] at hrel
    generalize hs : coreOf s who = o at hrel
    cases hrel with
    | some hn => exact hn.1 ▸ hl _ hs
  | bench b a =>
    show memWf _ = true
    rw [h.benchMem]
    exact hl

/-- A write changes no register of the core that makes it. -/
theorem coreOf_writeLoc (bs : List Byte) (l : Loc) (hc : coreOf s who = some c) : ∃ d, coreOf (writeLoc s who bs l) who = some d ∧ SameRegs c d := by
  cases l with
  | own a =>
    simp only [writeLoc, hc]
    exact ⟨_, coreOf_setCore _ hc, rfl, rfl, rfl, rfl⟩
  | bench b a => exact ⟨c, by rw [← hc]; cases who <;> rfl, SameRegs.refl c⟩

/-- What was written is read. -/
theorem readLoc_writeLoc_same (bs : List Byte) (hc : coreOf s who = some c) (hl : locWf s who l) : readLoc (writeLoc s who bs l) who bs.length l = bs := by
  cases l with
  | own a =>
    simp only [writeLoc, hc, readLoc, coreOf_setCore _ hc, Option.map_some, Option.getD_some]
    exact memBytes_memStore_same (hl c hc) a bs
  | bench b a =>
    simp only [writeLoc, readLoc, State.onBench, State.onEng_eng, FMap.getD, FMap.get_set_same, Option.getD_some]
    exact memBytes_memStore_same hl a bs

theorem length_readLoc (n : Nat) (hc : coreOf s who = some c) : (readLoc s who n l).length = n := by
  cases l with
  | own a => simp [readLoc, hc, length_memBytes]
  | bench b a => exact length_memBytes ..

/-- Counting cycles and writing back to the core change no byte of memory. -/
theorem readLoc_writeBack_of_aside (h : Aside s t) {f : Core → Core} (hf : ∀ c, Noted c (f c)) (n : Nat) (m : Loc) :
    readLoc (writeBack t who f) who n m = readLoc s who n m :=
  ((keeps_writeBack t who hf).readLoc who n m).trans (h.keeps.readLoc who n m)

/-! Scalar loads, stores and atomics. -/

theorem coreOf_loadTo_ok {addr : Word} {bs : List Byte} (hc : coreOf s who = some c) (h : loadMem s who addr (sizeOfMod i) 0 = .ok (bs, l)) :
    ∃ n e, coreOf (loadTo who i s c addr) who = some ((Core.setG { c with eccSoft := e } i.dst.toNat (extend i bs)).retire n) := by
  obtain ⟨e, he⟩ := coreOf_correctLoc l hc
  rw [loadTo_ok c h]
  exact ⟨_, e, coreOf_writeBack (((aside_accessCost ..).coreOf who).trans he) _⟩

theorem coreOf_storeFrom_ok {addr : Word} (v : Word) (hc : coreOf s who = some c) (hl : locWf s who l)
    (h : storePlace s who addr (sizeOfMod i) 0 = .ok l) :
    ∃ n d, coreOf (storeFrom who i s c addr v) who = some (d.retire n) ∧ SameRegs c d ∧
      readLoc (storeFrom who i s c addr v) who (sizeOfMod i) l = (wordBytes v).take (sizeOfMod i) := by
  have hkeeps := keeps_correctLoc s who l
  obtain ⟨e, he⟩ := coreOf_correctLoc l hc
  obtain ⟨d, hd, hregs⟩ := coreOf_writeLoc ((wordBytes v).take (sizeOfMod i)) l he
  rw [storeFrom_ok c v h]
  refine ⟨_, d, coreOf_writeBack (((aside_accessCost ..).coreOf who).trans hd) _, hregs, ?_⟩
  have hread := readLoc_writeLoc_same ((wordBytes v).take (sizeOfMod i)) he (hkeeps.locWf hl)
  rw [length_take_wordBytes] at hread
  refine (readLoc_writeBack_of_aside (aside_accessCost ..) ?_ _ l).trans hread
  exact fun _ => ⟨rfl, fun h => h⟩

/-- The word that a read-modify-write leaves: what its function gives, or the old one. -/
theorem written_results (f : Option Word) (hc : coreOf s who = some c) (hl : locWf s who l) :
    ∃ d, coreOf (written s who l f) who = some d ∧ SameRegs c d ∧
      readLoc (written s who l f) who 8 l = wordBytes (f.getD (BitVec.ofNat 64 (leVal (readLoc s who 8 l)))) := by
  cases f with
  | none => exact ⟨c, hc, SameRegs.refl c, (wordBytes_leVal (length_readLoc 8 hc)).symm⟩
  | some v =>
    obtain ⟨d, hd, hregs⟩ := coreOf_writeLoc (wordBytes v) l hc
    exact ⟨d, hd, hregs, length_wordBytes v ▸ readLoc_writeLoc_same (wordBytes v) hc hl⟩

theorem coreOf_rmw_ok {addr : Word} (f : Word → Option Word) (hc : coreOf s who = some c) (hl : locWf s who l)
    (h : locate s who addr 8 0 true = .ok l) (hb : locBad s who l = false) :
    let old := BitVec.ofNat 64 (leVal (readLoc s who 8 l))
    ∃ n d, coreOf (rmw who i s c addr f) who = some ((d.setG i.dst.toNat old).retire n) ∧ SameRegs c d ∧
      readLoc (rmw who i s c addr f) who 8 l = wordBytes ((f old).getD old) := by
  intro old
  have hkeeps := keeps_correctLoc s who l
  obtain ⟨e, he⟩ := coreOf_correctLoc l hc
  obtain ⟨d, hd, hregs, hread⟩ := written_results (f old) he (hkeeps.locWf hl)
  rw [hkeeps.readLoc] at hread
  rw [rmw_ok c f h hb]
  refine ⟨_, d, coreOf_writeBack (((aside_accessCost ..).coreOf who).trans hd) _, hregs, ?_⟩
  refine (readLoc_writeBack_of_aside (aside_accessCost ..) ?_ 8 l).trans hread
  exact fun c => noted_setG c _ _

end

/-- Settles O4: the equations of the memory rows, with what a correction, a write and the count of cycles leave of the core. -/
theorem scalarMemoryResults : Obligations.ScalarMemoryResults := by
  intro s who c i l bs d a loads stores updates hctx hagent hbench
  have hwf : locWf s who l := by
    cases l with
    | bench b a => exact hbench b
    | own a =>
      intro e he
      cases who with
      | ctx n =>
        obtain ⟨x, hx, rfl⟩ := Option.map_eq_some_iff.mp he
        exact hctx n x rfl hx
      | agent id =>
        obtain ⟨x, hx, rfl⟩ := Option.map_eq_some_iff.mp he
        exact hagent id x rfl hx
  have hload {j : Instr} {row : Row} {addr : Word} (hr : Runs s who c i row) (hj : exec j s = .next (loadTo who i s c addr))
      (hm : loadMem s who addr (sizeOfMod i) 0 = .ok (bs, l)) : loads j := by
    obtain ⟨n, e, hcore⟩ := coreOf_loadTo_ok hr.1 hm
    exact ⟨_, n, e, hj, hcore⟩
  have hstore {j : Instr} {row : Row} {addr v : Word} (hr : Runs s who c i row) (hj : exec j s = .next (storeFrom who i s c addr v))
      (hp : storePlace s who addr (sizeOfMod i) 0 = .ok l) : stores j v := by
    obtain ⟨n, e, hcore, ⟨hg, hk, hv, hpc⟩, hread⟩ := coreOf_storeFrom_ok v hr.1 hwf hp
    exact ⟨_, n, e, hj, hcore, hg, hk, hv, hpc, hread⟩
  have hupdate {j : Instr} {row : Row} {f : Word → Option Word} (hr : Runs s who c i row) (hj : exec j s = .next (rmw who i s c a f))
      (hp : locate s who a 8 0 true = .ok l) (hb : locBad s who l = false) {v : Word}
      (hv : v = (f (BitVec.ofNat 64 (leVal (readLoc s who 8 l)))).getD (BitVec.ofNat 64 (leVal (readLoc s who 8 l)))) : updates j v := by
    obtain ⟨n, e, hcore, ⟨hg, hk, hregs, hpc⟩, hread⟩ := coreOf_rmw_ok f hr.1 hwf hp hb
    exact ⟨_, n, e, hj, hcore, hg, hk, hregs, hpc, hv ▸ hread⟩
  refine ⟨fun hr hm => ?ld, fun hr hm => ?ldx, fun hr hp => ?st, fun hr hp => ?stx, fun hr hp hb => ?amo, fun hr hp hb => ?cas⟩
  case ld => exact hload hr (congrArg _ (runIns_runs hr _)) hm
  case ldx => exact hload hr (congrArg _ (runIns_runs hr _)) hm
  case st => exact hstore hr (congrArg _ (runIns_runs hr _)) hp
  case stx => exact hstore hr (congrArg _ (runIns_runs hr _)) hp
  case amo => exact hupdate hr (congrArg _ (runIns_runs hr _)) hp hb rfl
  case cas =>
    refine hupdate hr (congrArg _ (runIns_runs hr _)) hp hb ?_
    split <;> rfl

/-! Vector loads and stores. -/

theorem worstExc_of_clear {s : State} {who : Who} {store : Bool} {as : List (Nat × Word)} (h : ∀ p ∈ as, laneExc s who store p.2 p.1 = none) :
    worstExc (as.filterMap fun p => laneExc s who store p.2 p.1) = none := by
  rw [List.filterMap_eq_nil_iff.mpr h]
  rfl

/-- Corrections at any places change only the error marks of the core. -/
theorem coreOf_correctLocs {s : State} {who : Who} {c : Core} (ls : List Loc) (hc : coreOf s who = some c) :
    ∃ e, coreOf (ls.foldl (fun t l => correctLoc t who l) s) who = some { c with eccSoft := e } := by
  refine List.foldlRecOn (motive := fun t => ∃ e, coreOf t who = some { c with eccSoft := e }) ls _ ⟨c.eccSoft, hc⟩ ?_
  rintro t ⟨e, he⟩ l -
  obtain ⟨e', he'⟩ := coreOf_correctLoc l he
  exact ⟨e', he'⟩

/-- Two states in which what runs the instruction sees the same window and the same memories. -/
structure SameView (who : Who) (s t : State) : Prop where
  window : windowOf t who = windowOf s who
  own : (coreOf t who).map (·.mem) = (coreOf s who).map (·.mem)
  bench : ∀ b, (t.eng.benches.getD b {}).mem = (s.eng.benches.getD b {}).mem

section
variable {who : Who} {s t u : State}

theorem SameView.refl (who : Who) (s : State) : SameView who s s := ⟨rfl, rfl, fun _ => rfl⟩

theorem SameView.trans (h : SameView who s t) (k : SameView who t u) : SameView who s u :=
  ⟨k.window.trans h.window, k.own.trans h.own, fun b => (k.bench b).trans (h.bench b)⟩

theorem SameView.readLoc (h : SameView who s t) (n : Nat) (l : Loc) : readLoc t who n l = readLoc s who n l := by
  cases l with
  | own a =>
    have hown (v : State) : (coreOf v who).map (fun c => memBytes c.mem a n) = ((coreOf v who).map (·.mem)).map fun m => memBytes m a n := by
      rw [Option.map_map]
      rfl
    simp only [Machine.readLoc, hown, h.own]
  | bench b a => simp only [Machine.readLoc, h.bench]

theorem sameView_correctLoc (who : Who) (s : State) (l : Loc) : SameView who s (correctLoc s who l) where
  window := windowOf_correctLoc s who l
  own := by
    have hrel := (keeps_correctLoc s who l).cores who
    generalize coreOf s who = a at *
    generalize coreOf (correctLoc s who l) who = b at *
    cases hrel with
    | none => rfl
    | some hn => exact congrArg some hn.1
  bench := (keeps_correctLoc s who l).benchMem

/-- The memory of a core after a write at a place. -/
theorem own_writeLoc (s : State) (who : Who) (bs : List Byte) (l : Loc) :
    (coreOf (writeLoc s who bs l) who).map (·.mem) = ((coreOf s who).map (·.mem)).map fun m => match l with
      | .own a => memStore m a bs
      | .bench _ _ => m := by
  cases l with
  | own a =>
    simp only [writeLoc]
    cases hc : coreOf s who with
    | none => rw [hc]; rfl
    | some c => rw [coreOf_setCore _ hc]; rfl
  | bench b a =>
    rw [Option.map_map]
    cases who <;> rfl

theorem SameView.writeLoc (h : SameView who s t) (bs : List Byte) (l : Loc) : SameView who (writeLoc s who bs l) (writeLoc t who bs l) where
  window := by rw [windowOf_writeLoc, windowOf_writeLoc, h.window]
  own := by rw [own_writeLoc, own_writeLoc, h.own]
  bench b := by
    cases l with
    | own a =>
      have hbench (v : State) : (Machine.writeLoc v who bs (.own a)).eng.benches = v.eng.benches := by
        simp only [Machine.writeLoc]
        cases coreOf v who with
        | none => rfl
        | some c => cases who <;> rfl
      rw [hbench, hbench, h.bench]
    | bench k a =>
      by_cases hb : b = k
      · subst hb
        simp [Machine.writeLoc, State.onBench, FMap.getD]
        exact congrArg (memStore · a bs) (h.bench b)
      · simpa [Machine.writeLoc, State.onBench, FMap.getD, FMap.get_set_ne _ _ _ _ hb] using h.bench b

/-- A lane's store without its correction. -/
def writeLane (c : Core) (i : Ins) (who : Who) (s : State) (p : Nat × Word) : State :=
  match locate s who p.2 8 p.1 true with
  | .error _ => s
  | .ok l => writeLoc s who (wordBytes (c.laneD i p.1)) l

theorem SameView.storeLane (h : SameView who s t) (c : Core) (i : Ins) (p : Nat × Word) : SameView who (writeLane c i who s p) (storeLane c i who t p) := by
  unfold writeLane Machine.storeLane
  rw [locate_congr h.window]
  cases locate s who p.2 8 p.1 true with
  | error e => exact h
  | ok l => exact (h.trans (sameView_correctLoc who t l)).writeLoc _ l

/-- Corrections between the stores of lanes change no byte. -/
theorem sameView_storeLanes (c : Core) (i : Ins) (as : List (Nat × Word)) (h : SameView who s t) :
    SameView who (as.foldl (writeLane c i who) s) (as.foldl (storeLane c i who) t) := by
  induction as generalizing s t with
  | nil => exact h
  | cons p as ih => exact ih (h.storeLane c i p)

theorem coreOf_storeLanes {c d : Core} (i : Ins) (as : List (Nat × Word)) (hd : coreOf s who = some d) :
    ∃ e, coreOf (as.foldl (storeLane c i who) s) who = some e ∧ SameRegs d e := by
  refine List.foldlRecOn (motive := fun t => ∃ e, coreOf t who = some e ∧ SameRegs d e) as _ ⟨d, hd, SameRegs.refl d⟩ ?_
  rintro t ⟨e, he, hregs⟩ p -
  unfold storeLane
  split
  · exact ⟨e, he, hregs⟩
  · rename_i l _
    obtain ⟨soft, hsoft⟩ := coreOf_correctLoc l he
    obtain ⟨e', he', hregs'⟩ := coreOf_writeLoc (wordBytes (c.laneD i p.1)) l hsoft
    exact ⟨e', he', hregs.trans hregs'⟩

end

/-- Settles O7: the lanes are loaded into the core that corrections leave, and corrections between the stores change no byte. -/
theorem vectorMemoryResults : Obligations.VectorMemoryResults := by
  intro s who c i row clear value loads stores
  have hload {j : Instr} {r : Row} {as : List (Nat × Word)} {sc be : Nat} (hr : Runs s who c i r) (hclear : clear as false)
      (hj : exec j s = .next (vecLoad who i s c as sc be)) : loads j as := by
    obtain ⟨e, he⟩ := coreOf_correctLocs (lanePlaces s who as false) hr.1
    rw [vecLoad_ok (worstExc_of_clear hclear)] at hj
    exact ⟨_, _, e, hj, coreOf_writeBack (((aside_vecCost _ _ _ _).coreOf who).trans he) _⟩
  have hstore {j : Instr} {r : Row} {as : List (Nat × Word)} {sc be : Nat} (hr : Runs s who c i r) (hclear : clear as true)
      (hj : exec j s = .next (vecStore who i s c as sc be)) : stores j as := by
    obtain ⟨e, he, hg, hk, hv, hpc⟩ := coreOf_storeLanes (c := c) i as hr.1
    rw [vecStore_ok (worstExc_of_clear hclear)] at hj
    have hcore := coreOf_writeBack (((aside_vecCost _ (lanePlaces s who as true) sc be).coreOf who).trans he)
    refine ⟨_, _, e, hj, hcore _, hg, hv, hk, hpc, fun m => ?_⟩
    refine (readLoc_writeBack_of_aside (aside_vecCost ..) ?_ 1 m).trans
      ((sameView_storeLanes c i as (SameView.refl who s)).readLoc 1 m)
    exact fun _ => ⟨rfl, fun h => h⟩
  refine ⟨fun hr h => ?vld, fun hr h => ?vgather, fun hr h => ?vst, fun hr h => ?vscatter⟩
  case vld => exact hload hr h (congrArg _ (runIns_runs hr _))
  case vgather => exact hload hr h (congrArg _ (runIns_runs hr _))
  case vst => exact hstore hr h (congrArg _ (runIns_runs hr _))
  case vscatter => exact hstore hr h (congrArg _ (runIns_runs hr _))

end Sys2Proof.Machine
end

