-- ==== Sys2Proof/Proofs/CoreResults.lean ====
section
/-! PROOF. What the instructions of the core that reach no memory leave: each row runs its operation, whose end is Retired or Branched. -/

namespace Sys2Proof.Machine

open Sys2Proof.Safety

section
variable {s : State} {who : Who} {c : Core} {i : Ins} {r : Row}

theorem next_runReg (h : Runs s who c i r) (hw ag : Nat) (f : Core → Core) :
    (Host.Outcome.next (runReg who i r hw ag s f) : Ans) = .next (Retired s who (f c) hw ag) :=
  congrArg _ (runReg_runs h hw ag f)

theorem next_runIns (h : Runs s who c i r) (body : State → Core → State) :
    (Host.Outcome.next (runIns who i r none s body) : Ans) = .next (body s c) :=
  congrArg _ (runIns_runs h body)

/-- A row whose form the MOD field picks. -/
theorem next_runReg_of_eq {hw ag : Nat} {f : Core → Core} (h : Runs s who c i r) {n : Nat} {d : Core} (hn : hw = n) (hd : f c = d) :
    (Host.Outcome.next (runReg who i r hw ag s f) : Ans) = .next (Retired s who d n ag) := by
  subst hn hd
  exact next_runReg h _ _ _

end

/-- Settles O1: each row of Table 4.6 on two registers is a register instruction that runs. -/
theorem scalarRegisterResults : Obligations.ScalarRegisterResults := by
  intro s who c i d a b
  and_intros
  all_goals exact fun h => next_runReg h _ _ _

/-- Settles O2: as O1; the row of KMOV is picked by MOD. -/
theorem scalarImmediateResults : Obligations.ScalarImmediateResults := by
  intro s who c i d a n
  have htog (h : i.mod = 0) : rowKmov i = { rowG 0x1D [0, 1] with srca := .k, srcb := .unused } := by simp [rowKmov, rowG, h]
  have htok (h : i.mod = 1) : rowKmov i = { rowG 0x1D [0, 1] with dst := .k, srcb := .unused } := by simp [rowKmov, rowG, h]
  refine ⟨?_, ?_, ?_, ?_, ?_, ?_, ?_, ?_, ?_, fun h hm => ?kmovTog, fun h hm => ?kmovTok, ?_, ?_⟩
  case kmovTog => exact next_runReg_of_eq (htog hm ▸ h) rfl (if_neg (by simp [hm]))
  case kmovTok => exact next_runReg_of_eq (htok hm ▸ h) rfl (if_pos hm)
  all_goals exact fun h => next_runReg h _ _ _

/-- The count that LOOP leaves is what g[d] then reads: zero for g0 and for a count of one (R140). -/
theorem getG_loop (c : Core) (i : Ins) :
    (c.setG i.dst.toNat (c.opD i - 1)).getG i.dst.toNat ≠ 0 ↔ i.dst.toNat ≠ 0 ∧ c.opD i ≠ 1 := by
  by_cases hd : i.dst.toNat = 0
  · simp [hd]
  · have hone : c.opD i - 1 = 0 ↔ c.opD i = 1 := by bv_omega
    rw [Core.getG_setG_same c _ _ hd, ne_eq, hone]
    exact (and_iff_right hd).symm

/-- Settles O3: each branch is its target; LOOP's branch is taken while its count is not zero. -/
theorem branchResults : Obligations.BranchResults := by
  intro s who c i d t ind
  refine ⟨?_, ?_, ?_, ?_, fun h hd hone => ?taken, fun h hend => ?ended⟩
  case taken => exact (next_runIns h _).trans (congrArg _ (if_pos ((getG_loop c i).mpr ⟨hd, hone⟩)))
  case ended => exact (next_runIns h _).trans (congrArg _ (if_neg fun hn => hend.elim ((getG_loop c i).mp hn).1 ((getG_loop c i).mp hn).2))
  all_goals exact fun h => next_runIns h _

/-- A context that exists stays. -/
theorem Keeps.ctx_exists {s t : State} {n : Nat} {x : Ctx} (h : Keeps s t) (hx : s.eng.ctxs.get n = some x) : ∃ y, t.eng.ctxs.get n = some y := by
  have hrel := h.ctxs n
  rw [hx] at hrel
  generalize t.eng.ctxs.get n = o at hrel ⊢
  cases o with
  | none => cases hrel
  | some y => exact ⟨y, rfl⟩

/-- An exception of a context leaves it FAULTED with the code (R181). -/
theorem ctxException_faulted {s : State} {n : Nat} {c : Core} (e : Exc) (h : coreOf s (.ctx n) = some c) :
    ∃ x, (ctxException s n e).eng.ctxs.get n = some x ∧ x.st = .faulted ∧ x.exc = BitVec.ofNat 8 e.code := by
  obtain ⟨x, hx, rfl⟩ := Option.map_eq_some_iff.mp h
  unfold ctxException
  rw [hx]
  simp only [State.onCtx_get]
  obtain ⟨y, hy⟩ := ((aside_post s _).keeps.trans (keeps_answerTaken _ n x stInvalid)).ctx_exists hx
  exact ⟨_, congrArg _ hy, rfl, rfl⟩

/-- Settles O5: SRD and SWR are register instructions whose special register is there; TRAP raises its exception. -/
theorem systemInstructionResults : Obligations.SystemInstructionResults := by
  intro s who c i v n
  refine ⟨fun h hv => ?srd, fun h hnum => ?swr, fun h => ?trap⟩
  case srd =>
    show Host.Outcome.next (runIns who i _ _ s _) = _
    rw [hv]
    exact (next_runIns h _).trans (by rw [hv]; rfl)
  case swr =>
    show Host.Outcome.next (runIns (.ctx n) i _ _ s _) = _
    rw [if_pos ⟨hnum, rfl⟩]
    exact next_runIns h _
  case trap =>
    obtain ⟨x, hx, hst, hexc⟩ := ctxException_faulted { code := xTrap, info := i.zimm } h.1
    exact ⟨_, x, next_runIns h _, hx, hst, hexc⟩

/-- Settles O6: each row of Table 4.12 is a register instruction that runs; MOD picks the form of the integer and float rows. -/
theorem vectorResults : Obligations.VectorResults := by
  intro s who c i la lb
  have hfloat (h : i.mod = 1) : ¬ i.mod = 0 := by rw [h]; decide
  refine ⟨fun h hm => ?vaddInt, fun h hm => ?vaddFlt, fun h hm => ?vsubInt, fun h hm => ?vsubFlt, fun h hm => ?vmulInt, fun h hm => ?vmulFlt,
    ?_, ?_, ?_, ?_, ?_, ?_, fun h hm => ?minInt, fun h hm => ?minFlt, fun h => ?vcmp, ?_⟩
  case vaddInt | vsubInt | vmulInt => exact next_runReg_of_eq h (if_pos hm) (if_pos hm)
  case vaddFlt | vsubFlt | vmulFlt => exact next_runReg_of_eq h (if_neg (hfloat hm)) (if_neg (hfloat hm))
  case minInt => exact next_runReg_of_eq h rfl (if_pos hm)
  case minFlt => exact next_runReg_of_eq h rfl (if_neg (Nat.not_lt.mpr hm))
  case vcmp => exact next_runReg_of_eq h rfl (by simp only [List.foldl_map]; rfl)
  all_goals and_intros
  all_goals exact fun h => next_runReg h _ _ _

/-- Settles O50: the fields of four words. -/
theorem sampleAglekWords : Obligations.SampleAglekWords := by
  unfold Obligations.SampleAglekWords
  decide

end Sys2Proof.Machine
end

