-- ==== Sys2Proof/Proofs/GraphAndTableResults.lean ====
section
/-! PROOF. The graph and the table group: each row runs its operation, which the sound operands take past its checks (R165 to R170). -/

namespace Sys2Proof.Machine

open Sys2Proof.Safety

/-- Settles O8: the checks of each row pass, and its body is the result. -/
theorem graphResults : Obligations.GraphResults := by
  intro s who c i a b bs q
  dsimp only
  refine ⟨fun h ha => ?glink, fun h ha => ?gnbr, fun h hm ha => ?neighbour, fun h hm ha hb => ?dist, fun h hbs hq hout hok ha hb => ?gpath⟩
  case glink => exact (next_runIns h _).trans (by simp only [ha])
  case gnbr => exact (next_runIns h _).trans (by simp only [ha])
  case neighbour => exact (next_runIns h _).trans (by simp only [ha, hm]; rfl)
  case dist => exact (next_runIns h _).trans (by simp only [ha, hb, hm]; rfl)
  case gpath => exact (next_runIns h _).trans (by simp only [hbs, hq, hout, hok, ha, hb, ne_eq, not_true_eq_false, if_false])

section
variable {s : State} {n tk : Nat} {c : Core} {i : Ins}

/-- With a free number, a ticket is recorded and the operation starts (R163). -/
theorem issueTicket_of_hasTicket (h : HasTicket s n tk) (cost : Nat) (t : Ticket) (k : Nat → Nat → State → State) :
    issueTicket (.ctx n) i s c cost t k = k n tk (Ticketed s n tk t c i cost) := by
  obtain ⟨x, hx, hfree⟩ := Option.bind_eq_some_iff.mp h
  simp only [issueTicket, hx, hfree]
  rfl

/-- A sound parameter block is read, and its bytes are corrected at the end. -/
theorem withBlock_of_good {who : Who} {k : Nat} {bs : List Byte} {good : List Byte → Bool} (h : paramBlock s who (c.opA i) k = .ok bs) (hgood : good bs = true)
    (f : List Byte → State) : withBlock s who i c k good f = correctRange (f bs) who (c.opA i) k := by
  simp only [withBlock, h, hgood, if_true]

end

theorem aside_missCost (s : State) (lines : Nat) : Aside s (missCost s lines).2 := by
  unfold missCost
  split
  · exact Aside.refl s
  · exact aside_nonce s _

/-- What a cached instruction leaves depends only on what its operation makes of the core. -/
theorem doneCached_congr {s : State} {who : Who} {c : Core} (hc : coreOf s who = some c) (cost lines : Nat) {f g : Core → Core} (h : f c = g c) :
    doneCached who s cost lines f = doneCached who s cost lines g := by
  simp only [doneCached, (aside_missCost s lines).coreOf who, hc, h]

/-- Settles O9: the checks of each row pass, and its body is the result. -/
theorem tableResults : Obligations.TableResults := by
  intro s n c i t id tk bs dests
  dsimp only
  refine ⟨fun h ht => ?tld, fun h ht => ?tst, fun h ht => ?tvld, fun h ht => ?tvst, fun h ht => ?tamo, fun h hid hmine hspace => ?tnew,
    fun h ht hmodel => ?tfree, fun h hbs hgood hsrc hplan htk htb hcnt hseven hw hon hsome hfit => ?tpush⟩
  case tld => exact (next_runIns h _).trans (by simp only [ht]; exact congrArg _ (doneCached_congr h.1 6 1 rfl))
  case tst => exact (next_runIns h _).trans (by simp only [ht]; rfl)
  case tvld => exact (next_runIns h _).trans (by simp only [ht]; exact congrArg _ (doneCached_congr h.1 12 16 rfl))
  case tvst => exact (next_runIns h _).trans (by simp only [ht]; rfl)
  case tamo => exact (next_runIns h _).trans (by simp only [ht])
  case tnew =>
    refine (next_runIns h _).trans ?_
    simp only [hid]
    rw [if_neg]
    · rfl
    · exact not_or.mpr ⟨Nat.not_le.mpr hmine, Nat.not_lt.mpr hspace⟩
  case tfree =>
    refine (next_runIns h _).trans ?_
    have hallowed : ¬(handleId (c.opA i) < 0x100 ∧ handleId (c.opA i) ≠ 0 ∧ (!isSystem n) = true) := by simpa only [Bool.not_eq_true'] using hmodel
    simp only [if_neg hallowed, ht]
  case tpush =>
    refine (next_runIns h _).trans ?_
    have hwidth : pushWidth (Ticketed s n tk { op := 0x77, dom := 18 } c i 20) n bs = 2 ^ t.es := by
      show pushWidth s n bs = _
      simp only [pushWidth, hsrc]
    simp only [withBlock_of_good hbs hgood, hplan, issueTicket_of_hasTicket htk]
    refine congrArg (fun u => Host.Outcome.next (correctRange u (.ctx n) (c.opA i) 40))
      ((if_neg fun hf => hon hf.2).trans ((if_neg ?fits).trans (if_neg ?some)))
    case fits => simpa [htb, hcnt, hseven, hw, hwidth.symm] using hfit
    case some => simpa using hsome

end Sys2Proof.Machine
end

