-- ==== Sys2Proof/Proofs/Wakes.lean ====
section
/-! PROOF. A wake event changes the domains alone (R62 to R66). -/

namespace Sys2Proof.Machine

section
variable (s : State) (d : Nat)

theorem wakeOne_eq_onPower : wakeOne s d = s.onPower fun _ => (wakeOne s d).power := by
  unfold wakeOne
  repeat' split
  all_goals rfl

theorem wake_eq_onPower : wake s d = s.onPower fun _ => (wake s d).power := by
  unfold wake
  refine List.foldlRecOn (motive := fun t : State => t = s.onPower fun _ => t.power) _ _ rfl fun t ht e _ => ?_
  rw [wakeOne_eq_onPower t e]
  calc t.onPower (fun _ => (wakeOne t e).power)
    _ = (s.onPower fun _ => t.power).onPower (fun _ => (wakeOne t e).power) := congrArg (State.onPower · _) ht
    _ = s.onPower (fun _ => (wakeOne t e).power) := rfl

/-- What the domains do not decide is as before the wake event. -/
theorem wake_apply {α : Sort _} (get : State → α) (h : ∀ (t : State) (f : Power → Power), get (t.onPower f) = get t) : get (wake s d) = get s :=
  (congrArg get (wake_eq_onPower s d)).trans (h s _)

@[simp] theorem wake_portals : (wake s d).portals = s.portals := wake_apply s d State.portals fun _ _ => rfl
@[simp] theorem wake_nv : (wake s d).nv = s.nv := wake_apply s d State.nv fun _ _ => rfl
@[simp] theorem wake_pair : (wake s d).pair = s.pair := wake_apply s d State.pair fun _ _ => rfl
@[simp] theorem wake_integ : (wake s d).integ = s.integ := wake_apply s d State.integ fun _ _ => rfl
@[simp] theorem wake_roster (id : Nat) : (wake s d).roster id = s.roster id := wake_apply s d (·.roster id) fun _ _ => rfl
@[simp] theorem wake_agentAt (a : FAddr) : (wake s d).agentAt a = s.agentAt a := wake_apply s d (·.agentAt a) fun _ _ => rfl

end

end Sys2Proof.Machine
end

