-- ==== Sys2Proof/Proofs/MessageAndTimeResults.lean ====
section
/-! PROOF. Messages, mailboxes, rings of contexts, and time and sleep (R157, R161, R163, R171 to R175). -/

namespace Sys2Proof.Machine

open Sys2Proof.Safety

section
variable {s : State} {n : Nat} {c : Core}

theorem aligned_of_mod {a : Word} {k : Nat} (h : a.toNat % k = 0) : aligned a k = none := if_neg (not_not_intro h)

theorem fin_of_core {who : Who} (h : coreOf s who = some c) (cost : Nat) (f : Core → Core) : fin s who cost f = setCore s who ((f c).retire cost) := by
  simp only [fin, h]

theorem boundRing_of_ring {x : Ctx} {r : Nat} {g : Ring} (hx : s.eng.ctxs.get n = some x) (hr : x.ring = some r) (hg : s.eng.rings.get r = some g) :
    boundRing s n = some (r, g) := by
  simp [boundRing, hx, hr, hg]

/-- A ring that is named by its number, of the kind asked for and of the portal of the bound ring. -/
theorem namedRing_of_ring {r k : Nat} {b g : Ring} {kind : RingKind} {w : Word} (hb : boundRing s n = some (k, b)) (hw : w.toNat = r) (hg : s.eng.rings.get r = some g)
    (howner : g.owner = b.owner) (hkind : g.kind = kind) : namedRing s n w kind = some g := by
  simp only [namedRing, hb, hw, hg]
  exact if_pos ⟨howner, hkind⟩

/-- A bound incoming mailbox that is empty takes the word (R110). -/
theorem mboxWrite_of_empty {x : Ctx} {m : Nat} (hx : s.eng.ctxs.get n = some x) (hbound : ((s.portal x.portal).mbi.getD m {}).ctx = n)
    (hempty : ((s.portal x.portal).mbi.getD m {}).full = false) (hirq : (s.portal x.portal).mbIrqEn = false) (w : Word) :
    mboxWrite s n m w = (stOk, s.onPortal x.portal fun p => { p with mbi := p.mbi.set m { p.mbi.getD m {} with word := w, full := true } }) := by
  have hquiet (f : Portal → Portal) (hf : ∀ q, (f q).mbIrqEn = q.mbIrqEn) : ¬ ((s.onPortal x.portal f).portal x.portal).mbIrqEn = true := by
    rw [State.onPortal_portal, hf]
    exact ne_true_of_eq_false hirq
  simp only [mboxWrite, hx]
  refine (if_neg (not_not_intro hbound)).trans ((if_neg (ne_true_of_eq_false hempty)).trans (congrArg (Prod.mk stOk) ((if_neg (hquiet _ ?_)).trans ?_)))
  · exact fun _ => rfl
  · rfl

end

theorem toNat_of_eq_ofNat {w : Word} {r : Nat} (h : w = BitVec.ofNat 64 r) (hr : r < 2 ^ 64) : w.toNat = r := by
  rw [h, BitVec.toNat_ofNat, Nat.mod_eq_of_lt hr]

/-- Settles O10: the checks of each row pass, and its body is the result. -/
theorem messageResults : Obligations.MessageResults := by
  intro s n c i bs host rest x w r k g b f
  dsimp only
  refine ⟨fun h ha hload hreach hhigh hvalid => ?msend, fun h hmsgs ha hok => ?mrecvFull, fun h hmsgs hm => ?mrecvEmpty, fun h hx hbound hempty hirq => ?mbwr,
    fun h hread hm => ?mbrd, fun h ha hok hx hring hb hw hnz hr hg howner hkind hrun hocc => ?rpop,
    fun h ha hload hx hring hg hm hw hr hkind hrun hroom => ?rpushSub, fun h ha hload hx hring hg hm hrun hfind hcpl hseal => ?rpushCpl⟩
  case msend =>
    refine (next_runIns h _).trans ?_
    simp only [aligned_of_mod ha, hload, hreach, hhigh, hvalid, Bool.not_true, Bool.false_eq_true, ne_eq, not_true_eq_false, or_self, if_false]
  case mrecvFull =>
    refine (next_runIns h _).trans ?_
    simp only [hmsgs, aligned_of_mod ha, hok]
    rfl
  case mrecvEmpty =>
    refine (next_runIns h _).trans ?_
    simp only [hmsgs, hm]
    rfl
  case mbwr => exact (next_runIns h _).trans (by simp only [mboxWrite_of_empty hx hbound hempty hirq])
  case mbrd =>
    refine (next_runIns h _).trans ?_
    simp only [hread, hm]
    rfl
  case rpop =>
    have hbound := boundRing_of_ring hx hring hb
    refine (next_runIns h _).trans ?_
    simp only [aligned_of_mod ha, hok, firstExc, hbound, if_neg hnz, namedRing_of_ring hbound (toNat_of_eq_ofNat hw hr) hg howner hkind, popComplete, hrun, if_neg hocc,
      toNat_of_eq_ofNat hw hr]
    rfl
  case rpushSub =>
    have hbound := boundRing_of_ring hx hring hg
    refine (next_runIns h _).trans ?_
    simp only [aligned_of_mod ha, hload, hbound, hm, namedRing_of_ring hbound (toNat_of_eq_ofNat hw hr) hg rfl hkind, pushEntry, hrun, if_neg (Nat.not_le.mpr hroom),
      toNat_of_eq_ofNat hw hr, Bool.not_true, Bool.false_eq_true, if_false]
  case rpushCpl =>
    refine (next_runIns h _).trans ?_
    simp only [aligned_of_mod ha, hload, boundRing_of_ring hx hring hg, hm, pushCompletion, hrun, hfind, hcpl, hseal, Bool.not_false, Bool.false_eq_true, if_true, if_false]

section
variable {s : State} {n : Nat} {c : Core} {i : Ins} {mask : BitVec 6} {untilT : Option Nat}

/-- A HALT that finds an awaited cause delivers it (R157). -/
theorem haltFor_of_cause (hc : coreOf s (.ctx n) = some c) (h : c.deliverable mask ≠ 0) :
    haltFor s (.ctx n) i c mask untilT =
      setCore s (.ctx n) (((c.clearCauses (c.deliverable mask)).setG i.dst.toNat ((c.deliverable mask).zeroExtend 64)).retire 2) :=
  (if_neg h).trans (fin_of_core hc 2 _)

theorem haltFor_of_none (h : c.deliverable mask = 0) : haltFor s (.ctx n) i c mask untilT = waitFor s (.ctx n) mask untilT none := if_pos h

end

/-- Settles O11: the time is read; a HALT delivers or waits; a ticket is found. -/
theorem timeAndSleepResults : Obligations.TimeAndSleepResults := by
  intro s n c i x t st
  dsimp only
  have hticket (hx : s.eng.ctxs.get n = some x) (ht : x.tickets.get (c.opA i).toNat = some t) :
      ((s.eng.ctxs.get n).bind fun x => x.tickets.get (c.opA i).toNat) = some t := by rw [hx]; exact ht
  refine ⟨fun h => ?tnow, fun h htime hnone => ?haltUntil, fun h hsome => ?delivered, fun h hnone => ?halted, fun h hx => ?haltEnd,
    fun h hx ht hst => ?tkwait, fun h hx ht hst => ?tkpollDone, fun h hx ht hst => ?tkpollOpen⟩
  case tnow =>
    refine (next_runIns h _).trans (congrArg _ ?_)
    by_cases hm : i.mod = 0
    · simp only [if_pos hm]
      exact fin_of_core h.1 _ _
    · simp only [if_neg hm]
      exact fin_of_core h.1 _ _
  case haltUntil =>
    refine (next_runIns h _).trans (congrArg _ ?_)
    have hearly : ¬ (c.opA i).toNat ≤ s.timeOf (.ctx n) := Nat.not_le.mpr htime
    simp only [if_neg hearly]
    refine haltFor_of_none ?_
    rw [← hnone, Core.deliverable, BitVec.or_assoc]
    rfl
  case delivered => exact (next_runIns h _).trans (congrArg _ (haltFor_of_cause h.1 hsome))
  case halted => exact (next_runIns h _).trans (congrArg _ (haltFor_of_none hnone))
  case haltEnd => exact next_runIns h _
  case tkwait => exact (next_runIns h _).trans (by simp only [hticket hx ht, hst]; rfl)
  case tkpollDone => exact (next_runIns h _).trans (by simp only [hticket hx ht, hst])
  case tkpollOpen => exact (next_runIns h _).trans (by simp only [hticket hx ht, hst])

end Sys2Proof.Machine
end

