-- ==== Sys2Proof/Proofs/TicketResults.lean ====
section
/-! PROOF. Epoch, trust and integrity instructions of a hewer on sound operands, and the start of an ECOMMIT (R162, R163, R176 to R179, R392, R395, R398, R432). -/

namespace Sys2Proof.Machine

open Sys2Proof.Safety

section
variable {s : State} {n tk : Nat} {c : Core} {i : Ins}

/-- A ticket of the integrity unit, present and not fenced, starts after the wake of D20 (R163). -/
theorem iuTicket_of_ready (h : HasTicket s n tk) (hiu : s.hasIu = true) (hon : s.domSt 20 ≠ .fenced) (t : Ticket) (k : Nat → Nat → State → State) :
    iuTicket s (.ctx n) i c t k = k n tk (wake (Ticketed s n tk { t with dom := 20 } c i 20) 20) := by
  refine (issueTicket_of_hasTicket h ..).trans ((if_neg ?_).trans (if_neg hon))
  show ¬ (!s.hasIu) = true
  simp [hiu]

theorem trustTicket_of_hasTicket (h : HasTicket s n tk) (t : Ticket) :
    trustTicket s (.ctx n) i c t = wake (Ticketed s n tk { t with dom := 19 } c i 20) 19 := issueTicket_of_hasTicket h ..

end

/-- Settles O12: the checks of each row pass, and its body is the result. -/
theorem trustAndIntegrityInstructionResults : Obligations.TrustAndIntegrityInstructionResults := by
  intro s n tk c i bs data l
  dsimp only
  have hready (hsys : isSystem n = true) : ¬ (!isSystem n) = true := by simp [hsys]
  refine ⟨fun h hsys hl hlive => ?equery, fun h hbs ha hload hok htk => ?thash, fun h hbs htk => ?tverify, fun h hon => ?trand,
    fun h hbs hz hsys htk => ?tmeasure, fun h hbs hz hz' hsys htk => ?tkeyrel, fun h ha hb hload => ?icrc, fun h hload => ?idigest,
    fun h hz hiu hon => ?ireport, fun h hbs hz hz' hsys htk hiu hon hks => ?iadj, fun id h htk hiu hon hid hlife hfree => ?itest,
    fun h hbs hz hz' hz'' htk hiu hon => ?ihist⟩
  case equery =>
    refine (next_runIns h _).trans (congrArg _ ((if_neg (hready hsys)).trans ?_))
    simp only [hl, if_neg hlive]
    exact fin_of_core h.1 _ _
  case thash =>
    refine (next_runIns h _).trans ?_
    simp only [withBlock_of_good hbs, aligned_of_mod ha, hok, hload, firstExc, trustTicket_of_hasTicket htk]
  case tverify =>
    refine (next_runIns h _).trans ?_
    simp only [withBlock_of_good hbs, trustTicket_of_hasTicket htk]
  case trand =>
    refine ⟨_, next_runIns h _, ?_⟩
    have hcore : coreOf (wake s.draw.2.draw.2 19) (.ctx n) = some c := (((aside_nonce s (s.nonce + 1 + 1)).trans (aside_wake _ 19)).coreOf _).trans h.1
    simp only [hon, if_true]
    rw [fin_of_core hcore]
    exact coreOf_setCore _ hcore
  case tmeasure =>
    refine (next_runIns h _).trans ?_
    simp only [withBlock_of_good hbs (good := fun bs => fld (wordAt bs 0) 63 16 == 0) (by simp [hz]), if_neg (hready hsys), trustTicket_of_hasTicket htk]
  case tkeyrel =>
    refine (next_runIns h _).trans ?_
    rw [withBlock_of_good hbs (by simp [hz, hz'])]
    simp only [if_neg (hready hsys), trustTicket_of_hasTicket htk]
  case icrc =>
    refine (next_runIns h _).trans ?_
    simp only [ha, hb, hload, fin_of_core h.1]
    rfl
  case idigest =>
    refine (next_runIns h _).trans ?_
    simp only [hload, fin_of_core h.1]
  case ireport =>
    refine (next_runIns h _).trans ?_
    simp only [hiu, hz, if_neg hon]
    rfl
  case iadj =>
    refine (next_runIns h _).trans ?_
    rw [withBlock_of_good hbs (by simp [hz, hz'])]
    simp only [if_neg (hready hsys), iuTicket_of_ready htk hiu hon, wake_integ]
    exact congrArg (fun t => Host.Outcome.next (correctRange t _ _ _)) (if_neg hks)
  case itest =>
    refine (next_runIns h _).trans ?_
    have hat (u : Ticket) : (Ticketed s n tk u c i 20).agentAt (BitVec.ofNat 28 (fld (c.opB i) 39 12)) = some id := hid
    simp only [iuTicket_of_ready htk hiu hon, wake_agentAt, hat, wake_roster, wake_integ]
    refine congrArg _ (if_neg ?_)
    rw [not_or, Classical.not_not]
    refine ⟨hlife, fun hany => ?_⟩
    obtain ⟨m, hm, heq⟩ := List.any_eq_true.mp hany
    exact hfree m hm (beq_iff_eq.mp heq)
  case ihist =>
    refine (next_runIns h _).trans ?_
    rw [withBlock_of_good hbs (by simp [hz, hz', hz''])]
    simp only [iuTicket_of_ready htk hiu hon]

/-- The status that a list of tickets holds under a number. -/
abbrev statusIn (tickets : FMap Ticket) (t : Nat) : Option (BitVec 16) := ((tickets.get t).map (·.status)).getD none

section
variable {tickets : FMap Ticket} {tks : List Nat} (h : ∀ t ∈ tks, ∃ k, tickets.get t = some k ∧ (k.status = none ∨ k.status = some 0))
include h

theorem tickets_known : (tks.all fun t => (tickets.get t).isSome) = true := by
  refine List.all_eq_true.mpr fun t ht => ?_
  obtain ⟨k, hk, -⟩ := h t ht
  rw [hk]
  rfl

theorem no_bad_ticket : (tks.any fun t => (statusIn tickets t).isSome && statusIn tickets t != some 0) = false := by
  refine List.any_eq_false.mpr fun t ht => ?_
  obtain ⟨k, hk, hst⟩ := h t ht
  rcases hst with hst | hst <;> simp [statusIn, hk, hst]

end

theorem open_tickets (tickets : FMap Ticket) (tks : List Nat) :
    (tks.filter fun t => (statusIn tickets t).isNone) = tks.filter fun t => statusIn tickets t == none :=
  List.filter_congr fun t _ => by cases statusIn tickets t <;> rfl

/-- Settles O13: the block, the list and the tickets are sound, and nothing refuses the commit. -/
theorem epochCommitStarts : Obligations.EpochCommitStarts := by
  intro s n tk c i bs lst x l
  dsimp only
  intro h hsys hbs hz1 hz2 hz3 hlow hhigh hload hx hfree htks hadmit hl
  have htk : HasTicket s n tk := by
    show (s.eng.ctxs.get n).bind freeTicket = some tk
    rw [hx]
    exact hfree
  have hblock : commitBlockOk bs = true := by
    simp [commitBlockOk, hz1, hz2, hz3]
    omega
  refine (next_runIns h _).trans ?_
  simp only [withBlock_of_good hbs hblock, hload, hx, hsys, Option.map_some, Option.getD_some, issueTicket_of_hasTicket htk, hl]
  generalize (List.range (leAt bs 0x20 8)).map (fun j => (wordAt lst (8 * j)).toNat) = tks at htks ⊢
  simp only [tickets_known htks, no_bad_ticket htks, open_tickets x.tickets tks, hadmit]
  rfl

end Sys2Proof.Machine
end

