-- ==== Sys2Proof/Proofs/Steps.lean ====
section
/-! PROOF. A step, an idle block, and the values that the unpowered package holds (log 2, 3, 4, 176). -/

namespace Sys2Proof.Machine

/-- Settles O46: the two cases of a step. -/
theorem stepRunsFrontCommand : Obligations.StepRunsFrontCommand := by
  intro s c rest h
  simp only [step, h]

/-- With D0 down the clock stands. -/
theorem tick_of_down {s : State} (h : s.pins.d0Up = false) : tick s = s := if_neg (ne_true_of_eq_false h)

/-- With D0 up fabric time counts one nanosecond. -/
theorem tick_of_up {s : State} (h : s.pins.d0Up = true) : tick s = { s with time := { s.time with now := s.time.now + 1 } } := if_pos h

/-- Settles O47: an idle block ticks, and a fuse that is due is blown. -/
theorem idleBlockTicks : Obligations.IdleBlockTicks := by
  intro s hp
  have hstep : step s = .next (idle s) := by simp only [step, hp]
  refine ⟨fun hup hdone => ?done, fun hup hdue => ?due, fun hdown => ?down⟩
  case done => rw [hstep, idle, tick_of_up hup, blowFuse, if_pos (Or.inl hdone)]
  case due =>
    have hblow : ¬(s.power.raiseTo ≤ s.power.floor ∨ (!s.pins.d0Up) = true) := by simp [hup, hdue]
    rw [hstep, idle, tick_of_up hup]
    exact congrArg _ (if_neg hblow)
  case down => rw [hstep, idle, tick_of_down hdown, blowFuse, if_pos (Or.inr (by simp [hdown]))]

/-- Settles O48: each value is computed from the reset state. -/
theorem resetValues : Obligations.ResetValues := by
  refine ⟨?_, fun d hd => ?_, rfl, rfl, rfl, rfl, rfl⟩
  · decide
  · rw [State.domSt, if_neg hd]
    rfl

end Sys2Proof.Machine
end

