-- ==== Sys2Proof/Proofs/PowerCommands.lean ====
section
/-! PROOF. Feeds, domains, clocks, pins, temperature and the test port: each command past its guard (chapters 2 and 15). -/

namespace Sys2Proof.Machine

open Sys2Proof.Safety

/-- A command whose guard does not hold has its effect. -/
theorem next_if_neg {p : Prop} [Decidable p] {t u : State} (h : ¬p) : (Host.Outcome.next (if p then t else u) : Ans) = .next u :=
  congrArg _ (if_neg h)

theorem next_if_pos {p : Prop} [Decidable p] {t u : State} (h : p) : (Host.Outcome.next (if p then t else u) : Ans) = .next t :=
  congrArg _ (if_pos h)

theorem feedValid_of_good {mv : Nat} (was : Bool) (h : 10800 ≤ mv ∧ mv < 13400) : feedValid was mv = true := by
  simp [feedValid, h.1, h.2]

theorem feedValid_of_bad {mv : Nat} (h : mv ≤ 10600 ∨ 13400 ≤ mv) : feedValid true mv = false := by
  simp [feedValid]
  omega

/-- Settles O14: each command past its guard; a reading is judged by its thresholds. -/
theorem feedAndPowerCommands : Obligations.FeedAndPowerCommands := by
  intro s x mv share
  dsimp only
  refine ⟨fun hdown hgood => ?powerOn, fun hup hwas hbad => ?lost, fun hup hwas hgood => ?regained, fun hup => ?oring, fun hup => ?bothFail, fun hup => ?rise⟩
  case powerOn => exact next_if_neg (by simp [hdown, feedValid_of_good false hgood])
  case lost =>
    refine (next_if_neg (by simp [hup])).trans ?_
    dsimp only
    rw [hwas, feedValid_of_bad hbad]
    rfl
  case regained =>
    refine (next_if_neg (by simp [hup])).trans ?_
    dsimp only
    rw [hwas, feedValid_of_good false hgood]
    rfl
  case oring => exact next_if_neg (by simp [hup])
  case bothFail => exact next_if_pos hup
  case rise => exact next_if_neg (by simp [hup])

/-! Domains. -/

section
variable {s : State} {d : Nat}

/-- A wake event at a domain that is ON changes nothing. -/
theorem wakeOne_of_on (h : s.domOn d = true) : wakeOne s d = s := by
  have hst : s.domSt d = .on := eq_of_beq h
  unfold wakeOne
  simp only [h, hst]
  split
  · rfl
  · split <;> rfl

theorem foldl_wakeOne_of_on {ds : List Nat} (h : ∀ e ∈ ds, s.domOn e = true) : ds.foldl wakeOne s = s := by
  induction ds with
  | nil => rfl
  | cons e ds ih =>
    rw [List.foldl_cons, wakeOne_of_on (h e List.mem_cons_self)]
    exact ih fun e' he' => h e' (List.mem_cons_of_mem _ he')

/-- What a domain requires is brought up before it (Table 2.3, R62). -/
theorem requires_subset_bringUp (d : Nat) : ∀ e ∈ requires d, e ∈ bringUp d := by
  unfold requires bringUp
  repeat' split
  all_goals simp

theorem requiredOn_of_bringUp (h : ∀ e ∈ bringUp d, s.domOn e = true) : s.requiredOn d = true :=
  List.all_eq_true.mpr fun e he => h e (requires_subset_bringUp d e he)

theorem d0Up_of_mayWake (h : s.mayWake d = true) : s.pins.d0Up = true := by
  simp only [State.mayWake, Bool.and_eq_true] at h
  exact h.1.1.1

/-- An OFF domain whose required domains are ON starts to wake (R62, Table 2.4). -/
theorem wake_of_off (hp : s.domPresent d = true) (hw : s.mayWake d = true) (hoff : s.domSt d = .off) (hreq : ∀ e ∈ bringUp d, s.domOn e = true) :
    wake s d = s.onDom d fun x => { x with st := .waking, wakePend := false, powerOff := false } := by
  rw [wake, List.foldl_append, foldl_wakeOne_of_on hreq]
  simp [wakeOne, hp, hw, hoff, d0Up_of_mayWake hw, requiredOn_of_bringUp hreq]

theorem fenceDom_of_waking (h : s.domSt d = .waking) :
    fenceDom s d = s.onDom d fun x => { x with st := .fenced, powerOff := true, wakePend := true } := by
  simp only [fenceDom, h]

end

/-- Settles O15: each command past its guard. -/
theorem domainCommands : Obligations.DomainCommands := by
  intro s d p data
  refine ⟨fun hd hp hw hoff hreq => ?wake, fun hd hst => ?ready, fun hd hst => ?timeoutHigh, fun hd hd' hst => ?timeoutBench, fun hd hon hhold hun hidle => ?idle,
    fun hd hst hfree hposted => ?off, fun hd hst hfree => ?fenced, fun hd hst hnot hbusy => ?returned, fun hopen hrole => ?hold⟩
  case wake => exact (next_if_neg hd).trans (congrArg _ (wake_of_off hp hw hoff hreq))
  case ready => exact next_if_neg (by simp [hd, hst])
  case timeoutHigh =>
    have hfault : (s.fault d 63 0x081 .degraded).domSt d = .waking := hst
    refine (next_if_neg (by rw [hst]; simp; omega)).trans ?_
    simp only [fenceDom_of_waking hfault, if_neg (Nat.not_le.mpr hd)]
  case timeoutBench =>
    have hfault : (s.fault d 63 0x081 .degraded).domSt d = .waking := hst
    refine (next_if_neg (by rw [hst]; simp; omega)).trans ?_
    simp only [fenceDom_of_waking hfault, if_pos hd']
  case idle => exact next_if_neg (by simp [hd, hon, hhold, hun, hidle])
  case off =>
    refine ((next_if_neg (by simp [hd, hst])).trans (next_if_neg (by rcases hfree with h | h <;> simp [h]))).trans ((next_if_neg (by decide)).trans (next_if_neg ?_))
    simpa using fun r hr hsrc hunit => hposted r hr ⟨hsrc, hunit⟩
  case fenced =>
    exact ((next_if_neg (by simp [hd, hst])).trans (next_if_neg (by rcases hfree with h | h <;> simp [h]))).trans (next_if_pos (by decide))
  case returned => exact (next_if_neg (by simp [hd, hst])).trans (next_if_pos (by simpa [hnot] using hbusy))
  case hold =>
    refine (next_if_neg (by simp [hopen])).trans ?_
    rw [shapeOf_eight (by decide)]
    exact next_if_neg (not_not_intro hrole)

/-! Clocks, portal pins and temperature. -/

theorem throttleAt_of_high {on : Bool} {t : BitVec 16} {hi lo : Int} (h : hi ≤ t.toInt) : throttleAt on t hi lo = true := by
  simp [throttleAt, h]

theorem throttleAt_of_held {t : BitVec 16} {hi lo : Int} (h : lo ≤ t.toInt) : throttleAt true t hi lo = true := by
  simp [throttleAt, h]

theorem throttleAt_of_low {on : Bool} {t : BitVec 16} {hi lo : Int} (h : t.toInt < lo) (hle : lo ≤ hi) : throttleAt on t hi lo = false := by
  simp [throttleAt, h, Int.lt_of_lt_of_le h hle]

/-- Settles O16: each command past its guard; a PLL's domains are one, and each throttle is judged by its thresholds. -/
theorem clockPinAndTemperatureCommands : Obligations.ClockPinAndTemperatureCommands := by
  intro s n p osc tj hbm
  dsimp only
  refine ⟨fun d hone => ?pll, fun hup hosc => ?aon, fun hp hrdy hdown hlt => ?rise, fun hp hrdy hlt => ?fall, fun hup htj hhbm hhot hwarm => ?throttled,
    fun hup htj hhbm hcool hcold => ?released, fun hup htrip hhot => ?trip⟩
  case pll =>
    show Host.Outcome.next _ = _
    dsimp only
    rw [hone]
    rfl
  case aon => exact next_if_neg (by simp [hup, hosc])
  case rise =>
    refine (next_if_neg (Nat.not_le.mpr hlt)).trans ((next_if_pos hrdy).trans (next_if_pos ?_))
    show (decide (p < s.pins.part.portals) && (s.portal p).st == .down) = true
    simp [hp, hdown]
  case fall =>
    refine (next_if_neg (Nat.not_le.mpr hlt)).trans (next_if_pos ?_)
    show (s.pins.portalRdy && decide (p < s.pins.part.portals)) = true
    simp [hp, hrdy]
  case throttled =>
    refine (next_if_neg (by simp [hup])).trans (congrArg (fun q => Host.Outcome.next { s with pins := q }) ?_)
    simp [htj, hhbm, throttleAt_of_high hhot, throttleAt_of_held hwarm]
  case released =>
    refine (next_if_neg (by simp [hup])).trans (congrArg (fun q => Host.Outcome.next { s with pins := q }) ?_)
    simp [htj, hhbm, throttleAt_of_low hcool, throttleAt_of_low hcold]
  case trip => exact next_if_neg (by simp [hup, htrip]; omega)

/-- Settles O17: each instruction loads its register; CHIP_RST_L decides the pins. -/
theorem testPortCommands : Obligations.TestPortCommands := by
  intro s cells code
  dsimp only
  refine ⟨rfl, fun hlow => ?extestLow, fun hhigh => ?extestHigh, rfl, rfl, fun hlow => ?clampLow, fun hlow => ?highzLow, fun hhigh => ?high, rfl, fun h4 hff hlocked => ?castik⟩
  case extestLow => exact next_if_neg (by simp [hlow])
  case extestHigh => exact next_if_pos (by simpa using hhigh)
  case clampLow => exact congrArg (fun k => Host.Outcome.next (tapLoad s 3 2 k)) (if_neg (by simp [hlow]))
  case highzLow => exact congrArg (fun k => Host.Outcome.next (tapLoad s 4 2 k)) (if_neg (by simp [hlow]))
  case high =>
    have hset : s.pins.chipRstHigh = true := by simpa using hhigh
    exact ⟨congrArg (fun k => Host.Outcome.next (tapLoad s 3 2 k)) (if_pos hset), congrArg (fun k => Host.Outcome.next (tapLoad s 4 2 k)) (if_pos hset)⟩
  case castik =>
    refine (if_neg (not_or.mpr ⟨Nat.not_le.mpr h4, hff⟩)).trans ((if_neg (by simp [hlocked])).trans ?_)
    rw [tapLoad, BitVec.ofNat_toNat, BitVec.setWidth_eq]

end Sys2Proof.Machine
end

