-- ==== Sys2Proof/Proofs/ResetCommands.lean ====
section
/-! PROOF. Resets of the chip, of engines and of partitions, heartbeats, and hangs: each command past its guard (R359 to R371). -/

namespace Sys2Proof.Machine

open Sys2Proof.Safety

/-! A replay changes the channel engine alone. -/

section
variable {s t u : State}

/-- A state differs from another in its channel engine alone. -/
def OnlyEng (s t : State) : Prop := t = s.onEng fun _ => t.eng

theorem OnlyEng.onEng (s : State) (f : Engine → Engine) : OnlyEng s (s.onEng f) := rfl

theorem OnlyEng.refl (s : State) : OnlyEng s s := rfl

theorem OnlyEng.trans (h : OnlyEng s t) (k : OnlyEng t u) : OnlyEng s u := by
  unfold OnlyEng at *
  rw [k, h]
  rfl

theorem onlyEng_setRingSt (s : State) (r : Nat) (st : RingState) : OnlyEng s (setRingSt s r st) := rfl

theorem onlyEng_settleRing (s : State) (r : Nat) : OnlyEng s (settleRing s r) := by
  unfold settleRing
  split
  · exact .refl s
  · split
    · exact onlyEng_setRingSt ..
    · split
      · exact onlyEng_setRingSt ..
      · exact .refl s

theorem onlyEng_replayCtx (s : State) (c : Nat) (x : Ctx) : OnlyEng s (replayCtx s c x) := by
  unfold replayCtx
  split
  case h_1 | h_2 | h_3 =>
    split
    · exact .onEng ..
    · exact ((OnlyEng.onEng ..).trans (onlyEng_settleRing ..)).trans (.onEng ..)
  case h_4 | h_5 => exact .onEng ..
  case h_6 | h_7 => exact .refl s

/-- A fold of replays changes the channel engine alone. -/
theorem OnlyEng.foldl {α : Type} {f : State → α → State} (h : ∀ t a, OnlyEng t (f t a)) (l : List α) (s : State) : OnlyEng s (l.foldl f s) := by
  induction l generalizing s with
  | nil => exact .refl s
  | cons a l ih => exact (h s a).trans (ih _)

/-- Whether a PLL's fault holds a domain does not rest on the channel engine. -/
theorem OnlyEng.pllFault (h : OnlyEng s t) (d : Nat) : pllFault t d = pllFault s d := by
  rw [h]
  rfl

end

/-- Settles O18: each command past its guard. -/
theorem resetCommands : Obligations.ResetCommands := by
  intro s p d r h x l
  dsimp only
  refine ⟨fun hup hrise hhigh hstep => ?pin, fun hdrain howes => ?drainEnd, fun ⟨hopen, hrole⟩ hd hd' hpres => ?engine, fun ⟨hopen, hrole⟩ => ?lhChip, fun hup => ?tray,
    fun hd hd' hreset hpll => ?complete, fun hd hreset => ?timeout2, fun hst hdrain => ?timeout3, fun hreset => ?timeout4, fun hd hpres hon hmiss => ?miss,
    fun hd hpres hon hmiss => ?hang, fun hup hlast => ?watchdog, fun hcycle hfree => ?detect, fun hhang hres hfree hrun => ?replay, fun hhang hx hst => ?replayWatchdog⟩
  case pin => exact (next_if_neg (by simp [hup, hrise, hhigh])).trans (next_if_neg (Nat.not_le.mpr hstep))
  case drainEnd =>
    have hnone : s.owes = false := by
      refine List.any_eq_false.mpr fun y hy => ?_
      simpa using fun hsrc => by simpa using fun hle => howes y hy ⟨hsrc, hle⟩
    exact next_if_neg (by simp [hdrain, hnone])
  case engine => exact (next_if_neg (by simp [hopen])).trans (next_if_neg (by simp [hrole, hpres]; omega))
  case lhChip => exact (next_if_neg (by simp [hopen])).trans (next_if_pos hrole)
  case tray => exact next_if_pos hup
  case complete =>
    have hclear : pllFault s d = false := List.any_eq_false.mpr fun y hy => by simpa [and_assoc] using hpll y hy
    have hreplay (t : State) : pllFault (((ctxsOn t (d - 1)).foldl (fun t q => replayCtx t q.1 q.2) t).onEng fun e => { e with benches := e.benches.del (d - 1) }) d =
        pllFault t d := ((OnlyEng.foldl (fun t (q : Nat × Ctx) => onlyEng_replayCtx t q.1 q.2) _ t).trans (.onEng ..)).pllFault d
    refine ((next_if_neg (by simp [hreset])).trans (next_if_neg (by omega))).trans ?_
    have h17 : ¬ d = 17 := by omega
    simp only [if_neg h17]
    refine congrArg (fun t => Host.Outcome.next (chipDue t)) (if_neg (ne_true_of_eq_false ?_))
    exact (hreplay (setLastUs s (s.dom d).resetAt)).trans hclear
  case timeout2 =>
    have hruns : s.resets 2 d = true := by simp [State.resets, hd, hreset]
    exact next_if_neg (by simp [hruns])
  case timeout3 =>
    have hruns : s.resets 3 p = true := by simp [State.resets, hst, hdrain]
    exact next_if_neg (by simp [hruns])
  case timeout4 =>
    have hruns : s.resets 4 0 = true := by simp [State.resets, hreset]
    exact next_if_neg (by simp [hruns])
  case miss => exact (next_if_neg (by simp [hd, hpres, hon])).trans (next_if_pos (by omega))
  case hang => exact (next_if_neg (by simp [hd, hpres, hon])).trans (next_if_neg (by omega))
  case watchdog =>
    refine (next_if_neg (by simp [hup])).trans ?_
    simp only [hlast]
    rfl
  case detect =>
    show execHangDetect r s = _
    simp only [execHangDetect, hcycle]
    exact next_if_neg (by simpa using hfree)
  case replay =>
    show execSuspectReplay s = _
    simp only [execSuspectReplay, hhang]
    exact (next_if_neg (by simpa [hres] using fun b hb => hfree b hb)).trans (next_if_pos hrun)
  case replayWatchdog =>
    show execReplayWatchdog s = _
    simp only [execReplayWatchdog, hhang, hx]
    exact next_if_pos hst

end Sys2Proof.Machine
end

