-- ==== Sys2Proof/Proofs/EngineFrames.lean ====
section
/-! PROOF. What rings, contexts and notices leave as it is: they change rings, contexts beside their portal, and the domains, and send. Said of any relation that admits these, so that each frame is one use of it. -/

namespace Sys2Proof.Machine

/-- A relation of states that changes of rings, of contexts beside their portal, and of the domains keep, and what is sent. -/
structure EngineFrame (R : State → State → Prop) : Prop where
  refl : ∀ s, R s s
  trans : ∀ {s t u}, R s t → R t u → R s u
  onRing : ∀ s r f, R s (State.onRing s r f)
  onCtx : ∀ s c f, (∀ x : Ctx, (f x).portal = x.portal) → R s (State.onCtx s c f)
  onPower : ∀ s f, R s (s.onPower f)
  emit : ∀ s o, R s (s.emit o)

/-- A part of the state that these changes leave as it is. -/
theorem EngineFrame.of_get {α : Sort _} (get : State → α) (heng : ∀ s f, get (State.onEng s f) = get s) (hpower : ∀ s f, get (State.onPower s f) = get s)
    (hout : ∀ s o, get (State.emit s o) = get s) : EngineFrame fun s t => get t = get s where
  refl _ := rfl
  trans h k := k.trans h
  onRing s _ _ := heng s _
  onCtx s _ _ _ := heng s _
  onPower := hpower
  emit := hout

namespace EngineFrame

theorem ite {R : State → State → Prop} (_ : EngineFrame R) {s t u : State} {p : Prop} [Decidable p] (h : R s t) (k : R s u) : R s (if p then t else u) := by
  split
  · exact h
  · exact k

variable {R : State → State → Prop} (F : EngineFrame R)
include F

theorem foldl {α : Type} {f : State → α → State} (h : ∀ t a, R t (f t a)) (l : List α) (s : State) : R s (l.foldl f s) := by
  induction l generalizing s with
  | nil => exact F.refl s
  | cons a l ih => exact F.trans (h s a) (ih _)

theorem wake (s : State) (d : Nat) : R s (wake s d) := by
  rw [wake_eq_onPower]
  exact F.onPower ..

theorem resumeCtx (s : State) (c : Nat) (x : Ctx) : R s (resumeCtx s c x) := by
  unfold Machine.resumeCtx
  cases x.ring with
  | none => exact F.onCtx _ _ _ fun _ => rfl
  | some r =>
    refine F.trans ?_ (F.onRing ..)
    exact F.onCtx _ _ _ fun _ => rfl

theorem setCause (s : State) (c bit : Nat) : R s (setCause s c bit) := by
  unfold Machine.setCause
  cases s.eng.ctxs.get c with
  | none => exact F.refl s
  | some x =>
    refine F.trans ?_ (F.ite (F.resumeCtx ..) (F.refl _))
    cases x.hewer with
    | none => exact F.onCtx _ _ _ fun _ => rfl
    | some h =>
      refine F.trans ?_ (F.wake ..)
      exact F.onCtx _ _ _ fun _ => rfl

theorem setRingSt (s : State) (r : Nat) (st : RingState) : R s (setRingSt s r st) := by
  unfold Machine.setRingSt
  exact F.onRing ..

theorem settleRing (s : State) (r : Nat) : R s (settleRing s r) := by
  unfold Machine.settleRing
  cases s.eng.rings.get r with
  | none => exact F.refl s
  | some g => exact F.ite (F.setRingSt ..) (F.ite (F.setRingSt ..) (F.refl s))

theorem writeShadow (s : State) (r : Nat) : R s (writeShadow s r) := by
  unfold Machine.writeShadow
  cases s.eng.rings.get r with
  | none => exact F.refl s
  | some g => exact F.ite (F.emit ..) (F.refl s)

theorem wakeTarget (s : State) (g : Ring) : R s (wakeTarget s g) :=
  F.ite (F.setCause ..) (F.ite (F.ite (F.emit ..) (F.refl s)) (F.refl s))

theorem wakeBlocked (s : State) (r : Nat) : R s (wakeBlocked s r) :=
  F.foldl (fun _ _ => F.ite (F.setCause ..) (F.refl _)) _ s

theorem produced (s : State) (r : Nat) : R s (produced s r) := by
  unfold Machine.produced
  cases s.eng.rings.get r with
  | none => exact F.refl s
  | some g => exact F.trans (F.trans (F.trans (F.trans (F.onRing ..) (F.settleRing ..)) (F.writeShadow ..)) (F.wakeTarget ..)) (F.wakeBlocked ..)

theorem putCompletion (s : State) (r : Nat) (c : Completion) : R s (putCompletion s r c) := by
  unfold Machine.putCompletion
  cases s.eng.rings.get r with
  | none => exact F.refl s
  | some g => exact F.ite (F.onRing ..) (F.trans (F.emit ..) (F.produced ..))

theorem answer (s : State) (r : Nat) (idx : BitVec 32) (status : Nat) (result : List Byte) (asSealed : Bool) :
    R s (answer s r idx status result asSealed) := by
  unfold Machine.answer
  cases s.eng.rings.get r with
  | none => exact F.refl s
  | some g =>
    cases hf : g.find idx with
    | none =>
      simp only [hf]
      exact F.refl s
    | some f =>
      simp only [hf]
      exact F.trans (F.trans (F.onRing ..) (F.ite (F.refl _) (F.putCompletion ..))) (F.settleRing ..)

theorem putNotice (s : State) (r : Nat) (n : Notice) : R s (putNotice s r n) := by
  unfold Machine.putNotice
  cases s.eng.rings.get r with
  | none => exact F.refl s
  | some g => exact F.ite (F.onRing ..) (F.trans (F.trans (F.trans (F.wake ..) (F.emit ..)) (F.onRing ..)) (F.produced ..))

theorem notify (s : State) (event island : Nat) (d0 d1 : Word) : R s (notify s event island d0 d1) :=
  F.foldl (fun _ _ => F.ite (F.putNotice ..) (F.refl _)) _ s

theorem errorRing (s : State) (r status : Nat) (idx : BitVec 32) : R s (errorRing s r status idx) :=
  F.ite (F.refl s) (F.trans (F.setRingSt ..) (F.onRing ..))

theorem answerAll (s : State) (r status : Nat) : R s (answerAll s r status) := by
  unfold Machine.answerAll
  cases s.eng.rings.get r with
  | none => exact F.refl s
  | some g => exact F.foldl (fun _ _ => F.answer ..) _ s

theorem answerAt (s : State) (e : Option (Nat × BitVec 32)) (status : Nat) (result : List Byte) : R s (answerAt s e status result) := by
  cases e with
  | none => exact F.refl s
  | some e => exact F.answer ..

theorem fenceRing (s : State) (r : Nat) : R s (fenceRing s r) := by
  unfold Machine.fenceRing
  cases s.eng.rings.get r with
  | none => exact F.refl s
  | some g => exact F.ite (F.trans (F.trans (F.answerAll ..) (F.setRingSt ..)) (F.wakeBlocked ..)) (F.refl s)

theorem fenceRings (s : State) (p : Nat → Ring → Bool) : R s (fenceRings s p) :=
  F.foldl (fun t _ => F.ite (F.fenceRing ..) (F.refl t)) _ s

/-- Staleness changes islands too, and posts. -/
theorem checkStale (hisles : ∀ s f, R s (State.onIsles s f)) (hpost : ∀ s r, R s (State.post s r)) (s : State) : R s (checkStale s) := by
  refine F.foldl (fun t q => F.ite (F.refl t) ?_) _ s
  cases staleCause t q.2 with
  | none => exact F.refl t
  | some r =>
    simp only [markStale]
    split
    · exact F.refl t
    · exact F.ite (F.refl t) (F.trans (F.trans (hisles ..) (hpost ..)) (F.notify ..))

end EngineFrame

end Sys2Proof.Machine
end

