-- ==== Sys2Proof/Proofs/BootCommands.lean ====
section
/-! PROOF. Entries served from a ring, the boot steps, licences, plans and images (chapter 8; R8, R77, R78, R99, R103, R477). -/

namespace Sys2Proof.Machine

open Sys2Proof.Safety

/-! Entries that are served (R99, R103). -/

section
variable {s : State} {r op : Nat} {idx : BitVec 32} {g : Ring} {f : Fetched}

theorem serve_of_serves (h : Serves s r idx op g f) (buf : List Byte) (k : Ring → Fetched → List Byte → List Byte → State → State) :
    serve r idx op buf s k = k g f (argsOf f) (bufOf f buf) s := by
  obtain ⟨hg, hf, hop, hctx, hseal, hfence⟩ := h
  simp only [serve, hg, hf]
  rw [if_neg (by simp [hop, hctx]), hfence, hseal, if_neg (by simp), if_neg (by simp)]
  rfl

/-- A journalled entry is served at once where nothing holds it (R419, R433, R445). -/
theorem serveJ_of_serves (h : Serves s r idx op g f) (hj : Journals s) (buf : List Byte) (k : Ring → Fetched → List Byte → List Byte → State → State) :
    serveJ r idx op buf s k = k g f (argsOf f) (bufOf f buf) s := by
  obtain ⟨hswitch, hface, hstore⟩ := hj
  rw [serveJ, if_neg (by simp [hswitch]), if_neg (by simp [hface]), if_neg fun hn => hstore hn.1, serve_of_serves h]

end

section
variable {s : State} {n : Nat}

/-- A store whose anchor wins has anchors, so that this is not its first opening (R411). -/
theorem factoryMarks_of_anchor {a : Anchor} {b : Bool} (h : anchorChoice s = (some a, b)) : factoryMarks s = s := by
  refine if_pos fun hnil => ?_
  have hgood : goodAnchors s = [] := by
    refine List.filterMap_eq_nil_iff.mpr fun d _ => ?_
    rw [hnil]
    rfl
  simp [anchorChoice, hgood] at h

theorem settleDressing_of_idle (a : Anchor) (h : s.nv.dressStep = 0) : settleDressing s a = s := if_pos h

end

/-- Settles O19: each step past its guard; the anchor, the slot and the role decide the rest. -/
theorem bootAndLicenceCommands : Obligations.BootAndLicenceCommands := by
  intro s a r idx buf g f
  dsimp only
  refine ⟨fun hboot => ?rom, fun hboot hst => ?nvFenced, fun hboot hon hwin hdress => ?nvOpen, fun hboot hgo => ?verify, fun hboot hdone hrole => ?evaluate,
    fun b hb hup hev hpass hafter hle => ?expiry, fun h hj hlen hz hwf hnew hroom => ?store, fun h hj hn hz hmem => ?remove⟩
  case rom => exact next_if_neg (by simp [hboot])
  case nvFenced => exact (next_if_neg (by simp [hboot])).trans (next_if_pos hst)
  case nvOpen =>
    have hst : s.domSt 21 ≠ .fenced := by
      rw [eq_of_beq hon]
      decide
    refine ((next_if_neg (by simp [hboot])).trans (next_if_neg hst)).trans ((next_if_neg (by simp [hon])).trans ?_)
    dsimp only
    rw [factoryMarks_of_anchor hwin, hwin]
    simp only [Bool.false_eq_true, if_false, Option.isSome_some, if_true, Option.getD_some]
    rw [settleDressing_of_idle]
    exact hdress
  case verify =>
    refine (next_if_neg (by simp [hboot])).trans ?_
    cases bootSlot s with
    | none => exact next_if_neg (by simp [hgo])
    | some k => rfl
  case evaluate =>
    refine (next_if_neg (by simp [hboot, hdone])).trans (congrArg (fun t => Host.Outcome.next (bootDomains t)) ?_)
    simp only [hrole]
    rfl
  case expiry =>
    refine next_if_pos ⟨hup, hev, List.any_eq_true.mpr ⟨b, hb, ?_⟩⟩
    simp [hpass, hafter, hle]
  case store =>
    refine (congrArg Host.Outcome.next (serveJ_of_serves h hj buf _)).trans ?_
    refine ((next_if_neg (by simp [hlen, hz, hwf])).trans (next_if_neg (by simpa using hnew))).trans (next_if_neg (Nat.not_le.mpr hroom))
  case remove =>
    refine (congrArg Host.Outcome.next (serveJ_of_serves h hj [] _)).trans (next_if_neg ?_)
    simpa [hn, hz] using hmem

/-- Settles O20: each step past its guard. -/
theorem bringUpCommands : Obligations.BringUpCommands := by
  intro s k d u ok m cables
  dsimp only
  have hwarmth : (s.power.fastPath || s.pair.role == .takingOver) = true ↔ s.power.fastPath = true ∨ s.pair.role = .takingOver := by simp
  refine ⟨fun hboot hk => ?hbm, fun hboot hd hd' hpres hu => ?selfTest, fun hboot h22 h21 hrole => ?held, fun hboot h22 h21 hrole hfast => ?fast, fun hboot h22 h21 hrole hfast => ?rebuilt,
    fun hboot => ?plan, fun hboot hst htime => ?discovery, fun hboot hst => ⟨fun hwarm => ?warm, fun hcold => ?cold⟩, fun hboot hload hnone hmeas => ?fwNone,
    fun hboot hload hsome => ?fwSome, fun hboot hload => ?fwTimeout, fun hboot hnone => ?base, fun hboot hnone => ?agree⟩
  case hbm =>
    refine (next_if_neg (by simp [hboot])).trans ?_
    simp [hk]
  case selfTest =>
    refine (next_if_neg (by simp [hboot])).trans ?_
    simp [hd, hd', hpres, hu]
  case held =>
    refine (next_if_neg (by simp [hboot, h22, h21])).trans ?_
    rw [ite_self]
    exact congrArg (fun t => Host.Outcome.next (setStep t 9)) (if_neg hrole)
  case fast =>
    refine (next_if_neg (by simp [hboot, h22, h21])).trans ?_
    simp only [hfast, if_true, Bool.or_true]
    exact congrArg (fun t => Host.Outcome.next (setStep t 9)) (if_neg hrole)
  case rebuilt =>
    refine (next_if_neg (by simp [hboot, h22, h21])).trans ?_
    simp only [hfast, Bool.false_eq_true, if_false, Bool.or_false]
    exact congrArg (fun t => Host.Outcome.next (setStep t 9)) (if_neg hrole)
  case plan => exact next_if_neg (by simp [hboot])
  case discovery =>
    refine (next_if_neg (by simp [hboot, hst])).trans (congrArg Host.Outcome.next ?_)
    dsimp only
    rw [if_neg]
    rw [htime]
    decide
  case warm =>
    refine (next_if_pos ⟨hboot, hst⟩).trans ?_
    simp only [endDiscovery, State.onPower, hwarmth, if_pos hwarm]
  case cold =>
    refine (next_if_pos ⟨hboot, hst⟩).trans ?_
    simp only [endDiscovery, State.onPower, hwarmth, if_neg hcold]
  case fwNone => exact (next_if_neg (by simp [hboot, hload])).trans (next_if_pos (by simp [hnone, hmeas]))
  case fwSome =>
    refine (next_if_neg (by simp [hboot, hload])).trans (next_if_neg ?_)
    rcases hsome with h | h <;> simp [h]
  case fwTimeout => exact next_if_pos ⟨hboot, hload⟩
  case base => exact next_if_neg (by simp [hboot, hnone])
  case agree =>
    refine (next_if_neg (by simp [hboot])).trans ?_
    rw [hnone]
    rfl

/-- A change of the fabric model rests on what it makes of the one held. -/
theorem State.onFab_congr {s : State} {f g : Fabric → Fabric} (h : f s.fab = g s.fab) : s.onFab f = s.onFab g := by
  rw [State.onFab, h, State.onFab]

/-- The kind of image that an FW_STAGE names picks the check (Table 8.2). -/
theorem stage_admitted {args : List Byte} {kind : Nat} (hkind : leAt args 0 1 = kind) (hle : kind ≤ 2) (hdown : leAt args 2 1 ≤ 1) (hz : zeroAt args 3 29 = true)
    (hctrl : kind = 0 → leAt args 1 1 = 0 ∧ leAt args 2 1 = 0) :
    ¬(2 < leAt args 0 1 ∨ 1 < leAt args 2 1 ∨ (!zeroAt args 3 29) = true ∨ (leAt args 0 1 = 0 ∧ (leAt args 1 1 ≠ 0 ∨ leAt args 2 1 ≠ 0))) := by
  rintro (h | h | h | ⟨h, h'⟩)
  · omega
  · omega
  · simp [hz] at h
  · have := hctrl (hkind.symm.trans h)
    omega

/-- Settles O21: each entry is served, and its operands are sound; the signatures decide the rest. -/
theorem planAndAnnounceCommands : Obligations.PlanAndAnnounceCommands := by
  intro s r idx buf g f id life mac info fw key a
  dsimp only
  refine ⟨fun h hj hz => ?planLoad, fun h hj hkind hcls hdown hz => ?controller, fun h hj hkind hdown hz => ?agent, fun h hj hkind hdown hz => ?pattern,
    fun hup hstep hkey => ?enrol, fun hon hstep hst => ⟨fun hplace hnew => ?unknown, fun hplace hret => ?placed⟩⟩
  case planLoad =>
    refine (congrArg Host.Outcome.next (serveJ_of_serves h hj buf _)).trans ?_
    cases planAccepted s (bufOf f buf) with
    | true => exact next_if_neg (by simp [hz])
    | false => exact next_if_pos (by simp)
  case controller =>
    refine (congrArg Host.Outcome.next (serveJ_of_serves h hj buf _)).trans ((next_if_neg (stage_admitted hkind (by decide) (by omega) hz fun _ => ⟨hcls, hdown⟩)).trans ?_)
    simp only [hkind]
  case agent =>
    refine (congrArg Host.Outcome.next (serveJ_of_serves h hj buf _)).trans ((next_if_neg (stage_admitted hkind (by decide) hdown hz fun hne => absurd hne (by decide))).trans ?_)
    simp only [hkind]
  case pattern =>
    refine (congrArg Host.Outcome.next (serveJ_of_serves h hj buf _)).trans ((next_if_neg (stage_admitted hkind (by decide) hdown hz fun hne => absurd hne (by decide))).trans ?_)
    simp only [hkind]
  case enrol =>
    by_cases hsigned : (planWellFormed buf && oneSteward buf && planSigned buf) = true
    · rw [if_pos hsigned]
      simp only [Bool.and_eq_true] at hsigned
      obtain ⟨⟨hwf, hone⟩, hsig⟩ := hsigned
      exact next_if_neg (by simp [hup, hkey, hwf, hone, hsig]; omega)
    · rw [if_neg hsigned]
      have hbad : planWellFormed buf = false ∨ oneSteward buf = false ∨ planSigned buf = false := by
        simpa only [Bool.not_eq_true, Bool.and_eq_false_iff, or_assoc] using hsigned
      exact next_if_pos (by simp only [Bool.not_eq_true']; exact .inr (.inr (.inr (.inr hbad))))
  case unknown =>
    refine (next_if_neg (by simp [hon, hst]; omega)).trans ?_
    simp only [hplace]
    exact congrArg (fun t => Host.Outcome.next (discoveryCheck t)) (State.onFab_congr (by rw [if_neg (ne_true_of_eq_false hnew)]))
  case placed =>
    refine (next_if_neg (by simp [hon, hst]; omega)).trans ?_
    simp only [hplace, hret]
    rfl

end Sys2Proof.Machine
end

