-- ==== Sys2Proof/Proofs/PortalCommands.lean ====
section
/-! PROOF. Commands at a portal: resets, its own registers, fault slots, mailboxes and held accesses (R85, R110, R118, R350). -/

namespace Sys2Proof.Machine

open Sys2Proof.Safety

section
variable {s : State} {p : Nat}

theorem not_closed_of_portalOpen (h : s.portalOpen p = true) : ¬((!s.portalOpen p) = true) := by simp [h]

/-- A reset that starts now drops the portal's rings and contexts and leaves its registers at reset. -/
theorem partitionReset_of_starting (hp : s.hasPortal p = true) (hst : (s.portal p).st ≠ .resetting) (fenced : Bool) (c : Cause) :
    partitionReset s p fenced c =
      (let u := dropCtxs (dropRings (endHeld s p) p) p
       setLast (u.onPortal p fun x => x.afterReset fenced u.now) 3 c) :=
  (if_neg (by simp [hp])).trans (if_neg hst)

/-- PT_ACCESS_LOG is the register of BAR0 at 0x10028, which a read of 8 bytes clears. -/
theorem readAccess_accessLog (hp : s.hasPortal p = true) :
    readAccess s p false 0x10028 8 = (clearRc s p 0x10028).emit (.readValue p (addressed (regWord s p 0x10028) 0x10028 8)) := by
  have hlisted : partOk s p false false 0x10028 = true := by simp [partOk, hp, listed, lhPt]
  rw [readAccess, wide_eq_false _ (Nat.le_refl 8)]
  simp [hlisted, shapeOf, readPart, windowDom, readNow]

theorem takeHeld_of_find {f : HeldAccess → Bool} {h : HeldAccess} (hf : (s.portal p).held.find? f = some h) :
    takeHeld s p f = (some h, s.onPortal p fun q => { q with held := q.held.erase h }) := by
  simp only [takeHeld, hf]

end

/-- Settles O22: each command past its guards. -/
theorem portalCommands : Obligations.PortalCommands := by
  intro s p n w h
  dsimp only
  refine ⟨fun hp => ?cfg, fun hp hst => ?link, fun ho => ?go, fun hst hdrain => ?done, fun ho hmb => ?ctrl, fun ho => ?first, fun ho => ?next,
    fun ho hrole => ?lhFirst, fun ho hn hfull hctx => ?mbo, fun hp hn hfull => ?mbi, fun ho hrole => ?idle, fun hp => ?rc,
    fun hfind hread => ?resumeRead, fun hfind hwrite => ?resumeWrite, fun hfind => ?timeout⟩
  case cfg => exact next_if_neg (by simp [hp])
  case link =>
    refine (next_if_pos hp).trans ?_
    rw [partitionReset_of_starting hp hst, clearMsix]
  case go => exact next_if_neg (not_closed_of_portalOpen ho)
  case done => exact next_if_pos ⟨hst, by simp [hdrain]⟩
  case ctrl =>
    refine (next_if_neg (not_closed_of_portalOpen ho)).trans ?_
    simp only [shapeOf_eight (show 0x10008 % 8 = 0 from rfl), setPtCtrl]
    rw [hmb, Bool.false_and, if_neg Bool.false_ne_true]
  case first => exact next_if_neg (not_closed_of_portalOpen ho)
  case next => exact next_if_neg (not_closed_of_portalOpen ho)
  case lhFirst => exact (next_if_neg (not_closed_of_portalOpen ho)).trans (next_if_pos hrole)
  case mbo =>
    refine (next_if_neg (not_closed_of_portalOpen ho)).trans ((next_if_neg (by omega)).trans ?_)
    simp only [hfull, hctx, Bool.false_eq_true, if_false, if_true]
  case mbi =>
    refine (next_if_neg (by simp [hp])).trans ((next_if_neg (by omega)).trans ?_)
    simp only [hfull, if_true]
  case idle =>
    rw [exec_registerWrite_bar0 0x118 _ ho, writeAccess_lh_whole w ho (by decide) rfl, lhWrite_power_of_steward w (.inr (.inr (.inr rfl))) hrole]
    rfl
  case rc =>
    rw [exec_rcRegisterRead_bar0 _ 8 hp, readAccess_accessLog hp]
    rfl
  case resumeRead =>
    show execPortalAccessResume p s = _
    simp only [execPortalAccessResume, takeHeld_of_find hfind, hread]
  case resumeWrite =>
    show execPortalAccessResume p s = _
    simp only [execPortalAccessResume, takeHeld_of_find hfind, hwrite]
  case timeout =>
    show execPortalAccessTimeout p s = _
    simp only [execPortalAccessTimeout, takeHeld_of_find hfind]

end Sys2Proof.Machine
end

