-- ==== Sys2Proof/Proofs/RoleRefusal.lean ====
section
/-! PROOF. The fetch of an entry, and the roles and sealing that refuse it (R82, R99, R102 to R104). -/

namespace Sys2Proof.Machine

/-- The engine does not reach into the portals. -/
theorem portals_frame : EngineFrame fun s t => t.portals = s.portals :=
  .of_get State.portals (fun _ _ => rfl) (fun _ _ => rfl) fun _ _ => rfl

/-- The state in which a fetched entry is judged: it has entered the ring's list and CONS has moved past it. -/
def entryTaken (s : State) (r : Nat) (g : Ring) (e : SubEntry) (ctx : Nat) : State :=
  wakeBlocked (writeShadow (s.onRing r fun y =>
    { y with cons := y.cons + 1, stalled := false, fetched := y.fetched ++ [{ index := g.cons, entry := e, ctx := ctx }] }) r) r

section
variable {s : State} {r : Nat} {g : Ring} {raw : List Byte}

@[simp] theorem entryTaken_portal (s : State) (r : Nat) (g : Ring) (e : SubEntry) (ctx p : Nat) : (entryTaken s r g e ctx).portal p = s.portal p := by
  have hframe : (entryTaken s r g e ctx).portals = s.portals :=
    portals_frame.trans (portals_frame.trans (portals_frame.onRing ..) (portals_frame.writeShadow ..)) (portals_frame.wakeBlocked ..)
  simp only [State.portal, hframe]

/-- The engine fetches an available entry of an ACTIVE SUBMIT ring that no context is bound to (R99). -/
theorem exec_entryFetch_of_available (hg : s.eng.rings.get r = some g) (hk : g.kind = .submit) (hst : g.st = .active) (hocc : g.occ ≠ 0) (hctx : g.ctx = 0)
    (hen : (s.portal g.owner).ringsEn = true) (hon : s.domOn 17 = true) (hroom : completeFull s g = false) :
    exec (.entryFetch r (.entry raw)) s = .next (takeEntry s r g raw 0).2 := by
  show execEntryFetch r (.entry raw) s = _
  simp only [execEntryFetch, hg]
  exact (next_if_neg (by simp [hk, hst, hocc, hctx, hen, hon])).trans (next_if_neg (by simp [hroom]))

variable {ctx : Nat} (hm : malformedEntry (subEntryOf raw) = false)
include hm

theorem takeEntry_of_role_refused (h : roleMay (s.portal g.owner).role (subEntryOf raw).opcode.toNat = false) :
    takeEntry s r g raw ctx = (false, answer (entryTaken s r g (subEntryOf raw) ctx) r g.cons stDenied) := by
  have hrole : roleMay ((entryTaken s r g (subEntryOf raw) ctx).portal g.owner).role (subEntryOf raw).opcode.toNat = false := by
    rw [entryTaken_portal, h]
  exact (if_neg (by simp [hm])).trans (if_pos (by rw [← entryTaken, hrole]; rfl))

theorem takeEntry_of_role_admitted (h : roleMay (s.portal g.owner).role (subEntryOf raw).opcode.toNat = true) :
    takeEntry s r g raw ctx =
      match sealRefusal g (subEntryOf raw) with
      | some st => (false, answer (entryTaken s r g (subEntryOf raw) ctx) r g.cons st)
      | none => (true, entryTaken s r g (subEntryOf raw) ctx) := by
  have hrole : roleMay ((entryTaken s r g (subEntryOf raw) ctx).portal g.owner).role (subEntryOf raw).opcode.toNat = true := by
    rw [entryTaken_portal, h]
  refine (if_neg (by simp [hm])).trans ((if_neg (by rw [← entryTaken, hrole]; decide)).trans ?_)
  cases sealRefusal g (subEntryOf raw) <;> rfl

theorem takeEntry_of_seal_refused {st : Nat} (hmay : roleMay (s.portal g.owner).role (subEntryOf raw).opcode.toNat = true)
    (hseal : sealRefusal g (subEntryOf raw) = some st) :
    takeEntry s r g raw ctx = (false, answer (entryTaken s r g (subEntryOf raw) ctx) r g.cons st) := by
  rw [takeEntry_of_role_admitted hm hmay, hseal]

theorem takeEntry_of_admitted (hmay : roleMay (s.portal g.owner).role (subEntryOf raw).opcode.toNat = true)
    (hseal : sealRefusal g (subEntryOf raw) = none) : takeEntry s r g raw ctx = (true, entryTaken s r g (subEntryOf raw) ctx) := by
  rw [takeEntry_of_role_admitted hm hmay, hseal]

end

/-- The opcodes of Table 3.11 that are the steward's alone are none of a party's. -/
theorem roleMay_party_of_steward_only {op : Nat} (h : [0x10, 0x11, 0x12, 0x13, 0x20, 0x21, 0x30, 0x60].contains op = true) : roleMay .party op = false := by
  simp only [List.contains_eq_mem, decide_eq_true_eq, List.mem_cons, List.not_mem_nil, or_false] at h
  obtain rfl | rfl | rfl | rfl | rfl | rfl | rfl | rfl := h <;> rfl

/-- KEY_SHARE and CONSENT in clear are denied, whatever the ring (R104). -/
theorem sealRefusal_of_clear_trust {g : Ring} {e : SubEntry} (hop : e.opcode.toNat = 0x40 ∨ e.opcode.toNat = 0x41) (hclear : e.flags.getLsbD 0 = false) :
    sealRefusal g e = some stDenied := by
  have hcode : e.opcode = 0x40 ∨ e.opcode = 0x41 := hop.imp BitVec.eq_of_toNat_eq BitVec.eq_of_toNat_eq
  refine if_pos ?_
  rw [hclear]
  simpa using hcode

/-- Settles O57: each listed case is refused by the role or by the sealing rules, both with DENIED. -/
theorem roleRefusal : Obligations.RoleRefusal := by
  intro s r raw g hg hk hst hocc hctx hen hon hroom hm e op role taken hrefused
  rw [exec_entryFetch_of_available hg hk hst hocc hctx hen hon hroom]
  by_cases hmay : roleMay role op = true
  · have hseal : sealRefusal g e = some stDenied := by
      obtain ⟨hrole, hop⟩ | ⟨hrole, hop⟩ | ⟨hrole, hop⟩ | ⟨hrole, hop⟩ | ⟨hop, hclear⟩ := hrefused
      · simp [hrole, roleMay, hop] at hmay
      · rw [hrole] at hmay
        obtain h | h := hop <;> simp [roleMay, h] at hmay
      · rw [hrole, roleMay_party_of_steward_only hop] at hmay
        cases hmay
      · rw [hrole, roleMay, hop] at hmay
        cases hmay
      · exact sealRefusal_of_clear_trust hop hclear
    rw [takeEntry_of_seal_refused hm hmay hseal]
    rfl
  · rw [takeEntry_of_role_refused hm (Bool.not_eq_true _ ▸ hmay)]
    rfl

end Sys2Proof.Machine
end

