-- ==== Sys2Proof/Proofs/PortalIndependence.lean ====
section
/-! PROOF. What a portal does leaves every other portal as it is (R80, R118). -/

namespace Sys2Proof.Machine

/-! Tables of contexts whose values are mapped. -/

section
variable {α : Type} (m : FMap α) (f : Nat → α → α)

theorem FMap.get_mapVals (k : Nat) : FMap.get (FMap.mapVals m f) k = (FMap.get m k).map (f k) := by
  induction m with
  | nil => rfl
  | cons q m ih =>
    obtain ⟨j, b⟩ := q
    by_cases h : k = j
    · simp [FMap.mapVals, FMap.get, h]
    · simpa [FMap.mapVals, FMap.get, h] using ih

theorem FMap.above_mapVals (k : Nat) : FMap.above k (FMap.mapVals m f) = FMap.above k m := by
  cases m <;> rfl

theorem FMap.wf_mapVals : FMap.wf (FMap.mapVals m f) = FMap.wf m := by
  induction m with
  | nil => rfl
  | cons q m ih =>
    obtain ⟨j, b⟩ := q
    rw [FMap.wf_cons, ← ih, ← FMap.above_mapVals m f, ← FMap.wf_cons]
    rfl

theorem FMap.get_of_mem {m : FMap α} (hw : FMap.wf m = true) {k : Nat} {a : α} (h : (k, a) ∈ m) : FMap.get m k = some a := by
  induction m with
  | nil => cases h
  | cons q m ih =>
    obtain ⟨j, b⟩ := q
    rw [FMap.wf_cons, Bool.and_eq_true] at hw
    obtain ⟨habove, hwf⟩ := hw
    obtain hq | hm := List.mem_cons.mp h
    · cases hq
      simp [FMap.get]
    · have hne : k ≠ j := by
        rintro rfl
        rw [FMap.get_above m hwf habove] at ih
        cases ih hwf hm
      simpa [FMap.get, hne] using ih hwf hm

end

/-! Changes beside the other portals. -/

/-- No portal but `p` has changed; contexts have kept their portals, and their table its one form. -/
structure Beside (p : Nat) (s t : State) : Prop where
  portal : ∀ q, q ≠ p → t.portal q = s.portal q
  ctxsWf : FMap.wf s.eng.ctxs = true → FMap.wf t.eng.ctxs = true
  owner : ∀ c x, t.eng.ctxs.get c = some x → ∃ y, s.eng.ctxs.get c = some y ∧ y.portal = x.portal

namespace Beside

variable {p : Nat} {s t u : State}

theorem of_eq (hportals : t.portals = s.portals) (hctxs : t.eng.ctxs = s.eng.ctxs) : Beside p s t where
  portal _ _ := by simp only [State.portal, hportals]
  ctxsWf := by rw [hctxs]; exact id
  owner _ x h := by
    rw [hctxs] at h
    exact ⟨x, h, rfl⟩

theorem refl (s : State) : Beside p s s := of_eq rfl rfl

theorem trans (h : Beside p s t) (k : Beside p t u) : Beside p s u where
  portal q hq := (k.portal q hq).trans (h.portal q hq)
  ctxsWf := k.ctxsWf ∘ h.ctxsWf
  owner c x hx := by
    obtain ⟨y, hy, hyx⟩ := k.owner c x hx
    obtain ⟨z, hz, hzy⟩ := h.owner c y hy
    exact ⟨z, hz, hzy.trans hyx⟩

theorem onPortal (s : State) (f : Portal → Portal) : Beside p s (s.onPortal p f) where
  portal _ hq := State.onPortal_other _ _ _ _ hq
  ctxsWf := id
  owner _ x h := ⟨x, h, rfl⟩

theorem post (s : State) (r : Rec) : Beside p s (s.post r) := of_eq rfl rfl

theorem emit (s : State) (o : Out) : Beside p s (s.emit o) := of_eq rfl rfl

theorem emits (s : State) (os : List Out) : Beside p s (s.emits os) := of_eq rfl rfl

theorem onPower (s : State) (f : Power → Power) : Beside p s (s.onPower f) := of_eq rfl rfl

theorem onCtx (s : State) (c : Nat) (f : Ctx → Ctx) (hf : ∀ x, (f x).portal = x.portal) : Beside p s (s.onCtx c f) where
  portal _ _ := rfl
  ctxsWf := FMap.wf_upd _ _ _
  owner i x hx := by
    by_cases h : i = c
    · subst h
      rw [State.onCtx_get] at hx
      obtain ⟨y, hy, rfl⟩ := Option.map_eq_some_iff.mp hx
      exact ⟨y, hy, (hf y).symm⟩
    · rw [State.onCtx_other _ _ _ _ h] at hx
      exact ⟨x, hx, rfl⟩

/-- Rings, contexts and domains are beside every portal. -/
theorem frame (p : Nat) : EngineFrame (Beside p) where
  refl := refl
  trans := trans
  onRing _ _ _ := of_eq rfl rfl
  onCtx := onCtx
  onPower _ _ := of_eq rfl rfl
  emit _ _ := of_eq rfl rfl

theorem ite {c : Prop} [Decidable c] (h : Beside p s t) (k : Beside p s u) : Beside p s (if c then t else u) := (frame p).ite h k

theorem foldl {α : Type} {f : State → α → State} (h : ∀ t a, Beside p t (f t a)) (l : List α) (s : State) : Beside p s (l.foldl f s) := (frame p).foldl h l s

/-! The partition reset. -/

theorem delCtx (s : State) (c : Nat) : Beside p s (s.onEng fun e => { e with ctxs := e.ctxs.del c }) where
  portal _ _ := rfl
  ctxsWf := FMap.wf_del _ _
  owner i x hx := by
    by_cases h : i = c
    · subst h
      simp at hx
    · exact ⟨x, (FMap.get_del_ne _ _ _ h).symm.trans hx, rfl⟩

theorem of_mapVals {f : Nat → Ctx → Ctx} (hf : ∀ c x, (f c x).portal = x.portal) (hportals : t.portals = s.portals)
    (hctxs : t.eng.ctxs = s.eng.ctxs.mapVals f) : Beside p s t where
  portal _ _ := by simp only [State.portal, hportals]
  ctxsWf := by
    rw [hctxs, FMap.wf_mapVals]
    exact id
  owner c x hx := by
    rw [hctxs, FMap.get_mapVals] at hx
    obtain ⟨y, hy, rfl⟩ := Option.map_eq_some_iff.mp hx
    exact ⟨y, hy, (hf c y).symm⟩

theorem dropRing (s : State) (r : Nat) : Beside p s (dropRing s r) := by
  refine ((frame p).wakeBlocked s r).trans (of_mapVals (f := fun _ x => if x.ring = some r then { x with ring := none } else x) (fun _ x => ?_) rfl rfl)
  split <;> rfl

theorem dropRings (s : State) (k : Nat) : Beside p s (dropRings s k) :=
  (((frame p).fenceRings s _).trans (foldl (fun t _ => ite ((frame p).answerAll ..) (refl t)) _ _)).trans
    (foldl (fun t _ => ite (dropRing ..) (refl t)) _ _)

theorem freeTables (s : State) (owner : Nat) : Beside p s (freeTables s owner) := ite (refl s) (of_eq rfl rfl)

/-- The end of a context reaches the mailboxes of its own portal alone. -/
theorem endCtx (s : State) (c status : Nat) (h : ∀ x, s.eng.ctxs.get c = some x → x.portal = p) : Beside p s (endCtx s c status) := by
  unfold Machine.endCtx
  cases hx : s.eng.ctxs.get c with
  | none => exact refl s
  | some x =>
    obtain rfl := h x hx
    refine ((((?_ : Beside x.portal s _).trans (onPortal ..)).trans (delCtx ..)).trans (freeTables ..)).trans ((frame _).answerAt ..)
    cases x.ring with
    | none => exact refl s
    | some r => exact (frame _).onRing ..

theorem wipeWindow (s : State) (x : Ctx) : Beside p s (wipeWindow s x) := by
  unfold Machine.wipeWindow
  cases x.hewer with
  | none => exact refl s
  | some h => exact of_eq rfl rfl

theorem scrubCtx (s : State) (c : Nat) (x : Ctx) (h : ∀ y, s.eng.ctxs.get c = some y → y.portal = p) : Beside p s (scrubCtx s c x) := by
  refine (wipeWindow s x).trans (endCtx _ c _ fun y hy => ?_)
  obtain ⟨z, hz, hzy⟩ := (wipeWindow (p := p) s x).owner c y hy
  exact hzy ▸ h z hz

/-- A list of contexts with what is known of them: those of portal `p` are still of it. -/
def Owned (p : Nat) (l : List (Nat × Ctx)) (s : State) : Prop := ∀ q ∈ l, q.2.portal = p → ∀ y, s.eng.ctxs.get q.1 = some y → y.portal = p

theorem owned {l : List (Nat × Ctx)} (h : Beside p s t) (k : Owned p l s) : Owned p l t := fun q hq hp y hy => by
  obtain ⟨z, hz, hzy⟩ := h.owner q.1 y hy
  exact hzy ▸ k q hq hp z hz

theorem dropCtxs (s : State) (hwf : FMap.wf s.eng.ctxs = true) : Beside p s (dropCtxs s p) := by
  have key : ∀ (l : List (Nat × Ctx)) (t : State), Owned p l t →
      Beside p t (l.foldl (fun t q => if q.2.portal ≠ p ∨ isSystem q.1 then t else if q.2.confidential then Machine.scrubCtx t q.1 q.2 else Machine.endCtx t q.1 stFenced) t) := by
    intro l
    induction l with
    | nil => exact fun t _ => refl t
    | cons q l ih =>
      intro t ht
      have hturn : Beside p t (if q.2.portal ≠ p ∨ isSystem q.1 then t else if q.2.confidential then Machine.scrubCtx t q.1 q.2 else Machine.endCtx t q.1 stFenced) := by
        by_cases hq : q.2.portal = p
        · have hown := ht q List.mem_cons_self hq
          exact ite (refl t) (ite (scrubCtx _ _ _ hown) (endCtx _ _ _ hown))
        · rw [if_pos (.inl hq)]
          exact refl t
      exact hturn.trans (ih _ (hturn.owned fun q' hq' => ht q' (List.mem_cons_of_mem _ hq')))
  refine key _ s fun q hq hp y hy => ?_
  rw [FMap.get_of_mem hwf hq] at hy
  cases hy
  exact hp

theorem portalFault (s : State) (k kind op space addr : Nat) (cls : Cls) : Beside p s (s.portalFault k kind cls op space addr) := post ..

theorem endHeld (s : State) : Beside p s (endHeld s p) := trans (emits ..) (onPortal ..)

theorem partitionReset (s : State) (fenced : Bool) (c : Cause) (hwf : FMap.wf s.eng.ctxs = true) : Beside p s (partitionReset s p fenced c) := by
  have hrings : Beside p s (Machine.dropRings (Machine.endHeld s p) p) := (endHeld s).trans (dropRings ..)
  exact ite (refl s) (ite (onPortal ..) (((hrings.trans (dropCtxs _ (hrings.ctxsWf hwf))).trans (onPortal ..)).trans (onPower ..)))

/-! Registers, slots and mailboxes. -/

theorem logAccess (s : State) (ev size off : Nat) (bar2 write : Bool) : Beside p s (logAccess s p ev bar2 write size off) := onPortal ..

theorem accessSize (s : State) (bar2 : Bool) (size off : Nat) : Beside p s (accessSize s p bar2 size off) :=
  ((portalFault ..).trans (logAccess ..)).trans (emit ..)

theorem setPtCtrl (s : State) (w : Word) : Beside p s (setPtCtrl s p w) := (onPortal s _).trans (ite (emits ..) (refl _))

theorem raiseVector64 (s : State) (k : Nat) : Beside p s (raiseVector64 s k) := ite (emit ..) (refl s)

theorem showNext (s : State) : Beside p s (showNext s p) := by
  unfold Machine.showNext
  split
  · exact (onPortal ..).trans (raiseVector64 ..)
  · exact refl s

theorem clearRc (s : State) (off : Nat) : Beside p s (clearRc s p off) := ite (onPortal ..) (ite (onPortal ..) (refl s))

theorem readNow (s : State) (off size : Nat) : Beside p s (readNow s p off size) := (ite (clearRc ..) (refl s)).trans (emit ..)

theorem viaDomain (s : State) (d off size : Nat) (write : Option Word) {act : State → State} (h : Beside p s (act s)) :
    Beside p s (viaDomain s p d off size write act) := by
  refine ite (emit ..) ?_
  cases s.domSt d with
  | on => exact h
  | fenced => exact (portalFault ..).trans (emit ..)
  | off | waking | draining => exact (onPortal ..).trans ((frame p).wake ..)

theorem readPart (s : State) (off size : Nat) : Beside p s (readPart s p off size) := by
  unfold Machine.readPart
  cases windowDom off with
  | none => exact readNow ..
  | some d => exact viaDomain _ _ _ _ _ (readNow ..)

theorem readAccess (s : State) (bar2 : Bool) (off size : Nat) : Beside p s (readAccess s p bar2 off size) := by
  have hone : ∀ (t : State) (o n : Nat),
      Beside p t (if bar2 then t.emit (.readValue p (addressed (doorbellWord t p o) o n)) else Machine.readPart t p o n) :=
    fun t o n => ite (emit ..) (readPart ..)
  exact ite (ite (foldl (fun t o => hone t o 8) _ _) (emit ..)) (ite (emit ..) (hone ..))

/-! Doorbells. -/

theorem doorbellStale (s : State) (off size : Nat) : Beside p s (doorbellStale s p off size) := (portalFault ..).trans (logAccess ..)

theorem doorbellAccept (s : State) (r : Nat) (g : Ring) (idx : BitVec 32) : Beside p s (doorbellAccept s r g idx) :=
  ite ((((frame p).onRing ..).trans (ite (refl _) ((frame p).settleRing ..))).trans (ite (refl _) ((frame p).setCause ..)))
    ((((frame p).onRing ..).trans (ite (refl _) ((frame p).settleRing ..))).trans ((frame p).wakeBlocked ..))

theorem doorbell (s : State) (r off size : Nat) (idx : BitVec 32) : Beside p s (doorbell s p r off size idx) := by
  have hover (off : Nat) : Beside p s (ringOverrun s p r off idx) := (portalFault ..).trans ((frame p).errorRing ..)
  unfold Machine.doorbell
  cases s.eng.rings.get r with
  | none => exact doorbellStale ..
  | some g => exact ite (doorbellStale ..) (ite (doorbellStale ..) (ite (hover _) (ite (hover _) (doorbellAccept ..))))

end Beside

/-! The instructions. -/

section
variable {p : Nat} {s t : State}

/-- What one instruction does beside the other portals, from what its effect does. -/
theorem Beside.of_next {i : Instr} {u : State} (h : exec i s = .next t) (heq : exec i s = .next u) (hu : Beside p s u) : Beside p s t := by
  rw [heq] at h
  cases h
  exact hu

theorem beside_ptCtrlWrite {off size : Nat} {w : Word} (h : exec (.ptCtrlWrite p off size w) s = .next t) : Beside p s t := by
  refine Beside.of_next h rfl (.ite (.emit ..) ?_)
  cases shapeOf off size with
  | whole => exact (Beside.setPtCtrl ..).trans (.emit ..)
  | half hi => exact (Beside.ite (.refl s) (.setPtCtrl ..)).trans (.emit ..)
  | narrow => exact .accessSize ..
  | unsupported => exact .emit ..

theorem beside_ptMboDataWrite {n : Nat} {w : Word} (h : exec (.ptMboDataWrite p n w) s = .next t) : Beside p s t := by
  refine Beside.of_next h rfl (.ite (.emit ..) (.ite (.refl s) (.ite ?_ ?_)))
  · exact (Beside.onPortal ..).trans (.emit ..)
  · exact (((Beside.onPortal ..).trans (.emit ..)).trans ((Beside.frame p).wake ..)).trans (.ite (.refl _) ((Beside.frame p).setCause ..))

theorem beside_ptMbiDataRead {n : Nat} (h : exec (.ptMbiDataRead p n) s = .next t) : Beside p s t :=
  .of_next h rfl (.ite (.emit ..) (.ite (.refl s) ((Beside.onPortal ..).trans (.emit ..))))

theorem beside_doorbellWrite {off size : Nat} {w : Word} (h : exec (.doorbellWrite p off size w) s = .next t) : Beside p s t := by
  have hring (r : Nat) (idx : BitVec 32) : Beside p s (doorbell (wake (s.emit (.writeDone p)) 17) p r off size idx) :=
    ((Beside.emit s _).trans ((Beside.frame p).wake ..)).trans (.doorbell ..)
  refine Beside.of_next h rfl (.ite (.emit ..) (.ite (.refl s) ?_))
  cases shapeOf off size with
  | whole => exact hring ..
  | half hi => exact .ite (.emit ..) (hring ..)
  | narrow => exact .accessSize ..
  | unsupported => exact .emit ..

/-- The end of a partition reset, while no reset of the chip waits for it. -/
theorem beside_partitionResetDone (hwait : s.power.chipWait = none) (h : exec (.partitionResetDone p) s = .next t) : Beside p s t := by
  refine Beside.of_next h rfl (.ite ?_ (.refl s))
  have hdue (u : State) (hu : u.power.chipWait = none) : chipDue u = u := by simp only [chipDue, hu]
  rw [hdue]
  · exact (Beside.onPortal ..).trans (.onPower ..)
  · exact hwait

end

/-- Settles O58: each command is beside every portal but its own. -/
theorem portalIndependence : Obligations.PortalIndependence := by
  intro s t p q n off size w a b hwf hpq hexec
  refine Beside.portal (p := p) ?_ q hpq.symm
  obtain hcfg | hlink | hgo | ⟨hwait, hdone⟩ | hctrl | hfirst | hnext | hmbo | hmbi | hread | hbell := hexec
  · exact .of_next hcfg rfl (.ite (.refl s) (.emit ..))
  · exact .of_next hlink rfl (.ite ((Beside.partitionReset s _ _ hwf).trans (.onPortal ..)) (.refl s))
  · exact .of_next hgo rfl (.ite (.emit ..) ((Beside.emit s _).trans (.partitionReset _ _ _ hwf)))
  · exact beside_partitionResetDone hwait hdone
  · exact beside_ptCtrlWrite hctrl
  · exact .of_next hfirst rfl (.ite (.emit ..) ((Beside.onPortal ..).trans (.emit ..)))
  · exact .of_next hnext rfl (.ite (.emit ..) (((Beside.onPortal ..).trans (.showNext ..)).trans (.emit ..)))
  · exact beside_ptMboDataWrite hmbo
  · exact beside_ptMbiDataRead hmbi
  · exact .of_next hread rfl (.ite (.refl s) (.ite (.emit ..) (.readAccess ..)))
  · exact beside_doorbellWrite hbell

end Sys2Proof.Machine
end

