-- ==== Sys2Proof/Proofs/RingCommands.lean ====
section
/-! PROOF. The commands of the channel engine, doorbells and the fetch of entries (R88 to R102). -/

namespace Sys2Proof.Machine

open Sys2Proof.Safety

/-! What a ring shows beside the context that waits for it. -/

section
variable {α : Type} {v : Ring → α} (hv : ∀ g w c, v { g with waitsOn := w, waitCtx := c } = v g) (s : State) (r : Nat)
include hv

/-- A context that resumes leaves its ring as it is but for the edge of its wait. -/
theorem view_resumeCtx (c : Nat) (x : Ctx) : ((resumeCtx s c x).eng.rings.get r).map v = (s.eng.rings.get r).map v := by
  unfold resumeCtx
  cases x.ring with
  | none => rfl
  | some j =>
    by_cases h : r = j
    · subst h
      simp [FMap.get_upd_same, Function.comp_def, hv]
    · simp [FMap.get_upd_ne _ _ _ _ h]

theorem view_setCause (c bit : Nat) : ((setCause s c bit).eng.rings.get r).map v = (s.eng.rings.get r).map v := by
  unfold setCause
  cases s.eng.ctxs.get c with
  | none => rfl
  | some x =>
    dsimp only
    split
    · rw [view_resumeCtx hv]
      cases x.hewer <;> simp
    · cases x.hewer <;> simp

theorem view_wakeBlocked (j : Nat) : ((wakeBlocked s j).eng.rings.get r).map v = (s.eng.rings.get r).map v := by
  unfold wakeBlocked
  refine List.foldlRecOn (motive := fun t : State => (t.eng.rings.get r).map v = (s.eng.rings.get r).map v) _ _ rfl fun t ht q _ => ?_
  split
  · exact (view_setCause hv ..).trans ht
  · exact ht

end

@[simp] theorem writeShadow_eng (s : State) (r : Nat) : (writeShadow s r).eng = s.eng := by
  unfold writeShadow
  repeat' split
  all_goals rfl

/-- A taken entry has entered the ring's list, and CONS has moved past it. -/
theorem entryTaken_ring {s : State} {r : Nat} {g : Ring} (hg : s.eng.rings.get r = some g) (e : SubEntry) (ctx : Nat) :
    ∃ y, (entryTaken s r g e ctx).eng.rings.get r = some y ∧ y.cons = g.cons + 1 ∧ y.fetched = g.fetched ++ [{ index := g.cons, entry := e, ctx := ctx }] := by
  have hview : ((entryTaken s r g e ctx).eng.rings.get r).map (fun y => (y.cons, y.fetched)) =
      some (g.cons + 1, g.fetched ++ [{ index := g.cons, entry := e, ctx := ctx }]) := by
    rw [entryTaken, view_wakeBlocked (v := fun y => (y.cons, y.fetched)) fun _ _ _ => rfl]
    simp [FMap.get_upd_same, hg]
  obtain ⟨y, hy, hcf⟩ := Option.map_eq_some_iff.mp hview
  obtain ⟨hcons, hfetched⟩ := Prod.mk.inj hcf
  exact ⟨y, hy, hcons, hfetched⟩

/-! The commands of CH_CMD. -/

section
variable {s : State} {p op : Nat} {tag : BitVec 16}

/-- The state in which a command runs: its tag is taken. -/
def cmdTaken (s : State) (p : Nat) (tag : BitVec 16) : State := (s.onPortal p fun q => { q with cmdTag := tag }).emit (.writeDone p)

@[simp] theorem cmdTaken_portal (s : State) (p : Nat) (tag : BitVec 16) : (cmdTaken s p tag).portal p = { s.portal p with cmdTag := tag } := by
  simp [cmdTaken]

/-- Its role decides what a portal may name, and no command changes that. -/
theorem islandDenied_cmdTaken (s : State) (p : Nat) (tag : BitVec 16) (h : Nat) : islandDenied (cmdTaken s p tag) p h = islandDenied s p h := by
  simp only [islandDenied, State.isParty, cmdTaken_portal]
  rfl

/-- A command runs at once while D17 is ON (R92). -/
theorem chCmd_of_ready (ho : s.portalOpen p = true) (hidle : (s.portal p).cmdBusy = false) (hon : s.domSt 17 = .on) :
    chCmd s p op tag = chEnd (chRun (cmdTaken s p tag) p op).2 p (chRun (cmdTaken s p tag) p op).1 := by
  have hon' : ((s.onPortal p fun q => { q with cmdTag := tag }).emit (.writeDone p)).domSt 17 = .on := hon
  rw [chCmd, if_neg (by simp [ho]), if_neg (by simp [hidle])]
  simp only [hon', cmdTaken]

/-- A command on a ring runs on the ring of the own portal that its argument names (Table 3.17). -/
theorem chRun_of_named {r : Nat} {g : Ring} (hop : 2 ≤ op ∧ op ≤ 7) (harg : fld (s.portal p).arg0 21 0 = r) (howner : r / 2 ^ 19 = p)
    (hg : s.eng.rings.get r = some g) :
    chRun s p op =
      if op = 2 then ringDestroy s r g
      else if op = 3 then ringFence s r g
      else if op = 4 then ringResume s r g
      else if op = 5 then ringReset s r g
      else if op = 6 then ringQuery s p g
      else (stOk, s.onRing r fun y => { y with wakeTarget := (s.portal p).arg1.truncate 32 }) := by
  rw [chRun, if_neg (by omega), if_neg (by omega)]
  simp only [harg, ringPortal, howner, ne_eq, not_true_eq_false, if_false, hg]

/-- A command that ends with OK leaves what it does, and CH_CMD idle. -/
theorem next_chCmd {u : State} (h : s.portalOpen p = true ∧ (s.portal p).cmdBusy = false ∧ s.domSt 17 = .on)
    (hrun : chRun (cmdTaken s p tag) p op = (stOk, u)) : (Host.Outcome.next (chCmd s p op tag) : Ans) = .next (chEnd u p stOk) := by
  obtain ⟨ho, hidle, hon⟩ := h
  rw [chCmd_of_ready ho hidle hon, hrun]

/-- A ring that a ready portal names is its own, and the command runs on it. -/
theorem chRun_cmdTaken {r : Nat} {g : Ring} (hop : 2 ≤ op ∧ op ≤ 7)
    (h : r < 2 ^ 22 ∧ fld (s.portal p).arg0 21 0 = r ∧ r / 2 ^ 19 = p ∧ s.eng.rings.get r = some g) :
    chRun (cmdTaken s p tag) p op =
      if op = 2 then ringDestroy (cmdTaken s p tag) r g
      else if op = 3 then ringFence (cmdTaken s p tag) r g
      else if op = 4 then ringResume (cmdTaken s p tag) r g
      else if op = 5 then ringReset (cmdTaken s p tag) r g
      else if op = 6 then ringQuery (cmdTaken s p tag) p g
      else (stOk, (cmdTaken s p tag).onRing r fun y => { y with wakeTarget := (s.portal p).arg1.truncate 32 }) := by
  obtain ⟨-, harg, howner, hg⟩ := h
  have hrun := chRun_of_named (s := cmdTaken s p tag) hop (by rw [cmdTaken_portal, ← harg]) howner hg
  rwa [cmdTaken_portal] at hrun

/-- The ring that a portal's arguments describe (Tables 3.12, 3.17). -/
def createdRing (a : Portal) (p : Nat) (k : RingKind) (now : Nat) : Ring :=
  { base := a.arg0, log2 := fld a.arg1 7 0, kind := k, owner := p, island := fld a.arg1 47 32, confidential := fld a.arg1 31 16 % 2 == 1
    shadowEn := fld a.arg1 31 16 / 2 % 2 == 1, wakeTarget := a.arg2.truncate 32, paired := if k = .submit then fld a.arg2 63 32 else 0
    shadow := a.arg3, changed := now }

/-- RING_CREATE with sound arguments takes the first free number (R93). -/
theorem ringCreate_of_sound {k : RingKind} {n : Nat} (a : Portal) (ha : s.portal p = a) (hk : RingKind.ofCode (fld a.arg1 15 8) = some k)
    (hsize : 6 ≤ fld a.arg1 7 0 ∧ fld a.arg1 7 0 ≤ 16) (halign : fld a.arg0 11 0 = 0 ∧ fld a.arg3 2 0 = 0) (hflags : fld a.arg1 31 16 < 4)
    (hsub : k = .submit → ringPortal (fld a.arg2 63 32) = p ∧ (s.eng.rings.get (fld a.arg2 63 32)).map (·.kind) = some .complete)
    (hisl : islandDenied s p (fld a.arg1 47 32) = false) (hconf : fld a.arg1 31 16 % 2 = 1 → a.session.live = true ∧ a.role ≠ .auditor)
    (hfree : findFrom (fun i => (s.eng.rings.get (p * 2 ^ 19 + i)).isNone) 524288 0 = some n) :
    ringCreate s p =
      (stOk, (s.onEng fun e => { e with rings := e.rings.set (p * 2 ^ 19 + n) (createdRing a p k s.now) }).onPortal p fun q =>
        { q with arg0 := BitVec.ofNat 64 (p * 2 ^ 19 + n) }) := by
  subst ha
  obtain ⟨hbase, hshadow⟩ := halign
  have hpair : ¬(k = .submit ∧ (!(ringPortal (fld (s.portal p).arg2 63 32) == p && ((s.eng.rings.get (fld (s.portal p).arg2 63 32)).map (·.kind)) == some .complete)) = true) := by
    rintro ⟨hk', hbad⟩
    obtain ⟨howner, hkind⟩ := hsub hk'
    simp [howner, hkind] at hbad
  have hsealed : ¬(fld (s.portal p).arg1 31 16 % 2 = 1 ∧ ((!(s.portal p).session.live) = true ∨ (s.portal p).role = .auditor)) := by
    rintro ⟨hflag, hbad⟩
    obtain ⟨hlive, hrole⟩ := hconf hflag
    simp [hlive, hrole] at hbad
  simp only [ringCreate, hk, hfree]
  rw [if_neg (by simp only [hpair, hbase, hshadow, ne_eq, not_true_eq_false, false_or, or_false]; omega), if_neg (by simpa [hisl] using hsealed)]
  rfl

end

/-- A served entry that returns nothing is answered with its status. -/
theorem finish_of_serves {s : State} {r op : Nat} {idx : BitVec 32} {g : Ring} {f : Fetched} (h : Serves s r idx op g f) (status : Nat) :
    finish s r f status = answer s r idx status := by
  obtain ⟨hg, hfind, -, -, hclear, -⟩ := h
  have hindex : f.index = idx := by simpa using List.find?_some hfind
  simp only [finish, hg]
  rw [if_neg (by rw [hclear]; simp), hindex]
  exact if_pos trivial

/-- Settles O23: a command that is ready runs on the ring that it names; a doorbell meets the checks of R98; an entry that passes the checks is taken. -/
theorem ringCommands : Obligations.RingCommands := by
  intro s p r n tag g c data raw buf idx f ready t named ends a flags
  refine ⟨fun k => ?create, ?destroy, ?fence, ?resume, ?reset, ?query, ?retarget, ?accept, ?overrun, ?fetch, fun hg hroom => ?submit, fun h hc => ?nop⟩
  case create =>
    intro hready hk hmin hmax hbase hshadow hflags hsub hisl hconf hfree
    refine next_chCmd hready ?_
    exact ringCreate_of_sound { a with cmdTag := tag } (cmdTaken_portal s p tag) hk ⟨hmin, hmax⟩ ⟨hbase, hshadow⟩ hflags hsub
      ((islandDenied_cmdTaken ..).trans hisl) hconf hfree
  case destroy =>
    intro hready hnamed hst hpairs
    suffices hallowed : ¬(g.st = .active ∨ (g.kind = .complete ∧ (cmdTaken s p tag).eng.rings.any fun q => q.2.kind == .submit && q.2.paired == r)) from
      next_chCmd hready ((chRun_cmdTaken (by decide) hnamed).trans ((if_pos rfl).trans (if_neg hallowed)))
    rintro (h | ⟨hk, h⟩)
    · exact hst h
    · obtain ⟨q, hq, hpair⟩ := List.any_eq_true.mp h
      exact hpairs hk q hq (by simpa using hpair)
  case fence => exact fun hready hnamed hst => next_chCmd hready ((chRun_cmdTaken (by decide) hnamed).trans (if_neg hst))
  case resume => exact fun hready hnamed hst => next_chCmd hready ((chRun_cmdTaken (by decide) hnamed).trans (if_pos hst))
  case reset => exact fun hready hnamed hst => next_chCmd hready ((chRun_cmdTaken (by decide) hnamed).trans (if_pos hst))
  case query => exact fun hready hnamed => next_chCmd hready (chRun_cmdTaken (by decide) hnamed)
  case retarget => exact fun hready hnamed => next_chCmd hready (chRun_cmdTaken (by decide) hnamed)
  case accept =>
    intro hp hst hn hon hg hk herr hahead hsize
    have ho : s.portalOpen p = true := by simp [State.portalOpen, hp, hst]
    rw [exec_doorbellWrite_checks data ho hn (.inl rfl)]
    refine congrArg Host.Outcome.next (doorbell_of_within _ _ _ (by simpa using hg) herr ?_ ?_)
    · simpa [Ring.ahead, hk] using hahead
    · simpa [Ring.past, hk] using hsize
  case overrun =>
    intro ho hn hg hk herr hahead hsize
    rw [exec_doorbellWrite_checks data ho hn (.inl rfl)]
    refine congrArg Host.Outcome.next (doorbell_of_past _ _ _ (by simpa using hg) herr ?_ (.inl ⟨hk, hsize⟩))
    simpa [Ring.ahead, hk] using hahead
  case fetch =>
    intro hg hk hst hocc hctx hen hon hroom hm hmay hseal
    have hnext := exec_entryFetch_of_available (raw := raw) hg hk hst hocc hctx hen hon hroom
    refine ⟨hnext, _, hnext, ?_⟩
    rw [takeEntry_of_admitted hm hmay hseal]
    exact entryTaken_ring hg _ 0
  case submit =>
    show execSubmitResume r s = _
    simp only [execSubmitResume, hg, hroom, Bool.false_eq_true, if_false]
  case nop =>
    exact congrArg Host.Outcome.next ((serve_of_serves h buf _).trans (finish_of_serves h stOk))

end Sys2Proof.Machine
end

