-- ==== Sys2Proof/Proofs/ContextCommands.lean ====
section
/-! PROOF. The life of contexts: starts, stops, placement, wake causes and mailbox bindings (R109, R152 to R161, R361). -/

namespace Sys2Proof.Machine

open Sys2Proof.Safety

section
variable {s : State}

/-- A context that resumes keeps its wake causes. -/
theorem causes_resumeCtx (s : State) (n : Nat) (x : Ctx) :
    ((resumeCtx s n x).eng.ctxs.get n).map (·.core.causes) = (s.eng.ctxs.get n).map (·.core.causes) := by
  unfold resumeCtx
  cases x.ring <;> simp [FMap.get_upd_same, Function.comp_def]

/-- A latched cause is set, whether the context resumes or not (R157). -/
theorem causes_setCause {n k : Nat} {x : Ctx} (hx : s.eng.ctxs.get n = some x) :
    ((setCause s n k).eng.ctxs.get n).map (·.core.causes) = some (x.core.causes ||| BitVec.ofNat 6 (2 ^ k)) := by
  simp only [setCause, hx]
  split
  · rw [causes_resumeCtx]
    cases x.hewer <;> simp [FMap.get_upd_same, hx]
  · cases x.hewer <;> simp [FMap.get_upd_same, hx]

theorem getLsbD_or_twoPow {k : Nat} (hk : k < 6) (c : BitVec 6) : (c ||| BitVec.ofNat 6 (2 ^ k)).getLsbD k = true := by
  have hbit : (BitVec.ofNat 6 (2 ^ k)).getLsbD k = true := by rw [BitVec.getLsbD_ofNat, Nat.testBit_two_pow_self, decide_eq_true hk, Bool.and_true]
  rw [BitVec.getLsbD_or, hbit, Bool.or_true]

theorem stopCtx_of_held {x : Ctx} (hst : x.st = .pending ∨ x.st = .faulted) (s : State) (r : Nat) (f : Fetched) (c grace : Nat) :
    stopCtx s r f c grace x = finish (endCtx s c stOk) r f stOk := by
  obtain h | h := hst <;> simp only [stopCtx, h]

theorem stopCtx_of_live {x : Ctx} (hst : x.st = .running ∨ x.st = .halted ∨ x.st = .blocked) (s : State) (r : Nat) (f : Fetched) (c grace : Nat) :
    stopCtx s r f c grace x = setCause (s.onCtx c fun y =>
      { y with stopEntry := some (r, f.index), graceUs := if grace = 0 then 1000 else grace, st := .stopping }) c causeStop := by
  obtain h | h | h := hst <;> simp only [stopCtx, h]

end

/-- Settles O24: each entry is served, and each event finds its context in the state that it is about. -/
theorem contextCommands : Obligations.ContextCommands := by
  intro s r idx buf g f n b k x inc
  dsimp only
  refine ⟨fun h hok hfree hring => ?start, fun h hok hfree hring => ?startBound, fun h hz hx hp hsys hst => ?stopHeld, fun h hz hx hp hsys hst => ?stopRuns,
    fun h hz hx hend hp hsys => ?stopEnded, fun hx hst => ?grace, fun hx hst => ?timeout, fun h hz hx hp hsys hst => ?reset, fun hfind => ?placement,
    fun hk hx => ?cause, fun hx huntil hdue => ?time, fun hwake hoff hdue => ?prewake, fun h hn hk hp hsys hx hquiet => ?bind, fun h hn hk hp hsys hx hfull => ?bindFull⟩
  case start =>
    refine congrArg Host.Outcome.next ((serve_of_serves h buf _).trans ?_)
    simp only [hok, hfree, hring]
  case startBound =>
    refine congrArg Host.Outcome.next ((serve_of_serves h buf _).trans ?_)
    simp only [hok, hfree, hring]
  case stopHeld =>
    refine congrArg Host.Outcome.next ((serve_of_serves h buf _).trans ?_)
    simp [hz, hx, hp, hsys, stopCtx_of_held hst]
  case stopRuns =>
    refine congrArg Host.Outcome.next ((serve_of_serves h buf _).trans ?_)
    simp [hz, hx, hp, hsys, stopCtx_of_live hst]
  case stopEnded =>
    refine congrArg Host.Outcome.next ((serve_of_serves h buf _).trans ?_)
    simp [hz, hx, hp, hsys, hend]
  case grace =>
    show execStopGraceExpiry n s = _
    simp only [execStopGraceExpiry, hx, hst, if_true]
  case timeout =>
    show execFaultedTimeout n s = _
    simp only [execFaultedTimeout, hx, hst, if_true]
  case reset =>
    refine congrArg Host.Outcome.next ((serve_of_serves h buf _).trans ?_)
    simp [hz, hx, hp, hsys, hst]
  case placement =>
    show execPlacement s = _
    simp only [execPlacement, hfind]
  case cause =>
    have hnext : exec (.wakeCause n k) s = .next (setCause s n k) := next_if_pos hk
    obtain ⟨y, hy, hcauses⟩ := Option.map_eq_some_iff.mp (causes_setCause (k := k) hx)
    exact ⟨hnext, _, y, hnext, hy, hcauses ▸ getLsbD_or_twoPow hk _⟩
  case time =>
    show execTimeWake (.ctx n) s = _
    have hcore : coreOf s (.ctx n) = some x.core := by simp [coreOf, hx]
    simp only [execTimeWake, hcore, huntil, State.timeOf, hdue, if_true, State.cause]
  case prewake =>
    show execBenchPrewake b s = _
    simp [execBenchPrewake, hwake, hoff, hdue]
  case bind =>
    refine congrArg Host.Outcome.next ((serve_of_serves h buf _).trans ?_)
    have hnone : ¬((!inc && ((s.portal g.owner).mbo.getD n {}).full) = true ∧ k ≠ 0) := by
      rintro ⟨hfull, -⟩
      obtain rfl | hq := hquiet
      · cases hfull
      · rw [hq, Bool.and_false] at hfull
        cases hfull
    rw [if_neg (by omega), if_neg (by simp [hp, hsys]), if_neg (by simp [hx])]
    dsimp only
    rw [if_neg hnone]
  case bindFull =>
    refine congrArg Host.Outcome.next ((serve_of_serves h buf _).trans ?_)
    rw [if_neg (by omega), if_neg (by simp [hp, hsys]), if_neg (by simp [hx])]
    dsimp only
    rw [if_pos ⟨by rw [hfull]; rfl, hk⟩]

end Sys2Proof.Machine
end

