-- ==== Sys2Proof/Proofs/IslandCommands.lean ====
section
/-! PROOF. Islands: carves, boundaries, releases, measurements, aborts, and the schedules that are loaded for them (R301, R310 to R327, R372 to R376). -/

namespace Sys2Proof.Machine

open Sys2Proof.Safety

/-- What an admitted SCHED_LOAD does: the image is stored or named, and is pending for the island that the entry names. -/
def schedStored (s : State) (r : Nat) (f : Fetched) (a b img : List Byte) : State :=
  let h := leAt a 0 2
  let flags := leAt a 2 1
  let held := if b = [] then (leAt a 8 8, s) else storeSched s img (flags.testBit 0 || h == 0) (flags.testBit 1)
  let t := if b = [] ∧ flags.testBit 1 then held.2.onIsles fun e => { e with scheds := e.scheds.upd held.1 fun q => { q with pin := true } } else held.2
  let u := if h = 0 then t
    else journal (t.onIsland h fun l => { l with pendSched := held.1, autoVariant := flags.testBit 2 }) jModel [at_ 0x22 0 ||| at_ h 16, BitVec.ofNat 64 held.1]
  finish (gcScheds u) r f stOk (leBytes 8 held.1)

/-- A SCHED_LOAD whose fields are sound is judged by its image and by R301. -/
theorem schedLoad_served {s : State} {r : Nat} {idx : BitVec 32} {g : Ring} {f : Fetched} (h : Serves s r idx 0x30 g f) (hj : Journals s) (buf : List Byte)
    (h18 : s.domSt 18 ≠ .fenced) (hflags : leAt (argsOf f) 2 1 < 8) (hz : zeroAt (argsOf f) 3 5 = true) (hz' : zeroAt (argsOf f) 16 24 = true) :
    exec (.schedLoad r idx buf) s = .next
      (match schedOf (wake s 18) (argsOf f) (bufOf f buf) with
        | none => finish (wake s 18) r f stInvalid
        | some img =>
          match schedRefusal (wake s 18) (argsOf f) (bufOf f buf) img with
          | some st => finish (wake s 18) r f st
          | none => schedStored (wake s 18) r f (argsOf f) (bufOf f buf) img) := by
  refine congrArg Host.Outcome.next ((serveJ_of_serves h hj buf _).trans ((if_neg h18).trans ((if_neg (by simp [hz, hz']; omega)).trans ?_)))
  rfl

/-- Settles O25: each entry is served, its checks pass, and the island is in the state that the command is for. -/
theorem islandCommands : Obligations.IslandCommands := by
  intro s r idx buf g f n key l img
  dsimp only
  refine ⟨fun h hj hnew hok hn hkey hset => ?carve, fun h hj hold hok hl hkey hset => ?boundary, fun h hj hl hz hrel hst => ?release, fun h hj hl hz hrel hst => ?wait,
    fun hl hrel hst => ?resume, rfl, fun h hparty hdebug hl hz hst h19 => ?measure, fun h hj hparty hl hflag hz hst => ?abort, fun h hj hparty hl hflag hz hst => ?aborted,
    fun hl hwait hsends => ?resend, fun hl hwait hsends => ?lost, fun h hj h18 hflags hz hz' => ⟨fun hb hh => ?sched, fun hb hh => ?cache, fun hb hh himg hok => ?named⟩⟩
  case carve =>
    refine congrArg Host.Outcome.next ((serveJ_of_serves h hj buf _).trans ((if_neg (by simp [hnew])).trans ?_))
    rw [hok, hn, hkey]
    dsimp only
    rw [hset]
  case boundary =>
    refine congrArg Host.Outcome.next ((serveJ_of_serves h hj buf _).trans ((if_neg hold).trans ?_))
    rw [hok, hl, hkey]
    dsimp only
    rw [hset]
  case release =>
    refine congrArg Host.Outcome.next ((serveJ_of_serves h hj [] _).trans ?_)
    simp [hl, hz, hrel, hst]
  case wait =>
    refine congrArg Host.Outcome.next ((serveJ_of_serves h hj [] _).trans ?_)
    simp [hl, hz, hrel, hst, IslState.releases]
  case resume =>
    show execIslandReleaseResume n s = _
    simp [execIslandReleaseResume, hl, hst, Option.isSome_iff_ne_none, hrel]
  case measure =>
    refine congrArg Host.Outcome.next ((serve_of_serves h buf _).trans ?_)
    simp only [hl]
    rw [if_neg (by simp [hparty, hdebug]), if_neg (by simp [hz, hst]), if_neg h19]
  case abort =>
    refine congrArg Host.Outcome.next ((serveJ_of_serves h hj buf _).trans ?_)
    have hlive : l.st ≠ .aborted := by
      intro hdead
      rw [hdead] at hst
      cases hst
    simp only [hl]
    rw [if_neg (by simp [hparty]), if_neg (by simp [hz, hflag]), if_neg hlive, if_pos hst]
  case aborted =>
    refine congrArg Host.Outcome.next ((serveJ_of_serves h hj buf _).trans ?_)
    simp only [hl]
    rw [if_neg (by simp [hparty]), if_neg (by simp [hz, hflag]), if_pos hst]
  case resend =>
    show execAbortResend n s = _
    simp only [execAbortResend, hl]
    rw [if_neg hwait, if_pos hsends]
  case lost =>
    show execAbortResend n s = _
    simp only [execAbortResend, hl]
    rw [if_neg hwait, if_neg (by omega)]
  case sched =>
    refine (schedLoad_served h hj buf h18 hflags hz hz').trans (congrArg Host.Outcome.next ?_)
    cases schedOf (wake s 18) (argsOf f) (bufOf f buf) with
    | none => rfl
    | some i =>
      dsimp only
      cases schedRefusal (wake s 18) (argsOf f) (bufOf f buf) i with
      | some st => rfl
      | none =>
        simp only [schedStored, hb, hh, beq_eq_false_iff_ne.mpr hh, Bool.or_false, false_and, if_false]
        rfl
  case cache =>
    refine (schedLoad_served h hj buf h18 hflags hz hz').trans (congrArg Host.Outcome.next ?_)
    cases schedOf (wake s 18) (argsOf f) (bufOf f buf) with
    | none => rfl
    | some i =>
      dsimp only
      cases schedRefusal (wake s 18) (argsOf f) (bufOf f buf) i with
      | some st => rfl
      | none =>
        simp only [schedStored, hb, hh, beq_self_eq_true, Bool.or_true, false_and, if_false, if_true]
        rfl
  case named =>
    refine (schedLoad_served h hj buf h18 hflags hz hz').trans (congrArg Host.Outcome.next ?_)
    rw [himg]
    dsimp only
    rw [hok]
    simp only [schedStored, hb, hh, true_and, if_false, if_true]

end Sys2Proof.Machine
end

