-- ==== Sys2Proof/Proofs/TrustCommands.lean ====
section
/-! PROOF. Sealed entries that parties submit, the lapse of consent, and telemetry (R115, R329 to R340). -/

namespace Sys2Proof.Machine

open Sys2Proof.Safety

section
variable {s : State} {r op : Nat} {idx : BitVec 32} {g : Ring} {f : Fetched}

/-- A sealed entry is served once its record has opened (R103, R115). -/
theorem serve_of_servesSealed (h : ServesSealed s r idx op g f) (buf : List Byte) (k : Ring → Fetched → List Byte → List Byte → State → State) :
    serve r idx op buf s k =
      match openRecord s g.owner r idx buf f.entry.length.toNat with
      | (none, t) => sealRejected t g.owner r idx
      | (some plain, t) => k g f (slice plain 0 40) (plain.drop 40) t := by
  obtain ⟨hg, hf, hop, hctx, hseal, hfence⟩ := h
  simp only [serve, hg, hf]
  rw [if_neg (by simp [hop, hctx]), hfence, hseal, if_neg (by simp), if_pos rfl] <;> rfl

/-- A journalled entry is served as any other where nothing holds it (R419, R433, R445). -/
theorem serveJ_of_journals (hj : Journals s) (r op : Nat) (idx : BitVec 32) (buf : List Byte)
    (k : Ring → Fetched → List Byte → List Byte → State → State) : serveJ r idx op buf s k = serve r idx op buf s k := by
  obtain ⟨hswitch, hface, hstore⟩ := hj
  rw [serveJ, if_neg (by simp [hswitch]), if_neg (by simp [hface]), if_neg fun hn => hstore hn.1]

/-- An entry is another command's where it names another kind of Table 10.8 (log 193). -/
theorem not_kindFits_iff (a : List Byte) (kind : Nat) : kindFits a kind = false ↔ leAt a 2 1 ≠ kind ∧ 1 ≤ leAt a 2 1 ∧ leAt a 2 1 ≤ 4 := by
  show (leAt a 2 1 == kind || leAt a 2 1 == 0 || decide (4 < leAt a 2 1)) = false ↔ _
  simp only [Bool.or_eq_false_iff, beq_eq_false_iff_ne, decide_eq_false_iff_not]
  omega

/-- A KEY_SHARE whose record opens is judged in the order of R329, and then the broker takes it. -/
theorem keyShare_of_servesSealed (h : ServesSealed s r idx 0x40 g f) (buf : List Byte) (kind : Nat)
    (k : Nat → Island → Nat → BitVec 256 → List Byte → State → State) :
    keyShare r idx buf kind s k =
      match openRecord s g.owner r idx buf f.entry.length.toNat with
      | (none, t) => sealRejected t g.owner r idx
      | (some plain, t) =>
        if leAt (slice plain 0 40) 2 1 ≠ kind ∧ 1 ≤ leAt (slice plain 0 40) 2 1 ∧ leAt (slice plain 0 40) 2 1 ≤ 4 then s
        else if t.domSt 19 = .fenced then finish t r f stFenced
        else match shareRefusal t g (slice plain 0 40) (plain.drop 40) with
          | some st => finish (wake t 19) r f st
          | none => match t.isles.islands.get (leAt (slice plain 0 40) 0 2) with
            | none => t
            | some l =>
              finish (k (leAt (slice plain 0 40) 0 2) l (leAt (slice plain 0 40) 3 1) ((shareSecret l (slice plain 0 40) (plain.drop 40)).getD 0)
                (slice plain 0 40) (wake t 19)) r f stOk := by
  rw [keyShare, serve_of_servesSealed h]
  obtain ⟨_ | plain, t⟩ := openRecord s g.owner r idx buf f.entry.length.toNat
  · rfl
  · simp only [Bool.not_eq_true', not_kindFits_iff] <;> rfl

end

/-- Settles O26: each sealed entry waits for its record to open, and the checks of R329 then decide; the rest pass their guards. -/
theorem trustAndTelemetryCommands : Obligations.TrustAndTelemetryCommands := by
  constructor
  · intro s r idx buf g f
    dsimp only
    refine ⟨fun h => ⟨?dataKey, ?weightShare, ?accept, ?withdraw⟩, fun h hj => ?consent⟩
    case dataKey | weightShare | accept | withdraw => exact congrArg Host.Outcome.next (keyShare_of_servesSealed h buf _ _)
    case consent =>
      refine congrArg Host.Outcome.next ((serveJ_of_journals hj ..).trans ((serve_of_servesSealed h buf _).trans ?_))
      obtain ⟨_ | plain, t⟩ := openRecord s g.owner r idx buf f.entry.length.toNat
      · rfl
      · simp only [Bool.not_eq_true'] <;> rfl
  · intro s r idx buf g f n p l x
    dsimp only
    refine ⟨fun hl hlapse => ?lapse, fun h hmay hkind hsrc himage hmember hz hiu hread => ?telemetry⟩
    case lapse =>
      show execConsentLapse n p s = _
      have hany : (l.consent.any fun t => t.party == p && !t.lapsed && decide (t.notAfter < s.now)) = true := by
        obtain ⟨k, hk, hparty, hin, hpast⟩ := hlapse
        exact List.any_eq_true.mpr ⟨k, hk, by simp [hparty, hin, hpast]⟩
      simp only [execConsentLapse, hl, hany]
      exact next_if_neg Bool.false_ne_true
    case telemetry =>
      refine congrArg Host.Outcome.next ((serve_of_serves h buf _).trans ?_)
      obtain ⟨-, -, -, -, hseal, -⟩ := h
      have hsrc' : ¬(4 < leAt (argsOf f) 2 1 ∨ 1 < leAt (argsOf f) 3 1 ∨ (leAt (argsOf f) 3 1 = 1 ∧ leAt (argsOf f) 2 1 ≠ 3) ∨
          2 ^ 28 ≤ leAt (argsOf f) 4 4 ∨ (!zeroAt (argsOf f) 16 24) = true) := by
        simp only [hz, Bool.not_true, Bool.false_eq_true, or_false]
        omega
      have hiu' : ¬(leAt (argsOf f) 2 1 = 4 ∧ (!s.hasIu) = true) := by
        rintro ⟨hk, hno⟩
        simp [hiu hk] at hno
      rw [if_neg (by simp [hmay]), if_neg hsrc', if_neg hiu', hseal]
      simp only [Bool.false_eq_true, if_false, hread]

end Sys2Proof.Machine
end

