-- ==== Sys2Proof/Proofs/MaintenanceCommands.lean ====
section
/-! PROOF. Maintenance activities, the time references and the pair (R273 to R276, R437 to R457). -/

namespace Sys2Proof.Machine

open Sys2Proof.Safety

/-- Settles O27: a sound request reaches its admission, and every other command its activity. -/
theorem maintenanceCommands : Obligations.MaintenanceCommands := by
  intro s r idx buf g f own groups x n st recs
  dsimp only
  refine ⟨fun h hflags hact hmin hmax hz hlen hlen' hown hgroups hbarred hroom => ?request, fun h hflags hx => ?cancel, fun hx hrun => ?ends, fun hx hrun hover => ?overrun,
    fun hx hwork => ?retrain, fun hlim => next_if_pos hlim⟩
  case request =>
    refine congrArg Host.Outcome.next ((serve_of_serves h buf _).trans ?_)
    have hsound : ¬(leAt (argsOf f) 1 1 ≠ 0 ∨ leAt (argsOf f) 2 2 ≠ 0 ∨ leAt (argsOf f) 4 4 = 0 ∨ 86400 < leAt (argsOf f) 4 4 ∨
        (!zeroAt (argsOf f) 16 24) = true ∨ (bufOf f buf).length % 8 ≠ 0 ∨ 512 < (bufOf f buf).length) := by
      simp only [hz, Bool.not_true, Bool.false_eq_true, false_or]
      omega
    have hqueue : ¬(256 ≤ s.pair.queued.length) := Nat.not_le.mpr hroom
    rw [if_neg (by simp [hflags]), if_neg hsound]
    simp only [hown, hgroups]
    rw [if_neg (by simp [hbarred]), if_neg (by simp [hqueue])]
  case cancel =>
    refine congrArg Host.Outcome.next ((serve_of_serves h [] _).trans ?_)
    rw [if_neg (by rw [hflags]; decide), if_neg (by simp [hflags])]
    simp only [hx]
  case ends =>
    show execMaintActivityEnd n st s = _
    simp only [execMaintActivityEnd, hx, hrun, if_true]
  case overrun =>
    show execMaintOverrun n s = _
    simp only [execMaintOverrun, hx]
    exact next_if_neg (by rw [hrun, hover]; simp)
  case retrain =>
    show execLinkRetrain n recs s = _
    simp only [execLinkRetrain, hx, hwork]
    exact next_if_neg Bool.false_ne_true

/-! A change of a reference leaves the state of time as it is. -/

section
variable (t : Time) (x : Side) (f : TRef → TRef)

@[simp] theorem Time.onRef_st : (t.onRef x f).st = t.st := by cases x <;> rfl

@[simp] theorem Time.onRef_firstLock : (t.onRef x f).firstLock = t.firstLock := by cases x <;> rfl

end

/-- Settles O28: each event changes its reference, and the state of time that it finds decides what follows. -/
theorem timeReferenceCommands : Obligations.TimeReferenceCommands := by
  intro s x err off rate n tr sc copies t
  dsimp only
  refine ⟨fun hup herr => ?late, fun hup herr => ?edge, rfl, fun hup => next_if_pos hup, rfl, fun hup => next_if_pos hup, fun hvalid hst hlock ha hbest hload => ?first,
    fun hvalid hst => ?quiet, fun hst hvalid => next_if_pos ⟨hst, hvalid⟩, fun hst hvalid hoff => next_if_pos ⟨hst, hvalid, hoff⟩, fun hst => next_if_pos hst⟩
  case late => exact (next_if_neg (by simp [hup])).trans (next_if_pos herr)
  case edge => exact (next_if_neg (by simp [hup])).trans (next_if_neg (Nat.not_lt.mpr herr))
  case first =>
    refine (next_if_neg (by simp [hvalid])).trans ?_
    have hside (b : Bool) (hb : b = false ∨ x = .a) : (if b = true then Side.a else x) = x := by
      obtain rfl | rfl := hb
      · rfl
      · exact ite_self _
    have hst' : (s.onTime fun t => t.onRef x fun r => { r with qualS := Nat.max r.qualS 10 }).time.st = .unlocked := (Time.onRef_st ..).trans hst
    have hlock' : (s.onTime fun t => t.onRef x fun r => { r with qualS := Nat.max r.qualS 10 }).time.firstLock = false := (Time.onRef_firstLock ..).trans hlock
    dsimp only
    rw [hst', hlock', hside _ hbest]
    simp only [Bool.false_eq_true, if_false, firstLockOn, hload]
  case quiet =>
    refine (next_if_neg (by simp [hvalid])).trans ?_
    obtain hst | hst := hst <;> simp only [State.onTime_time, Time.onRef_st, hst]

theorem holdsLease_of_role {s : State} (hp : s.pair.paired = true) (h : s.pair.role = .active ∨ s.pair.role = .takingOver) : holdsLease s = true := by
  obtain h | h := h <;> simp [holdsLease, hp, h]

/-- Settles O29: each command past its guard. -/
theorem pairCommands : Obligations.PairCommands := by
  intro s src unit rem hashA hashB macA macB w img
  dsimp only
  refine ⟨fun hup hp hrole hunit => next_if_neg (by simp [hup, hp, hrole]; omega), fun ⟨hup, hp, ha⟩ hrole => next_if_neg (by simp [fromArbiter, hup, hp, ha, hrole]),
    fun hup ⟨hp, hrole⟩ => next_if_neg (by simp [hup, holdsLease_of_role hp hrole]), fun ⟨hup, hp, ha⟩ ⟨_, hrole⟩ hrem => ?answer,
    fun hup ⟨hp, hrole⟩ => next_if_neg (by simp [hup, holdsLease_of_role hp hrole]), fun ⟨hup, hp, ha⟩ hrole => next_if_pos (by simp [fromArbiter, hup, hp, ha, hrole]),
    fun hup hrole => next_if_pos ⟨hup, hrole⟩, fun ⟨hup, hp, ha⟩ => next_if_pos (by simp [fromArbiter, hup, hp, ha]), fun hboot hstop => next_if_neg (by simp [hboot, hstop]),
    fun hup hrole => next_if_pos ⟨hup, hrole⟩, fun hup ⟨hp, hrole⟩ => ?rise, fun hup ⟨hp, hrole⟩ hpeer hack => ?timeout,
    fun hup hrole hp hact => ?switch⟩
  case switch =>
    obtain ⟨y, hy⟩ := Option.ne_none_iff_exists'.mp hact
    exact next_if_neg (by rw [hy]; simp [hup, hrole, hp])
  case answer => exact next_if_neg (by simp [fromArbiter, holdsLease_of_role hp hrole, hup, hp, ha]; omega)
  case rise => exact next_if_neg (by simp [show holdsLease (s.onPins fun p => { p with leaseLow := false }) = true from holdsLease_of_role hp hrole, hup])
  case timeout => exact next_if_neg (by simp [holdsLease_of_role hp hrole, hup, hpeer, hack])

end Sys2Proof.Machine
end

