-- ==== Sys2Proof/Proofs/ShippingFrames.lean ====
section
/-! PROOF. Journal shipping: the check of the landing port, and what each frame then does (R54, R438, R446 to R449). -/

namespace Sys2Proof.Machine

open Sys2Proof.Safety

section
variable {s : State} {src etype ftype seq jsn : Nat} {payload : List Word} {tag : BitVec 128}

/-- The state in which a frame that the landing port accepts has its effect. -/
def frameTaken (s : State) (seq : Nat) : State := wake (s.onPair fun q => { q with rxSeq := seq }) 21

@[simp] theorem frameTaken_pair (s : State) (seq : Nat) : (frameTaken s seq).pair = { s.pair with rxSeq := seq } := by simp [frameTaken]

@[simp] theorem frameTaken_nv (s : State) (seq : Nat) : (frameTaken s seq).nv = s.nv := by simp [frameTaken]

/-- What becomes of a frame that arrives: its effect, or it is port 3's, or it is dropped and recorded (R54, R446). -/
def landing (s : State) (src etype seq jsn : Nat) (tag : BitVec 128) (ftype : Nat) (p : List Word) (k : State → State) : State :=
  if s.pair.paired = true ∧ etype = 0x88B6 ∧ src = s.pair.peerMac ∧ tag = Config.shipTag s.pair.pairKey ftype seq jsn p ∧ (ftype = 5 ∨ s.pair.rxSeq < seq)
  then k (wake (s.onPair fun q => { q with rxSeq := seq }) 21)
  else if s.domOn 23 = true ∧ etype ≠ 0x88B6 then s
  else (s.fault 0 8 0x284 .corrected).onPair fun q => { q with rejected := q.rejected + 1 }

theorem frameOk_iff : frameOk s src etype ftype seq jsn payload tag = true ↔
    s.pair.paired = true ∧ etype = 0x88B6 ∧ src = s.pair.peerMac ∧ tag = Config.shipTag s.pair.pairKey ftype seq jsn payload ∧
      (ftype = 5 ∨ s.pair.rxSeq < seq) := by
  simp [frameOk, and_assoc]

/-- A frame that arrives is accepted, left to port 3, or dropped (R54, R446); an accepted one is all of EtherType 0x88B6. -/
theorem next_onFrame {k k' : State → State} (hup : s.pins.d0Up = true) (hk : k (frameTaken s seq) = k' (frameTaken s seq)) :
    (Host.Outcome.next (onFrame s src etype ftype seq jsn payload tag k) : Ans) = .next (landing s src etype seq jsn tag ftype payload k') := by
  refine congrArg Host.Outcome.next ?_
  rw [landing]
  by_cases hok : frameOk s src etype ftype seq jsn payload tag = true
  · obtain ⟨-, htype, -⟩ := frameOk_iff.mp hok
    rw [if_pos (frameOk_iff.mp hok), onFrame, if_neg (by simp [hup, htype]), if_pos hok]
    exact hk
  · rw [if_neg fun hall => hok (frameOk_iff.mpr hall), onFrame]
    simp only [hup, Bool.not_true, Bool.false_eq_true, false_or, if_neg hok]

end

/-- An ACK moves the acknowledged JSN on, and a lost peer is back once it covers what is durable here (R444, R448). -/
theorem acknowledged_eq (t : State) (jsn : Nat) :
    (if (t.onPair fun p => { p with acked := Nat.max p.acked jsn }).pair.peerLost = true ∧
          (t.onPair fun p => { p with acked := Nat.max p.acked jsn }).nv.durable ≤ (t.onPair fun p => { p with acked := Nat.max p.acked jsn }).pair.acked
      then (t.onPair fun p => { p with acked := Nat.max p.acked jsn }).onPair fun p => { p with peerLost := false }
      else t.onPair fun p => { p with acked := Nat.max p.acked jsn }) =
      t.onPair fun p => { p with acked := Nat.max p.acked jsn, peerLost := p.peerLost && !decide (t.nv.durable ≤ Nat.max p.acked jsn) } := by
  cases hlost : t.pair.peerLost <;> by_cases hcover : t.nv.durable ≤ Nat.max t.pair.acked jsn <;> simp [State.onPair, hlost, hcover]

/-- Settles O30: the landing port judges the frame, and its type's effect finds the role and the records that the frame found. -/
theorem shippingFrames : Obligations.ShippingFrames := by
  intro s src etype seq jsn recs payload last tag got held hup
  have hgot : got = landing s src etype seq jsn tag := rfl
  rw [hgot]
  refine ⟨fun hrole hrejoined => ?records, fun ⟨hp, hrole⟩ => ?ack, fun hrole => ?snapshot, fun hrole => ?object, fun ⟨hp, hrole⟩ => ?hello,
    fun hrole hrejoined => ?rejoin, ?mailbox⟩
  case records =>
    refine next_onFrame hup (if_pos ?_)
    simp [hrole, hrejoined]
  case ack =>
    refine next_onFrame hup ?_
    have hholds : holdsLease (frameTaken s seq) = true := holdsLease_of_role (by simpa using hp) (by simpa using hrole)
    dsimp only
    rw [if_neg (by simp [hholds]), acknowledged_eq, frameTaken_nv]
  case snapshot =>
    refine next_onFrame hup (if_neg ?_)
    simp [hrole]
  case object =>
    refine next_onFrame hup (if_pos ?_)
    simp [hrole]
  case hello =>
    refine next_onFrame hup (if_pos ?_)
    exact holdsLease_of_role (by simpa using hp) (by simpa using hrole)
  case rejoin =>
    refine next_onFrame hup ((if_neg ?_).trans (if_pos ?_))
    · obtain h | h := hrole <;> simp [holdsLease, h]
    · simp [hrole, hrejoined]
  case mailbox => exact next_onFrame hup rfl

end Sys2Proof.Machine
end

