-- ==== Sys2Proof/Proofs/SpdmCommands.lean ====
section
/-! PROOF. SPDM messages of a portal, and why the statement about them fails for a table of portals that is out of its one form (R324 to R326). -/

namespace Sys2Proof.Machine

/-- A portal's message reaches its answer while its link is up and the trust unit is not fenced (R324). -/
theorem onSpdm_of_ready {s : State} {p : Nat} (hp : s.hasPortal p = true) (hst : (s.portal p).st = .ready ∨ (s.portal p).st = .fenced)
    (hev : s.lic.evaluated = true) (h19 : s.domSt 19 ≠ .fenced) (k : Session → State → State) :
    onSpdm s p k = k (s.portal p).session (wake s 19) := by
  have hopen : ¬((!s.hasPortal p) = true ∨ (s.portal p).st = .down ∨ (s.portal p).st = .resetting ∨ (!s.lic.evaluated) = true) := by
    obtain h | h := hst <;> simp [hp, hev, h]
  rw [onSpdm, if_neg hopen, if_neg h19]

/-- A table of portals that lists portal 1 before portal 0, whose session is live. -/
def unsortedPortals : State :=
  { State.reset with
    portals := [(1, {}), (0, { st := .ready, session := { live := true } })]
    lic := { State.reset.lic with evaluated := true } }

/-- KEY_UPDATE with operation 3 changes no portal (R326). -/
theorem exec_keyUpdate_verify : exec (.keyUpdate 0 3) unsortedPortals = .next ((wake unsortedPortals 19).emit (.spdm 0 0x69 [3])) := by
  refine congrArg Host.Outcome.next ((onSpdm_of_ready (by decide) (.inl (by decide)) (by decide) (by decide) _).trans ?_)
  rfl

/-- Refutes O31: KEY_UPDATE with operation 3 leaves the table of portals alone, where the statement writes the portal's own entry back; into a table that is out of its one form that lists the portal twice. On a table in its one form the two agree. -/
theorem not_spdmCommands : ¬ Obligations.SpdmCommands := by
  intro h
  obtain ⟨-, -, -, -, -, -, -, -, -, -, hupdate, -⟩ := h unsortedPortals 0 0 0 0 0 3 true true 0 0 [] [] [] [] (by decide) (.inl (by decide)) (by decide) (by decide)
  have hnext := Host.Outcome.next.inj (exec_keyUpdate_verify.symm.trans (hupdate (by decide) (by decide) (by decide)))
  have hlength := congrArg (fun t : State => t.portals.length) hnext
  simp only [State.emit_portals, State.onSession, State.onPortal_portals, wake_portals] at hlength
  exact absurd hlength (by simp [unsortedPortals, FMap.set])

end Sys2Proof.Machine
end

