-- ==== Sys2Proof/Proofs/StoreCommands.lean ====
section
/-! PROOF. The fault collector's commands, and those of the persistent store: pages, blocks, the anchor and the ledge (R349 to R357, R408 to R431). -/

namespace Sys2Proof.Machine

/-- Settles O32: each command is one change of the collector, past its guard. -/
theorem collectorCommands : Obligations.CollectorCommands := by
  intro s src isCtx kind unit a
  refine ⟨fun hup => ?accept, rfl, rfl⟩
  case accept => exact next_if_neg (by simp [hup])

section
variable {s : State} {b : Nat}

theorem blockExists_of_lt (h : b < 16384) : ¬((!blockExists b) = true) := by simp [blockExists, h]

theorem not_blockExists (h : 16384 ≤ b) : (!blockExists b) = true := by simp [blockExists, h]

/-- The place of DRESS_BEGIN is the last record before the next one to be written. -/
theorem dressJsn_eq (n jsn : Nat) : (if n = jsn + 1 then jsn else n - 1) = n - 1 := by split <;> omega

end

/-- Settles O33: each command past its guards; what a read finds, and which state the store is in, decides the rest. -/
theorem storeCommands : Obligations.StoreCommands := by
  intro s typ b page to_ die cls id k body e second item data u up copied
  refine ⟨fun hlen => ⟨?write, fun hfull htyp => ?writeHeld⟩, fun hup => ?flush, fun hup hb hgood hplace => ?programmed, fun hup hb hgood => ?failed,
    fun hheld => next_if_pos hheld, rfl, fun hb hpage x => ?read, fun hb hage => ?age, fun hb hto hact => ⟨?moveFailed, ?moved⟩, fun hdie hlow => ?spares,
    fun hhead hstep => ?anchor, fun hhead => ?anchorFailed, fun hup hrole hmib hstep hact => ?dressing, fun hstep => next_if_pos ⟨rfl, hstep⟩, fun hopen hroom => ?ledge,
    fun hup hopen => ?merge, rfl, fun hb hgood hret => ⟨?erased, ?eraseFailed⟩, fun hb => ⟨?noErase, ?noAge, ?noRead, ?noProgram⟩⟩
  case write => exact next_if_neg (by omega)
  case writeHeld =>
    refine (next_if_neg (by omega)).trans (congrArg Host.Outcome.next (if_pos ?_))
    simp [hfull, htyp]
  case flush => exact next_if_neg (by simp [show nvDown s = false from hup])
  case programmed =>
    exact (if_neg (blockExists_of_lt hb)).trans ((next_if_neg (by simp [show nvDown s = false from hup, hgood])).trans ((next_if_neg (by simp)).trans (next_if_neg (not_not_intro hplace))))
  case failed => exact (if_neg (blockExists_of_lt hb)).trans ((next_if_neg (by simp [show nvDown s = false from hup, hgood])).trans (next_if_pos rfl))
  case read =>
    refine (if_neg (not_or.mpr ⟨blockExists_of_lt hb, Nat.not_le.mpr hpage⟩)).trans ?_
    cases x <;> rfl
  case age => exact (if_neg (blockExists_of_lt hb)).trans (next_if_pos hage)
  case moveFailed =>
    refine (if_neg (not_or.mpr ⟨blockExists_of_lt hb, blockExists_of_lt hto⟩)).trans ?_
    simp only [hact]
    rfl
  case moved =>
    refine (if_neg (not_or.mpr ⟨blockExists_of_lt hb, blockExists_of_lt hto⟩)).trans ?_
    simp only [hact]
    rfl
  case spares =>
    refine next_if_pos (List.any_eq_true.mpr ⟨die, List.mem_range.mpr hdie, ?_⟩)
    simpa using hlow
  case anchor =>
    refine (next_if_neg (not_not_intro hhead)).trans ((next_if_neg (by simp)).trans ?_)
    simp only [hstep, State.onNv_nv, if_true]
  case anchorFailed => exact (next_if_neg (not_not_intro hhead)).trans (next_if_pos rfl)
  case dressing =>
    refine (next_if_neg (by simp [show nvDown s = false from hup, hrole]; omega)).trans ?_
    simp only [hact, dressJsn_eq]
  case ledge => exact next_if_neg (by simp [hopen, hroom])
  case merge => exact next_if_neg (by simp [show nvDown s = false from hup, hopen])
  case erased => exact (if_neg (blockExists_of_lt hb)).trans ((next_if_neg (by simp [hgood, hret])).trans (next_if_pos rfl))
  case eraseFailed => exact (if_neg (blockExists_of_lt hb)).trans ((next_if_neg (by simp [hgood, hret])).trans (next_if_neg (by simp)))
  case noErase => exact if_pos (not_blockExists hb)
  case noAge => exact if_pos (not_blockExists hb)
  case noRead => exact if_pos (.inl (not_blockExists hb))
  case noProgram => exact if_pos (not_blockExists hb)

end Sys2Proof.Machine
end

