-- ==== Sys2Proof/Proofs/InstallationCommands.lean ====
section
/-! PROOF. Installations at the controller, and the integrity unit (R286 to R297, R392 to R404). -/

namespace Sys2Proof.Machine

/-- Settles O34: the installation that a message or a limit is about decides what follows. -/
theorem installationCommands : Obligations.InstallationCommands := by
  intro s id context k tag status crc arg x q t
  refine ⟨fun hof hphase hwait => ?ready, fun harg htag hreq hkind => ?elems, fun harg hof hwait hprep hstage => ?ack, fun hx hwait => ⟨fun hsil => ?drained, fun hsil hsends => ?again,
    fun hsil hsends => ?given⟩, fun hx hphase hwait => ?settle, rfl⟩
  case ready =>
    show execTsReady id context status crc s = _
    simp only [execTsReady, show instOf (heard s id) id context = _ from hof]
    refine (next_if_neg (by rw [hphase, hwait]; simp)).trans (congrArg Host.Outcome.next ?_)
    by_cases hok : status = 0 ∧ crc = crc32c (memberImage (x.switches.contains id) (t.roster id).stage)
    · exact (if_neg (by rw [not_or, Classical.not_not, Classical.not_not]; exact hok)).trans (if_pos hok).symm
    · exact (if_pos (by rw [ne_eq, ne_eq, ← Classical.not_and_iff_not_or_not]; exact hok)).trans (if_neg hok).symm
  case elems =>
    subst harg
    refine (next_if_pos htag).trans ?_
    simp only [show (heard s id).req id (arg.toNat % 65536) = _ from hreq]
    exact next_if_pos hkind
  case ack =>
    refine (next_if_neg (by simp [harg])).trans ?_
    simp only [show instOf (heard s id) id context = _ from hof]
    refine (next_if_neg (by rw [hwait]; simp [hprep, hstage])).trans ?_
    simp only [Bool.not_eq_true']
    rfl
  case drained =>
    show execInstallResend k s = _
    simp only [execInstallResend, hx]
    exact (next_if_neg hwait).trans (next_if_pos hsil)
  case again =>
    show execInstallResend k s = _
    simp only [execInstallResend, hx]
    exact (next_if_neg hwait).trans ((next_if_neg hsil).trans (next_if_pos hsends))
  case given =>
    show execInstallResend k s = _
    simp only [execInstallResend, hx]
    exact (next_if_neg hwait).trans ((next_if_neg hsil).trans (next_if_neg (Nat.not_lt.mpr hsends)))
  case settle =>
    show execSwitchSettle k s = _
    simp only [execSwitchSettle, hx]
    exact next_if_pos ⟨hphase, hwait⟩

/-- A portal's access to a unit that is absent is dropped; any other access is the unit's own (R5, R67). -/
theorem viaDomain_of_absent {s : State} {p d off size : Nat} {w : Word} {act : State → State} (h : s.domPresent d = false) :
    viaDomain s p d off size (some w) act = s.emit (.writeDone p) :=
  if_pos (by simp [h])

/-- Only the steward's write of IU_CLEAR has effect (R401, R404). -/
theorem iuClear_eq (s : State) (p : Nat) (w : Word) :
    iuClear s p w = if (s.portal p).role = .steward then (clearUnits s (fld w 55 0)).emit (.writeDone p) else regDenied s p 0x500100 := by
  rw [iuClear, ite_not]

/-- A test's result is recorded and enters the suspect machine (R397, R398). -/
def testJudged (id set : Nat) (unit : BitVec 12) (a : FAddr) (h code : Nat) (s : State) : State :=
  let hist (s : State) (v : Nat) : State := addHist s id { unit := unit, verdict := v, pattern := BitVec.ofNat 16 set, island := h, time := s.now }
  let s := if code = 0 then hist s 6 else if code = 1 then memberFault (hist s 7) a h unit 0x207 .degraded (own := set)
    else if code = 2 then memberFault s a h unit 0x208 .degraded (own := set) else s
  if code ≤ 4 then testVerdict s h (limitsFor s h) id unit code else s

/-- A test that has ended is no longer open; the ticket of an ITEST completes. -/
def testEnded (s : State) (test : Nat × Nat × Nat × Nat × Nat) (c tk code : Nat) : State :=
  let s := s.onInteg fun g => { g with tests := g.tests.erase test }
  if c = 0 then s else finishTicket s c tk (if code = 0 then stOk else if code = 1 ∨ code = 2 then stInvalid else stBusy)

/-- A test's end is recorded and judged; the boundary that waits for it goes on. -/
theorem exec_testResult_of_found {s : State} {id context set unit c tk : Nat} (arg : BitVec 32)
    (hfind : (heard s id).integ.tests.find? (fun t => t.1 == id && t.2.2.2.1 == context) = some (id, set, unit, c, tk)) :
    exec (.testResult id context arg) s = .next
      (let t := heard s id
       let a := (t.roster id).addr
       let u := testJudged id set (BitVec.ofNat 12 unit) a (islandOf t a) (bits arg.toNat 7 0) (testEnded t (id, set, unit, c, tk) c tk (bits arg.toNat 7 0))
       if c = 0 then waitDone u (4 * id + 1) else u) := by
  show execTestResult id context arg s = _
  simp only [execTestResult, hfind]
  rfl

/-- Settles O35: each event finds what it is about, and the unit's state decides the rest. -/
theorem integrityUnitCommands : Obligations.IntegrityUnitCommands := by
  intro s p off id context h epoch step desc n tk group data arg tag body k l t
  dsimp only
  refine ⟨fun ho hoff hshape => ⟨?write, fun hsel => if_pos hsel⟩, fun ho => ?clear, fun hfind => ⟨fun hstep => ?boundaryTest, fun hstep => ?itest⟩, fun hwaits => ?limit,
    fun hiu hlen h20 => ?report, fun hk htie => ?time, fun hk hl htie => ?repeats, fun ht hopen hop => ?ticket⟩
  case write =>
    refine (next_if_neg (by rw [ho, hshape]; simp; omega)).trans ?_
    by_cases hiu : s.hasIu = true
    · exact (next_if_neg (by simp [hiu])).trans (next_if_neg (not_not_intro hshape))
    · have habsent : s.domPresent 20 = false := by simpa [State.domPresent, State.hasIu] using hiu
      rw [viaDomain_of_absent habsent]
      exact next_if_pos (by simpa using hiu)
  case clear =>
    refine (next_if_neg (not_closed_of_portalOpen ho)).trans ?_
    simp only [iuClear_eq]
  case boundaryTest =>
    refine (exec_testResult_of_found arg hfind).trans ?_
    dsimp only
    rw [if_pos hstep, testEnded, if_pos hstep]
    rfl
  case itest =>
    refine (exec_testResult_of_found arg hfind).trans ?_
    dsimp only
    rw [if_neg hstep, testEnded, if_neg hstep]
    rfl
  case limit =>
    refine next_if_neg ?_
    simp only [hwaits]
    decide
  case report => exact (next_if_neg (by simp [hiu])).trans ((next_if_neg (not_not_intro hlen)).trans (next_if_neg h20))
  case time =>
    show execAdjTimeout h epoch step desc group s = _
    simp only [execAdjTimeout, hk, htie]
    exact next_if_neg Bool.false_ne_true
  case repeats =>
    show execRepeatTimeout h epoch step desc group s = _
    simp only [execRepeatTimeout, hk, hl, htie, if_true]
  case ticket =>
    have hlater : (t.op == 0xB0 || t.op == 0xB1 || t.op == 0xB3 || t.op == 0xB4 || t.op == 0xC5) = true := by
      simpa [or_assoc] using hop
    show execTicketComplete n tk s = _
    simp only [execTicketComplete, ht, hlater, hopen]
    exact next_if_neg (by simp)

end Sys2Proof.Machine
end

