-- ==== Sys2Proof/Proofs/AgentMessages.lean ====
section
/-! PROOF. What agents send to the controller (R110, R172, R216 to R238, R319 to R323, R381). -/

namespace Sys2Proof.Machine

/-- Settles O36: each message meets the request, channel or record that it is about. -/
theorem agentMessagesAtController : Obligations.AgentMessagesAtController := by
  intro s id n tag hdr x items regs q word ws recs tag32 m
  dsimp only
  refine ⟨fun hto hx hroom => ?queued, fun hto hx hfull hidle => ?dropped, fun hto => ?elsewhere, fun haddr => ?links, fun hreq hctl hkind => ?regs, fun hbit => ?aborted,
    fun hbit hreq hctl hkind => ⟨?keyOk, ?keyRefused⟩, fun hbit hreq hctl hkind => ?reset, fun hbit hreq hctl hkind => ?assigned, fun hreq hsends => ?resend,
    fun hm => ⟨fun hfull => ?wordTaken, fun hfull => ?wordDropped⟩, fun hlast => ?events, ?counters, ⟨?deferred, ?sampled⟩, fun hfld => ?scrubOk, fun hfld => ?scrubFailed,
    fun hst => next_if_pos hst, fun hst => next_if_pos hst, fun hn => ?chunks, fun haddr => next_if_neg haddr⟩
  case queued =>
    show execMessage hdr s = _
    simp only [execMessage, hto, hx]
    exact next_if_neg (by omega)
  case dropped =>
    show execMessage hdr s = _
    simp only [execMessage, hto, hx, hidle]
    exact next_if_pos (by omega)
  case elsewhere =>
    show execMessage hdr s = _
    simp only [execMessage, hto]
  case links => exact next_if_neg haddr
  case regs =>
    show execRegRsp id tag32 regs s = _
    simp only [execRegRsp, hreq]
    refine (next_if_neg (by simp [hctl, hkind])).trans ?_
    simp only [Bool.not_eq_true']
  case aborted => exact next_if_pos hbit
  case keyOk =>
    refine (next_if_neg (by rw [hbit]; decide)).trans ?_
    simp only [hreq]
    refine (next_if_neg (by simp [hkind])).trans ((next_if_neg (by simp [hctl])).trans ?_)
    exact (next_if_neg (by simp [hkind])).trans ((next_if_neg (by simp [hkind])).trans (next_if_pos hkind))
  case keyRefused =>
    refine (next_if_neg (by rw [hbit]; decide)).trans ?_
    simp only [hreq]
    refine (next_if_neg (by simp [hkind])).trans ((next_if_neg (by simp [hctl])).trans ?_)
    exact (next_if_neg (by simp [hkind])).trans ((next_if_neg (by simp [hkind])).trans (next_if_pos hkind))
  case reset =>
    refine (next_if_neg (by rw [hbit]; decide)).trans ?_
    simp only [hreq]
    refine (next_if_neg (by simp [hctl])).trans ((next_if_pos hctl).trans (next_if_pos ⟨hkind, rfl⟩))
  case assigned =>
    refine (next_if_neg (by rw [hbit]; decide)).trans ?_
    simp only [hreq]
    refine (next_if_neg (by simp [hkind])).trans ((next_if_neg (by simp [hctl])).trans ((next_if_pos hkind).trans (next_if_pos rfl)))
  case resend =>
    show execMgmtResend id tag s = _
    simp only [execMgmtResend, hreq]
    exact next_if_pos (by simpa only [resendLimit, Bool.not_eq_true'] using hsends)
  case wordTaken =>
    show execMbWordToController id tag32 word s = _
    simp only [execMbWordToController, hm, hfull]
    rfl
  case wordDropped =>
    show execMbWordToController id tag32 word s = _
    simp only [execMbWordToController, hm, hfull]
    rfl
  case events =>
    show execEvents id (n + 1) recs s = _
    simp only [execEvents, hlast, Option.getD_some, Nat.lt_irrefl, if_false, Nat.sub_self, List.drop_zero]
  case counters =>
    show execCounters id n ws s = _
    simp only [execCounters, Bool.or_eq_true, decide_eq_true_eq, Option.isNone_iff_eq_none]
  case deferred => rfl
  case sampled => rfl
  case scrubOk => exact next_if_pos hfld
  case scrubFailed => exact (next_if_neg (by rw [hfld]; decide)).trans (next_if_pos hfld)
  case chunks =>
    refine (next_if_neg hn).trans ?_
    simp only [Bool.not_eq_true']

end Sys2Proof.Machine
end

