-- ==== Sys2Proof/Proofs/LiveAgents.lean ====
section
/-! PROOF. Commands of an agent that is out of reset: the guards that each of them shares (R221, Table 7.6). -/

namespace Sys2Proof.Machine

open Sys2Proof.Safety

theorem next_onLive {s : State} {id : Nat} {a : Agent} (h : Live s id a) (act : Agent → State) :
    (Host.Outcome.next (onLive s id act) : Ans) = .next (act a) := by
  obtain ⟨hget, hin⟩ := h
  simp only [onLive, hget, hin, Bool.false_eq_true, if_false]

theorem next_onRequest {s : State} {id : Nat} {a : Agent} {q : Req} (h : Asks s id a q) (act : Agent → State → State) :
    (Host.Outcome.next (onRequest s id q act) : Ans) = .next (act a (asksNow s id q)) := by
  obtain ⟨⟨hget, hin⟩, hnew, hopen⟩ := h
  simp only [onRequest, hget, hin, Bool.false_eq_true, if_false, hnew, hopen]

/-- A repeated TAG is answered from the store (R221). -/
theorem next_onRequest_of_answered {s : State} {id : Nat} {a : Agent} {q : Req} {an : BitVec 32 × Answer} (h : Live s id a)
    (hold : (a.answers.getD q.ctrl []).find? (fun p => p.1 == q.tag && q.tag != 0) = some an) (act : Agent → State → State) :
    (Host.Outcome.next (onRequest s id q act) : Ans) = .next (emitAnswer (asksNow s id q) id q an.2) := by
  obtain ⟨hget, hin⟩ := h
  simp only [onRequest, hget, hin, Bool.false_eq_true, if_false, hold]

theorem next_onLink {s : State} {id n : Nat} {a : Agent} (h : Live s id a) (hn : n < 16) (act : Agent → Link → State) :
    (Host.Outcome.next (onLink s id n act) : Ans) = .next (act a (a.link n)) :=
  (next_onLive h _).trans (next_if_neg (Nat.not_le.mpr hn))

/-- What an operation does to an agent depends on the agent alone. -/
theorem State.onAgent_congr {s : State} {id : Nat} {a : Agent} {f g : Agent → Agent} (h : s.agents.get id = some a) (hfg : f a = g a) :
    s.onAgent id f = s.onAgent id g := by
  simp only [State.onAgent, FMap.upd, h, hfg]

end Sys2Proof.Machine
end

