-- ==== Sys2Proof/Proofs/Packets.lean ====
section
/-! PROOF. Packets at an agent: headers, detours and tails (R189, R195, R206, R207). -/

namespace Sys2Proof.Machine

open Sys2Proof.Safety

theorem Agent.leaveSlot_eq (a : Agent) (vc : Nat) : a.leaveSlot vc = { a with slots := if vc < 2 then a.slots.drop 1 else a.slots } := by
  unfold Agent.leaveSlot
  split <;> rfl

/-- Settles O37: each packet's way through the checks of its input, its wait and its tail. -/
theorem packetCommands : Obligations.PacketCommands := by
  intro s id i n vc bad a h payload flips q quay port entry hlive
  refine ⟨fun hi hn hsw => ?endpoint, fun hi hn hsw => ?switch, fun hdead hdet => ?detour, fun hq => ?tail⟩
  case endpoint =>
    refine (next_if_pos ⟨hi, hn⟩).trans ((next_onLive hlive _).trans ((next_if_neg (by simp [hsw])).trans ?_))
    simp only [Bool.not_eq_true']
    rfl
  case switch =>
    refine (next_if_pos ⟨hi, hn⟩).trans ((next_onLive hlive _).trans ((next_if_pos hsw).trans ?_))
    simp only [switchHeader, Bool.not_eq_true']
  case detour => exact (next_onLive hlive _).trans (next_if_neg (by simp [hdead, hdet]))
  case tail =>
    refine (next_onLive hlive _).trans ?_
    simp only [hq, Agent.leaveSlot_eq, decide_eq_true_eq]
    rfl

end Sys2Proof.Machine
end

