-- ==== Sys2Proof/Proofs/Flows.lean ====
section
/-! PROOF. Flows and injection at an agent (R190, R198 to R202, R214, R215). -/

namespace Sys2Proof.Machine

open Sys2Proof.Safety

/-- The oldest scheduled packet that has not slipped (R215). -/
theorem find?_unslipped {l1 l2 : List (Nat × Bool)} {n : Nat} (h : l1.all (·.2) = true) :
    (l1 ++ (n, false) :: l2).find? (fun e => !e.2) = some (n, false) := by
  induction l1 with
  | nil => rfl
  | cons e l ih =>
    simp only [List.all_cons, Bool.and_eq_true] at h
    rw [List.cons_append, List.find?_cons, h.1]
    exact ih h.2

theorem replaceFirst_unslipped {l1 l2 : List (Nat × Bool)} {n : Nat} (h : l1.all (·.2) = true) :
    replaceFirst (fun e => !e.2) (fun e => (e.1, true)) (l1 ++ (n, false) :: l2) = l1 ++ (n, true) :: l2 := by
  induction l1 with
  | nil => rfl
  | cons e l ih =>
    simp only [List.all_cons, Bool.and_eq_true] at h
    simp only [List.cons_append, replaceFirst, h.1, Bool.not_true, Bool.false_eq_true, if_false, ih h.2]

theorem TxFlow.tries_cons {f : TxFlow} {p : Pkt × Nat} {more : List (Pkt × Nat)} (h : f.out = p :: more) : f.tries = p.2 := by
  simp [TxFlow.tries, h]

/-- Settles O38: each command meets the flow, the held packet or the slot that it is about. -/
theorem flowCommands : Obligations.FlowCommands := by
  intro s id cls n cyc a h payload src seq f r j p more l1 l2 hlive
  refine ⟨fun hr hun => ?ackDelay, next_onLive hlive _, fun hf hout hend => ⟨fun hp => ?resent, fun hp => ?failed⟩, next_onLive hlive _,
    fun hfen => (next_onLive hlive _).trans (next_if_pos hfen), fun hfen hab => ⟨fun htyp has => ?dropped, fun hok => ?taken⟩, fun hj => ?reread,
    fun hfen hab hj hend => ?held, fun hslots hall => ?slot⟩
  case ackDelay =>
    refine (next_onLive hlive _).trans ?_
    simp only [hr]
    exact next_if_neg hun
  case resent =>
    refine (next_onLive hlive _).trans ?_
    simp only [hf]
    refine (next_if_neg (by simp [hout, hend])).trans (next_if_neg ?_)
    rw [TxFlow.tries_cons hout]
    omega
  case failed =>
    refine (next_onLive hlive _).trans ?_
    simp only [hf]
    refine (next_if_neg (by simp [hout, hend])).trans (next_if_pos ?_)
    rwa [TxFlow.tries_cons hout]
  case dropped =>
    exact (next_onLive hlive _).trans ((next_if_neg (by simp [hfen, hab])).trans (next_if_pos (by simp [htyp, has])))
  case taken =>
    exact (next_onLive hlive _).trans ((next_if_neg (by simp [hfen, hab])).trans (next_if_neg (by rcases hok with hok | hok <;> simp [hok])))
  case reread =>
    refine (next_onLive hlive _).trans ?_
    simp only [hj] <;> rfl
  case held =>
    refine (next_onLive hlive _).trans ((next_if_neg (by simp [hfen, hab])).trans ?_)
    simp only [hj]
    exact next_if_neg (by simp [hend])
  case slot =>
    refine (next_onLive hlive _).trans ?_
    simp only [hslots, find?_unslipped hall]
    rw [State.onAgent_congr hlive.1]
    simp only [hslots, replaceFirst_unslipped hall]

end Sys2Proof.Machine
end

