-- ==== Sys2Proof/Proofs/Links.lean ====
section
/-! PROOF. Links of an agent: flits and credits, lanes, hellos, time symbols, calibration and self-tests (R193, R205, R210, R211, R278, R306, R307, R384). -/

namespace Sys2Proof.Machine

open Sys2Proof.Safety

theorem not_down_or_past {live : Bool} {vc : Nat} (hlive : live = true) (hvc : vc < 6) : ¬((!live) = true ∨ 6 ≤ vc) := by
  simp [hlive, hvc]

/-- The link reports that wait for the end of the 10 ms limit (R224). -/
theorem sendReport_of_get {s : State} {id : Nat} {a : Agent} (h : s.agents.get id = some a) : sendReport s id =
    (agentMgmt s id (if bankInstalled a.bank then agentNet s id .ordinary else .ordinary) 0 0x0022 0 0 0 (reportBody a)).onAgent id
      fun x => { x with reportDue := false, reportAt := some s.now } := by
  simp only [sendReport, h]

/-- Settles O39: each command meets its link, lane or virtual channel. -/
theorem linkCommands : Obligations.LinkCommands := by
  intro s id n vc lane k w p rest depths counts mask a why pp sp l hlive hn
  refine ⟨fun hq hup hvc => ⟨fun hclosed => ?waits, fun hopen hserve => ?sent⟩, fun hup hvc => ?received, fun hup hvc => ?credited, fun hup hvc => ?freed,
    fun hup hreg => ⟨?restored, ?counted⟩, fun hvc => ⟨?xoff, ?xon⟩, fun hlane hk => ?codeword, fun hlane => ?uncorrectable,
    next_onLink hlive hn _, next_onLink hlive hn _, fun hup huse => ?keepalive, fun hok => ?hello, fun hup hpar => ?timeSymbol, fun hup => ?symbolSent,
    next_onLive hlive _, fun hdue has => ?holdoff, fun hwhy => ?selfTest, fun hcmp hno => ?quiet⟩
  case waits =>
    refine (next_onLink hlive hn _).trans ?_
    simp only [hq]
    exact (next_if_neg (not_down_or_past hup hvc)).trans (next_if_pos (by simp [l, hclosed]))
  case sent =>
    refine (next_onLink hlive hn _).trans ?_
    simp only [hq]
    exact (next_if_neg (not_down_or_past hup hvc)).trans ((next_if_neg (by simp [l, hopen])).trans (next_if_neg (by simp [l, hserve])))
  case received => exact (next_onLink hlive hn _).trans (next_if_neg (not_down_or_past hup hvc))
  case credited => exact (next_onLink hlive hn _).trans ((next_if_neg (not_down_or_past hup hvc)).trans (next_if_pos rfl))
  case freed => exact (next_onLink hlive hn _).trans ((next_if_neg (not_down_or_past hup hvc)).trans (next_if_neg Bool.false_ne_true))
  case restored => exact (next_onLink hlive hn _).trans ((next_if_neg (by simp [l, hup, hreg])).trans (next_if_pos rfl))
  case counted => exact (next_onLink hlive hn _).trans ((next_if_neg (by simp [l, hup, hreg])).trans (next_if_neg Bool.false_ne_true))
  case xoff => exact (next_onLink hlive hn _).trans (next_if_neg (by omega))
  case xon => exact (next_onLink hlive hn _).trans (next_if_neg (by omega))
  case codeword => exact (next_onLink hlive hn _).trans ((next_if_neg (by omega)).trans (next_if_pos hk))
  case uncorrectable => exact (next_onLink hlive hn _).trans ((next_if_neg (by omega)).trans ((next_if_neg (by omega)).trans (next_if_pos rfl)))
  case keepalive => exact (next_onLink hlive hn _).trans (next_if_pos (by simp [l, hup, huse]))
  case hello => exact (next_onLink hlive hn _).trans (next_if_neg (by rcases hok with hok | hok <;> simp [l, hok]))
  case timeSymbol => exact (next_onLink hlive hn _).trans (next_if_neg (by rw [show (a.link n).live = true from hup, hpar]; decide))
  case symbolSent => exact (next_onLink hlive hn _).trans (next_if_pos hup)
  case holdoff => exact (next_onLive hlive _).trans ((next_if_pos (by simp [hdue, has])).trans (congrArg _ (sendReport_of_get hlive.1)))
  case selfTest =>
    refine (next_onLive hlive _).trans ?_
    simp only [hwhy]
    match pp, sp, why with
    | false, false, _ => rfl
    | false, true, _ => rfl
    | true, false, _ => rfl
    | true, true, some true => rfl
    | true, true, some false => rfl
    | true, true, none => rfl
  case quiet => exact (next_onLive hlive _).trans (next_if_pos ⟨hcmp, by simp [hno]⟩)

/-- Settles O40: a sweep changes nothing on a link that is down. -/
theorem linkSweepCommands : Obligations.LinkSweepCommands := by
  intro s id a temp hlive
  refine ⟨?margin, ?calib⟩
  case margin =>
    refine (next_onLive hlive _).trans ?_
    simp only [Bool.not_eq_true', ← Bool.not_eq_true, ite_not]
  case calib =>
    refine (next_onLive hlive _).trans ?_
    simp only [Bool.not_eq_true', ← Bool.not_eq_true, ite_not]

end Sys2Proof.Machine
end

