-- ==== Sys2Proof/Proofs/AgentLife.lean ====
section
/-! PROOF. An agent's life, identity, registers, mailbox words and frames (R217, R220 to R225, R234 to R236). -/

namespace Sys2Proof.Machine

open Sys2Proof.Safety

/-- Settles O41: each request that an agent takes, and what it sends or counts of itself. -/
theorem agentManagementCommands : Obligations.AgentManagementCommands := by
  intro s id k a q hc cabled body items word tag st an
  refine ⟨fun hget => ?asserted, fun hget hin => ?released, fun hlive has hsp => ?announced, fun hask hbad => ?refused, fun hask hid hw => ?assigned,
    fun hlive hold => ⟨next_onRequest_of_answered hlive hold _, next_onRequest_of_answered hlive hold _, next_onRequest_of_answered hlive hold _⟩,
    fun hask h1 h2 h3 => ?regs, fun hask hbad => (next_onRequest hask _).trans (next_if_pos hbad),
    fun hask hfull => (next_onRequest hask _).trans (next_if_neg (by simp [hfull])), fun hask hfull => (next_onRequest hask _).trans (next_if_pos hfull),
    fun hlive hfull => (next_onLive hlive _).trans (next_if_pos hfull), fun hlive hfull htag => (next_onLive hlive _).trans (next_if_pos ⟨hfull, htag⟩),
    fun hlive hfull => (next_onLive hlive _).trans (next_if_neg (by simp [hfull])), fun hlive => next_onLive hlive _, fun hlive => next_onLive hlive _,
    fun hlive => ?frame⟩
  case asserted =>
    show execAgRstLAssert id s = _
    simp only [execAgRstLAssert, hget, Option.getD_some]
  case released =>
    show execAgentResetRelease id hc cabled s = _
    simp only [execAgentResetRelease, hget]
    exact next_if_neg (by simp [hin])
  case announced => exact (next_onLive hlive _).trans (next_if_neg (by simp [has, hsp]))
  case refused => exact (next_onRequest hask _).trans (next_if_pos hbad)
  case assigned => exact (next_onRequest hask _).trans (next_if_neg (by omega))
  case regs => exact (next_onRequest hask _).trans (next_if_neg (by omega))
  case frame =>
    refine (next_onLive hlive _).trans ?_
    simp only [Bool.not_eq_true']
    rfl

end Sys2Proof.Machine
end

