-- ==== Sys2Proof/Proofs/AgentFirmware.lean ====
section
/-! PROOF. The event buffer of an agent, and its firmware from the manifest to the verdict (R226 to R229, R237 to R239, R378 to R380). -/

namespace Sys2Proof.Machine

open Sys2Proof.Safety

/-- Settles O42: each command of the event buffer and of the loading of an image. -/
theorem eventAndFirmwareCommands : Obligations.EventAndFirmwareCommands := by
  intro s id k e a q r arg bytes body missing asked
  refine ⟨fun hlive => next_onLive hlive _, fun hlive => next_onLive hlive _, fun hlive he hnew => ?acked, fun hlive => next_onLive hlive _,
    fun hlive hlt hno => ?spoil, fun hask => next_onRequest hask _, fun hlive hl hk hlen hnew => ?chunk, fun hlive hl hk => ?beyond,
    fun hlive hl => ⟨(next_onLive hlive _).trans (next_if_pos hl), (next_onLive hlive _).trans (next_if_pos hl), (next_onLive hlive _).trans (next_if_pos hl)⟩,
    fun hlive hl => (next_onLive hlive _).trans (next_if_neg (by simp [hl]))⟩
  case acked =>
    refine (next_onLive hlive _).trans ?_
    simp only [he]
    exact next_if_neg (by omega)
  case spoil =>
    refine (next_onLive hlive _).trans ?_
    simp only [hno]
    exact next_if_neg (by simp [hlt])
  case chunk =>
    exact (next_onLive hlive _).trans ((next_if_neg (by simp [hl])).trans ((next_if_neg (by simp [hk, hlen, FwMan.chunkLen])).trans (next_if_neg (by rw [hnew]; decide))))
  case beyond => exact (next_onLive hlive _).trans ((next_if_neg (by simp [hl])).trans (next_if_pos (.inl hk)))

end Sys2Proof.Machine
end

