-- ==== Sys2Proof/Proofs/ResetsAndKeys.lean ====
section
/-! PROOF. Endpoint resets, scrubs, the key port and the steps of the power manager (R240 to R249, R331, R332). -/

namespace Sys2Proof.Machine

open Sys2Proof.Safety

theorem pmDone_of_run {s : State} {id n : Nat} {a : Agent} (hget : s.agents.get id = some a) (hrun : a.stepRun = some n) (f : AgStep → AgStep) :
    pmDone s id f = pmStart (s.onAgent id fun x =>
      { x with stepRun := none, steps := if x.stepQueue.contains n then x.steps else x.steps.put n (f (x.steps.getD n {})) {} }) id := by
  simp only [pmDone, hget, Option.bind_some, hrun]

theorem writeStep_of_get {s : State} {id : Nat} {a : Agent} (hget : s.agents.get id = some a) (n : Nat) (w : Word) :
    let v := limitStep (w.extractLsb' 16 8) (bits a.hc.pmLimit.toNat 7 0)
    let f := limitStep (w.extractLsb' 24 8) (bits a.hc.pmLimit.toNat 15 8)
    let x : AgStep := { unit := w.truncate 12, vstep := v, fstep := f, clamped := w.extractLsb' 16 8 != v || w.extractLsb' 24 8 != f }
    writeStep s id n w = pmStart (s.onAgent id fun y => { y with steps := y.steps.put n x {}, stepQueue := insertAsc n y.stepQueue }) id := by
  simp only [writeStep, hget]

/-- Settles O43: each answer meets the reset, the scrub, the key operation or the step that runs, late or in time. -/
theorem resetScrubAndKeyCommands : Obligations.ResetScrubAndKeyCommands := by
  intro s id n level a q o word body dbg meas failed last held closed scrubHeld scrubClosed timed took
  refine ⟨fun hask => ⟨next_onRequest hask _, next_onRequest hask _, next_onRequest hask _⟩, fun hlive => ⟨next_onLive hlive _, next_onLive hlive _⟩,
    fun hlive hlate => ⟨(next_onLive hlive _).trans (next_if_pos hlate), (next_onLive hlive _).trans (next_if_pos hlate)⟩,
    fun hlive hlate h0 => (next_onLive hlive _).trans ((next_if_neg (by simp [hlate])).trans (next_if_neg h0)),
    fun hlive h0 h4 => ⟨fun hlate => ?failed, ?failedLate⟩, fun hlive h4 => ⟨fun hlate => ?last, ?lastLate⟩,
    fun hlive hlate => ⟨(next_onLive hlive _).trans (next_if_pos hlate), (next_onLive hlive _).trans (next_if_pos hlate)⟩,
    fun hlive h3 => ⟨fun hlate => ?scrubFailed, ?scrubTimedOut⟩, fun hlive hlate h3 h6 => ?region, fun hlive hlate h6 => ?scrubbed,
    fun hlive hrun hlate => ⟨?keyDone, ?keyFailed, ?keyTimedOut⟩, fun hlive hrun hlate => ⟨?keyDoneLate, ?keyFailedLate⟩, fun hlive => next_onLive hlive _,
    fun hlive hno => (next_onLive hlive _).trans (next_if_neg (by simp [hno])), fun hlive hn => ?stepWritten,
    fun hlive hrun hq => ⟨?applied, ?stepRefused⟩⟩
  case failed =>
    exact (next_onLive hlive _).trans ((next_if_neg (by simp [hlate])).trans ((next_if_neg h0).trans (next_if_pos h4)))
  case failedLate => exact (next_onLive hlive _).trans ((next_if_neg h0).trans ((next_if_neg h0).trans (next_if_pos h4)))
  case last =>
    exact (next_onLive hlive _).trans ((next_if_neg (by simp [hlate])).trans ((next_if_neg (by omega)).trans (next_if_neg (by omega))))
  case lastLate => exact (next_onLive hlive _).trans ((next_if_neg (by omega)).trans ((next_if_neg (by omega)).trans (next_if_neg (by omega))))
  case scrubFailed => exact (next_onLive hlive _).trans ((next_if_neg (by simp [hlate])).trans (next_if_neg (by omega)))
  case scrubTimedOut => exact (next_onLive hlive _).trans (next_if_neg (by omega))
  case region =>
    refine (next_onLive hlive _).trans ((next_if_neg (by simp [hlate])).trans ((next_if_neg (by omega)).trans ((next_if_pos (by omega)).trans ?_)))
    rw [show a.scrub.step - 3 + 1 = a.scrub.step - 2 by omega]
  case scrubbed =>
    exact (next_onLive hlive _).trans ((next_if_neg (by simp [hlate])).trans ((next_if_neg (by omega)).trans (next_if_neg (by omega))))
  case keyDone =>
    refine (next_onLive hlive _).trans ?_
    simp only [hrun]
    exact next_if_neg (by simp [hlate])
  case keyFailed =>
    refine (next_onLive hlive _).trans ?_
    simp only [hrun, hlate, Bool.false_eq_true, if_false]
  case keyTimedOut =>
    refine (next_onLive hlive _).trans ?_
    simp only [hrun]
    exact next_if_neg (by simp [hlate])
  case keyDoneLate =>
    refine (next_onLive hlive _).trans ?_
    simp only [hrun]
    exact next_if_pos hlate
  case keyFailedLate =>
    refine (next_onLive hlive _).trans ?_
    simp only [hrun, hlate, if_true]
  case stepWritten => exact (next_onLive hlive _).trans ((next_if_pos hn).trans (congrArg _ (writeStep_of_get hlive.1 n word)))
  case applied => exact (next_onLive hlive _).trans (congrArg _ (pmDone_of_run hlive.1 hrun _))
  case stepRefused => exact (next_onLive hlive _).trans (next_if_neg (by simp [hrun]))

end Sys2Proof.Machine
end

