-- ==== Sys2Proof/Proofs/AgentInstallations.lean ====
section
/-! PROOF. An installation at an agent, its drain, and an island's abort (R284 to R290, R373 to R375). -/

namespace Sys2Proof.Machine

open Sys2Proof.Safety

theorem answerQuiesce_of_some {s : State} {id : Nat} {a : Agent} {q : Req} (h : a.ts.quiesce = some q) :
    answerQuiesce s id a = tsAck (s.onAgent id fun x => { x with ts := { x.ts with quiesce := none } }) id q stOk (drainArg a.undrained) := by
  simp only [answerQuiesce, h]

/-- Settles O44: each packet meets the phase of Table 9.5 that the agent is in. -/
theorem agentInstallationCommands : Obligations.AgentInstallationCommands := by
  intro s id table first count epoch restart a q r bytes net hdr u hlive
  refine ⟨fun href => (next_onLive hlive _).trans (next_if_neg (by simp [href])), fun href => ⟨(next_onLive hlive _).trans (next_if_pos href), ?refilled⟩,
    fun hsw hep => ⟨?badPrepare, ?badQuiesce, ?badCommit, ?badRelease, ?badAbandon⟩,
    fun hep => ⟨fun hst => ⟨?prepared, ?releasedOpen⟩, fun hst hdone => ?held, fun hst hsw hun => ?draining, fun hst => ?committed,
      fun hst => ⟨?committedAgain, ?released⟩, fun hst => ?early, ?abandoned⟩,
    fun hqu => ⟨?limit, fun hun => ?drained⟩, fun hh harg => ⟨fun hf => ?abortedAgain, fun hf => ?aborted⟩, fun hoff => ?elsewhere⟩
  case refilled => exact (next_onLive hlive _).trans (next_if_neg (by simp [href]))
  case badPrepare => exact (next_onLive hlive _).trans (next_if_pos (by simp [hsw, hep]))
  case badQuiesce => exact (next_onLive hlive _).trans (next_if_pos (by simp [hep]))
  case badCommit => exact (next_onLive hlive _).trans (next_if_pos (by simp [hep]))
  case badRelease => exact (next_onLive hlive _).trans (next_if_pos (by simp [hep]))
  case badAbandon => exact (next_onLive hlive _).trans (next_if_pos (by simp [hep]))
  case prepared =>
    refine (next_onLive hlive _).trans ((next_if_neg (by simp [hep])).trans ?_)
    simp only [hst]
  case releasedOpen =>
    refine (next_onLive hlive _).trans ((next_if_neg (by simp [hep])).trans ?_)
    simp only [hst]
  case held =>
    have hwait : (!a.hc.isSwitch && decide (0 < a.undrained)) = false := by rcases hdone with h | h <;> simp [h]
    refine (next_onLive hlive _).trans ((next_if_neg (by simp [hep])).trans ?_)
    simp only [hst, hwait, Bool.false_eq_true, if_false]
  case draining =>
    have hwait : (!a.hc.isSwitch && decide (0 < a.undrained)) = true := by simp [hsw, hun]
    refine (next_onLive hlive _).trans ((next_if_neg (by simp [hep])).trans ?_)
    simp only [hst, hwait, if_true]
  case committed =>
    refine (next_onLive hlive _).trans ((next_if_neg (by simp [hep])).trans ?_)
    simp only [hst]
  case committedAgain =>
    refine (next_onLive hlive _).trans ((next_if_neg (by simp [hep])).trans ?_)
    simp only [hst]
  case released =>
    refine (next_onLive hlive _).trans ((next_if_neg (by simp [hep])).trans ?_)
    simp only [hst]
  case early =>
    refine (next_onLive hlive _).trans ((next_if_neg (by simp [hep])).trans ?_)
    rcases hst with hst | hst <;> simp only [hst]
  case abandoned => exact (next_onLive hlive _).trans (next_if_neg (by simp [hep]))
  case limit => exact (next_onLive hlive _).trans (congrArg _ (answerQuiesce_of_some hqu))
  case drained => exact (next_onLive hlive _).trans ((next_if_pos hun).trans (congrArg _ (answerQuiesce_of_some hqu)))
  case abortedAgain => exact (next_onLive hlive _).trans ((next_if_neg (by simp [hh, harg])).trans (next_if_pos hf))
  case aborted => exact (next_onLive hlive _).trans ((next_if_neg (by simp [hh, harg])).trans (next_if_neg (by simp [hf])))
  case elsewhere => exact (next_onLive hlive _).trans (next_if_pos hoff)

end Sys2Proof.Machine
end

