-- ==== Sys2Proof/Proofs/AgentIntegrity.lean ====
section
/-! PROOF. The digest engine and the targeted tests of an agent (R388 to R392, R398 to R400). -/

namespace Sys2Proof.Machine

open Sys2Proof.Safety

/-- Settles O45: each command meets the queue, the report or the test that it is about. -/
theorem agentIntegrityCommands : Obligations.AgentIntegrityCommands := by
  intro s id i slot set off is rest a q d t rep arg tag data bytes
  refine ⟨fun hlive hrun hroom => ?queued, fun hlive hrun hfull hnew hviol => ?full, fun hlive hrun => (next_onLive hlive _).trans (next_if_pos hrun),
    fun hlive hq hbusy hrun hd => ?digested, fun hlive hrep => ⟨fun hs => ?resent, fun hs => ?givenUp⟩,
    fun hlive hrun => (next_onLive hlive _).trans (next_if_neg (not_not_intro hrun)),
    fun hlive hrun => ⟨(next_onLive hlive _).trans (next_if_pos hrun), (next_onLive hlive _).trans (next_if_pos hrun)⟩,
    fun hlive ht => ⟨?testTimedOut, fun hrun => ?testFailed⟩,
    fun hlive hrun ht harg => ⟨fun hgood hmore => ?nextEntry, fun hgood hend => ?passed, fun hbad => ?mismatch⟩,
    fun hask hslot hne hlen hoff hno => ?pattern, fun hask hslot hne hlen hoff ht hsl => ?patternHeld⟩
  case queued =>
    have hfull : decide (4 ≤ a.integ.queue.length) = false := by simp [hroom]
    refine (next_onLive hlive _).trans ((next_if_neg (not_not_intro hrun)).trans ?_)
    rw [hfull]
    simp only [Bool.and_eq_true, Bool.not_eq_true', decide_eq_true_eq]
    rfl
  case full =>
    refine (next_onLive hlive _).trans ((next_if_neg (not_not_intro hrun)).trans ?_)
    rw [decide_eq_true hfull, hnew]
    dsimp only
    rw [hviol]
    rfl
  case digested =>
    refine (next_onLive hlive _).trans ?_
    simp only [hq, hd]
    exact next_if_neg (by simp [hbusy, hrun])
  case resent =>
    refine (next_onLive hlive _).trans ?_
    simp only [hrep]
    exact next_if_neg (by omega)
  case givenUp =>
    refine (next_onLive hlive _).trans ?_
    simp only [hrep]
    exact next_if_pos hs
  case testTimedOut =>
    refine (next_onLive hlive _).trans ?_
    simp only [ht]
  case testFailed =>
    refine (next_onLive hlive _).trans ((next_if_neg (not_not_intro hrun)).trans ?_)
    simp only [ht]
    exact next_if_pos (by decide)
  case nextEntry =>
    refine (next_onLive hlive _).trans ((next_if_neg (not_not_intro hrun)).trans ?_)
    simp only [ht]
    exact (next_if_neg harg).trans ((next_if_neg (not_not_intro hgood)).trans (next_if_pos hmore))
  case passed =>
    refine (next_onLive hlive _).trans ((next_if_neg (not_not_intro hrun)).trans ?_)
    simp only [ht]
    exact (next_if_neg harg).trans ((next_if_neg (not_not_intro hgood)).trans (next_if_neg (by omega)))
  case mismatch =>
    refine (next_onLive hlive _).trans ((next_if_neg (not_not_intro hrun)).trans ?_)
    simp only [ht]
    exact (next_if_neg harg).trans (next_if_pos hbad)
  case pattern =>
    exact (next_onRequest hask _).trans ((next_if_neg (by simp [hne]; omega)).trans (next_if_neg (by simp [hno])))
  case patternHeld =>
    exact (next_onRequest hask _).trans ((next_if_neg (by simp [hne]; omega)).trans (next_if_pos (by simp [ht, hsl])))

end Sys2Proof.Machine
end
